-- ==== Sys2Proof/Word.lean ====
section
/-! DEFINITION. The word types of OC-VN32 and their plainest arithmetic (R2, R25). -/

namespace Sys2Proof

/-- A 64-bit register value (R25). -/
abbrev Word := BitVec 64

/-- One byte of memory. -/
abbrev Byte := BitVec 8

/-- An instruction word (R41). -/
abbrev IWord := BitVec 32

end Sys2Proof
end

