-- ==== Sys2Proof/Syntax.lean ====
section
/-! DEFINITION. The instructions and event steps of OC-VN32: one constructor per row of spec/opcode_table.json.
The 256 encoded rows carry the fields of their encoding (R42, R48), named as the table names them; k is the park bit
(R41). The 115 rows without an encoding are steps of the machine's other parties; their operands say which strand,
core, packet or register the step happens to. -/

namespace Sys2Proof

/-- A tagged long-latency result on its way back (R26): value, whether it is poisoned (R147), flags that come with it. -/
structure LateValue where
  tag : Nat
  value : Word
  poison : Bool
  flags : BitVec 5
  deriving DecidableEq, Repr

/-- What is forwarded in N1 to a strand's native core (R34). -/
inductive Forwarded where
  /-- a tagged result -/
  | result (v : LateValue)
  /-- one store acknowledgement -/
  | ack
  deriving DecidableEq, Repr

/-- A notice or report on its way to a queue (R417): q is 9, 11, or 0 for a dispatcher's fault record. -/
structure Notice where
  q : Nat
  place : Nat
  sc : Nat
  block : Nat
  word : Word
  /-- the place that sends it -/
  from_ : Nat
  deriving DecidableEq, Repr

/-- What a loaded file brings, in file order (R24, R107, R121, R189, R266, R305, R337, R414). -/
inductive LaunchSpec where
  /-- data placed at a PA; scratchpad words are marked full, or empty -/
  | data (pa : Nat) (bytes : List Byte) (empty : Bool)
  /-- uncorrectable errors injected into the granules of a range -/
  | inject (pa len : Nat)
  /-- a page of the file's tables that is not valid at dispatch: the PA of its entry, its address space and VA (R284) -/
  | absent (pte asn va : Nat)
  /-- the MC makes such a page valid -/
  | present (pte asn va : Nat)
  /-- a grid whose record stands at a hub offset of module m, with the tiles (core, tile, base, length) that it defines -/
  | grid (m off owner : Nat) (tiles : List (Nat × Nat × Nat × Nat))
  /-- a Caller program, with the hub offset of its file's 64 record images -/
  | caller (m owner asn root recs : Nat) (pc : Word)
  /-- an MC program, with the offset of its record images in the MC's SRAM -/
  | mc (m owner recs : Nat) (pc : Word)
  deriving DecidableEq, Repr

/-- The instructions and event steps. -/
inductive Instr where
  /-- `ld.b` (R147): Loads a sign-extended byte through a record operand with an immediate (MI form). -/
  | ldB (i : BitVec 6) (n : BitVec 6) (x : BitVec 5) (d : BitVec 5) (k : BitVec 1)
  /-- `ld.h` (R147): Loads a sign-extended halfword (MI form). -/
  | ldH (i : BitVec 6) (n : BitVec 6) (x : BitVec 5) (d : BitVec 5) (k : BitVec 1)
  /-- `ld.w` (R147): Loads a sign-extended word (MI form). -/
  | ldW (i : BitVec 6) (n : BitVec 6) (x : BitVec 5) (d : BitVec 5) (k : BitVec 1)
  /-- `ld.d` (R147): Loads a double word (MI form). -/
  | ldD (i : BitVec 6) (n : BitVec 6) (x : BitVec 5) (d : BitVec 5) (k : BitVec 1)
  /-- `ld.bu` (R147): Loads a zero-extended byte (MI form). -/
  | ldBu (i : BitVec 6) (n : BitVec 6) (x : BitVec 5) (d : BitVec 5) (k : BitVec 1)
  /-- `ld.hu` (R147): Loads a zero-extended halfword (MI form). -/
  | ldHu (i : BitVec 6) (n : BitVec 6) (x : BitVec 5) (d : BitVec 5) (k : BitVec 1)
  /-- `ld.wu` (R147): Loads a zero-extended word (MI form). -/
  | ldWu (i : BitVec 6) (n : BitVec 6) (x : BitVec 5) (d : BitVec 5) (k : BitVec 1)
  /-- `ld.b.<o>.<p>` (R147): Loads a sign-extended byte with order and policy suffixes (MX form). -/
  | ldBMx (o : BitVec 2) (p : BitVec 2) (n : BitVec 6) (x : BitVec 5) (d : BitVec 5) (k : BitVec 1)
  /-- `ld.h.<o>.<p>` (R147): Loads a sign-extended halfword (MX form). -/
  | ldHMx (o : BitVec 2) (p : BitVec 2) (n : BitVec 6) (x : BitVec 5) (d : BitVec 5) (k : BitVec 1)
  /-- `ld.w.<o>.<p>` (R147): Loads a sign-extended word (MX form). -/
  | ldWMx (o : BitVec 2) (p : BitVec 2) (n : BitVec 6) (x : BitVec 5) (d : BitVec 5) (k : BitVec 1)
  /-- `ld.d.<o>.<p>` (R147): Loads a double word (MX form). -/
  | ldDMx (o : BitVec 2) (p : BitVec 2) (n : BitVec 6) (x : BitVec 5) (d : BitVec 5) (k : BitVec 1)
  /-- `ld.bu.<o>.<p>` (R147): Loads a zero-extended byte (MX form). -/
  | ldBuMx (o : BitVec 2) (p : BitVec 2) (n : BitVec 6) (x : BitVec 5) (d : BitVec 5) (k : BitVec 1)
  /-- `ld.hu.<o>.<p>` (R147): Loads a zero-extended halfword (MX form). -/
  | ldHuMx (o : BitVec 2) (p : BitVec 2) (n : BitVec 6) (x : BitVec 5) (d : BitVec 5) (k : BitVec 1)
  /-- `ld.wu.<o>.<p>` (R147): Loads a zero-extended word (MX form). -/
  | ldWuMx (o : BitVec 2) (p : BitVec 2) (n : BitVec 6) (x : BitVec 5) (d : BitVec 5) (k : BitVec 1)
  /-- `st.b` (R147): Stores a byte through a record operand with an immediate (MI form). -/
  | stB (i : BitVec 6) (n : BitVec 6) (x : BitVec 5) (s : BitVec 5) (k : BitVec 1)
  /-- `st.h` (R147): Stores a halfword (MI form). -/
  | stH (i : BitVec 6) (n : BitVec 6) (x : BitVec 5) (s : BitVec 5) (k : BitVec 1)
  /-- `st.w` (R147): Stores a word (MI form). -/
  | stW (i : BitVec 6) (n : BitVec 6) (x : BitVec 5) (s : BitVec 5) (k : BitVec 1)
  /-- `st.d` (R147): Stores a double word (MI form). -/
  | stD (i : BitVec 6) (n : BitVec 6) (x : BitVec 5) (s : BitVec 5) (k : BitVec 1)
  /-- `st.b.<o>.<p>` (R147): Stores a byte with order and policy suffixes (MX form). -/
  | stBMx (o : BitVec 2) (p : BitVec 2) (n : BitVec 6) (x : BitVec 5) (s : BitVec 5) (k : BitVec 1)
  /-- `st.h.<o>.<p>` (R147): Stores a halfword (MX form). -/
  | stHMx (o : BitVec 2) (p : BitVec 2) (n : BitVec 6) (x : BitVec 5) (s : BitVec 5) (k : BitVec 1)
  /-- `st.w.<o>.<p>` (R147): Stores a word (MX form). -/
  | stWMx (o : BitVec 2) (p : BitVec 2) (n : BitVec 6) (x : BitVec 5) (s : BitVec 5) (k : BitVec 1)
  /-- `st.d.<o>.<p>` (R147): Stores a double word (MX form). -/
  | stDMx (o : BitVec 2) (p : BitVec 2) (n : BitVec 6) (x : BitVec 5) (s : BitVec 5) (k : BitVec 1)
  /-- `amo.add` (R150): Atomically adds the operand to memory and returns the old value. -/
  | amoAdd (o : BitVec 2) (n : BitVec 6) (x : BitVec 5) (z : BitVec 1) (d : BitVec 5) (k : BitVec 1)
  /-- `amo.swap` (R150): Atomically swaps the operand with memory. -/
  | amoSwap (o : BitVec 2) (n : BitVec 6) (x : BitVec 5) (z : BitVec 1) (d : BitVec 5) (k : BitVec 1)
  /-- `amo.and` (R150): Atomic bitwise AND into memory. -/
  | amoAnd (o : BitVec 2) (n : BitVec 6) (x : BitVec 5) (z : BitVec 1) (d : BitVec 5) (k : BitVec 1)
  /-- `amo.or` (R150): Atomic bitwise OR into memory. -/
  | amoOr (o : BitVec 2) (n : BitVec 6) (x : BitVec 5) (z : BitVec 1) (d : BitVec 5) (k : BitVec 1)
  /-- `amo.xor` (R150): Atomic bitwise XOR into memory. -/
  | amoXor (o : BitVec 2) (n : BitVec 6) (x : BitVec 5) (z : BitVec 1) (d : BitVec 5) (k : BitVec 1)
  /-- `amo.min` (R150): Atomic signed minimum into memory. -/
  | amoMin (o : BitVec 2) (n : BitVec 6) (x : BitVec 5) (z : BitVec 1) (d : BitVec 5) (k : BitVec 1)
  /-- `amo.max` (R150): Atomic signed maximum into memory. -/
  | amoMax (o : BitVec 2) (n : BitVec 6) (x : BitVec 5) (z : BitVec 1) (d : BitVec 5) (k : BitVec 1)
  /-- `amo.minu` (R150): Atomic unsigned minimum into memory. -/
  | amoMinu (o : BitVec 2) (n : BitVec 6) (x : BitVec 5) (z : BitVec 1) (d : BitVec 5) (k : BitVec 1)
  /-- `amo.maxu` (R150): Atomic unsigned maximum into memory. -/
  | amoMaxu (o : BitVec 2) (n : BitVec 6) (x : BitVec 5) (z : BitVec 1) (d : BitVec 5) (k : BitVec 1)
  /-- `amo.fadd.s` (R150): Atomic binary32 addition into memory, flags returned with the old value. -/
  | amoFaddS (o : BitVec 2) (n : BitVec 6) (x : BitVec 5) (d : BitVec 5) (k : BitVec 1)
  /-- `amo.cas` (R150): Atomic compare-and-swap using the register pair sd, sd+1. -/
  | amoCas (o : BitVec 2) (n : BitVec 6) (x : BitVec 5) (z : BitVec 1) (d : BitVec 5) (k : BitVec 1)
  /-- `take` (R152): Reads a full/empty word and marks it empty, waiting while it is empty. -/
  | take (o : BitVec 2) (n : BitVec 6) (x : BitVec 5) (d : BitVec 5) (k : BitVec 1)
  /-- `peek` (R152): Reads a full/empty word, waiting while it is empty. -/
  | peek (o : BitVec 2) (n : BitVec 6) (x : BitVec 5) (d : BitVec 5) (k : BitVec 1)
  /-- `give` (R152): Writes an empty full/empty word and marks it full, waiting while it is full. -/
  | give (o : BitVec 2) (n : BitVec 6) (x : BitVec 5) (s : BitVec 5) (k : BitVec 1)
  /-- `fill` (R152): Writes a full/empty word and marks it full regardless of its state. -/
  | fill (o : BitVec 2) (n : BitVec 6) (x : BitVec 5) (s : BitVec 5) (k : BitVec 1)
  /-- `femark` (R152): Marks a full/empty word full. -/
  | femark (o : BitVec 2) (n : BitVec 6) (x : BitVec 5) (k : BitVec 1)
  /-- `feclear` (R152): Marks a full/empty word empty. -/
  | feclear (o : BitVec 2) (n : BitVec 6) (x : BitVec 5) (k : BitVec 1)
  /-- `fequery` (R152): Writes 1 if the word is full and 0 if it is empty. -/
  | fequery (o : BitVec 2) (n : BitVec 6) (x : BitVec 5) (d : BitVec 5) (k : BitVec 1)
  /-- `watch.eq` (R154): Parks until a vault word equals the comparand or the timeout passes. -/
  | watchEq (o : BitVec 2) (n : BitVec 6) (x : BitVec 5) (v : BitVec 5) (k : BitVec 1)
  /-- `watch.ne` (R154): Parks until a vault word differs from the comparand or the timeout passes. -/
  | watchNe (o : BitVec 2) (n : BitVec 6) (x : BitVec 5) (v : BitVec 5) (k : BitVec 1)
  /-- `watch.lt` (R154): Parks until a vault word is signed-less than the comparand or the timeout passes. -/
  | watchLt (o : BitVec 2) (n : BitVec 6) (x : BitVec 5) (v : BitVec 5) (k : BitVec 1)
  /-- `watch.ge` (R154): Parks until a vault word is signed-greater-or-equal to the comparand or the timeout passes. -/
  | watchGe (o : BitVec 2) (n : BitVec 6) (x : BitVec 5) (v : BitVec 5) (k : BitVec 1)
  /-- `watch.ltu` (R154): Parks until a vault word is unsigned-less than the comparand or the timeout passes. -/
  | watchLtu (o : BitVec 2) (n : BitVec 6) (x : BitVec 5) (v : BitVec 5) (k : BitVec 1)
  /-- `watch.geu` (R154): Parks until a vault word is unsigned-greater-or-equal to the comparand or the timeout passes. -/
  | watchGeu (o : BitVec 2) (n : BitVec 6) (x : BitVec 5) (v : BitVec 5) (k : BitVec 1)
  /-- `fence.acq` (R158): Waits for all outstanding results and invalidates the L1. -/
  | fenceAcq (s : BitVec 5) (k : BitVec 1)
  /-- `fence.rel` (R158): Waits for stores to be accepted and engine counts of the scope to reach zero. -/
  | fenceRel (s : BitVec 5) (k : BitVec 1)
  /-- `fence.full` (R158): Performs the waits of both release and acquire fences and invalidates the L1. -/
  | fenceFull (s : BitVec 5) (k : BitVec 1)
  /-- `fence.eng` (R158): Waits for the engine operation counts of the scope to reach zero. -/
  | fenceEng (s : BitVec 5) (k : BitVec 1)
  /-- `discard` (R160): Sends an engine request to drop slice lines of a range without write-back. -/
  | discard (n : BitVec 5) (a : BitVec 5) (b : BitVec 5) (k : BitVec 1)
  /-- `prefetch` (R160): Sends an engine request to bring a range into the slice. -/
  | prefetch (n : BitVec 5) (a : BitVec 5) (b : BitVec 5) (k : BitVec 1)
  /-- `flush` (R160): Sends an engine request to write back dirty sectors of a range. -/
  | flush (n : BitVec 5) (a : BitVec 5) (b : BitVec 5) (k : BitVec 1)
  /-- `invl1` (R159): Invalidates the current core's L1 without waiting. -/
  | invl1 (k : BitVec 1)
  /-- `tdef` (R163): Defines a tile's base and length. -/
  | tdef (l : BitVec 1) (m : BitVec 1) (t : BitVec 6) (a : BitVec 5) (b : BitVec 5) (k : BitVec 1)
  /-- `texp` (R163): Sets a tile filling with an expected byte count. -/
  | texp (l : BitVec 1) (t : BitVec 6) (a : BitVec 5) (k : BitVec 1)
  /-- `tstate` (R165): Writes the sampled state of a tile. -/
  | tstate (t : BitVec 6) (d : BitVec 5) (k : BitVec 1)
  /-- `twait` (R163): Parks until the tile is ready or faulted while filling. -/
  | twait (t : BitVec 6) (k : BitVec 1)
  /-- `tready` (R163): Makes a tile ready. -/
  | tready (t : BitVec 6) (k : BitVec 1)
  /-- `tdrain` (R163): Empties a ready tile, or moves it to draining while a range lock overlaps. -/
  | tdrain (t : BitVec 6) (k : BitVec 1)
  /-- `treset` (R163): Returns a defined tile to empty with counts and faulted cleared. -/
  | treset (t : BitVec 6) (k : BitVec 1)
  /-- `rec.ld` (R168): Loads a record b56-b63 of the home core's table from memory. -/
  | recLd (l : BitVec 1) (n : BitVec 6) (a : BitVec 5) (m : BitVec 5) (k : BitVec 1)
  /-- `rec.st` (R168): Stores the image of a record to memory. -/
  | recSt (l : BitVec 1) (n : BitVec 6) (a : BitVec 5) (m : BitVec 5) (k : BitVec 1)
  /-- `go` (R56): Moves the strand to the core named in the operand. -/
  | go (l : BitVec 1) (a : BitVec 5) (k : BitVec 1)
  /-- `gohome` (R57): Returns the strand to its native slot. -/
  | gohome (k : BitVec 1)
  /-- `goa` (R58): Moves the strand to the home of a translated address. -/
  | goa (l : BitVec 1) (n : BitVec 5) (a : BitVec 5) (k : BitVec 1)
  /-- `lug` (R35): Declares scratchpad luggage for the next departure. -/
  | lug (l : BitVec 1) (m : BitVec 1) (b : BitVec 5) (a : BitVec 5) (k : BitVec 1)
  /-- `meet` (R70): Travels to the meeting core of a key and asks the meeting table for a partner. -/
  | meet (l : BitVec 1) (m : BitVec 1) (b : BitVec 5) (a : BitVec 5) (d : BitVec 5) (k : BitVec 1)
  /-- `part` (R76): Ends the strand's meeting. -/
  | part_ (k : BitVec 1)
  /-- `pget` (R73): Copies a partner register into an own register. -/
  | pget (p : BitVec 5) (d : BitVec 5) (k : BitVec 1)
  /-- `pput` (R73): Writes an own value into a partner register and marks it full. -/
  | pput (l : BitVec 1) (a : BitVec 5) (p : BitVec 5) (k : BitVec 1)
  /-- `pxch` (R73): Exchanges an own register with a full partner register. -/
  | pxch (p : BitVec 5) (d : BitVec 5) (k : BitVec 1)
  /-- `plug` (R73): Writes the partner's luggage length and floor offset. -/
  | plug (d : BitVec 5) (k : BitVec 1)
  /-- `where` (R60): Writes the pod core id of the core where the strand stands. -/
  | whereIs (d : BitVec 5) (k : BitVec 1)
  /-- `symq` (R118): Writes the symbolic state of a register. -/
  | symq (x : BitVec 5) (d : BitVec 5) (k : BitVec 1)
  /-- `symw` (R120): Parks until a register is neither symbolic nor awaiting a result. -/
  | symw (x : BitVec 5) (k : BitVec 1)
  /-- `symtag` (R119): Writes the origin of the value a register awaits. -/
  | symtag (x : BitVec 5) (d : BitVec 5) (k : BitVec 1)
  /-- `spawn` (R271): Saves the continuation as a deque or inline frame and continues at the target. -/
  | spawn (o : BitVec 12) (n : BitVec 5) (a : BitVec 5) (k : BitVec 1)
  /-- `jend` (R273): Ends a child: restores its own continuation or decrements the join counter. -/
  | jend (l : BitVec 1) (n : BitVec 5) (a : BitVec 5) (k : BitVec 1)
  /-- `join` (R275): Parks until the join counter's count is zero and returns the counter word. -/
  | join (l : BitVec 1) (n : BitVec 5) (a : BitVec 5) (d : BitVec 5) (k : BitVec 1)
  /-- `yield` (R276): Parks until every other ready slot of the scalar core has issued once. -/
  | yield (k : BitVec 1)
  /-- `exit` (R277): Ends the strand once nothing is outstanding. -/
  | exit (k : BitVec 1)
  /-- `dqn` (R278): Writes the sampled deque state. -/
  | dqn (d : BitVec 5) (k : BitVec 1)
  /-- `ring.init` (R289): Binds a ring header to its slot tiles. -/
  | ringInit (l : BitVec 1) (n : BitVec 5) (a : BitVec 5) (b : BitVec 5) (k : BitVec 1)
  /-- `ring.tkt` (R290): Issues the next ticket of a ring. -/
  | ringTkt (l : BitVec 1) (n : BitVec 5) (a : BitVec 5) (d : BitVec 5) (k : BitVec 1)
  /-- `ring.put` (R292): Delivers bytes by courier into the slot of a ticket. -/
  | ringPut (l : BitVec 1) (n : BitVec 5) (a : BitVec 5) (b : BitVec 5) (k : BitVec 1)
  /-- `ring.take` (R294): Parks until the head slot is ready and writes the take word. -/
  | ringTake (l : BitVec 1) (n : BitVec 5) (a : BitVec 5) (d : BitVec 5) (k : BitVec 1)
  /-- `ring.free` (R295): Frees slots from the head and rebinds them to later tickets. -/
  | ringFree (l : BitVec 1) (n : BitVec 5) (a : BitVec 5) (b : BitVec 5) (k : BitVec 1)
  /-- `pipe.put` (R298): Delivers a stage into the pipe's ring under the producer's next or a named ticket. -/
  | pipePut (p : BitVec 5) (a : BitVec 5) (k : BitVec 1)
  /-- `pipe.take` (R297): Acts as ring.take on the pipe's ring at the consumer. -/
  | pipeTake (p : BitVec 5) (d : BitVec 5) (k : BitVec 1)
  /-- `pipe.free` (R297): Acts as ring.free on the pipe's ring at the consumer. -/
  | pipeFree (l : BitVec 1) (p : BitVec 5) (a : BitVec 5) (k : BitVec 1)
  /-- `bar.init` (R304): Initialises a named barrier word. -/
  | barInit (l : BitVec 1) (n : BitVec 5) (a : BitVec 5) (b : BitVec 5) (k : BitVec 1)
  /-- `bar.arr` (R304): Arrives at a named barrier and returns its generation. -/
  | barArr (l : BitVec 1) (n : BitVec 5) (a : BitVec 5) (d : BitVec 5) (k : BitVec 1)
  /-- `bar.wait` (R304): Parks until a named barrier's generation differs from the operand. -/
  | barWait (l : BitVec 1) (n : BitVec 5) (a : BitVec 5) (b : BitVec 5) (k : BitVec 1)
  /-- `bar.core` (R302): Grid barrier over the native core group. -/
  | barCore (k : BitVec 1)
  /-- `bar.cluster` (R302): Grid barrier over the native cluster group. -/
  | barCluster (k : BitVec 1)
  /-- `bar.tower` (R302): Grid barrier over the native tower group. -/
  | barTower (k : BitVec 1)
  /-- `bar.module` (R302): Grid barrier over the native module group. -/
  | barModule (k : BitVec 1)
  /-- `bar.pod` (R302): Grid barrier over the pod, counted at the root Caller. -/
  | barPod (k : BitVec 1)
  /-- `vadd.<t>` (R223): Vector floating-point add. -/
  | vadd (v : BitVec 1) (y : BitVec 2) (b : BitVec 5) (a : BitVec 5) (m : BitVec 3) (d : BitVec 5) (k : BitVec 1)
  /-- `vsub.<t>` (R223): Vector floating-point subtract. -/
  | vsub (v : BitVec 1) (y : BitVec 2) (b : BitVec 5) (a : BitVec 5) (m : BitVec 3) (d : BitVec 5) (k : BitVec 1)
  /-- `vmul.<t>` (R223): Vector floating-point multiply. -/
  | vmul (v : BitVec 1) (y : BitVec 2) (b : BitVec 5) (a : BitVec 5) (m : BitVec 3) (d : BitVec 5) (k : BitVec 1)
  /-- `vfma.<t>` (R223): Vector fused multiply-add into vd. -/
  | vfma (v : BitVec 1) (y : BitVec 2) (b : BitVec 5) (a : BitVec 5) (m : BitVec 3) (d : BitVec 5) (k : BitVec 1)
  /-- `vfms.<t>` (R223): Vector fused multiply-subtract. -/
  | vfms (v : BitVec 1) (y : BitVec 2) (b : BitVec 5) (a : BitVec 5) (m : BitVec 3) (d : BitVec 5) (k : BitVec 1)
  /-- `vfnma.<t>` (R223): Vector negated fused multiply-add. -/
  | vfnma (v : BitVec 1) (y : BitVec 2) (b : BitVec 5) (a : BitVec 5) (m : BitVec 3) (d : BitVec 5) (k : BitVec 1)
  /-- `vmin.<t>` (R223): Vector floating-point minimum. -/
  | vmin (v : BitVec 1) (y : BitVec 2) (b : BitVec 5) (a : BitVec 5) (m : BitVec 3) (d : BitVec 5) (k : BitVec 1)
  /-- `vmax.<t>` (R223): Vector floating-point maximum. -/
  | vmax (v : BitVec 1) (y : BitVec 2) (b : BitVec 5) (a : BitVec 5) (m : BitVec 3) (d : BitVec 5) (k : BitVec 1)
  /-- `vcmp.eq.<t>` (R225): Vector floating-point equality compare into a mask. -/
  | vcmpEq (v : BitVec 1) (y : BitVec 2) (b : BitVec 5) (a : BitVec 5) (m : BitVec 3) (d : BitVec 5) (k : BitVec 1)
  /-- `vcmp.lt.<t>` (R225): Vector floating-point less-than compare into a mask. -/
  | vcmpLt (v : BitVec 1) (y : BitVec 2) (b : BitVec 5) (a : BitVec 5) (m : BitVec 3) (d : BitVec 5) (k : BitVec 1)
  /-- `vcmp.le.<t>` (R225): Vector floating-point less-or-equal compare into a mask. -/
  | vcmpLe (v : BitVec 1) (y : BitVec 2) (b : BitVec 5) (a : BitVec 5) (m : BitVec 3) (d : BitVec 5) (k : BitVec 1)
  /-- `vsel.<t>` (R225): Selects each lane from a or b by a mask, moving bits unchanged. -/
  | vsel (v : BitVec 1) (y : BitVec 2) (b : BitVec 5) (a : BitVec 5) (m : BitVec 3) (d : BitVec 5) (k : BitVec 1)
  /-- `vabs.<t>` (R223): Vector absolute value. -/
  | vabs (y : BitVec 2) (a : BitVec 5) (m : BitVec 3) (d : BitVec 5) (k : BitVec 1)
  /-- `vneg.<t>` (R223): Vector negation. -/
  | vneg (y : BitVec 2) (a : BitVec 5) (m : BitVec 3) (d : BitVec 5) (k : BitVec 1)
  /-- `vrcp.<t>` (R223): Vector correctly rounded reciprocal. -/
  | vrcp (y : BitVec 2) (a : BitVec 5) (m : BitVec 3) (d : BitVec 5) (k : BitVec 1)
  /-- `vrsq.<t>` (R223): Vector correctly rounded reciprocal square root. -/
  | vrsq (y : BitVec 2) (a : BitVec 5) (m : BitVec 3) (d : BitVec 5) (k : BitVec 1)
  /-- `vsqrt.<t>` (R223): Vector square root. -/
  | vsqrt (y : BitVec 2) (a : BitVec 5) (m : BitVec 3) (d : BitVec 5) (k : BitVec 1)
  /-- `vexp2.<t>` (R223): Vector base-2 exponential. -/
  | vexp2 (y : BitVec 2) (a : BitVec 5) (m : BitVec 3) (d : BitVec 5) (k : BitVec 1)
  /-- `vlog2.<t>` (R223): Vector base-2 logarithm. -/
  | vlog2 (y : BitVec 2) (a : BitVec 5) (m : BitVec 3) (d : BitVec 5) (k : BitVec 1)
  /-- `viadd.<t>` (R224): Vector integer add. -/
  | viadd (v : BitVec 1) (y : BitVec 2) (b : BitVec 5) (a : BitVec 5) (m : BitVec 3) (d : BitVec 5) (k : BitVec 1)
  /-- `visub.<t>` (R224): Vector integer subtract. -/
  | visub (v : BitVec 1) (y : BitVec 2) (b : BitVec 5) (a : BitVec 5) (m : BitVec 3) (d : BitVec 5) (k : BitVec 1)
  /-- `vimul.<t>` (R224): Vector integer multiply, low bits. -/
  | vimul (v : BitVec 1) (y : BitVec 2) (b : BitVec 5) (a : BitVec 5) (m : BitVec 3) (d : BitVec 5) (k : BitVec 1)
  /-- `vimad.<t>` (R224): Vector integer multiply-add into vd. -/
  | vimad (v : BitVec 1) (y : BitVec 2) (b : BitVec 5) (a : BitVec 5) (m : BitVec 3) (d : BitVec 5) (k : BitVec 1)
  /-- `vand.<t>` (R224): Vector bitwise AND. -/
  | vand (v : BitVec 1) (y : BitVec 2) (b : BitVec 5) (a : BitVec 5) (m : BitVec 3) (d : BitVec 5) (k : BitVec 1)
  /-- `vor.<t>` (R224): Vector bitwise OR. -/
  | vor (v : BitVec 1) (y : BitVec 2) (b : BitVec 5) (a : BitVec 5) (m : BitVec 3) (d : BitVec 5) (k : BitVec 1)
  /-- `vxor.<t>` (R224): Vector bitwise XOR. -/
  | vxor (v : BitVec 1) (y : BitVec 2) (b : BitVec 5) (a : BitVec 5) (m : BitVec 3) (d : BitVec 5) (k : BitVec 1)
  /-- `vshl.<t>` (R224): Vector shift left. -/
  | vshl (v : BitVec 1) (y : BitVec 2) (b : BitVec 5) (a : BitVec 5) (m : BitVec 3) (d : BitVec 5) (k : BitVec 1)
  /-- `vshr.<t>` (R224): Vector logical shift right. -/
  | vshr (v : BitVec 1) (y : BitVec 2) (b : BitVec 5) (a : BitVec 5) (m : BitVec 3) (d : BitVec 5) (k : BitVec 1)
  /-- `vsra.<t>` (R224): Vector arithmetic shift right. -/
  | vsra (v : BitVec 1) (y : BitVec 2) (b : BitVec 5) (a : BitVec 5) (m : BitVec 3) (d : BitVec 5) (k : BitVec 1)
  /-- `vimin.<t>` (R224): Vector signed integer minimum. -/
  | vimin (v : BitVec 1) (y : BitVec 2) (b : BitVec 5) (a : BitVec 5) (m : BitVec 3) (d : BitVec 5) (k : BitVec 1)
  /-- `vimax.<t>` (R224): Vector signed integer maximum. -/
  | vimax (v : BitVec 1) (y : BitVec 2) (b : BitVec 5) (a : BitVec 5) (m : BitVec 3) (d : BitVec 5) (k : BitVec 1)
  /-- `vicmp.eq.<t>` (R225): Vector integer equality compare into a mask. -/
  | vicmpEq (v : BitVec 1) (y : BitVec 2) (b : BitVec 5) (a : BitVec 5) (m : BitVec 3) (d : BitVec 5) (k : BitVec 1)
  /-- `vicmp.lt.<t>` (R225): Vector signed less-than compare into a mask. -/
  | vicmpLt (v : BitVec 1) (y : BitVec 2) (b : BitVec 5) (a : BitVec 5) (m : BitVec 3) (d : BitVec 5) (k : BitVec 1)
  /-- `vicmp.le.<t>` (R225): Vector signed less-or-equal compare into a mask. -/
  | vicmpLe (v : BitVec 1) (y : BitVec 2) (b : BitVec 5) (a : BitVec 5) (m : BitVec 3) (d : BitVec 5) (k : BitVec 1)
  /-- `vld` (R230): Contiguous vector load from the current core. -/
  | vld (n : BitVec 5) (a : BitVec 5) (m : BitVec 3) (d : BitVec 5) (k : BitVec 1)
  /-- `vlds` (R230): Strided vector load. -/
  | vlds (n : BitVec 5) (a : BitVec 5) (m : BitVec 3) (d : BitVec 5) (k : BitVec 1)
  /-- `vldg` (R230): Gather vector load by an index vector. -/
  | vldg (i : BitVec 4) (n : BitVec 5) (a : BitVec 5) (m : BitVec 3) (d : BitVec 5) (k : BitVec 1)
  /-- `vldt` (R232): Loads 512 bytes of a ready tile into a vector register. -/
  | vldt (t : BitVec 6) (a : BitVec 5) (d : BitVec 5) (k : BitVec 1)
  /-- `vst` (R230): Contiguous vector store. -/
  | vst (n : BitVec 5) (a : BitVec 5) (m : BitVec 3) (d : BitVec 5) (k : BitVec 1)
  /-- `vsts` (R230): Strided vector store. -/
  | vsts (n : BitVec 5) (a : BitVec 5) (m : BitVec 3) (d : BitVec 5) (k : BitVec 1)
  /-- `vstg` (R230): Scatter vector store by an index vector. -/
  | vstg (i : BitVec 4) (n : BitVec 5) (a : BitVec 5) (m : BitVec 3) (d : BitVec 5) (k : BitVec 1)
  /-- `vstt` (R232): Stores a vector register into 512 bytes of a tile. -/
  | vstt (t : BitVec 6) (a : BitVec 5) (d : BitVec 5) (k : BitVec 1)
  /-- `vredsum.<t>` (R236): Sums active lanes along the fixed tree into a scalar. -/
  | vredsum (y : BitVec 2) (a : BitVec 5) (m : BitVec 3) (d : BitVec 5) (k : BitVec 1)
  /-- `vredmax.<t>` (R236): Maximum of active lanes into a scalar. -/
  | vredmax (y : BitVec 2) (a : BitVec 5) (m : BitVec 3) (d : BitVec 5) (k : BitVec 1)
  /-- `vredmin.<t>` (R236): Minimum of active lanes into a scalar. -/
  | vredmin (y : BitVec 2) (a : BitVec 5) (m : BitVec 3) (d : BitVec 5) (k : BitVec 1)
  /-- `vperm.<x>` (R237): Permutes lanes by an index vector. -/
  | vperm (y : BitVec 2) (b : BitVec 5) (a : BitVec 5) (m : BitVec 3) (d : BitVec 5) (k : BitVec 1)
  /-- `vrot.<x>` (R237): Rotates lanes by a scalar amount. -/
  | vrot (y : BitVec 2) (b : BitVec 5) (a : BitVec 5) (m : BitVec 3) (d : BitVec 5) (k : BitVec 1)
  /-- `vbcast.<x>` (R237): Broadcasts a scalar into every active lane. -/
  | vbcast (y : BitVec 2) (a : BitVec 5) (m : BitVec 3) (d : BitVec 5) (k : BitVec 1)
  /-- `vext.<x>` (R237): Extracts one lane into a scalar. -/
  | vext (y : BitVec 2) (b : BitVec 5) (a : BitVec 5) (d : BitVec 5) (k : BitVec 1)
  /-- `vins.<x>` (R237): Inserts a scalar into one lane. -/
  | vins (y : BitVec 2) (b : BitVec 5) (a : BitVec 5) (d : BitVec 5) (k : BitVec 1)
  /-- `vmov.<x>` (R237): Copies active lanes of a vector register. -/
  | vmov (y : BitVec 2) (a : BitVec 5) (m : BitVec 3) (d : BitVec 5) (k : BitVec 1)
  /-- `mand` (R238): Bitwise AND of two masks. -/
  | mand (b : BitVec 5) (a : BitVec 5) (d : BitVec 5) (k : BitVec 1)
  /-- `mor` (R238): Bitwise OR of two masks. -/
  | mor (b : BitVec 5) (a : BitVec 5) (d : BitVec 5) (k : BitVec 1)
  /-- `mnot` (R238): Complement of a mask. -/
  | mnot (a : BitVec 5) (d : BitVec 5) (k : BitVec 1)
  /-- `mpop` (R238): Counts set mask bits into a scalar. -/
  | mpop (a : BitVec 5) (d : BitVec 5) (k : BitVec 1)
  /-- `vcvt.<to>.<from>` (R240): Converts vector elements between formats. -/
  | vcvt (t : BitVec 4) (s : BitVec 1) (f : BitVec 4) (a : BitVec 5) (m : BitVec 3) (d : BitVec 5) (k : BitVec 1)
  /-- `vpack.<fmt>` (R241): Copies the low half of va into the high half of vd. -/
  | vpack (f : BitVec 4) (a : BitVec 5) (d : BitVec 5) (k : BitVec 1)
  /-- `vunpack.<fmt>` (R241): Copies the high half of va into the low half of vd. -/
  | vunpack (f : BitVec 4) (a : BitVec 5) (d : BitVec 5) (k : BitVec 1)
  /-- `vqblk.<fmt>` (R242): Quantises FP32 lanes with an S24 scale into E4M3 or Q4X. -/
  | vqblk (f : BitVec 1) (b : BitVec 5) (a : BitVec 5) (m : BitVec 3) (d : BitVec 5) (k : BitVec 1)
  /-- `vscl.<fmt>` (R243): Dequantises E4M3 or Q4X elements with an S24 scale. -/
  | vscl (f : BitVec 1) (b : BitVec 5) (a : BitVec 5) (m : BitVec 3) (d : BitVec 5) (k : BitVec 1)
  /-- `mma.<fmt>` (R247): Enqueues a matrix multiply-accumulate A·B into C. -/
  | mma (l : BitVec 1) (m : BitVec 1) (t : BitVec 6) (a : BitVec 5) (f : BitVec 3) (b : BitVec 5) (k : BitVec 1)
  /-- `mma.t.<fmt>` (R247): Matrix multiply-accumulate reading A transposed. -/
  | mmaT (l : BitVec 1) (m : BitVec 1) (t : BitVec 6) (a : BitVec 5) (f : BitVec 3) (b : BitVec 5) (k : BitVec 1)
  /-- `mmas.<fmt>` (R247): Scaled block matrix multiply-accumulate. -/
  | mmas (l : BitVec 1) (m : BitVec 1) (t : BitVec 6) (a : BitVec 5) (f : BitVec 2) (b : BitVec 5) (k : BitVec 1)
  /-- `acc.zero` (R251): Matrix command that zeroes an accumulator range. -/
  | accZero (l : BitVec 1) (m : BitVec 1) (a : BitVec 5) (b : BitVec 5) (k : BitVec 1)
  /-- `acc.rd.<fmt>` (R251): Matrix command that converts accumulator values into a tile. -/
  | accRd (l : BitVec 1) (t : BitVec 6) (a : BitVec 5) (f : BitVec 3) (k : BitVec 1)
  /-- `acc.wr.<fmt>` (R251): Matrix command that widens tile elements into the accumulator. -/
  | accWr (l : BitVec 1) (t : BitVec 6) (a : BitVec 5) (f : BitVec 3) (k : BitVec 1)
  /-- `loft.ld` (R251): Matrix command that copies a tile to the loft. -/
  | loftLd (l : BitVec 1) (t : BitVec 6) (a : BitVec 5) (k : BitVec 1)
  /-- `copy` (R254): Hands a copy between homes to couriers. -/
  | copy (c : BitVec 4) (b : BitVec 4) (s : BitVec 5) (a : BitVec 4) (d : BitVec 5) (k : BitVec 1)
  /-- `copy.mc` (R260): Copy into own SRAM with combining in the cluster router. -/
  | copyMc (c : BitVec 4) (b : BitVec 4) (s : BitVec 5) (a : BitVec 4) (d : BitVec 5) (k : BitVec 1)
  /-- `copy.t` (R259): Copy delivered into a filling tile and counted against it. -/
  | copyT (c : BitVec 4) (b : BitVec 4) (s : BitVec 5) (t : BitVec 6) (k : BitVec 1)
  /-- `reduce.<op>.<fmt>` (R261): In-fabric reduction of one buffer per participant along a fixed tree. -/
  | reduce (c : BitVec 4) (b : BitVec 4) (o : BitVec 2) (f : BitVec 2) (a : BitVec 4) (n : BitVec 5) (k : BitVec 1)
  /-- `launch` (R314): Reads a launch record, checks it and sends the grid to dealing. -/
  | launch (l : BitVec 1) (a : BitVec 5) (k : BitVec 1)
  /-- `lwait` (R317): Parks until a grid is idle, done or refused and writes its state word. -/
  | lwait (l : BitVec 1) (a : BitVec 5) (d : BitVec 5) (k : BitVec 1)
  /-- `cancel` (R325): Stops dealing of a grid in drain or kill mode. -/
  | cancel (l : BitVec 1) (b : BitVec 5) (a : BitVec 5) (k : BitVec 1)
  /-- `cpref` (R326): Caller prefetch of a range into slices at low priority. -/
  | cpref (l : BitVec 1) (n : BitVec 5) (a : BitVec 5) (b : BitVec 5) (k : BitVec 1)
  /-- `cdisc` (R326): Caller discard of a range's slice lines. -/
  | cdisc (l : BitVec 1) (n : BitVec 5) (a : BitVec 5) (b : BitVec 5) (k : BitVec 1)
  /-- `evsig` (R327): Adds 1 to a local or remote event counter. -/
  | evsig (l : BitVec 1) (a : BitVec 5) (k : BitVec 1)
  /-- `evwait` (R327): Parks until an event counter is positive or the timeout passes. -/
  | evwait (l : BitVec 1) (a : BitVec 5) (d : BitVec 5) (k : BitVec 1)
  /-- `vfq` (R330): Takes the oldest ready entry of a VF queue and writes its handle. -/
  | vfq (l : BitVec 1) (a : BitVec 5) (d : BitVec 5) (k : BitVec 1)
  /-- `vfdone` (R330): Completes a VF queue entry, signals its counter and posts a completion. -/
  | vfdone (l : BitVec 1) (a : BitVec 5) (k : BitVec 1)
  /-- `add` (R83): Integer add modulo 2^64. -/
  | add_ (b : BitVec 5) (a : BitVec 5) (d : BitVec 5) (k : BitVec 1)
  /-- `sll` (R83): Shift left logical. -/
  | sll (b : BitVec 5) (a : BitVec 5) (d : BitVec 5) (k : BitVec 1)
  /-- `slt` (R83): Set if signed less than. -/
  | slt (b : BitVec 5) (a : BitVec 5) (d : BitVec 5) (k : BitVec 1)
  /-- `sltu` (R83): Set if unsigned less than. -/
  | sltu (b : BitVec 5) (a : BitVec 5) (d : BitVec 5) (k : BitVec 1)
  /-- `xor` (R83): Bitwise XOR. -/
  | xor_ (b : BitVec 5) (a : BitVec 5) (d : BitVec 5) (k : BitVec 1)
  /-- `srl` (R83): Shift right logical. -/
  | srl (b : BitVec 5) (a : BitVec 5) (d : BitVec 5) (k : BitVec 1)
  /-- `or` (R83): Bitwise OR. -/
  | or_ (b : BitVec 5) (a : BitVec 5) (d : BitVec 5) (k : BitVec 1)
  /-- `and` (R83): Bitwise AND. -/
  | and_ (b : BitVec 5) (a : BitVec 5) (d : BitVec 5) (k : BitVec 1)
  /-- `sub` (R83): Integer subtract modulo 2^64. -/
  | sub_ (b : BitVec 5) (a : BitVec 5) (d : BitVec 5) (k : BitVec 1)
  /-- `sra` (R83): Shift right arithmetic. -/
  | sra (b : BitVec 5) (a : BitVec 5) (d : BitVec 5) (k : BitVec 1)
  /-- `mul` (R83): Multiply, low 64 bits. -/
  | mul_ (b : BitVec 5) (a : BitVec 5) (d : BitVec 5) (k : BitVec 1)
  /-- `mulh` (R83): Signed multiply, high 64 bits. -/
  | mulh (b : BitVec 5) (a : BitVec 5) (d : BitVec 5) (k : BitVec 1)
  /-- `mulhu` (R83): Unsigned multiply, high 64 bits. -/
  | mulhu (b : BitVec 5) (a : BitVec 5) (d : BitVec 5) (k : BitVec 1)
  /-- `div` (R83): Signed division truncating toward zero. -/
  | div_ (b : BitVec 5) (a : BitVec 5) (d : BitVec 5) (k : BitVec 1)
  /-- `divu` (R83): Unsigned division. -/
  | divu (b : BitVec 5) (a : BitVec 5) (d : BitVec 5) (k : BitVec 1)
  /-- `rem` (R83): Signed remainder. -/
  | rem_ (b : BitVec 5) (a : BitVec 5) (d : BitVec 5) (k : BitVec 1)
  /-- `remu` (R83): Unsigned remainder. -/
  | remu (b : BitVec 5) (a : BitVec 5) (d : BitVec 5) (k : BitVec 1)
  /-- `min` (R83): Signed minimum. -/
  | min_ (b : BitVec 5) (a : BitVec 5) (d : BitVec 5) (k : BitVec 1)
  /-- `max` (R83): Signed maximum. -/
  | max_ (b : BitVec 5) (a : BitVec 5) (d : BitVec 5) (k : BitVec 1)
  /-- `minu` (R83): Unsigned minimum. -/
  | minu (b : BitVec 5) (a : BitVec 5) (d : BitVec 5) (k : BitVec 1)
  /-- `maxu` (R83): Unsigned maximum. -/
  | maxu (b : BitVec 5) (a : BitVec 5) (d : BitVec 5) (k : BitVec 1)
  /-- `clz` (R83): Counts leading zero bits. -/
  | clz (a : BitVec 5) (d : BitVec 5) (k : BitVec 1)
  /-- `ctz` (R83): Counts trailing zero bits. -/
  | ctz (a : BitVec 5) (d : BitVec 5) (k : BitVec 1)
  /-- `popc` (R83): Counts one bits. -/
  | popc (a : BitVec 5) (d : BitVec 5) (k : BitVec 1)
  /-- `sext.b` (R83): Sign-extends the low byte. -/
  | sextB (a : BitVec 5) (d : BitVec 5) (k : BitVec 1)
  /-- `sext.h` (R83): Sign-extends the low halfword. -/
  | sextH (a : BitVec 5) (d : BitVec 5) (k : BitVec 1)
  /-- `sext.w` (R83): Sign-extends the low word. -/
  | sextW (a : BitVec 5) (d : BitVec 5) (k : BitVec 1)
  /-- `zext.b` (R83): Zero-extends the low byte. -/
  | zextB (a : BitVec 5) (d : BitVec 5) (k : BitVec 1)
  /-- `zext.h` (R83): Zero-extends the low halfword. -/
  | zextH (a : BitVec 5) (d : BitVec 5) (k : BitVec 1)
  /-- `zext.w` (R83): Zero-extends the low word. -/
  | zextW (a : BitVec 5) (d : BitVec 5) (k : BitVec 1)
  /-- `addi` (R84): Adds a sign-extended immediate. -/
  | addi (i : BitVec 12) (a : BitVec 5) (d : BitVec 5) (k : BitVec 1)
  /-- `slti` (R84): Set if signed less than an immediate. -/
  | slti (i : BitVec 12) (a : BitVec 5) (d : BitVec 5) (k : BitVec 1)
  /-- `sltiu` (R84): Set if unsigned less than the sign-extended immediate. -/
  | sltiu (i : BitVec 12) (a : BitVec 5) (d : BitVec 5) (k : BitVec 1)
  /-- `xori` (R84): XOR with an immediate. -/
  | xori (i : BitVec 12) (a : BitVec 5) (d : BitVec 5) (k : BitVec 1)
  /-- `ori` (R84): OR with an immediate. -/
  | ori (i : BitVec 12) (a : BitVec 5) (d : BitVec 5) (k : BitVec 1)
  /-- `andi` (R84): AND with an immediate. -/
  | andi (i : BitVec 12) (a : BitVec 5) (d : BitVec 5) (k : BitVec 1)
  /-- `slli` (R84): Shift left by an immediate amount. -/
  | slli (h : BitVec 6) (a : BitVec 5) (d : BitVec 5) (k : BitVec 1)
  /-- `srli` (R84): Logical shift right by an immediate amount. -/
  | srli (h : BitVec 6) (a : BitVec 5) (d : BitVec 5) (k : BitVec 1)
  /-- `srai` (R84): Arithmetic shift right by an immediate amount. -/
  | srai (h : BitVec 6) (a : BitVec 5) (d : BitVec 5) (k : BitVec 1)
  /-- `lui` (R85): Writes a sign-extended upper immediate. -/
  | lui (i : BitVec 20) (d : BitVec 5) (k : BitVec 1)
  /-- `auipc` (R85): Writes pc plus a sign-extended upper immediate. -/
  | auipc (i : BitVec 20) (d : BitVec 5) (k : BitVec 1)
  /-- `beq` (R87): Branches if equal. -/
  | beq (o : BitVec 12) (b : BitVec 5) (a : BitVec 5) (k : BitVec 1)
  /-- `bne` (R87): Branches if not equal. -/
  | bne (o : BitVec 12) (b : BitVec 5) (a : BitVec 5) (k : BitVec 1)
  /-- `bfull` (R88): Branches if a register is full or a port holds an unreserved entry or place. -/
  | bfull (o : BitVec 12) (a : BitVec 5) (k : BitVec 1)
  /-- `bempty` (R88): Branches if a register is empty or symbolic or a port has nothing unreserved. -/
  | bempty (o : BitVec 12) (a : BitVec 5) (k : BitVec 1)
  /-- `blt` (R87): Branches if signed less than. -/
  | blt (o : BitVec 12) (b : BitVec 5) (a : BitVec 5) (k : BitVec 1)
  /-- `bge` (R87): Branches if signed greater or equal. -/
  | bge (o : BitVec 12) (b : BitVec 5) (a : BitVec 5) (k : BitVec 1)
  /-- `bltu` (R87): Branches if unsigned less than. -/
  | bltu (o : BitVec 12) (b : BitVec 5) (a : BitVec 5) (k : BitVec 1)
  /-- `bgeu` (R87): Branches if unsigned greater or equal. -/
  | bgeu (o : BitVec 12) (b : BitVec 5) (a : BitVec 5) (k : BitVec 1)
  /-- `jal` (R89): Jumps pc-relative and writes the return address. -/
  | jal (i : BitVec 20) (d : BitVec 5) (k : BitVec 1)
  /-- `jalr` (R90): Jumps to register plus immediate and writes the return address. -/
  | jalr (i : BitVec 12) (a : BitVec 5) (d : BitVec 5) (k : BitVec 1)
  /-- `fadd` (R93): Scalar floating-point add. -/
  | fadd (f : BitVec 1) (b : BitVec 5) (a : BitVec 5) (r : BitVec 3) (d : BitVec 5) (k : BitVec 1)
  /-- `fsub` (R93): Scalar floating-point subtract. -/
  | fsub (f : BitVec 1) (b : BitVec 5) (a : BitVec 5) (r : BitVec 3) (d : BitVec 5) (k : BitVec 1)
  /-- `fmul` (R93): Scalar floating-point multiply. -/
  | fmul (f : BitVec 1) (b : BitVec 5) (a : BitVec 5) (r : BitVec 3) (d : BitVec 5) (k : BitVec 1)
  /-- `fdiv` (R93): Scalar floating-point divide. -/
  | fdiv (f : BitVec 1) (b : BitVec 5) (a : BitVec 5) (r : BitVec 3) (d : BitVec 5) (k : BitVec 1)
  /-- `fsqrt` (R93): Scalar floating-point square root. -/
  | fsqrt (f : BitVec 1) (a : BitVec 5) (r : BitVec 3) (d : BitVec 5) (k : BitVec 1)
  /-- `ffma` (R93): Scalar fused multiply-add into sd. -/
  | ffma (f : BitVec 1) (b : BitVec 5) (a : BitVec 5) (r : BitVec 3) (d : BitVec 5) (k : BitVec 1)
  /-- `fmin` (R94): Scalar floating-point minimum. -/
  | fmin (f : BitVec 1) (b : BitVec 5) (a : BitVec 5) (d : BitVec 5) (k : BitVec 1)
  /-- `fmax` (R94): Scalar floating-point maximum. -/
  | fmax (f : BitVec 1) (b : BitVec 5) (a : BitVec 5) (d : BitVec 5) (k : BitVec 1)
  /-- `feq` (R94): Writes 1 if the operands are equal. -/
  | feq (f : BitVec 1) (b : BitVec 5) (a : BitVec 5) (d : BitVec 5) (k : BitVec 1)
  /-- `flt` (R94): Writes 1 if less than. -/
  | flt (f : BitVec 1) (b : BitVec 5) (a : BitVec 5) (d : BitVec 5) (k : BitVec 1)
  /-- `fle` (R94): Writes 1 if less than or equal. -/
  | fle (f : BitVec 1) (b : BitVec 5) (a : BitVec 5) (d : BitVec 5) (k : BitVec 1)
  /-- `fclass` (R95): Writes a one-hot class mask of the operand. -/
  | fclass (f : BitVec 1) (a : BitVec 5) (d : BitVec 5) (k : BitVec 1)
  /-- `fcvt.<fmt>.<from>` (R96): Converts an integer or the other float format to floating point. -/
  | fcvtToFloat (f : BitVec 1) (s : BitVec 3) (a : BitVec 5) (r : BitVec 3) (d : BitVec 5) (k : BitVec 1)
  /-- `fcvt.<to>.<fmt>` (R96): Converts floating point to an integer with saturation. -/
  | fcvtToInt (f : BitVec 1) (s : BitVec 3) (a : BitVec 5) (r : BitVec 3) (d : BitVec 5) (k : BitVec 1)
  /-- `get` (R97): Reads a special register. -/
  | get_ (i : BitVec 12) (d : BitVec 5) (k : BitVec 1)
  /-- `set` (R98): Writes a special register after whole-write checks. -/
  | set_ (i : BitVec 12) (a : BitVec 5) (k : BitVec 1)
  /-- `cget` (R104): Reads a common register of the scalar core. -/
  | cget (c : BitVec 3) (d : BitVec 5) (k : BitVec 1)
  /-- `cset` (R104): Writes a common register and tags it with the grid. -/
  | cset (c : BitVec 3) (a : BitVec 5) (k : BitVec 1)
  /-- `ecall` (R364): Raises the environment call cause. -/
  | ecall (k : BitVec 1)
  /-- `ebreak` (R364): Raises the breakpoint cause. -/
  | ebreak (k : BitVec 1)
  /-- `eret` (R364): Returns to sr.epc. -/
  | eret (k : BitVec 1)
  /-- `halt` (R364): Holds the strand for its Caller with cause 0. -/
  | halt (k : BitVec 1)
  /-- `tlbi` (R367): Invalidates translation entries and parks until the epoch acknowledgement. -/
  | tlbi (b : BitVec 5) (a : BitVec 5) (k : BitVec 1)
  /-- `kill` (R366): Kills a strand or removes a grid's context. -/
  | kill (a : BitVec 5) (k : BitVec 1)
  /-- `sget` (R365): Reads a control-space register, leaving sd pending. -/
  | sget (a : BitVec 5) (d : BitVec 5) (k : BitVec 1)
  /-- `sset` (R365): Writes a control-space register as a posted store. -/
  | sset (b : BitVec 5) (a : BitVec 5) (k : BitVec 1)
  /-- R356: The fetch of the handler's first instruction faults and the strand is stopped. -/
  | doubleFault (sid : Nat)
  /-- R32: A strand packet arrives at a core and takes a slot, setting down luggage. -/
  | strandArrival (pk : Nat)
  /-- R33: The earliest-arrived guest is evicted once its instruction in flight ends and returns in N1. -/
  | guestEviction (sid : Nat)
  /-- R33: An evicted guest arrives at its reserved native slot. -/
  | evictionReturn (pk : Nat)
  /-- R34: A result or acknowledgement forwarded to the native core is applied there. -/
  | forwardedResult (sid : Nat) (f : Forwarded)
  /-- R26: A tagged long-latency result returns and fills its destination. -/
  | lateResultReturn (place sid : Nat) (v : LateValue)
  /-- R113: A symbol's dependent registers are written full and its entry freed at a+4. -/
  | symbolResolution (place sc e : Nat)
  /-- R29: A parked strand becomes ready two cycles after its waking event. -/
  | parkWake (sid : Nat)
  /-- R332: A ready strand that has not issued for 256 cycles is promoted ahead of every class. -/
  | strandPromotion (sid : Nat)
  /-- R71: A waiting or lost meeting entry reaches its deadline. -/
  | meetingExpiry (place entry : Nat)
  /-- R72: Ten cycles after the second arrival both meet instructions retire with status 1. -/
  | meetingPaired (place entry : Nat)
  /-- R63: A link fails and the packet crossing it is truncated. -/
  | linkFailure (pk : Nat)
  /-- R63: The native core receives a kill notice and accounts the strand as lost. -/
  | killNotice (sid : Nat)
  /-- R336: A packet reaching a boundary port, window or pod link it may not pass is stopped. -/
  | boundaryStop (pk : Nat)
  /-- R67: A stopped strand returns to its native slot and takes cause 0x0A. -/
  | stoppedReturn (pk : Nat)
  /-- R144: A store is performed at its home point. -/
  | storeAccepted (id : Nat)
  /-- R144: A vault store's acknowledgement reaches the issuing slot. -/
  | storeAck (place sid : Nat)
  /-- R172: A vault fill returns to the slice and is merged with pending writes. -/
  | vaultFillReturn (cl line : Nat)
  /-- R171: A write-back buffer line drains into the vault write queue. -/
  | writeBackDrain (cl : Nat)
  /-- R153: The full/empty unit serves one waiter of a word per cycle. -/
  | feWaiterService (place word : Nat)
  /-- R154: A watch reaches its deadline and retires with the last value. -/
  | watchTimeout (cl id : Nat)
  /-- R275: A join list entry is re-evaluated after a write to its counter. -/
  | joinListService (place word : Nat)
  /-- R304: A named-barrier wait entry is re-evaluated after a write to its word. -/
  | barWaitService (place word : Nat)
  /-- R135: A cluster translation cache hit installs the entry in the core cache. -/
  | translationFill (place asn va : Nat)
  /-- R135: A walker finishes a page-table walk and installs or faults. -/
  | tableWalkComplete (cl id : Nat)
  /-- R163: Bytes set down in a tile are counted and may make it ready. -/
  | tileSetDown (place t b : Nat) (poisoned : Bool)
  /-- R163: A delivery into a filling tile faults and sets faulted. -/
  | tileDeliveryFault (place t off pc : Nat)
  /-- R166: An engine finishes with a range and releases its lock. -/
  | rangeLockRelease (place id : Nat)
  /-- R192: The wide unit accepts an eligible dispatch-queue head. -/
  | vectorEntryAccept (place sc : Nat)
  /-- R192: A vector operation writes vd, its mask or its tagged scalar result. -/
  | vectorEntryComplete (place id : Nat)
  /-- R195: The matrix unit starts the head of the next queue that can start. -/
  | matrixCommandStart (place : Nat)
  /-- R195: A matrix command completes, releases locks and pushes its token into q10. -/
  | matrixCommandComplete (place : Nat)
  /-- R254: The copy engine translates, checks and launches the next piece. -/
  | courierPieceLaunch (op : Nat)
  /-- R255: A courier picks up its piece at the source home. -/
  | courierPickUp (pc : Nat)
  /-- R255: A courier sets its piece down at the destination home. -/
  | courierSetDown (pc : Nat)
  /-- R255: A piece report reaches the native core; on the last, the count falls and the token is pushed. -/
  | engineCompletionReport (pc : Nat)
  /-- R260: A combining entry's 64-cycle window ends and one courier is sent. -/
  | combineWindowClose (cl id : Nat)
  /-- R265: A reduction chunk arrives at its node slice and takes or combines into an entry. -/
  | reductionNodeArrival (msg : Nat)
  /-- R265: A returned reduction chunk is launched again 256 cycles later. -/
  | reductionRelaunch (msg : Nat)
  /-- R293: A piece for a ticket arrives at a ring and is set down, rejected or made to wait. -/
  | ringPieceArrival (pc : Nat)
  /-- R293: A piece returned for lack of a waiting place is launched again 256 cycles later. -/
  | ringPieceRelaunch (pc : Nat)
  /-- R272: A take request reaches the deque unit and a frame moves to taking or free. -/
  | dequeTakeRequest (place sid thief : Nat)
  /-- R272: The counter increment for a taken frame is accepted and the frame is sent. -/
  | dequeIncrementAccepted (place j : Nat)
  /-- R283: A kill's fault adjustment is accepted and the frame is released or restored. -/
  | dequeAdjustmentAccepted (place j sid : Nat)
  /-- R280: A thief courier arrives at a victim and requests a take. -/
  | thiefVictimArrival (th : Nat)
  /-- R279: A thief brings a frame home and it is restored into the idle slot. -/
  | thiefFrameArrival (th : Nat)
  /-- R280: An idle slot whose thief found nothing starts again after 1,024 cycles. -/
  | thiefRetry (sid : Nat)
  /-- R302: A level barrier episode completes and releases its waiting members. -/
  | barrierRelease (id : Nat)
  /-- R282: A block completes once its slots are idle and no frame or thief remains. -/
  | blockCompletion (b : Nat)
  /-- R322: A block end or fault record is forwarded up the dispatcher tree. -/
  | blockEndReport (b level : Nat)
  /-- R322: The root has counted every end, writes the report and state and signals cev. -/
  | gridDone (g : Nat)
  /-- R318: A child asks its parent for blocks. -/
  | dealingRequest (g node : Nat)
  /-- R318: A parent grants an interval of blocks to a child. -/
  | dealingGrant (g node : Nat)
  /-- R319: A cluster dispatcher starts its lowest undealt block on a core. -/
  | blockStart (g cl : Nat)
  /-- R325: A cancel stop reaches a dispatcher level and drops undealt intervals. -/
  | cancelStop (g node : Nat)
  /-- R314: A module of the set fails to answer within 65,536 cycles and the grid is refused. -/
  | moduleAnswerTimeout (g m : Nat)
  /-- R368: A cluster dispatcher suspends a lower-class block to place a waiting block. -/
  | preemptSuspend (b : Nat)
  /-- R369: A suspended block is restored once its slots are free. -/
  | preemptRestore (b : Nat)
  /-- R360: A strand is killed, scrubbed, removed from waits and reported. -/
  | strandKill (sid cause : Nat)
  /-- R377: Under fault policy 2 a mismatched block starts again from its entry. -/
  | blockRerun (b : Nat)
  /-- R417: A notice or report arrives and is pushed into q9, q11 or a dispatcher. -/
  | noticeArrival (n : Notice)
  /-- R331: A held or quiesce notice refused by a full q11 is offered again every 256 cycles. -/
  | noticeReoffer (id : Nat)
  /-- R367: The old-epoch counts reach zero everywhere and the shoot-down is acknowledged. -/
  | tlbiAck (id : Nat)
  /-- R373: Context removal of a grid starts, stopping dealing and killing its strands. -/
  | contextRemoval (g : Nat)
  /-- R373: A removal step has ended everywhere and the next step starts. -/
  | contextRemovalStepEnd (g : Nat)
  /-- R340: Partition command 1 moves the named quarters to quiescing. -/
  | pmQuiesce (m mask : Nat)
  /-- R341: Partition command 2 opens quiesced quarters for rewriting. -/
  | pmOpen (m mask : Nat)
  /-- R344: Partition command 3 checks the configuration and sets the quarters running. -/
  | pmRelease (m mask : Nat)
  /-- R340: Partition command 4 returns quarters to running and releases held work. -/
  | pmResume (m mask : Nat)
  /-- R340: A quiescing quarter has no started block, grant or courier in flight and becomes quiesced. -/
  | quarterQuiesced (m q : Nat)
  /-- R359: Strand control command 1 resumes a held strand at sc.epc. -/
  | scRetry (place slot : Nat)
  /-- R359: Strand control command 2 resumes a held strand after sc.epc. -/
  | scSkip (place slot : Nat)
  /-- R359: Strand control command 3 kills the strand. -/
  | scKill (place slot : Nat)
  /-- R371: Migration command 1 moves a core's state to a destination core. -/
  | mgMigrate (m src dst : Nat)
  /-- R371: Migration command 2 streams a core's state to an image and resumes. -/
  | mgCheckpoint (m src : Nat)
  /-- R371: Migration command 3 checkpoints a core and removes its blocks. -/
  | mgCheckpointRemove (m src : Nat)
  /-- R371: Migration command 4 streams an image into a free core and resumes its strands. -/
  | mgRestore (m src : Nat)
  /-- R371: Streaming of a migration, checkpoint or restore ends. -/
  | migrationStreamDone (m : Nat)
  /-- R352: A vault control write starts the drop of a pseudo-channel. -/
  | vaultDropGo (core pch : Nat)
  /-- R352: One granule moves to the reduced layout every 16 cycles; the last ends the drop. -/
  | vaultGranuleMove (core : Nat)
  /-- R345: A window entry write from state 0 to 1 opens a window. -/
  | windowOpen (cl i : Nat) (d0 d1 : Word)
  /-- R347: A window entry write to state 2 starts revocation. -/
  | windowRevoke (cl i : Nat)
  /-- R345: A window entry write from state 3 to 0 closes a revoked window. -/
  | windowClose (cl i : Nat)
  /-- R347: No admitted guest or access remains and the window state becomes 3. -/
  | windowRevokedAck (cl i : Nat)
  /-- R348: A new link key is written and the previous one becomes the old key. -/
  | keyWrite (m o : Nat) (key : BitVec 256)
  /-- R348: 2^20 cycles after a key write the old key is no longer used. -/
  | oldKeyExpiry (m o : Nat)
  /-- R389: A pod link frame is received and decoded. -/
  | podFrameReceive (m port pk : Nat) (fecOk : Bool)
  /-- R389: A pod port trains at bring-up or after a link down. -/
  | podPortTraining (m port lanes : Nat)
  /-- R185: A host write arrives at the mailbox and is sent to its home in order. -/
  | hostWrite (m f bar off : Nat) (bytes : List Byte)
  /-- R185: A host write is acknowledged at its home, releasing later writes to other homes. -/
  | hostWriteAck (m : Nat)
  /-- R185: A host read is answered after every earlier host write has been performed. -/
  | hostRead (m f bar off n : Nat)
  /-- R385: A write covering the end of mb.ent commits a queue entry. -/
  | mailboxCommit (m f : Nat)
  /-- R384: A PF write of mb.rst starts a module reset. -/
  | moduleResetRequest (m f : Nat)
  /-- R386: A host write of mb.cqh frees ring space for waiting completion records. -/
  | cqHeadWrite (m f : Nat) (v : Word)
  /-- R386: The mailbox writes a completion record to the host ring and may send MSI-X. -/
  | completionRecordWrite (m f : Nat)
  /-- R388: An FLR resets a function's mailbox registers and removes a VF's entries. -/
  | functionLevelReset (m f : Nat)
  /-- R400: A host configuration request is answered, with retry status before bring-up ends. -/
  | configRequest (m f : Nat)
  /-- R400: Power is applied and bring-up runs. -/
  | coldReset
  /-- R399: A module reset runs bring-up from step 2 with rails up. -/
  | moduleReset (m : Nat)
  /-- R401: The core PLL loses lock and the module halts. -/
  | pllLockLoss (m : Nat)
  /-- R394: The sensors are sampled every 65,536 cycles. -/
  | sensorSample (m : Nat)
  /-- R396: Writing 1 makes the MC verify a staged image and write the inactive bank. -/
  | fwUpdateStart (m : Nat)
  /-- R396: Writing 2 marks the written bank for the next boot. -/
  | fwBankMark (m : Nat)
  /-- R396: A marked bank fails verification or times out and the other bank boots. -/
  | bootFallback (m : Nat)
  /-- R395: A write of an index selects the event log entry to read. -/
  | logEntrySelect (m : Nat) (i : Word)
  /-- R397: A write of a block PA makes the MC write a signed attestation report. -/
  | attestationRequest (m owner : Nat) (pa : Word)
  /-- R327: An evwait's timeout passes and it writes 0. -/
  | eventWaitTimeout (m id : Nat)
  /-- R327: A remote event signal arrives and is checked and applied. -/
  | remoteEvsigArrival (m e owner : Nat)
  /-- R381: In replay, a logged arrival is delivered at its logged cycle. -/
  | replayDelivery (core : Nat)
  /-- R414: A loaded file's launches start in file order. -/
  | loadLaunch (ls : List LaunchSpec)
  /-- R7: A write to a control or special register without behaviour of its own, checked whole. -/
  | registerWrite (m off owner : Nat) (isMc : Bool) (v : Word)
  /-- R49: A fetched word that is not an instruction raises cause 0x01 with the word in sr.tval. -/
  | illegalInstruction (w : IWord)
  /-- R136: The fetch of a strand's next instruction faults and raises cause 0x16 with the fetch VA. -/
  | instructionFetchFault (va : Word)
  /-- R173: Each slice bucket gains rate/256 tokens per cycle up to its depth, letting waiting requests of that partition start. -/
  | tokenAccrual (cl : Nat)
  /-- R160: A prefetch, flush or discard request, or a cpref or cdisc piece, reaches the home slice and is performed there. -/
  | sliceCacheRequest (pc : Nat)
  deriving DecidableEq, Repr

end Sys2Proof
end

