-- ==== Sys2Proof/WellFormed.lean ====
section
/-! DEFINITION. Which field values of an encoded row are an instruction (R45, R48, R49): the checks that the fixed bits
of the row do not make. -/

namespace Sys2Proof

/-- A scalar field: s0 to s15, or a queue port 16 to 27; 28 to 31 are illegal (R45). -/
def isScalar (r : BitVec 5) : Bool := decide (r.toNat < 28)

/-- A field that takes s0 to s15 (or a partner's or inspected register) only (R45, R54, R117, R220). -/
def isLow (r : BitVec 5) : Bool := decide (r.toNat < 16)

/-- The even register of a pair, s2 to s14 (R48, R287). -/
def isPair (r : BitVec 5) : Bool := decide (r.toNat % 2 = 0) && decide (2 ≤ r.toNat) && decide (r.toNat ≤ 14)

/-- A mask field, m0 to m7 (R45). -/
def isMask (r : BitVec 5) : Bool := decide (r.toNat < 8)

/-- A mask named as a destination, m1 to m7 (R45, R220). -/
def isMaskDest (r : BitVec 5) : Bool := decide (1 ≤ r.toNat) && decide (r.toNat < 8)

/-- A port of the pipe instructions, q0 to q7 (R287). -/
def isPipePort (r : BitVec 5) : Bool := decide (16 ≤ r.toNat) && decide (r.toNat ≤ 23)

/-- A rounding field: a mode or dynamic (R48). -/
def isRounding (r : BitVec 3) : Bool := decide (r.toNat ≤ 3) || r == 7

/-- Source codes of a conversion to floating point: another format or an integer type (R48). -/
def isCvtFrom (f : BitVec 1) (s : BitVec 3) : Bool := decide (s.toNat ≤ 5) && decide (s.toNat ≠ f.toNat)

/-- Format codes of `vpack` and `vunpack` (R239). -/
def isPackFmt (f : BitVec 4) : Bool := [1, 2, 3, 5, 6, 7, 8, 9, 10].contains f.toNat

/-- Legal pairs of `vcvt` (R239). -/
def isCvtPair (t f : BitVec 4) : Bool :=
  let g := [3, 5, 6, 7, 8, 9]
  (t != f && g.contains t.toNat && g.contains f.toNat) ||
  (t == 5 && (f == 1 || f == 2)) || (f == 5 && (t == 1 || t == 2)) || (f == 5 && t == 10) || (f == 10 && t == 5)

/-- The instruction's fields hold values that the tables list (R45, R48, R49). -/
def Instr.wf : Instr → Bool
  | .ldB _ _ x d _ => isScalar x && isScalar d
  | .ldH _ _ x d _ => isScalar x && isScalar d
  | .ldW _ _ x d _ => isScalar x && isScalar d
  | .ldD _ _ x d _ => isScalar x && isScalar d
  | .ldBu _ _ x d _ => isScalar x && isScalar d
  | .ldHu _ _ x d _ => isScalar x && isScalar d
  | .ldWu _ _ x d _ => isScalar x && isScalar d
  | .ldBMx _ p _ x d _ => isScalar x && isScalar d && p != 3
  | .ldHMx _ p _ x d _ => isScalar x && isScalar d && p != 3
  | .ldWMx _ p _ x d _ => isScalar x && isScalar d && p != 3
  | .ldDMx _ p _ x d _ => isScalar x && isScalar d && p != 3
  | .ldBuMx _ p _ x d _ => isScalar x && isScalar d && p != 3
  | .ldHuMx _ p _ x d _ => isScalar x && isScalar d && p != 3
  | .ldWuMx _ p _ x d _ => isScalar x && isScalar d && p != 3
  | .stB _ _ x s _ => isScalar x && isScalar s
  | .stH _ _ x s _ => isScalar x && isScalar s
  | .stW _ _ x s _ => isScalar x && isScalar s
  | .stD _ _ x s _ => isScalar x && isScalar s
  | .stBMx _ p _ x s _ => isScalar x && isScalar s && p != 3
  | .stHMx _ p _ x s _ => isScalar x && isScalar s && p != 3
  | .stWMx _ p _ x s _ => isScalar x && isScalar s && p != 3
  | .stDMx _ p _ x s _ => isScalar x && isScalar s && p != 3
  | .amoAdd _ _ x _ d _ => isScalar x && isScalar d
  | .amoSwap _ _ x _ d _ => isScalar x && isScalar d
  | .amoAnd _ _ x _ d _ => isScalar x && isScalar d
  | .amoOr _ _ x _ d _ => isScalar x && isScalar d
  | .amoXor _ _ x _ d _ => isScalar x && isScalar d
  | .amoMin _ _ x _ d _ => isScalar x && isScalar d
  | .amoMax _ _ x _ d _ => isScalar x && isScalar d
  | .amoMinu _ _ x _ d _ => isScalar x && isScalar d
  | .amoMaxu _ _ x _ d _ => isScalar x && isScalar d
  | .amoFaddS _ _ x d _ => isScalar x && isScalar d
  | .amoCas _ _ x _ d _ => isScalar x && isPair d
  | .take _ _ x d _ => isScalar x && isScalar d
  | .peek _ _ x d _ => isScalar x && isScalar d
  | .give _ _ x s _ => isScalar x && isScalar s
  | .fill _ _ x s _ => isScalar x && isScalar s
  | .femark _ _ x _ => isScalar x
  | .feclear _ _ x _ => isScalar x
  | .fequery _ _ x d _ => isScalar x && isScalar d
  | .watchEq _ _ x v _ => isScalar x && isScalar v
  | .watchNe _ _ x v _ => isScalar x && isScalar v
  | .watchLt _ _ x v _ => isScalar x && isScalar v
  | .watchGe _ _ x v _ => isScalar x && isScalar v
  | .watchLtu _ _ x v _ => isScalar x && isScalar v
  | .watchGeu _ _ x v _ => isScalar x && isScalar v
  | .fenceAcq s _ => decide (s.toNat ≤ 5)
  | .fenceRel s _ => decide (s.toNat ≤ 5)
  | .fenceFull s _ => decide (s.toNat ≤ 5)
  | .fenceEng s _ => decide (s.toNat ≤ 5)
  | .discard _ a b _ => isScalar a && isScalar b
  | .prefetch _ a b _ => isScalar a && isScalar b
  | .flush _ a b _ => isScalar a && isScalar b
  | .invl1 _ => true
  | .tdef _ _ _ a b _ => isScalar a && isScalar b
  | .texp _ _ a _ => isScalar a
  | .tstate _ d _ => isScalar d
  | .twait _ _ => true
  | .tready _ _ => true
  | .tdrain _ _ => true
  | .treset _ _ => true
  | .recLd _ _ a _ _ => isScalar a
  | .recSt _ _ a _ _ => isScalar a
  | .go _ a _ => isScalar a
  | .gohome _ => true
  | .goa _ _ a _ => isScalar a
  | .lug _ _ b a _ => isScalar a && isScalar b
  | .meet _ _ b a d _ => isScalar a && isScalar b && isScalar d
  | .part_ _ => true
  | .pget p d _ => isLow p && isScalar d
  | .pput _ a p _ => isLow p && isScalar a
  | .pxch p d _ => isLow p && isScalar d
  | .plug d _ => isScalar d
  | .whereIs d _ => isScalar d
  | .symq x d _ => isLow x && isScalar d
  | .symw x _ => isLow x
  | .symtag x d _ => isLow x && isScalar d
  | .spawn _ _ a _ => isScalar a
  | .jend _ _ a _ => isScalar a
  | .join _ _ a d _ => isScalar a && isScalar d
  | .yield _ => true
  | .exit _ => true
  | .dqn d _ => isScalar d
  | .ringInit _ _ a b _ => isScalar a && isScalar b
  | .ringTkt _ _ a d _ => isScalar a && isScalar d
  | .ringPut _ _ a b _ => isScalar a && isPair b
  | .ringTake _ _ a d _ => isScalar a && isScalar d
  | .ringFree _ _ a b _ => isScalar a && isScalar b
  | .pipePut p a _ => isPipePort p && isPair a
  | .pipeTake p d _ => isPipePort p && isScalar d
  | .pipeFree _ p a _ => isPipePort p && isScalar a
  | .barInit _ _ a b _ => isScalar a && isScalar b
  | .barArr _ _ a d _ => isScalar a && isScalar d
  | .barWait _ _ a b _ => isScalar a && isScalar b
  | .barCore _ => true
  | .barCluster _ => true
  | .barTower _ => true
  | .barModule _ => true
  | .barPod _ => true
  | .vadd v y _ a _ _ _ => y != 3 && (v == 0 || isLow a)
  | .vsub v y _ a _ _ _ => y != 3 && (v == 0 || isLow a)
  | .vmul v y _ a _ _ _ => y != 3 && (v == 0 || isLow a)
  | .vfma v y _ a _ _ _ => y != 3 && (v == 0 || isLow a)
  | .vfms v y _ a _ _ _ => y != 3 && (v == 0 || isLow a)
  | .vfnma v y _ a _ _ _ => y != 3 && (v == 0 || isLow a)
  | .vmin v y _ a _ _ _ => y != 3 && (v == 0 || isLow a)
  | .vmax v y _ a _ _ _ => y != 3 && (v == 0 || isLow a)
  | .vcmpEq v y _ a _ d _ => y != 3 && (v == 0 || isLow a) && isMaskDest d
  | .vcmpLt v y _ a _ d _ => y != 3 && (v == 0 || isLow a) && isMaskDest d
  | .vcmpLe v y _ a _ d _ => y != 3 && (v == 0 || isLow a) && isMaskDest d
  | .vsel v y _ a _ _ _ => y != 3 && (v == 0 || isLow a)
  | .vabs y _ _ _ _ => y != 3
  | .vneg y _ _ _ _ => y != 3
  | .vrcp y _ _ _ _ => y != 3
  | .vrsq y _ _ _ _ => y != 3
  | .vsqrt y _ _ _ _ => y != 3
  | .vexp2 y _ _ _ _ => y != 3
  | .vlog2 y _ _ _ _ => y != 3
  | .viadd v y _ a _ _ _ => y != 3 && (v == 0 || isLow a)
  | .visub v y _ a _ _ _ => y != 3 && (v == 0 || isLow a)
  | .vimul v y _ a _ _ _ => y != 3 && (v == 0 || isLow a)
  | .vimad v y _ a _ _ _ => y != 3 && (v == 0 || isLow a)
  | .vand v y _ a _ _ _ => y != 3 && (v == 0 || isLow a)
  | .vor v y _ a _ _ _ => y != 3 && (v == 0 || isLow a)
  | .vxor v y _ a _ _ _ => y != 3 && (v == 0 || isLow a)
  | .vshl v y _ a _ _ _ => y != 3 && (v == 0 || isLow a)
  | .vshr v y _ a _ _ _ => y != 3 && (v == 0 || isLow a)
  | .vsra v y _ a _ _ _ => y != 3 && (v == 0 || isLow a)
  | .vimin v y _ a _ _ _ => y != 3 && (v == 0 || isLow a)
  | .vimax v y _ a _ _ _ => y != 3 && (v == 0 || isLow a)
  | .vicmpEq v y _ a _ d _ => y != 3 && (v == 0 || isLow a) && isMaskDest d
  | .vicmpLt v y _ a _ d _ => y != 3 && (v == 0 || isLow a) && isMaskDest d
  | .vicmpLe v y _ a _ d _ => y != 3 && (v == 0 || isLow a) && isMaskDest d
  | .vld _ a _ _ _ => isLow a
  | .vlds _ a _ _ _ => isLow a
  | .vldg _ _ a _ _ _ => isLow a
  | .vldt _ a _ _ => isLow a
  | .vst _ a _ _ _ => isLow a
  | .vsts _ a _ _ _ => isLow a
  | .vstg _ _ a _ _ _ => isLow a
  | .vstt _ a _ _ => isLow a
  | .vredsum _ _ _ d _ => isLow d
  | .vredmax _ _ _ d _ => isLow d
  | .vredmin _ _ _ d _ => isLow d
  | .vperm y _ _ _ _ _ => y != 3
  | .vrot y b _ _ _ _ => y != 3 && isLow b
  | .vbcast y a _ _ _ => y != 3 && isLow a
  | .vext y b _ d _ => y != 3 && isLow b && isLow d
  | .vins y b a _ _ => y != 3 && isLow a && isLow b
  | .vmov y _ _ _ _ => y != 3
  | .mand b a d _ => isMask a && isMask b && isMaskDest d
  | .mor b a d _ => isMask a && isMask b && isMaskDest d
  | .mnot a d _ => isMask a && isMaskDest d
  | .mpop a d _ => isMask a && isLow d
  | .vcvt t s f _ _ _ _ => isCvtPair t f && (s == 0 || t == 9)
  | .vpack f _ _ _ => isPackFmt f
  | .vunpack f _ _ _ => isPackFmt f
  | .vqblk _ b _ _ _ _ => isLow b
  | .vscl _ b _ _ _ _ => isLow b
  | .mma _ _ _ a f b _ => isScalar a && isScalar b && f != 7
  | .mmaT _ _ _ a f b _ => isScalar a && isScalar b && f != 7
  | .mmas _ _ _ a f b _ => isScalar a && isScalar b && (f == 0 || f == 3)
  | .accZero _ _ a b _ => isScalar a && isScalar b
  | .accRd _ _ a f _ => isScalar a && (f == 4 || f == 5 || f == 6)
  | .accWr _ _ a f _ => isScalar a && (f == 4 || f == 5 || f == 6)
  | .loftLd _ _ a _ => isScalar a
  | .copy _ _ _ _ _ _ => true
  | .copyMc _ _ _ _ _ _ => true
  | .copyT _ _ _ _ _ => true
  | .reduce _ _ o _ _ _ _ => o != 3
  | .launch _ a _ => isScalar a
  | .lwait _ a d _ => isScalar a && isScalar d
  | .cancel _ b a _ => isScalar a && isScalar b
  | .cpref _ _ a b _ => isScalar a && isScalar b
  | .cdisc _ _ a b _ => isScalar a && isScalar b
  | .evsig _ a _ => isScalar a
  | .evwait _ a d _ => isScalar a && isScalar d
  | .vfq _ a d _ => isScalar a && isScalar d
  | .vfdone _ a _ => isScalar a
  | .add_ b a d _ => isScalar a && isScalar b && isScalar d
  | .sll b a d _ => isScalar a && isScalar b && isScalar d
  | .slt b a d _ => isScalar a && isScalar b && isScalar d
  | .sltu b a d _ => isScalar a && isScalar b && isScalar d
  | .xor_ b a d _ => isScalar a && isScalar b && isScalar d
  | .srl b a d _ => isScalar a && isScalar b && isScalar d
  | .or_ b a d _ => isScalar a && isScalar b && isScalar d
  | .and_ b a d _ => isScalar a && isScalar b && isScalar d
  | .sub_ b a d _ => isScalar a && isScalar b && isScalar d
  | .sra b a d _ => isScalar a && isScalar b && isScalar d
  | .mul_ b a d _ => isScalar a && isScalar b && isScalar d
  | .mulh b a d _ => isScalar a && isScalar b && isScalar d
  | .mulhu b a d _ => isScalar a && isScalar b && isScalar d
  | .div_ b a d _ => isScalar a && isScalar b && isScalar d
  | .divu b a d _ => isScalar a && isScalar b && isScalar d
  | .rem_ b a d _ => isScalar a && isScalar b && isScalar d
  | .remu b a d _ => isScalar a && isScalar b && isScalar d
  | .min_ b a d _ => isScalar a && isScalar b && isScalar d
  | .max_ b a d _ => isScalar a && isScalar b && isScalar d
  | .minu b a d _ => isScalar a && isScalar b && isScalar d
  | .maxu b a d _ => isScalar a && isScalar b && isScalar d
  | .clz a d _ => isScalar a && isScalar d
  | .ctz a d _ => isScalar a && isScalar d
  | .popc a d _ => isScalar a && isScalar d
  | .sextB a d _ => isScalar a && isScalar d
  | .sextH a d _ => isScalar a && isScalar d
  | .sextW a d _ => isScalar a && isScalar d
  | .zextB a d _ => isScalar a && isScalar d
  | .zextH a d _ => isScalar a && isScalar d
  | .zextW a d _ => isScalar a && isScalar d
  | .addi _ a d _ => isScalar a && isScalar d
  | .slti _ a d _ => isScalar a && isScalar d
  | .sltiu _ a d _ => isScalar a && isScalar d
  | .xori _ a d _ => isScalar a && isScalar d
  | .ori _ a d _ => isScalar a && isScalar d
  | .andi _ a d _ => isScalar a && isScalar d
  | .slli _ a d _ => isScalar a && isScalar d
  | .srli _ a d _ => isScalar a && isScalar d
  | .srai _ a d _ => isScalar a && isScalar d
  | .lui _ d _ => isScalar d
  | .auipc _ d _ => isScalar d
  | .beq _ b a _ => isScalar a && isScalar b
  | .bne _ b a _ => isScalar a && isScalar b
  | .bfull _ a _ => isScalar a
  | .bempty _ a _ => isScalar a
  | .blt _ b a _ => isScalar a && isScalar b
  | .bge _ b a _ => isScalar a && isScalar b
  | .bltu _ b a _ => isScalar a && isScalar b
  | .bgeu _ b a _ => isScalar a && isScalar b
  | .jal _ d _ => isScalar d
  | .jalr _ a d _ => isScalar a && isScalar d
  | .fadd _ b a r d _ => isScalar a && isScalar b && isScalar d && isRounding r
  | .fsub _ b a r d _ => isScalar a && isScalar b && isScalar d && isRounding r
  | .fmul _ b a r d _ => isScalar a && isScalar b && isScalar d && isRounding r
  | .fdiv _ b a r d _ => isScalar a && isScalar b && isScalar d && isRounding r
  | .fsqrt _ a r d _ => isScalar a && isScalar d && isRounding r
  | .ffma _ b a r d _ => isScalar a && isScalar b && isScalar d && isRounding r
  | .fmin _ b a d _ => isScalar a && isScalar b && isScalar d
  | .fmax _ b a d _ => isScalar a && isScalar b && isScalar d
  | .feq _ b a d _ => isScalar a && isScalar b && isScalar d
  | .flt _ b a d _ => isScalar a && isScalar b && isScalar d
  | .fle _ b a d _ => isScalar a && isScalar b && isScalar d
  | .fclass _ a d _ => isScalar a && isScalar d
  | .fcvtToFloat f s a r d _ => isScalar a && isScalar d && isRounding r && isCvtFrom f s
  | .fcvtToInt _ s a r d _ => isScalar a && isScalar d && isRounding r && decide (2 ≤ s.toNat) && decide (s.toNat ≤ 5)
  | .get_ i d _ => isScalar d && decide (i.toNat ≤ 0x10)
  | .set_ i a _ => isScalar a && decide (i.toNat ≤ 0x10)
  | .cget _ d _ => isScalar d
  | .cset _ a _ => isScalar a
  | .ecall _ => true
  | .ebreak _ => true
  | .eret _ => true
  | .halt _ => true
  | .tlbi b a _ => isScalar a && isScalar b
  | .kill a _ => isScalar a
  | .sget a d _ => isScalar a && isScalar d
  | .sset b a _ => isScalar a && isScalar b
  | .doubleFault _ => true
  | .strandArrival _ => true
  | .guestEviction _ => true
  | .evictionReturn _ => true
  | .forwardedResult _ _ => true
  | .lateResultReturn _ _ _ => true
  | .symbolResolution _ _ _ => true
  | .parkWake _ => true
  | .strandPromotion _ => true
  | .meetingExpiry _ _ => true
  | .meetingPaired _ _ => true
  | .linkFailure _ => true
  | .killNotice _ => true
  | .boundaryStop _ => true
  | .stoppedReturn _ => true
  | .storeAccepted _ => true
  | .storeAck _ _ => true
  | .vaultFillReturn _ _ => true
  | .writeBackDrain _ => true
  | .feWaiterService _ _ => true
  | .watchTimeout _ _ => true
  | .joinListService _ _ => true
  | .barWaitService _ _ => true
  | .translationFill _ _ _ => true
  | .tableWalkComplete _ _ => true
  | .tileSetDown _ _ _ _ => true
  | .tileDeliveryFault _ _ _ _ => true
  | .rangeLockRelease _ _ => true
  | .vectorEntryAccept _ _ => true
  | .vectorEntryComplete _ _ => true
  | .matrixCommandStart _ => true
  | .matrixCommandComplete _ => true
  | .courierPieceLaunch _ => true
  | .courierPickUp _ => true
  | .courierSetDown _ => true
  | .engineCompletionReport _ => true
  | .combineWindowClose _ _ => true
  | .reductionNodeArrival _ => true
  | .reductionRelaunch _ => true
  | .ringPieceArrival _ => true
  | .ringPieceRelaunch _ => true
  | .dequeTakeRequest _ _ _ => true
  | .dequeIncrementAccepted _ _ => true
  | .dequeAdjustmentAccepted _ _ _ => true
  | .thiefVictimArrival _ => true
  | .thiefFrameArrival _ => true
  | .thiefRetry _ => true
  | .barrierRelease _ => true
  | .blockCompletion _ => true
  | .blockEndReport _ _ => true
  | .gridDone _ => true
  | .dealingRequest _ _ => true
  | .dealingGrant _ _ => true
  | .blockStart _ _ => true
  | .cancelStop _ _ => true
  | .moduleAnswerTimeout _ _ => true
  | .preemptSuspend _ => true
  | .preemptRestore _ => true
  | .strandKill _ _ => true
  | .blockRerun _ => true
  | .noticeArrival _ => true
  | .noticeReoffer _ => true
  | .tlbiAck _ => true
  | .contextRemoval _ => true
  | .contextRemovalStepEnd _ => true
  | .pmQuiesce _ _ => true
  | .pmOpen _ _ => true
  | .pmRelease _ _ => true
  | .pmResume _ _ => true
  | .quarterQuiesced _ _ => true
  | .scRetry _ _ => true
  | .scSkip _ _ => true
  | .scKill _ _ => true
  | .mgMigrate _ _ _ => true
  | .mgCheckpoint _ _ => true
  | .mgCheckpointRemove _ _ => true
  | .mgRestore _ _ => true
  | .migrationStreamDone _ => true
  | .vaultDropGo _ _ => true
  | .vaultGranuleMove _ => true
  | .windowOpen _ _ _ _ => true
  | .windowRevoke _ _ => true
  | .windowClose _ _ => true
  | .windowRevokedAck _ _ => true
  | .keyWrite _ _ _ => true
  | .oldKeyExpiry _ _ => true
  | .podFrameReceive _ _ _ _ => true
  | .podPortTraining _ _ _ => true
  | .hostWrite _ _ _ _ _ => true
  | .hostWriteAck _ => true
  | .hostRead _ _ _ _ _ => true
  | .mailboxCommit _ _ => true
  | .moduleResetRequest _ _ => true
  | .cqHeadWrite _ _ _ => true
  | .completionRecordWrite _ _ => true
  | .functionLevelReset _ _ => true
  | .configRequest _ _ => true
  | .coldReset => true
  | .moduleReset _ => true
  | .pllLockLoss _ => true
  | .sensorSample _ => true
  | .fwUpdateStart _ => true
  | .fwBankMark _ => true
  | .bootFallback _ => true
  | .logEntrySelect _ _ => true
  | .attestationRequest _ _ _ => true
  | .eventWaitTimeout _ _ => true
  | .remoteEvsigArrival _ _ _ => true
  | .replayDelivery _ => true
  | .loadLaunch _ => true
  | .registerWrite _ _ _ _ _ => true
  | .illegalInstruction _ => true
  | .instructionFetchFault _ => true
  | .tokenAccrual _ => true
  | .sliceCacheRequest _ => true

end Sys2Proof
end

