-- ==== Sys2Proof/Decode.lean ====
section
/-! DEFINITION. Reading an instruction word (R8, R41 to R49), and the encoder after it. A word is matched against the
fixed cells of its major's rows (R47, R48); then the field checks of WellFormed apply. -/

namespace Sys2Proof

noncomputable section

/-- Why a word is not an instruction (R49). -/
inductive DecodeError where
  /-- its major is 0x00 or 0x20 to 0x3F -/
  | illegalMajor
  /-- no row of its major has these fixed bits -/
  | noSuchMinor
  /-- a field holds a value that its row does not list -/
  | illegalField
  /-- fewer than four bytes were given -/
  | tooShort
  deriving DecidableEq, Repr

/-- The word has the fixed bits of a row. -/
abbrev rowMatches (w mask fixed : IWord) : Bool := w &&& mask == fixed

/-- The branch offset of the B format (R42). -/
def branchOffset (w : IWord) : BitVec 12 := w.extractLsb' 25 7 ++ w.extractLsb' 7 5

/-- Rows of major 0x01 (R48). -/
def decodeLd (w : IWord) : Option Instr :=
  if rowMatches w 0x0000707E 0x00000002 then
    some (.ldB (w.extractLsb' 26 6) (w.extractLsb' 20 6) (w.extractLsb' 15 5) (w.extractLsb' 7 5) (w.extractLsb' 0 1))
  else if rowMatches w 0x0000707E 0x00001002 then
    some (.ldH (w.extractLsb' 26 6) (w.extractLsb' 20 6) (w.extractLsb' 15 5) (w.extractLsb' 7 5) (w.extractLsb' 0 1))
  else if rowMatches w 0x0000707E 0x00002002 then
    some (.ldW (w.extractLsb' 26 6) (w.extractLsb' 20 6) (w.extractLsb' 15 5) (w.extractLsb' 7 5) (w.extractLsb' 0 1))
  else if rowMatches w 0x0000707E 0x00003002 then
    some (.ldD (w.extractLsb' 26 6) (w.extractLsb' 20 6) (w.extractLsb' 15 5) (w.extractLsb' 7 5) (w.extractLsb' 0 1))
  else if rowMatches w 0x0000707E 0x00004002 then
    some (.ldBu (w.extractLsb' 26 6) (w.extractLsb' 20 6) (w.extractLsb' 15 5) (w.extractLsb' 7 5) (w.extractLsb' 0 1))
  else if rowMatches w 0x0000707E 0x00005002 then
    some (.ldHu (w.extractLsb' 26 6) (w.extractLsb' 20 6) (w.extractLsb' 15 5) (w.extractLsb' 7 5) (w.extractLsb' 0 1))
  else if rowMatches w 0x0000707E 0x00006002 then
    some (.ldWu (w.extractLsb' 26 6) (w.extractLsb' 20 6) (w.extractLsb' 15 5) (w.extractLsb' 7 5) (w.extractLsb' 0 1))
  else none

/-- Rows of major 0x02 (R48). -/
def decodeLdx (w : IWord) : Option Instr :=
  if rowMatches w 0x0C00707E 0x00000004 then
    some (.ldBMx (w.extractLsb' 30 2) (w.extractLsb' 28 2) (w.extractLsb' 20 6) (w.extractLsb' 15 5) (w.extractLsb' 7 5) (w.extractLsb' 0 1))
  else if rowMatches w 0x0C00707E 0x00001004 then
    some (.ldHMx (w.extractLsb' 30 2) (w.extractLsb' 28 2) (w.extractLsb' 20 6) (w.extractLsb' 15 5) (w.extractLsb' 7 5) (w.extractLsb' 0 1))
  else if rowMatches w 0x0C00707E 0x00002004 then
    some (.ldWMx (w.extractLsb' 30 2) (w.extractLsb' 28 2) (w.extractLsb' 20 6) (w.extractLsb' 15 5) (w.extractLsb' 7 5) (w.extractLsb' 0 1))
  else if rowMatches w 0x0C00707E 0x00003004 then
    some (.ldDMx (w.extractLsb' 30 2) (w.extractLsb' 28 2) (w.extractLsb' 20 6) (w.extractLsb' 15 5) (w.extractLsb' 7 5) (w.extractLsb' 0 1))
  else if rowMatches w 0x0C00707E 0x00004004 then
    some (.ldBuMx (w.extractLsb' 30 2) (w.extractLsb' 28 2) (w.extractLsb' 20 6) (w.extractLsb' 15 5) (w.extractLsb' 7 5) (w.extractLsb' 0 1))
  else if rowMatches w 0x0C00707E 0x00005004 then
    some (.ldHuMx (w.extractLsb' 30 2) (w.extractLsb' 28 2) (w.extractLsb' 20 6) (w.extractLsb' 15 5) (w.extractLsb' 7 5) (w.extractLsb' 0 1))
  else if rowMatches w 0x0C00707E 0x00006004 then
    some (.ldWuMx (w.extractLsb' 30 2) (w.extractLsb' 28 2) (w.extractLsb' 20 6) (w.extractLsb' 15 5) (w.extractLsb' 7 5) (w.extractLsb' 0 1))
  else none

/-- Rows of major 0x03 (R48). -/
def decodeSt (w : IWord) : Option Instr :=
  if rowMatches w 0x0000707E 0x00000006 then
    some (.stB (w.extractLsb' 26 6) (w.extractLsb' 20 6) (w.extractLsb' 15 5) (w.extractLsb' 7 5) (w.extractLsb' 0 1))
  else if rowMatches w 0x0000707E 0x00001006 then
    some (.stH (w.extractLsb' 26 6) (w.extractLsb' 20 6) (w.extractLsb' 15 5) (w.extractLsb' 7 5) (w.extractLsb' 0 1))
  else if rowMatches w 0x0000707E 0x00002006 then
    some (.stW (w.extractLsb' 26 6) (w.extractLsb' 20 6) (w.extractLsb' 15 5) (w.extractLsb' 7 5) (w.extractLsb' 0 1))
  else if rowMatches w 0x0000707E 0x00003006 then
    some (.stD (w.extractLsb' 26 6) (w.extractLsb' 20 6) (w.extractLsb' 15 5) (w.extractLsb' 7 5) (w.extractLsb' 0 1))
  else none

/-- Rows of major 0x04 (R48). -/
def decodeStx (w : IWord) : Option Instr :=
  if rowMatches w 0x0C00707E 0x00000008 then
    some (.stBMx (w.extractLsb' 30 2) (w.extractLsb' 28 2) (w.extractLsb' 20 6) (w.extractLsb' 15 5) (w.extractLsb' 7 5) (w.extractLsb' 0 1))
  else if rowMatches w 0x0C00707E 0x00001008 then
    some (.stHMx (w.extractLsb' 30 2) (w.extractLsb' 28 2) (w.extractLsb' 20 6) (w.extractLsb' 15 5) (w.extractLsb' 7 5) (w.extractLsb' 0 1))
  else if rowMatches w 0x0C00707E 0x00002008 then
    some (.stWMx (w.extractLsb' 30 2) (w.extractLsb' 28 2) (w.extractLsb' 20 6) (w.extractLsb' 15 5) (w.extractLsb' 7 5) (w.extractLsb' 0 1))
  else if rowMatches w 0x0C00707E 0x00003008 then
    some (.stDMx (w.extractLsb' 30 2) (w.extractLsb' 28 2) (w.extractLsb' 20 6) (w.extractLsb' 15 5) (w.extractLsb' 7 5) (w.extractLsb' 0 1))
  else none

/-- Rows of major 0x05 (R48). -/
def decodeOpi (w : IWord) : Option Instr :=
  if rowMatches w 0x0000707E 0x0000000A then
    some (.addi (w.extractLsb' 20 12) (w.extractLsb' 15 5) (w.extractLsb' 7 5) (w.extractLsb' 0 1))
  else if rowMatches w 0x0000707E 0x0000200A then
    some (.slti (w.extractLsb' 20 12) (w.extractLsb' 15 5) (w.extractLsb' 7 5) (w.extractLsb' 0 1))
  else if rowMatches w 0x0000707E 0x0000300A then
    some (.sltiu (w.extractLsb' 20 12) (w.extractLsb' 15 5) (w.extractLsb' 7 5) (w.extractLsb' 0 1))
  else if rowMatches w 0x0000707E 0x0000400A then
    some (.xori (w.extractLsb' 20 12) (w.extractLsb' 15 5) (w.extractLsb' 7 5) (w.extractLsb' 0 1))
  else if rowMatches w 0x0000707E 0x0000600A then
    some (.ori (w.extractLsb' 20 12) (w.extractLsb' 15 5) (w.extractLsb' 7 5) (w.extractLsb' 0 1))
  else if rowMatches w 0x0000707E 0x0000700A then
    some (.andi (w.extractLsb' 20 12) (w.extractLsb' 15 5) (w.extractLsb' 7 5) (w.extractLsb' 0 1))
  else if rowMatches w 0xFC00707E 0x0000100A then
    some (.slli (w.extractLsb' 20 6) (w.extractLsb' 15 5) (w.extractLsb' 7 5) (w.extractLsb' 0 1))
  else if rowMatches w 0xFC00707E 0x0000500A then
    some (.srli (w.extractLsb' 20 6) (w.extractLsb' 15 5) (w.extractLsb' 7 5) (w.extractLsb' 0 1))
  else if rowMatches w 0xFC00707E 0x4000500A then
    some (.srai (w.extractLsb' 20 6) (w.extractLsb' 15 5) (w.extractLsb' 7 5) (w.extractLsb' 0 1))
  else none

/-- Rows of major 0x06 (R48). -/
def decodeOp (w : IWord) : Option Instr :=
  if rowMatches w 0xFE00707E 0x0000000C then
    some (.add_ (w.extractLsb' 20 5) (w.extractLsb' 15 5) (w.extractLsb' 7 5) (w.extractLsb' 0 1))
  else if rowMatches w 0xFE00707E 0x0000100C then
    some (.sll (w.extractLsb' 20 5) (w.extractLsb' 15 5) (w.extractLsb' 7 5) (w.extractLsb' 0 1))
  else if rowMatches w 0xFE00707E 0x0000200C then
    some (.slt (w.extractLsb' 20 5) (w.extractLsb' 15 5) (w.extractLsb' 7 5) (w.extractLsb' 0 1))
  else if rowMatches w 0xFE00707E 0x0000300C then
    some (.sltu (w.extractLsb' 20 5) (w.extractLsb' 15 5) (w.extractLsb' 7 5) (w.extractLsb' 0 1))
  else if rowMatches w 0xFE00707E 0x0000400C then
    some (.xor_ (w.extractLsb' 20 5) (w.extractLsb' 15 5) (w.extractLsb' 7 5) (w.extractLsb' 0 1))
  else if rowMatches w 0xFE00707E 0x0000500C then
    some (.srl (w.extractLsb' 20 5) (w.extractLsb' 15 5) (w.extractLsb' 7 5) (w.extractLsb' 0 1))
  else if rowMatches w 0xFE00707E 0x0000600C then
    some (.or_ (w.extractLsb' 20 5) (w.extractLsb' 15 5) (w.extractLsb' 7 5) (w.extractLsb' 0 1))
  else if rowMatches w 0xFE00707E 0x0000700C then
    some (.and_ (w.extractLsb' 20 5) (w.extractLsb' 15 5) (w.extractLsb' 7 5) (w.extractLsb' 0 1))
  else if rowMatches w 0xFE00707E 0x4000000C then
    some (.sub_ (w.extractLsb' 20 5) (w.extractLsb' 15 5) (w.extractLsb' 7 5) (w.extractLsb' 0 1))
  else if rowMatches w 0xFE00707E 0x4000500C then
    some (.sra (w.extractLsb' 20 5) (w.extractLsb' 15 5) (w.extractLsb' 7 5) (w.extractLsb' 0 1))
  else if rowMatches w 0xFE00707E 0x0200000C then
    some (.mul_ (w.extractLsb' 20 5) (w.extractLsb' 15 5) (w.extractLsb' 7 5) (w.extractLsb' 0 1))
  else if rowMatches w 0xFE00707E 0x0200100C then
    some (.mulh (w.extractLsb' 20 5) (w.extractLsb' 15 5) (w.extractLsb' 7 5) (w.extractLsb' 0 1))
  else if rowMatches w 0xFE00707E 0x0200300C then
    some (.mulhu (w.extractLsb' 20 5) (w.extractLsb' 15 5) (w.extractLsb' 7 5) (w.extractLsb' 0 1))
  else if rowMatches w 0xFE00707E 0x0200400C then
    some (.div_ (w.extractLsb' 20 5) (w.extractLsb' 15 5) (w.extractLsb' 7 5) (w.extractLsb' 0 1))
  else if rowMatches w 0xFE00707E 0x0200500C then
    some (.divu (w.extractLsb' 20 5) (w.extractLsb' 15 5) (w.extractLsb' 7 5) (w.extractLsb' 0 1))
  else if rowMatches w 0xFE00707E 0x0200600C then
    some (.rem_ (w.extractLsb' 20 5) (w.extractLsb' 15 5) (w.extractLsb' 7 5) (w.extractLsb' 0 1))
  else if rowMatches w 0xFE00707E 0x0200700C then
    some (.remu (w.extractLsb' 20 5) (w.extractLsb' 15 5) (w.extractLsb' 7 5) (w.extractLsb' 0 1))
  else if rowMatches w 0xFE00707E 0x0A00400C then
    some (.min_ (w.extractLsb' 20 5) (w.extractLsb' 15 5) (w.extractLsb' 7 5) (w.extractLsb' 0 1))
  else if rowMatches w 0xFE00707E 0x0A00500C then
    some (.max_ (w.extractLsb' 20 5) (w.extractLsb' 15 5) (w.extractLsb' 7 5) (w.extractLsb' 0 1))
  else if rowMatches w 0xFE00707E 0x0A00600C then
    some (.minu (w.extractLsb' 20 5) (w.extractLsb' 15 5) (w.extractLsb' 7 5) (w.extractLsb' 0 1))
  else if rowMatches w 0xFE00707E 0x0A00700C then
    some (.maxu (w.extractLsb' 20 5) (w.extractLsb' 15 5) (w.extractLsb' 7 5) (w.extractLsb' 0 1))
  else if rowMatches w 0xFFF0707E 0x6000100C then
    some (.clz (w.extractLsb' 15 5) (w.extractLsb' 7 5) (w.extractLsb' 0 1))
  else if rowMatches w 0xFFF0707E 0x6010100C then
    some (.ctz (w.extractLsb' 15 5) (w.extractLsb' 7 5) (w.extractLsb' 0 1))
  else if rowMatches w 0xFFF0707E 0x6020100C then
    some (.popc (w.extractLsb' 15 5) (w.extractLsb' 7 5) (w.extractLsb' 0 1))
  else if rowMatches w 0xFFF0707E 0x6040100C then
    some (.sextB (w.extractLsb' 15 5) (w.extractLsb' 7 5) (w.extractLsb' 0 1))
  else if rowMatches w 0xFFF0707E 0x6050100C then
    some (.sextH (w.extractLsb' 15 5) (w.extractLsb' 7 5) (w.extractLsb' 0 1))
  else if rowMatches w 0xFFF0707E 0x6060100C then
    some (.sextW (w.extractLsb' 15 5) (w.extractLsb' 7 5) (w.extractLsb' 0 1))
  else if rowMatches w 0xFFF0707E 0x6080100C then
    some (.zextB (w.extractLsb' 15 5) (w.extractLsb' 7 5) (w.extractLsb' 0 1))
  else if rowMatches w 0xFFF0707E 0x6090100C then
    some (.zextH (w.extractLsb' 15 5) (w.extractLsb' 7 5) (w.extractLsb' 0 1))
  else if rowMatches w 0xFFF0707E 0x60A0100C then
    some (.zextW (w.extractLsb' 15 5) (w.extractLsb' 7 5) (w.extractLsb' 0 1))
  else none

/-- Rows of major 0x07 (R48). -/
def decodeLui (w : IWord) : Option Instr :=
  if rowMatches w 0x0000007E 0x0000000E then
    some (.lui (w.extractLsb' 12 20) (w.extractLsb' 7 5) (w.extractLsb' 0 1))
  else none

/-- Rows of major 0x08 (R48). -/
def decodeAuipc (w : IWord) : Option Instr :=
  if rowMatches w 0x0000007E 0x00000010 then
    some (.auipc (w.extractLsb' 12 20) (w.extractLsb' 7 5) (w.extractLsb' 0 1))
  else none

/-- Rows of major 0x09 (R48). -/
def decodeBranch (w : IWord) : Option Instr :=
  if rowMatches w 0x0000707E 0x00000012 then
    some (.beq (branchOffset w) (w.extractLsb' 20 5) (w.extractLsb' 15 5) (w.extractLsb' 0 1))
  else if rowMatches w 0x0000707E 0x00001012 then
    some (.bne (branchOffset w) (w.extractLsb' 20 5) (w.extractLsb' 15 5) (w.extractLsb' 0 1))
  else if rowMatches w 0x01F0707E 0x00002012 then
    some (.bfull (branchOffset w) (w.extractLsb' 15 5) (w.extractLsb' 0 1))
  else if rowMatches w 0x01F0707E 0x00003012 then
    some (.bempty (branchOffset w) (w.extractLsb' 15 5) (w.extractLsb' 0 1))
  else if rowMatches w 0x0000707E 0x00004012 then
    some (.blt (branchOffset w) (w.extractLsb' 20 5) (w.extractLsb' 15 5) (w.extractLsb' 0 1))
  else if rowMatches w 0x0000707E 0x00005012 then
    some (.bge (branchOffset w) (w.extractLsb' 20 5) (w.extractLsb' 15 5) (w.extractLsb' 0 1))
  else if rowMatches w 0x0000707E 0x00006012 then
    some (.bltu (branchOffset w) (w.extractLsb' 20 5) (w.extractLsb' 15 5) (w.extractLsb' 0 1))
  else if rowMatches w 0x0000707E 0x00007012 then
    some (.bgeu (branchOffset w) (w.extractLsb' 20 5) (w.extractLsb' 15 5) (w.extractLsb' 0 1))
  else none

/-- Rows of major 0x0A (R48). -/
def decodeJal (w : IWord) : Option Instr :=
  if rowMatches w 0x0000007E 0x00000014 then
    some (.jal (w.extractLsb' 12 20) (w.extractLsb' 7 5) (w.extractLsb' 0 1))
  else none

/-- Rows of major 0x0B (R48). -/
def decodeJalr (w : IWord) : Option Instr :=
  if rowMatches w 0x0000707E 0x00000016 then
    some (.jalr (w.extractLsb' 20 12) (w.extractLsb' 15 5) (w.extractLsb' 7 5) (w.extractLsb' 0 1))
  else none

/-- Rows of major 0x0C (R48). -/
def decodeFop (w : IWord) : Option Instr :=
  if rowMatches w 0xFC00007E 0x00000018 then
    some (.fadd (w.extractLsb' 25 1) (w.extractLsb' 20 5) (w.extractLsb' 15 5) (w.extractLsb' 12 3) (w.extractLsb' 7 5) (w.extractLsb' 0 1))
  else if rowMatches w 0xFC00007E 0x08000018 then
    some (.fsub (w.extractLsb' 25 1) (w.extractLsb' 20 5) (w.extractLsb' 15 5) (w.extractLsb' 12 3) (w.extractLsb' 7 5) (w.extractLsb' 0 1))
  else if rowMatches w 0xFC00007E 0x10000018 then
    some (.fmul (w.extractLsb' 25 1) (w.extractLsb' 20 5) (w.extractLsb' 15 5) (w.extractLsb' 12 3) (w.extractLsb' 7 5) (w.extractLsb' 0 1))
  else if rowMatches w 0xFC00007E 0x18000018 then
    some (.fdiv (w.extractLsb' 25 1) (w.extractLsb' 20 5) (w.extractLsb' 15 5) (w.extractLsb' 12 3) (w.extractLsb' 7 5) (w.extractLsb' 0 1))
  else if rowMatches w 0xFDF0007E 0x20000018 then
    some (.fsqrt (w.extractLsb' 25 1) (w.extractLsb' 15 5) (w.extractLsb' 12 3) (w.extractLsb' 7 5) (w.extractLsb' 0 1))
  else if rowMatches w 0xFC00007E 0x28000018 then
    some (.ffma (w.extractLsb' 25 1) (w.extractLsb' 20 5) (w.extractLsb' 15 5) (w.extractLsb' 12 3) (w.extractLsb' 7 5) (w.extractLsb' 0 1))
  else if rowMatches w 0xFC00707E 0x30000018 then
    some (.fmin (w.extractLsb' 25 1) (w.extractLsb' 20 5) (w.extractLsb' 15 5) (w.extractLsb' 7 5) (w.extractLsb' 0 1))
  else if rowMatches w 0xFC00707E 0x38000018 then
    some (.fmax (w.extractLsb' 25 1) (w.extractLsb' 20 5) (w.extractLsb' 15 5) (w.extractLsb' 7 5) (w.extractLsb' 0 1))
  else if rowMatches w 0xFC00707E 0x40000018 then
    some (.feq (w.extractLsb' 25 1) (w.extractLsb' 20 5) (w.extractLsb' 15 5) (w.extractLsb' 7 5) (w.extractLsb' 0 1))
  else if rowMatches w 0xFC00707E 0x48000018 then
    some (.flt (w.extractLsb' 25 1) (w.extractLsb' 20 5) (w.extractLsb' 15 5) (w.extractLsb' 7 5) (w.extractLsb' 0 1))
  else if rowMatches w 0xFC00707E 0x50000018 then
    some (.fle (w.extractLsb' 25 1) (w.extractLsb' 20 5) (w.extractLsb' 15 5) (w.extractLsb' 7 5) (w.extractLsb' 0 1))
  else if rowMatches w 0xFDF0707E 0x58000018 then
    some (.fclass (w.extractLsb' 25 1) (w.extractLsb' 15 5) (w.extractLsb' 7 5) (w.extractLsb' 0 1))
  else if rowMatches w 0xFD80007E 0x60000018 then
    some (.fcvtToFloat (w.extractLsb' 25 1) (w.extractLsb' 20 3) (w.extractLsb' 15 5) (w.extractLsb' 12 3) (w.extractLsb' 7 5) (w.extractLsb' 0 1))
  else if rowMatches w 0xFD80007E 0x68000018 then
    some (.fcvtToInt (w.extractLsb' 25 1) (w.extractLsb' 20 3) (w.extractLsb' 15 5) (w.extractLsb' 12 3) (w.extractLsb' 7 5) (w.extractLsb' 0 1))
  else none

/-- Rows of major 0x0D (R48). -/
def decodeAmo (w : IWord) : Option Instr :=
  if rowMatches w 0x3C00607E 0x0000201A then
    some (.amoAdd (w.extractLsb' 30 2) (w.extractLsb' 20 6) (w.extractLsb' 15 5) (w.extractLsb' 12 1) (w.extractLsb' 7 5) (w.extractLsb' 0 1))
  else if rowMatches w 0x3C00607E 0x0400201A then
    some (.amoSwap (w.extractLsb' 30 2) (w.extractLsb' 20 6) (w.extractLsb' 15 5) (w.extractLsb' 12 1) (w.extractLsb' 7 5) (w.extractLsb' 0 1))
  else if rowMatches w 0x3C00607E 0x0800201A then
    some (.amoAnd (w.extractLsb' 30 2) (w.extractLsb' 20 6) (w.extractLsb' 15 5) (w.extractLsb' 12 1) (w.extractLsb' 7 5) (w.extractLsb' 0 1))
  else if rowMatches w 0x3C00607E 0x0C00201A then
    some (.amoOr (w.extractLsb' 30 2) (w.extractLsb' 20 6) (w.extractLsb' 15 5) (w.extractLsb' 12 1) (w.extractLsb' 7 5) (w.extractLsb' 0 1))
  else if rowMatches w 0x3C00607E 0x1000201A then
    some (.amoXor (w.extractLsb' 30 2) (w.extractLsb' 20 6) (w.extractLsb' 15 5) (w.extractLsb' 12 1) (w.extractLsb' 7 5) (w.extractLsb' 0 1))
  else if rowMatches w 0x3C00607E 0x1400201A then
    some (.amoMin (w.extractLsb' 30 2) (w.extractLsb' 20 6) (w.extractLsb' 15 5) (w.extractLsb' 12 1) (w.extractLsb' 7 5) (w.extractLsb' 0 1))
  else if rowMatches w 0x3C00607E 0x1800201A then
    some (.amoMax (w.extractLsb' 30 2) (w.extractLsb' 20 6) (w.extractLsb' 15 5) (w.extractLsb' 12 1) (w.extractLsb' 7 5) (w.extractLsb' 0 1))
  else if rowMatches w 0x3C00607E 0x1C00201A then
    some (.amoMinu (w.extractLsb' 30 2) (w.extractLsb' 20 6) (w.extractLsb' 15 5) (w.extractLsb' 12 1) (w.extractLsb' 7 5) (w.extractLsb' 0 1))
  else if rowMatches w 0x3C00607E 0x2000201A then
    some (.amoMaxu (w.extractLsb' 30 2) (w.extractLsb' 20 6) (w.extractLsb' 15 5) (w.extractLsb' 12 1) (w.extractLsb' 7 5) (w.extractLsb' 0 1))
  else if rowMatches w 0x3C00707E 0x2400201A then
    some (.amoFaddS (w.extractLsb' 30 2) (w.extractLsb' 20 6) (w.extractLsb' 15 5) (w.extractLsb' 7 5) (w.extractLsb' 0 1))
  else if rowMatches w 0x3C00607E 0x2800201A then
    some (.amoCas (w.extractLsb' 30 2) (w.extractLsb' 20 6) (w.extractLsb' 15 5) (w.extractLsb' 12 1) (w.extractLsb' 7 5) (w.extractLsb' 0 1))
  else none

/-- Rows of major 0x0E (R48). -/
def decodeFe (w : IWord) : Option Instr :=
  if rowMatches w 0x3C00707E 0x0000301C then
    some (.take (w.extractLsb' 30 2) (w.extractLsb' 20 6) (w.extractLsb' 15 5) (w.extractLsb' 7 5) (w.extractLsb' 0 1))
  else if rowMatches w 0x3C00707E 0x0400301C then
    some (.peek (w.extractLsb' 30 2) (w.extractLsb' 20 6) (w.extractLsb' 15 5) (w.extractLsb' 7 5) (w.extractLsb' 0 1))
  else if rowMatches w 0x3C00707E 0x0800301C then
    some (.give (w.extractLsb' 30 2) (w.extractLsb' 20 6) (w.extractLsb' 15 5) (w.extractLsb' 7 5) (w.extractLsb' 0 1))
  else if rowMatches w 0x3C00707E 0x0C00301C then
    some (.fill (w.extractLsb' 30 2) (w.extractLsb' 20 6) (w.extractLsb' 15 5) (w.extractLsb' 7 5) (w.extractLsb' 0 1))
  else if rowMatches w 0x3C007FFE 0x1000301C then
    some (.femark (w.extractLsb' 30 2) (w.extractLsb' 20 6) (w.extractLsb' 15 5) (w.extractLsb' 0 1))
  else if rowMatches w 0x3C007FFE 0x1400301C then
    some (.feclear (w.extractLsb' 30 2) (w.extractLsb' 20 6) (w.extractLsb' 15 5) (w.extractLsb' 0 1))
  else if rowMatches w 0x3C00707E 0x1800301C then
    some (.fequery (w.extractLsb' 30 2) (w.extractLsb' 20 6) (w.extractLsb' 15 5) (w.extractLsb' 7 5) (w.extractLsb' 0 1))
  else if rowMatches w 0x3C00707E 0x2000301C then
    some (.watchEq (w.extractLsb' 30 2) (w.extractLsb' 20 6) (w.extractLsb' 15 5) (w.extractLsb' 7 5) (w.extractLsb' 0 1))
  else if rowMatches w 0x3C00707E 0x2400301C then
    some (.watchNe (w.extractLsb' 30 2) (w.extractLsb' 20 6) (w.extractLsb' 15 5) (w.extractLsb' 7 5) (w.extractLsb' 0 1))
  else if rowMatches w 0x3C00707E 0x2800301C then
    some (.watchLt (w.extractLsb' 30 2) (w.extractLsb' 20 6) (w.extractLsb' 15 5) (w.extractLsb' 7 5) (w.extractLsb' 0 1))
  else if rowMatches w 0x3C00707E 0x2C00301C then
    some (.watchGe (w.extractLsb' 30 2) (w.extractLsb' 20 6) (w.extractLsb' 15 5) (w.extractLsb' 7 5) (w.extractLsb' 0 1))
  else if rowMatches w 0x3C00707E 0x3000301C then
    some (.watchLtu (w.extractLsb' 30 2) (w.extractLsb' 20 6) (w.extractLsb' 15 5) (w.extractLsb' 7 5) (w.extractLsb' 0 1))
  else if rowMatches w 0x3C00707E 0x3400301C then
    some (.watchGeu (w.extractLsb' 30 2) (w.extractLsb' 20 6) (w.extractLsb' 15 5) (w.extractLsb' 7 5) (w.extractLsb' 0 1))
  else none

/-- Rows of major 0x0F (R48). -/
def decodeFence (w : IWord) : Option Instr :=
  if rowMatches w 0xFE0FFFFE 0x0000001E then
    some (.fenceAcq (w.extractLsb' 20 5) (w.extractLsb' 0 1))
  else if rowMatches w 0xFE0FFFFE 0x0000101E then
    some (.fenceRel (w.extractLsb' 20 5) (w.extractLsb' 0 1))
  else if rowMatches w 0xFE0FFFFE 0x0000201E then
    some (.fenceFull (w.extractLsb' 20 5) (w.extractLsb' 0 1))
  else if rowMatches w 0xFE0FFFFE 0x0000301E then
    some (.fenceEng (w.extractLsb' 20 5) (w.extractLsb' 0 1))
  else if rowMatches w 0xFE00707E 0x0000401E then
    some (.discard (w.extractLsb' 20 5) (w.extractLsb' 15 5) (w.extractLsb' 7 5) (w.extractLsb' 0 1))
  else if rowMatches w 0xFE00707E 0x0000501E then
    some (.prefetch (w.extractLsb' 20 5) (w.extractLsb' 15 5) (w.extractLsb' 7 5) (w.extractLsb' 0 1))
  else if rowMatches w 0xFE00707E 0x0000601E then
    some (.flush (w.extractLsb' 20 5) (w.extractLsb' 15 5) (w.extractLsb' 7 5) (w.extractLsb' 0 1))
  else if rowMatches w 0xFFFFFFFE 0x0000701E then
    some (.invl1 (w.extractLsb' 0 1))
  else none

/-- Rows of major 0x10 (R48). -/
def decodeTile (w : IWord) : Option Instr :=
  if rowMatches w 0x3C00707E 0x00000020 then
    some (.tdef (w.extractLsb' 31 1) (w.extractLsb' 30 1) (w.extractLsb' 20 6) (w.extractLsb' 15 5) (w.extractLsb' 7 5) (w.extractLsb' 0 1))
  else if rowMatches w 0x7C007FFE 0x04000020 then
    some (.texp (w.extractLsb' 31 1) (w.extractLsb' 20 6) (w.extractLsb' 15 5) (w.extractLsb' 0 1))
  else if rowMatches w 0xFC0FF07E 0x08000020 then
    some (.tstate (w.extractLsb' 20 6) (w.extractLsb' 7 5) (w.extractLsb' 0 1))
  else if rowMatches w 0xFC0FFFFE 0x0C000020 then
    some (.twait (w.extractLsb' 20 6) (w.extractLsb' 0 1))
  else if rowMatches w 0xFC0FFFFE 0x10000020 then
    some (.tready (w.extractLsb' 20 6) (w.extractLsb' 0 1))
  else if rowMatches w 0xFC0FFFFE 0x14000020 then
    some (.tdrain (w.extractLsb' 20 6) (w.extractLsb' 0 1))
  else if rowMatches w 0xFC0FFFFE 0x18000020 then
    some (.treset (w.extractLsb' 20 6) (w.extractLsb' 0 1))
  else if rowMatches w 0x7C00707E 0x20000020 then
    some (.recLd (w.extractLsb' 31 1) (w.extractLsb' 20 6) (w.extractLsb' 15 5) (w.extractLsb' 7 5) (w.extractLsb' 0 1))
  else if rowMatches w 0x7C00707E 0x24000020 then
    some (.recSt (w.extractLsb' 31 1) (w.extractLsb' 20 6) (w.extractLsb' 15 5) (w.extractLsb' 7 5) (w.extractLsb' 0 1))
  else none

/-- Rows of major 0x11 (R48). -/
def decodeTravel (w : IWord) : Option Instr :=
  if rowMatches w 0x7FF07FFE 0x00000022 then
    some (.go (w.extractLsb' 31 1) (w.extractLsb' 15 5) (w.extractLsb' 0 1))
  else if rowMatches w 0xFFFFFFFE 0x02000022 then
    some (.gohome (w.extractLsb' 0 1))
  else if rowMatches w 0x7E007FFE 0x04000022 then
    some (.goa (w.extractLsb' 31 1) (w.extractLsb' 20 5) (w.extractLsb' 15 5) (w.extractLsb' 0 1))
  else if rowMatches w 0x3E007FFE 0x06000022 then
    some (.lug (w.extractLsb' 31 1) (w.extractLsb' 30 1) (w.extractLsb' 20 5) (w.extractLsb' 15 5) (w.extractLsb' 0 1))
  else if rowMatches w 0x3E00707E 0x08000022 then
    some (.meet (w.extractLsb' 31 1) (w.extractLsb' 30 1) (w.extractLsb' 20 5) (w.extractLsb' 15 5) (w.extractLsb' 7 5) (w.extractLsb' 0 1))
  else if rowMatches w 0xFFFFFFFE 0x0A000022 then
    some (.part_ (w.extractLsb' 0 1))
  else if rowMatches w 0xFFF0707E 0x0C000022 then
    some (.pget (w.extractLsb' 15 5) (w.extractLsb' 7 5) (w.extractLsb' 0 1))
  else if rowMatches w 0x7FF0707E 0x0E000022 then
    some (.pput (w.extractLsb' 31 1) (w.extractLsb' 15 5) (w.extractLsb' 7 5) (w.extractLsb' 0 1))
  else if rowMatches w 0xFFF0707E 0x10000022 then
    some (.pxch (w.extractLsb' 15 5) (w.extractLsb' 7 5) (w.extractLsb' 0 1))
  else if rowMatches w 0xFFFFF07E 0x12000022 then
    some (.plug (w.extractLsb' 7 5) (w.extractLsb' 0 1))
  else if rowMatches w 0xFFFFF07E 0x14000022 then
    some (.whereIs (w.extractLsb' 7 5) (w.extractLsb' 0 1))
  else none

/-- Rows of major 0x12 (R48). -/
def decodeSym (w : IWord) : Option Instr :=
  if rowMatches w 0xFFF0707E 0x00000024 then
    some (.symq (w.extractLsb' 15 5) (w.extractLsb' 7 5) (w.extractLsb' 0 1))
  else if rowMatches w 0xFFF07FFE 0x02000024 then
    some (.symw (w.extractLsb' 15 5) (w.extractLsb' 0 1))
  else if rowMatches w 0xFFF0707E 0x04000024 then
    some (.symtag (w.extractLsb' 15 5) (w.extractLsb' 7 5) (w.extractLsb' 0 1))
  else none

/-- Rows of major 0x13 (R48). -/
def decodeTask (w : IWord) : Option Instr :=
  if rowMatches w 0x0000707E 0x00000026 then
    some (.spawn (branchOffset w) (w.extractLsb' 20 5) (w.extractLsb' 15 5) (w.extractLsb' 0 1))
  else if rowMatches w 0x7E007FFE 0x00001026 then
    some (.jend (w.extractLsb' 31 1) (w.extractLsb' 20 5) (w.extractLsb' 15 5) (w.extractLsb' 0 1))
  else if rowMatches w 0x7E00707E 0x00002026 then
    some (.join (w.extractLsb' 31 1) (w.extractLsb' 20 5) (w.extractLsb' 15 5) (w.extractLsb' 7 5) (w.extractLsb' 0 1))
  else if rowMatches w 0xFFFFFFFE 0x00003026 then
    some (.yield (w.extractLsb' 0 1))
  else if rowMatches w 0xFFFFFFFE 0x00004026 then
    some (.exit (w.extractLsb' 0 1))
  else if rowMatches w 0xFFFFF07E 0x00005026 then
    some (.dqn (w.extractLsb' 7 5) (w.extractLsb' 0 1))
  else none

/-- Rows of major 0x14 (R48). -/
def decodeRing (w : IWord) : Option Instr :=
  if rowMatches w 0x7E00707E 0x00000028 then
    some (.ringInit (w.extractLsb' 31 1) (w.extractLsb' 20 5) (w.extractLsb' 15 5) (w.extractLsb' 7 5) (w.extractLsb' 0 1))
  else if rowMatches w 0x7E00707E 0x02000028 then
    some (.ringTkt (w.extractLsb' 31 1) (w.extractLsb' 20 5) (w.extractLsb' 15 5) (w.extractLsb' 7 5) (w.extractLsb' 0 1))
  else if rowMatches w 0x7E00707E 0x04000028 then
    some (.ringPut (w.extractLsb' 31 1) (w.extractLsb' 20 5) (w.extractLsb' 15 5) (w.extractLsb' 7 5) (w.extractLsb' 0 1))
  else if rowMatches w 0x7E00707E 0x06000028 then
    some (.ringTake (w.extractLsb' 31 1) (w.extractLsb' 20 5) (w.extractLsb' 15 5) (w.extractLsb' 7 5) (w.extractLsb' 0 1))
  else if rowMatches w 0x7E00707E 0x08000028 then
    some (.ringFree (w.extractLsb' 31 1) (w.extractLsb' 20 5) (w.extractLsb' 15 5) (w.extractLsb' 7 5) (w.extractLsb' 0 1))
  else if rowMatches w 0xFE007FFE 0x10000028 then
    some (.pipePut (w.extractLsb' 20 5) (w.extractLsb' 15 5) (w.extractLsb' 0 1))
  else if rowMatches w 0xFE0FF07E 0x12000028 then
    some (.pipeTake (w.extractLsb' 20 5) (w.extractLsb' 7 5) (w.extractLsb' 0 1))
  else if rowMatches w 0x7E007FFE 0x14000028 then
    some (.pipeFree (w.extractLsb' 31 1) (w.extractLsb' 20 5) (w.extractLsb' 15 5) (w.extractLsb' 0 1))
  else none

/-- Rows of major 0x15 (R48). -/
def decodeBar (w : IWord) : Option Instr :=
  if rowMatches w 0x7E00707E 0x0000002A then
    some (.barInit (w.extractLsb' 31 1) (w.extractLsb' 20 5) (w.extractLsb' 15 5) (w.extractLsb' 7 5) (w.extractLsb' 0 1))
  else if rowMatches w 0x7E00707E 0x0200002A then
    some (.barArr (w.extractLsb' 31 1) (w.extractLsb' 20 5) (w.extractLsb' 15 5) (w.extractLsb' 7 5) (w.extractLsb' 0 1))
  else if rowMatches w 0x7E00707E 0x0400002A then
    some (.barWait (w.extractLsb' 31 1) (w.extractLsb' 20 5) (w.extractLsb' 15 5) (w.extractLsb' 7 5) (w.extractLsb' 0 1))
  else if rowMatches w 0xFFFFFFFE 0x0800002A then
    some (.barCore (w.extractLsb' 0 1))
  else if rowMatches w 0xFFFFFFFE 0x0800102A then
    some (.barCluster (w.extractLsb' 0 1))
  else if rowMatches w 0xFFFFFFFE 0x0800202A then
    some (.barTower (w.extractLsb' 0 1))
  else if rowMatches w 0xFFFFFFFE 0x0800302A then
    some (.barModule (w.extractLsb' 0 1))
  else if rowMatches w 0xFFFFFFFE 0x0800402A then
    some (.barPod (w.extractLsb' 0 1))
  else none

/-- Rows of major 0x16 (R48). -/
def decodeVop (w : IWord) : Option Instr :=
  if rowMatches w 0xF000007E 0x0000002C then
    some (.vadd (w.extractLsb' 27 1) (w.extractLsb' 25 2) (w.extractLsb' 20 5) (w.extractLsb' 15 5) (w.extractLsb' 12 3) (w.extractLsb' 7 5) (w.extractLsb' 0 1))
  else if rowMatches w 0xF000007E 0x1000002C then
    some (.vsub (w.extractLsb' 27 1) (w.extractLsb' 25 2) (w.extractLsb' 20 5) (w.extractLsb' 15 5) (w.extractLsb' 12 3) (w.extractLsb' 7 5) (w.extractLsb' 0 1))
  else if rowMatches w 0xF000007E 0x2000002C then
    some (.vmul (w.extractLsb' 27 1) (w.extractLsb' 25 2) (w.extractLsb' 20 5) (w.extractLsb' 15 5) (w.extractLsb' 12 3) (w.extractLsb' 7 5) (w.extractLsb' 0 1))
  else if rowMatches w 0xF000007E 0x3000002C then
    some (.vfma (w.extractLsb' 27 1) (w.extractLsb' 25 2) (w.extractLsb' 20 5) (w.extractLsb' 15 5) (w.extractLsb' 12 3) (w.extractLsb' 7 5) (w.extractLsb' 0 1))
  else if rowMatches w 0xF000007E 0x4000002C then
    some (.vfms (w.extractLsb' 27 1) (w.extractLsb' 25 2) (w.extractLsb' 20 5) (w.extractLsb' 15 5) (w.extractLsb' 12 3) (w.extractLsb' 7 5) (w.extractLsb' 0 1))
  else if rowMatches w 0xF000007E 0x5000002C then
    some (.vfnma (w.extractLsb' 27 1) (w.extractLsb' 25 2) (w.extractLsb' 20 5) (w.extractLsb' 15 5) (w.extractLsb' 12 3) (w.extractLsb' 7 5) (w.extractLsb' 0 1))
  else if rowMatches w 0xF000007E 0x6000002C then
    some (.vmin (w.extractLsb' 27 1) (w.extractLsb' 25 2) (w.extractLsb' 20 5) (w.extractLsb' 15 5) (w.extractLsb' 12 3) (w.extractLsb' 7 5) (w.extractLsb' 0 1))
  else if rowMatches w 0xF000007E 0x7000002C then
    some (.vmax (w.extractLsb' 27 1) (w.extractLsb' 25 2) (w.extractLsb' 20 5) (w.extractLsb' 15 5) (w.extractLsb' 12 3) (w.extractLsb' 7 5) (w.extractLsb' 0 1))
  else if rowMatches w 0xF000007E 0x8000002C then
    some (.vcmpEq (w.extractLsb' 27 1) (w.extractLsb' 25 2) (w.extractLsb' 20 5) (w.extractLsb' 15 5) (w.extractLsb' 12 3) (w.extractLsb' 7 5) (w.extractLsb' 0 1))
  else if rowMatches w 0xF000007E 0x9000002C then
    some (.vcmpLt (w.extractLsb' 27 1) (w.extractLsb' 25 2) (w.extractLsb' 20 5) (w.extractLsb' 15 5) (w.extractLsb' 12 3) (w.extractLsb' 7 5) (w.extractLsb' 0 1))
  else if rowMatches w 0xF000007E 0xA000002C then
    some (.vcmpLe (w.extractLsb' 27 1) (w.extractLsb' 25 2) (w.extractLsb' 20 5) (w.extractLsb' 15 5) (w.extractLsb' 12 3) (w.extractLsb' 7 5) (w.extractLsb' 0 1))
  else if rowMatches w 0xF000007E 0xB000002C then
    some (.vsel (w.extractLsb' 27 1) (w.extractLsb' 25 2) (w.extractLsb' 20 5) (w.extractLsb' 15 5) (w.extractLsb' 12 3) (w.extractLsb' 7 5) (w.extractLsb' 0 1))
  else if rowMatches w 0xF9F0007E 0xC000002C then
    some (.vabs (w.extractLsb' 25 2) (w.extractLsb' 15 5) (w.extractLsb' 12 3) (w.extractLsb' 7 5) (w.extractLsb' 0 1))
  else if rowMatches w 0xF9F0007E 0xC010002C then
    some (.vneg (w.extractLsb' 25 2) (w.extractLsb' 15 5) (w.extractLsb' 12 3) (w.extractLsb' 7 5) (w.extractLsb' 0 1))
  else if rowMatches w 0xF9F0007E 0xC020002C then
    some (.vrcp (w.extractLsb' 25 2) (w.extractLsb' 15 5) (w.extractLsb' 12 3) (w.extractLsb' 7 5) (w.extractLsb' 0 1))
  else if rowMatches w 0xF9F0007E 0xC030002C then
    some (.vrsq (w.extractLsb' 25 2) (w.extractLsb' 15 5) (w.extractLsb' 12 3) (w.extractLsb' 7 5) (w.extractLsb' 0 1))
  else if rowMatches w 0xF9F0007E 0xC040002C then
    some (.vsqrt (w.extractLsb' 25 2) (w.extractLsb' 15 5) (w.extractLsb' 12 3) (w.extractLsb' 7 5) (w.extractLsb' 0 1))
  else if rowMatches w 0xF9F0007E 0xC050002C then
    some (.vexp2 (w.extractLsb' 25 2) (w.extractLsb' 15 5) (w.extractLsb' 12 3) (w.extractLsb' 7 5) (w.extractLsb' 0 1))
  else if rowMatches w 0xF9F0007E 0xC060002C then
    some (.vlog2 (w.extractLsb' 25 2) (w.extractLsb' 15 5) (w.extractLsb' 12 3) (w.extractLsb' 7 5) (w.extractLsb' 0 1))
  else none

/-- Rows of major 0x17 (R48). -/
def decodeViop (w : IWord) : Option Instr :=
  if rowMatches w 0xF000007E 0x0000002E then
    some (.viadd (w.extractLsb' 27 1) (w.extractLsb' 25 2) (w.extractLsb' 20 5) (w.extractLsb' 15 5) (w.extractLsb' 12 3) (w.extractLsb' 7 5) (w.extractLsb' 0 1))
  else if rowMatches w 0xF000007E 0x1000002E then
    some (.visub (w.extractLsb' 27 1) (w.extractLsb' 25 2) (w.extractLsb' 20 5) (w.extractLsb' 15 5) (w.extractLsb' 12 3) (w.extractLsb' 7 5) (w.extractLsb' 0 1))
  else if rowMatches w 0xF000007E 0x2000002E then
    some (.vimul (w.extractLsb' 27 1) (w.extractLsb' 25 2) (w.extractLsb' 20 5) (w.extractLsb' 15 5) (w.extractLsb' 12 3) (w.extractLsb' 7 5) (w.extractLsb' 0 1))
  else if rowMatches w 0xF000007E 0x3000002E then
    some (.vimad (w.extractLsb' 27 1) (w.extractLsb' 25 2) (w.extractLsb' 20 5) (w.extractLsb' 15 5) (w.extractLsb' 12 3) (w.extractLsb' 7 5) (w.extractLsb' 0 1))
  else if rowMatches w 0xF000007E 0x4000002E then
    some (.vand (w.extractLsb' 27 1) (w.extractLsb' 25 2) (w.extractLsb' 20 5) (w.extractLsb' 15 5) (w.extractLsb' 12 3) (w.extractLsb' 7 5) (w.extractLsb' 0 1))
  else if rowMatches w 0xF000007E 0x5000002E then
    some (.vor (w.extractLsb' 27 1) (w.extractLsb' 25 2) (w.extractLsb' 20 5) (w.extractLsb' 15 5) (w.extractLsb' 12 3) (w.extractLsb' 7 5) (w.extractLsb' 0 1))
  else if rowMatches w 0xF000007E 0x6000002E then
    some (.vxor (w.extractLsb' 27 1) (w.extractLsb' 25 2) (w.extractLsb' 20 5) (w.extractLsb' 15 5) (w.extractLsb' 12 3) (w.extractLsb' 7 5) (w.extractLsb' 0 1))
  else if rowMatches w 0xF000007E 0x7000002E then
    some (.vshl (w.extractLsb' 27 1) (w.extractLsb' 25 2) (w.extractLsb' 20 5) (w.extractLsb' 15 5) (w.extractLsb' 12 3) (w.extractLsb' 7 5) (w.extractLsb' 0 1))
  else if rowMatches w 0xF000007E 0x8000002E then
    some (.vshr (w.extractLsb' 27 1) (w.extractLsb' 25 2) (w.extractLsb' 20 5) (w.extractLsb' 15 5) (w.extractLsb' 12 3) (w.extractLsb' 7 5) (w.extractLsb' 0 1))
  else if rowMatches w 0xF000007E 0x9000002E then
    some (.vsra (w.extractLsb' 27 1) (w.extractLsb' 25 2) (w.extractLsb' 20 5) (w.extractLsb' 15 5) (w.extractLsb' 12 3) (w.extractLsb' 7 5) (w.extractLsb' 0 1))
  else if rowMatches w 0xF000007E 0xA000002E then
    some (.vimin (w.extractLsb' 27 1) (w.extractLsb' 25 2) (w.extractLsb' 20 5) (w.extractLsb' 15 5) (w.extractLsb' 12 3) (w.extractLsb' 7 5) (w.extractLsb' 0 1))
  else if rowMatches w 0xF000007E 0xB000002E then
    some (.vimax (w.extractLsb' 27 1) (w.extractLsb' 25 2) (w.extractLsb' 20 5) (w.extractLsb' 15 5) (w.extractLsb' 12 3) (w.extractLsb' 7 5) (w.extractLsb' 0 1))
  else if rowMatches w 0xF000007E 0xC000002E then
    some (.vicmpEq (w.extractLsb' 27 1) (w.extractLsb' 25 2) (w.extractLsb' 20 5) (w.extractLsb' 15 5) (w.extractLsb' 12 3) (w.extractLsb' 7 5) (w.extractLsb' 0 1))
  else if rowMatches w 0xF000007E 0xD000002E then
    some (.vicmpLt (w.extractLsb' 27 1) (w.extractLsb' 25 2) (w.extractLsb' 20 5) (w.extractLsb' 15 5) (w.extractLsb' 12 3) (w.extractLsb' 7 5) (w.extractLsb' 0 1))
  else if rowMatches w 0xF000007E 0xE000002E then
    some (.vicmpLe (w.extractLsb' 27 1) (w.extractLsb' 25 2) (w.extractLsb' 20 5) (w.extractLsb' 15 5) (w.extractLsb' 12 3) (w.extractLsb' 7 5) (w.extractLsb' 0 1))
  else none

/-- Rows of major 0x18 (R48). -/
def decodeVmem (w : IWord) : Option Instr :=
  if rowMatches w 0xFE00007E 0x00000030 then
    some (.vld (w.extractLsb' 20 5) (w.extractLsb' 15 5) (w.extractLsb' 12 3) (w.extractLsb' 7 5) (w.extractLsb' 0 1))
  else if rowMatches w 0xFE00007E 0x20000030 then
    some (.vlds (w.extractLsb' 20 5) (w.extractLsb' 15 5) (w.extractLsb' 12 3) (w.extractLsb' 7 5) (w.extractLsb' 0 1))
  else if rowMatches w 0xE000007E 0x40000030 then
    some (.vldg (w.extractLsb' 25 4) (w.extractLsb' 20 5) (w.extractLsb' 15 5) (w.extractLsb' 12 3) (w.extractLsb' 7 5) (w.extractLsb' 0 1))
  else if rowMatches w 0xFC00707E 0x60000030 then
    some (.vldt (w.extractLsb' 20 6) (w.extractLsb' 15 5) (w.extractLsb' 7 5) (w.extractLsb' 0 1))
  else if rowMatches w 0xFE00007E 0x80000030 then
    some (.vst (w.extractLsb' 20 5) (w.extractLsb' 15 5) (w.extractLsb' 12 3) (w.extractLsb' 7 5) (w.extractLsb' 0 1))
  else if rowMatches w 0xFE00007E 0xA0000030 then
    some (.vsts (w.extractLsb' 20 5) (w.extractLsb' 15 5) (w.extractLsb' 12 3) (w.extractLsb' 7 5) (w.extractLsb' 0 1))
  else if rowMatches w 0xE000007E 0xC0000030 then
    some (.vstg (w.extractLsb' 25 4) (w.extractLsb' 20 5) (w.extractLsb' 15 5) (w.extractLsb' 12 3) (w.extractLsb' 7 5) (w.extractLsb' 0 1))
  else if rowMatches w 0xFC00707E 0xE0000030 then
    some (.vstt (w.extractLsb' 20 6) (w.extractLsb' 15 5) (w.extractLsb' 7 5) (w.extractLsb' 0 1))
  else none

/-- Rows of major 0x19 (R48). -/
def decodeVred (w : IWord) : Option Instr :=
  if rowMatches w 0xF9F0007E 0x00000032 then
    some (.vredsum (w.extractLsb' 25 2) (w.extractLsb' 15 5) (w.extractLsb' 12 3) (w.extractLsb' 7 5) (w.extractLsb' 0 1))
  else if rowMatches w 0xF9F0007E 0x08000032 then
    some (.vredmax (w.extractLsb' 25 2) (w.extractLsb' 15 5) (w.extractLsb' 12 3) (w.extractLsb' 7 5) (w.extractLsb' 0 1))
  else if rowMatches w 0xF9F0007E 0x10000032 then
    some (.vredmin (w.extractLsb' 25 2) (w.extractLsb' 15 5) (w.extractLsb' 12 3) (w.extractLsb' 7 5) (w.extractLsb' 0 1))
  else if rowMatches w 0xF800007E 0x20000032 then
    some (.vperm (w.extractLsb' 25 2) (w.extractLsb' 20 5) (w.extractLsb' 15 5) (w.extractLsb' 12 3) (w.extractLsb' 7 5) (w.extractLsb' 0 1))
  else if rowMatches w 0xF800007E 0x28000032 then
    some (.vrot (w.extractLsb' 25 2) (w.extractLsb' 20 5) (w.extractLsb' 15 5) (w.extractLsb' 12 3) (w.extractLsb' 7 5) (w.extractLsb' 0 1))
  else if rowMatches w 0xF9F0007E 0x30000032 then
    some (.vbcast (w.extractLsb' 25 2) (w.extractLsb' 15 5) (w.extractLsb' 12 3) (w.extractLsb' 7 5) (w.extractLsb' 0 1))
  else if rowMatches w 0xF800707E 0x38000032 then
    some (.vext (w.extractLsb' 25 2) (w.extractLsb' 20 5) (w.extractLsb' 15 5) (w.extractLsb' 7 5) (w.extractLsb' 0 1))
  else if rowMatches w 0xF800707E 0x40000032 then
    some (.vins (w.extractLsb' 25 2) (w.extractLsb' 20 5) (w.extractLsb' 15 5) (w.extractLsb' 7 5) (w.extractLsb' 0 1))
  else if rowMatches w 0xF9F0007E 0x48000032 then
    some (.vmov (w.extractLsb' 25 2) (w.extractLsb' 15 5) (w.extractLsb' 12 3) (w.extractLsb' 7 5) (w.extractLsb' 0 1))
  else if rowMatches w 0xFE00707E 0x60000032 then
    some (.mand (w.extractLsb' 20 5) (w.extractLsb' 15 5) (w.extractLsb' 7 5) (w.extractLsb' 0 1))
  else if rowMatches w 0xFE00707E 0x68000032 then
    some (.mor (w.extractLsb' 20 5) (w.extractLsb' 15 5) (w.extractLsb' 7 5) (w.extractLsb' 0 1))
  else if rowMatches w 0xFFF0707E 0x70000032 then
    some (.mnot (w.extractLsb' 15 5) (w.extractLsb' 7 5) (w.extractLsb' 0 1))
  else if rowMatches w 0xFFF0707E 0x78000032 then
    some (.mpop (w.extractLsb' 15 5) (w.extractLsb' 7 5) (w.extractLsb' 0 1))
  else none

/-- Rows of major 0x1A (R48). -/
def decodeVcvt (w : IWord) : Option Instr :=
  if rowMatches w 0xE000007E 0x00000034 then
    some (.vcvt (w.extractLsb' 25 4) (w.extractLsb' 24 1) (w.extractLsb' 20 4) (w.extractLsb' 15 5) (w.extractLsb' 12 3) (w.extractLsb' 7 5) (w.extractLsb' 0 1))
  else if rowMatches w 0xE1F0707E 0x20000034 then
    some (.vpack (w.extractLsb' 25 4) (w.extractLsb' 15 5) (w.extractLsb' 7 5) (w.extractLsb' 0 1))
  else if rowMatches w 0xE1F0707E 0x40000034 then
    some (.vunpack (w.extractLsb' 25 4) (w.extractLsb' 15 5) (w.extractLsb' 7 5) (w.extractLsb' 0 1))
  else if rowMatches w 0xFA00007E 0x70000034 then
    some (.vqblk (w.extractLsb' 26 1) (w.extractLsb' 20 5) (w.extractLsb' 15 5) (w.extractLsb' 12 3) (w.extractLsb' 7 5) (w.extractLsb' 0 1))
  else if rowMatches w 0xFA00007E 0x90000034 then
    some (.vscl (w.extractLsb' 26 1) (w.extractLsb' 20 5) (w.extractLsb' 15 5) (w.extractLsb' 12 3) (w.extractLsb' 7 5) (w.extractLsb' 0 1))
  else none

/-- Rows of major 0x1B (R48). -/
def decodeMma (w : IWord) : Option Instr :=
  if rowMatches w 0x3C00007E 0x00000036 then
    some (.mma (w.extractLsb' 31 1) (w.extractLsb' 30 1) (w.extractLsb' 20 6) (w.extractLsb' 15 5) (w.extractLsb' 12 3) (w.extractLsb' 7 5) (w.extractLsb' 0 1))
  else if rowMatches w 0x3C00007E 0x04000036 then
    some (.mmaT (w.extractLsb' 31 1) (w.extractLsb' 30 1) (w.extractLsb' 20 6) (w.extractLsb' 15 5) (w.extractLsb' 12 3) (w.extractLsb' 7 5) (w.extractLsb' 0 1))
  else if rowMatches w 0x3C00407E 0x08000036 then
    some (.mmas (w.extractLsb' 31 1) (w.extractLsb' 30 1) (w.extractLsb' 20 6) (w.extractLsb' 15 5) (w.extractLsb' 12 2) (w.extractLsb' 7 5) (w.extractLsb' 0 1))
  else none

/-- Rows of major 0x1C (R48). -/
def decodeMacc (w : IWord) : Option Instr :=
  if rowMatches w 0x3FF0707E 0x00000038 then
    some (.accZero (w.extractLsb' 31 1) (w.extractLsb' 30 1) (w.extractLsb' 15 5) (w.extractLsb' 7 5) (w.extractLsb' 0 1))
  else if rowMatches w 0x7C000FFE 0x04000038 then
    some (.accRd (w.extractLsb' 31 1) (w.extractLsb' 20 6) (w.extractLsb' 15 5) (w.extractLsb' 12 3) (w.extractLsb' 0 1))
  else if rowMatches w 0x7C000FFE 0x08000038 then
    some (.accWr (w.extractLsb' 31 1) (w.extractLsb' 20 6) (w.extractLsb' 15 5) (w.extractLsb' 12 3) (w.extractLsb' 0 1))
  else if rowMatches w 0x7C007FFE 0x0C000038 then
    some (.loftLd (w.extractLsb' 31 1) (w.extractLsb' 20 6) (w.extractLsb' 15 5) (w.extractLsb' 0 1))
  else none

/-- Rows of major 0x1D (R48). -/
def decodeCopy (w : IWord) : Option Instr :=
  if rowMatches w 0x000003FE 0x0000003A then
    some (.copy (w.extractLsb' 28 4) (w.extractLsb' 24 4) (w.extractLsb' 19 5) (w.extractLsb' 15 4) (w.extractLsb' 10 5) (w.extractLsb' 0 1))
  else if rowMatches w 0x000003FE 0x000000BA then
    some (.copyMc (w.extractLsb' 28 4) (w.extractLsb' 24 4) (w.extractLsb' 19 5) (w.extractLsb' 15 4) (w.extractLsb' 10 5) (w.extractLsb' 0 1))
  else if rowMatches w 0x000703FE 0x0000013A then
    some (.copyT (w.extractLsb' 28 4) (w.extractLsb' 24 4) (w.extractLsb' 19 5) (w.extractLsb' 10 6) (w.extractLsb' 0 1))
  else if rowMatches w 0x000803FE 0x0000023A then
    some (.reduce (w.extractLsb' 28 4) (w.extractLsb' 24 4) (w.extractLsb' 22 2) (w.extractLsb' 20 2) (w.extractLsb' 15 4) (w.extractLsb' 10 5) (w.extractLsb' 0 1))
  else none

/-- Rows of major 0x1E (R48). -/
def decodeCaller (w : IWord) : Option Instr :=
  if rowMatches w 0x7FF07FFE 0x0000003C then
    some (.launch (w.extractLsb' 31 1) (w.extractLsb' 15 5) (w.extractLsb' 0 1))
  else if rowMatches w 0x7FF0707E 0x0200003C then
    some (.lwait (w.extractLsb' 31 1) (w.extractLsb' 15 5) (w.extractLsb' 7 5) (w.extractLsb' 0 1))
  else if rowMatches w 0x7E007FFE 0x0400003C then
    some (.cancel (w.extractLsb' 31 1) (w.extractLsb' 20 5) (w.extractLsb' 15 5) (w.extractLsb' 0 1))
  else if rowMatches w 0x7E00707E 0x0600003C then
    some (.cpref (w.extractLsb' 31 1) (w.extractLsb' 20 5) (w.extractLsb' 15 5) (w.extractLsb' 7 5) (w.extractLsb' 0 1))
  else if rowMatches w 0x7E00707E 0x0800003C then
    some (.cdisc (w.extractLsb' 31 1) (w.extractLsb' 20 5) (w.extractLsb' 15 5) (w.extractLsb' 7 5) (w.extractLsb' 0 1))
  else if rowMatches w 0x7FF07FFE 0x0A00003C then
    some (.evsig (w.extractLsb' 31 1) (w.extractLsb' 15 5) (w.extractLsb' 0 1))
  else if rowMatches w 0x7FF0707E 0x0C00003C then
    some (.evwait (w.extractLsb' 31 1) (w.extractLsb' 15 5) (w.extractLsb' 7 5) (w.extractLsb' 0 1))
  else if rowMatches w 0x7FF0707E 0x0E00003C then
    some (.vfq (w.extractLsb' 31 1) (w.extractLsb' 15 5) (w.extractLsb' 7 5) (w.extractLsb' 0 1))
  else if rowMatches w 0x7FF07FFE 0x1000003C then
    some (.vfdone (w.extractLsb' 31 1) (w.extractLsb' 15 5) (w.extractLsb' 0 1))
  else none

/-- Rows of major 0x1F (R48). -/
def decodeSystem (w : IWord) : Option Instr :=
  if rowMatches w 0x000FF07E 0x0000003E then
    some (.get_ (w.extractLsb' 20 12) (w.extractLsb' 7 5) (w.extractLsb' 0 1))
  else if rowMatches w 0x00007FFE 0x0000103E then
    some (.set_ (w.extractLsb' 20 12) (w.extractLsb' 15 5) (w.extractLsb' 0 1))
  else if rowMatches w 0xFF8FF07E 0x0000203E then
    some (.cget (w.extractLsb' 20 3) (w.extractLsb' 7 5) (w.extractLsb' 0 1))
  else if rowMatches w 0xFF807FFE 0x0000303E then
    some (.cset (w.extractLsb' 20 3) (w.extractLsb' 15 5) (w.extractLsb' 0 1))
  else if rowMatches w 0xFFFFFFFE 0x0000403E then
    some (.ecall (w.extractLsb' 0 1))
  else if rowMatches w 0xFFFFFFFE 0x0010403E then
    some (.ebreak (w.extractLsb' 0 1))
  else if rowMatches w 0xFFFFFFFE 0x0020403E then
    some (.eret (w.extractLsb' 0 1))
  else if rowMatches w 0xFFFFFFFE 0x0030403E then
    some (.halt (w.extractLsb' 0 1))
  else if rowMatches w 0xFE007FFE 0x0000503E then
    some (.tlbi (w.extractLsb' 20 5) (w.extractLsb' 15 5) (w.extractLsb' 0 1))
  else if rowMatches w 0xFFF07FFE 0x0200503E then
    some (.kill (w.extractLsb' 15 5) (w.extractLsb' 0 1))
  else if rowMatches w 0xFFF0707E 0x0000603E then
    some (.sget (w.extractLsb' 15 5) (w.extractLsb' 7 5) (w.extractLsb' 0 1))
  else if rowMatches w 0xFE007FFE 0x0200603E then
    some (.sset (w.extractLsb' 20 5) (w.extractLsb' 15 5) (w.extractLsb' 0 1))
  else none

/-- The row of the word by its major opcode (R47). -/
def decodeRow (w : IWord) : Except DecodeError Instr :=
  let row (o : Option Instr) : Except DecodeError Instr :=
    match o with
    | some i => .ok i
    | none => .error .noSuchMinor
  match (w.extractLsb' 1 6).toNat with
  | 1 => row (decodeLd w)
  | 2 => row (decodeLdx w)
  | 3 => row (decodeSt w)
  | 4 => row (decodeStx w)
  | 5 => row (decodeOpi w)
  | 6 => row (decodeOp w)
  | 7 => row (decodeLui w)
  | 8 => row (decodeAuipc w)
  | 9 => row (decodeBranch w)
  | 10 => row (decodeJal w)
  | 11 => row (decodeJalr w)
  | 12 => row (decodeFop w)
  | 13 => row (decodeAmo w)
  | 14 => row (decodeFe w)
  | 15 => row (decodeFence w)
  | 16 => row (decodeTile w)
  | 17 => row (decodeTravel w)
  | 18 => row (decodeSym w)
  | 19 => row (decodeTask w)
  | 20 => row (decodeRing w)
  | 21 => row (decodeBar w)
  | 22 => row (decodeVop w)
  | 23 => row (decodeViop w)
  | 24 => row (decodeVmem w)
  | 25 => row (decodeVred w)
  | 26 => row (decodeVcvt w)
  | 27 => row (decodeMma w)
  | 28 => row (decodeMacc w)
  | 29 => row (decodeCopy w)
  | 30 => row (decodeCaller w)
  | 31 => row (decodeSystem w)
  | _ => .error .illegalMajor

/-- Decode of a word: its row, then the field checks (R49). -/
def decode (w : IWord) : Except DecodeError Instr :=
  match decodeRow w with
  | .ok i => if i.wf then .ok i else .error .illegalField
  | .error e => .error e

/-- The little-endian word of four bytes (R2, R41). -/
def wordOfBytes (b0 b1 b2 b3 : Byte) : IWord := b3 ++ b2 ++ b1 ++ b0

/-- The four bytes of a word, lowest address first (R2). -/
def bytesOfWord (w : IWord) : List Byte :=
  [w.extractLsb' 0 8, w.extractLsb' 8 8, w.extractLsb' 16 8, w.extractLsb' 24 8]

/-- Decode of the first four bytes, lowest address first (R2, R41): the instruction and the rest. -/
def decodeBytes : List Byte → Except DecodeError (Instr × List Byte)
  | b0 :: b1 :: b2 :: b3 :: rest =>
    match decode (wordOfBytes b0 b1 b2 b3) with
    | .ok i => .ok (i, rest)
    | .error e => .error e
  | _ => .error .tooShort

/-- The instruction the decoder reads from the table's bits of one row (the fixed name the host asks about). -/
def decodeTableWord (nbits w : Nat) : Option Instr :=
  if 32 < nbits then none
  else
    match decodeBytes (bytesOfWord (BitVec.ofNat 32 w)) with
    | .ok (i, _) => some i
    | .error _ => none

/-- The word of an encoded instruction (R42, R48), written from the same encoding tables; none for a step that has no
encoding. -/
def encode : Instr → Option IWord
  | .ldB i n x d k => some (i ++ n ++ x ++ 0#3 ++ d ++ 1#6 ++ k)
  | .ldH i n x d k => some (i ++ n ++ x ++ 1#3 ++ d ++ 1#6 ++ k)
  | .ldW i n x d k => some (i ++ n ++ x ++ 2#3 ++ d ++ 1#6 ++ k)
  | .ldD i n x d k => some (i ++ n ++ x ++ 3#3 ++ d ++ 1#6 ++ k)
  | .ldBu i n x d k => some (i ++ n ++ x ++ 4#3 ++ d ++ 1#6 ++ k)
  | .ldHu i n x d k => some (i ++ n ++ x ++ 5#3 ++ d ++ 1#6 ++ k)
  | .ldWu i n x d k => some (i ++ n ++ x ++ 6#3 ++ d ++ 1#6 ++ k)
  | .ldBMx o p n x d k => some (o ++ p ++ 0#2 ++ n ++ x ++ 0#3 ++ d ++ 2#6 ++ k)
  | .ldHMx o p n x d k => some (o ++ p ++ 0#2 ++ n ++ x ++ 1#3 ++ d ++ 2#6 ++ k)
  | .ldWMx o p n x d k => some (o ++ p ++ 0#2 ++ n ++ x ++ 2#3 ++ d ++ 2#6 ++ k)
  | .ldDMx o p n x d k => some (o ++ p ++ 0#2 ++ n ++ x ++ 3#3 ++ d ++ 2#6 ++ k)
  | .ldBuMx o p n x d k => some (o ++ p ++ 0#2 ++ n ++ x ++ 4#3 ++ d ++ 2#6 ++ k)
  | .ldHuMx o p n x d k => some (o ++ p ++ 0#2 ++ n ++ x ++ 5#3 ++ d ++ 2#6 ++ k)
  | .ldWuMx o p n x d k => some (o ++ p ++ 0#2 ++ n ++ x ++ 6#3 ++ d ++ 2#6 ++ k)
  | .stB i n x s k => some (i ++ n ++ x ++ 0#3 ++ s ++ 3#6 ++ k)
  | .stH i n x s k => some (i ++ n ++ x ++ 1#3 ++ s ++ 3#6 ++ k)
  | .stW i n x s k => some (i ++ n ++ x ++ 2#3 ++ s ++ 3#6 ++ k)
  | .stD i n x s k => some (i ++ n ++ x ++ 3#3 ++ s ++ 3#6 ++ k)
  | .stBMx o p n x s k => some (o ++ p ++ 0#2 ++ n ++ x ++ 0#3 ++ s ++ 4#6 ++ k)
  | .stHMx o p n x s k => some (o ++ p ++ 0#2 ++ n ++ x ++ 1#3 ++ s ++ 4#6 ++ k)
  | .stWMx o p n x s k => some (o ++ p ++ 0#2 ++ n ++ x ++ 2#3 ++ s ++ 4#6 ++ k)
  | .stDMx o p n x s k => some (o ++ p ++ 0#2 ++ n ++ x ++ 3#3 ++ s ++ 4#6 ++ k)
  | .amoAdd o n x z d k => some (o ++ 0#4 ++ n ++ x ++ 1#2 ++ z ++ d ++ 13#6 ++ k)
  | .amoSwap o n x z d k => some (o ++ 1#4 ++ n ++ x ++ 1#2 ++ z ++ d ++ 13#6 ++ k)
  | .amoAnd o n x z d k => some (o ++ 2#4 ++ n ++ x ++ 1#2 ++ z ++ d ++ 13#6 ++ k)
  | .amoOr o n x z d k => some (o ++ 3#4 ++ n ++ x ++ 1#2 ++ z ++ d ++ 13#6 ++ k)
  | .amoXor o n x z d k => some (o ++ 4#4 ++ n ++ x ++ 1#2 ++ z ++ d ++ 13#6 ++ k)
  | .amoMin o n x z d k => some (o ++ 5#4 ++ n ++ x ++ 1#2 ++ z ++ d ++ 13#6 ++ k)
  | .amoMax o n x z d k => some (o ++ 6#4 ++ n ++ x ++ 1#2 ++ z ++ d ++ 13#6 ++ k)
  | .amoMinu o n x z d k => some (o ++ 7#4 ++ n ++ x ++ 1#2 ++ z ++ d ++ 13#6 ++ k)
  | .amoMaxu o n x z d k => some (o ++ 8#4 ++ n ++ x ++ 1#2 ++ z ++ d ++ 13#6 ++ k)
  | .amoFaddS o n x d k => some (o ++ 9#4 ++ n ++ x ++ 2#3 ++ d ++ 13#6 ++ k)
  | .amoCas o n x z d k => some (o ++ 10#4 ++ n ++ x ++ 1#2 ++ z ++ d ++ 13#6 ++ k)
  | .take o n x d k => some (o ++ 0#4 ++ n ++ x ++ 3#3 ++ d ++ 14#6 ++ k)
  | .peek o n x d k => some (o ++ 1#4 ++ n ++ x ++ 3#3 ++ d ++ 14#6 ++ k)
  | .give o n x s k => some (o ++ 2#4 ++ n ++ x ++ 3#3 ++ s ++ 14#6 ++ k)
  | .fill o n x s k => some (o ++ 3#4 ++ n ++ x ++ 3#3 ++ s ++ 14#6 ++ k)
  | .femark o n x k => some (o ++ 4#4 ++ n ++ x ++ 6158#14 ++ k)
  | .feclear o n x k => some (o ++ 5#4 ++ n ++ x ++ 6158#14 ++ k)
  | .fequery o n x d k => some (o ++ 6#4 ++ n ++ x ++ 3#3 ++ d ++ 14#6 ++ k)
  | .watchEq o n x v k => some (o ++ 8#4 ++ n ++ x ++ 3#3 ++ v ++ 14#6 ++ k)
  | .watchNe o n x v k => some (o ++ 9#4 ++ n ++ x ++ 3#3 ++ v ++ 14#6 ++ k)
  | .watchLt o n x v k => some (o ++ 10#4 ++ n ++ x ++ 3#3 ++ v ++ 14#6 ++ k)
  | .watchGe o n x v k => some (o ++ 11#4 ++ n ++ x ++ 3#3 ++ v ++ 14#6 ++ k)
  | .watchLtu o n x v k => some (o ++ 12#4 ++ n ++ x ++ 3#3 ++ v ++ 14#6 ++ k)
  | .watchGeu o n x v k => some (o ++ 13#4 ++ n ++ x ++ 3#3 ++ v ++ 14#6 ++ k)
  | .fenceAcq s k => some (0#7 ++ s ++ 15#19 ++ k)
  | .fenceRel s k => some (0#7 ++ s ++ 2063#19 ++ k)
  | .fenceFull s k => some (0#7 ++ s ++ 4111#19 ++ k)
  | .fenceEng s k => some (0#7 ++ s ++ 6159#19 ++ k)
  | .discard n a b k => some (0#7 ++ n ++ a ++ 4#3 ++ b ++ 15#6 ++ k)
  | .prefetch n a b k => some (0#7 ++ n ++ a ++ 5#3 ++ b ++ 15#6 ++ k)
  | .flush n a b k => some (0#7 ++ n ++ a ++ 6#3 ++ b ++ 15#6 ++ k)
  | .invl1 k => some (14351#31 ++ k)
  | .tdef l m t a b k => some (l ++ m ++ 0#4 ++ t ++ a ++ 0#3 ++ b ++ 16#6 ++ k)
  | .texp l t a k => some (l ++ 1#5 ++ t ++ a ++ 16#14 ++ k)
  | .tstate t d k => some (2#6 ++ t ++ 0#8 ++ d ++ 16#6 ++ k)
  | .twait t k => some (3#6 ++ t ++ 16#19 ++ k)
  | .tready t k => some (4#6 ++ t ++ 16#19 ++ k)
  | .tdrain t k => some (5#6 ++ t ++ 16#19 ++ k)
  | .treset t k => some (6#6 ++ t ++ 16#19 ++ k)
  | .recLd l n a m k => some (l ++ 8#5 ++ n ++ a ++ 0#3 ++ m ++ 16#6 ++ k)
  | .recSt l n a m k => some (l ++ 9#5 ++ n ++ a ++ 0#3 ++ m ++ 16#6 ++ k)
  | .go l a k => some (l ++ 0#11 ++ a ++ 17#14 ++ k)
  | .gohome k => some (16777233#31 ++ k)
  | .goa l n a k => some (l ++ 2#6 ++ n ++ a ++ 17#14 ++ k)
  | .lug l m b a k => some (l ++ m ++ 3#5 ++ b ++ a ++ 17#14 ++ k)
  | .meet l m b a d k => some (l ++ m ++ 4#5 ++ b ++ a ++ 0#3 ++ d ++ 17#6 ++ k)
  | .part_ k => some (83886097#31 ++ k)
  | .pget p d k => some (192#12 ++ p ++ 0#3 ++ d ++ 17#6 ++ k)
  | .pput l a p k => some (l ++ 224#11 ++ a ++ 0#3 ++ p ++ 17#6 ++ k)
  | .pxch p d k => some (256#12 ++ p ++ 0#3 ++ d ++ 17#6 ++ k)
  | .plug d k => some (73728#20 ++ d ++ 17#6 ++ k)
  | .whereIs d k => some (81920#20 ++ d ++ 17#6 ++ k)
  | .symq x d k => some (0#12 ++ x ++ 0#3 ++ d ++ 18#6 ++ k)
  | .symw x k => some (32#12 ++ x ++ 18#14 ++ k)
  | .symtag x d k => some (64#12 ++ x ++ 0#3 ++ d ++ 18#6 ++ k)
  | .spawn o n a k => some (o.extractLsb' 5 7 ++ n ++ a ++ 0#3 ++ o.extractLsb' 0 5 ++ 19#6 ++ k)
  | .jend l n a k => some (l ++ 0#6 ++ n ++ a ++ 2067#14 ++ k)
  | .join l n a d k => some (l ++ 0#6 ++ n ++ a ++ 2#3 ++ d ++ 19#6 ++ k)
  | .yield k => some (6163#31 ++ k)
  | .exit k => some (8211#31 ++ k)
  | .dqn d k => some (5#20 ++ d ++ 19#6 ++ k)
  | .ringInit l n a b k => some (l ++ 0#6 ++ n ++ a ++ 0#3 ++ b ++ 20#6 ++ k)
  | .ringTkt l n a d k => some (l ++ 1#6 ++ n ++ a ++ 0#3 ++ d ++ 20#6 ++ k)
  | .ringPut l n a b k => some (l ++ 2#6 ++ n ++ a ++ 0#3 ++ b ++ 20#6 ++ k)
  | .ringTake l n a d k => some (l ++ 3#6 ++ n ++ a ++ 0#3 ++ d ++ 20#6 ++ k)
  | .ringFree l n a b k => some (l ++ 4#6 ++ n ++ a ++ 0#3 ++ b ++ 20#6 ++ k)
  | .pipePut p a k => some (8#7 ++ p ++ a ++ 20#14 ++ k)
  | .pipeTake p d k => some (9#7 ++ p ++ 0#8 ++ d ++ 20#6 ++ k)
  | .pipeFree l p a k => some (l ++ 10#6 ++ p ++ a ++ 20#14 ++ k)
  | .barInit l n a b k => some (l ++ 0#6 ++ n ++ a ++ 0#3 ++ b ++ 21#6 ++ k)
  | .barArr l n a d k => some (l ++ 1#6 ++ n ++ a ++ 0#3 ++ d ++ 21#6 ++ k)
  | .barWait l n a b k => some (l ++ 2#6 ++ n ++ a ++ 0#3 ++ b ++ 21#6 ++ k)
  | .barCore k => some (67108885#31 ++ k)
  | .barCluster k => some (67110933#31 ++ k)
  | .barTower k => some (67112981#31 ++ k)
  | .barModule k => some (67115029#31 ++ k)
  | .barPod k => some (67117077#31 ++ k)
  | .vadd v y b a m d k => some (0#4 ++ v ++ y ++ b ++ a ++ m ++ d ++ 22#6 ++ k)
  | .vsub v y b a m d k => some (1#4 ++ v ++ y ++ b ++ a ++ m ++ d ++ 22#6 ++ k)
  | .vmul v y b a m d k => some (2#4 ++ v ++ y ++ b ++ a ++ m ++ d ++ 22#6 ++ k)
  | .vfma v y b a m d k => some (3#4 ++ v ++ y ++ b ++ a ++ m ++ d ++ 22#6 ++ k)
  | .vfms v y b a m d k => some (4#4 ++ v ++ y ++ b ++ a ++ m ++ d ++ 22#6 ++ k)
  | .vfnma v y b a m d k => some (5#4 ++ v ++ y ++ b ++ a ++ m ++ d ++ 22#6 ++ k)
  | .vmin v y b a m d k => some (6#4 ++ v ++ y ++ b ++ a ++ m ++ d ++ 22#6 ++ k)
  | .vmax v y b a m d k => some (7#4 ++ v ++ y ++ b ++ a ++ m ++ d ++ 22#6 ++ k)
  | .vcmpEq v y b a m d k => some (8#4 ++ v ++ y ++ b ++ a ++ m ++ d ++ 22#6 ++ k)
  | .vcmpLt v y b a m d k => some (9#4 ++ v ++ y ++ b ++ a ++ m ++ d ++ 22#6 ++ k)
  | .vcmpLe v y b a m d k => some (10#4 ++ v ++ y ++ b ++ a ++ m ++ d ++ 22#6 ++ k)
  | .vsel v y b a m d k => some (11#4 ++ v ++ y ++ b ++ a ++ m ++ d ++ 22#6 ++ k)
  | .vabs y a m d k => some (24#5 ++ y ++ 0#5 ++ a ++ m ++ d ++ 22#6 ++ k)
  | .vneg y a m d k => some (24#5 ++ y ++ 1#5 ++ a ++ m ++ d ++ 22#6 ++ k)
  | .vrcp y a m d k => some (24#5 ++ y ++ 2#5 ++ a ++ m ++ d ++ 22#6 ++ k)
  | .vrsq y a m d k => some (24#5 ++ y ++ 3#5 ++ a ++ m ++ d ++ 22#6 ++ k)
  | .vsqrt y a m d k => some (24#5 ++ y ++ 4#5 ++ a ++ m ++ d ++ 22#6 ++ k)
  | .vexp2 y a m d k => some (24#5 ++ y ++ 5#5 ++ a ++ m ++ d ++ 22#6 ++ k)
  | .vlog2 y a m d k => some (24#5 ++ y ++ 6#5 ++ a ++ m ++ d ++ 22#6 ++ k)
  | .viadd v y b a m d k => some (0#4 ++ v ++ y ++ b ++ a ++ m ++ d ++ 23#6 ++ k)
  | .visub v y b a m d k => some (1#4 ++ v ++ y ++ b ++ a ++ m ++ d ++ 23#6 ++ k)
  | .vimul v y b a m d k => some (2#4 ++ v ++ y ++ b ++ a ++ m ++ d ++ 23#6 ++ k)
  | .vimad v y b a m d k => some (3#4 ++ v ++ y ++ b ++ a ++ m ++ d ++ 23#6 ++ k)
  | .vand v y b a m d k => some (4#4 ++ v ++ y ++ b ++ a ++ m ++ d ++ 23#6 ++ k)
  | .vor v y b a m d k => some (5#4 ++ v ++ y ++ b ++ a ++ m ++ d ++ 23#6 ++ k)
  | .vxor v y b a m d k => some (6#4 ++ v ++ y ++ b ++ a ++ m ++ d ++ 23#6 ++ k)
  | .vshl v y b a m d k => some (7#4 ++ v ++ y ++ b ++ a ++ m ++ d ++ 23#6 ++ k)
  | .vshr v y b a m d k => some (8#4 ++ v ++ y ++ b ++ a ++ m ++ d ++ 23#6 ++ k)
  | .vsra v y b a m d k => some (9#4 ++ v ++ y ++ b ++ a ++ m ++ d ++ 23#6 ++ k)
  | .vimin v y b a m d k => some (10#4 ++ v ++ y ++ b ++ a ++ m ++ d ++ 23#6 ++ k)
  | .vimax v y b a m d k => some (11#4 ++ v ++ y ++ b ++ a ++ m ++ d ++ 23#6 ++ k)
  | .vicmpEq v y b a m d k => some (12#4 ++ v ++ y ++ b ++ a ++ m ++ d ++ 23#6 ++ k)
  | .vicmpLt v y b a m d k => some (13#4 ++ v ++ y ++ b ++ a ++ m ++ d ++ 23#6 ++ k)
  | .vicmpLe v y b a m d k => some (14#4 ++ v ++ y ++ b ++ a ++ m ++ d ++ 23#6 ++ k)
  | .vld n a m d k => some (0#7 ++ n ++ a ++ m ++ d ++ 24#6 ++ k)
  | .vlds n a m d k => some (16#7 ++ n ++ a ++ m ++ d ++ 24#6 ++ k)
  | .vldg i n a m d k => some (2#3 ++ i ++ n ++ a ++ m ++ d ++ 24#6 ++ k)
  | .vldt t a d k => some (24#6 ++ t ++ a ++ 0#3 ++ d ++ 24#6 ++ k)
  | .vst n a m d k => some (64#7 ++ n ++ a ++ m ++ d ++ 24#6 ++ k)
  | .vsts n a m d k => some (80#7 ++ n ++ a ++ m ++ d ++ 24#6 ++ k)
  | .vstg i n a m d k => some (6#3 ++ i ++ n ++ a ++ m ++ d ++ 24#6 ++ k)
  | .vstt t a d k => some (56#6 ++ t ++ a ++ 0#3 ++ d ++ 24#6 ++ k)
  | .vredsum y a m d k => some (0#5 ++ y ++ 0#5 ++ a ++ m ++ d ++ 25#6 ++ k)
  | .vredmax y a m d k => some (1#5 ++ y ++ 0#5 ++ a ++ m ++ d ++ 25#6 ++ k)
  | .vredmin y a m d k => some (2#5 ++ y ++ 0#5 ++ a ++ m ++ d ++ 25#6 ++ k)
  | .vperm y b a m d k => some (4#5 ++ y ++ b ++ a ++ m ++ d ++ 25#6 ++ k)
  | .vrot y b a m d k => some (5#5 ++ y ++ b ++ a ++ m ++ d ++ 25#6 ++ k)
  | .vbcast y a m d k => some (6#5 ++ y ++ 0#5 ++ a ++ m ++ d ++ 25#6 ++ k)
  | .vext y b a d k => some (7#5 ++ y ++ b ++ a ++ 0#3 ++ d ++ 25#6 ++ k)
  | .vins y b a d k => some (8#5 ++ y ++ b ++ a ++ 0#3 ++ d ++ 25#6 ++ k)
  | .vmov y a m d k => some (9#5 ++ y ++ 0#5 ++ a ++ m ++ d ++ 25#6 ++ k)
  | .mand b a d k => some (48#7 ++ b ++ a ++ 0#3 ++ d ++ 25#6 ++ k)
  | .mor b a d k => some (52#7 ++ b ++ a ++ 0#3 ++ d ++ 25#6 ++ k)
  | .mnot a d k => some (1792#12 ++ a ++ 0#3 ++ d ++ 25#6 ++ k)
  | .mpop a d k => some (1920#12 ++ a ++ 0#3 ++ d ++ 25#6 ++ k)
  | .vcvt t s f a m d k => some (0#3 ++ t ++ s ++ f ++ a ++ m ++ d ++ 26#6 ++ k)
  | .vpack f a d k => some (1#3 ++ f ++ 0#5 ++ a ++ 0#3 ++ d ++ 26#6 ++ k)
  | .vunpack f a d k => some (2#3 ++ f ++ 0#5 ++ a ++ 0#3 ++ d ++ 26#6 ++ k)
  | .vqblk f b a m d k => some (14#5 ++ f ++ 0#1 ++ b ++ a ++ m ++ d ++ 26#6 ++ k)
  | .vscl f b a m d k => some (18#5 ++ f ++ 0#1 ++ b ++ a ++ m ++ d ++ 26#6 ++ k)
  | .mma l m t a f b k => some (l ++ m ++ 0#4 ++ t ++ a ++ f ++ b ++ 27#6 ++ k)
  | .mmaT l m t a f b k => some (l ++ m ++ 1#4 ++ t ++ a ++ f ++ b ++ 27#6 ++ k)
  | .mmas l m t a f b k => some (l ++ m ++ 2#4 ++ t ++ a ++ 0#1 ++ f ++ b ++ 27#6 ++ k)
  | .accZero l m a b k => some (l ++ m ++ 0#10 ++ a ++ 0#3 ++ b ++ 28#6 ++ k)
  | .accRd l t a f k => some (l ++ 1#5 ++ t ++ a ++ f ++ 28#11 ++ k)
  | .accWr l t a f k => some (l ++ 2#5 ++ t ++ a ++ f ++ 28#11 ++ k)
  | .loftLd l t a k => some (l ++ 3#5 ++ t ++ a ++ 28#14 ++ k)
  | .copy c b s a d k => some (c ++ b ++ s ++ a ++ d ++ 29#9 ++ k)
  | .copyMc c b s a d k => some (c ++ b ++ s ++ a ++ d ++ 93#9 ++ k)
  | .copyT c b s t k => some (c ++ b ++ s ++ 0#3 ++ t ++ 157#9 ++ k)
  | .reduce c b o f a n k => some (c ++ b ++ o ++ f ++ 0#1 ++ a ++ n ++ 285#9 ++ k)
  | .launch l a k => some (l ++ 0#11 ++ a ++ 30#14 ++ k)
  | .lwait l a d k => some (l ++ 32#11 ++ a ++ 0#3 ++ d ++ 30#6 ++ k)
  | .cancel l b a k => some (l ++ 2#6 ++ b ++ a ++ 30#14 ++ k)
  | .cpref l n a b k => some (l ++ 3#6 ++ n ++ a ++ 0#3 ++ b ++ 30#6 ++ k)
  | .cdisc l n a b k => some (l ++ 4#6 ++ n ++ a ++ 0#3 ++ b ++ 30#6 ++ k)
  | .evsig l a k => some (l ++ 160#11 ++ a ++ 30#14 ++ k)
  | .evwait l a d k => some (l ++ 192#11 ++ a ++ 0#3 ++ d ++ 30#6 ++ k)
  | .vfq l a d k => some (l ++ 224#11 ++ a ++ 0#3 ++ d ++ 30#6 ++ k)
  | .vfdone l a k => some (l ++ 256#11 ++ a ++ 30#14 ++ k)
  | .add_ b a d k => some (0#7 ++ b ++ a ++ 0#3 ++ d ++ 6#6 ++ k)
  | .sll b a d k => some (0#7 ++ b ++ a ++ 1#3 ++ d ++ 6#6 ++ k)
  | .slt b a d k => some (0#7 ++ b ++ a ++ 2#3 ++ d ++ 6#6 ++ k)
  | .sltu b a d k => some (0#7 ++ b ++ a ++ 3#3 ++ d ++ 6#6 ++ k)
  | .xor_ b a d k => some (0#7 ++ b ++ a ++ 4#3 ++ d ++ 6#6 ++ k)
  | .srl b a d k => some (0#7 ++ b ++ a ++ 5#3 ++ d ++ 6#6 ++ k)
  | .or_ b a d k => some (0#7 ++ b ++ a ++ 6#3 ++ d ++ 6#6 ++ k)
  | .and_ b a d k => some (0#7 ++ b ++ a ++ 7#3 ++ d ++ 6#6 ++ k)
  | .sub_ b a d k => some (32#7 ++ b ++ a ++ 0#3 ++ d ++ 6#6 ++ k)
  | .sra b a d k => some (32#7 ++ b ++ a ++ 5#3 ++ d ++ 6#6 ++ k)
  | .mul_ b a d k => some (1#7 ++ b ++ a ++ 0#3 ++ d ++ 6#6 ++ k)
  | .mulh b a d k => some (1#7 ++ b ++ a ++ 1#3 ++ d ++ 6#6 ++ k)
  | .mulhu b a d k => some (1#7 ++ b ++ a ++ 3#3 ++ d ++ 6#6 ++ k)
  | .div_ b a d k => some (1#7 ++ b ++ a ++ 4#3 ++ d ++ 6#6 ++ k)
  | .divu b a d k => some (1#7 ++ b ++ a ++ 5#3 ++ d ++ 6#6 ++ k)
  | .rem_ b a d k => some (1#7 ++ b ++ a ++ 6#3 ++ d ++ 6#6 ++ k)
  | .remu b a d k => some (1#7 ++ b ++ a ++ 7#3 ++ d ++ 6#6 ++ k)
  | .min_ b a d k => some (5#7 ++ b ++ a ++ 4#3 ++ d ++ 6#6 ++ k)
  | .max_ b a d k => some (5#7 ++ b ++ a ++ 5#3 ++ d ++ 6#6 ++ k)
  | .minu b a d k => some (5#7 ++ b ++ a ++ 6#3 ++ d ++ 6#6 ++ k)
  | .maxu b a d k => some (5#7 ++ b ++ a ++ 7#3 ++ d ++ 6#6 ++ k)
  | .clz a d k => some (1536#12 ++ a ++ 1#3 ++ d ++ 6#6 ++ k)
  | .ctz a d k => some (1537#12 ++ a ++ 1#3 ++ d ++ 6#6 ++ k)
  | .popc a d k => some (1538#12 ++ a ++ 1#3 ++ d ++ 6#6 ++ k)
  | .sextB a d k => some (1540#12 ++ a ++ 1#3 ++ d ++ 6#6 ++ k)
  | .sextH a d k => some (1541#12 ++ a ++ 1#3 ++ d ++ 6#6 ++ k)
  | .sextW a d k => some (1542#12 ++ a ++ 1#3 ++ d ++ 6#6 ++ k)
  | .zextB a d k => some (1544#12 ++ a ++ 1#3 ++ d ++ 6#6 ++ k)
  | .zextH a d k => some (1545#12 ++ a ++ 1#3 ++ d ++ 6#6 ++ k)
  | .zextW a d k => some (1546#12 ++ a ++ 1#3 ++ d ++ 6#6 ++ k)
  | .addi i a d k => some (i ++ a ++ 0#3 ++ d ++ 5#6 ++ k)
  | .slti i a d k => some (i ++ a ++ 2#3 ++ d ++ 5#6 ++ k)
  | .sltiu i a d k => some (i ++ a ++ 3#3 ++ d ++ 5#6 ++ k)
  | .xori i a d k => some (i ++ a ++ 4#3 ++ d ++ 5#6 ++ k)
  | .ori i a d k => some (i ++ a ++ 6#3 ++ d ++ 5#6 ++ k)
  | .andi i a d k => some (i ++ a ++ 7#3 ++ d ++ 5#6 ++ k)
  | .slli h a d k => some (0#6 ++ h ++ a ++ 1#3 ++ d ++ 5#6 ++ k)
  | .srli h a d k => some (0#6 ++ h ++ a ++ 5#3 ++ d ++ 5#6 ++ k)
  | .srai h a d k => some (16#6 ++ h ++ a ++ 5#3 ++ d ++ 5#6 ++ k)
  | .lui i d k => some (i ++ d ++ 7#6 ++ k)
  | .auipc i d k => some (i ++ d ++ 8#6 ++ k)
  | .beq o b a k => some (o.extractLsb' 5 7 ++ b ++ a ++ 0#3 ++ o.extractLsb' 0 5 ++ 9#6 ++ k)
  | .bne o b a k => some (o.extractLsb' 5 7 ++ b ++ a ++ 1#3 ++ o.extractLsb' 0 5 ++ 9#6 ++ k)
  | .bfull o a k => some (o.extractLsb' 5 7 ++ 0#5 ++ a ++ 2#3 ++ o.extractLsb' 0 5 ++ 9#6 ++ k)
  | .bempty o a k => some (o.extractLsb' 5 7 ++ 0#5 ++ a ++ 3#3 ++ o.extractLsb' 0 5 ++ 9#6 ++ k)
  | .blt o b a k => some (o.extractLsb' 5 7 ++ b ++ a ++ 4#3 ++ o.extractLsb' 0 5 ++ 9#6 ++ k)
  | .bge o b a k => some (o.extractLsb' 5 7 ++ b ++ a ++ 5#3 ++ o.extractLsb' 0 5 ++ 9#6 ++ k)
  | .bltu o b a k => some (o.extractLsb' 5 7 ++ b ++ a ++ 6#3 ++ o.extractLsb' 0 5 ++ 9#6 ++ k)
  | .bgeu o b a k => some (o.extractLsb' 5 7 ++ b ++ a ++ 7#3 ++ o.extractLsb' 0 5 ++ 9#6 ++ k)
  | .jal i d k => some (i ++ d ++ 10#6 ++ k)
  | .jalr i a d k => some (i ++ a ++ 0#3 ++ d ++ 11#6 ++ k)
  | .fadd f b a r d k => some (0#6 ++ f ++ b ++ a ++ r ++ d ++ 12#6 ++ k)
  | .fsub f b a r d k => some (2#6 ++ f ++ b ++ a ++ r ++ d ++ 12#6 ++ k)
  | .fmul f b a r d k => some (4#6 ++ f ++ b ++ a ++ r ++ d ++ 12#6 ++ k)
  | .fdiv f b a r d k => some (6#6 ++ f ++ b ++ a ++ r ++ d ++ 12#6 ++ k)
  | .fsqrt f a r d k => some (8#6 ++ f ++ 0#5 ++ a ++ r ++ d ++ 12#6 ++ k)
  | .ffma f b a r d k => some (10#6 ++ f ++ b ++ a ++ r ++ d ++ 12#6 ++ k)
  | .fmin f b a d k => some (12#6 ++ f ++ b ++ a ++ 0#3 ++ d ++ 12#6 ++ k)
  | .fmax f b a d k => some (14#6 ++ f ++ b ++ a ++ 0#3 ++ d ++ 12#6 ++ k)
  | .feq f b a d k => some (16#6 ++ f ++ b ++ a ++ 0#3 ++ d ++ 12#6 ++ k)
  | .flt f b a d k => some (18#6 ++ f ++ b ++ a ++ 0#3 ++ d ++ 12#6 ++ k)
  | .fle f b a d k => some (20#6 ++ f ++ b ++ a ++ 0#3 ++ d ++ 12#6 ++ k)
  | .fclass f a d k => some (22#6 ++ f ++ 0#5 ++ a ++ 0#3 ++ d ++ 12#6 ++ k)
  | .fcvtToFloat f s a r d k => some (24#6 ++ f ++ 0#2 ++ s ++ a ++ r ++ d ++ 12#6 ++ k)
  | .fcvtToInt f s a r d k => some (26#6 ++ f ++ 0#2 ++ s ++ a ++ r ++ d ++ 12#6 ++ k)
  | .get_ i d k => some (i ++ 0#8 ++ d ++ 31#6 ++ k)
  | .set_ i a k => some (i ++ a ++ 2079#14 ++ k)
  | .cget c d k => some (0#9 ++ c ++ 2#8 ++ d ++ 31#6 ++ k)
  | .cset c a k => some (0#9 ++ c ++ a ++ 6175#14 ++ k)
  | .ecall k => some (8223#31 ++ k)
  | .ebreak k => some (532511#31 ++ k)
  | .eret k => some (1056799#31 ++ k)
  | .halt k => some (1581087#31 ++ k)
  | .tlbi b a k => some (0#7 ++ b ++ a ++ 10271#14 ++ k)
  | .kill a k => some (32#12 ++ a ++ 10271#14 ++ k)
  | .sget a d k => some (0#12 ++ a ++ 6#3 ++ d ++ 31#6 ++ k)
  | .sset b a k => some (1#7 ++ b ++ a ++ 12319#14 ++ k)
  | .doubleFault _ => none
  | .strandArrival _ => none
  | .guestEviction _ => none
  | .evictionReturn _ => none
  | .forwardedResult _ _ => none
  | .lateResultReturn _ _ _ => none
  | .symbolResolution _ _ _ => none
  | .parkWake _ => none
  | .strandPromotion _ => none
  | .meetingExpiry _ _ => none
  | .meetingPaired _ _ => none
  | .linkFailure _ => none
  | .killNotice _ => none
  | .boundaryStop _ => none
  | .stoppedReturn _ => none
  | .storeAccepted _ => none
  | .storeAck _ _ => none
  | .vaultFillReturn _ _ => none
  | .writeBackDrain _ => none
  | .feWaiterService _ _ => none
  | .watchTimeout _ _ => none
  | .joinListService _ _ => none
  | .barWaitService _ _ => none
  | .translationFill _ _ _ => none
  | .tableWalkComplete _ _ => none
  | .tileSetDown _ _ _ _ => none
  | .tileDeliveryFault _ _ _ _ => none
  | .rangeLockRelease _ _ => none
  | .vectorEntryAccept _ _ => none
  | .vectorEntryComplete _ _ => none
  | .matrixCommandStart _ => none
  | .matrixCommandComplete _ => none
  | .courierPieceLaunch _ => none
  | .courierPickUp _ => none
  | .courierSetDown _ => none
  | .engineCompletionReport _ => none
  | .combineWindowClose _ _ => none
  | .reductionNodeArrival _ => none
  | .reductionRelaunch _ => none
  | .ringPieceArrival _ => none
  | .ringPieceRelaunch _ => none
  | .dequeTakeRequest _ _ _ => none
  | .dequeIncrementAccepted _ _ => none
  | .dequeAdjustmentAccepted _ _ _ => none
  | .thiefVictimArrival _ => none
  | .thiefFrameArrival _ => none
  | .thiefRetry _ => none
  | .barrierRelease _ => none
  | .blockCompletion _ => none
  | .blockEndReport _ _ => none
  | .gridDone _ => none
  | .dealingRequest _ _ => none
  | .dealingGrant _ _ => none
  | .blockStart _ _ => none
  | .cancelStop _ _ => none
  | .moduleAnswerTimeout _ _ => none
  | .preemptSuspend _ => none
  | .preemptRestore _ => none
  | .strandKill _ _ => none
  | .blockRerun _ => none
  | .noticeArrival _ => none
  | .noticeReoffer _ => none
  | .tlbiAck _ => none
  | .contextRemoval _ => none
  | .contextRemovalStepEnd _ => none
  | .pmQuiesce _ _ => none
  | .pmOpen _ _ => none
  | .pmRelease _ _ => none
  | .pmResume _ _ => none
  | .quarterQuiesced _ _ => none
  | .scRetry _ _ => none
  | .scSkip _ _ => none
  | .scKill _ _ => none
  | .mgMigrate _ _ _ => none
  | .mgCheckpoint _ _ => none
  | .mgCheckpointRemove _ _ => none
  | .mgRestore _ _ => none
  | .migrationStreamDone _ => none
  | .vaultDropGo _ _ => none
  | .vaultGranuleMove _ => none
  | .windowOpen _ _ _ _ => none
  | .windowRevoke _ _ => none
  | .windowClose _ _ => none
  | .windowRevokedAck _ _ => none
  | .keyWrite _ _ _ => none
  | .oldKeyExpiry _ _ => none
  | .podFrameReceive _ _ _ _ => none
  | .podPortTraining _ _ _ => none
  | .hostWrite _ _ _ _ _ => none
  | .hostWriteAck _ => none
  | .hostRead _ _ _ _ _ => none
  | .mailboxCommit _ _ => none
  | .moduleResetRequest _ _ => none
  | .cqHeadWrite _ _ _ => none
  | .completionRecordWrite _ _ => none
  | .functionLevelReset _ _ => none
  | .configRequest _ _ => none
  | .coldReset => none
  | .moduleReset _ => none
  | .pllLockLoss _ => none
  | .sensorSample _ => none
  | .fwUpdateStart _ => none
  | .fwBankMark _ => none
  | .bootFallback _ => none
  | .logEntrySelect _ _ => none
  | .attestationRequest _ _ _ => none
  | .eventWaitTimeout _ _ => none
  | .remoteEvsigArrival _ _ _ => none
  | .replayDelivery _ => none
  | .loadLaunch _ => none
  | .registerWrite _ _ _ _ _ => none
  | .illegalInstruction _ => none
  | .instructionFetchFault _ => none
  | .tokenAccrual _ => none
  | .sliceCacheRequest _ => none

end

end Sys2Proof
end

