-- ==== Sys2Proof/Config.lean ====
section
/-! DEFINITION. What an implementation fixes and the free values: constants without a body, which no proof can evaluate.
Each is named in a row of notes/assumptions. -/

namespace Sys2Proof.Config

open Sys2Proof

/-- Whether the L1 still holds a line it was given, asked for the n-th time: R17 gives the L1 its size and no
organisation or replacement rule (log 5, DESIGN CHOICE). -/
opaque l1Keeps : Nat → Bool

/-- The granule in which a home detects an uncorrectable error in a cycle, if there is one (R187: the machine's physics decides it;
log 62, DESIGN CHOICE). -/
opaque strike : Nat → Option Nat

/-- A delay in cycles that the spec does not state, for the n-th such delay (log 3, DESIGN CHOICE): slice cache operations, walks'
table reads, end reports. -/
opaque freeDelay : Nat → Nat

/-- A word that the spec leaves open, for the n-th such word (log 18, DESIGN CHOICE): sr.tval of a locked luggage range, which has no VA. -/
opaque openWord : Nat → Word

/-- The length in metres of the pod cables (R390: the pod hop depends on it; log 3, DESIGN CHOICE). -/
opaque cableMetres : Nat

/-- The reading of a sensor that the machine's physics gives (R394), for the n-th sample (log 14, DESIGN CHOICE). -/
opaque sensorReading : Nat → Word

/-- AES-256 GMAC tag, first 8 bytes, of the bytes under key and nonce (R349; the standard's function, log 15, PRESUMED). -/
opaque gmacTag : BitVec 256 → BitVec 96 → List Byte → Word

/-- SHA-384 (R395 to R398; the standard's function, log 15, PRESUMED). -/
opaque sha384 : List Byte → BitVec 384

/-- ECDSA P-384 signature under the identity key over a digest, for the n-th signature (R395, R397; log 15, PRESUMED). -/
opaque ecdsaSign : Nat → BitVec 384 → BitVec 768

/-- Whether an ECDSA P-384 signature over a digest verifies under the Orohan release key (R396; log 15, PRESUMED). -/
opaque ecdsaVerifies : BitVec 384 → List Byte → Bool

/-- Whether an ECDSA P-384 signature over a digest verifies under a landlord's configuration key (R398; log 15, PRESUMED). -/
opaque landlordVerifies : BitVec 768 → BitVec 384 → List Byte → Bool

/-- The contents of a byte that only the vendor's format fixes (certificate chain, image header layout: log 15, PRESUMED). -/
opaque vendorByte : Nat → Byte

/-- A byte of a checkpoint image in the tables whose inner layout R371 does not give, for the n-th image (log 17, DESIGN CHOICE). -/
opaque imageByte : Nat → Nat → Byte

/-- Security version and length that a firmware image's header carries: the vendor's format (R396; log 15, PRESUMED). -/
opaque fwHeader : List Byte → Nat × Nat

/-- Whether the flash takes a bank's write, for the n-th write (R396; log 15, PRESUMED). -/
opaque flashTakes : Nat → Bool

/-- Whether a boot of the marked bank succeeds, for the n-th boot (R396; log 15, PRESUMED). -/
opaque bankBoots : Nat → Bool

end Sys2Proof.Config
end

