-- ==== Sys2Proof/Machine/State.lean ====
section
/-! DEFINITION. The state of the pod: plain data, one field for each piece of state the spec names (INVENTORY.md,
'State', lists them with their rules and reset values). Things of which there are many (cores, strands, grids, pieces)
stand in tables sorted by number; what a table does not list has its reset value. -/

namespace Sys2Proof.Machine

open Sys2Proof

/-- A table: entries sorted by strictly rising key. -/
abbrev Tbl (α : Type) := List (Nat × α)

/-! ### Registers and strands -/

/-- What a symbolic register holds over its symbol (R108 to R110, R112). -/
inductive SymExpr where
  /-- the awaited value itself: the tagged register -/
  | tagged
  /-- p·σ + q -/
  | affine (p q : Word)
  /-- the result of FP32 step i -/
  | step (i : Nat)
  deriving DecidableEq, Repr

/-- The state of a register (R26). -/
inductive RegState where
  | full
  /-- empty by `.l`, no result awaited -/
  | empty
  /-- awaits the tagged result, no symbol made -/
  | await (tag : Nat)
  /-- over the symbol-table entry e of its scalar core -/
  | sym (e : Nat) (x : SymExpr)
  deriving DecidableEq, Repr

/-- The operations that make an FP32 step (R112). -/
inductive FoldOp where
  | fadd | fmul | ffma
  deriving DecidableEq, Repr

/-- One FP32 step (R112): which operand is symbolic (0 a, 1 b, 2 c), the earlier step it reads (none: σ itself), the
known operands, and the mode and flush setting at issue. -/
structure FpStep where
  op : FoldOp
  pos : Nat
  prev : Option Nat
  a : Word
  b : Word
  c : Word
  mode : BitVec 2
  ftz : Bool
  deriving DecidableEq, Repr

/-- A symbol-table entry (R109). value is set while it resolves, ends is then cycle a + 4 (R113); held is the cycle of the writeback
of the last instruction that folds over it (R114). -/
structure SymEntry where
  sid : Nat
  tag : Nat
  reg : Nat
  pc : Word
  src : Nat
  born : Nat
  steps : List FpStep
  value : Option Word
  ends : Nat
  held : Nat
  deriving DecidableEq, Repr

/-- The record that a late result fills (R168): the core and key of its table, its number, and the 32 bytes as they were read. -/
structure RecFill where
  place : Nat
  key : Nat
  n : Nat
  v : BitVec 256
  deriving DecidableEq, Repr

/-- An outstanding long-latency result (R26, R30): its register, the source that symtag reports (R119), the PC and VA of
its instruction (R360), and whether it is an amo.fadd.s (R150) or fills a record (R168). -/
structure Late where
  tag : Nat
  reg : Nat
  src : Nat
  pc : Word
  va : Word
  fadd : Bool
  record : Option RecFill
  deriving DecidableEq, Repr

/-- The task link (R267). -/
structure TaskLink where
  valid : Bool
  core : Nat
  index : Nat
  seq : Nat
  ctr : Nat
  depth : Nat
  deriving DecidableEq, Repr

/-- The condition a parked strand waits for (R29 and the chapter of the instruction). -/
inductive Park where
  /-- these registers full (R29, R111) -/
  | regs (rs : List Nat)
  /-- the destination's outstanding result returned (R29) -/
  | dest (r : Nat)
  /-- fewer than 8 results outstanding (R30) -/
  | slots
  /-- the park bit's condition (R31, R113) -/
  | kbit
  /-- the departure conditions (R34, R55, R181, R193) -/
  | depart
  /-- retired without performing its access: it departs with the carried PA once R34 holds (R65) -/
  | leave
  /-- a queue port can be popped or pushed (R46) -/
  | port (q n : Nat) (pop : Bool)
  /-- sr.fcsr is settled (R112, R150, R193) -/
  | fcsr
  /-- the strand's vector memory entries have entered the port (R181) -/
  | vmem
  /-- a dispatch entry is free (R191) -/
  | vqueue
  /-- no queue entry writes the mask or index vector named (R229) -/
  | vnames (mask : Nat) (vi : Option Nat)
  /-- a matrix queue entry is free (R194) -/
  | mqueue
  /-- a copy queue place is free (R253) -/
  | copyq
  /-- a q8 place is free (R253) -/
  | q8
  /-- the vault of a core serves accesses again (R352) -/
  | vaultBusy (core : Nat)
  /-- n range-lock entries are free (R166) -/
  | locks (n : Nat)
  /-- tile t is ready (R164) -/
  | tileReady (t : Nat)
  /-- tile t is no longer empty (R259) -/
  | tileFilled (t : Nat)
  /-- twait's condition, at which it retires (R163) -/
  | twait (t : Nat) (k : BitVec 1)
  /-- a translation is installed or its walk faults (R135) -/
  | translation (walk : Nat)
  /-- record n is loaded (R168) -/
  | record (n : Nat)
  /-- a full/empty wait entry is free (R153) -/
  | feList
  /-- the counts and results that a release waits for before its access (R147) -/
  | release
  /-- inside a fence, until its counts and results (R158): kind 0 acq, 1 rel, 2 full, 3 eng; scope as encoded -/
  | fence (kind scope : Nat) (k : BitVec 1)
  /-- off its native core, until the report that a fence's counts are zero comes, in a cycle (R158) -/
  | report (kind : Nat) (k : BitVec 1) (at_ : Nat)
  /-- the same, of a release before its access -/
  | relReport (at_ : Nat)
  /-- inside symw, until register r is neither symbolic nor awaiting (R120) -/
  | symw (r : Nat) (k : BitVec 1)
  /-- each of these slots of the scalar core has issued (R276) -/
  | yield (slots : List Nat)
  /-- the wait of an acquire, after which the L1 is invalidated; st: a store, whose acceptance counts too (R147, R158) -/
  | acq (st : Bool) (k : BitVec 1)
  /-- inside meet, watch, join, a level barrier, bar.wait, evwait: served by their own events -/
  | meet
  | watch
  | join
  | barLevel
  | barWait
  | evwait
  /-- inside exit, until nothing of the strand is outstanding (R277) -/
  | exits
  /-- a join list or named-barrier list entry is free at the place (R275, R304) -/
  | joinList
  | barList
  /-- inside ring.take or pipe.take, until the head slot of the ring at header offset h is ready (R294) -/
  | ringTake (h sd : Nat) (drop : Option Nat) (k : BitVec 1)
  /-- deque place j of the core is no longer taking (R273) -/
  | dequeFree (core j : Nat)
  /-- launch: cdisc done and the quarter running (R314, R340) -/
  | launch
  /-- inside lwait, until the grid of the record at pa has ended (R317): the destination, the register that `.l` empties -/
  | lwait (pa : Nat) (sd : BitVec 5) (drop : Option Nat) (k : BitVec 1)
  /-- a tlbi's acknowledgement (R367) -/
  | tlbi (id : Nat) (k : BitVec 1)
  /-- a kill has been performed (R366): strand form, grid form -/
  | killStrand (sid : Nat) (k : BitVec 1)
  | killGrid (g : Nat) (k : BitVec 1)
  /-- paired mode: room in the load-value queue or else in the comparator, or the partner at a travel (R375, R376, R378) -/
  | pairRoom (queue : Bool)
  | pairValue
  | pairTravel
  | pairEffect
  deriving DecidableEq, Repr

/-- What a strand is doing (R358; halted is R353 point 4). -/
inductive RunState where
  | live | held | stopped | suspended | idle | halted
  deriving DecidableEq, Repr

/-- Where the strand runs (R363). -/
inductive Kind where
  | core | caller | mc
  deriving DecidableEq, Repr

/-- The operands of the meet that a strand is in (R70): destination, key, deadline, registers marked `.l`. -/
structure MeetOp where
  sd : Nat
  key : Word
  timeout : Nat
  drop : List Nat
  k : BitVec 1
  /-- the status with which it will retire, once the table has decided it (R72) -/
  decided : Option Nat
  deriving DecidableEq, Repr

/-- What an access that travels takes with it (R65): the PA, and what its pseudocode had formed before at_home: the VA, the
policy, the order, whether the page lies in a window, the kinds of access, and the core's epoch at the translation (R66). -/
structure Carry where
  pa : Nat
  va : Word
  pol : Nat
  ord : Nat
  win : Bool
  r : Bool
  w : Bool
  epoch : Bool
  deriving DecidableEq, Repr

/-- An entry of a load-value queue (R375): the instruction's PC and the PC after it, its destination with the value, or the
tag of the result that brings it, or the register in which a waiting leader will find it; the registers left empty. -/
structure LvEntry where
  pc : Word
  next : Word
  d : Nat
  value : Option Word
  tag : Nat
  later : Bool
  drop : List Nat
  /-- the floating-point flags of the leading strand after the instruction -/
  flags : BitVec 5
  deriving DecidableEq, Repr

/-- A recorded effect of a leading strand (R376), or the trap that it took there (R379): then vals is the number of values
that the trailing strand takes before it; cause 63 stands for a trap that the Caller has already skipped (R359). -/
structure CmpEntry where
  word : IWord
  pc : Word
  vals : List Word
  trap : Option (BitVec 6 × Word)
  deriving DecidableEq, Repr

/-- Engine operation counts per class (R157). -/
structure EngCounts where
  core : Nat
  cluster : Nat
  tower : Nat
  module : Nat
  pod : Nat
  deriving DecidableEq, Repr

/-- What an instruction that has acted in its memory stage writes at its writeback (R27, R52): registers with their states and
values, a port's word, the PC and what retiring leaves. -/
structure WriteBack where
  regs : List (Nat × RegState × Word)
  port : Option (Nat × Word)
  pc : Word
  park : Option Park
  deriving DecidableEq, Repr

/-- An instruction in flight (R27): the cycle of its issue and the cycle of its next stage, its decode or the one in which it
acts; the port codes of which its decode has reserved an entry to pop or a place to push (R46). -/
structure Flight where
  issued : Nat
  due : Nat
  pops : List Nat
  pushes : List Nat
  /-- the word that it has fetched; none: it fetches as it acts -/
  word : Option (BitVec 32)
  /-- its decode has let it go -/
  decoded : Bool
  /-- registers that the partner of a meeting has written since they were read, with what was read (R27, R73) -/
  seen : List (Nat × Word)
  /-- it has acted, and this is left for its writeback -/
  back : Option WriteBack
  deriving DecidableEq, Repr

/-- A strand's context (R25), with what its native slot keeps for it. The strand's number is 32·native + nslot. -/
structure Strand where
  kind : Kind
  native : Nat
  nslot : Nat
  place : Nat
  slot : Nat
  /-- true while a packet carries it -/
  away : Bool
  run : RunState
  regs : Vector Word 16
  rst : Vector RegState 16
  pc : Word
  status : Word
  fcsr : BitVec 8
  cause : BitVec 6
  epc : Word
  tval : Word
  wtimeout : BitVec 32
  bidx : Word
  sidx : Nat
  owner : Nat
  /-- grid number; none for Caller and MC strands -/
  grid : Option Nat
  /-- block key; 0 for none -/
  block : Nat
  asn : Nat
  root : Nat
  /-- declared luggage: offset and length (R35) -/
  lug : Option (Nat × Nat)
  /-- luggage that the last arrival brought (R73) -/
  brought : Nat
  link : TaskLink
  carried : Option Carry
  park : Option Park
  readyAt : Nat
  lastIssue : Nat
  /-- the instruction that it has in flight (R27) -/
  flight : Option Flight
  /-- the window entry, 8·cluster + index, that admitted it where it stands (R346, R347) -/
  letInBy : Option Nat
  promoted : Bool
  arrived : Nat
  late : List Late
  posted : Nat
  gives : Nat
  eng : EngCounts
  vents : Nat
  vmems : Nat
  meetOp : Option MeetOp
  /-- the status of the last sset to each module (R365) -/
  last : Tbl (BitVec 2)
  /-- a fault that a table walk for this strand ended in (R134, R135) -/
  walkFault : Option (BitVec 6 × Word)
  /-- paired mode: the partner's number; queues are kept at the leading strand (R375, R376) -/
  partner : Option Nat
  lvq : List LvEntry
  cmp : List CmpEntry
  /-- the first handler fetch is due (R356) -/
  inHandler : Bool
  /-- the report that its release's counts are zero has come, off its native core (R158) -/
  released : Bool
  deriving DecidableEq, Repr

/-! ### Scalar cores -/

/-- A common register (R104). -/
structure CReg where
  val : Word
  tag : Option Nat
  deriving DecidableEq, Repr

/-- A cset on its way to commit (R105). -/
structure CPend where
  at_ : Nat
  n : Nat
  val : Word
  tag : Option Nat
  deriving DecidableEq, Repr

/-- The vector file (R190, R226). -/
structure VFile where
  v : Vector (BitVec 4096) 32
  poison : Vector (BitVec 16) 32
  m : Vector (BitVec 256) 8
  mpoison : BitVec 8
  tag : Option Nat
  deriving DecidableEq, Repr

/-- A checked element of a vector memory operation (R230): its number, PA (none reads zero or is not written), policy, and
the scale offset of a decode window as it stood in the memory stage. -/
structure VElem where
  j : Nat
  pa : Option Nat
  pol : Nat
  sc : Nat
  deriving DecidableEq, Repr

/-- A dispatch-queue entry (R191): the cycle it issued in, the instruction with its captured scalars, mode and flush
setting, the checked elements of a memory operation with their width, and the tag of its scalar result. -/
structure VEntry where
  id : Nat
  sid : Nat
  at_ : Nat
  instr : Instr
  a : Word
  b : Word
  mode : BitVec 2
  ftz : Bool
  elems : List VElem
  width : Nat
  tag : Nat
  deriving DecidableEq, Repr

/-- A matrix command (R194): the cycle it issued in, captured operands, tile base, length and faulted flag, scale base, locks. -/
structure MCmd where
  id : Nat
  sid : Nat
  at_ : Nat
  grid : Nat
  instr : Instr
  sa : Word
  sb : Word
  base : Nat
  len : Nat
  faulted : Bool
  sbase : Nat
  pc : Word
  deriving DecidableEq, Repr

/-- A scalar core (R17). -/
structure SCore where
  c : Vector CReg 8
  cpend : List CPend
  vf : VFile
  dq : List VEntry
  mq : List MCmd
  /-- q8 and q10 tokens with the grid they came from, and reserved places -/
  q8 : List (Word × Nat)
  q8res : Nat
  q10 : List (Word × Nat)
  q10res : Nat
  q11 : List Word
  syms : Tbl SymEntry
  lastSlot : Nat
  issuedAt : Option Nat
  deriving DecidableEq, Repr

/-! ### Cores -/

/-- An L1 line (R177). -/
structure L1Line where
  line : Nat
  data : BitVec 1024
  deriving DecidableEq, Repr

/-- A cached translation (R135): address-space number, page VA, page size in bits, the entry. -/
structure TlbEntry where
  asn : Nat
  page : Nat
  bits : Nat
  pte : Word
  deriving DecidableEq, Repr

/-- The states of a tile (R163). -/
inductive TileState where
  | empty | filling | ready | draining
  deriving DecidableEq, Repr

/-- A tile-table entry (R162); ring is the header offset and slot it is bound to (R289). -/
structure Tile where
  defined : Bool
  base : Nat
  len : Nat
  grid : Nat
  st : TileState
  faulted : Bool
  expected : Nat
  arrived : Nat
  ring : Option (Nat × Nat)
  /-- the ticket its ring slot is bound to (R293) -/
  ticket : Nat
  deriving DecidableEq, Repr

/-- A range lock (R166): SRAM-space offset and length, the operation that holds it. -/
structure RLock where
  id : Nat
  op : Nat
  /-- 0 the source, 1 the destination; where the range stands in the operation's -/
  part : Nat
  at_ : Nat
  base : Nat
  len : Nat
  deriving DecidableEq, Repr

/-- What waits on a full/empty word (R153). -/
inductive FEKind where
  | take | peek | give
  deriving DecidableEq, Repr

/-- A full/empty wait entry (R153). -/
structure FEWait where
  sid : Nat
  kind : FEKind
  word : Nat
  tag : Nat
  value : Word
  deriving DecidableEq, Repr

/-- The states of a meeting-table entry (R71); a free entry is not listed. -/
inductive MeetState where
  | waiting | lost | pairing | met | closing
  deriving DecidableEq, Repr

/-- A meeting-table entry (R71). group is the grid number, or 2^40 + owner for a Caller party. -/
structure MeetEntry where
  id : Nat
  group : Nat
  key : Word
  st : MeetState
  a : Option Nat
  b : Option Nat
  deadline : Option Nat
  deriving DecidableEq, Repr

/-- A meeting read that waits for a partner register (R73, R75). -/
structure MeetRead where
  reader : Nat
  tag : Nat
  owner : Nat
  reg : Nat
  deriving DecidableEq, Repr

/-- A join-list or named-barrier entry (R275, R304): want is the generation bar.wait compares with; seen is the word as a
write left it, still to be evaluated; drop and k are the instruction's `.l` register and park bit. -/
structure WordWait where
  sid : Nat
  word : Nat
  want : Nat
  sd : Nat
  drop : List Nat
  k : BitVec 1
  seen : Option Word
  deriving DecidableEq, Repr

/-- The states of a deque place that is not free (R272). -/
inductive DqState where
  | held | taking | releasing | released
  deriving DecidableEq, Repr

/-- A deque place that is not free, in push order (R268, R272). -/
structure DqPlace where
  j : Nat
  st : DqState
  grid : Nat
  block : Nat
  seq : Nat
  taker : Nat
  /-- the block of the slot that takes it -/
  tblock : Nat
  thief : Nat
  deriving DecidableEq, Repr

/-- A bound port q0 to q7 of a block (R284, R297), with the ring's home and header and, at the producer end, the ticket
counter; words are data pushed through the port (R46). -/
structure PortBind where
  block : Nat
  port : Nat
  producer : Bool
  core : Nat
  hdr : Nat
  next : Nat
  words : List Word
  deriving DecidableEq, Repr

/-- A grid's copy of the core's records and window bases (R139, R99). -/
structure GridCtx where
  recs : Tbl (BitVec 256)
  loading : List Nat
  sbase6 : BitVec 22
  sbase7 : BitVec 22
  /-- changes of the two by accesses' issue cycles: the cycle of the change, the window, the value before it (R99) -/
  sbWas : List (Nat × Nat × BitVec 22)
  deriving DecidableEq, Repr

/-- What an accepted vector operation will write (R192). -/
inductive VOut where
  | vec (d : Nat) (data : BitVec 4096) (bad : BitVec 16)
  | mask (d : Nat) (v : BitVec 256) (bad : Bool)
  | scalar (v : Word) (bad : Bool)
  | nothing
  deriving DecidableEq, Repr

/-- A vector operation that the wide unit has accepted (R192), with what it writes and the flags it accrues. Of a memory
operation: the batches of elements that have not entered the home port, the sectors that the slice has still to read, the elements
read, and the first cycle in which the result can be written (R233, R234). -/
structure VRun where
  sc : Nat
  e : VEntry
  out : VOut
  flags : BitVec 5
  todo : Nat
  left : Nat
  got : List (Nat × Nat × Bool)
  at_ : Nat
  deriving DecidableEq, Repr

/-- A core, and the same parts of a Caller or MC where they have them (R17, R308, R393). -/
structure Core where
  sc : Vector SCore 4
  l1 : List L1Line
  /-- L1 refills in flight, by the tag of the load that asked (R178) -/
  refills : List (Nat × L1Line)
  tlb : List TlbEntry
  epoch : Bool
  ctx : Tbl GridCtx
  tiles : Tbl Tile
  locks : List RLock
  /-- the first cycle in which the copy engine may launch another piece (R254) -/
  launchAt : Nat
  fe : List FEWait
  meets : List MeetEntry
  reads : List MeetRead
  joins : List WordWait
  bars : List WordWait
  deque : List DqPlace
  dqCtr : BitVec 16
  /-- pieces that wait at rings of the core, in arrival order (R293) -/
  ringWait : List Nat
  ports : List PortBind
  /-- q9 notices with their block -/
  q9 : List (Word × Nat)
  /-- copy-queue operations in order (R253) -/
  copyq : List Nat
  mserved : Nat
  mrun : Option (Nat × MCmd)
  vserved : Nat
  vbusy : Nat
  vruns : List VRun
  /-- filter entries for strands on their way, with the cause that their kill will carry (R366) -/
  filters : Tbl Nat
  /-- the first cycle in which the network interface can take another arrival (R32) -/
  inFree : Nat
  /-- the core that receives what this one forwards, and the grids that had a block here at the migration (R372) -/
  fw : Option (Nat × List Nat)
  /-- entries of its log that it has been given again since it was restored (R381) -/
  played : Nat
  deriving DecidableEq, Repr

/-! ### Clusters -/

/-- A slice line (R169): line number, owning core, per-byte valid and dirty masks (a sector is valid when its 32 bytes
are), age for replacement, streaming. -/
structure SLine where
  line : Nat
  data : BitVec 1024
  valid : BitVec 128
  dirty : BitVec 128
  used : Nat
  streaming : Bool
  deriving DecidableEq, Repr

/-- A miss entry (R171, R172): merged writes and the number of requests that joined. -/
structure Miss where
  line : Nat
  sectors : BitVec 4
  wmask : BitVec 128
  wdata : BitVec 1024
  joined : Nat
  streaming : Bool
  /-- the partition whose demand caused it (R173) -/
  part : Nat
  /-- the cycle in which the vault has its last sector (R145) -/
  due : Nat
  deriving DecidableEq, Repr

/-- A watch-table entry (R154): cond is f4[2:0]. -/
structure Watch where
  id : Nat
  sid : Nat
  place : Nat
  pa : Nat
  cond : Nat
  want : Word
  sv : Nat
  deadline : Option Nat
  last : Word
  /-- acquire on return; park bit -/
  acq : Bool
  k : BitVec 1
  /-- still waiting for a table entry (R155) -/
  queued : Bool
  deriving DecidableEq, Repr

/-- A walk in a cluster's walkers or their queue (R135). -/
structure Walk where
  id : Nat
  asn : Nat
  root : Nat
  va : Nat
  waiters : List Nat
  started : Bool
  /-- the level whose entry it reads next, 1 to 4, and the table it is in -/
  level : Nat
  table : Nat
  /-- invalidated by a tlbi: installs nothing (R367) -/
  stale : Bool
  deriving DecidableEq, Repr

/-- A token bucket (R173). level in tokens, part in 1/256 tokens. -/
structure Bucket where
  level : Int
  part : Nat
  nolend : Bool
  depth : Nat
  rate : Nat
  deriving DecidableEq, Repr

/-- A combining-stage entry (R260): the pieces that share one pick-up. -/
structure Combine where
  id : Nat
  owner : Nat
  pa : Nat
  len : Nat
  members : List Nat
  deriving DecidableEq, Repr

/-- A reduction node entry (R265): the first arrival's chunk. -/
structure RNode where
  group : Nat
  rid : Nat
  level : Nat
  index : Nat
  chunk : Nat
  msg : Nat
  deriving DecidableEq, Repr

/-- The accesses that a slice performs when their request starts (R145, R150, R154, R168, R234, R262). -/
inductive VKind where
  | load | record | amo | watch | vector | chunk
  deriving DecidableEq, Repr

/-- Such an access: its strand, the tag of its result (of a watch, its number; of a vector load, its entry; of a chunk, its
operation), the range, whether a load sign-extends; of an atomic the instruction, its operands, and the mode and flush setting; of a
watch the instruction, its comparand, and its order as the mode. -/
structure VAcc where
  kind : VKind
  sid : Nat
  tag : Nat
  pa : Nat
  size : Nat
  pol : Nat
  signed : Bool
  instr : Instr
  a : Word
  b : Word
  mode : BitVec 2
  ftz : Bool
  deriving DecidableEq, Repr

/-- A request at a slice port (R170, R171, R174): its port, the partition charged, its home port, the cycle in which it can
start, the cycles from its start to what follows, the range whose lines it needs, and what it does. -/
structure SliceReq where
  port : Nat
  part : Nat
  home : Nat
  at_ : Nat
  rest : Nat
  pa : Nat
  n : Nat
  pol : Nat
  what : Instr
  acc : Option VAcc
  deriving DecidableEq, Repr

/-- The slice and router of a cluster. -/
structure Slice where
  lines : List SLine
  miss : List Miss
  wb : List SLine
  watches : List Watch
  tlb : List TlbEntry
  walks : List Walk
  buckets : Vector Bucket 16
  rr : Nat
  /-- requests that have not started, in the order in which they come to a port -/
  waits : List SliceReq
  /-- the first cycle in which another request may start: one in each (R170) -/
  turned : Nat
  /-- the cycle up to which the buckets have their tokens (R173) -/
  ticked : Nat
  combine : List Combine
  nodes : List RNode
  clock : Nat
  deriving DecidableEq, Repr

/-! ### Engines and packets -/

/-- The kinds of engine operation (R157). -/
inductive OpKind where
  | copy | copyMc | copyT | reduce | ringPut | pipePut | prefetch | flush | discard | cpref | cdisc
  deriving DecidableEq, Repr

/-- An engine operation (R157, R253 to R261, R292, R326). -/
structure Op where
  kind : OpKind
  sid : Nat
  place : Nat
  sc : Nat
  block : Nat
  grid : Option Nat
  owner : Nat
  asn : Nat
  root : Nat
  pc : Word
  tok : Bool
  cls : Nat
  src : Nat
  dst : Nat
  len : Nat
  /-- offset of the next piece to launch; len when all are launched -/
  next : Nat
  stopped : Bool
  /-- the piece prepared at issue (0 none); of a reduction, chunks without a result -/
  flying : Nat
  status : Nat
  cause : Nat
  off : Nat
  flags : BitVec 5
  /-- copy.t: tile and toff; puts: toff, ring home, header, ticket -/
  tile : Nat
  toff : Nat
  hdr : Nat
  home : Nat
  ticket : Nat
  /-- reduce: id, participants, index, operation, format -/
  rid : Nat
  parties : Nat
  part : Nat
  rop : Nat
  rfmt : Nat
  policy : Nat
  /-- a fault that a walk for a piece ended in: cause and VA (R135) -/
  walkFault : Option (Nat × Nat)
  /-- the lowest failed piece: its offset and cause (R257) -/
  fail : Option (Nat × Nat)
  /-- the offset that its last notice named -/
  told : Option Nat
  /-- reduce: the buffer's runs of PAs, each with its length (R261) -/
  runs : List (Nat × Nat)
  deriving DecidableEq, Repr

/-- A courier's piece (R254, R255), a cache request's piece (R160, R326) or a put's piece (R292). bad lists the offsets of
the poisoned granules carried. -/
structure Piece where
  op : Nat
  off : Nat
  len : Nat
  src : Nat
  dst : Nat
  bytes : List Byte
  bad : List Nat
  epoch : Bool
  origin : Nat
  status : Nat
  cause : Nat
  failOff : Nat
  /-- a put's fault record: no bytes (R292) -/
  record : Bool
  win : Bool
  /-- 0 prepared at issue, 1 to its source, 2 at it, 3 to its destination, 4 at it, 5 waiting at a ring, 6 ended -/
  stage : Nat
  /-- the pieces that share its pick-up (R260) -/
  mates : List Nat
  /-- its request at the source's slice has started (R170) -/
  began : Bool
  /-- policy at the source and at the destination -/
  spol : Nat
  dpol : Nat
  deriving DecidableEq, Repr

/-- A reduction chunk on its way up or down its tree (R262, R264). from_ lists the leaves covered. -/
structure RMsg where
  op : Nat
  /-- the operation as it was issued: a result travels on when it has completed -/
  o : Op
  chunk : Nat
  level : Nat
  index : Nat
  bytes : List Byte
  bad : List Nat
  flags : BitVec 5
  leaves : List Nat
  /-- a result on its way down -/
  down : Bool
  /-- its last leg, to the participant with this operation -/
  to_ : Option Nat
  /-- the core that sent it (R265) -/
  sender : Nat
  deriving DecidableEq, Repr

/-- Why a packet carries a strand. -/
inductive Trip where
  | travel
  /-- its instruction issues again where it arrives -/
  | again
  | meet
  | evicted
  /-- sent home from where it stopped: the destination and PC of cause 0x0A (R67) -/
  | stopped (dest : Nat) (epc : Word)
  deriving DecidableEq, Repr

/-- A strand packet in flight (R39, R62). -/
structure Packet where
  sid : Nat
  src : Nat
  dest : Nat
  pref : Option Nat
  trip : Trip
  cls : Nat
  luggage : List Byte
  bad : List Nat
  epoch : Bool
  win : Bool
  truncated : Bool
  /-- the travel instruction's park bit, whose condition is looked at after arrival (R31) -/
  k : BitVec 1
  /-- the cycle in which the destination's interface takes it (R32) -/
  taken : Option Nat
  deriving DecidableEq, Repr

/-- A pod link that a packet crosses: the sending module and port, the receiving module and port. -/
structure Hop where
  from_ : Nat
  port : Nat
  to_ : Nat
  inPort : Nat
  deriving DecidableEq, Repr

/-- A packet on its way between modules (R349, R389): its owner, its ends (of a hub's, the scalar core, where one is named), its flits,
whether it passes under win, and whether it goes back to a reserved slot; the link that it comes to or is on, with the sequence number,
the epoch bit and the key under which the port sent it; the cycles from the last link to its end, and the event that it is there. -/
structure Frame where
  owner : Nat
  src : Nat
  srcSc : Option Nat
  dest : Nat
  destSc : Option Nat
  bytes : List Byte
  flits : Nat
  win : Bool
  back : Bool
  hop : Hop
  sent : Option (Nat × Bool × BitVec 256)
  rest : Nat
  what : Instr
  deriving DecidableEq, Repr

/-- A thief courier (R280): victims still to try, and the frame it brings home. -/
structure Thief where
  sid : Nat
  /-- its slot's block, which may be suspended meanwhile -/
  block : Nat
  victims : List Nat
  frame : Option (List Byte)
  deriving DecidableEq, Repr

/-! ### Grids and blocks -/

/-- A pipe-table entry of a launch (R312). -/
structure PipeEntry where
  spad : Nat
  size : Nat
  n : Nat
  tb : Nat
  cport : Nat
  ckern : Nat
  pport : Nat
  pkern : Nat
  deriving DecidableEq, Repr

/-- A fault record (R324). -/
structure FaultRec where
  core : Nat
  cause : Nat
  block : Nat
  epc : Word
  tval : Word
  deriving DecidableEq, Repr

/-- A grid (R312 to R325, R373). -/
structure Grid where
  owner : Nat
  asn : Nat
  root : Nat
  caller : Nat
  callerSc : Nat
  stream : Nat
  order : Nat
  recPa : Nat
  entries : List Word
  gdim : Word
  strands : Nat
  paired : Bool
  pclass : Nat
  fpol : Nat
  quarters : Nat
  modules : List Nat
  tvec : Word
  tdeleg : Word
  args : List Word
  rbuf : Nat
  rbufSize : Nat
  cev : Nat
  gang : Nat
  blocks : Nat
  pipes : List PipeEntry
  places : List Nat
  /-- the 64 record images with the kinds of b56 to b63 and the two VA bases, as the root read them (R312) -/
  images : List (BitVec 256)
  kinds : Nat
  lspad : Nat
  lvault : Nat
  state : Nat
  reason : Nat
  faults : Nat
  done : Nat
  ends : Nat
  started : Nat
  cancelled : Bool
  killed : Bool
  trunc : Bool
  killMode : Bool
  /-- undealt intervals [lo, hi) held by each dispatcher node (R318) -/
  held : Tbl (List (Nat × Nat))
  /-- nodes that ask their parent -/
  asking : List Nat
  /-- nodes that the stop has reached (R325) -/
  stopped : List Nat
  /-- by node, the number of the grid's arrival there (R320) -/
  seen : Tbl Nat
  /-- nodes that have accepted the grid (at a module, L1s invalidated, records installed: R321, R313) -/
  accepted : List Nat
  removal : Option Nat
  firstFault : Tbl FaultRec
  causes : Tbl Nat
  startedIv : Tbl (List (Nat × Nat))
  doneBy : Tbl Nat
  faultedBy : Tbl Nat
  /-- poisoned contributions of a reduction id, with the participants that still have to issue (R264) -/
  redNotes : List (Nat × Word × Nat)
  /-- native slots that blocks of the grid have had (R302) -/
  used : List Nat
  deriving DecidableEq, Repr

/-- What a block is doing; out: taken away by a checkpoint-and-remove (R371). -/
inductive BlockState where
  | running | suspended | ended | out
  deriving DecidableEq, Repr

/-- A started block (R19, R319, R322). -/
structure Block where
  grid : Nat
  idx : Nat
  core : Nat
  sids : List Nat
  st : BlockState
  faulted : Bool
  killed : Bool
  reruns : Nat
  startedAt : Nat
  deriving DecidableEq, Repr

/-- A level barrier episode (R302): level 0 core, 1 cluster, 2 tower, 3 module, 4 pod; group is the group's number. -/
structure Episode where
  id : Nat
  grid : Nat
  level : Nat
  group : Nat
  arrived : List Nat
  waiting : List Nat
  /-- members the episode started with -/
  members : List Nat
  /-- slots whose strand has left or ended during it: live again, they join the next (R302) -/
  left : List Nat
  /-- the next episode, of slots that came to life during the present one (R302) -/
  behind : Bool
  deriving DecidableEq, Repr

/-! ### Hub, host side and management -/

/-- A waiting evwait (R327). -/
structure EvWait where
  id : Nat
  sid : Nat
  event : Nat
  sd : Nat
  drop : List Nat
  k : BitVec 1
  deriving DecidableEq, Repr

/-- A VF queue entry (R329): the hub offset at which it was written (R330), eight dwords, and whether vfq has taken it. -/
structure VFEntry where
  vf : Nat
  slot : Nat
  tag : Nat
  at_ : Nat
  words : List Word
  taken : Bool
  deriving DecidableEq, Repr

/-- A link key (R348). -/
structure KeyRec where
  key : BitVec 256
  old : BitVec 256
  oldUntil : Nat
  deriving DecidableEq, Repr

/-- A function's mailbox registers (R384); ent lists the bytes of mb.ent written since the last commit. -/
structure FnRegs where
  ent : Tbl Byte
  estSlot : Nat
  estValid : Bool
  estStatus : Nat
  cqb : Word
  lsize : Nat
  head : Nat
  tail : Nat
  phase : Bool
  irq : Bool
  /-- completion records that wait for ring room: handle, counter, value (R386) -/
  waiting : List (Word × Word)
  deriving DecidableEq, Repr

/-- A host write or read in the mailbox, in arrival order (R185): its function; entry is the VF and the handle of the queue entry
that it writes; read is the function, BAR, offset and length of a read, which carries no bytes. -/
structure HWrite where
  fn : Nat
  pa : Nat
  bytes : List Byte
  home : Nat
  sent : Bool
  /-- the cycle of its arrival at its home -/
  due : Nat
  /-- it stands at its home, its request made (R173) -/
  tok : Bool
  entry : Option (Nat × Word)
  read : Option (Nat × Nat × Nat × Nat)
  deriving DecidableEq, Repr

/-- What the host and the landlord get to see. -/
inductive HostOut where
  | record (m f : Nat) (addr : Word) (d0 d1 : Word)
  | interrupt (m f : Nat)
  | readData (m f off : Nat) (bytes : List Byte) (poisoned : Bool)
  | unsupported (m f off : Nat)
  | error (m f off : Nat)
  | config (m f : Nat) (retry : Bool)
  deriving DecidableEq, Repr

/-- An entry of the signed event log (R395): cycle, kind, cause, owner, source, detail, digest of the entry before. -/
structure LogEntry where
  cycle : Nat
  kind : Nat
  cause : Nat
  owner : Nat
  source : Nat
  detail : BitVec 384
  digest : BitVec 384
  sealSig : BitVec 768
  deriving DecidableEq, Repr

/-- A running migration operation (R371). -/
structure MgOp where
  op : Nat
  src : Nat
  dst : Nat
  /-- 0 suspending, 1 streaming; of a checkpoint that removes, 1 + k in step k of the removal (R373) -/
  stage : Nat
  deriving DecidableEq, Repr

/-- A checkpoint image (R371): the parts whose layout inside the 16 MiB the spec does not fix, kept as they were. Its table goes by
2^32·core + checkpoint number, which the image's header names wherever its bytes stand. -/
structure CoreImage where
  core : Nat
  cycle : Nat
  part : Core
  strands : Tbl Strand
  store : Tbl Strand
  deriving DecidableEq, Repr

/-- What a configuration record sets (R398): registers of one block of R392, or one of the other things; an enrolment record brings the
landlord's key. Limits are those of R403 in °C: the logic and DRAM trips, the logic and DRAM warnings. -/
inductive RecordBody where
  | block (writes : List (Nat × Word))
  | number (n : Nat)
  | rail (mv : Nat)
  | limits (logic dram logicWarn dramWarn : Nat)
  | minVersion (v : Nat)
  | enrol (key : BitVec 768)
  deriving DecidableEq, Repr

/-- A signed record in flash (R398): what it says, the bytes that are signed, the signature. -/
structure FlashRecord where
  body : RecordBody
  bytes : List Byte
  sig : List Byte
  deriving DecidableEq, Repr

/-- What the MC's flash holds beside its log (R396 to R398): images written to the banks A and B, a bank without one having the image that
it left the factory with; the records in flash order; the enrolled key. -/
structure Flash where
  banks : Tbl (List Byte)
  records : List FlashRecord
  landlord : Option (BitVec 768)
  deriving DecidableEq, Repr

/-- What the records that were applied have set outside the blocks (R398), and their bytes. -/
structure Applied where
  number : Option Nat
  rail : Option Nat
  limits : Nat × Nat × Nat × Nat
  minVersion : Nat
  bytes : List Byte
  deriving DecidableEq, Repr

/-- The hub of a module, with its control space (R392), mailbox and MC. ctl holds the plain registers by offset; an
offset it does not list has its reset value. -/
structure Hub where
  cycle0 : Nat
  ctl : Tbl Word
  events : Tbl Nat
  evwaits : List EvWait
  vfq : List VFEntry
  dep : Tbl (BitVec 32)
  heldNotices : Tbl Notice
  keys : Tbl KeyRec
  seqTx : Tbl Nat
  seqRx : Tbl Nat
  linkFails : Tbl Nat
  fns : Tbl FnRegs
  hwq : List HWrite
  launches : Nat
  halted : Bool
  bringup : Nat
  /-- the entries that its ring of 524,288 holds, oldest first, and the number of those before them (R395) -/
  log : List LogEntry
  logFirst : Nat
  logSel : Nat
  flash : Flash
  applied : Applied
  fwRunning : Nat
  fwMarked : Nat
  bootCount : Nat
  mg : Option MgOp
  ckpt : Tbl Nat
  shotDown : Nat
  deriving DecidableEq, Repr

/-- A tlbi in progress (R343, R367): its strand and the cores whose old epoch must drain. -/
structure Tlbi where
  sid : Nat
  cores : List Nat
  flipped : Bool
  /-- quarters covered by form 10: module and mask -/
  quarters : Option (Nat × Nat)
  /-- started by context removal of this grid -/
  grid : Option Nat
  deriving DecidableEq, Repr

/-- A posted vault or hub store on its way to its home point (R144, R147). -/
structure PStore where
  id : Nat
  sid : Nat
  place : Nat
  pa : Nat
  bytes : List Byte
  policy : Nat
  /-- granules that it makes poisoned (R187, R226) -/
  bad : List Nat
  deriving DecidableEq, Repr

/-- What an order of a dispatcher brings to a core (R310, R319, R369): strands that start or start again there with their blocks, and a
gang's ports, tiles and ring headers with the header's bytes. -/
structure Order where
  strands : Tbl Strand
  blocks : Tbl Block
  ports : List PortBind
  tiles : Tbl Tile
  rings : List (Nat × List Byte)
  deriving DecidableEq, Repr

/-- An arrival in a core's log (R380): the cycle since the checkpoint, the event, the place that sent it, and what it carried: the strand
with its packet, the piece with its operation, a dispatcher's order, a host write; for a late result, the register that awaited it; for an
order of a removal, its step; for a barrier's release, the members that it reaches, as in their episode. -/
structure Arrival where
  cycle : Nat
  event : Instr
  src : Nat
  strand : Option Strand
  packet : Option Packet
  piece : Option Piece
  op : Option Op
  order : Option Order
  write : Option HWrite
  reg : Nat
  members : List Nat
  deriving DecidableEq, Repr

/-- The pod. -/
structure State where
  now : Nat
  cur : Nat
  /-- an instruction is at its decode only: it parks, raises, or goes into flight (R27, R51) -/
  dec : Bool
  /-- cycles since the issue of the instruction that acts, of which now is then the cycle (R9, R27); else 0 -/
  lag : Nat
  agenda : List (Nat × Instr)
  fresh : Nat
  oracle : Nat
  mem : List Host.Cell
  poison : List Nat
  empties : List Nat
  /-- the entries of pages that a file left not valid: the PA of the entry, the address space and the page's VA (R284) -/
  absents : List (Nat × Nat × Nat)
  /-- the row last opened in each DRAM bank (R128), by 16·(pseudo-channel of the pod) + bank -/
  rows : Tbl Nat
  /-- the pod's cables (R389): by 64·module + port, the module and port at the far end, numbered the same way; a port without
  an entry leads to the module that its route entries name (log 61) -/
  cables : Tbl Nat
  strands : Tbl Strand
  store : Tbl Strand
  cores : Tbl Core
  slices : Tbl Slice
  hubs : Tbl Hub
  stores : List PStore
  packets : Tbl Packet
  /-- what is between modules, by the number of the packet, piece or chunk, or a number of its own -/
  frames : Tbl Frame
  thieves : Tbl Thief
  ops : Tbl Op
  pieces : Tbl Piece
  rmsgs : Tbl RMsg
  grids : Tbl Grid
  blocks : Tbl Block
  episodes : List Episode
  tlbis : Tbl Tlbi
  images : Tbl CoreImage
  arrivals : Tbl (List Arrival)
  hostOut : List HostOut
  deriving DecidableEq, Repr

/-- Why the machine stops. No rule of the spec stops the machine: every cause is a trap that the machine takes (R353), so
this type has one constructor that no step of an instruction answers with. -/
inductive Fault where
  /-- raised by nothing: kept for a machine without a step (safe) -/
  | noStep
  deriving DecidableEq, Repr

/-- Why a step has no meaning. -/
inductive Refusal where
  /-- raised by an arm of exec whose instruction has no meaning yet (safe: the run ends there) -/
  | notModelled (mnemonic : String)
  deriving DecidableEq, Repr

/-! ### Reset values -/

/-- A scalar core after module reset (R104, R190, R400). lastSlot 7 makes slot 0 the first to issue (log 2, DESIGN CHOICE). -/
def SCore.reset : SCore :=
  { c := Vector.replicate 8 ⟨0, none⟩, cpend := [],
    vf := ⟨Vector.replicate 32 0, Vector.replicate 32 0, Vector.replicate 8 0, 0, none⟩,
    dq := [], mq := [], q8 := [], q8res := 0, q10 := [], q10res := 0, q11 := [], syms := [], lastSlot := 7,
    issuedAt := none }

/-- A core after module reset (R151, R162, R268, R400). -/
def Core.reset : Core :=
  { sc := Vector.replicate 4 SCore.reset, l1 := [], refills := [], tlb := [], epoch := false, ctx := [], tiles := [], locks := [], launchAt := 0,
    fe := [], meets := [], reads := [], joins := [], bars := [], deque := [], dqCtr := 0, ringWait := [], ports := [],
    q9 := [], copyq := [], mserved := 3, mrun := none, vserved := 3, vbusy := 0, vruns := [], filters := [], inFree := 0, fw := none, played := 0 }

/-- A token bucket after reset (R173). -/
def Bucket.reset : Bucket := ⟨0x100, 0, false, 0x100, 0x100⟩

/-- A slice after module reset (R169, R173, R400). -/
def Slice.reset : Slice :=
  { lines := [], miss := [], wb := [], watches := [], tlb := [], walks := [],
    buckets := Vector.replicate 16 Bucket.reset, rr := 0, waits := [], turned := 0, ticked := 0, combine := [], nodes := [], clock := 0 }

/-- A function's mailbox registers after reset (R384). -/
def FnRegs.reset : FnRegs :=
  { ent := [], estSlot := 0, estValid := false, estStatus := 0, cqb := 0, lsize := 0, head := 0, tail := 0,
    phase := false, irq := false, waiting := [] }

/-- Nothing set by records: the limits of R403, no minimum version. -/
def Applied.reset : Applied := ⟨none, none, (105, 95, 95, 85), 0, []⟩

/-- A hub after reset, its bring-up ended (R384 to R400). -/
def Hub.reset : Hub :=
  { cycle0 := 0, ctl := [], events := [], evwaits := [], vfq := [], dep := [], heldNotices := [], keys := [],
    seqTx := [], seqRx := [], linkFails := [], fns := [], hwq := [], launches := 0,
    halted := false, bringup := 6, log := [], logFirst := 0, logSel := 0, flash := ⟨[], [], none⟩, applied := Applied.reset, fwRunning := 0, fwMarked := 0, bootCount := 1, mg := none,
    ckpt := [], shotDown := 0 }

/-- A task link as dispatch sets it (R267). -/
def TaskLink.reset : TaskLink := ⟨false, 0, 0, 0, 0, 0⟩

/-- A strand's context before dispatch fills it: registers zero and full, sr.status with autotravel (R100, R310). -/
def Strand.reset : Strand :=
  { kind := .core, native := 0, nslot := 0, place := 0, slot := 0, away := false, run := .idle,
    regs := Vector.replicate 16 0, rst := Vector.replicate 16 .full, pc := 0, status := 1, fcsr := 0, cause := 0,
    epc := 0, tval := 0, wtimeout := 0, bidx := 0, sidx := 0, owner := 0, grid := none, block := 0, asn := 0, root := 0,
    lug := none, brought := 0, link := TaskLink.reset, carried := none, park := none, readyAt := 0, lastIssue := 0, flight := none, letInBy := none,
    promoted := false, arrived := 0, late := [], posted := 0, gives := 0, eng := ⟨0, 0, 0, 0, 0⟩, vents := 0,
    vmems := 0, meetOp := none, last := [], walkFault := none, partner := none, lvq := [], cmp := [],
    inHandler := false, released := false }

/-- The pod right after reset: bring-up has ended (R400), nothing is loaded, every memory byte is zero and clean, every
word is full, every table is empty. -/
def State.reset : State :=
  { now := 0, cur := 0, dec := false, lag := 0, agenda := [], fresh := 1, oracle := 0, mem := [], poison := [], empties := [], absents := [], rows := [], cables := [], strands := [],
    store := [], cores := [], slices := [], hubs := [], stores := [], packets := [], frames := [], thieves := [], ops := [],
    pieces := [], rmsgs := [], grids := [], blocks := [], episodes := [], tlbis := [], images := [], arrivals := [],
    hostOut := [] }

end Sys2Proof.Machine
end

