-- ==== Sys2Proof/Machine/Ops.lean ====
section
/-! DEFINITION. The named operations over tables, memory, time, places, registers and traps that every meaning uses.
Every function here is total: what a table does not list has its reset value. -/

namespace Sys2Proof.Machine

open Sys2Proof

noncomputable section

/-- The outcome of a step of this machine. -/
abbrev Out := Host.Outcome State Fault Refusal

/-! ### Tables and vectors -/

/-- The entry of key k. -/
def tget {α : Type} : Tbl α → Nat → Option α
  | [], _ => none
  | (j, a) :: t, k => if j = k then some a else tget t k

/-- The table with entry k set; keys keep rising. -/
def tput {α : Type} : Tbl α → Nat → α → Tbl α
  | [], k, a => [(k, a)]
  | (j, b) :: t, k, a => if k < j then (k, a) :: (j, b) :: t else if k = j then (k, a) :: t else (j, b) :: tput t k a

/-- The table without entry k. -/
def tdel {α : Type} (t : Tbl α) (k : Nat) : Tbl α := t.filter (fun e => e.1 != k)

/-- The table with entry k changed, from d when it is not listed. -/
def tmod {α : Type} (t : Tbl α) (k : Nat) (d : α) (f : α → α) : Tbl α := tput t k (f ((tget t k).getD d))

/-- Element i of a fixed row of things. -/
def vget {α : Type} {n : Nat} (v : Vector α n) (i : Nat) (d : α) : α := (v[i]?).getD d

/-- The row with element i set. -/
def vset {α : Type} {n : Nat} (v : Vector α n) (i : Nat) (a : α) : Vector α n := v.setIfInBounds i a

/-- A list with what satisfies p changed by f. -/
def lmod {α : Type} (p : α → Bool) (f : α → α) (l : List α) : List α := l.map (fun a => if p a then f a else a)

/-- Sorted insertion of a number, without repeats. -/
def ins (a : Nat) : List Nat → List Nat
  | [] => [a]
  | b :: t => if a < b then a :: b :: t else if a = b then b :: t else b :: ins a t

/-- Bits [hi:lo] of a natural number. -/
def bits (v hi lo : Nat) : Nat := v / 2 ^ lo % 2 ^ (hi + 1 - lo)

/-- Bit i of a natural number. -/
def bit (v i : Nat) : Bool := v / 2 ^ i % 2 = 1

/-- 1 or 0. -/
def b2n (b : Bool) : Nat := if b then 1 else 0

/-- Ceiling of a quotient. -/
def cdiv (a b : Nat) : Nat := (a + b - 1) / b

/-- x[n-1:0] sign-extended (R52). -/
def sextN (x n : Nat) : Word := if bit x (n - 1) then BitVec.ofInt 64 ((x % 2 ^ n : Nat) - (2 ^ n : Nat) : Int) else BitVec.ofNat 64 (x % 2 ^ n)

/-- x[n-1:0] zero-extended (R52). -/
def zextN (x n : Nat) : Word := BitVec.ofNat 64 (x % 2 ^ n)

/-- A word from a natural number, modulo 2^64. -/
def w64 (n : Nat) : Word := BitVec.ofNat 64 n

/-! ### Components -/

def strandAt (s : State) (id : Nat) : Strand := (tget s.strands id).getD Strand.reset
def modStrand (id : Nat) (f : Strand → Strand) (s : State) : State := { s with strands := tmod s.strands id Strand.reset f }
/-- The strand that issues. -/
def State.me (s : State) : Strand := strandAt s s.cur
def modMe (f : Strand → Strand) (s : State) : State := modStrand s.cur f s

def coreAt (s : State) (c : Nat) : Core := (tget s.cores c).getD Core.reset
def modCore (c : Nat) (f : Core → Core) (s : State) : State := { s with cores := tmod s.cores c Core.reset f }
def scAt (s : State) (c i : Nat) : SCore := vget (coreAt s c).sc i SCore.reset
def modSc (c i : Nat) (f : SCore → SCore) (s : State) : State :=
  modCore c (fun k => { k with sc := vset k.sc i (f (vget k.sc i SCore.reset)) }) s
/-- The scalar core on which the issuing strand stands. -/
def State.mySc (s : State) : Nat := s.me.slot / 8
def State.here (s : State) : Nat := s.me.place
def myCore (s : State) : Core := coreAt s s.here
/-- The translation epoch of the core where the strand stands (R367). -/
def myEpoch (s : State) : Bool := (myCore s).epoch
def modMySc (f : SCore → SCore) (s : State) : State := modSc s.here s.mySc f s

def sliceAt (s : State) (cl : Nat) : Slice := (tget s.slices cl).getD Slice.reset
def modSlice (cl : Nat) (f : Slice → Slice) (s : State) : State := { s with slices := tmod s.slices cl Slice.reset f }
def hubAt (s : State) (m : Nat) : Hub := (tget s.hubs m).getD Hub.reset
def modHub (m : Nat) (f : Hub → Hub) (s : State) : State := { s with hubs := tmod s.hubs m Hub.reset f }
/-- A change of a strand, where it exists. -/
def modIf (id : Nat) (f : Strand → Strand) (s : State) : State :=
  match tget s.strands id with | none => s | some x => { s with strands := tput s.strands id (f x) }

/-- A change of the strand of a grid that a slot number named when an operation was issued: it may be suspended (R369), or
have ended. -/
def modOwner (id : Nat) (grid : Option Nat) (f : Strand → Strand) (s : State) : State :=
  match tget s.strands id, tget s.store id with
  | some x, none => if x.grid = grid then { s with strands := tput s.strands id (f x) } else s
  | some x, some y =>
    if x.grid = grid then { s with strands := tput s.strands id (f x) }
    else if y.grid = grid then { s with store := tput s.store id (f y) } else s
  | none, some y => if y.grid = grid then { s with store := tput s.store id (f y) } else s
  | none, none => s

def modGrid (g : Nat) (f : Grid → Grid) (s : State) : State :=
  match tget s.grids g with | none => s | some x => { s with grids := tput s.grids g (f x) }
def modBlock (b : Nat) (f : Block → Block) (s : State) : State :=
  match tget s.blocks b with | none => s | some x => { s with blocks := tput s.blocks b (f x) }
def modOp (o : Nat) (f : Op → Op) (s : State) : State :=
  match tget s.ops o with | none => s | some x => { s with ops := tput s.ops o (f x) }
def modPiece (p : Nat) (f : Piece → Piece) (s : State) : State :=
  match tget s.pieces p with | none => s | some x => { s with pieces := tput s.pieces p (f x) }

/-- Takes a number that no other thing has. -/
def bump (s : State) : State := { s with fresh := s.fresh + 1 }

/-! ### Time -/

/-- Inserts an event behind those due no later. -/
def insertDue (e : Nat × Instr) : List (Nat × Instr) → List (Nat × Instr)
  | [] => [e]
  | x :: t => if e.1 < x.1 then e :: x :: t else x :: insertDue e t

/-- Lets event i happen d cycles from now. -/
def sched (d : Nat) (i : Instr) (s : State) : State := { s with agenda := insertDue (s.now + d, i) s.agenda }

/-- Lets event i happen in the next cycle, also where an instruction acts in a stage of its own (R27). -/
def schedNext (i : Instr) (s : State) : State := sched (s.lag + 1) i s

/-- Lets event i happen next, before everything else that is due. -/
def atOnce (i : Instr) (s : State) : State := { s with agenda := (s.now, i) :: s.agenda }

/-- The events to come: those of the agenda, and those that packets between modules bring. -/
def coming (s : State) : List Instr := s.agenda.map Prod.snd ++ s.frames.map (fun f => f.2.what)

/-- sr.cycle of a module (R99). -/
def cycleOf (s : State) (m : Nat) : Nat := s.now - (hubAt s m).cycle0

/-- A delay the spec does not state (log 3, DESIGN CHOICE). -/
def schedFree (i : Instr) (s : State) : State := { sched (Config.freeDelay s.oracle) i s with oracle := s.oracle + 1 }

/-! ### Places (R14, R61, R68, R309) -/

def hubOf (m : Nat) : Nat := 0x40000 + m * 1024
def mcOf (m : Nat) : Nat := 0x80000 + m * 1024
/-- The place that an acknowledgement is for, with the home that sends it. -/
def ackFrom (home place : Nat) : Nat := place + 2 ^ 20 * home
def ackPlace (p : Nat) : Nat := p % 2 ^ 20
def ackHome (p : Nat) : Nat := p / 2 ^ 20
def isHub (p : Nat) : Bool := 0x40000 ≤ p && p < 0x80000
def isMc (p : Nat) : Bool := 0x80000 ≤ p
def isCore (p : Nat) : Bool := p < 0x40000
def moduleOf (p : Nat) : Nat := p / 1024 % 256
/-- The pod's number of the cluster of a core: module·256 + 16·y + x. -/
def clusterOf (p : Nat) : Nat := p / 4
def xOf (p : Nat) : Nat := p % 1024 / 4 % 16
def yOf (p : Nat) : Nat := p % 1024 / 4 / 16
/-- The tower of a core, numbered over the pod (R14). -/
def towerOf (p : Nat) : Nat := moduleOf p * 32 + yOf p / 2 * 4 + xOf p / 4
/-- The index of a core in its tower (R14). -/
def towerIndex (p : Nat) : Nat := (yOf p % 2 * 4 + xOf p % 4) * 4 + p % 4
/-- The quarter of a core (R334). -/
def quarterOf (p : Nat) : Nat := xOf p / 4

def absDiff (a b : Nat) : Nat := (a - b) + (b - a)

/-- h and d between a place and its module's hub, whose ports stand at its south edge (R309). -/
def hubLeg (p : Nat) : Nat × Nat := if isCore p then (yOf p + 1, yOf p / 2 + 1) else (0, 0)

/-- h and d between two places, without the pod links between their modules (R40, R68, R309). -/
def route (a b : Nat) : Nat × Nat :=
  if moduleOf a = moduleOf b ∧ isCore a ∧ isCore b then
    (absDiff (xOf a) (xOf b) + absDiff (yOf a) (yOf b), absDiff (xOf a / 4) (xOf b / 4) + absDiff (yOf a / 2) (yOf b / 2))
  else ((hubLeg a).1 + (hubLeg b).1, (hubLeg a).2 + (hubLeg b).2)

/-- A pod hop for n flits (R390). -/
def podHop (n : Nat) : Nat := 860 + 13 * Config.cableMetres + 22 * ((n - 1) / 25)

/-- pr.route of module m towards module b (R391). -/
def routeEntry (s : State) (m b : Nat) : Nat :=
  match tget (hubAt s m).ctl (0x190000 + 8 * b) with | some v => v.toNat | none => 0

/-- The far end of port p of module m on the way to module b: its module and its port there. -/
def farEnd (s : State) (m p b : Nat) : Nat × Nat :=
  match tget s.cables (64 * m + p) with
  | some v => (v / 64 % 256, v % 64)
  | none => (b, bits (routeEntry s b m) 5 0)

/-- The pod links from module m to module b, by the routing tables on the way (R68, R391); it ends where a table has no
entry. -/
def podPath (s : State) (b : Nat) : Nat → Nat → List Hop
  | 0, _ => []
  | n + 1, m =>
    if m = b then []
    else if bit (routeEntry s m b) 7 = false then []
    else
      let p := bits (routeEntry s m b) 5 0
      let e := farEnd s m p b
      ⟨m, p, e.1, e.2⟩ :: podPath s b n e.1

def hopsOf (s : State) (a b : Nat) : List Hop := podPath s (moduleOf b) 256 (moduleOf a)

/-- The number of pod hops of a route (R68). -/
def podHops (s : State) (a b : Nat) : Nat := if moduleOf a = moduleOf b then 0 else max 1 (hopsOf s a b).length

/-- Issue to first issue of a travel with f luggage flits (R40, R64, R68, R309). -/
def travelTime (s : State) (a b f : Nat) : Nat :=
  if a = b then 10 + f else 14 + 3 * (route a b).1 + 5 * (route a b).2 + f + podHops s a b * podHop (3 + f)

/-- The path between two cores of a module alone, of a stream or of what a core forwards (R40, R371, R372). -/
def mgPath (src dst : Nat) : Nat := 3 * (route src dst).1 + 5 * (route src dst).2

/-- The report leg (R255, R417). -/
def leg (s : State) (a b : Nat) : Nat :=
  if a = b then 1 else 4 + 3 * (route a b).1 + 5 * (route a b).2 + podHops s a b * podHop 1

/-! ### Memory -/

/-- The byte an address holds; an unlisted byte is zero (R400: bring-up zeroes every memory). -/
def memGet : List Host.Cell → Nat → Byte
  | [], _ => 0
  | (j, b) :: t, a => if j = a then b else if a < j then 0 else memGet t a

/-- The memory with one byte written, in the canonical form: addresses rising, no byte that reads zero listed. -/
def memPut : List Host.Cell → Nat → Byte → List Host.Cell
  | [], a, b => if b = 0 then [] else [(a, b)]
  | (j, c) :: t, a, b =>
    if a < j then (if b = 0 then (j, c) :: t else (a, b) :: (j, c) :: t)
    else if a = j then (if b = 0 then t else (a, b) :: t)
    else (j, c) :: memPut t a b

/-- The canonical form: addresses strictly rising from lo, no listed byte zero. -/
def memFrom (lo : Nat) : List Host.Cell → Bool
  | [] => true
  | (j, b) :: t => decide (lo ≤ j) && decide (b ≠ 0) && memFrom (j + 1) t

/-- The memory is in canonical form. -/
def Memory.wf (m : List Host.Cell) : Bool := memFrom 0 m

def memRead (m : List Host.Cell) (a n : Nat) : List Byte := (List.range n).map (fun i => memGet m (a + i))

def memWrite (m : List Host.Cell) : Nat → List Byte → List Host.Cell
  | _, [] => m
  | a, b :: bs => memWrite (memPut m a b) (a + 1) bs

/-- Little-endian (R2). -/
def leNat : List Byte → Nat
  | [] => 0
  | b :: t => b.toNat + 256 * leNat t

def leBytes : Nat → Nat → List Byte
  | 0, _ => []
  | n + 1, v => BitVec.ofNat 8 v :: leBytes n (v / 256)

/-- Raw memory of the state: SRAM and DRAM arrays. -/
def peek8 (s : State) (a : Nat) : Nat := leNat (memRead s.mem a 8)
def peekN (s : State) (a n : Nat) : Nat := leNat (memRead s.mem a n)
def pokeBytes (a : Nat) (bs : List Byte) (s : State) : State := { s with mem := memWrite s.mem a bs }
def poke8 (a : Nat) (v : Word) (s : State) : State := pokeBytes a (leBytes 8 v.toNat) s

/-- True when a granule that overlaps the range is poisoned (R52). -/
def poisoned (s : State) (a n : Nat) : Bool := s.poison.any (fun g => decide (g * 32 < a + n ∧ a < g * 32 + 32))

def setPoison (g : Nat) (s : State) : State := { s with poison := ins g s.poison }
def clearPoison (g : Nat) (s : State) : State := { s with poison := s.poison.filter (· != g) }

/-- Whether the aligned word is empty (R151). -/
def feEmpty (s : State) (a : Nat) : Bool := s.empties.contains (a / 8)
def setEmpty (a : Nat) (s : State) : State := { s with empties := ins (a / 8) s.empties }
def setFull (a : Nat) (s : State) : State := { s with empties := s.empties.filter (· != a / 8) }

/-- First byte of a core's SRAM space and vault; of the hub SRAM and of the MC's private SRAM (R122, R123, R393). -/
def sramBase (c : Nat) : Nat := moduleOf c * 2 ^ 48 + 2 ^ 47 + c % 1024 * 2 ^ 31
def vaultBase (c : Nat) : Nat := moduleOf c * 2 ^ 48 + c % 1024 * 2 ^ 31
def hubSram (m : Nat) : Nat := m * 2 ^ 48 + 2 ^ 47 + 0x40000000
def mcSram (m : Nat) : Nat := 2 ^ 56 + m * 2 ^ 22

/-- Raw scratchpad offset o as seen from a slot of a place (R35, R416). -/
def padAt (place slot o : Nat) : Nat :=
  if isHub place then hubSram (moduleOf place) + slot / 8 * 0x1000000 + o else sramBase place + o

/-- The floor block of a slot (R37, R416). -/
def floorAt (place slot : Nat) : Nat := padAt place slot (0x3C0000 + 0x1000 * slot)

/-- The context store's place for the floor block of a native slot (R369). -/
def storeFloor (id : Nat) : Nat := 2 ^ 57 + 4096 * id

/-! ### Registers (R25, R26) -/

def regVal (x : Strand) (r : Nat) : Word := if r = 0 then 0 else vget x.regs r 0
def regSt (x : Strand) (r : Nat) : RegState := if r = 0 then .full else vget x.rst r .full
def isFull (x : Strand) (r : Nat) : Bool := decide (regSt x r = .full)

/-- Sets register r to v and marks it full; s0 discards. -/
def setReg (r : Nat) (v : Word) (x : Strand) : Strand :=
  if r = 0 then x else { x with regs := vset x.regs r v, rst := vset x.rst r .full }

def setRst (r : Nat) (t : RegState) (x : Strand) : Strand := if r = 0 then x else { x with rst := vset x.rst r t }

/-- The register awaits a tagged result, with or without a symbol. -/
def awaits (x : Strand) (r : Nat) : Bool :=
  match regSt x r with | .await _ => true | .sym _ .tagged => true | _ => false

def symbolic (x : Strand) (r : Nat) : Bool := match regSt x r with | .sym _ _ => true | _ => false

/-- Write of a result in the pipeline. -/
def wr (r : Nat) (v : Word) (s : State) : State := modMe (setReg r v) s

/-- `.l`: the register becomes empty when its instruction retires (R26). -/
def dropL (l : BitVec 1) (r : Nat) (s : State) : State := if l = 1 then modMe (setRst r .empty) s else s

/-- The same for a register that is named or none. -/
def dropReg (r : Option Nat) (s : State) : State := match r with | some r => modMe (setRst r .empty) s | none => s

/-- sr.status fields (R100). -/
def autotravel (x : Strand) : Bool := x.status.getLsbD 0
def symoff (x : Strand) : Bool := x.status.getLsbD 1
def pairedS (x : Strand) : Bool := x.status.getLsbD 10
def trailS (x : Strand) : Bool := x.status.getLsbD 11
def setStatusBit (i : Nat) (b : Bool) (x : Strand) : Strand :=
  { x with status := if b then x.status ||| ((1 : Word) <<< i) else x.status &&& ~~~((1 : Word) <<< i) }

/-- A guest stands in a slot that is not its native one. -/
def isNative (x : Strand) : Bool := decide (x.place = x.native ∧ x.slot = x.nslot)

/-- The least number below n that is not a key of t. -/
def lowestFree {α : Type} (t : Tbl α) (n : Nat) : Option Nat := (List.range n).find? (fun i => (tget t i).isNone)

/-- pending (R52): register d awaits a tagged result; a symbol is made under the conditions of R108. The tag is the
state's next fresh number. -/
def startLate (d src : Nat) (va : Word) (fadd : Bool) (record : Option RecFill) (s : State) : State :=
  let x := s.me
  let tag := s.fresh
  let e : Option Nat := if isNative x ∧ ¬ symoff x ∧ ¬ pairedS x ∧ d ≠ 0 then lowestFree (scAt s s.here s.mySc).syms 32 else none
  let s1 := bump (modMe (fun x => { x with late := x.late ++ [⟨tag, d, src, x.pc, va, fadd, record⟩] }) s)
  match e with
  | none => modMe (setRst d (.await tag)) s1
  | some e =>
    modMySc (fun k => { k with syms := tput k.syms e ⟨s.cur, tag, d, x.pc, src, s.now + 6, [], none, 0, 0⟩ })
      (modMe (setRst d (.sym e .tagged)) s1)

/-! ### Issue, parking and retirement (R28, R29, R31) -/

/-- A scalar core's issue interval: the MC's cycles count four (R27, R393). -/
def interval (x : Strand) : Nat := match x.kind with | .mc => 32 | _ => 8

/-- R31 and R113: nothing outstanding, every posted store accepted, every symbol resolved. -/
def settled (s : State) (id : Nat) : Bool :=
  let x := strandAt s id
  x.late.isEmpty && decide (x.posted = 0) && decide (x.gives = 0) && x.cmp.isEmpty
    && (scAt s x.place (x.slot / 8)).syms.all (fun e => decide (e.2.sid ≠ id))

/-- Annuls the instruction and parks the strand. Model's choice: an instruction that is annulled does not keep its strand from issuing
again 2 cycles after the waking event, though fewer than 8 cycles have passed since it issued (R28, R29; log 69, DESIGN CHOICE). -/
def park (p : Park) (s : State) : State := modMe (fun x => { x with park := some p, readyAt := s.now + 1 }) s

/-- Retires the instruction with the next PC, and parks for its park bit (R31). -/
def retireAt (pc : Word) (k : BitVec 1) (s : State) : State :=
  let s1 := modMe (fun x => { x with pc := pc, readyAt := s.now + interval x, carried := none, released := false }) s
  if k = 1 ∧ settled s1 s1.cur = false then modMe (fun x => { x with park := some .kbit }) s1 else s1

/-- Retires to the next instruction. -/
def retire (k : BitVec 1) (s : State) : State := retireAt (s.me.pc + 4) k s

/-! ### Control registers (R7, R392) -/

/-- The value after reset of a control register of a hub that the hub's table does not list. -/
def ctlReset (off : Nat) : Nat :=
  if 0x110000 ≤ off ∧ off < 0x111000 ∧ off % 16 = 0 then
    let x := (off - 0x110000) / 16 % 16
    b2n (x = 4 ∨ x = 8 ∨ x = 12) * 32 + b2n (x = 3 ∨ x = 7 ∨ x = 11) * 16 + x / 4
  else if off = 0x100000 then 0x0003000200010000
  else if off = 0x100008 ∨ off = 0x100010 ∨ off = 0x100018 ∨ off = 0x100020 then 0xFFFF * 2 ^ (16 * ((off - 0x100008) / 8))
  else 0

def ctlGet (s : State) (m off : Nat) : Nat := match tget (hubAt s m).ctl off with | some v => v.toNat | none => ctlReset off
def ctlPut (m off v : Nat) (s : State) : State := modHub m (fun h => { h with ctl := tput h.ctl off (w64 v) }) s

/-- The debug record of a core (R380). -/
def dbgOff (core : Nat) : Nat := 0x270000 + 0x20 * (core % 1024)
/-- Whether a core runs from its log. -/
def dbgCtl (s : State) (core : Nat) : Nat := ctlGet s (moduleOf core) (dbgOff core)
def replaying (s : State) (core : Nat) : Bool := isCore core && bit (dbgCtl s core) 1

/-- Whether module m is in the pod as module `from_` sees it (R391). -/
def inPod (s : State) (from_ m : Nat) : Bool := decide (from_ = m) || bit (ctlGet s from_ (0x190000 + 8 * m)) 7

/-- The partition of a cluster (R335), and of a place: a Caller scalar core belongs to its quarter's. -/
def rtCfg (s : State) (cl : Nat) : Nat := ctlGet s (cl / 256) (0x110000 + 16 * (cl % 256))
def partitionOf (s : State) (p sc : Nat) : Nat :=
  if isCore p then bits (rtCfg s (clusterOf p)) 1 0 else bits (rtCfg s (moduleOf p * 256 + 4 * sc)) 1 0

/-! ### Logs (R395) -/

/-- The 128 bytes of a log entry in the order of R395; a seal carries its signature in place of the detail (log 15, PRESUMED). -/
def entryBytes (e : LogEntry) : List Byte :=
  if e.sealSig = 0 then
    leBytes 8 e.cycle ++ leBytes 8 (e.kind + 256 * e.cause + 65536 * e.owner + 2 ^ 24 * e.source) ++ leBytes 48 e.detail.toNat
      ++ leBytes 48 e.digest.toNat ++ leBytes 16 0
  else leBytes 8 e.cycle ++ leBytes 8 0 ++ leBytes 96 e.sealSig.toNat ++ leBytes 16 0

/-- Entries of the log's ring: 64 MiB of 128 bytes each (R395). -/
def logRing : Nat := 2 ^ 19

/-- An entry at the end of a log; a full ring loses its oldest. -/
def logPush (e : LogEntry) (h : Hub) : Hub :=
  if h.log.length < logRing then { h with log := h.log ++ [e] } else { h with log := h.log.tail ++ [e], logFirst := h.logFirst + 1 }

/-- The digest of the entry before the next one. -/
def logDigest (h : Hub) : BitVec 384 := match h.log.getLast? with | none => 0 | some e => Config.sha384 (entryBytes e)

/-- Appends to the MC's signed event log; every 1,024th entry is a seal over the digest before it (R395). -/
def mcLog (m kind cause owner source : Nat) (detail : Word) (s : State) : State :=
  let put (h : Hub) : Hub :=
    let h := logPush ⟨cycleOf s m, kind, cause, owner, source, detail.setWidth 384, logDigest h, 0⟩ h
    if (h.logFirst + h.log.length) % 1024 = 1023
      then logPush ⟨cycleOf s m, 0, 0, 0, 0, 0, logDigest h, Config.ecdsaSign s.oracle (logDigest h)⟩ h else h
  { modHub m put s with oracle := s.oracle + 1 }

/-- Kinds of log entries (log 15, PRESUMED). -/
def logTrap : Nat := 1
def logDouble : Nat := 2
def logBoundary : Nat := 3
def logKill : Nat := 4
def logRefusedLaunch : Nat := 5
def logNoticeLost : Nat := 6
def logKeyFail : Nat := 7
def logThermal : Nat := 8
def logFirmware : Nat := 9
def logReset : Nat := 10
def logConfig : Nat := 11
def logHeldCaller : Nat := 12
def logVault : Nat := 13
def logPageFault : Nat := 14
def logStrike : Nat := 15

/-! ### Pod links (R23, R338, R348, R349) -/

/-- The quarter of a place for partitions: a core's, or the hub quarter of an SRAM offset. -/
def partOf (s : State) (p : Nat) : Nat := partitionOf s p 0

/-- The hub's key entry of an owner is loaded (R348). -/
def keyValid (s : State) (m owner : Nat) : Bool := bit (ctlGet s m (0x140020 + 0x40 * owner)) 0

/-- The owner's key at a hub, or at the receiver the old key under which a packet of another epoch is checked (R348). -/
def linkKey (s : State) (m owner : Nat) : BitVec 256 := match tget (hubAt s m).keys owner with | some k => k.key | none => 0
def keyEpoch (s : State) (m owner : Nat) : Bool := bit (ctlGet s m (0x140020 + 0x40 * owner)) 8
def checkKey (s : State) (m owner : Nat) (e : Bool) : BitVec 256 :=
  match tget (hubAt s m).keys owner with
  | some k => if e ≠ keyEpoch s m owner ∧ s.now < k.oldUntil then k.old else k.key
  | none => 0

/-- The nonce of a packet: module, port, sequence (R349). -/
def nonceOf (m port seq : Nat) : BitVec 96 := BitVec.ofNat 96 (m % 256 * 2 ^ 88 + port % 64 * 2 ^ 82 + seq % 2 ^ 64)

/-- Partition p of module m belongs to an owner and uses a port (R338). -/
def portOurs (s : State) (m p port owner : Nat) : Bool :=
  bit (ctlGet s m (0x100008 + 8 * p)) port && decide (bits (ctlGet s m 0x100000) (16 * p + 7) (16 * p + 4) = owner)

/-- The partition of a packet's end where it lies in module m and is known: a core's, or that of a hub's scalar core. -/
def endPart (s : State) (m place : Nat) (sc : Option Nat) : Option Nat :=
  if moduleOf place ≠ m then none else if isCore place then some (partOf s place) else sc.map (partitionOf s place)

/-- A packet of an owner at a port of module m, with this end there: the partition that sends it uses the port; of an end that names no
partition, some partition of the owner does (R338). -/
def portOut (s : State) (m port owner place : Nat) (sc : Option Nat) : Bool :=
  match endPart s m place sc with
  | some p => bit (ctlGet s m (0x100008 + 8 * p)) port
  | none => (List.range 4).any (fun p => portOurs s m p port owner)

/-- The same for a packet that arrives: the partition that it is for uses the port and is the owner's. -/
def portIn (s : State) (m port owner place : Nat) (sc : Option Nat) : Bool :=
  match endPart s m place sc with
  | some p => portOurs s m p port owner
  | none => (List.range 4).any (fun p => portOurs s m p port owner)

/-- A packet may leave a module over a link: its module is in the pod, and the owner's key is loaded and the sending partition uses the
port (R67, R338, R391), or the packet goes back to a reserved slot (log 21). -/
def linkOut (s : State) (f : Frame) : Bool :=
  inPod s f.hop.from_ (moduleOf f.dest)
    && (f.back || (keyValid s f.hop.from_ f.owner && (f.win || portOut s f.hop.from_ f.hop.port f.owner f.src f.srcSc)))

/-- The flits that the tag covers: the packet's own and the link flit, its tag field zero (R349, R389; the layout of the link flit is
the model's, log 70, PRESUMED). -/
def taggedBytes (f : Frame) (seq : Nat) (epoch : Bool) : List Byte :=
  f.bytes ++ leBytes 64 (f.owner % 16 * 2 ^ 65 + b2n epoch * 2 ^ 64 + seq % 2 ^ 64)

/-- The receiving port admits a packet that was sent with this number, epoch bit and key: the owner's key is valid, the tag matches, the
sequence is above the last, and the port's partition is the owner's and holds the packet's end, or the packet passes under win (R338,
R349). -/
def linkAdmits (s : State) (f : Frame) (seq : Nat) (epoch : Bool) (key : BitVec 256) : Bool :=
  let m := f.hop.to_
  let tag (k : BitVec 256) : Word := Config.gmacTag k (nonceOf f.hop.from_ f.hop.port seq) (taggedBytes f seq epoch)
  let fresh : Bool := match tget (hubAt s m).seqRx f.hop.inPort with | some l => decide (l < seq) | none => true
  fresh && keyValid s m f.owner && decide (tag key = tag (checkKey s m f.owner epoch))
    && (f.win || f.back || portIn s m f.hop.inPort f.owner f.dest f.destSc)

/-- A field of a register counts one more and stays at its greatest value. -/
def countField (m off hi lo : Nat) (s : State) : State :=
  let v := ctlGet s m off
  let n := bits v hi lo
  if n + 1 = 2 ^ (hi + 1 - lo) then s else ctlPut m off (v + 2 ^ lo) s

/-- The Caller scalar core of an owner in a module: the lowest whose partition is the owner's. -/
def callerOf (s : State) (m owner : Nat) : Option Nat :=
  (List.range 4).find? (fun q => decide (bits (ctlGet s m 0x100000) (16 * partitionOf s (hubOf m) q + 7) (16 * partitionOf s (hubOf m) q + 4) = owner))

/-- A report to the Caller of an owner: to q11 of its scalar core in the module of the fault, or else in the first of the modules where
it holds a partition. Its word is not given by the spec: a free value (R349, R350, log 21). -/
def ownerReport (m owner : Nat) (s : State) : State :=
  match (m :: s.hubs.map Prod.fst).findSome? (fun n => (callerOf s n owner).map (fun q => (n, q))) with
  | some (n, q) => sched (leg s (hubOf m) (hubOf n)) (.noticeArrival ⟨11, hubOf n, q, 0, Config.openWord s.oracle, hubOf m⟩) { s with oracle := s.oracle + 1 }
  | none => s

/-- A packet that fails its check is dropped and counted; port, sequence and owner are reported to the owner's Caller and in the
landlord's log (R349, R350). -/
def keyFails (h : Hop) (owner seq : Nat) (s : State) : State :=
  ownerReport h.to_ owner (mcLog h.to_ logKeyFail 0 owner (mcOf h.to_) (w64 (h.inPort * 2 ^ 48 + seq % 2 ^ 48))
    (countField h.to_ (0x140028 + 0x40 * owner) 31 0 s))

/-- A packet leaves for its end and is there d cycles later. Between modules it goes as frames, from its hub, which it reaches after
some cycles (R68, R349, R389); id names what it carries. -/
def sendOff (f : Frame) (id entry d : Nat) (s : State) : State :=
  if moduleOf f.src = moduleOf f.dest then sched d f.what s
  else
    let hops := hopsOf s f.src f.dest
    let f := { f with rest := d - entry - hops.length * podHop f.flits }
    match hops with
    | h :: _ => sched entry (.podFrameReceive h.from_ h.port id true) { s with frames := tput s.frames id { f with hop := h } }
    | [] => sched entry (.boundaryStop id) { s with frames := tput s.frames id f }

/-- The header flit of a packet that is no strand's, which the spec does not lay out (log 70, PRESUMED). -/
def plainHeader (owner a b : Nat) : List Byte := leBytes 64 (owner % 16 * 2 ^ 36 + a % 2 ^ 18 * 2 ^ 18 + b % 2 ^ 18)

/-- A packet of an owner from a to b before what it brings is filled in. -/
def plainFrame (owner a b : Nat) (bytes : List Byte) (win : Bool) (what : Instr) : Frame :=
  ⟨owner, a, none, b, none, plainHeader owner a b ++ bytes, max 1 (cdiv bytes.length 64), win, false, ⟨moduleOf a, 0, moduleOf b, 0⟩, none, 0, what⟩

/-- Cycles from a place to its module's hub (R68, R309). -/
def hubWay (p : Nat) : Nat := 4 + 3 * (hubLeg p).1 + 5 * (hubLeg p).2

/-- A message of an owner from a to b that arrives d cycles from now, if the pod links on its way let it pass (R23, R349). -/
def send (owner a b d : Nat) (e : Instr) (s : State) : State :=
  if moduleOf a = moduleOf b then sched d e s
  else
    let f := plainFrame owner a b [] false e
    sendOff { f with destSc := match e with | .noticeArrival n => if n.q = 11 then some n.sc else none | _ => none } s.fresh (hubWay a) d (bump s)

/-! ### Traps (R353 to R357) -/

/-- The notice of a held or stopped strand (R357). -/
def heldWord (x : Strand) (cause : Nat) : Word := w64 (x.native * 2 ^ 46 + x.nslot * 2 ^ 41 + cause * 2 ^ 35 + 3)

/-- A fault notice that names a page which the file left not valid is about to be pushed: the MC makes the page valid within 1,000
cycles (R284). -/
def nameAbsent (asn va : Nat) (s : State) : State :=
  match s.absents.find? (fun a => decide (a.2.1 = asn ∧ a.2.2 / 65536 = va / 65536)) with
  | none => s
  | some a =>
    { sched (Config.freeDelay s.oracle % 900) (.loadLaunch [.present a.1 a.2.1 a.2.2]) s with
      oracle := s.oracle + 1, absents := s.absents.filter (· != a) }

/-- Sends the notice of R357 to the Caller scalar core that issued the grid's launch. -/
def heldNotice (id cause : Nat) (s : State) : State :=
  let x := strandAt s id
  let s := if cause = 5 then nameAbsent x.asn x.tval.toNat s else s
  match x.grid.bind (tget s.grids) with
  | none => s
  | some g => send x.owner x.native g.caller (8 + leg s x.native g.caller) (.noticeArrival ⟨11, g.caller, g.callerSc, 0, heldWord x cause, x.native⟩) s

/-- A fault record's way from a core to its root, ahead of the block's end report (R322). -/
def faultLeg (s : State) (core caller : Nat) : Nat := 24 + podHops s core caller * podHop 1

/-- Counts a fault of a block: the record with the lowest block index of each module is kept, causes are counted, and the
first fault of a grid under policy 1 acts as cancel in kill mode (R323). -/
def blockFault (id cause : Nat) (epc tval : Word) (s : State) : State :=
  let x := strandAt s id
  match x.grid, tget s.blocks x.block with
  | some g, some b =>
    let s := modBlock x.block (fun b => { b with faulted := true }) s
    let m := moduleOf x.native
    let s := modGrid g (fun q =>
      let r : FaultRec := ⟨x.native, cause, b.idx, epc, tval⟩
      let ff := match tget q.firstFault m with
        | some o => if b.idx < o.block then tput q.firstFault m r else q.firstFault
        | none => tput q.firstFault m r
      { q with firstFault := ff, causes := tmod q.causes cause 0 (· + 1) }) s
    match tget s.grids g with
    | some q => if q.fpol = 1 ∧ q.killed = false then send q.owner x.native q.caller (faultLeg s x.native q.caller) (.contextRemoval g) s else s
    | none => s
  | _, _ => s

/-- sr.tvec and sr.tdeleg of the strand's grid (R99). -/
def tvecOf (s : State) (x : Strand) : Word := match x.grid.bind (tget s.grids) with | some g => g.tvec | none => 0
def tdelegOf (s : State) (x : Strand) : Word := match x.grid.bind (tget s.grids) with | some g => g.tdeleg | none => 0

/-- Holds a strand for its Caller; the landlord's copy goes to the MC's log (R350, R357). -/
def hold (id cause : Nat) (s : State) : State :=
  let s := modStrand id (fun x => { x with run := .held, park := none }) s
  let x := strandAt s id
  heldNotice id cause (blockFault id cause x.epc x.tval (mcLog (moduleOf x.native) logTrap cause x.owner x.native x.epc s))

/-- Halts a Caller or MC strand until the MC acts; recorded in the MC's log (R353, R364). -/
def haltStrand (id kind cause : Nat) (s : State) : State :=
  let x := strandAt s id
  mcLog (moduleOf x.place) kind cause x.owner x.place x.tval
    (modStrand id (fun x => { x with run := (if kind = logHeldCaller then .held else .halted), park := none }) s)

/-- Taking a trap (R353, R355): the routing order; epc, tval and cause are written, the handler is entered, or the strand
is held, halted or killed. id need not be the issuing strand (late poison, a failed walk, a stop on the way). -/
def trap (id cause : Nat) (epc tval : Word) (s : State) : State :=
  let s := modStrand id (fun x => { x with cause := BitVec.ofNat 6 cause, epc := epc, tval := tval, carried := none, flight := none, released := false }) s
  let x := strandAt s id
  if cause = 8 then sched 0 (.strandKill id 8) (modStrand id (fun x => { x with park := none, readyAt := s.now + 8 }) s)
  else if cause = 14 then sched 0 (.strandKill id 14) s
  else match x.kind with
  | .core =>
    if (tdelegOf s x).getLsbD cause ∨ tvecOf s x = 0 then hold id cause s
    else modStrand id (fun x => { x with pc := tvecOf s x &&& ~~~3, park := none, readyAt := s.now + 8, inHandler := true }) s
  | _ => haltStrand id logTrap cause s

/-- raise (R52): the issuing strand's instruction ends in a trap. -/
def raise (cause : Nat) (tval : Word) (s : State) : State := trap s.cur cause s.me.pc tval s

/-- The instruction word, for sr.tval (R49, R50). -/
def wordOf (i : Instr) : Word := match encode i with | some w => w.setWidth 64 | none => 0

end

end Sys2Proof.Machine
end

