-- ==== Sys2Proof/Machine/Float.lean ====
section
/-! DEFINITION. Number formats and arithmetic (R201 to R212): formats by the codes of R138, exact values as sign, integer
and power of two, one rounding at the end. -/

namespace Sys2Proof.Machine

open Sys2Proof

/-- An exact value: NaN (signalling or not), an infinity, or ±(m + ε)·2^e, with 0 < ε < 1 where sticky and ε = 0 where not. -/
inductive FVal where
  | nan (snan : Bool)
  | inf (neg : Bool)
  | num (neg : Bool) (m : Nat) (e : Int) (sticky : Bool)
  deriving DecidableEq, Repr

/-- Flags nv, dz, of, uf, nx in the order of sr.fcsr (R101). -/
abbrev FFlags := BitVec 5

def fNV : FFlags := 16
def fDZ : FFlags := 8
def fOF : FFlags := 4
def fUF : FFlags := 2
def fNX : FFlags := 1

/-! ### Formats, by code: 5 FP32, 6 BF16, 7 FP16, 8 E4M3, 9 E5M2, 11 S24, 12 FP64 (R138, R201) -/

/-- Exponent field width. -/
def ebits : Nat → Nat | 12 => 11 | 7 => 5 | 8 => 4 | 9 => 5 | _ => 8
/-- Fraction field width. -/
def fbits : Nat → Nat | 12 => 52 | 5 => 23 | 6 => 7 | 7 => 10 | 8 => 3 | 9 => 2 | _ => 15
def bias (f : Nat) : Nat := 2 ^ (ebits f - 1) - 1

/-- Canonical NaN (R203). -/
def canonNaN : Nat → Nat
  | 12 => 0x7FF8000000000000 | 5 => 0x7FC00000 | 6 => 0x7FC0 | 7 => 0x7E00 | 9 => 0x7E | 8 => 0x7F | _ => 0x7FC000

def signBit (f : Nat) : Nat := 2 ^ (ebits f + fbits f)

/-- The pattern of an infinity; of the largest finite value (R201, R202). -/
def infPat (f : Nat) (neg : Bool) : Nat := (2 ^ ebits f - 1) * 2 ^ fbits f + (if neg then signBit f else 0)
def maxPat (f : Nat) (neg : Bool) : Nat :=
  (if f = 8 then 0x7E else (2 ^ ebits f - 1) * 2 ^ fbits f - 1) + (if neg then signBit f else 0)
def zeroPat (f : Nat) (neg : Bool) : Nat := if neg then signBit f else 0

/-- The value of a pattern (R202); subnormals read as zero of their sign under ftz (R92). -/
def fdec (f : Nat) (ftz : Bool) (v : Nat) : FVal :=
  let w := fbits f
  let e := v / 2 ^ w % 2 ^ ebits f
  let fr := v % 2 ^ w
  let neg := bit v (ebits f + w)
  if f = 8 then
    if e = 15 ∧ fr = 7 then .nan false
    else if e = 0 then (if ftz then .num neg 0 0 false else .num neg fr (-9) false)
    else .num neg (fr + 8) ((e : Int) - 10) false
  else if e = 2 ^ ebits f - 1 then
    (if fr = 0 then .inf neg else .nan (decide (f ≠ 9 ∧ f ≠ 11) && !bit fr (w - 1)))
  else if e = 0 then
    (if fr = 0 ∨ ftz then .num neg 0 0 false else .num neg fr (1 - (bias f : Int) - w) false)
  else .num neg (fr + 2 ^ w) ((e : Int) - bias f - w) false

/-- Whether v is a subnormal pattern. -/
def isSub (f v : Nat) : Bool := decide (v / 2 ^ fbits f % 2 ^ ebits f = 0 ∧ v % 2 ^ fbits f ≠ 0)

/-- 2^i for an integer that is not negative. -/
def p2 (i : Int) : Nat := 2 ^ i.toNat

/-- m·2^e with its sticky part, rounded to a multiple of 2^q under a mode (00 rne, 01 rtz, 10 rdn, 11 rup): the multiple
and whether it is exact. -/
def roundAt (mode : BitVec 2) (neg : Bool) (m : Nat) (e : Int) (sticky : Bool) (q : Int) : Nat × Bool :=
  let sh := q - e
  let lo := if 0 < sh then m / p2 sh else m * p2 (-sh)
  let r := if 0 < sh then m % p2 sh else 0
  let half := if 0 < sh then p2 (sh - 1) else 0
  let exact := decide (r = 0) && !sticky
  let up : Bool :=
    if mode = 0 then
      decide (0 < sh) && (decide (half < r) || (decide (r = half) && (sticky || decide (lo % 2 = 1))))
    else if mode = 1 then false
    else if mode = 2 then neg && !exact
    else !neg && !exact
  (if up then lo + 1 else lo, exact)

/-- The pattern of k·2^q, a value of the format's grid, q no lower than the subnormal step. -/
def encodeFin (f : Nat) (neg : Bool) (k : Nat) (q : Int) : Nat :=
  let w := fbits f
  let sg := if neg then signBit f else 0
  if k = 0 then sg else
  let l := Nat.log2 k
  let ex : Int := l + q + bias f
  if 1 ≤ ex then
    let fr := if l ≤ w then k * 2 ^ (w - l) - 2 ^ w else k / 2 ^ (l - w) - 2 ^ w
    sg + ex.toNat * 2 ^ w + fr
  else sg + k * p2 (q - (1 - (bias f : Int) - w))

/-- round(x, fmt, mode) of R207, with saturation and flushing as the caller's rule states them. -/
def fround (f : Nat) (mode : BitVec 2) (sat ftz : Bool) (x : FVal) : Nat × FFlags :=
  let sat := sat || decide (f = 8)
  match x with
  | .nan _ => (canonNaN f, 0)
  | .inf neg => if sat then (maxPat f neg, fNV) else (infPat f neg, 0)
  | .num neg 0 _ false => (zeroPat f neg, 0)
  | .num neg m e sticky =>
    let w := fbits f
    let qu : Int := e + Nat.log2 m - w
    let qmin : Int := 1 - (bias f : Int) - w
    let (ku, _) := roundAt mode neg m e sticky qu
    let q := max qu qmin
    let (k, exact) := roundAt mode neg m e sticky q
    let tiny : Bool := decide ((Nat.log2 ku : Int) + qu < 1 - bias f)
    let maxK := if f = 8 then 14 else 2 ^ (w + 1) - 1
    let maxQ : Int := (if f = 8 then 8 else (bias f : Int)) - w
    let big : Bool := if q ≤ maxQ then decide (maxK * p2 (maxQ - q) < k) else decide (maxK < k * p2 (q - maxQ))
    if big then
      if sat then (maxPat f neg, fOF ||| fNX)
      else if mode = 0 ∨ (mode = 3 ∧ neg = false) ∨ (mode = 2 ∧ neg = true) then (infPat f neg, fOF ||| fNX)
      else (maxPat f neg, fOF ||| fNX)
    else
      let fl : FFlags := if exact then 0 else if tiny then fUF ||| fNX else fNX
      let v := encodeFin f neg k q
      if ftz ∧ isSub f v then (zeroPat f neg, fl ||| fUF ||| fNX) else (v, fl)

/-! ### Exact operations (R93) -/

def FVal.isNan : FVal → Bool | .nan _ => true | _ => false
def FVal.isSnan : FVal → Bool | .nan b => b | _ => false
def FVal.isInf : FVal → Bool | .inf _ => true | _ => false
def FVal.isZero : FVal → Bool | .num _ 0 _ false => true | _ => false
def FVal.neg : FVal → Bool | .nan _ => false | .inf n => n | .num n _ _ _ => n
def FVal.negate : FVal → FVal | .nan b => .nan b | .inf n => .inf !n | .num n m e t => .num (!n) m e t

/-- The NaN of a result, with NV where an operand signals. -/
def nanOf (xs : List FVal) : FVal × FFlags := (.nan false, if xs.any FVal.isSnan then fNV else 0)

/-- Exact sum of two finite values without sticky parts; the sign of an exact zero sum by R93. -/
def addFin (mode : BitVec 2) (n1 : Bool) (m1 : Nat) (e1 : Int) (n2 : Bool) (m2 : Nat) (e2 : Int) : FVal :=
  let e := min e1 e2
  let a : Int := m1 * p2 (e1 - e)
  let b : Int := m2 * p2 (e2 - e)
  let t := (if n1 then -a else a) + (if n2 then -b else b)
  if t = 0 then .num (if n1 = n2 then n1 else decide (mode = 2)) 0 0 false
  else .num (decide (t < 0)) t.natAbs e false

/-- a + b. -/
def fadd2 (mode : BitVec 2) (a b : FVal) : FVal × FFlags :=
  match a, b with
  | .inf x, .inf y => if x = y then (.inf x, 0) else (.nan false, fNV)
  | .nan _, _ => nanOf [a, b]
  | _, .nan _ => nanOf [a, b]
  | .inf x, _ => (.inf x, 0)
  | _, .inf y => (.inf y, 0)
  | .num n1 m1 e1 _, .num n2 m2 e2 _ => (addFin mode n1 m1 e1 n2 m2 e2, 0)

/-- a · b; the flag NV for 0 · infinity. -/
def fmul2 (a b : FVal) : FVal × FFlags :=
  if (a.isZero && b.isInf) || (a.isInf && b.isZero) then (.nan false, fNV)
  else match a, b with
  | .nan _, _ => nanOf [a, b]
  | _, .nan _ => nanOf [a, b]
  | .inf x, y => (.inf (x ^^ y.neg), 0)
  | x, .inf y => (.inf (x.neg ^^ y), 0)
  | .num n1 m1 e1 _, .num n2 m2 e2 _ => (.num (n1 ^^ n2) (m1 * m2) (e1 + e2) false, 0)

/-- a · b + c, rounded nowhere (R93: 0 · infinity is invalid whatever c is). -/
def ffma3 (mode : BitVec 2) (a b c : FVal) : FVal × FFlags :=
  if (a.isZero && b.isInf) || (a.isInf && b.isZero) then (.nan false, fNV)
  else if a.isNan || b.isNan || c.isNan then nanOf [a, b, c]
  else fadd2 mode (fmul2 a b).1 c

/-- a / b. -/
def fdiv2 (a b : FVal) : FVal × FFlags :=
  if (a.isZero && b.isZero) || (a.isInf && b.isInf) then (.nan false, fNV)
  else match a, b with
  | .nan _, _ => nanOf [a, b]
  | _, .nan _ => nanOf [a, b]
  | .inf x, y => (.inf (x ^^ y.neg), 0)
  | x, .inf y => (.num (x.neg ^^ y) 0 0 false, 0)
  | .num n1 m1 e1 _, .num n2 m2 e2 _ =>
    if m2 = 0 then (.inf (n1 ^^ n2), fDZ)
    else if m1 = 0 then (.num (n1 ^^ n2) 0 0 false, 0)
    else
      let k := 80 + Nat.log2 m2
      (.num (n1 ^^ n2) (m1 * 2 ^ k / m2) (e1 - e2 - k) (decide (m1 * 2 ^ k % m2 ≠ 0)), 0)

/-- Integer square root, bit by bit: the root has at most i bits more to settle. -/
def isqrtLoop (n : Nat) : Nat → Nat → Nat
  | 0, r => r
  | i + 1, r => isqrtLoop n i (if (r + 2 ^ i) * (r + 2 ^ i) ≤ n then r + 2 ^ i else r)

def isqrt (n : Nat) : Nat := isqrtLoop n (Nat.log2 n / 2 + 1) 0

/-- √a. -/
def fsqrt1 (a : FVal) : FVal × FFlags :=
  match a with
  | .nan b => nanOf [.nan b]
  | .inf n => if n then (.nan false, fNV) else (.inf false, 0)
  | .num n 0 _ _ => (.num n 0 0 false, 0)
  | .num n m e _ =>
    if n then (.nan false, fNV) else
    let k : Nat := if e % 2 = 0 then 200 else 201
    let r := isqrt (m * 2 ^ k)
    (.num false r ((e - k) / 2) (decide (r * r ≠ m * 2 ^ k)), 0)

/-- 1/√a (R223). -/
def frsq1 (a : FVal) : FVal × FFlags :=
  match a with
  | .nan b => nanOf [.nan b]
  | .inf n => if n then (.nan false, fNV) else (.num false 0 0 false, 0)
  | .num n 0 _ _ => (.inf n, fDZ)
  | .num n m e _ =>
    if n then (.nan false, fNV) else
    let (m, e) := if e % 2 = 0 then (m, e) else (2 * m, e - 1)
    let k := 200 + Nat.log2 m
    let r := isqrt (2 ^ (2 * k) / m)
    (.num false r (-(e / 2) - k) (decide (r * r * m ≠ 2 ^ (2 * k))), 0)

/-- Less, equal or greater; none with a NaN. -/
def fcmp (a b : FVal) : Option Ordering :=
  match a, b with
  | .nan _, _ => none
  | _, .nan _ => none
  | .inf x, .inf y => some (if x = y then .eq else if x then .lt else .gt)
  | .inf x, _ => some (if x then .lt else .gt)
  | _, .inf y => some (if y then .gt else .lt)
  | .num n1 m1 e1 _, .num n2 m2 e2 _ =>
    let e := min e1 e2
    let a : Int := m1 * p2 (e1 - e)
    let b : Int := m2 * p2 (e2 - e)
    some (compare (if n1 then -a else a) (if n2 then -b else b))

/-- Whether x comes before y when the lesser is wanted: −0 < +0 (R94). -/
def fless (a b : FVal) : Bool :=
  match fcmp a b with
  | some .lt => true
  | some .eq => a.neg && !b.neg
  | _ => false

/-- The pattern read under ftz: a subnormal becomes zero of its sign. -/
def flushIn (f : Nat) (ftz : Bool) (v : Nat) : Nat := if ftz && isSub f v then zeroPat f (bit v (ebits f + fbits f)) else v

/-- fmin and fmax (R94): a chosen pattern, not rounded. -/
def fminmax (f : Nat) (ftz wantMax : Bool) (va vb : Nat) : Nat × FFlags :=
  let va := flushIn f ftz va
  let vb := flushIn f ftz vb
  let a := fdec f false va
  let b := fdec f false vb
  let fl : FFlags := if a.isSnan || b.isSnan then fNV else 0
  if a.isNan && b.isNan then (canonNaN f, fl)
  else if a.isNan then (vb, fl)
  else if b.isNan then (va, fl)
  else (if wantMax then (if fless a b then vb else va) else (if fless b a then vb else va), fl)

/-- feq, flt, fle (R94): 0 eq, 1 lt, 2 le. -/
def frel (op : Nat) (a b : FVal) : Bool × FFlags :=
  let fl : FFlags := if op = 0 then (if a.isSnan || b.isSnan then fNV else 0) else if a.isNan || b.isNan then fNV else 0
  (match fcmp a b with
   | some .eq => decide (op ≠ 1)
   | some .lt => decide (op ≠ 0)
   | _ => false, fl)

/-- fclass (R95). -/
def fclassOf (f v : Nat) : Nat :=
  let neg := bit v (ebits f + fbits f)
  match fdec f false v with
  | .nan true => 2 ^ 8
  | .nan false => 2 ^ 9
  | .inf n => if n then 2 ^ 0 else 2 ^ 7
  | .num _ 0 _ _ => if neg then 2 ^ 3 else 2 ^ 4
  | .num _ _ _ _ => if isSub f v then (if neg then 2 ^ 2 else 2 ^ 5) else if neg then 2 ^ 1 else 2 ^ 6

/-- Rounds to an integer under a mode: the integer and whether it is exact; none for NaN and infinities. -/
def roundInt (mode : BitVec 2) : FVal → Option (Int × Bool)
  | .num n m e t => let (k, x) := roundAt mode n m e t 0; some (if n then -(k : Int) else k, x)
  | _ => none

/-- Conversion to an integer in lo..hi (R96). -/
def toInt (mode : BitVec 2) (lo hi : Int) (x : FVal) : Int × FFlags :=
  match x with
  | .nan _ => (hi, fNV)
  | .inf n => (if n then lo else hi, fNV)
  | .num n m e t =>
    let (k, exact) := roundAt mode n m e t 0
    let v : Int := if n then -(k : Int) else k
    if v < lo then (lo, fNV) else if hi < v then (hi, fNV) else (v, if exact then 0 else fNX)

/-- An integer as an exact value. -/
def ofInt (i : Int) : FVal := .num (decide (i < 0)) i.natAbs 0 false

/-- The NaN flag of a conversion (R96, R210). -/
def snanFlag (x : FVal) : FFlags := if x.isSnan then fNV else 0

/-! ### 2^a and log2 a, correctly rounded (R223): 192-bit and 320-bit fixed point, far beyond the nearest midpoint -/

/-- ln 2 · 2^192, rounded down. -/
def ln2fix : Nat := 0xB17217F7D1CF79ABC9E3B39803F2F6AF40F343267298B62D

/-- Σ y^k/k! from term k on, at 192 bits. -/
def expSum (y : Nat) : Nat → Nat → Nat → Nat
  | 0, _, _ => 0
  | n + 1, k, t => t + expSum y n (k + 1) (t * y / 2 ^ 192 / (k + 1))

def fexp2 (a : FVal) : FVal × FFlags :=
  match a with
  | .nan b => nanOf [.nan b]
  | .inf n => if n then (.num false 0 0 false, 0) else (.inf false, 0)
  | .num _ 0 _ _ => (.num false 1 0 false, 0)
  | .num n m e _ =>
    if (10 : Int) < Nat.log2 m + e then (.num false (2 ^ 100) (if n then -3000 else 3000) true, 0)
    else
      let t : Int := if 0 ≤ e + 192 then (m * p2 (e + 192) : Nat) else (m / p2 (-(e + 192)) : Nat)
      let t := if n then -t else t
      let i := t / (2 ^ 192 : Nat)
      let fr := (t % (2 ^ 192 : Nat)).toNat
      if fr = 0 then (.num false 1 i false, 0)
      else (.num false (expSum (fr * ln2fix / 2 ^ 192) 60 0 (2 ^ 192)) (i - 192) true, 0)

/-- n more bits of log2 z, z in [1, 2) at 320 bits. -/
def logBits : Nat → Nat → Nat → Nat
  | 0, _, r => r
  | n + 1, z, r =>
    let q := z * z / 2 ^ 320
    if 2 ^ 321 ≤ q then logBits n (q / 2) (2 * r + 1) else logBits n q (2 * r)

def flog2 (a : FVal) : FVal × FFlags :=
  match a with
  | .nan b => nanOf [.nan b]
  | .inf n => if n then (.nan false, fNV) else (.inf false, 0)
  | .num _ 0 _ _ => (.inf true, fDZ)
  | .num n m e _ =>
    if n then (.nan false, fNV) else
    let l := Nat.log2 m
    let i : Int := l + e
    if m = 2 ^ l then (.num (decide (i < 0)) i.natAbs 0 false, 0)
    else
      let v : Int := i * (2 ^ 120 : Nat) + (logBits 120 (m * 2 ^ (320 - l)) 0 : Nat)
      if v < 0 then (.num true (v.natAbs - 1) (-120) true, 0) else (.num false v.toNat (-120) true, 0)

/-! ### Q4X (R205, R206) -/

/-- A 4-bit two's-complement code. -/
def sext4 (c : Nat) : Int := if 8 ≤ c % 16 then (c % 16 : Int) - 16 else (c % 16 : Int)

/-- Element j of a quad held in a 16-bit number. -/
def q4xElem (quad j : Nat) : FVal :=
  if quad % 16 = 8 then
    (if j = 0 then fdec 8 false (quad / 256) else if j = 1 then ofInt (sext4 (quad / 16)) else .num false 0 0 false)
  else ofInt (sext4 (quad / 16 ^ j))

def clampI (lo hi : Int) (x : Int) : Int × FFlags := if x < lo then (lo, fNV) else if hi < x then (hi, fNV) else (x, 0)

/-- An integer rounding with its flags: NaN gives 0 with NV; an infinity is beyond every limit. -/
def q4xInt (mode : BitVec 2) (x : FVal) : Int × FFlags :=
  match x with
  | .nan _ => (0, fNV)
  | .inf n => (if n then -1000000 else 1000000, 0)
  | .num n m e t => let (k, ex) := roundAt mode n m e t 0; (if n then -(k : Int) else k, if ex then 0 else fNX)

/-- The 16 bits of a quad (R206): every source is rounded to an integer first, a NaN to 0; a NaN in the first slot takes the
outlier slot where the later slots are zero, and gives 0x7F there; the roundings' flags are raised whether or not the outlier
replaces the first code (log 16, DEDUCED). -/
def q4xQuad (mode : BitVec 2) (x0 x1 x2 x3 : FVal) : Nat × FFlags :=
  let n0 := q4xInt mode x0
  let n1 := q4xInt mode x1
  let n2 := q4xInt mode x2
  let n3 := q4xInt mode x3
  let c1 := clampI (-8) 7 n1.1
  let nib (i : Int) : Nat := (i % 16).toNat
  if -7 ≤ n0.1 ∧ n0.1 ≤ 7 ∧ ¬(x0.isNan = true ∧ n2.1 = 0 ∧ n3.1 = 0) then
    let c2 := clampI (-8) 7 n2.1
    let c3 := clampI (-8) 7 n3.1
    (nib n0.1 + 16 * nib c1.1 + 256 * nib c2.1 + 4096 * nib c3.1,
      n0.2 ||| n1.2 ||| n2.2 ||| n3.2 ||| c1.2 ||| c2.2 ||| c3.2)
  else if n2.1 = 0 ∧ n3.1 = 0 then
    let o := fround 8 mode false false x0
    (8 + 16 * nib c1.1 + 256 * (o.1 % 16) + 4096 * (o.1 / 16 % 16), n0.2 ||| n1.2 ||| n2.2 ||| n3.2 ||| c1.2 ||| o.2)
  else
    let c0 := clampI (-7) 7 n0.1
    let c2 := clampI (-8) 7 n2.1
    let c3 := clampI (-8) 7 n3.1
    (nib c0.1 + 16 * nib c1.1 + 256 * nib c2.1 + 4096 * nib c3.1,
      n1.2 ||| n2.2 ||| n3.2 ||| c0.2 ||| c1.2 ||| c2.2 ||| c3.2 ||| n0.2)

end Sys2Proof.Machine
end

