-- ==== Sys2Proof/Machine/Flags.lean ====
section
/-! DEFINITION. The flags of sr.fcsr and the mode fields that instructions take from it (R92, R101, R208, R209). -/

namespace Sys2Proof.Machine

open Sys2Proof

noncomputable section

/-- Flags ORed into a strand's sr.fcsr. -/
def accrueTo (id : Nat) (fl : FFlags) (s : State) : State :=
  modStrand id (fun x => { x with fcsr := x.fcsr ||| fl.setWidth 8 }) s

/-- accrue (R52). -/
def accrue (fl : FFlags) (s : State) : State := accrueTo s.cur fl s

/-- sr.fcsr.rm and sr.fcsr.ftz. -/
def rmOf (x : Strand) : BitVec 2 := x.fcsr.extractLsb' 5 2
def ftzOf (x : Strand) : Bool := x.fcsr.getLsbD 7

/-- The mode of an f3 field: 111 is dynamic (R92). -/
def modeOf (x : Strand) (f3 : BitVec 3) : BitVec 2 := if f3 = 7 then rmOf x else f3.setWidth 2

/-- The format code of a FOP format field: 0 `.s`, 1 `.d`. -/
def fopFmt (f : BitVec 1) : Nat := if f = 1 then 12 else 5

/-- An operand of a FOP format as a pattern: `.s` is bits [31:0] (R92). -/
def fopPat (f : BitVec 1) (v : Word) : Nat := if f = 1 then v.toNat else v.toNat % 2 ^ 32

/-- sr.fcsr is settled for the strand: no FP32 step unevaluated, no amo.fadd.s outstanding, no vector entry that may
accrue still before acceptance (R112, R150, R193). -/
def fcsrSettled (s : State) (id : Nat) : Bool :=
  let x := strandAt s id
  x.late.all (fun l => !l.fadd) && decide (x.vents = 0)
    && (scAt s x.place (x.slot / 8)).syms.all (fun e => decide (e.2.sid ≠ id) || e.2.steps.isEmpty)

end

end Sys2Proof.Machine
end

