-- ==== Sys2Proof/Machine/Operands.lean ====
section
/-! DEFINITION. Operand forms: scalar registers and queue ports (R45, R46, R81, R88), records and effective addresses
(R52, R137 to R140), address spaces (R122 to R126, R148) and translation (R131 to R136). -/

namespace Sys2Proof.Machine

open Sys2Proof

noncomputable section

/-! ### Queue ports -/

/-- The binding of port q0 to q7 for the strand's block on its core (R284). -/
def portBind (s : State) (q : Nat) : Option PortBind :=
  (myCore s).ports.find? (fun b => decide (b.block = s.me.block ∧ b.port = q))

/-- How many data words a bound port holds: the model's own figure (log 6, DESIGN CHOICE). -/
def portDepth : Nat := 32

/-- Whether naming port code c to pop or push is misuse (R46); a test needs no direction. -/
def portMisuse (s : State) (c : Nat) (push test : Bool) : Bool :=
  let x := s.me
  if x.place ≠ x.native then true
  else if c = 27 then push || !isHub x.place
  else if 24 ≤ c then push
  else match portBind s (c - 16) with
  | none => true
  | some b => !test && decide (b.producer ≠ push)

/-- The consumer's binding of the ring that a producer port feeds. -/
def isPeer (b : PortBind) (p : PortBind) : Bool := !p.producer && decide (p.core = b.core ∧ p.hdr = b.hdr)

/-- Reservations of entries (or of places) that instructions in flight on the scalar core, or for a block's port on the core,
hold on port code c (R46). -/
def reserved (s : State) (c : Nat) (sel : Flight → List Nat) : Nat :=
  (s.strands.map (fun e =>
    match e.2.flight with
    | some f =>
      if e.2.place = s.here ∧ (if c = 25 ∨ c < 24 then e.2.block = s.me.block else e.2.slot / 8 = s.mySc) then ((sel f).filter (· == c)).length else 0
    | none => 0)).sum

/-- Entries in port code c. -/
def portCount (s : State) (c : Nat) : Nat :=
  let k := scAt s s.here s.mySc
  if c = 24 then k.q8.length
  else if c = 25 then ((myCore s).q9.filter (fun e => decide (e.2 = s.me.block))).length
  else if c = 26 then k.q10.length
  else if c = 27 then k.q11.length
  else match portBind s (c - 16) with | some b => b.words.length | none => 0

/-- Entries of port code c that no decode has reserved. -/
def portHas (s : State) (c : Nat) : Nat := portCount s c - reserved s c Flight.pops

/-- Free places of a bound producer port that no decode has reserved. -/
def portRoom (s : State) (c : Nat) : Nat :=
  match portBind s (c - 16) with
  | none => 0
  | some b => match (coreAt s b.core).ports.find? (isPeer b) with | some p => portDepth - p.words.length - reserved s c Flight.pushes | none => 0

/-- Removes the first element that satisfies p. -/
def dropFirst {α : Type} (p : α → Bool) : List α → List α
  | [] => []
  | a :: t => if p a then t else a :: dropFirst p t

/-- Pops port code c: the value, and the state after it. -/
def popPort (c : Nat) (s : State) : Word × State :=
  let k := scAt s s.here s.mySc
  if c = 24 then ((k.q8.head?.map Prod.fst).getD 0, modMySc (fun k => { k with q8 := k.q8.drop 1 }) s)
  else if c = 25 then
    let mine (e : Word × Nat) : Bool := decide (e.2 = s.me.block)
    ((((myCore s).q9.find? mine).map Prod.fst).getD 0, modCore s.here (fun k => { k with q9 := dropFirst mine k.q9 }) s)
  else if c = 26 then ((k.q10.head?.map Prod.fst).getD 0, modMySc (fun k => { k with q10 := k.q10.drop 1 }) s)
  else if c = 27 then (k.q11.head?.getD 0, modMySc (fun k => { k with q11 := k.q11.drop 1 }) s)
  else
    let mine (b : PortBind) : Bool := decide (b.block = s.me.block ∧ b.port = c - 16)
    ((((portBind s (c - 16)).bind (fun b => b.words.head?))).getD 0,
      modCore s.here (fun k => { k with ports := lmod mine (fun b => { b with words := b.words.drop 1 }) k.ports }) s)

/-- Pushes a word through a producer port to the consumer end of its ring. -/
def pushPort (c : Nat) (v : Word) (s : State) : State :=
  match portBind s (c - 16) with
  | none => s
  | some b => modCore b.core (fun k => { k with ports := lmod (isPeer b) (fun p => { p with words := p.words ++ [v] }) k.ports }) s

/-! ### Register operands -/

/-- read (R52): an s register, or a pop. -/
def rdOp (a : BitVec 5) (s : State) : Word × State :=
  if a.toNat < 16 then (regVal s.me a.toNat, s) else popPort a.toNat s

/-- write (R52): an s register, or a push. -/
def wrOp (d : BitVec 5) (v : Word) (s : State) : State := if d.toNat < 16 then wr d.toNat v s else pushPort d.toNat v s

/-- The value of a scalar register source. -/
def rv (s : State) (a : BitVec 5) : Word := regVal s.me a.toNat

/-- The first port misuse of an instruction's fields, sources first (R46, R51 step 4). -/
def misuse (ports : Bool) (srcs dsts : List Nat) (s : State) : Option Nat :=
  match srcs.find? (fun c => decide (16 ≤ c) && (!ports || portMisuse s c false false)) with
  | some c => some c
  | none => dsts.find? (fun c => decide (16 ≤ c) && (!ports || portMisuse s c true false))

/-- What parks an instruction at decode (R29, R30, R46): sources that are not full, a destination that awaits a result,
eight results outstanding, a port that cannot supply every reservation. -/
def decodePark (srcs dsts : List Nat) (late : Bool) (s : State) : Option Park :=
  let x := s.me
  let open_ := srcs.filter (fun r => decide (r < 16) && !isFull x r)
  if open_ ≠ [] then some (.regs open_)
  else match dsts.find? (fun r => decide (r < 16) && awaits x r) with
  | some r => some (.dest r)
  | none =>
    if late ∧ 8 ≤ x.late.length then some .slots
    else match srcs.find? (fun c => decide (16 ≤ c) && decide (portHas s c < (srcs.filter (· == c)).length)) with
    | some c => some (.port c (srcs.filter (· == c)).length true)
    | none => match dsts.find? (fun c => decide (16 ≤ c) && decide (portRoom s c < 1)) with
      | some c => some (.port c 1 false)
      | none => none

/-- The instruction at its decode goes on in flight, with what it has reserved (R27, R46); the cycle in which it acts is set
where it is decoded. -/
def takeOff (srcs dsts : List Nat) (s : State) : State :=
  modMe (fun x => { x with flight := some ⟨s.now, s.now, srcs.filter (16 ≤ ·), dsts.filter (16 ≤ ·), none, true, [], none⟩ }) s

/-- Steps 4 and 5 of R51, then the instruction at once. -/
def decodeNow (ports : Bool) (srcs dsts : List Nat) (late : Bool) (f : State → State) (s : State) : State :=
  match misuse ports srcs dsts s with
  | some c => raise 12 (w64 c) s
  | none => match decodePark srcs dsts late s with
    | some p => park p s
    | none => f s

/-- Steps 4 and 5 of R51, then the instruction; at its decode only it goes into flight instead. -/
def decodeOk (ports : Bool) (srcs dsts : List Nat) (late : Bool) (f : State → State) (s : State) : State :=
  decodeNow ports srcs dsts late (if s.dec then takeOff srcs dsts else f) s

/-- The words whose instructions reserve an entry at decode: of the dispatch queue (R191), the matrix queue (R194), the copy queue
(R253). -/
def vectorWord (w : Nat) : Bool := decide (0x16 ≤ bits w 6 1 ∧ bits w 6 1 ≤ 0x1A)
def matrixWord (w : Nat) : Bool := decide (bits w 6 1 = 0x1B ∨ bits w 6 1 = 0x1C)
def courierWord (w : Nat) : Bool := decide (bits w 6 1 = 0x1D ∨ (bits w 6 1 = 0x14 ∧ (bits w 29 25 = 2 ∨ bits w 29 25 = 8)))

/-- Strands of the core, or of one of its scalar cores, that have an instruction of a kind in flight with its entry reserved and not
taken yet, issued before a cycle (R191, R194, R253). -/
def reservedBy (s : State) (before : Nat) (sc : Option Nat) (p : Nat → Bool) : Nat :=
  (s.strands.filter (fun e => decide (e.1 ≠ s.cur ∧ e.2.place = s.here) && sc.all (fun q => decide (e.2.slot / 8 = q))
    && (match e.2.flight with
      | some f => f.decoded && f.back.isNone && decide (f.issued < before) && (match f.word with | some w => p w.toNat | none => false)
      | none => false))).length

/-- Entries reserved by instructions issued before the one that is looked at, which its own decode finds taken; its later stages
find the same (R191, R194, R253). -/
def flying (s : State) (sc : Option Nat) (p : Nat → Bool) : Nat := reservedBy s s.now sc p

/-- Step 3 of R51: where the instruction may run, by the place where the strand stands (R50, R308, R363, R393). -/
def allowed (i : Instr) (core caller mc : Bool) (f : State → State) (s : State) : State :=
  if (if isCore s.here then core else if isHub s.here then caller else mc) then f s else raise 2 (wordOf i) s

/-! ### Records (R137 to R140) -/

/-- The key of the record table that a strand uses: its grid, or the Caller or MC program itself. -/
def ctxKey (x : Strand) : Nat := match x.grid with | some g => g | none => 2 ^ 40 + 32 * x.native + x.nslot

def ctxOf (s : State) : Option GridCtx := tget (myCore s).ctx (ctxKey s.me)

def recBase (r : BitVec 256) : Nat := bits r.toNat 63 0
def recExtent (r : BitVec 256) : Nat := bits r.toNat 103 64
def recStride0 (r : BitVec 256) : Int := (sextN (bits r.toNat 159 128) 32).toInt
def recFmt (r : BitVec 256) : Nat := bits r.toNat 195 192
def recMode (r : BitVec 256) : Nat := bits r.toNat 197 196
def recHint (r : BitVec 256) : Nat := bits r.toNat 199 198
def recOrder (r : BitVec 256) : Nat := bits r.toNat 201 200

/-- rec(n), or the cause and value it raises (R52, R139). -/
def recAt (s : State) (n : Nat) : Except (Nat × Word) (BitVec 256) :=
  match ctxOf s with
  | none => .error (4, w64 n)
  | some c =>
    let r := (tget c.recs n).getD 0
    if bits r.toNat 127 104 ≠ 0 ∨ bits r.toNat 255 202 ≠ 0 ∨ recHint r = 3 then .error (4, w64 n) else .ok r

/-- Any instruction that names a record parks while it is loading (R168). -/
def recLoading (s : State) (n : Nat) : Bool := match ctxOf s with | some c => c.loading.contains n | none => false

/-- ea(n, off, size) (R52): a cause and value to raise, nothing (bounds mode 2), or the VA. -/
def ea (s : State) (n : Nat) (off : Word) (size : Nat) : Except (Nat × Word) (Option Word) :=
  match recAt s n with
  | .error e => .error e
  | .ok r =>
    let ext : Int := recExtent r
    let o : Int := off.toInt
    if ext < size then .error (4, off)
    else
      let fin (o : Int) : Except (Nat × Word) (Option Word) :=
        let va := BitVec.ofNat 64 (recBase r) + BitVec.ofInt 64 o
        if va.toNat % size ≠ 0 then .error (3, va) else .ok (some va)
      if o < 0 ∨ ext < o + size then
        if recMode r = 0 then .error (4, off)
        else if recMode r = 1 then fin (min (max o 0) (ext - size))
        else if recMode r = 2 then .ok none
        else if ext < o % ext + size then .error (4, BitVec.ofInt 64 (o % ext)) else fin (o % ext)
      else fin o

/-! ### Spaces (R122 to R126, R130) -/

/-- What a PA names. -/
inductive Space where
  | vault (core off : Nat)
  | pad (core off : Nat)
  | win (core w i : Nat)
  | loft (core off : Nat)
  | acc (core off : Nat)
  | hub (m off : Nat)
  | mc (off : Nat)
  | hole
  deriving DecidableEq, Repr

/-- vc.stat state of a core's vault: 0 full, 1 evacuating, 2 reduced (R351). -/
def vaultState (s : State) (core : Nat) : Nat := bits (ctlGet s (moduleOf core) (0x130008 + 16 * (core % 1024))) 1 0
def vaultCap (s : State) (core : Nat) : Nat := if vaultState s core = 2 then 0x55555400 else 2 ^ 31

/-- Elements of window w (R124). -/
def winElems (w : Nat) : Nat := match w with | 1 => 4194304 | 2 => 4194304 | 3 => 2097152 | 4 => 2097152 | 6 => 4194304 | _ => 8388608

/-- The map of R122 to R124, with a vault of cap bytes. -/
def spaceOf (cap : Nat → Nat) (pa : Nat) : Space :=
  if 2 ^ 56 ≤ pa then .mc (pa % 2 ^ 22) else
  let core := pa / 2 ^ 48 * 1024 + bits pa 40 31
  let off := pa % 2 ^ 31
  if bits pa 47 46 = 0 then (if off < cap core then .vault core off else .hole)
  else
    let w := off / 0x4000000
    if off < 0x400000 then .pad core off
    else if 1 ≤ w ∧ w ≤ 7 then (if off % 0x4000000 / 4 < winElems w then .win core w (off % 0x4000000 / 4) else .hole)
    else if 0x20000000 ≤ off ∧ off < 0x20800000 then .loft core (off - 0x20000000)
    else if 0x28000000 ≤ off ∧ off < 0x28100000 then .acc core (off - 0x28000000)
    else if 0x40000000 ≤ off ∧ off < 0x44000000 ∧ bits pa 40 31 = 0 then .hub (pa / 2 ^ 48) (off - 0x40000000)
    else .hole

/-- What a PA names now. -/
def space (s : State) (pa : Nat) : Space := spaceOf (vaultCap s) pa

/-- home(pa) (R16, R52). -/
def homeOf (pa : Nat) : Nat :=
  if 2 ^ 56 ≤ pa then mcOf ((pa - 2 ^ 56) / 2 ^ 22)
  else if bits pa 47 46 = 2 ∧ 0x40000000 ≤ pa % 2 ^ 31 then hubOf (pa / 2 ^ 48)
  else pa / 2 ^ 48 * 1024 + bits pa 40 31

/-- Kinds of access of R148. -/
inductive Acc where
  | load | store | amo | fe | watch
  deriving DecidableEq, Repr

/-- check_space (R125, R130, R148): the cause raised, if any. -/
def checkSpace (s : State) (pa size : Nat) (k : Acc) : Option Nat :=
  match space s pa with
  | .hole => some 5
  | .vault _ _ => if k = .fe then some 6 else none
  | .pad _ o =>
    if k = .watch then some 6
    else if o < 0x3E0000 then none
    else if k = .load then none else some 6
  | .win _ w _ =>
    if k = .load then (if size = 4 then none else some 6)
    else if k = .store then (if size = 4 ∧ w ≤ 4 then none else some 6)
    else some 6
  | .loft _ _ => if k = .load ∨ k = .store then none else some 6
  | .acc _ _ => if k = .load ∨ k = .store then none else some 6
  | .hub _ _ => if k = .load ∨ k = .store ∨ k = .amo then none else some 6
  | .mc _ => if k = .load ∨ k = .store ∨ k = .amo then none else some 6

/-- A range of this core's SRAM space overlaps a range lock (R167). -/
def lockedAt (s : State) (core off len : Nat) : Bool :=
  (coreAt s core).locks.any (fun l => decide (l.base < off + len ∧ off < l.base + l.len))

/-- The scale base of window 6 or 7 for an access that issued in a cycle: a change counts for those that issue after it (R99). -/
def baseAt (c : GridCtx) (w now : Nat) : BitVec 22 :=
  match c.sbWas.find? (fun e => decide (e.2.1 = w ∧ now ≤ e.1)) with
  | some e => e.2.2
  | none => if w = 6 then c.sbase6 else c.sbase7

/-- The S24 scale word's raw offset for an element of window 6 or 7, for an access that counts as issued in a cycle. Model's choice (log 23, DESIGN CHOICE): where the place keeps no
copy of the two registers for the strand's group, as under a PA carried out of the core set, every scale word is that at offset 0
of its block: the base reads zero. -/
def scaleAt (s : State) (at_ w i : Nat) : Nat :=
  (match ctxOf s with | none => 0 | some c => (baseAt c w at_).toNat) + (if w = 6 then 4 * (i / 256) else 4 * (i / 1024))

/-- Raw offset and length of the bytes that hold element i of window w, its quad included. -/
def elemAt (w i : Nat) : Nat × Nat :=
  match w with
  | 1 => (i, 1) | 2 => (i, 1) | 6 => (i, 1) | 3 => (2 * i, 2) | 4 => (2 * i, 2) | _ => (i / 4 * 2, 2)

/-- locked(pa, size): by the SRAM-space offset that the access names, of a decode window by the raw bytes that it reads or writes
at its home (R167, R213, R214). -/
def lockedFrom (s : State) (at_ pa size : Nat) : Bool :=
  match space s pa with
  | .win core w i =>
    let (o, n) := elemAt w i
    lockedAt s core o n || (decide (w = 6 ∨ w = 7) && lockedAt s core (scaleAt s at_ w i) 4)
  | _ => if 2 ^ 56 ≤ pa ∨ bits pa 47 46 = 0 then false else lockedAt s (homeOf pa) (pa % 2 ^ 31) size

/-- The same for the issuing instruction's own access. -/
def locked (s : State) (pa size : Nat) : Bool := lockedFrom s s.now pa size

/-- The scale word's raw offset lies beyond the scratchpad: the element is a hole (R124). -/
def winHole (w sc : Nat) : Bool := decide (w = 6 ∨ w = 7) && decide (0x400000 < sc + 4)
def scaleHole (s : State) (at_ pa : Nat) : Bool := match space s pa with | .win _ w i => winHole w (scaleAt s at_ w i) | _ => false

/-- An offset that a vault which moves its data will not hold any more: an access waits at its home port and is looked at anew
(R352); any other waits at the slice, in order. -/
def lostHere (s : State) (core off : Nat) : Bool := decide (vaultState s core = 1 ∧ 0x55555400 ≤ off)

/-! ### Translation (R131 to R136) -/

/-- The three outcomes of a translation: the PA, the page's policy and its win bit; a miss; a cause. -/
inductive Tr where
  | hit (pa pol : Nat) (win : Bool)
  | miss
  | fault (cause : Nat)
  deriving DecidableEq, Repr

/-- The table of slices under which a place's cluster cache and walkers stand: the Caller has its own (log 7, DESIGN CHOICE). -/
def tlbCluster (place : Nat) : Nat := if isCore place then clusterOf place else 2 ^ 20 + moduleOf place

/-- The cached entry for a VA. -/
def tlbFind (l : List TlbEntry) (asn va : Nat) : Option TlbEntry :=
  l.find? (fun e => decide (e.asn = asn ∧ e.page = va / 2 ^ e.bits))

/-- A VA is canonical (R131). -/
def vaOk (va : Nat) : Bool := decide (va / 2 ^ 56 % 256 = if bit va 55 then 255 else 0)

/-- Permission of a cached leaf for an owner and the needs of an access (R134): none when allowed. -/
def leafDenied (pte : Word) (owner : Nat) (r w x : Bool) : Bool :=
  (decide (bits pte.toNat 63 60 ≠ owner) && !pte.getLsbD 57) || (r && !pte.getLsbD 3) || (w && !pte.getLsbD 4) || (x && !pte.getLsbD 5)

/-- The PA that a leaf of a page size gives. -/
def leafPa (pte : Word) (bits_ va : Nat) : Nat := bits pte.toNat 55 13 * 2 ^ 13 / 2 ^ bits_ * 2 ^ bits_ + va % 2 ^ bits_

/-- While a core forwards, what lies in its SRAM space is reached on the core that took its state (R372). -/
def fwdPa (s : State) (pa : Nat) : Nat :=
  if 2 ^ 56 ≤ pa ∨ bits pa 47 46 = 0 ∨ isHub (homeOf pa) then pa
  else match (coreAt s (homeOf pa)).fw with
    | some (d, _) => sramBase d + pa % 2 ^ 31
    | none => pa
def fwdCore (s : State) (c : Nat) : Nat := match (coreAt s c).fw with | some (d, _) => d | none => c

/-- translate for a strand standing at a place: only the MC has a fixed mapping, its SRAM at VA 0 (log 8, DESIGN CHOICE). -/
def translateAt (s : State) (place : Nat) (asn owner : Nat) (va : Nat) (r w x : Bool) : Tr :=
  if isMc place then (if va < 2 ^ 22 then .hit (mcSram (moduleOf place) + va) 0 false else .fault 6)
  else if !vaOk va then .fault 5
  else match tlbFind (coreAt s place).tlb asn va with
  | none => .miss
  | some e =>
    if leafDenied e.pte owner r w x then .fault 6
    else .hit (fwdPa s (leafPa e.pte e.bits va)) (bits e.pte.toNat 59 58) (e.pte.getLsbD 57)

def translate (s : State) (va : Word) (r w x : Bool) : Tr :=
  translateAt s s.here s.me.asn s.me.owner va.toNat r w x

/-- A hit makes its entry the most recently used (R135). -/
def touch (place asn va : Nat) (s : State) : State :=
  match tlbFind (coreAt s place).tlb asn va with
  | none => s
  | some e => modCore place (fun c => { c with tlb := e :: dropFirst (· == e) c.tlb }) s

/-- The cycles from an instruction's issue, at which its state stands, to the decode at which its miss counts (R27, R135). -/
def missLag (s : State) (place : Nat) : Nat := if s.lag = 0 then 0 else if isMc place then 4 else 1

/-- A core-cache miss: the cluster cache fills it in 16 cycles from the decode, else a walk is joined or begun, with four walkers and a queue of 64;
a miss that finds the queue full tries again (R135). The waiter is woken by the fill, or by the fault that ends the walk. -/
def startFill (place asn root va waiter : Nat) (s : State) : State :=
  let cl := tlbCluster place
  match tlbFind (sliceAt s cl).tlb asn va with
  | some _ => sched (16 + missLag s place) (.translationFill place asn va) s
  | none =>
    match (sliceAt s cl).walks.find? (fun w => decide (w.asn = asn ∧ w.va / 65536 = va / 65536) && !w.stale) with
    | some w => modSlice cl (fun k => { k with walks := lmod (fun v => v.id == w.id) (fun v => { v with waiters := v.waiters ++ [waiter] }) k.walks }) s
    | none =>
      if 68 ≤ (sliceAt s cl).walks.length then s else
      let id := s.fresh
      let run : Bool := decide (((sliceAt s cl).walks.filter (·.started)).length < 4)
      let s := bump (modSlice cl (fun k => { k with walks := k.walks ++ [⟨id, asn, root, va, [waiter], run, 4, root, false⟩] }) s)
      if run then schedFree (.tableWalkComplete cl id) s else s

/-- Translates for the issuing strand and goes on with the PA, the page's policy and its win bit; a miss annuls and parks
(R135), a fault raises with the VA. -/
def withTr (va : Word) (r w x : Bool) (f : Nat → Nat → Bool → State → State) (s : State) : State :=
  match translate s va r w x with
  | .fault c => raise c va s
  | .hit pa pol win => f pa pol win (touch s.here s.me.asn va.toNat s)
  | .miss =>
    match s.me.walkFault with
    | some (c, v) =>
      let s := modMe (fun x => { x with walkFault := none }) s
      if v = va then raise c.toNat va s
      else startFill s.here s.me.asn s.me.root va.toNat s.cur (park (.translation va.toNat) s)
    | none => startFill s.here s.me.asn s.me.root va.toNat s.cur (park (.translation va.toNat) s)

/-- Goes on with an effective address, retires (none) or raises. -/
def withEa (n : Nat) (off : Word) (size : Nat) (none_ : State → State) (f : Word → State → State) (s : State) : State :=
  if recLoading s n then park (.record n) s
  else match ea s n off size with
  | .error (c, v) => raise c v s
  | .ok none => none_ s
  | .ok (some va) => f va s

/-- The record of a 5-bit field: b32 to b63 (R45). -/
def rec5 (n : BitVec 5) : Nat := 32 + n.toNat

/-- The order in effect: the instruction's, or the record's default (R140): 1 acquire, 2 release, 3 ordered. -/
def orderOf (s : State) (o : BitVec 2) (n : Nat) : Nat :=
  if o = 0 then (match recAt s n with | .ok r => recOrder r | .error _ => 0) else o.toNat

/-- The policy in effect, the strictest of page, suffix and hint (R140). -/
def policyOf (s : State) (page : Nat) (suffix : Nat) (n : Nat) : Nat :=
  max page (max suffix (match recAt s n with | .ok r => recHint r | .error _ => 0))

end

end Sys2Proof.Machine
end

