-- ==== Sys2Proof/Machine/Slice.lean ====
section
/-! DEFINITION. The cluster slice, the L1 and the vault (R127, R128, R144, R145, R169 to R178, R188): lines with byte
masks over DRAM, miss entries with merged writes, the write-back buffer, watches, token buckets, posted stores. -/

namespace Sys2Proof.Machine

open Sys2Proof

noncomputable section

/-! ### Bytes of lines -/

def lineByte (d : BitVec 1024) (i : Nat) : Byte := d.extractLsb' (8 * i) 8
def lineSet (d : BitVec 1024) (i : Nat) (b : Byte) : BitVec 1024 :=
  (d &&& ~~~((0xFF : BitVec 1024) <<< (8 * i))) ||| (b.setWidth 1024 <<< (8 * i))
def lineWrite (d : BitVec 1024) : Nat → List Byte → BitVec 1024
  | _, [] => d
  | i, b :: t => lineWrite (lineSet d i b) (i + 1) t
/-- A mask of n bits from bit i. -/
def span (i n : Nat) : BitVec 128 := BitVec.ofNat 128 ((2 ^ n - 1) * 2 ^ i)

/-- The bytes that DRAM would give, the write-back buffer and merged writes of pending fills before it (R171, R172). -/
def vaultByte (s : State) (k : Slice) (a : Nat) : Byte :=
  let i := a % 128
  match k.lines.find? (fun l => decide (l.line = a / 128) && l.valid.getLsbD i) with
  | some l => lineByte l.data i
  | none =>
    match k.miss.find? (fun e => decide (e.line = a / 128) && e.wmask.getLsbD i) with
    | some e => lineByte e.wdata i
    | none =>
      match k.wb.reverse.find? (fun l => decide (l.line = a / 128) && l.dirty.getLsbD i) with
      | some l => lineByte l.data i
      | none => memGet s.mem a

/-- What an access that the slice performs now reads. -/
def sliceRead (s : State) (a n : Nat) : List Byte :=
  let k := sliceAt s (clusterOf (homeOf a))
  (List.range n).map (fun i => vaultByte s k (a + i))

/-! ### DRAM pages (R127 to R129) -/

/-- The pseudo-channel of the pod and the local address of a vault byte. -/
def dramAt (s : State) (pa : Nat) : Nat × Nat :=
  let core := homeOf pa
  let o := pa % 2 ^ 31
  let g := o / 256
  let k := towerIndex core
  let drop := bits (ctlGet s (moduleOf core) (0x130008 + 16 * (core % 1024))) 3 2
  if vaultState s core = 2 then
    let j := g % 2
    (towerOf core * 96 + 3 * k + (if j < drop then j else j + 1), g / 2 * 256 + o % 256)
  else (towerOf core * 96 + 3 * k + g % 3, g / 3 * 256 + o % 256)

/-- Whether the row of a byte is open in its bank, and the state with it open (R128). -/
def pageOpen (s : State) (pa : Nat) : Bool :=
  let (ch, a) := dramAt s pa
  decide (tget s.rows (ch * 16 + bits a 13 10) = some (bits a 29 14))
def openPage (pa : Nat) (s : State) : State :=
  let (ch, a) := dramAt s pa
  { s with rows := tput s.rows (ch * 16 + bits a 13 10) (bits a 29 14) }

/-! ### Token buckets (R173, R174) -/

/-- Some bucket of a partition at the slice is below zero. -/
def inDebt (k : Slice) (p : Nat) : Bool := (List.range 4).any (fun port => decide ((vget k.buckets (4 * port + p) Bucket.reset).level < 0))

/-- The bucket that lends one token at a port: the lowest other partition at its depth that may lend. -/
def lender (k : Slice) (port p : Nat) : Option Nat :=
  (List.range 4).find? (fun q =>
    let b := vget k.buckets (4 * port + q) Bucket.reset
    decide (q ≠ p) && decide (b.level = b.depth) && !b.nolend && !inDebt k q && decide (0 < b.depth))

def takeFrom (port p : Nat) (k : Slice) : Slice :=
  let b := vget k.buckets (4 * port + p) Bucket.reset
  { k with buckets := vset k.buckets (4 * port + p) { b with level := b.level - 1 } }

/-- Takes a token for a demand or prefetch request, or borrows one; none while the request must wait. -/
def takeToken (port p : Nat) (k : Slice) : Option Slice :=
  if port = 2 ∧ inDebt k p then none
  else if 0 < (vget k.buckets (4 * port + p) Bucket.reset).level then some (takeFrom port p k)
  else match lender k port p with | some q => some (takeFrom port q k) | none => none

/-- Write-backs and refills take a token on credit, no lower than −depth. -/
def creditToken (port p : Nat) (k : Slice) : Slice :=
  let b := vget k.buckets (4 * port + p) Bucket.reset
  if b.level - 1 < -(b.depth : Int) then k else takeFrom port p k

/-- The cycle that it is, also where an instruction acts in a stage of its own (R27). -/
def realNow (s : State) : Nat := s.now + s.lag

/-- The slice has a turn in a cycle. -/
def arm (cl t : Nat) (s : State) : State :=
  if s.agenda.any (fun e => decide (e.1 ≤ t) && (match e.2 with | .tokenAccrual c => c == cl | _ => false)) then s
  else sched (t - s.now) (.tokenAccrual cl) s

/-- The next turn: in the next cycle while a bucket of the slice is below its depth, else when the first waiting request can start. -/
def accrualOn (cl : Nat) (s : State) : State :=
  let k := sliceAt s cl
  let t := realNow s + 1
  if k.buckets.toList.all (fun b => decide ((b.depth : Int) ≤ b.level)) = false then arm cl t s
  else match k.waits with
    | [] => s
    | q :: _ => arm cl (max t q.at_) s

/-- The lines of a range. -/
def linesOf (pa n : Nat) : List Nat := (List.range ((pa + n - 1) / 128 + 1 - pa / 128)).map (pa / 128 + ·)

/-- A request waits for a miss entry: one that it would join has 16, or the 64 do not have room for the lines that it opens (R171). -/
def missWaits (k : Slice) (pa n pol : Nat) : Bool :=
  let absent (l : Nat) : Bool :=
    let lo := max pa (l * 128)
    let hi := min (pa + n) (l * 128 + 128)
    !(List.range (hi - lo)).all (fun i => k.lines.any (fun o => decide (o.line = l) && o.valid.getLsbD ((lo + i) % 128)))
  let ls := if n = 0 then [] else (linesOf pa n).filter absent
  let open_ (l : Nat) : Option Miss := k.miss.find? (fun e => e.line == l)
  ls.any (fun l => match open_ l with | some e => decide (16 ≤ e.joined) | none => false)
    || (decide (pol ≠ 2) && decide (64 < k.miss.length + (ls.filter (fun l => (open_ l).isNone)).length)
      && ls.any (fun l => (open_ l).isNone))

/-- A waiting request holds back another: of its partition while it has no token, else of its home port (R170, R174; log 24). -/
def holdsBack (k : Slice) (r q : SliceReq) : Bool :=
  decide (r.port = q.port) && (if (takeToken r.port r.part k).isSome then decide (r.home = q.home) else decide (r.part = q.part))

/-- A request takes its place behind those that come to a port no later. -/
def insertReq (q : SliceReq) : List SliceReq → List SliceReq
  | [] => [q]
  | r :: t => if q.at_ < r.at_ then q :: r :: t else r :: insertReq q t

/-- A request comes to a port in its cycle at_; the slice looks at it from then on. -/
def request (cl : Nat) (q : SliceReq) (s : State) : State :=
  let s := modSlice cl (fun k => { k with waits := insertReq q k.waits }) s
  arm cl (max (max (realNow s) q.at_) (sliceAt s cl).turned) s

/-- A request of a strand's store, of an engine or of the host behind those in `ahead` takes a token and starts: not while it waits for
the requests before it, a miss entry, a token, or a vault that moves its data (R170, R171, R174, R352). -/
def startReq (cl : Nat) (ahead : List SliceReq) (q : SliceReq) (s : State) : Option State :=
  let k := sliceAt s cl
  if ahead.any (fun r => holdsBack k r q) || missWaits k q.pa q.n q.pol || decide (vaultState s q.home = 1) then none
  else (takeToken q.port q.part k).map (fun k => modSlice cl (fun _ => k) s)

/-- The cycles from the issue of a strand's scalar access to its start at the slice (R145). -/
def sliceLag : Nat := 10

/-- A bucket's tokens of n cycles (R173). -/
def accrueTokens (n : Nat) (b : Bucket) : Bucket :=
  if b.level ≥ b.depth then { b with part := 0 }
  else
    let t := b.part + n * b.rate
    let l := b.level + (t / 256 : Nat)
    if l ≥ b.depth then { b with level := b.depth, part := 0 } else { b with level := l, part := t % 256 }

/-- The buckets of a slice as they stand in this cycle (R173). -/
def bucketsNow (s : State) (cl : Nat) : Vector Bucket 16 := let k := sliceAt s cl; k.buckets.map (accrueTokens (realNow s - k.ticked))
def fillBuckets (cl : Nat) (s : State) : State := modSlice cl (fun k => { k with buckets := bucketsNow s cl, ticked := realNow s }) s

/-- The partition a strand's requests are charged to: that of its native core or Caller (R173). -/
def chargeOf (s : State) (id : Nat) : Nat := let x := strandAt s id; partitionOf s x.native (x.nslot / 8)

/-! ### Filling, writing and replacing lines -/

/-- Marks a line used. -/
def useLine (cl line : Nat) (s : State) : State :=
  modSlice cl (fun k => { k with clock := k.clock + 1, lines := lmod (fun l => l.line == line) (fun l => { l with used := k.clock }) k.lines }) s

/-- Whether the sectors of a range are all present. -/
def present (k : Slice) (a n : Nat) : Bool :=
  (List.range n).all (fun i => k.lines.any (fun l => decide (l.line = (a + i) / 128) && l.valid.getLsbD ((a + i) % 128)))

/-- The sectors (bit mask of four) that a range inside one line touches. -/
def sectorsOf (a n : Nat) : BitVec 4 :=
  BitVec.ofNat 4 ((List.range 4).foldl (fun m i => if i * 32 < a % 128 + n ∧ a % 128 < i * 32 + 32 then m + 2 ^ i else m) 0)

/-- The vault's return of what a request that starts now misses (R145). -/
def vaultReturn (s : State) (a : Nat) : Nat := s.now + if pageOpen s a then 138 else 238

/-- The pending fill of a line. -/
def missOf (k : Slice) (line : Nat) : Option Miss := k.miss.find? (fun e => e.line == line)

/-- The pending fill brings these sectors. -/
def brings (e : Miss) (a n : Nat) : Bool := decide (sectorsOf a n &&& ~~~e.sectors = 0)

/-- The refill of a line comes to its port when its last sector does (R170). -/
def refillAt (cl line t : Nat) (s : State) : State :=
  request cl ⟨1, 0, 0, t, 0, line * 128, 0, 0, .vaultFillReturn cl line, none⟩ s

/-- A request that starts now begins the fill of sectors of a line, or joins it, for the partition charged; a joined line returns
when its last sector does (R171 to R173). A line that two policies ask for keeps the streaming mark of the first (log 67, DESIGN
CHOICE). -/
def startMiss (cl a n part : Nat) (streaming : Bool) (s : State) : State :=
  let line := a / 128
  match missOf (sliceAt s cl) line with
  | some e =>
    if brings e a n then modSlice cl (fun k => { k with miss := lmod (fun e => e.line == line) (fun e => { e with joined := e.joined + 1 }) k.miss }) s
    else
      let t := max e.due (vaultReturn s a)
      let join (e : Miss) : Miss := { e with sectors := e.sectors ||| sectorsOf a n, joined := e.joined + 1, due := t }
      let here (q : SliceReq) : Bool := decide (q.port = 1 ∧ q.pa = line * 128)
      openPage a (refillAt cl line t (modSlice cl (fun k => { k with
        miss := lmod (fun e => e.line == line) join k.miss, waits := k.waits.filter (fun q => !here q) }) s))
  | none =>
    let t := vaultReturn s a
    openPage a (refillAt cl line t (modSlice cl (fun k => { k with miss := k.miss ++ [⟨line, sectorsOf a n, 0, 0, 1, streaming, part, t⟩] }) s))

/-- The cycle in which the slice has the bytes of a range of one line that a request reads now: at once on a hit, with the pending fill
that brings them, else with the vault's return. -/
def dataAt (s : State) (cl a n : Nat) : Nat :=
  let k := sliceAt s cl
  if present k a n then s.now
  else match missOf k (a / 128) with
    | some e => if brings e a n then max s.now e.due else vaultReturn s a
    | none => vaultReturn s a

/-- Writes the dirty bytes of a line to DRAM, whose row is open then (R128). -/
def writeBack (l : SLine) (s : State) : State :=
  if l.dirty = 0 then s
  else openPage (l.line * 128)
    { s with mem := (List.range 128).foldl (fun m i => if l.dirty.getLsbD i then memPut m (l.line * 128 + i) (lineByte l.data i) else m) s.mem }

/-- The line that a full set gives up: streaming lines first, then the least recently used (R169). -/
def victim (k : Slice) (set : Nat) : Option SLine :=
  let ways := k.lines.filter (fun l => decide (l.line % 8192 = set))
  if ways.length < 16 then none
  else
    let pool := if ways.any (·.streaming) then ways.filter (·.streaming) else ways
    pool.foldl (fun o l => match o with | none => some l | some b => if l.used < b.used then some l else o) none

/-- Makes room for a line: a dirty victim goes to the write-back buffer, charged to the partition that caused it (R173); none when
the buffer is full. -/
def makeRoom (cl line p : Nat) (s : State) : Option State :=
  let k := sliceAt s cl
  if k.lines.any (fun l => l.line == line) then some s else
  match victim k (line % 8192) with
  | none => some s
  | some v =>
    if v.dirty = 0 then some (modSlice cl (fun k => { k with lines := k.lines.filter (· != v) }) s)
    else if 16 ≤ k.wb.length then none
    else
      let s := modSlice cl (fun k => creditToken 0 p { k with lines := k.lines.filter (· != v), wb := k.wb ++ [v] }) s
      some (request cl ⟨0, p, 0, realNow s + Config.freeDelay s.oracle, 0, 0, 0, 0, .writeBackDrain cl, none⟩ { s with oracle := s.oracle + 1 })

/-- A write that the slice performs for a partition: into a present sector, merged with a fill, or around the slice (R172). own: its
request holds the miss entry already, as an atomic's does (R150, R171). -/
def sliceWriteSector (own : Bool) (a : Nat) (bs : List Byte) (pol part : Nat) (s : State) : State :=
  let cl := clusterOf (homeOf a)
  let k := sliceAt s cl
  let i := a % 128
  let m := span i bs.length
  if k.lines.any (fun l => decide (l.line = a / 128) && l.valid.getLsbD i) then
    let put (l : SLine) : SLine := { l with data := lineWrite l.data i bs, dirty := l.dirty ||| m }
    useLine cl (a / 128) (modSlice cl (fun k => { k with lines := lmod (fun l => l.line == a / 128) put k.lines }) s)
  else if pol ≠ 2 ∨ k.miss.any (fun e => decide (e.line = a / 128) && e.sectors.getLsbD (i / 32)) then
    let merge (e : Miss) : Miss := { e with wmask := e.wmask ||| m, wdata := lineWrite e.wdata i bs }
    let held : Bool := own && (missOf k (a / 128)).any (fun e => brings e a bs.length)
    modSlice cl (fun k => { k with miss := lmod (fun e => e.line == a / 128) merge k.miss })
      (if held then s else startMiss cl a bs.length part (decide (pol = 1)) s)
  else
    let s := (k.wb.filter (fun l => l.line == a / 128)).foldl (fun s l => writeBack l s) s
    pokeBytes a bs (openPage a (modSlice cl (fun k => { k with wb := k.wb.filter (fun l => l.line != a / 128) }) s))

/-- A range cut at 32-byte granules: address, offset and bytes of each part (R176). -/
def granules : Nat → Nat → List Byte → List (Nat × List Byte)
  | 0, _, _ => []
  | f + 1, a, bs => if bs.isEmpty then [] else let n := 32 - a % 32; (a, bs.take n) :: granules f (a + n) (bs.drop n)

def sliceWrite (own : Bool) (a : Nat) (bs : List Byte) (pol part : Nat) (s : State) : State :=
  (granules (bs.length + 1) a bs).foldl (fun s g => sliceWriteSector own g.1 g.2 pol part s) s

/-! ### L1 (R17, R147, R158, R178, R188) -/

/-- Invalidates the L1 of a core; refills in flight are not installed. -/
def invalL1 (c : Nat) (s : State) : State := modCore c (fun k => { k with l1 := [], refills := [] }) s

/-- Invalidates lines of a range. -/
def invalL1Range (c a n : Nat) (s : State) : State :=
  let out (l : L1Line) : Bool := !decide (a / 128 ≤ l.line ∧ l.line ≤ (a + n - 1) / 128)
  modCore c (fun k => { k with l1 := k.l1.filter out, refills := k.refills.filter (fun r => out r.2) }) s

/-- A strand store enters the home port: the L1 line is updated, a refill of it in flight is dropped. -/
def l1Store (c a : Nat) (bs : List Byte) (s : State) : State :=
  modCore c (fun k => { k with
    l1 := lmod (fun l => decide (l.line = a / 128)) (fun l => { l with data := lineWrite l.data (a % 128) bs }) k.l1
    refills := k.refills.filter (fun r => r.2.line != a / 128) }) s

def l1Find (s : State) (c a : Nat) : Option L1Line := (coreAt s c).l1.find? (fun l => decide (l.line = a / 128))

/-- A load that misses the L1 under normal policy has a refill of its line in flight from its entry on: a store or an atomic that enters
behind it finds it there (R178). -/
def l1Refill (c tag a pol : Nat) (s : State) : State :=
  if pol = 0 then modCore c (fun k => { k with refills := k.refills ++ [(tag, ⟨a / 128, 0⟩)] }) s else s

/-- The refill of a load's line, installed when the load returns, unless it carries poison (R178, R188). The capacity is
that of R17, in lines of 128 bytes (log 5, DESIGN CHOICE). -/
def installL1 (c tag : Nat) (s : State) : State :=
  match (coreAt s c).refills.find? (fun r => r.1 == tag) with
  | none => s
  | some (_, l) =>
    let s := modCore c (fun k => { k with refills := k.refills.filter (fun r => r.1 != tag) }) s
    if poisoned s (l.line * 128) 128 then s
    else modCore c (fun k => { k with l1 := (l :: k.l1.filter (fun o => o.line != l.line)).take 12288 }) s

/-! ### Watches (R154, R155) -/

def watchCond (c : Nat) (m v : Word) : Bool :=
  match c with
  | 0 => decide (m = v)
  | 1 => decide (m ≠ v)
  | 2 => decide (m.toInt < v.toInt)
  | 3 => decide (v.toInt ≤ m.toInt)
  | 4 => decide (m.toNat < v.toNat)
  | _ => decide (v.toNat ≤ m.toNat)

def word64 (bs : List Byte) : Word := w64 (leNat bs)

/-- The entry of a watch whose word reads m, before it has a deadline. -/
def watchOf (a : VAcc) (m : Word) : Watch :=
  let (c, v, k) : Nat × BitVec 5 × BitVec 1 := match a.instr with
    | .watchEq _ _ _ v k => (0, v, k)
    | .watchNe _ _ _ v k => (1, v, k)
    | .watchLt _ _ _ v k => (2, v, k)
    | .watchGe _ _ _ v k => (3, v, k)
    | .watchLtu _ _ _ v k => (4, v, k)
    | .watchGeu _ _ _ v k => (5, v, k)
    | _ => (0, 0, 0)
  ⟨a.tag, a.sid, homeOf a.pa, a.pa, c, a.a, v.toNat, none, m, decide (a.mode = 1 ∨ a.mode = 3), k, false⟩

/-- A watch retires: sv is written, the strand is ready 2 cycles later. With acquire it waits as `fence.acq` does for the strand's
outstanding results, and then the L1 of its core is invalidated (R154, R158). -/
def watchFinish (cl : Nat) (w : Watch) (m : Word) (s : State) : State :=
  let s := modSlice cl (fun k => { k with watches := k.watches.filter (fun v => v.id != w.id) }) s
  let x := strandAt s w.sid
  let s := modStrand w.sid (fun x => { setReg w.sv m x with park := none, pc := x.pc + 4, readyAt := max x.readyAt (s.now + 2) }) s
  if w.acq ∧ x.late ≠ [] then modStrand w.sid (fun x => { x with park := some (.acq false w.k) }) s
  else
    let s := if w.acq then invalL1 x.place s else s
    if w.k = 1 ∧ settled s w.sid = false then modStrand w.sid (fun x => { x with park := some .kbit }) s else s

/-- Queued watches take free table entries in arrival order; each is looked at on the word's present value as it enters (R155). -/
def admitFuel (cl : Nat) : Nat → State → State
  | 0, s => s
  | n + 1, s =>
    let k := sliceAt s cl
    if (k.watches.filter (fun w => !w.queued)).length < 64 then
      match k.watches.find? (·.queued) with
      | some w =>
        let m := word64 (sliceRead s w.pa 8)
        let s := modSlice cl (fun k => { k with watches := lmod (fun v => v.id == w.id) (fun v => { v with queued := false, last := m }) k.watches }) s
        admitFuel cl n (if watchCond w.cond m w.want then watchFinish cl w m s else s)
      | none => s
    else s
def admitWatches (cl : Nat) (s : State) : State := admitFuel cl (sliceAt s cl).watches.length s

/-- Every write that the slice performs re-evaluates the watches of its words (R154). -/
def reWatch (a n : Nat) (s : State) : State :=
  let cl := clusterOf (homeOf a)
  ((sliceAt s cl).watches.filter (fun w => decide (w.pa < a + n ∧ a < w.pa + 8))).foldl (fun s w =>
    let m := word64 (sliceRead s w.pa 8)
    if !w.queued && watchCond w.cond m w.want then admitWatches cl (watchFinish cl w m s)
    else modSlice cl (fun k => { k with watches := lmod (fun v => v.id == w.id) (fun v => { v with last := m }) k.watches }) s) s

/-- A write performed at the slice, its watches looked at after it. -/
def sliceStore (a : Nat) (bs : List Byte) (pol part : Nat) (s : State) : State := reWatch a bs.length (sliceWrite false a bs pol part s)
/-- An atomic's write, in the step of its read (R150). -/
def sliceUpdate (a : Nat) (bs : List Byte) (pol part : Nat) (s : State) : State := reWatch a bs.length (sliceWrite true a bs pol part s)

/-! ### Posted stores (R144, R145, R180) -/

/-- Posts a store of some strand at a home port, which it enters in this cycle; the slice performs it from a cycle on. A poisoned granule
goes out of the L1, which holds no poison (R188). -/
def postAt (sid pa : Nat) (bs : List Byte) (pol at_ : Nat) (bad : List Nat) (s : State) : State :=
  let home := homeOf pa
  let id := s.fresh
  let s := bump { s with stores := s.stores ++ [⟨id, sid, home, pa, bs, pol, bad⟩] }
  let s := if bad.isEmpty then l1Store home pa bs s else invalL1Range home pa bs.length s
  request (clusterOf home) ⟨2, chargeOf s sid, home, at_, 0, pa, bs.length, pol, .storeAccepted id, none⟩
    (modIf sid (fun x => { x with posted := x.posted + 1 }) s)

/-- Posts a strand's store; the slice performs it 10 cycles after issue. -/
def postStore (pa : Nat) (bs : List Byte) (pol : Nat) (s : State) : State := postAt s.cur pa bs pol (s.now + sliceLag) [] s

/-- Performs one posted store now, and sends its acknowledgement (R145: 4 cycles). -/
def performStore (p : PStore) (s : State) : State :=
  let s := sliceStore p.pa p.bytes p.policy (chargeOf s p.sid) { s with stores := s.stores.filter (fun q => q.id != p.id) }
  sched 4 (.storeAck (ackFrom (homeOf p.pa) p.place) p.sid) (p.bad.foldl (fun s g => setPoison g s) s)

/-! ### Demand reads -/

/-- The request of a strand's access to a vault range, from a cycle on (R145). -/
def accReq (a : VAcc) (at_ : Nat) (s : State) : SliceReq := ⟨2, chargeOf s a.sid, homeOf a.pa, at_, 0, a.pa, a.size, a.pol, .tokenAccrual 0, some a⟩

/-- The cycle in which a read that starts now returns: 12 cycles after the slice has its bytes (R145); what it fills begins. -/
def readReturn (a : VAcc) (s : State) : Nat × State :=
  let cl := clusterOf (homeOf a.pa)
  (dataAt s cl a.pa a.size + 12,
    if present (sliceAt s cl) a.pa a.size then useLine cl (a.pa / 128) s
    else if a.pol = 2 ∧ (missOf (sliceAt s cl) (a.pa / 128)).isNone then openPage a.pa s
    else startMiss cl a.pa a.size (chargeOf s a.sid) (decide (a.pol = 1)) s)

/-- A load that the slice performs now (R172): the value as the access meets it, and its return. The bytes of its L1 refill are those
of this moment; a line with poison has none (R178, R188). -/
def performLoad (a : VAcc) (signed : List Byte → Word) (s : State) : State :=
  let home := homeOf a.pa
  let line := sliceRead s (a.pa / 128 * 128) 128
  let v : LateValue := ⟨a.tag, signed (sliceRead s a.pa a.size), poisoned s a.pa a.size, 0⟩
  let s := if poisoned s (a.pa / 128 * 128) 128 then modCore home (fun k => { k with refills := k.refills.filter (fun r => r.1 != a.tag) }) s
    else modCore home (fun k => { k with refills := lmod (fun r => r.1 == a.tag) (fun r => (r.1, { r.2 with data := lineWrite 0 0 line })) k.refills }) s
  let r := readReturn a s
  sched (r.1 - s.now) (.lateResultReturn home a.sid v) r.2

/-- An access to the vault by the issuing strand enters its home port; the slice performs it when its request starts, 10 cycles after the
issue where nothing is in its way (R144, R145, R175). -/
def vaultAccess (a : VAcc) (s : State) : State := request (clusterOf (homeOf a.pa)) (accReq a (s.now + sliceLag) s) s

/-- An atomic of the strand that no slice has performed yet (R158). -/
def atomicWaits (s : State) (id : Nat) : Bool :=
  s.slices.any (fun k => k.2.waits.any (fun q => q.acc.any (fun a => decide (a.kind = .amo ∧ a.sid = id))))

end

end Sys2Proof.Machine
end

