-- ==== Sys2Proof/Machine/Transit.lean ====
section
/-! DEFINITION. Travel and meetings as operations: departure conditions (R34, R55), the packet (R36, R62), boundaries and
pod links (R67, R68, R336, R349), slots (R32, R33), the meeting table (R69 to R76). -/

namespace Sys2Proof.Machine

open Sys2Proof

noncomputable section

/-! ### Pairs -/

/-- A change of a strand and, where it is one of a pair, of its partner (R378, R379). -/
def modPair (id : Nat) (f : Strand → Strand) (s : State) : State :=
  match (strandAt s id).partner with | some p => modIf p f (modStrand id f s) | none => modStrand id f s

/-! ### Meetings -/

/-- The meeting-table entry that a strand is party to, where it stands. -/
def meetOf (s : State) (id : Nat) : Option MeetEntry :=
  (coreAt s (strandAt s id).place).meets.find? (fun e => decide (e.a = some id ∨ e.b = some id))

/-- The other party of an entry. -/
def otherOf (e : MeetEntry) (id : Nat) : Option Nat := if e.a = some id then e.b else e.a

/-- met() (R73): the partner while the entry is met. -/
def partnerOf (s : State) (id : Nat) : Option Nat :=
  match meetOf s id with
  | some e => if e.st = .met then otherOf e id else none
  | none => none

def modMeet (place id : Nat) (f : MeetEntry → MeetEntry) (s : State) : State :=
  modCore place (fun c => { c with meets := lmod (fun e => e.id == id) f c.meets }) s
def dropMeet (place id : Nat) (s : State) : State :=
  modCore place (fun c => { c with meets := c.meets.filter (fun e => e.id != id) }) s

/-- A `meet` retires with a status; the strand may issue d cycles later at the earliest. Its `.l` sources become empty (R70, R72). -/
def retireMeet (id status d : Nat) (s : State) : State :=
  match (strandAt s id).meetOp with
  | none => s
  | some m =>
    let s := modPair id (fun x =>
      let y := setReg m.sd (w64 status) { x with park := none, meetOp := none, readyAt := max x.readyAt (s.now + d) }
      m.drop.foldl (fun x r => setRst r .empty x) y) s
    if m.k = 1 ∧ settled s id = false then modStrand id (fun x => { x with park := some .kbit }) s else s

/-- The table has decided a status: the `meet` retires ten cycles later (R72). -/
def decideMeet (id status : Nat) (s : State) : State :=
  sched 10 (.parkWake id) (modPair id (fun x => { x with meetOp := x.meetOp.map (fun m => { m with decided := some status }) }) s)

/-- Every pending meeting read between the parties of an entry completes: with the value of a full register, else with 0
and sr.status.pvoid (R75). -/
def finishReads (place : Nat) (e : MeetEntry) (s : State) : State :=
  let mine (r : MeetRead) : Bool := decide (e.a = some r.reader ∨ e.b = some r.reader)
  let s1 := ((coreAt s place).reads.filter mine).foldl (fun s r =>
    let y := strandAt s r.owner
    if isFull y r.reg then sched 0 (.lateResultReturn place r.reader ⟨r.tag, regVal y r.reg, false, 0⟩) s
    else sched 0 (.lateResultReturn place r.reader ⟨r.tag, 0, false, 0⟩) (modStrand r.reader (setStatusBit 3 true) s)) s
  modCore place (fun c => { c with reads := c.reads.filter (fun r => !mine r) }) s1

/-- How a party leaves a meeting (R71). -/
inductive Leave where
  | parted | evicted | killed
  deriving DecidableEq, Repr

/-- Part, departure, eviction or kill of one party (R71). -/
def leaveMeeting (id : Nat) (how : Leave) (s : State) : State :=
  let p := (strandAt s id).place
  match meetOf s id with
  | none => s
  | some e =>
    match e.st with
    | .met => modMeet p e.id (fun e => { e with st := .closing, a := otherOf e id, b := none }) (finishReads p e s)
    | .closing => dropMeet p e.id s
    | .pairing =>
      let s := dropMeet p e.id s
      match otherOf e id with | some o => decideMeet o 3 s | none => s
    | .waiting =>
      if how = .killed then modMeet p e.id (fun e => { e with st := .lost, a := none }) s else dropMeet p e.id s
    | .lost => s

/-- A strand's arrival at the meeting table (R71), with the pair's group and key. -/
def meetArrive (id : Nat) (s : State) : State :=
  let x := strandAt s id
  match x.meetOp with
  | none => s
  | some m =>
    let p := x.place
    let grp := match x.grid with | some g => g | none => 2 ^ 40 + x.owner
    match (coreAt s p).meets.find? (fun e => decide (e.group = grp ∧ e.key = m.key) && decide (e.st = .waiting ∨ e.st = .lost)) with
    | some e =>
      if e.st = .lost then decideMeet id 3 (dropMeet p e.id s)
      else sched 10 (.meetingPaired p e.id) (modMeet p e.id (fun e => { e with st := .pairing, b := some id, deadline := none }) s)
    | none =>
      if 16 ≤ (coreAt s p).meets.length then decideMeet id 2 s
      else
        let n := s.fresh
        let dl := if m.timeout = 0 then none else some (s.now + m.timeout)
        let s := bump (modCore p (fun c => { c with meets := c.meets ++ [⟨n, grp, m.key, .waiting, some id, none, dl⟩] }) s)
        if m.timeout = 0 then s else sched m.timeout (.meetingExpiry p n) s

/-! ### Routes -/

/-- A packet moving along x in row y of a module leaves a boundary port (R335, R336). -/
def crossesX (s : State) (m y x0 x1 : Nat) : Bool :=
  (List.range 16).any (fun x =>
    (decide (x0 ≤ x ∧ x < x1) && bit (rtCfg s (m * 256 + 16 * y + x)) 4)
    || (decide (x1 < x ∧ x ≤ x0) && bit (rtCfg s (m * 256 + 16 * y + x)) 5))

/-- A route from a to b passes a partition boundary or a pod link. -/
def crosses (s : State) (a b : Nat) : Bool :=
  decide (moduleOf a ≠ moduleOf b) || (isCore a && isCore b && crossesX s (moduleOf a) (yOf a) (xOf a) (xOf b))

/-- The first open window entry of the home's router that admits an access of an owner, as 8·cluster + index (R345, R346). -/
def admitEntry (s : State) (owner pa n : Nat) (r w : Bool) : Option Nat :=
  let cl := clusterOf (homeOf pa)
  ((List.range 8).find? (fun i =>
    let at_ := 0x120000 + 0x100 * (cl % 256) + 0x10 * i
    let d := ctlGet s (cl / 256) at_
    let base := bits d 55 16 * 65536
    decide (bits d 1 0 = 1 ∧ bits d 63 60 = owner ∧ base ≤ pa ∧ pa + n ≤ base + bits (ctlGet s (cl / 256) (at_ + 8)) 23 0 * 65536)
      && (!r || bit d 56) && (!w || bit d 57))).map (8 * cl + ·)

/-- An open window admits the access. -/
def windowAdmits (s : State) (owner pa n : Nat) (r w : Bool) : Bool := (admitEntry s owner pa n r w).isSome

/-- Whether a packet from a to b stops within its module, at a boundary that it may not cross (R67, R336). What it may not cross between
modules it meets at its hub. -/
def stopsAt (s : State) (a b : Nat) (win exempt : Bool) : Bool :=
  !exempt && !win && decide (moduleOf a = moduleOf b) && isCore a && isCore b && crossesX s (moduleOf a) (yOf a) (xOf a) (xOf b)

/-- Whether a courier's packet is stopped on the way out, where a strand's would be (R257). -/
def pieceStops (s : State) (a b : Nat) (win : Bool) : Bool := stopsAt s a b win false

/-- The Caller scalar core in whose quarter of the hub SRAM an address lies. -/
def hubQuarter (pa : Nat) : Option Nat := if isHub (homeOf pa) then some (pa % 2 ^ 26 / 2 ^ 24) else none

/-- A courier's packet with these bytes leaves a for b, where it is an event after d cycles; or it is stopped on its way, and back
at the core that issued it after as many (R257, R349; log 26). -/
def courierGo (f : Frame) (id d : Nat) (s : State) : State :=
  if pieceStops s f.src f.dest f.win then sched d (.boundaryStop id) s else sendOff f id (hubWay f.src) d s

/-! ### Departure -/

/-- R34, R55, R181 for a strand: every register full, posted stores accepted, vector memory entered. -/
def canDepart (s : State) (id : Nat) : Bool :=
  let x := strandAt s id
  (List.range 16).all (fun r => isFull x r) && decide (x.posted = 0) && decide (x.gives = 0) && decide (x.vmems = 0)
    && x.cmp.isEmpty && fcsrSettled s id

/-- The offsets in a range of the first and last byte of each poisoned granule that it takes bytes from. -/
def badGranules (s : State) (a n : Nat) : List Nat :=
  ((s.poison.filter (fun g => decide (g * 32 < a + n ∧ a < g * 32 + 32))).flatMap (fun g =>
    [g * 32 - a, min (n - 1) (g * 32 + 31 - a)])).eraseDups

/-- The packet of a strand as it lies in its flits (R39): the header, a pair's or a strand's register flits, the luggage. -/
def headerNat (x : Strand) (len : Nat) : Nat :=
  let st (r : Nat) : Nat := if isFull x r then 0 else 1
  ((List.range 16).map (fun r => st r * 2 ^ (474 + 2 * r))).sum + len % 2 ^ 13 * 2 ^ 461 + x.link.depth % 32 * 2 ^ 456
    + x.link.ctr % 2 ^ 56 * 2 ^ 400 + x.link.seq % 2 ^ 16 * 2 ^ 384 + x.link.index % 64 * 2 ^ 378 + x.link.core % 2 ^ 18 * 2 ^ 360
    + b2n x.link.valid * 2 ^ 359 + x.nslot % 32 * 2 ^ 354 + x.native % 2 ^ 18 * 2 ^ 336
    + (x.owner % 16 * 2 ^ 32 + x.grid.getD 0 % 2 ^ 32) * 2 ^ 300 + x.sidx % 32 * 2 ^ 295 + x.bidx.toNat % 2 ^ 60 * 2 ^ 235
    + x.epc.toNat * 2 ^ 171 + x.wtimeout.toNat * 2 ^ 139 + x.cause.toNat * 2 ^ 133 + x.fcsr.toNat * 2 ^ 125
    + x.status.toNat % 2 ^ 12 * 2 ^ 113 + b2n x.carried.isSome * 2 ^ 112
    + (match x.carried with | some c => c.pa % 2 ^ 56 | none => 0) * 2 ^ 56 + x.pc.toNat % 2 ^ 56

def regFlits (x : Strand) : List Byte :=
  (List.range 15).flatMap (fun i => leBytes 8 (regVal x (i + 1)).toNat) ++ leBytes 8 x.tval.toNat

def packetBytes (s : State) (x : Strand) (luggage : List Byte) : List Byte :=
  let both := match x.partner.bind (tget s.strands) with | some y => regFlits y | none => []
  leBytes 64 (headerNat x luggage.length) ++ regFlits x ++ both
    ++ luggage ++ List.replicate (64 * cdiv luggage.length 64 - luggage.length) 0

/-- Cycles from the issue to the first pod link of a strand's route: the way to the hub (R68, R390). -/
def linkTime (src : Nat) : Nat := 8 + 3 * (hubLeg src).1 + 5 * (hubLeg src).2

/-- Flits of a packet beyond the three that R64 counts: a pair's packet has two more (R378). -/
def pairFlits (s : State) (sid : Nat) : Nat := if (strandAt s sid).partner.isSome then 2 else 0

/-- Where a packet's event takes it when it arrives. -/
def arrivalOf (id : Nat) (t : Trip) : Instr :=
  match t with | .evicted => .evictionReturn id | .stopped _ _ => .stoppedReturn id | _ => .strandArrival id

/-- Returns in class N1 to a reserved slot pass every boundary (R33, R67, R347; log 21). -/
def goesBack (t : Trip) : Bool := match t with | .evicted => true | .stopped _ _ => true | _ => false

/-- A Caller strand reaches only the hub SRAM of its own partition (R334). -/
def hubBarred (s : State) (x : Strand) (pa : Nat) : Bool :=
  let home := homeOf pa
  decide (x.kind = .caller) && isHub home && (decide (home ≠ hubOf (moduleOf x.native))
    || decide (partitionOf s home (pa % 2 ^ 26 / 2 ^ 24) ≠ partitionOf s x.native (x.nslot / 8)))

/-- The scalar core of a hub that a strand's packet goes to: that of its slot there, the one it prefers, or the quarter of its address. -/
def packetSc (x : Strand) (pk : Packet) : Option Nat :=
  if pk.dest = x.native then some (x.nslot / 8) else pk.pref.orElse (fun _ => x.carried.map (fun c => c.pa % 2 ^ 26 / 2 ^ 24))

/-- A strand's packet as it crosses pod links. -/
def strandFrame (s : State) (pk : Packet) (owner id : Nat) : Frame :=
  let x := strandAt s pk.sid
  { owner := owner, src := pk.src, srcSc := some (x.slot / 8), dest := pk.dest, destSc := packetSc x pk, bytes := packetBytes s x pk.luggage
    flits := 3 + cdiv pk.luggage.length 64 + pairFlits s pk.sid, win := pk.win, back := goesBack pk.trip, hop := ⟨moduleOf pk.src, 0, moduleOf pk.dest, 0⟩
    sent := none, rest := 0, what := arrivalOf id pk.trip }

/-- Sends a packet on its way: to its destination, whose core takes it three cycles before its first issue there (R64), to where
it stops, or to the first pod link of its route. -/
def launchPacket (pk : Packet) (owner : Nat) (barred : Bool) (s : State) : State :=
  let id := s.fresh
  let s1 := bump { s with packets := tput s.packets id pk }
  let t := travelTime s pk.src pk.dest (cdiv pk.luggage.length 64 + pairFlits s pk.sid)
  if barred || stopsAt s pk.src pk.dest pk.win (goesBack pk.trip) then sched (t / 2) (.boundaryStop id) s1
  else sendOff (strandFrame s1 pk owner id) id (linkTime pk.src) (t - 3) s1

/-- A travel instruction is at its commit: its decode has looked at the luggage's range (R62, R64). -/
def committing (s : State) : Bool := decide (s.lag = 3)

/-- What keeps a departure with declared luggage from happening: a range lock (R36; a raw offset has no VA for sr.tval), or inline frames at a native
destination that the luggage would run into (R271). -/
def lugFault (dest : Nat) (s : State) : Option (Nat × Word) :=
  match s.me.lug with
  | none => none
  | some (o, n) =>
    if isCore s.here && !committing s && lockedAt s s.here o n then some (7, Config.openWord s.oracle)
    else if dest = s.me.native ∧ 4096 < n + 192 * s.me.link.depth then some (9, w64 n)
    else none

/-- A strand leaves for dest with the PC it will have there (R62); its declared luggage goes with it (R36), a meeting it is
party to is parted (R55). The caller has seen that R34 holds. barred: its target is a hub SRAM that it may not reach, and it is
stopped on the way (R334). -/
def departTo (barred : Bool) (dest : Nat) (pref : Option Nat) (pa : Option Carry) (pc : Word) (trip : Trip) (k : BitVec 1) (s : State) : State :=
  let x := s.me
  let (o, n) := x.lug.getD (0, 0)
  let at_ := padAt x.place x.slot o
  match lugFault dest s with
  | some (c, v) => raise c v { s with oracle := s.oracle + 1 }
  | none =>
    let s := leaveMeeting s.cur .parted s
    let pk : Packet := {
      sid := s.cur, src := x.place, dest := dest, pref := pref, trip := trip, cls := 2,
      luggage := memRead s.mem at_ n, bad := badGranules s at_ n, epoch := (pa.map Carry.epoch).getD (coreAt s x.place).epoch, win := (pa.map Carry.win).getD false,
      truncated := false, k := k, taken := none }
    let s := modMe (fun x => setStatusBit 2 false { x with away := true, lug := none, carried := pa, pc := pc, park := none, letInBy := none }) s
    launchPacket pk x.owner (barred || (match pa with | some c => hubBarred s x c.pa | none => false)) s

def depart (dest : Nat) (pref : Option Nat) (pa : Option Carry) (pc : Word) (trip : Trip) (k : BitVec 1) (s : State) : State :=
  departTo false dest pref pa pc trip k s

/-- The id that `where` gives, and that sr.tval names for a Caller destination (R60, R61). -/
def placeId (place slot : Nat) : Nat := if isHub place then place + slot / 8 else place

/-- at_home (R65): performs the access here, raises, waits for R34 or travels with the PA. A Caller strand at its
own hub that names another partition's hub SRAM is stopped where it stands, which is its native slot (R67, R334). -/
def atHome (c : Carry) (k : BitVec 1) (op : State → State) (s : State) : State :=
  let x := s.me
  let home := homeOf c.pa
  if home = x.place then (if hubBarred s x c.pa then raise 10 (w64 home) s else op s)
  else if x.kind = .mc then raise 6 c.va s
  else if autotravel x = false then raise 18 c.va s
  else if canDepart s s.cur = false then
    modMe (fun x => { x with park := some .leave, readyAt := s.now + interval x, carried := some c }) s
  else depart home none (some c) x.pc .travel 0 s

/-! ### Slots (R32, R33) -/

/-- The strand that holds a slot, if any: it stands there, or it is the slot's native strand and away. -/
def holder (s : State) (place slot : Nat) : Option Nat :=
  (s.strands.find? (fun e => decide (e.2.place = place ∧ e.2.slot = slot) && !e.2.away)).map Prod.fst

/-- Guest slots in the order of arrivals (R32), those of a preferred scalar core before them (R56). -/
def guestOrder (pref : Option Nat) : List Nat :=
  (match pref with | some j => [8 * j + 6, 8 * j + 7] | none => []) ++ [6, 14, 22, 30, 7, 15, 23, 31]

def freeGuest (s : State) (place : Nat) (pref : Option Nat) : Option Nat := (guestOrder pref).find? (fun j => (holder s place j).isNone)

/-- The first scalar core on which both guest slots are free, for a pair (R378). -/
def freePair (s : State) (place : Nat) (pref : Option Nat) : Option Nat :=
  ((match pref with | some j => [8 * j + 6] | none => []) ++ [6, 14, 22, 30]).find? (fun j =>
    (holder s place j).isNone && (holder s place (j + 1)).isNone)

/-- The guest with the earliest arrival on a place (R33). -/
def oldestGuest (s : State) (place : Nat) : Option Nat :=
  ([6, 14, 22, 30, 7, 15, 23, 31].filterMap (holder s place)).foldl (fun o g =>
    match o with
    | none => some g
    | some b => if (strandAt s g).arrived < (strandAt s b).arrived then some g else o) none

/-- Sets bytes down as an engine or the interface does: granules covered whole lose their poison, poisoned granules that
come with the bytes are set (R36, R187). -/
def setDown (a : Nat) (bs : List Byte) (bad : List Nat) (s : State) : State :=
  let s1 := pokeBytes a bs s
  let s2 := (granules (bs.length + 1) a bs).foldl (fun s g => if g.2.length = 32 then clearPoison (g.1 / 32) s else s) s1
  bad.foldl (fun s o => setPoison ((a + o) / 32) s) s2

/-- The strand takes a slot of a place with its luggage set down on the slot's floor block (R37); it may issue three cycles
later (R64). -/
def takeSlot (id place slot : Nat) (pk : Packet) (s : State) : State :=
  let t := s.now + 3
  let s := modStrand id (fun x => { x with
    place := place, slot := slot, away := false, arrived := s.now, readyAt := t, brought := pk.luggage.length
    pc := sextN x.pc.toNat 56 }) s
  let x := strandAt s id
  let s := match x.partner with
    | none => s
    | some p => modIf p (fun y => { y with
        place := place, slot := (if place = y.native ∧ slot = x.nslot then y.nslot else slot + 1), away := false, arrived := s.now
        readyAt := t, brought := x.brought, pc := x.pc }) s
  let s := setDown (floorAt place slot) pk.luggage pk.bad s
  if pk.k = 1 ∧ settled s id = false then modStrand id (fun x => { x with park := some .kbit }) s else s

/-- Withdraws a strand from the wait lists of its place and of the slice (R33); a killed one also from the full/empty units of every
core, where an evicted guest's entries may stand (R153, R360). -/
def withdraw (id : Nat) (killed : Bool) (s : State) : State :=
  let p := (strandAt s id).place
  let s := modCore p (fun c => { c with
    joins := c.joins.filter (fun w => w.sid != id)
    bars := c.bars.filter (fun w => w.sid != id) }) s
  let s : State := if killed then { s with cores := s.cores.map (fun c => (c.1, { c.2 with fe := c.2.fe.filter (fun w => w.sid != id) })) } else s
  let asks (q : SliceReq) : Bool := q.acc.any (fun a => decide (a.kind = .watch ∧ a.sid = id))
  if isCore p then admitWatches (clusterOf p) (modSlice (clusterOf p) (fun k => { k with
    watches := k.watches.filter (fun w => w.sid != id), waits := k.waits.filter (fun q => !asks q) }) s) else s

/-- Wakes a parked strand: it may issue 2 cycles later (R29). -/
def wake (id : Nat) (s : State) : State := modStrand id (fun x => { x with park := none, readyAt := max x.readyAt (s.now + 2) }) s

end

end Sys2Proof.Machine
end

