-- ==== Sys2Proof/Machine/Scalar.lean ====
section
/-! DEFINITION. Scalar instructions: majors 0x05 to 0x0B, and get, set, cget, cset (R80 to R90, R97 to R105), with integer
folding (R110, R111). -/

namespace Sys2Proof.Machine

open Sys2Proof

noncomputable section

/-! ### Integer operations (R83) -/

/-- A two-source instruction that does not fold. -/
def alu2 (f : Word → Word → Word) (b a d : BitVec 5) (k : BitVec 1) (s : State) : State :=
  decodeOk true [a.toNat, b.toNat] [d.toNat] false (fun s =>
    let (x, s1) := rdOp a s
    let (y, s2) := rdOp b s1
    retire k (wrOp d (f x y) s2)) s

/-- A one-source instruction that does not fold. -/
def alu1 (f : Word → Word) (a d : BitVec 5) (k : BitVec 1) (s : State) : State :=
  decodeOk true [a.toNat] [d.toNat] false (fun s => let (x, s1) := rdOp a s; retire k (wrOp d (f x) s1)) s

/-- The symbol and integer expression that a register holds (R109, R110). -/
def intExpr (x : Strand) (r : BitVec 5) : Option (Nat × Word × Word) :=
  if 16 ≤ r.toNat then none else
  match regSt x r.toNat with
  | .sym e .tagged => some (e, 1, 0)
  | .sym e (.affine p q) => some (e, p, q)
  | _ => none

/-- The value of a symbol of the strand's scalar core, once it has returned (R113). -/
def sigma (s : State) (e : Nat) : Option Word := (tget (scAt s s.here s.mySc).syms e).bind SymEntry.value

/-- A decode finds the symbol's value returned: what is still over it parks, until it is full (R113). -/
def resolving (s : State) (e : Nat) : Bool := s.dec && (sigma s e).isSome

/-- Steps 4 and 5 of R51 for an instruction that folds over symbol e: at its decode it holds the entry until its writeback (R114). -/
def foldOk (e : Nat) (srcs dsts : List Nat) (f : State → State) (s : State) : State :=
  let hold (s : State) : State := modMySc (fun k => { k with syms := k.syms.map (fun t => if t.1 = e then (e, { t.2 with held := s.now + 7 }) else t) }) s
  decodeNow true srcs dsts false (if s.dec then fun s => takeOff srcs dsts (hold s) else f) s

/-- Writes p·σ + q: full with q where the scale is 0, and full where the value has returned meanwhile (R110, R114). -/
def wrExpr (d : BitVec 5) (e : Nat) (p q : Word) (s : State) : State :=
  match sigma s e with
  | some v => wrOp d (p * v + q) s
  | none => if p = 0 then wrOp d q s else modMe (setRst d.toNat (.sym e (.affine p q))) s

/-- Folding (R110): the expressions of both sources over one symbol, a full source as 0·σ + v. Folded results for queue
ports do not exist: a symbolic value cannot be pushed, so the strand parks. -/
def fold2 (g : Word × Word → Word × Word → Option (Word × Word)) (f : Word → Word → Word) (b a d : BitVec 5) (k : BitVec 1)
    (s : State) : State :=
  let x := s.me
  let ia := (intExpr x a).filter (fun t => !resolving s t.1)
  let ib := (intExpr x b).filter (fun t => !resolving s t.1)
  let plain := alu2 f b a d k s
  if 16 ≤ d.toNat then plain else
  match ia, ib with
  | none, none => plain
  | some (e, p, q), none =>
    foldOk e [b.toNat] [d.toNat] (fun s =>
      let (y, s1) := rdOp b s
      match g (p, q) (0, y) with | some (p, q) => retire k (wrExpr d e p q s1) | none => park (.regs [a.toNat]) s) s
  | none, some (e, p, q) =>
    foldOk e [a.toNat] [d.toNat] (fun s =>
      let (y, s1) := rdOp a s
      match g (0, y) (p, q) with | some (p, q) => retire k (wrExpr d e p q s1) | none => park (.regs [b.toNat]) s) s
  | some (e, p, q), some (e', p', q') =>
    if e = e' then
      match g (p, q) (p', q') with
      | some (p, q) => foldOk e [] [d.toNat] (fun s => retire k (wrExpr d e p q s)) s
      | none => plain
    else plain

def foldAdd (x y : Word × Word) : Option (Word × Word) := some (x.1 + y.1, x.2 + y.2)
def foldSub (x y : Word × Word) : Option (Word × Word) := some (x.1 - y.1, x.2 - y.2)
def foldMul (x y : Word × Word) : Option (Word × Word) :=
  if x.1 ≠ 0 ∧ y.1 ≠ 0 then none else some (x.1 * y.2 + x.2 * y.1, x.2 * y.2)

/-- An immediate instruction that folds. -/
def fold1 (g : Word × Word → Word × Word) (f : Word → Word) (a d : BitVec 5) (k : BitVec 1) (s : State) : State :=
  match (intExpr s.me a).filter (fun t => !resolving s t.1) with
  | some (e, p, q) =>
    if 16 ≤ d.toNat then alu1 f a d k s
    else foldOk e [] [d.toNat] (fun s => retire k (wrExpr d e (g (p, q)).1 (g (p, q)).2 s)) s
  | none => alu1 f a d k s

def boolW (b : Bool) : Word := if b then 1 else 0
def sltW (a b : Word) : Word := boolW (decide (a.toInt < b.toInt))
def sltuW (a b : Word) : Word := boolW (decide (a.toNat < b.toNat))
/-- The shift amount b[5:0]. -/
def sh6 (b : Word) : Nat := b.toNat % 64
def sllW (a b : Word) : Word := a <<< sh6 b
def srlW (a b : Word) : Word := a >>> sh6 b
def sraW (a b : Word) : Word := a.sshiftRight (sh6 b)
def mulhW (a b : Word) : Word := BitVec.ofInt 64 (a.toInt * b.toInt / (2 ^ 64 : Nat))
def mulhuW (a b : Word) : Word := w64 (a.toNat * b.toNat / 2 ^ 64)
/-- Division (R83): by zero gives all ones; −2^63 / −1 gives −2^63. -/
def divW (a b : Word) : Word := if b = 0 then BitVec.allOnes 64 else BitVec.ofInt 64 (a.toInt.tdiv b.toInt)
def divuW (a b : Word) : Word := if b = 0 then BitVec.allOnes 64 else w64 (a.toNat / b.toNat)
def remW (a b : Word) : Word := if b = 0 then a else BitVec.ofInt 64 (a.toInt.tmod b.toInt)
def remuW (a b : Word) : Word := if b = 0 then a else w64 (a.toNat % b.toNat)
def minW (a b : Word) : Word := if a.toInt < b.toInt then a else b
def maxW (a b : Word) : Word := if a.toInt < b.toInt then b else a
def minuW (a b : Word) : Word := if a.toNat < b.toNat then a else b
def maxuW (a b : Word) : Word := if a.toNat < b.toNat then b else a
def clzW (a : Word) : Word := if a = 0 then 64 else w64 (63 - Nat.log2 a.toNat)
def ctzW (a : Word) : Word := w64 (((List.range 64).find? (fun i => a.getLsbD i)).getD 64)
def popcW (a : Word) : Word := w64 ((List.range 64).filter (fun i => a.getLsbD i)).length

def execAdd (b a d : BitVec 5) (k : BitVec 1) (s : State) : Out := .next (fold2 foldAdd (· + ·) b a d k s)
def execSub (b a d : BitVec 5) (k : BitVec 1) (s : State) : Out := .next (fold2 foldSub (· - ·) b a d k s)
def execMul (b a d : BitVec 5) (k : BitVec 1) (s : State) : Out := .next (fold2 foldMul (· * ·) b a d k s)
def execSll (b a d : BitVec 5) (k : BitVec 1) (s : State) : Out := .next (alu2 sllW b a d k s)
def execSlt (b a d : BitVec 5) (k : BitVec 1) (s : State) : Out := .next (alu2 sltW b a d k s)
def execSltu (b a d : BitVec 5) (k : BitVec 1) (s : State) : Out := .next (alu2 sltuW b a d k s)
def execXor (b a d : BitVec 5) (k : BitVec 1) (s : State) : Out := .next (alu2 (· ^^^ ·) b a d k s)
def execSrl (b a d : BitVec 5) (k : BitVec 1) (s : State) : Out := .next (alu2 srlW b a d k s)
def execOr (b a d : BitVec 5) (k : BitVec 1) (s : State) : Out := .next (alu2 (· ||| ·) b a d k s)
def execAnd (b a d : BitVec 5) (k : BitVec 1) (s : State) : Out := .next (alu2 (· &&& ·) b a d k s)
def execSra (b a d : BitVec 5) (k : BitVec 1) (s : State) : Out := .next (alu2 sraW b a d k s)
def execMulh (b a d : BitVec 5) (k : BitVec 1) (s : State) : Out := .next (alu2 mulhW b a d k s)
def execMulhu (b a d : BitVec 5) (k : BitVec 1) (s : State) : Out := .next (alu2 mulhuW b a d k s)
def execDiv (b a d : BitVec 5) (k : BitVec 1) (s : State) : Out := .next (alu2 divW b a d k s)
def execDivu (b a d : BitVec 5) (k : BitVec 1) (s : State) : Out := .next (alu2 divuW b a d k s)
def execRem (b a d : BitVec 5) (k : BitVec 1) (s : State) : Out := .next (alu2 remW b a d k s)
def execRemu (b a d : BitVec 5) (k : BitVec 1) (s : State) : Out := .next (alu2 remuW b a d k s)
def execMin (b a d : BitVec 5) (k : BitVec 1) (s : State) : Out := .next (alu2 minW b a d k s)
def execMax (b a d : BitVec 5) (k : BitVec 1) (s : State) : Out := .next (alu2 maxW b a d k s)
def execMinu (b a d : BitVec 5) (k : BitVec 1) (s : State) : Out := .next (alu2 minuW b a d k s)
def execMaxu (b a d : BitVec 5) (k : BitVec 1) (s : State) : Out := .next (alu2 maxuW b a d k s)
def execClz (a d : BitVec 5) (k : BitVec 1) (s : State) : Out := .next (alu1 clzW a d k s)
def execCtz (a d : BitVec 5) (k : BitVec 1) (s : State) : Out := .next (alu1 ctzW a d k s)
def execPopc (a d : BitVec 5) (k : BitVec 1) (s : State) : Out := .next (alu1 popcW a d k s)
def execSextB (a d : BitVec 5) (k : BitVec 1) (s : State) : Out := .next (alu1 (fun x => sextN x.toNat 8) a d k s)
def execSextH (a d : BitVec 5) (k : BitVec 1) (s : State) : Out := .next (alu1 (fun x => sextN x.toNat 16) a d k s)
def execSextW (a d : BitVec 5) (k : BitVec 1) (s : State) : Out := .next (alu1 (fun x => sextN x.toNat 32) a d k s)
def execZextB (a d : BitVec 5) (k : BitVec 1) (s : State) : Out := .next (alu1 (fun x => zextN x.toNat 8) a d k s)
def execZextH (a d : BitVec 5) (k : BitVec 1) (s : State) : Out := .next (alu1 (fun x => zextN x.toNat 16) a d k s)
def execZextW (a d : BitVec 5) (k : BitVec 1) (s : State) : Out := .next (alu1 (fun x => zextN x.toNat 32) a d k s)

/-! ### Immediate forms (R84, R85) -/

/-- sext(imm12, 12). -/
def imm12 (i : BitVec 12) : Word := i.signExtend 64

def execAddi (i : BitVec 12) (a d : BitVec 5) (k : BitVec 1) (s : State) : Out :=
  .next (fold1 (fun x => (x.1, x.2 + imm12 i)) (· + imm12 i) a d k s)
def execSlti (i : BitVec 12) (a d : BitVec 5) (k : BitVec 1) (s : State) : Out := .next (alu1 (fun x => sltW x (imm12 i)) a d k s)
def execSltiu (i : BitVec 12) (a d : BitVec 5) (k : BitVec 1) (s : State) : Out := .next (alu1 (fun x => sltuW x (imm12 i)) a d k s)
def execXori (i : BitVec 12) (a d : BitVec 5) (k : BitVec 1) (s : State) : Out := .next (alu1 (· ^^^ imm12 i) a d k s)
def execOri (i : BitVec 12) (a d : BitVec 5) (k : BitVec 1) (s : State) : Out := .next (alu1 (· ||| imm12 i) a d k s)
def execAndi (i : BitVec 12) (a d : BitVec 5) (k : BitVec 1) (s : State) : Out := .next (alu1 (· &&& imm12 i) a d k s)
def execSlli (h : BitVec 6) (a d : BitVec 5) (k : BitVec 1) (s : State) : Out :=
  .next (fold1 (fun x => (x.1 <<< h.toNat, x.2 <<< h.toNat)) (· <<< h.toNat) a d k s)
def execSrli (h : BitVec 6) (a d : BitVec 5) (k : BitVec 1) (s : State) : Out := .next (alu1 (· >>> h.toNat) a d k s)
def execSrai (h : BitVec 6) (a d : BitVec 5) (k : BitVec 1) (s : State) : Out := .next (alu1 (fun x => x.sshiftRight h.toNat) a d k s)

/-- sext(imm20 << 12, 32). -/
def immU (i : BitVec 20) : Word := (i ++ (0 : BitVec 12)).signExtend 64

def execLui (i : BitVec 20) (d : BitVec 5) (k : BitVec 1) (s : State) : Out :=
  .next (decodeOk true [] [d.toNat] false (fun s => retire k (wrOp d (immU i) s)) s)
def execAuipc (i : BitVec 20) (d : BitVec 5) (k : BitVec 1) (s : State) : Out :=
  .next (decodeOk true [] [d.toNat] false (fun s => retire k (wrOp d (s.me.pc + immU i) s)) s)

/-! ### Branches and jumps (R86 to R90) -/

/-- pc + sext(o)·4. -/
def target (pc : Word) (o : BitVec 12) : Word := pc + o.signExtend 64 * 4

def branch (c : Word → Word → Bool) (o : BitVec 12) (b a : BitVec 5) (k : BitVec 1) (s : State) : State :=
  decodeOk true [a.toNat, b.toNat] [] false (fun s =>
    let (x, s1) := rdOp a s
    let (y, s2) := rdOp b s1
    retireAt (if c x y then target s2.me.pc o else s2.me.pc + 4) k s2) s

def execBeq (o : BitVec 12) (b a : BitVec 5) (k : BitVec 1) (s : State) : Out := .next (branch (fun x y => decide (x = y)) o b a k s)
def execBne (o : BitVec 12) (b a : BitVec 5) (k : BitVec 1) (s : State) : Out := .next (branch (fun x y => decide (x ≠ y)) o b a k s)
def execBlt (o : BitVec 12) (b a : BitVec 5) (k : BitVec 1) (s : State) : Out :=
  .next (branch (fun x y => decide (x.toInt < y.toInt)) o b a k s)
def execBge (o : BitVec 12) (b a : BitVec 5) (k : BitVec 1) (s : State) : Out :=
  .next (branch (fun x y => decide (y.toInt ≤ x.toInt)) o b a k s)
def execBltu (o : BitVec 12) (b a : BitVec 5) (k : BitVec 1) (s : State) : Out :=
  .next (branch (fun x y => decide (x.toNat < y.toNat)) o b a k s)
def execBgeu (o : BitVec 12) (b a : BitVec 5) (k : BitVec 1) (s : State) : Out :=
  .next (branch (fun x y => decide (y.toNat ≤ x.toNat)) o b a k s)

/-- What `bfull` finds: the register full, the port with an entry or a place (R88). R88's table names q8 to q10; on a Caller
scalar core the model tests q11, which is popped too, like them (log 65, DESIGN CHOICE). -/
def testFull (a : BitVec 5) (s : State) : Bool :=
  let c := a.toNat
  if c < 16 then isFull s.me c
  else if 24 ≤ c then decide (0 < portHas s c)
  else match portBind s (c - 16) with
  | some b => if b.producer then decide (0 < portRoom s c) else decide (0 < portHas s c)
  | none => false

def branchFull (want : Bool) (o : BitVec 12) (a : BitVec 5) (k : BitVec 1) (s : State) : State :=
  if 16 ≤ a.toNat ∧ portMisuse s a.toNat false true then raise 12 (a.setWidth 64) s
  else retireAt (if testFull a s = want then target s.me.pc o else s.me.pc + 4) k s

def execBfull (o : BitVec 12) (a : BitVec 5) (k : BitVec 1) (s : State) : Out := .next (branchFull true o a k s)
def execBempty (o : BitVec 12) (a : BitVec 5) (k : BitVec 1) (s : State) : Out := .next (branchFull false o a k s)

def execJal (i : BitVec 20) (d : BitVec 5) (k : BitVec 1) (s : State) : Out :=
  .next (decodeOk true [] [d.toNat] false (fun s => retireAt (s.me.pc + i.signExtend 64 * 4) k (wrOp d (s.me.pc + 4) s)) s)

def execJalr (i : BitVec 12) (a d : BitVec 5) (k : BitVec 1) (s : State) : Out :=
  .next (decodeOk true [a.toNat] [d.toNat] false (fun s =>
    let (x, s1) := rdOp a s
    let t := x + imm12 i
    if t.toNat % 4 ≠ 0 then raise 3 t s else retireAt t k (wrOp d (s.me.pc + 4) s1)) s)

/-! ### Special registers (R97 to R102) -/

/-- sr.gid (R102). -/
def gidOf (x : Strand) : Word := w64 (x.owner * 2 ^ 32 + x.grid.getD 0)

/-- sr.lugat (R38). -/
def lugat (x : Strand) : Word := w64 (0x3C0000 + 0x1000 * x.slot)

/-- What a core that replays its log adds to the cycle, so that sr.cycle reads as in the logged run (R381). -/
def skewOff (core : Nat) : Nat := 0x278000 + 8 * (core % 1024)
def skewOf (s : State) (p : Nat) : Nat := if isCore p then ctlGet s (moduleOf p) (skewOff p) else 0

/-- The value of special register n for the issuing strand (R99); sr.cycle at the memory stage, n + 6 (R97), the MC's own cycles
counted (R393). Model's choices: an entry of the matrix queue that a decode has reserved is not free in sr.mfree (log 66, DESIGN
CHOICE); sr.tvec, sr.tdeleg, sr.gdim, sr.bidx and sr.sidx of a Caller or MC strand, which no dispatch has set, read zero (log 9,
DESIGN CHOICE). -/
def srRead (s : State) (n : Nat) : Word :=
  let x := s.me
  match n with
  | 0 => x.status
  | 1 => x.fcsr.setWidth 64
  | 2 => lugat x
  | 3 => x.cause.setWidth 64
  | 4 => x.epc
  | 5 => x.tval
  | 6 => tvecOf s x &&& ~~~3
  | 7 => tdelegOf s x
  | 8 => x.wtimeout.setWidth 64
  | 9 => w64 (8 - (scAt s s.here s.mySc).mq.length - reservedBy s (s.now + 8) (some s.mySc) matrixWord)
  | 10 => (match ctxOf s with | some c => c.sbase6.setWidth 64 | none => 0)
  | 11 => (match ctxOf s with | some c => c.sbase7.setWidth 64 | none => 0)
  | 12 => w64 (cycleOf s (moduleOf x.place) + 6 * (interval x / 8) + skewOf s x.place)
  | 13 => x.bidx
  | 14 => (match x.grid.bind (tget s.grids) with | some g => g.gdim | none => 0)
  | 15 => w64 x.sidx
  | _ => gidOf x

/-- The bits of special register n that a write may set, that it must carry unchanged, and that it clears (R98); none where
every field is read-only. -/
def srMasks (n : Nat) : Option (Nat × Nat × Nat) :=
  match n with
  | 0 => some (0x3, 0xF04, 0x8)
  | 1 => some (0xFF, 0, 0)
  | 3 => some (0x3F, 0, 0)
  | 4 => some (2 ^ 64 - 1, 0, 0)
  | 5 => some (2 ^ 64 - 1, 0, 0)
  | 8 => some (0xFFFFFFFF, 0, 0)
  | 10 => some (0x3FFFFC, 0, 0)
  | 11 => some (0x3FFFFC, 0, 0)
  | _ => none

/-- Whether a `set` of v passes the checks of R98. -/
def srAccepts (s : State) (n : Nat) (v : Word) : Bool :=
  match srMasks n with
  | none => false
  | some (rw, ro, w1c) =>
    decide (v &&& ~~~(w64 (rw ||| ro ||| w1c)) = 0) && decide (v &&& w64 ro = srRead s n &&& w64 ro)

/-- A change of the record table copy that the strand uses here. -/
def modCtx (f : GridCtx → GridCtx) (s : State) : State :=
  match ctxOf s with
  | none => s
  | some c => modCore s.here (fun k => { k with ctx := tput k.ctx (ctxKey s.me) (f c) }) s

/-- Changes of the window bases that an access in flight may have issued before. -/
def recent (now : Nat) (l : List (Nat × Nat × BitVec 22)) : List (Nat × Nat × BitVec 22) := l.filter (fun e => decide (now < e.1 + 8))

def srWrite (n : Nat) (v : Word) (s : State) : State :=
  match n with
  | 0 => modMe (fun x => { x with status := (x.status &&& ~~~(3 : Word) &&& ~~~(v &&& 8)) ||| (v &&& 3) }) s
  | 1 => modMe (fun x => { x with fcsr := v.setWidth 8 }) s
  | 3 => modMe (fun x => { x with cause := v.setWidth 6 }) s
  | 4 => modMe (fun x => { x with epc := v }) s
  | 5 => modMe (fun x => { x with tval := v }) s
  | 8 => modMe (fun x => { x with wtimeout := v.setWidth 32 }) s
  | 10 => modCtx (fun c => { c with sbase6 := v.setWidth 22, sbWas := recent (s.now + s.lag) c.sbWas ++ [(s.now + s.lag, 6, c.sbase6)] }) s
  | 11 => modCtx (fun c => { c with sbase7 := v.setWidth 22, sbWas := recent (s.now + s.lag) c.sbWas ++ [(s.now + s.lag, 7, c.sbase7)] }) s
  | _ => s

def execGet (i : BitVec 12) (d : BitVec 5) (k : BitVec 1) (s : State) : Out :=
  .next (decodeOk true [] [d.toNat] false (fun s =>
    if i = 1 ∧ fcsrSettled s s.cur = false then park .fcsr s
    else retire k (wrOp d (srRead s i.toNat) s)) s)

def execSet (i : BitVec 12) (a : BitVec 5) (k : BitVec 1) (s : State) : Out :=
  .next (decodeOk true [a.toNat] [] false (fun s =>
    if i = 1 ∧ fcsrSettled s s.cur = false then park .fcsr s
    else
      let (v, s1) := rdOp a s
      if srAccepts s i.toNat v then retire k (srWrite i.toNat v s1) else raise 6 v s) s)

/-! ### Common registers (R103 to R105) -/

/-- The tag that a strand's writes carry: its grid number, or for a Caller program its owner (log 9, DESIGN CHOICE). -/
def myTag (x : Strand) : Nat := match x.grid with | some g => g | none => 2 ^ 40 + x.owner

/-- A scalar core with the `cset`s that have committed by now applied: one that issued in cycle n shows from n + 8 on, counted in the
scalar core's own cycles (R105, R393). -/
def commit (n now : Nat) (k : SCore) : SCore :=
  let due := k.cpend.filter (fun p => decide (p.at_ + n ≤ now))
  { k with c := due.foldl (fun c p => vset c p.n ⟨p.val, p.tag⟩) k.c, cpend := k.cpend.filter (fun p => decide (now < p.at_ + n)) }

def execCget (c : BitVec 3) (d : BitVec 5) (k : BitVec 1) (s : State) : Out :=
  .next (decodeOk false [] [d.toNat] false (fun s =>
    let r := vget (commit (interval s.me) s.now (scAt s s.here s.mySc)).c c.toNat ⟨0, none⟩
    if r.tag ≠ none ∧ r.tag ≠ some (myTag s.me) then raise 6 (c.setWidth 64) s
    else retire k (wr d.toNat (if r.tag = none then 0 else r.val) s)) s)

def execCset (c : BitVec 3) (a : BitVec 5) (k : BitVec 1) (s : State) : Out :=
  .next (decodeOk false [a.toNat] [] false (fun s =>
    let q := commit (interval s.me) s.now (scAt s s.here s.mySc)
    let r := vget q.c c.toNat ⟨0, none⟩
    if r.tag ≠ none ∧ r.tag ≠ some (myTag s.me) then raise 6 (c.setWidth 64) s
    else retire k (modMySc (fun _ => { q with cpend := q.cpend ++ [⟨s.now, c.toNat, rv s a, some (myTag s.me)⟩] }) s)) s)

end

end Sys2Proof.Machine
end

