-- ==== Sys2Proof/Machine/FloatOps.lean ====
section
/-! DEFINITION. Scalar floating point: the FOP major (R91 to R96) and its FP32 pending chains (R112). -/

namespace Sys2Proof.Machine

open Sys2Proof

noncomputable section

/-- A result pattern as a register value: `.s` zero-extended (R92). -/
def fout (r : Nat × FFlags) : Word × FFlags := (w64 r.1, r.2)

/-- A rounding of what an exact operation gives, with its own flags. -/
def rounded (f : Nat) (m : BitVec 2) (ftz : Bool) (x : FVal × FFlags) : Nat × FFlags :=
  let r := fround f m false ftz x.1
  (r.1, r.2 ||| x.2)

/-- farith (R93) on patterns. -/
def fopArith (op : FoldOp) (f : Nat) (m : BitVec 2) (ftz : Bool) (a b c : Nat) : Nat × FFlags :=
  let x := fdec f ftz a
  let y := fdec f ftz b
  rounded f m ftz (match op with
    | .fadd => fadd2 m x y
    | .fmul => fmul2 x y
    | .ffma => ffma3 m x y (fdec f ftz c))

/-- A source that may start or continue a chain: its entry, and the step whose result it holds (none: σ itself). -/
def stepSrc (x : Strand) (r : BitVec 5) : Option (Nat × Option Nat) :=
  if 16 ≤ r.toNat then none else
  match regSt x r.toNat with
  | .sym e .tagged => some (e, none)
  | .sym e (.affine p q) => if p = 1 ∧ q = 0 then some (e, none) else none
  | .sym e (.step i) => some (e, some i)
  | _ => none

/-- A FOP instruction over the sources a, b and, for ffma, d. -/
def fop3 (f : BitVec 1) (c3 : Bool) (b a : BitVec 5) (d : BitVec 5) (k : BitVec 1) (g : Nat → Nat → Nat → Word × FFlags)
    (s : State) : State :=
  decodeOk true ([a.toNat, b.toNat] ++ (if c3 then [d.toNat] else [])) [d.toNat] false (fun s =>
    let (x, s1) := rdOp a s
    let (y, s2) := rdOp b s1
    let z : Word := if c3 then rv s d else 0
    let r := g (fopPat f x) (fopPat f y) (fopPat f z)
    retire k (accrue r.2 (wrOp d r.1 s2))) s

/-- The value of step st, given the values of σ and of the earlier steps (R112). -/
def stepEval (sigma : Word) (earlier : List Word) (st : FpStep) : Word × FFlags :=
  let v := match st.prev with | none => sigma | some i => earlier.getD i 0
  let a := if st.pos = 0 then v else st.a
  let b := if st.pos = 1 then v else st.b
  let c := if st.pos = 2 then v else st.c
  fout (fopArith st.op 5 st.mode st.ftz (fopPat 0 a) (fopPat 0 b) (fopPat 0 c))

/-- The values of all steps in program order, and the flags of each. -/
def stepsEval (sigma : Word) (steps : List FpStep) : List Word × List FFlags :=
  steps.foldl (fun acc st => let r := stepEval sigma acc.1 st; (acc.1 ++ [r.1], acc.2 ++ [r.2])) ([], [])

/-- A step over symbol e into register d: it joins the chain, or is evaluated at once where the value of the symbol has returned
(R112, R114). -/
def wrStep (d : BitVec 5) (e : Nat) (st : FpStep) (s : State) : State :=
  match tget (scAt s s.here s.mySc).syms e with
  | none => s
  | some y =>
    match y.value with
    | some v => let r := stepEval v (stepsEval v y.steps).1 st; accrue r.2 (wr d.toNat r.1 s)
    | none =>
      modMe (setRst d.toNat (.sym e (.step y.steps.length)))
        (modMySc (fun q => { q with syms := tput q.syms e { y with steps := y.steps ++ [st] } }) s)

/-- fadd.s, fmul.s and ffma.s fold into a step of a chain of at most four (R112). -/
def foldFp (op : FoldOp) (f : BitVec 1) (b a : BitVec 5) (rm : BitVec 3) (d : BitVec 5) (k : BitVec 1) (s : State) : State :=
  let x := s.me
  let c3 : Bool := decide (op = .ffma)
  let m := modeOf x rm
  let plain := fop3 f c3 b a d k (fun p q r => fout (fopArith op (fopFmt f) m (ftzOf x) p q r)) s
  let all : List (Nat × BitVec 5) := [(0, a), (1, b)] ++ (if c3 then [(2, d)] else [])
  let cands := all.filter (fun e => decide (e.2.toNat < 16) && symbolic x e.2.toNat)
  match cands with
  | [(pos, r)] =>
    match (stepSrc x r).filter (fun t => !resolving s t.1) with
    | some (e, prev) =>
      let n := ((tget (scAt s s.here s.mySc).syms e).map (fun t : SymEntry => t.steps.length)).getD 4
      if f = 1 ∨ 4 ≤ n ∨ 16 ≤ d.toNat then plain
      else
        let others := all.filter (fun e => e.1 != pos)
        foldOk e (others.map (fun e => e.2.toNat)) [d.toNat] (fun s =>
          let (va, s1) := if pos = 0 then (0, s) else rdOp a s
          let (vb, s2) := if pos = 1 then (0, s1) else rdOp b s1
          let vc := if pos = 2 ∨ c3 = false then 0 else rv s d
          retire k (wrStep d e ⟨op, pos, prev, va, vb, vc, m, ftzOf x⟩ s2)) s
    | none => plain
  | _ => plain

def execFadd (f : BitVec 1) (b a : BitVec 5) (r : BitVec 3) (d : BitVec 5) (k : BitVec 1) (s : State) : Out :=
  .next (foldFp .fadd f b a r d k s)
def execFmul (f : BitVec 1) (b a : BitVec 5) (r : BitVec 3) (d : BitVec 5) (k : BitVec 1) (s : State) : Out :=
  .next (foldFp .fmul f b a r d k s)
def execFfma (f : BitVec 1) (b a : BitVec 5) (r : BitVec 3) (d : BitVec 5) (k : BitVec 1) (s : State) : Out :=
  .next (foldFp .ffma f b a r d k s)

def execFsub (f : BitVec 1) (b a : BitVec 5) (r : BitVec 3) (d : BitVec 5) (k : BitVec 1) (s : State) : Out :=
  let m := modeOf s.me r
  let z := ftzOf s.me
  .next (fop3 f false b a d k (fun x y _ =>
    fout (rounded (fopFmt f) m z (fadd2 m (fdec (fopFmt f) z x) (fdec (fopFmt f) z y).negate))) s)
def execFdiv (f : BitVec 1) (b a : BitVec 5) (r : BitVec 3) (d : BitVec 5) (k : BitVec 1) (s : State) : Out :=
  let z := ftzOf s.me
  .next (fop3 f false b a d k (fun x y _ =>
    fout (rounded (fopFmt f) (modeOf s.me r) z (fdiv2 (fdec (fopFmt f) z x) (fdec (fopFmt f) z y)))) s)

/-- A one-source FOP instruction. -/
def fop1 (f : BitVec 1) (a d : BitVec 5) (k : BitVec 1) (g : Nat → Word × FFlags) (s : State) : State :=
  decodeOk true [a.toNat] [d.toNat] false (fun s =>
    let (x, s1) := rdOp a s
    let r := g (fopPat f x)
    retire k (accrue r.2 (wrOp d r.1 s1))) s

def execFsqrt (f : BitVec 1) (a : BitVec 5) (r : BitVec 3) (d : BitVec 5) (k : BitVec 1) (s : State) : Out :=
  let z := ftzOf s.me
  .next (fop1 f a d k (fun x => fout (rounded (fopFmt f) (modeOf s.me r) z (fsqrt1 (fdec (fopFmt f) z x)))) s)

def execFmin (f : BitVec 1) (b a d : BitVec 5) (k : BitVec 1) (s : State) : Out :=
  .next (fop3 f false b a d k (fun x y _ => fout (fminmax (fopFmt f) (ftzOf s.me) false x y)) s)
def execFmax (f : BitVec 1) (b a d : BitVec 5) (k : BitVec 1) (s : State) : Out :=
  .next (fop3 f false b a d k (fun x y _ => fout (fminmax (fopFmt f) (ftzOf s.me) true x y)) s)

/-- A comparison (R94): 0 eq, 1 lt, 2 le. -/
def fcompare (op : Nat) (f : BitVec 1) (b a d : BitVec 5) (k : BitVec 1) (s : State) : State :=
  fop3 f false b a d k (fun x y _ =>
    let r := frel op (fdec (fopFmt f) (ftzOf s.me) x) (fdec (fopFmt f) (ftzOf s.me) y)
    (boolW r.1, r.2)) s

def execFeq (f : BitVec 1) (b a d : BitVec 5) (k : BitVec 1) (s : State) : Out := .next (fcompare 0 f b a d k s)
def execFlt (f : BitVec 1) (b a d : BitVec 5) (k : BitVec 1) (s : State) : Out := .next (fcompare 1 f b a d k s)
def execFle (f : BitVec 1) (b a d : BitVec 5) (k : BitVec 1) (s : State) : Out := .next (fcompare 2 f b a d k s)

def execFclass (f : BitVec 1) (a d : BitVec 5) (k : BitVec 1) (s : State) : Out :=
  .next (fop1 f a d k (fun x => (w64 (fclassOf (fopFmt f) x), 0)) s)

/-- The exact value of a conversion's source (R96): 0 `s`, 1 `d`, 2 `w`, 3 `wu`, 4 `l`, 5 `lu`. -/
def cvtSource (from_ : BitVec 3) (ftz : Bool) (v : Word) : FVal :=
  match from_.toNat with
  | 0 => fdec 5 ftz (v.toNat % 2 ^ 32)
  | 1 => fdec 12 ftz v.toNat
  | 2 => ofInt (sextN v.toNat 32).toInt
  | 3 => ofInt (v.toNat % 2 ^ 32 : Nat)
  | 4 => ofInt v.toInt
  | _ => ofInt v.toNat

def execFcvtToFloat (f : BitVec 1) (t : BitVec 3) (a : BitVec 5) (r : BitVec 3) (d : BitVec 5) (k : BitVec 1) (s : State) : Out :=
  let z := ftzOf s.me
  .next (decodeOk true [a.toNat] [d.toNat] false (fun s =>
    let (v, s1) := rdOp a s
    let x := cvtSource t z v
    let q := rounded (fopFmt f) (modeOf s.me r) z (x, snanFlag x)
    retire k (accrue q.2 (wrOp d (w64 q.1) s1))) s)

/-- The limits of an integer target and how it is written (R96). -/
def intTarget (t : BitVec 3) : Int × Int :=
  match t.toNat with
  | 2 => (-(2 ^ 31 : Int), 2 ^ 31 - 1)
  | 3 => (0, 2 ^ 32 - 1)
  | 4 => (-(2 ^ 63 : Int), 2 ^ 63 - 1)
  | _ => (0, 2 ^ 64 - 1)

def execFcvtToInt (f : BitVec 1) (t : BitVec 3) (a : BitVec 5) (r : BitVec 3) (d : BitVec 5) (k : BitVec 1) (s : State) : Out :=
  .next (fop1 f a d k (fun x =>
    let q := toInt (modeOf s.me r) (intTarget t).1 (intTarget t).2 (fdec (fopFmt f) (ftzOf s.me) x)
    (BitVec.ofInt 64 q.1, q.2)) s)

end

end Sys2Proof.Machine
end

