-- ==== Sys2Proof/Machine/Access.lean ====
section
/-! DEFINITION. What every scalar memory access shares (R143 to R148, R153, R158, R167, R211 to R214, R275, R304): the
operand, its order and travel, decode windows, writes to scratchpad words that others wait on. -/

namespace Sys2Proof.Machine

open Sys2Proof

noncomputable section

/-! ### Walks of the page tables (R132 to R135) -/

/-- A PA that R122 forbids. -/
def paForbidden (pa : Nat) : Bool := bit pa 46 || decide (bits pa 45 41 ≠ 0)

/-- A page overlaps a hole of R123; what a vault has lost does not count (R130, R134). -/
def pageHole (pa size : Nat) : Bool :=
  let hole (a : Nat) : Bool := decide (spaceOf (fun _ => 2 ^ 31) a = .hole)
  (List.range (size / 65536)).any (fun i => hole (pa + 65536 * i) || hole (pa + 65536 * i + 65535))

/-- What an entry read at a level says: the leaf with its page size, the next table, or a fault. -/
inductive WalkSays where
  | leaf (e n : Nat)
  | table (a : Nat)
  | bad
  deriving DecidableEq, Repr

/-- The entry of a table for a VA at a level. -/
def entryAt (table va level : Nat) : Nat := table + 8 * bits va (10 * level + 15) (10 * level + 6)

/-- The entry is looked at (R132 to R134). -/
def walkEntry (level e : Nat) : WalkSays :=
  let addr := bits e 55 13 * 8192
  if bit e 0 = false ∨ bit e 56 ∨ bits e 12 8 ≠ 0 ∨ bit e 6 ∨ bits e 2 1 ≠ 0 ∨ bits e 59 58 = 3 ∨ paForbidden addr then .bad
  else if bit e 7 then
    let n := if level = 1 then 16 else 26
    if 3 ≤ level ∨ addr % 2 ^ n ≠ 0 ∨ pageHole addr (2 ^ n) then .bad else .leaf e n
  else if level = 1 then .bad
  else .table addr

/-- A whole walk from a table at a level, on memory as it stands. -/
def walkFrom (s : State) (va : Nat) : Nat → Nat → Option (Nat × Nat)
  | 0, _ => none
  | l + 1, table =>
    match walkEntry (l + 1) (leNat (sliceRead s (entryAt table va (l + 1)) 8)) with
    | .leaf e n => some (e, n)
    | .table a => walkFrom s va l a
    | .bad => none

/-- The PA of a VA as the translation caches or the tables give it now, without an access being made. -/
def lookPa (s : State) (place asn root va : Nat) : Option Nat :=
  let cached := (tlbFind (coreAt s place).tlb asn va).orElse (fun _ => tlbFind (sliceAt s (tlbCluster place)).tlb asn va)
  match cached with
  | some e => some (fwdPa s (leafPa e.pte e.bits va))
  | none => (walkFrom s va 4 root).map (fun r => fwdPa s (leafPa (w64 r.1) r.2 va))

/-- n bytes at pa behind the runs of a range: they lengthen the last run where they follow it in one home. -/
def addRun (rs : List (Nat × Nat)) (pa n : Nat) : List (Nat × Nat) :=
  match rs.getLast? with
  | some (a, m) => if a + m = pa ∧ homeOf a = homeOf pa then rs.dropLast ++ [(a, m + n)] else rs ++ [(pa, n)]
  | none => [(pa, n)]

/-- The same with each run's offset in a range that has gaps. -/
def addRunAt (rs : List (Nat × Nat × Nat)) (off pa n : Nat) : List (Nat × Nat × Nat) :=
  match rs.getLast? with
  | some (o, a, m) => if a + m = pa ∧ o + m = off ∧ homeOf a = homeOf pa then rs.dropLast ++ [(o, a, m + n)] else rs ++ [(off, pa, n)]
  | none => [(off, pa, n)]

/-- The runs of PAs of a range of VAs, page by page, each with its offset; pages that no table maps are left out. -/
def pageRuns (s : State) (place asn root va len : Nat) : List (Nat × Nat × Nat) :=
  (List.range ((va + len - 1) / 65536 + 1 - va / 65536)).foldl (fun rs i =>
    let lo := max va ((va / 65536 + i) * 65536)
    let hi := min (va + len) ((va / 65536 + i + 1) * 65536)
    match lookPa s place asn root (lo % 2 ^ 64) with | some pa => addRunAt rs (lo - va) pa (hi - lo) | none => rs) []

/-! ### Code lines (R136, R169) -/

/-- The slice through which a place fetches. -/
def fetchSlice (place : Nat) : Nat := tlbCluster place

/-- The line is one that this slice holds as code: no vault line of its own cluster. -/
def codeLine (s : State) (cl line : Nat) : Bool :=
  decide (clusterOf (homeOf (line * 128)) ≠ cl) || (match space s (line * 128) with | .vault _ _ => false | _ => true)

/-- The word that a fetch reads: from the cluster's slice, which takes the sector from its home where it does not hold it. A vault
line of the cluster itself is filled as data is (R136, R169). -/
def fetchWord (pa : Nat) (s : State) : Nat × State :=
  let cl := fetchSlice s.here
  let line := pa / 128
  let k := sliceAt s cl
  if codeLine s cl line = false then
    (leNat (sliceRead s pa 4), if present k pa 4 then useLine cl line s else if missWaits k pa 4 0 then s else startMiss cl pa 4 (chargeOf s s.cur) false s)
  else match k.lines.find? (fun l => decide (l.line = line) && l.valid.getLsbD (pa % 128)) with
  | some l => (leNat ((List.range 4).map (fun i => lineByte l.data (pa % 128 + i))), useLine cl line s)
  | none =>
    let v := leNat (sliceRead s pa 4)
    let at_ := pa / 32 * 32
    let home := homeOf pa
    let s := match space s pa with
      | .vault _ _ => if present (sliceAt s (clusterOf home)) pa 4 then s else openPage pa s
      | _ => s
    match makeRoom cl line (chargeOf s s.cur) s with
    | none => (v, s)
    | some s =>
      let old := ((sliceAt s cl).lines.find? (fun l => l.line == line)).getD ⟨line, 0, 0, 0, 0, false⟩
      let l : SLine := { old with data := lineWrite old.data (at_ % 128) (sliceRead s at_ 32), valid := old.valid ||| span (at_ % 128) 32, used := (sliceAt s cl).clock }
      (v, accrualOn cl (modSlice cl (fun k => creditToken 1 (chargeOf s s.cur) { k with clock := k.clock + 1, lines := l :: k.lines.filter (fun o => o.line != line) }) s))

/-! ### Words that lists wait on -/

/-- A join counter's count is zero (R274). -/
def joinDone (w : Word) : Bool := decide (w.toNat % 2 ^ 32 = 0)
/-- A named barrier's episode has passed a generation (R303, R304). -/
def barPassed (want : Nat) (w : Word) : Bool := decide (bits w.toNat 63 48 ≠ want)

/-- After a write to a range of a core's SRAM: the join and named-barrier entries of its words note the word as the write
left it, unless an earlier write has already satisfied them (R275, R304), and are looked at in the next cycle. -/
def noteWrite (core a n : Nat) (s : State) : State :=
  let hit (w : WordWait) : Bool := decide (w.word < a + n ∧ a < w.word + 8)
  let note (done : WordWait → Word → Bool) (w : WordWait) : WordWait :=
    if hit w then
      match w.seen with
      | some v => if done w v then w else { w with seen := some (w64 (peek8 s w.word)) }
      | none => { w with seen := some (w64 (peek8 s w.word)) }
    else w
  let c := coreAt s core
  if c.joins.any hit || c.bars.any hit then
    let s1 := modCore core (fun c => { c with
      joins := c.joins.map (note (fun _ v => joinDone v)), bars := c.bars.map (note (fun w v => barPassed w.want v)) }) s
    let s2 := ((c.joins.filter hit).map WordWait.word).eraseDups.foldl (fun s w => schedNext (.joinListService core w) s) s1
    ((c.bars.filter hit).map WordWait.word).eraseDups.foldl (fun s w => schedNext (.barWaitService core w) s) s2
  else s

/-- A strand's write to SRAM bytes at their port. -/
def sramWrite (a : Nat) (bs : List Byte) (s : State) : State := noteWrite (homeOf a) a bs.length (pokeBytes a bs s)

/-- An engine or host write of a range at its home for a partition: SRAM bytes, or vault bytes through the slice; poison travels
with its granules (R176, R187). -/
def engineWrite (part a : Nat) (bs : List Byte) (bad : List Nat) (pol : Nat) (s : State) : State :=
  let s := match space s a with
    | .vault _ _ => sliceStore a bs pol part s
    | _ => sramWrite a bs s
  let s2 := (granules (bs.length + 1) a bs).foldl (fun s g => if g.2.length = 32 then clearPoison (g.1 / 32) s else s) s
  bad.foldl (fun s o => setPoison ((a + o) / 32) s) s2

/-- What an engine or the host reads. -/
def engineRead (s : State) (a n : Nat) : List Byte :=
  match space s a with | .vault _ _ => sliceRead s a n | _ => memRead s.mem a n

/-! ### Loading records (R168) -/

/-- A record of a table is no longer loading: it takes the bytes that were read, and stays as it was where they are poisoned (R168). -/
def recordLoaded (f : RecFill) (bad : Bool) (s : State) : State :=
  modCore f.place (fun c => { c with ctx := c.ctx.map (fun e => if e.1 = f.key then
    (e.1, { e.2 with loading := e.2.loading.filter (· != f.n), recs := if bad then e.2.recs else tput e.2.recs f.n f.v }) else e) }) s

/-- The records that a strand was loading stay as they are: it takes no result any more (R360; log 67, DESIGN CHOICE). -/
def dropLoads (x : Strand) (s : State) : State :=
  (x.late.filterMap Late.record).foldl (fun s f => recordLoaded f true s) s

/-! ### Fences as waits (R157, R158) -/

/-- The engine counts of classes within a scope are zero: 0 pod, 1 module, 2 tower, 3 cluster, 4 core, 5 file. -/
def engClear (e : EngCounts) (scope : Nat) : Bool :=
  decide (e.core = 0) && (decide (4 ≤ scope) || decide (e.cluster = 0)) && (decide (3 ≤ scope) || decide (e.tower = 0))
    && (decide (2 ≤ scope) || decide (e.module = 0)) && (decide (1 ≤ scope) || decide (e.pod = 0))

/-- The waits of a fence of strand id: 0 acq, 1 rel, 2 full, 3 eng. -/
def fenceHolds (s : State) (id kind scope : Nat) : Bool :=
  let x := strandAt s id
  let rel := x.cmp.isEmpty && decide (x.posted = 0) && decide (x.gives = 0) && !atomicWaits s id && engClear x.eng scope
  match kind with
  | 0 => x.late.isEmpty
  | 1 => rel
  | 2 => rel && x.late.isEmpty
  | _ => engClear x.eng scope

/-- Off its native core a strand learns that its counts are zero from a report in N1: the cycle in which it is there (R158). -/
def reportAt (s : State) (x : Strand) : Nat := realNow s + leg s x.native x.place

/-- The end of an access with acquire: when nothing late (and, for a store, nothing posted) is outstanding the L1 is
invalidated at once, else the strand parks until then. A `give` that still waits does not hold it: the access of R152 has ended with its
place in the list (log 67, DESIGN CHOICE). -/
def acquireEnd (st : Bool) (k : BitVec 1) (s : State) : State :=
  let x := s.me
  if x.late.isEmpty && (!st || decide (x.posted = 0)) then invalL1 x.place s
  else modMe (fun x => { x with park := some (.acq st k) }) s

/-- Retires an access of order o. -/
def retireAcc (o : Nat) (st : Bool) (k : BitVec 1) (s : State) : State :=
  if o = 1 ∨ o = 3 then acquireEnd st k (retire k s) else retire k s

/-! ### The access -/

/-- A scalar memory access through a record (R147): parks for vector memory entries (R181), replays with what it carried,
or forms its address, fences where the order asks, translates and goes to its home. -/
def access (n : Nat) (off : Word) (size : Nat) (r w : Bool) (suffix : Nat) (ord : State → Nat) (k : BitVec 1)
    (onNone : State → State) (op : Carry → State → State) (s : State) : State :=
  if s.me.vmems ≠ 0 then park .vmem s
  else match s.me.carried with
  | some c => op c s
  | none =>
    withEa n off size onNone (fun va s =>
      let o := ord s
      if 2 ≤ o ∧ fenceHolds s s.cur 1 0 = false then park .release s
      else if 2 ≤ o ∧ isNative s.me = false ∧ s.me.released = false then park (.relReport (reportAt s s.me)) s
      else withTr va r w false (fun pa page win s =>
        let c : Carry := ⟨pa, va, policyOf s page suffix n, o, win, r, w, myEpoch s⟩
        atHome c k (op c) s) s) s

/-- The checks of every access at its home: space (R148), range locks (R167), bytes that a vault is losing (R352). -/
def atPort (c : Carry) (size : Nat) (a : Acc) (f : State → State) (s : State) : State :=
  match checkSpace s c.pa size a with
  | some cause => raise cause c.va s
  | none =>
    if scaleHole s s.now c.pa then raise 5 c.va s
    else if locked s c.pa size then raise 7 c.va s
    else match space s c.pa with
    | .vault core o => if lostHere s core o then park (.vaultBusy core) s else f s
    | _ => f s

/-! ### Decode windows (R124, R211 to R214) -/

/-- The element and its scale as exact values. -/
def winDecode (s : State) (core w i sc : Nat) : FVal × FVal :=
  let (o, n) := elemAt w i
  let v := peekN s (sramBase core + o) n
  let e := match w with
    | 1 => fdec 8 false v | 6 => fdec 8 false v | 2 => fdec 9 false v | 3 => fdec 6 false v | 4 => fdec 7 false v
    | _ => q4xElem v (i % 4)
  (e, if w = 6 ∨ w = 7 then fdec 11 false (peekN s (sramBase core + sc) 3) else ofInt 1)

/-- The word a window read gives (R212), with sc the offset of the scale. -/
def winRead (s : State) (core w i sc : Nat) : Nat :=
  let (e, t) := winDecode s core w i sc
  (fround 5 0 false false (fmul2 e t).1).1

/-- Poison of the element's bytes or of its scale word. -/
def winBad (s : State) (core w i sc : Nat) : Bool :=
  let (o, n) := elemAt w i
  poisoned s (sramBase core + o) n || (decide (w = 6 ∨ w = 7) && poisoned s (sramBase core + sc) 4)

/-- A store through windows 1 to 4: the element's bytes and the flags (R214). -/
def winEncode (w : Nat) (v : Nat) : Nat × FFlags :=
  let f := match w with | 1 => 8 | 2 => 9 | 3 => 6 | _ => 7
  let x := fdec 5 false (v % 2 ^ 32)
  let q := fround f 0 false false x
  (q.1, q.2 ||| snanFlag x)

end

end Sys2Proof.Machine
end

