-- ==== Sys2Proof/Machine/Engine.lean ====
section
/-! DEFINITION. What every engine operation shares: its class and count (R157), range locks (R166), tiles as a delivery
sees them (R163), notices to q9 (R361, R417), tokens (R256), completion (R255, R257), and the cache requests that a slice
performs (R160, R326). -/

namespace Sys2Proof.Machine

open Sys2Proof

noncomputable section

/-! ### Classes and counts (R157) -/

/-- The narrowest level that holds a place and every home touched: 0 core, 1 cluster, 2 tower, 3 module, 4 pod. -/
def classOf (place : Nat) (homes : List Nat) : Nat :=
  if homes.all (fun h => decide (h = place)) then 0
  else if isCore place && homes.all (fun h => isCore h && decide (clusterOf h = clusterOf place)) then 1
  else if isCore place && homes.all (fun h => isCore h && decide (towerOf h = towerOf place)) then 2
  else if homes.all (fun h => decide (moduleOf h = moduleOf place)) then 3
  else 4

/-- The count of a class changed. -/
def engMod (cls : Nat) (f : Nat → Nat) (x : Strand) : Strand :=
  let e := x.eng
  { x with eng := match cls with
    | 0 => { e with core := f e.core }
    | 1 => { e with cluster := f e.cluster }
    | 2 => { e with tower := f e.tower }
    | 3 => { e with module := f e.module }
    | _ => { e with pod := f e.pod } }

/-- An operation of the issuing strand before its own fields are filled in. -/
def newOp (kind : OpKind) (s : State) : Op :=
  let x := s.me
  { kind := kind, sid := s.cur, place := x.place, sc := x.slot / 8, block := x.block, grid := x.grid, owner := x.owner,
    asn := x.asn, root := x.root, pc := x.pc, tok := false, cls := 0, src := 0, dst := 0, len := 0, next := 0,
    stopped := false, flying := 0, status := 0, cause := 0, off := 0, flags := 0, tile := 0, toff := 0, hdr := 0, home := 0,
    ticket := 0, rid := 0, parties := 0, part := 0, rop := 0, rfmt := 0, policy := 0,
    walkFault := none, fail := none, told := none, runs := [] }

/-- Counts and lists an operation under the state's next number. -/
def startOp (o : Op) (s : State) : State :=
  let id := s.fresh
  bump (modStrand o.sid (engMod o.cls (· + 1)) { s with ops := tput s.ops id o })

/-- The partition that an operation's requests are charged to: that of its strand's native core or Caller (R173). -/
def chargeOp (s : State) (o : Op) : Nat := partitionOf s (o.sid / 32) (o.sid % 32 / 8)

/-! ### Notices (R361, R417) -/

/-- Sends a word for an operation from a place to q9 of its strand's native core, tagged with the operation's block, which may be
suspended (R361, R369). -/
def q9Notice (from_ : Nat) (o : Op) (word : Word) (s : State) : State :=
  let native := o.sid / 32
  send o.owner from_ native (leg s from_ native) (.noticeArrival ⟨9, native, 0, o.block, word, from_⟩) s

/-- VA[25:2] of an instruction. -/
def pcField (pc : Word) : Nat := bits pc.toNat 25 2

/-- The notice of an engine operation (kind 00). -/
def engineNotice (cause off : Nat) (pc : Word) : Word := w64 (cause * 2 ^ 58 + off % 2 ^ 24 * 2 ^ 32 + pcField pc)

/-- The notice of a delivery into a tile (kind 11). -/
def tileNotice (cause off t : Nat) (pc : Word) : Word :=
  w64 (cause * 2 ^ 58 + 3 * 2 ^ 56 + off % 2 ^ 24 * 2 ^ 32 + t % 64 * 2 ^ 24 + pcField pc)

/-! ### Tiles (R162, R163) -/

/-- An undefined entry (R162). -/
def Tile.none_ : Tile := ⟨false, 0, 0, 0, .empty, false, 0, 0, none, 0⟩

def tileAt (s : State) (core t : Nat) : Tile := (tget (coreAt s core).tiles t).getD Tile.none_
def modTile (core t : Nat) (f : Tile → Tile) (s : State) : State :=
  modCore core (fun c => { c with tiles := tmod c.tiles t Tile.none_ f }) s

/-- b bytes set down in a tile (R163); false when the tile is not filling. -/
def tileCount (core t b : Nat) (bad : Bool) (s : State) : State :=
  modTile core t (fun x =>
    if x.st = .filling then
      let x := if bad then { x with faulted := true } else x
      let n := x.arrived + b
      if n < x.expected then { x with arrived := n }
      else { x with arrived := x.expected, st := .ready, faulted := x.faulted || decide (x.expected < n) }
    else x) s

/-- The tiles that drain and that no lock overlaps any more become empty (R163). -/
def drainTiles (core : Nat) (s : State) : State :=
  modCore core (fun c => { c with tiles := c.tiles.map (fun e =>
    let x := e.2
    if x.st = .draining ∧ c.locks.any (fun l => decide (l.base < x.base + x.len ∧ x.base < l.base + l.len)) = false then
      (e.1, { x with st := .empty, expected := 0, arrived := 0 })
    else e) }) s

/-! ### Range locks (R166) -/

/-- Registers ranges of a core's SRAM space for operation op: each with its part in the operation (0 for a source), its offset there,
its base and its length, under the number 64·op + its place in the list. -/
def lockRanges (core op : Nat) (ranges : List (Nat × Nat × Nat × Nat)) (s : State) : State :=
  modCore core (fun c => { c with locks := c.locks ++ ranges.zipIdx.map (fun r => (⟨64 * op + r.2, op, r.1.1, r.1.2.1, r.1.2.2.1, r.1.2.2.2⟩ : RLock)) }) s

def locksFree (s : State) (core : Nat) : Nat := 32 - (coreAt s core).locks.length

/-- Releases one lock, and lets draining tiles that it held become empty. -/
def unlock (core id : Nat) (s : State) : State :=
  drainTiles core (modCore core (fun c => { c with locks := c.locks.filter (fun l => l.id != id) }) s)

/-- Releases every lock of an operation. -/
def unlockAll (core op : Nat) (s : State) : State :=
  drainTiles core (modCore core (fun c => { c with locks := c.locks.filter (fun l => l.op != op) }) s)

/-! ### Ring headers (R285, R286) -/

/-- The fields of a ring header. -/
structure RingHdr where
  grid : Nat
  waits : Nat
  size : Nat
  n : Nat
  tb : Nat
  pipe : Bool
  live : Bool
  head : Nat
  next : Nat
  deriving DecidableEq, Repr

/-- The header at offset h of a core's scratchpad. -/
def hdrAt (s : State) (core h : Nat) : RingHdr :=
  let v := peekN s (sramBase core + h) 24
  ⟨bits v 191 160, bits v 159 152, bits v 151 139, bits v 138 132, bits v 131 126, bit v 121, bit v 120, bits v 63 32, bits v 31 0⟩

/-! ### Completion (R255 to R257) -/

/-- The token of an operation (R256). -/
def opToken (o : Op) : Word :=
  w64 (o.status * 2 ^ 62 + o.cause * 2 ^ 56 + o.flags.toNat * 2 ^ 51 + o.off % 2 ^ 24 * 2 ^ 24 + pcField o.pc)

/-- The operation completes: its count falls, its token enters the place reserved in q8, its locks are gone. -/
def finishOp (id : Nat) (s : State) : State :=
  match tget s.ops id with
  | none => s
  | some o =>
    let s := { s with ops := tdel s.ops id }
    let s := unlockAll o.place id (modOwner o.sid o.grid (engMod o.cls (· - 1)) s)
    let s := modCore o.place (fun c => { c with copyq := c.copyq.filter (· != id) }) s
    if o.tok then modSc o.place o.sc (fun k => { k with q8 := k.q8 ++ [(opToken o, o.grid.getD 0)], q8res := k.q8res - 1 }) s else s

/-- The notice of an operation that failed names its lowest failed piece, of kind 11 for a delivery into a tile (R163, R257,
R361). It waits for the pieces in flight below that one, but at a launch failure, where R292 sends it at once; a lower piece
that fails later is told too (log 40). -/
def tellFailure (id : Nat) (atLaunch : Bool) (s : State) : State :=
  match tget s.ops id with
  | none => s
  | some o =>
    match o.fail with
    | none => s
    | some (off, cause) =>
      let lower : Bool := s.pieces.any (fun p => decide (p.2.op = id ∧ p.2.off < off ∧ p.2.stage < 6))
      let old : Bool := match o.told with | some t => decide (t ≤ off) | none => false
      if old || (lower && !(atLaunch && decide (o.kind ≠ .copyT))) then s
      else
        let s := if cause = 5 then nameAbsent o.asn (o.dst + off) (nameAbsent o.asn (o.src + off) s) else s
        q9Notice o.place o (if o.kind = .copyT then tileNotice cause (o.toff + off) o.tile o.pc else engineNotice cause off o.pc)
          (mcLog (moduleOf o.place) logTrap cause o.owner o.place o.pc (modOp id (fun o => { o with told := some off }) s))

/-- A piece has failed: the lowest is kept. -/
def noteFail (id cause off : Nat) (s : State) : State :=
  modOp id (fun o => { o with fail := match o.fail with
    | some (f, c) => some (if f < off then (f, c) else (off, cause))
    | none => some (off, cause) }) s

/-- A piece's end taken into its operation: the greatest status, then the lowest offset (R256). -/
def mergeEnd (status cause off : Nat) (o : Op) : Op :=
  if o.status < status then { o with status := status, cause := cause, off := off }
  else if o.status = status ∧ status ≠ 0 ∧ off < o.off then { o with cause := cause, off := off }
  else o

/-- No piece of the operation is left to launch, fly or report. -/
def opEnded (s : State) (id : Nat) : Bool :=
  match tget s.ops id with
  | none => false
  | some o => (o.stopped || decide (o.len ≤ o.next)) && decide (o.flying = 0) && s.pieces.all (fun e => e.2.op != id)

/-- The report of a piece at the native core (R255): its end is taken in; the last completes the operation. -/
def pieceReport (pc : Nat) (s : State) : State :=
  match tget s.pieces pc with
  | none => s
  | some p =>
    let s := tellFailure p.op false (modOp p.op (mergeEnd p.status p.cause p.failOff) { s with pieces := tdel s.pieces pc })
    if opEnded s p.op then finishOp p.op s else s

/-- A piece ends where it is: its report leaves for the native core of its strand. One of a piece that was stopped or lost comes back as
a kill notice does, with no check (log 21). -/
def reportPiece (pc from_ status cause failOff : Nat) (s : State) : State :=
  match tget s.pieces pc with
  | none => s
  | some p =>
    let native := match tget s.ops p.op with | some o => o.sid / 32 | none => from_
    let owner := match tget s.ops p.op with | some o => o.owner | none => 0
    let s1 := modPiece pc (fun p => { p with status := status, cause := cause, failOff := failOff }) s
    let e : Instr := .engineCompletionReport pc
    if 3 ≤ status then sched (leg s from_ native) e s1 else sendOff (plainFrame owner from_ native [] false e) pc (hubWay from_) (leg s from_ native) s1

/-- A piece of an operation before its own fields are filled in. -/
def newPiece (op off len src dst : Nat) (s : State) : Piece :=
  let place := match tget s.ops op with | some o => o.place | none => 0
  { op := op, off := off, len := len, src := src, dst := dst, bytes := [], bad := [], epoch := (coreAt s place).epoch,
    origin := place, status := 0, cause := 0, failOff := 0, record := false, win := false, stage := 0, mates := [], began := false,
    spol := 0, dpol := 0 }

/-! ### Cache requests (R160, R326) -/

/-- The bytes of the sectors that a range touches in a line. -/
def sectorMask (line a n : Nat) : BitVec 128 :=
  (List.range 4).foldl (fun (m : BitVec 128) (i : Nat) =>
    if line * 128 + 32 * i < a + n ∧ a < line * 128 + 32 * i + 32 then m ||| span (32 * i) 32 else m) 0

/-- Writes back the dirty bytes of a line under a mask, with a write-back token of a partition (R173); an earlier eviction of the line
drains before it. -/
def flushLine (part cl line : Nat) (mask : BitVec 128) (s : State) : State :=
  let k := sliceAt s cl
  let s := (k.wb.filter (fun l => l.line == line)).foldl (fun s l => writeBack l s) s
  let s := modSlice cl (fun k => { k with wb := k.wb.filter (fun l => l.line != line) }) s
  match k.lines.find? (fun l => l.line == line) with
  | none => s
  | some l =>
    let s := modSlice cl (fun k => { k with lines := lmod (fun l => l.line == line) (fun l => { l with dirty := l.dirty &&& ~~~mask }) k.lines }) s
    if l.dirty &&& mask = 0 then s
    else accrualOn cl (modSlice cl (creditToken 0 part) (writeBack { l with dirty := l.dirty &&& mask } s))

/-- What a cache request of a partition does to one line of its range; a word that a discard changes is looked at by its watches
(R154, R160). -/
def cacheLine (kind : OpKind) (cl line a n part : Nat) (streaming : Bool) (s : State) : State :=
  let core := homeOf (line * 128)
  let whole : Bool := decide (a ≤ line * 128 ∧ line * 128 + 128 ≤ a + n)
  match kind with
  | .flush => flushLine part cl line (sectorMask line a n) s
  | .discard | .cdisc =>
    let s := if whole then reWatch (line * 128) 128 (modSlice cl (fun k => { k with lines := k.lines.filter (fun l => l.line != line) }) s)
      else flushLine part cl line (BitVec.allOnes 128) s
    invalL1Range core (line * 128) 128 s
  | _ => if present (sliceAt s cl) (line * 128) 128 then useLine cl line s else startMiss cl (line * 128) 128 part streaming s

/-- The request for the line of a cache operation at an offset of its range, in a cycle: a prefetch needs a miss entry where it misses
(R171). -/
def lineRequest (pc at_ : Nat) (p : Piece) (o : Op) (s : State) : State :=
  let home := homeOf p.src
  let brings : Bool := decide (o.kind = .prefetch ∨ o.kind = .cpref)
  let port := if o.kind = .cpref then 3 else 2
  request (clusterOf home) ⟨port, chargeOp s o, home, at_, 0, (p.src + p.off) / 128 * 128, if brings then 128 else 0, p.spol, .sliceCacheRequest pc, none⟩ s

/-- A request at its slice, one line a turn (R160, R170): a line whose fill is pending waits there; what crossed a boundary under win is
checked against the window first (R134, R346). src is the PA of the range, len its length, off what has been done. -/
def cacheRequest (pc : Nat) (s : State) : State :=
  match tget s.pieces pc with
  | none => s
  | some p =>
    match tget s.ops p.op with
    | none => s
    | some o =>
      let home := homeOf p.src
      let cl := clusterOf home
      let a := p.src + p.off
      let line := a / 128
      let k := sliceAt s cl
      let brings : Bool := decide (o.kind = .prefetch ∨ o.kind = .cpref)
      let drops : Bool := decide (o.kind = .discard ∨ o.kind = .cdisc)
      let busy : Bool := if brings then missWaits k (line * 128) 128 p.spol else k.miss.any (fun e => e.line == line)
      if p.began = false then lineRequest pc s.now p o (modPiece pc (fun p => { p with began := true }) s)
      else if p.off = 0 ∧ p.win ∧ crosses s o.place home ∧ !windowAdmits s o.owner p.src p.len (!drops) drops then
        reportPiece pc home 3 10 p.failOff (noteFail p.op 10 p.failOff s)
      else if p.len ≤ p.off then reportPiece pc home p.status p.cause p.failOff s
      else if busy then
        sched 1 (.sliceCacheRequest pc) s
      else
        let s := cacheLine o.kind cl line p.src p.len (chargeOp s o) (decide (p.spol = 1)) s
        let n := 128 - a % 128
        let s := modPiece pc (fun p => { p with off := p.off + n }) s
        if p.len ≤ p.off + n then reportPiece pc home p.status p.cause p.failOff s
        else lineRequest pc (s.now + 1) { p with off := p.off + n } o s

def execSliceCacheRequest (pc : Nat) (s : State) : Out := .next (cacheRequest pc s)
def execEngineCompletionReport (pc : Nat) (s : State) : Out := .next (pieceReport pc s)
def execRangeLockRelease (place id : Nat) (s : State) : Out := .next (unlock place id s)
def execTileSetDown (place t b : Nat) (poisoned : Bool) (s : State) : Out := .next (tileCount place t b poisoned s)

/-- A delivery into a tile fails (R163). -/
def tileFault (place t : Nat) (s : State) : State := modTile place t (fun x => if x.st = .filling then { x with faulted := true } else x) s

/-- A piece of a delivery fails; pc is the piece. -/
def execTileDeliveryFault (place t off pc : Nat) (s : State) : Out :=
  .next (match (tget s.pieces pc).bind (fun p => (tget s.ops p.op).map (fun o => (p, o))) with
    | none => s
    | some (p, o) => q9Notice place o (tileNotice p.cause off t o.pc) (tileFault place t s))

/-- Sends one cache request piece under a policy to the slice of a PA, unless it stops on its way (R336). -/
def sendCache (op off len pa pol : Nat) (win : Bool) (s : State) : State :=
  match tget s.ops op with
  | none => s
  | some o =>
    let home := homeOf pa
    let id := s.fresh
    let near : Bool := decide (moduleOf o.place = moduleOf home)
    let s1 := bump { s with pieces := tput s.pieces id { newPiece op 0 len pa pa s with win := win, failOff := off, spol := pol, began := near } }
    if pieceStops s o.place home win then sched (2 * leg s o.place home) (.engineCompletionReport id)
      (modPiece id (fun p => { p with status := 3, cause := 10, failOff := off, stage := 6 }) (noteFail op 10 off s1))
    else if near then lineRequest id (realNow s + leg s o.place home) { newPiece op 0 len pa pa s with spol := pol } o s1
    else sendOff (plainFrame o.owner o.place home [] win (.sliceCacheRequest id)) id (hubWay o.place) (leg s o.place home) s1

end

end Sys2Proof.Machine
end

