-- ==== Sys2Proof/Machine/Cache.lean ====
section
/-! DEFINITION. Fences and cache instructions (R156 to R160), tile and record instructions (R161 to R168): majors 0x0F and
0x10. -/

namespace Sys2Proof.Machine

open Sys2Proof

noncomputable section

/-! ### Fences (R158) -/

/-- A fence: vector memory operations enter first (R181), then its counts and results, off the native core with a report; acq and full
invalidate the L1. -/
def fence (kind : Nat) (scope : BitVec 5) (k : BitVec 1) (s : State) : State :=
  if s.me.vmems ≠ 0 then park .vmem s
  else if fenceHolds s s.cur kind scope.toNat then
    if kind ≠ 0 ∧ isNative s.me = false then park (.report kind k (reportAt s s.me)) s
    else retire k (if kind = 0 ∨ kind = 2 then invalL1 s.here s else s)
  else park (.fence kind scope.toNat k) s

def execFenceAcq (f : BitVec 5) (k : BitVec 1) (s : State) : Out := .next (fence 0 f k s)
def execFenceRel (f : BitVec 5) (k : BitVec 1) (s : State) : Out := .next (fence 1 f k s)
def execFenceFull (f : BitVec 5) (k : BitVec 1) (s : State) : Out := .next (fence 2 f k s)
def execFenceEng (f : BitVec 5) (k : BitVec 1) (s : State) : Out := .next (fence 3 f k s)

/-- invl1 (R159). -/
def execInvl1 (k : BitVec 1) (s : State) : Out := .next (retire k (invalL1 s.here s))

/-! ### prefetch, flush, discard (R160) -/

/-- The issue of a cache operation over a range that its checks have passed. -/
def issueCache (kind : OpKind) (pa len pol : Nat) (win : Bool) (s : State) : State :=
  let o : Op := { newOp kind s with cls := classOf s.here [homeOf pa], src := pa, dst := pa, len := len, next := len, policy := pol }
  let id := s.fresh
  let s1 := startOp o s
  if kind = .prefetch ∧ pol = 2 then
    finishOp id s1
  else sendCache id 0 len pa pol win s1

/-- The range leaves the page of its first byte, of either size; a page whose translation is not there is not known to be left
(R132, R160). -/
def leavesPage (s : State) (va len : Nat) : Bool :=
  match tlbFind (coreAt s s.here).tlb s.me.asn va with
  | some e => decide (va / 2 ^ e.bits ≠ (va + len - 1) / 2 ^ e.bits)
  | none => false

def cacheOp (kind : OpKind) (n a b : BitVec 5) (k : BitVec 1) (s : State) : State :=
  decodeOk false [a.toNat, b.toNat] [] false (fun s =>
    let len := (rv s b).toNat
    if s.me.vmems ≠ 0 then park .vmem s
    else if len = 0 then retire k s
    else withEa (rec5 n) (rv s a) 1 (retire k) (fun va s =>
      if 65536 < len ∨ leavesPage s va.toNat len then raise 4 (rv s a) s
      else
        let d := decide (kind = .discard)
        withTr va (!d) d false (fun pa page win s =>
          match space s pa with
          | .vault _ _ => retire k (issueCache kind pa len (policyOf s page 0 (rec5 n)) win s)
          | .hole => raise (if bits pa 47 46 = 0 then 5 else 6) va s
          | _ => raise 6 va s) s) s) s

def execDiscard (n a b : BitVec 5) (k : BitVec 1) (s : State) : Out := .next (cacheOp .discard n a b k s)
def execPrefetch (n a b : BitVec 5) (k : BitVec 1) (s : State) : Out := .next (cacheOp .prefetch n a b k s)
def execFlush (n a b : BitVec 5) (k : BitVec 1) (s : State) : Out := .next (cacheOp .flush n a b k s)

/-! ### Tiles (R161 to R165) -/

/-- A tile instruction: not on the MC (R393); a tile that another grid defined raises 0x0D with its number (R162). -/
def tileOp (i : Instr) (t : BitVec 6) (srcs dsts : List Nat) (f : Tile → State → State) (s : State) : State :=
  allowed i true true false (decodeOk false srcs dsts false (fun s =>
    let x := tileAt s s.here t.toNat
    if x.defined ∧ x.grid ≠ ctxKey s.me then raise 13 (w64 t.toNat) s else f x s)) s

/-- 0x0D with the tile number. -/
def badTile (t : BitVec 6) (s : State) : State := raise 13 (w64 t.toNat) s

def execTdef (l m : BitVec 1) (t : BitVec 6) (a b : BitVec 5) (k : BitVec 1) (s : State) : Out :=
  .next (tileOp (.tdef l m t a b k) t [a.toNat, b.toNat] [] (fun x s =>
    let sa := (rv s a).toNat
    let sb := (rv s b).toNat
    if x.defined ∧ (x.st ≠ .empty ∨ x.ring.isSome) then badTile t s
    else if sa % 32 ≠ 0 ∨ 0x3BFFE0 < sa then raise 13 (rv s a) s
    else if 2 ^ 23 ≤ sb ∨ sb % 32 ≠ 0 ∨ 0x3C0000 < sa + sb then raise 13 (rv s b) s
    else
      let y : Tile := if sb = 0 then Tile.none_ else { Tile.none_ with defined := true, base := sa, len := sb, grid := ctxKey s.me }
      retire k (dropL l a.toNat (dropL m b.toNat (modTile s.here t.toNat (fun _ => y) s)))) s)

def execTexp (l : BitVec 1) (t : BitVec 6) (a : BitVec 5) (k : BitVec 1) (s : State) : Out :=
  .next (tileOp (.texp l t a k) t [a.toNat] [] (fun x s =>
    let sa := (rv s a).toNat
    if ¬ x.defined ∨ x.st ≠ .empty ∨ x.ring.isSome then badTile t s
    else if sa = 0 ∨ x.len < sa then raise 13 (rv s a) s
    else retire k (dropL l a.toNat (modTile s.here t.toNat (fun x => { x with
      st := .filling, expected := sa, arrived := 0, faulted := false }) s))) s)

/-- The state field of R165. -/
def tileCode : TileState → Nat | .empty => 0 | .filling => 1 | .ready => 2 | .draining => 3

def tileWord (x : Tile) : Word :=
  w64 (x.arrived % 2 ^ 24 * 2 ^ 32 + x.expected % 2 ^ 24 * 2 ^ 8 + b2n x.defined * 8 + b2n x.faulted * 4 + tileCode x.st)

def execTstate (t : BitVec 6) (d : BitVec 5) (k : BitVec 1) (s : State) : Out :=
  .next (tileOp (.tstate t d k) t [] [d.toNat] (fun x s => retire k (wr d.toNat (tileWord x) s)) s)

/-- twait's condition: ready, or filling with a fault. -/
def tileWaitDone (x : Tile) : Bool := decide (x.st = .ready) || (decide (x.st = .filling) && x.faulted)

def execTwait (t : BitVec 6) (k : BitVec 1) (s : State) : Out :=
  .next (tileOp (.twait t k) t [] [] (fun x s =>
    if ¬ x.defined then badTile t s else if tileWaitDone x then retire k s else park (.twait t.toNat k) s) s)

def execTready (t : BitVec 6) (k : BitVec 1) (s : State) : Out :=
  .next (tileOp (.tready t k) t [] [] (fun x s =>
    if ¬ x.defined ∨ x.st = .draining ∨ x.ring.isSome then badTile t s
    else retire k (modTile s.here t.toNat (fun x => { x with st := .ready }) s)) s)

def execTdrain (t : BitVec 6) (k : BitVec 1) (s : State) : Out :=
  .next (tileOp (.tdrain t k) t [] [] (fun x s =>
    if ¬ x.defined ∨ x.st ≠ .ready ∨ x.ring.isSome then badTile t s
    else retire k (drainTiles s.here (modTile s.here t.toNat (fun x => { x with st := .draining }) s))) s)

def execTreset (t : BitVec 6) (k : BitVec 1) (s : State) : Out :=
  .next (tileOp (.treset t k) t [] [] (fun x s =>
    if ¬ x.defined then retire k s
    else retire k (modTile s.here t.toNat (fun x => { x with st := .empty, faulted := false, expected := 0, arrived := 0 }) s)) s)

/-! ### Records (R168) -/

/-- The record that 32 bytes are. -/
def recOf (bs : List Byte) : BitVec 256 := BitVec.ofNat 256 (leNat bs)

/-- A change of a place's record table. -/
def modRecs (place key : Nat) (f : GridCtx → GridCtx) (s : State) : State :=
  modCore place (fun q => { q with ctx := q.ctx.map (fun e => if e.1 = key then (e.1, f e.2) else e) }) s

/-- The 32 bytes of a record are read as its load starts: they go into the record when they return, poisoned ones do not (R168). -/
def recordNow (a : VAcc) (s : State) : State :=
  let v := recOf (sliceRead s a.pa 32)
  let fill (l : Late) : Late := if l.tag = a.tag then { l with record := l.record.map (fun r => { r with v := v }) } else l
  performLoad a (fun _ => 0) (modIf a.sid (fun x => { x with late := x.late.map fill }) s)

def execRecLd (l : BitVec 1) (n : BitVec 6) (a m : BitVec 5) (k : BitVec 1) (s : State) : Out :=
  .next (allowed (.recLd l n a m k) true true false (decodeOk false [a.toNat] [] true (fun s =>
    if n.toNat < 56 then raise 6 (w64 n.toNat) s
    else if recLoading s n.toNat then park (.record n.toNat) s
    else
      let fin (s : State) : State := retire k (dropL l a.toNat s)
      access (rec5 m) (rv s a) 32 true false 0 (fun _ => 0) k fin (fun c s =>
        atPort c 32 .load (fun s =>
          let key := ctxKey s.me
          match ctxOf s with
          | none => raise 4 (w64 n.toNat) s
          | some _ =>
            match space s c.pa with
            | .vault _ _ =>
              let a : VAcc := ⟨.record, s.cur, s.fresh, c.pa, 32, c.pol, false, .tokenAccrual 0, 0, 0, 0, false⟩
              fin (vaultAccess a (modRecs s.here key (fun t => { t with loading := ins n.toNat t.loading })
                (l1Refill s.here a.tag c.pa c.pol (startLate 0 1 c.va false (some ⟨s.here, key, n.toNat, 0⟩) s))))
            | _ => if poisoned s c.pa 32 then raise 8 c.va s else fin (modRecs s.here key (fun t => { t with recs := tput t.recs n.toNat (recOf (memRead s.mem c.pa 32)) }) s)) s) s)) s)

def execRecSt (l : BitVec 1) (n : BitVec 6) (a m : BitVec 5) (k : BitVec 1) (s : State) : Out :=
  .next (allowed (.recSt l n a m k) true true false (decodeOk false [a.toNat] [] false (fun s =>
    let fin (s : State) : State := retire k (dropL l a.toNat s)
    access (rec5 m) (rv s a) 32 false true 0 (fun _ => 0) k fin (fun c s =>
      if recLoading s n.toNat then park (.record n.toNat) s
      else match recAt s n.toNat with
      | .error (cause, v) => raise cause v s
      | .ok r =>
        let bs := leBytes 32 r.toNat
        atPort c 32 .store (fun s =>
          match space s c.pa with
          | .vault _ _ => fin (postStore c.pa bs c.pol s)
          | _ => fin (sramWrite c.pa bs s)) s) s)) s)

end

end Sys2Proof.Machine
end

