-- ==== Sys2Proof/Machine/Travel.lean ====
section
/-! DEFINITION. Travel, meetings, peer instructions and symbol inspection: majors 0x11 and 0x12 (R53 to R61, R69 to R76,
R117 to R120). -/

namespace Sys2Proof.Machine

open Sys2Proof

noncomputable section

/-! ### Going somewhere (R55 to R60) -/

/-- Every instruction of the major raises 0x06 with its word on the MC (R393). Model's choice: it does so before a port among its sources
raises 0x0C and before a source that is not full parks it (R51; log 68, DESIGN CHOICE). -/
def travelOp (i : Instr) (f : State → State) (s : State) : State := if isMc s.here then raise 6 (wordOf i) s else f s

/-- The departure wait of an explicit travel instruction (R55, R181). -/
def whenFree (f : State → State) (s : State) : State := if canDepart s s.cur then f s else park .depart s

/-- A departure of an instruction whose source register is marked `.l`. -/
def leaveL (barred : Bool) (l : BitVec 1) (a : BitVec 5) (dest : Nat) (pref : Option Nat) (k : BitVec 1) (s : State) : State :=
  let s' := departTo barred dest pref none (s.me.pc + 4) .travel k s
  if (lugFault dest s).isSome then s' else dropL l a.toNat s'

def execGo (l : BitVec 1) (a : BitVec 5) (k : BitVec 1) (s : State) : Out :=
  .next (travelOp (.go l a k) (decodeOk false [a.toNat] [] false (whenFree (fun s =>
    let v := (rv s a).toNat
    let x := s.me
    if 2 ^ 21 ≤ v then raise 10 (rv s a) s
    else if bits v 17 0 = x.place ∧ (bit v 20 = false ∨ isNative x ∨ bits v 19 18 = s.mySc) then
      retire k (dropL l a.toNat s)
    else leaveL false l a (bits v 17 0) (if bit v 20 then some (bits v 19 18) else none) k s))) s)

/-- A Caller strand that stands on a core goes to the hub of its native slot, although R61 lets `gohome` name cores only (log 36,
DESIGN CHOICE). -/
def execGohome (k : BitVec 1) (s : State) : Out :=
  .next (travelOp (.gohome k) (whenFree (fun s =>
    if isNative s.me then retire k s else depart s.me.native none none (s.me.pc + 4) .travel k s)) s)

def execGoa (l : BitVec 1) (n a : BitVec 5) (k : BitVec 1) (s : State) : Out :=
  .next (travelOp (.goa l n a k) (decodeOk false [a.toNat] [] false (whenFree (fun s =>
    let stay (s : State) : State := retire k (dropL l a.toNat s)
    withEa (rec5 n) (rv s a) 1 stay (fun va s =>
      withTr va true false false (fun pa _ _ s =>
        if homeOf pa = s.here then stay s
        else leaveL (hubBarred s s.me pa) l a (homeOf pa) none k s) s) s))) s)

def execLug (l m : BitVec 1) (b a : BitVec 5) (k : BitVec 1) (s : State) : Out :=
  .next (travelOp (.lug l m b a k) (decodeOk false [a.toNat, b.toNat] [] false (fun s =>
    let sa := (rv s a).toNat
    let sb := (rv s b).toNat
    if 2 ^ 22 ≤ sa then raise 9 (rv s a) s
    else if 4096 < sb then raise 9 (rv s b) s
    else if 0x400000 < sa + sb then raise 9 (rv s a) s
    else retire k (dropL l a.toNat (dropL m b.toNat (modMe (fun x => { x with lug := if sb = 0 then none else some (sa, sb) }) s))))) s)

def execWhereIs (d : BitVec 5) (k : BitVec 1) (s : State) : Out :=
  .next (travelOp (.whereIs d k) (fun s =>
    if 16 ≤ d.toNat then raise 12 (w64 d.toNat) s
    else decodeOk false [] [] false (fun s => retire k (wr d.toNat (w64 (placeId s.here s.me.slot)) s)) s) s)

/-! ### Meetings (R69 to R72, R76) -/

/-- The cores of a grid's core set in ascending order (R313). -/
def coreSet (g : Grid) : List Nat :=
  g.modules.flatMap (fun m => (List.range 1024).filterMap (fun c => if bit g.quarters (c / 4 % 16 / 4) then some (m * 1024 + c) else none))

/-- The mixing of a hashed key's low 40 bits. -/
def mixKey (x : Nat) : Nat :=
  let y := (x ^^^ (x / 2 ^ 20)) * 0x5B2C93E71 % 2 ^ 40
  y ^^^ (y / 2 ^ 23)

/-- The core of a hashed key over a core set. -/
def hashCore (cores : List Nat) (x : Nat) : Option Nat := cores[mixKey x * cores.length / 2 ^ 40]?

/-- meet_core (R69): the core, or the cause and value raised. -/
def meetCore (s : State) (x : Strand) (key word : Word) : Except (Nat × Word) Nat :=
  let v := key.toNat
  if 2 ≤ bits v 63 62 then .error (1, word)
  else if bits v 63 62 = 1 then (if bits v 61 58 ≠ 0 then .error (11, key) else .ok (bits v 57 40))
  else if bits v 61 40 ≠ 0 then .error (11, key)
  else match x.grid.bind (tget s.grids) with
  | none => .error (11, key)
  | some g => match hashCore (coreSet g) (bits v 39 0) with | some c => .ok c | none => .error (11, key)

/-- A strand that is party to a meeting raises for that before its key is looked at: the spec gives no order (log 36, DESIGN
CHOICE). -/
def execMeet (l m : BitVec 1) (b a d : BitVec 5) (k : BitVec 1) (s : State) : Out :=
  let i : Instr := .meet l m b a d k
  .next (travelOp i (decodeOk false [a.toNat, b.toNat] [d.toNat] false (whenFree (fun s =>
    let x := s.me
    match meetOf s s.cur with
    | some _ => raise 11 (wordOf i) s
    | none =>
      match meetCore s x (rv s a) (wordOf i) with
      | .error (c, v) => raise c v s
      | .ok core =>
        let drop := (if l = 1 then [a.toNat] else []) ++ (if m = 1 then [b.toNat] else [])
        let op : MeetOp := ⟨d.toNat, rv s a, (rv s b).toNat, drop, k, none⟩
        if core = x.place then
          sched 3 (.parkWake s.cur) (modMe (fun x => { x with
            pc := x.pc + 4, meetOp := some op, park := some .meet, readyAt := s.now + 8, brought := 0 }) s)
        else if (lugFault core s).isSome then depart core none none (x.pc + 4) .meet 0 s
        else depart core none none (x.pc + 4) .meet 0 (modMe (fun x => { x with meetOp := some op }) s)))) s)

def execPart_ (k : BitVec 1) (s : State) : Out :=
  .next (travelOp (.part_ k) (fun s =>
    match meetOf s s.cur with
    | some e => if e.st = .met ∨ e.st = .closing then retire k (leaveMeeting s.cur .parted s) else raise 11 (wordOf (.part_ k)) s
    | none => raise 11 (wordOf (.part_ k)) s) s)

/-! ### The partner (R73 to R75) -/

/-- A peer instruction acts on its partner while the meeting is met, else 0x0B. -/
def peer (i : Instr) (srcs dsts : List Nat) (late : Bool) (f : Nat → State → State) (s : State) : State :=
  travelOp i (decodeOk false srcs dsts late (fun s =>
    match partnerOf s s.cur with | some p => f p s | none => raise 11 (wordOf i) s)) s

def execPget (p d : BitVec 5) (k : BitVec 1) (s : State) : Out :=
  .next (peer (.pget p d k) [] [d.toNat] true (fun o s =>
    let y := strandAt s o
    if isFull y p.toNat then retire k (wr d.toNat (regVal y p.toNat) s)
    else
      let r : MeetRead := ⟨s.cur, s.fresh, o, p.toNat⟩
      retire k (modCore s.here (fun c => { c with reads := c.reads ++ [r] }) (startLate d.toNat 5 s.me.pc false none s))) s)

/-- A peer's write of a register: an instruction that the partner has in flight keeps what it has read of it, its first source in
n + 2 and the others in n + 3 (R27); a destination that is read too counts with the others (log 4, DESIGN CHOICE). -/
def peerSet (o r : Nat) (v : Word) (s : State) : State :=
  let keep (x : Strand) : Strand :=
    match x.flight with
    | none => x
    | some f =>
      let first : Bool := (f.word.map (fun w => bits w.toNat 19 15)) == some r
      if f.back.isNone ∧ f.issued + (if first then 2 else 3) ≤ s.now + s.lag ∧ (f.seen.any (fun e => e.1 == r)) = false then
        { x with flight := some { f with seen := f.seen ++ [(r, regVal x r)] } }
      else x
  modPair o (fun x => setReg r v (keep x)) s

def execPput (l : BitVec 1) (a p : BitVec 5) (k : BitVec 1) (s : State) : Out :=
  .next (peer (.pput l a p k) [a.toNat] [] false (fun o s =>
    let y := strandAt s o
    if awaits y p.toNat ∨ symbolic y p.toNat then raise 11 (wordOf (.pput l a p k)) s
    else retire k (dropL l a.toNat (peerSet o p.toNat (rv s a) s))) s)

def execPxch (p d : BitVec 5) (k : BitVec 1) (s : State) : Out :=
  .next (peer (.pxch p d k) [d.toNat] [d.toNat] false (fun o s =>
    let y := strandAt s o
    if isFull y p.toNat = false then raise 11 (wordOf (.pxch p d k)) s
    else retire k (wr d.toNat (regVal y p.toNat) (peerSet o p.toNat (rv s d) s))) s)

def execPlug (d : BitVec 5) (k : BitVec 1) (s : State) : Out :=
  .next (peer (.plug d k) [] [d.toNat] false (fun o s =>
    let y := strandAt s o
    retire k (wr d.toNat (w64 (y.brought % 2 ^ 13 * 2 ^ 22 + (0x3C0000 + 0x1000 * y.slot))) s)) s)

/-! ### Symbols under inspection (R117 to R120) -/

/-- The value of a tag returns in the cycle of the decode, the one after the issue. -/
def returnsAtDecode (s : State) (tag : Nat) : Bool :=
  s.agenda.any (fun e => decide (e.1 ≤ s.now + 1) && (match e.2 with | .lateResultReturn _ _ v => v.tag == tag | _ => false))

/-- The word of symq; the entry resolves from the cycle on in which its value returns. -/
def symqWord (s : State) (x : Strand) (r : Nat) : Word :=
  match regSt x r with
  | .full => 0
  | .sym e t =>
    match tget (scAt s x.place (x.slot / 8)).syms e with
    | none => 2
    | some y =>
      let age := min (s.now + 1 - y.born) 0xFFFFFFFF
      let step := match t with | .step _ => true | _ => false
      w64 (age * 2 ^ 32 + y.steps.length * 2 ^ 13 + b2n (decide (t = .tagged)) * 2 ^ 12 + b2n step * 2 ^ 10 + e * 2 ^ 5
        + (if y.value.isSome || returnsAtDecode s y.tag then 3 else 2))
  | .await _ => 0x1001
  | .empty => 1

def execSymq (x d : BitVec 5) (k : BitVec 1) (s : State) : Out :=
  .next (decodeOk false [] [d.toNat] false (fun s' => retire k (wr d.toNat (symqWord s s.me x.toNat) s')) s)

def execSymw (x : BitVec 5) (k : BitVec 1) (s : State) : Out :=
  .next (if symbolic s.me x.toNat ∨ awaits s.me x.toNat then park (.symw x.toNat k) s else retire k s)

/-- The origin of the value that a register awaits. -/
def symtagWord (s : State) (x : Strand) (r : Nat) : Word :=
  let w (pc : Word) (src : Nat) : Word := w64 (bits pc.toNat 55 2 * 2 ^ 10 + src)
  match regSt x r with
  | .await t => match x.late.find? (fun l => decide (l.tag = t)) with | some l => w l.pc l.src | none => 0
  | .sym e _ => match tget (scAt s x.place (x.slot / 8)).syms e with | some y => w y.pc y.src | none => 0
  | _ => 0

def execSymtag (x d : BitVec 5) (k : BitVec 1) (s : State) : Out :=
  .next (decodeOk false [] [d.toNat] false (fun s' => retire k (wr d.toNat (symtagWord s s.me x.toNat) s')) s)

end

end Sys2Proof.Machine
end

