-- ==== Sys2Proof/Machine/Task.lean ====
section
/-! DEFINITION. Fork and join: major 0x13, frames, the deque unit, thieves and idle slots (R267 to R283). -/

namespace Sys2Proof.Machine

open Sys2Proof

noncomputable section

/-! ### Episodes of level barriers (R302) -/

/-- The number of a core's group at a level: 0 core, 1 cluster, 2 tower, 3 module, 4 pod. -/
def groupOf (level core : Nat) : Nat :=
  match level with | 0 => core | 1 => clusterOf core | 2 => towerOf core | 3 => moduleOf core | _ => 0

/-- Strands of a grid that are members of a group: live ones, whatever they do. -/
def membersOf (s : State) (grid level group : Nat) : List Nat :=
  (s.strands ++ s.store).filterMap (fun e =>
    if e.2.grid = some grid ∧ e.2.run ≠ .idle ∧ groupOf level e.2.native = group then some e.1 else none)

/-- Every member has arrived or left. -/
def Episode.complete (e : Episode) : Bool := e.members.all (fun m => e.arrived.contains m)

def modEpisode (id : Nat) (f : Episode → Episode) (s : State) : State :=
  { s with episodes := lmod (fun e => e.id == id) f s.episodes }

/-- An episode that is complete: its release is on its way (R302 gives no time). -/
def releaseDue (id : Nat) (s : State) : State :=
  match s.episodes.find? (fun e => e.id == id) with
  | some e => if e.complete then schedFree (.barrierRelease id) s else s
  | none => s

/-- Two episodes of one group at one level. -/
def Episode.same (a b : Episode) : Bool := decide (a.grid = b.grid ∧ a.level = b.level ∧ a.group = b.group)

/-- Once an episode is complete its release is on its way, and the next one of its group, where strands have arrived at it already,
becomes the present one, with the live strands of the group as its members. -/
def checkEpisode (id : Nat) (s : State) : State :=
  match s.episodes.find? (fun e => e.id == id) with
  | none => s
  | some e =>
    if e.complete = false ∨ e.behind then s
    else
      let s := releaseDue id s
      match s.episodes.find? (fun f => f.behind && f.same e) with
      | none => s
      | some f =>
        releaseDue f.id (modEpisode f.id (fun f => { f with
          behind := false, left := [], members := (membersOf s f.grid f.level f.group ++ f.arrived).eraseDups }) s)

/-- A strand ends (exit, idle, kill, loss): it leaves every episode of its grid at which it has not arrived; where it has, it stays
counted. Its slot, live again, joins the next (R302). -/
def leaveEpisodes (id : Nat) (s : State) : State :=
  let x := strandAt s id
  (s.episodes.filter (fun e => decide (some e.grid = x.grid) && e.members.contains id)).foldl (fun s e =>
    checkEpisode e.id (modEpisode e.id (fun e => { e with
      left := ins id e.left, members := if e.arrived.contains id then e.members else e.members.filter (· != id) }) s)) s

/-! ### Frames (R268) -/

/-- A handle word: the link as frames and `exit` name it. -/
def linkWord (t : TaskLink) : Word :=
  w64 (b2n t.valid * 2 ^ 63 + t.core % 2 ^ 18 * 2 ^ 24 + t.index % 2 ^ 6 * 2 ^ 16 + t.seq % 2 ^ 16)

/-- The bytes of a frame: words 0 to 23 in ascending order. -/
def frameBytes (x : Strand) (pc : Word) (ctr seq index : Nat) : List Byte :=
  let regs := (List.range 15).map (fun i => regVal x (i + 1))
  let words : List Word := [w64 (x.grid.getD 0 * 2 ^ 32 + seq * 2 ^ 16 + index)] ++ regs ++
    [pc, w64 ctr, linkWord x.link, w64 x.link.ctr, x.status, w64 (x.wtimeout.toNat * 2 ^ 32 + x.fcsr.toNat),
      w64 (x.native * 32 + x.nslot), 0]
  words.flatMap (fun w => leBytes 8 w.toNat)

/-- Word i of a frame's bytes. -/
def frameWord (bs : List Byte) (i : Nat) : Nat := leNat ((bs.drop (8 * i)).take 8)

/-- The strand's registers take a frame's values, all full (R273). -/
def restoreRegs (bs : List Byte) (x : Strand) : Strand :=
  { x with
    regs := Vector.ofFn (fun (i : Fin 16) => if i.val = 0 then 0 else w64 (frameWord bs i.val))
    rst := Vector.replicate 16 .full
    pc := w64 (frameWord bs 16)
    status := (x.status &&& ~~~3) ||| (w64 (frameWord bs 20) &&& 3)
    fcsr := BitVec.ofNat 8 (frameWord bs 21)
    wtimeout := BitVec.ofNat 32 (frameWord bs 21 / 2 ^ 32)
    carried := none }

/-- The link before the frame's push: plink and pctr. -/
def frameLink (bs : List Byte) : TaskLink :=
  let p := frameWord bs 18
  ⟨bit p 63, bits p 41 24, bits p 21 16, bits p 15 0, frameWord bs 19, 0⟩

/-- A frame of the deque restored into a strand whose next issue is d cycles away; the depth of inline frames stays. Its
slot waits to send a thief no longer. -/
def restoreFrame (id : Nat) (bs : List Byte) (d : Nat) (s : State) : State :=
  let s : State := { s with agenda := s.agenda.filter (fun e => !(e.2 == .thiefRetry id)) }
  modPair id (fun x => { restoreRegs bs x with
    link := { frameLink bs with depth := x.link.depth }, run := .live, park := none, readyAt := s.now + d }) s

/-- Byte address of place j of a core's deque, and of inline frame d of a native slot. -/
def framePa (core j : Nat) : Nat := sramBase core + 0x3E0000 + 0x100 * j
def inlinePa (x : Strand) (d : Nat) : Nat := floorAt x.native x.nslot + 0x1000 - 192 * d

/-! ### Counters (R270, R274) -/

/-- The checks of a counter operand at the issuing core; a strand that has travelled with its PA replays. -/
def counter (n : BitVec 5) (off : Word) (f : Carry → State → State) (s : State) : State :=
  if s.me.vmems ≠ 0 then park .vmem s
  else match s.me.carried with
  | some c => f c s
  | none =>
    withEa (rec5 n) off 8 (raise 4 off) (fun va s =>
      withTr va true true false (fun pa _ win s =>
        match space s pa with
        | .pad _ o => if o < 0x3C0000 then f ⟨pa, va, 0, 0, win, true, true, myEpoch s⟩ s else raise 6 va s
        | _ => raise 6 va s) s) s

/-! ### spawn (R271) -/

/-- An idle slot that may take a frame: the notice of its end has come (R277), and nothing of it waits for a kill's adjustment. -/
def isIdle (x : Strand) : Bool := decide (x.run = .idle ∧ x.kind = .core) && !x.away && decide (x.link.depth = 0) && !x.link.valid

/-- A deque has a frame more: the core's idle slots of the grid request it after d cycles, in ascending slot number (R272,
R280), whether or not their thieves are out. -/
def callIdle (core grid d : Nat) (s : State) : State :=
  (s.strands.filter (fun e => decide (e.2.native = core ∧ e.2.grid = some grid) && isIdle e.2)).foldl
    (fun s e => sched d (.dequeTakeRequest core e.1 0) s) s

def spawnOp (target : Word) (k : BitVec 1) (c : Carry) (s : State) : State :=
  let x := s.me
  if isNative x = false then depart x.native none none x.pc .again 0 s
  else
    let held := (coreAt s x.place).deque
    let free := (List.range 64).find? (fun j => held.all (fun p => p.j != j))
    match (if x.link.depth = 0 then free else none) with
    | some j =>
      let seq := (coreAt s x.place).dqCtr.toNat
      let s1 := pokeBytes (framePa x.place j) (frameBytes x (x.pc + 4) c.pa seq j) s
      let s2 := modCore x.place (fun q => { q with
        deque := q.deque ++ [⟨j, .held, x.grid.getD 0, x.block, seq, 0, 0, 0⟩], dqCtr := q.dqCtr + 1 }) s1
      retireAt target k (modMe (fun x => { x with link := ⟨true, x.place, j, seq, c.pa, 0⟩ }) (callIdle x.place (x.grid.getD 0) 8 s2))
    | none =>
      if x.link.depth = 21 then raise 9 (w64 x.link.depth) s
      else
        let s1 := pokeBytes (inlinePa x (x.link.depth + 1)) (frameBytes x (x.pc + 4) c.pa 0 0) s
        retireAt target k (modMe (fun x => { x with link := { x.link with depth := x.link.depth + 1 } }) s1)

def execSpawn (o : BitVec 12) (n a : BitVec 5) (k : BitVec 1) (s : State) : Out :=
  .next (allowed (.spawn o n a k) true false false (decodeOk false [a.toNat] [] false (whenFree (fun s =>
    counter n (rv s a) (spawnOp (s.me.pc + o.signExtend 64 * 4) k) s))) s)

/-! ### Ends of strands (R273, R277, R280) -/

/-- A strand ends by itself: a guest slot is free at once, its native slot becomes idle with the notice in N1, and looks for a frame; a
Caller's or MC's slot becomes free. -/
def endStrand (id : Nat) (s : State) : State :=
  let x := strandAt s id
  let s := dropLoads x (leaveEpisodes id (leaveMeeting id .parted s))
  let s := modSc x.place (x.slot / 8) (fun q => { q with syms := q.syms.filter (fun e => e.2.sid != id) }) s
  match x.kind with
  | .core =>
    sched (leg s x.place x.native) (.dequeTakeRequest x.native id 0)
      (modStrand id (fun x => { x with
        place := x.native, slot := x.nslot, away := !isNative x, run := .idle, lug := none, late := [], park := none, carried := none
        rst := Vector.replicate 16 .full, link := TaskLink.reset }) s)
  | _ => { s with strands := tdel s.strands id }

/-- The decrement of a counter word (R273). -/
def decWord (w : Nat) : Word := w64 (w / 2 ^ 32 * 2 ^ 32 + (w % 2 ^ 32 + 2 ^ 32 - 1) % 2 ^ 32)

def jendDec (c : Carry) (s : State) : State :=
  atPort c 8 .amo (fun s =>
    if poisoned s c.pa 8 then raise 8 c.va s
    else endStrand s.cur (sramWrite c.pa (leBytes 8 (decWord (peek8 s c.pa)).toNat) s)) s

/-- The place of this core's deque that a link names. -/
def linkPlace (s : State) (x : Strand) : Option DqPlace :=
  if x.link.valid ∧ fwdCore s x.link.core = x.place then
    (coreAt s x.place).deque.find? (fun p => decide (p.j = x.link.index ∧ p.seq = x.link.seq))
  else none

/-- A register that awaits a result, where a `jend` would restore a frame: it writes them all, so it parks (R29, R109). -/
def restoreWaits (s : State) (x : Strand) : Option Nat :=
  if x.link.depth ≠ 0 ∨ (linkPlace s x).any (fun p => decide (p.st = .held)) then (List.range 16).find? (fun r => decide (r ≠ 0) && awaits x r) else none

def jendOp (k : BitVec 1) (c : Carry) (s : State) : State :=
  let x := s.me
  if x.carried.isSome then jendDec c s
  else if isNative x = false then whenFree (depart x.native none none x.pc .again 0) s
  else if let some r := restoreWaits s x then park (.dest r) s
  else if x.link.depth ≠ 0 then
    let bs := memRead s.mem (inlinePa x x.link.depth) 192
    let s1 := modMe (fun x => { restoreRegs bs x with
      link := { x.link with depth := x.link.depth - 1 }, readyAt := s.now + 14 }) s
    if k = 1 ∧ settled s1 s1.cur = false then modMe (fun x => { x with park := some .kbit }) s1 else s1
  else match linkPlace s x with
  | some p =>
    if p.st = .taking then park (.dequeFree x.place p.j) s
    else if p.st = .held then
      let bs := memRead s.mem (framePa x.place p.j) 192
      let s1 := modCore x.place (fun q => { q with deque := q.deque.filter (fun r => r.j != p.j) }) s
      let s2 := restoreFrame s1.cur bs 14 s1
      if k = 1 ∧ settled s2 s2.cur = false then modMe (fun x => { x with park := some .kbit }) s2 else s2
    else atHome c k (jendDec c) s
  | none => atHome c k (jendDec c) s

def execJend (l : BitVec 1) (n a : BitVec 5) (k : BitVec 1) (s : State) : Out :=
  .next (allowed (.jend l n a k) true false false (decodeOk false [a.toNat] [] false (fun s =>
    counter n (rv s a) (jendOp k) s)) s)

/-! ### join (R275) -/

/-- A strand parked in a word list retires with a value. -/
def retireWord (w : WordWait) (v : Word) (s : State) : State :=
  let s := modStrand w.sid (fun x =>
    let y := setReg w.sd v { x with park := none, pc := x.pc + 4, readyAt := s.now + 2, carried := none }
    w.drop.foldl (fun x r => setRst r .empty x) y) s
  if w.k = 1 ∧ settled s w.sid = false then modStrand w.sid (fun x => { x with park := some .kbit }) s else s

def execJoin (l : BitVec 1) (n a d : BitVec 5) (k : BitVec 1) (s : State) : Out :=
  .next (allowed (.join l n a d k) true false false (decodeOk false [a.toNat] [d.toNat] false (fun s =>
    counter n (rv s a) (fun c s =>
      atHome c k (atPort c 8 .load (fun s =>
        let w := w64 (peek8 s c.pa)
        if poisoned s c.pa 8 then raise 8 c.va s
        else if joinDone w then retire k (dropL l a.toNat (wr d.toNat w s))
        else if 16 ≤ (coreAt s s.here).joins.length then park .joinList s
        else
          let e : WordWait := ⟨s.cur, c.pa, 0, d.toNat, if l = 1 then [a.toNat] else [], k, none⟩
          park .join (modCore s.here (fun q => { q with joins := q.joins ++ [e] }) s))) s) s)) s)

/-- The port looks at the join list of a word, one entry a cycle (R275). -/
def joinServe (core word : Nat) (s : State) : State :=
  let ready (w : WordWait) : Bool := decide (w.word = word) && (match w.seen with | some v => joinDone v | none => false)
  match (coreAt s core).joins.find? ready with
  | none => s
  | some w =>
    let s1 := modCore core (fun q => { q with joins := dropFirst (· == w) q.joins }) s
    let s2 := retireWord w (w.seen.getD 0) s1
    if (coreAt s2 core).joins.any ready then sched 1 (.joinListService core word) s2 else s2

def execJoinListService (place word : Nat) (s : State) : Out := .next (joinServe place word s)

/-! ### yield, exit, dqn (R276 to R278) -/

/-- The other slots of the strand's scalar core that are ready in the cycle of its decode, the one after its issue. -/
def readySlots (s : State) : List Nat :=
  let x := s.me
  s.strands.filterMap (fun e =>
    let y := e.2
    if y.place = x.place ∧ y.slot / 8 = x.slot / 8 ∧ y.away = false ∧ y.run = .live ∧ y.park.isNone ∧ y.flight.isNone ∧ y.readyAt ≤ s.now + interval x / 8 ∧ e.1 ≠ s.cur
    then some y.slot else none)

/-- The mark in a yield's list for its park bit's condition. -/
def yieldK : Nat := 255

def execYield (k : BitVec 1) (s : State) : Out :=
  let ls := readySlots s
  .next (if ls.isEmpty then retire k s
    else modMe (fun x => { x with park := some (.yield (if k = 1 then ls ++ [yieldK] else ls)) }) (retire 0 s))

def execExit (k : BitVec 1) (s : State) : Out :=
  let x := s.me
  let _ := k
  .next (if x.link.valid ∨ x.link.depth ≠ 0 then raise 6 (linkWord x.link) s
    else if settled s s.cur = false then park .exits s
    else endStrand s.cur s)

def execDqn (d : BitVec 5) (k : BitVec 1) (s : State) : Out :=
  .next (allowed (.dqn d k) true true false (decodeOk false [] [d.toNat] false (fun s =>
    let x := s.me
    let q := (myCore s).deque
    let live := match linkPlace s x with | some p => decide (p.st = .held) | none => false
    let own := (q.filter (fun p => decide (some p.grid = x.grid ∧ (p.st = .held ∨ p.st = .released)))).length
    retire k (wr d.toNat (w64 (x.link.depth * 2 ^ 16 + b2n live * 2 ^ 15 + q.length * 2 ^ 8 + own)) s))) s)

/-! ### Slots whose strand may be suspended (R369) -/

/-- A change of a strand in the context store, made as if it stood in its slot (R369). -/
def inStore (id : Nat) (f : State → State) (s : State) : State :=
  match tget s.store id with
  | none => s
  | some x =>
    let t := f { s with strands := tput s.strands id x, store := tdel s.store id }
    { t with
      strands := (match tget s.strands id with | some o => tput t.strands id o | none => tdel t.strands id)
      store := tput t.store id (strandAt t id) }

/-- A change of the strand of a block in a slot, in the slot or in its store; f takes the PA of its floor block. -/
def ofBlock (id block : Nat) (f : Nat → State → State) (s : State) : State :=
  match tget s.strands id, tget s.store id with
  | some x, some y =>
    if x.block = block then f (floorAt x.native x.nslot) s else if y.block = block then inStore id (f (storeFloor id)) s else s
  | some x, none => if x.block = block then f (floorAt x.native x.nslot) s else s
  | none, some y => if y.block = block then inStore id (f (storeFloor id)) s else s
  | none, none => s

/-- The strand of a block in a slot, in the slot or in its store. -/
def blockStrand (s : State) (id block : Nat) : Option Strand :=
  ((tget s.strands id).filter (fun x => decide (x.block = block))).orElse (fun _ => (tget s.store id).filter (fun x => decide (x.block = block)))

/-! ### Takes (R272, R280) -/

/-- A step at a counter's home that a core's deque unit sends for an owner passes no boundary and no pod link but where an open window
admits it: the bit of its page's entry is not kept with a frame (R272, R283, R336, R346; log 21, DESIGN CHOICE). -/
def stepPasses (s : State) (owner core ctr : Nat) : Bool := !crosses s core (homeOf ctr) || windowAdmits s owner ctr 8 true true

/-- The step's way there and the answer's back. -/
def sendStep (owner core ctr : Nat) (e : Instr) (s : State) : State := send owner core (homeOf ctr) (2 * leg s core (homeOf ctr)) e s

/-- What a take finds on a core for a grid: the topmost released frame, or the topmost held one where no frame of the grid
is being released. -/
def takeable (s : State) (core grid : Nat) : Option DqPlace :=
  let q := (coreAt s core).deque.filter (fun p => decide (p.grid = grid))
  match q.find? (fun p => decide (p.st = .released)) with
  | some p => some p
  | none => if q.any (fun p => decide (p.st = .releasing)) then none else q.find? (fun p => decide (p.st = .held))

/-- A frame of the grid is being released: a take waits for it. -/
def releasingOf (s : State) (core grid : Nat) : Bool :=
  (coreAt s core).deque.any (fun p => decide (p.grid = grid ∧ p.st = .releasing))

/-- A frame leaves its place for the slot of a block that took it. -/
def sendFrame (core j sid block thief : Nat) (s : State) : State :=
  let bs := memRead s.mem (framePa core j) 192
  let s1 := modCore core (fun q => { q with deque := q.deque.filter (fun p => p.j != j) }) s
  if thief = 0 then ofBlock sid block (fun _ => restoreFrame sid bs 8) s1
  else
    let t := (tget s1.thieves thief).getD ⟨sid, block, [], none⟩
    sched (leg s core (sid / 32) + 3) (.thiefFrameArrival thief)
      { s1 with thieves := tput s1.thieves thief { t with frame := some bs } }

/-- The tower's core with an index (R14). -/
def towerCore (c t : Nat) : Nat := moduleOf c * 1024 + ((yOf c / 2 * 2 + t / 16) * 16 + xOf c / 4 * 4 + t / 4 % 4) * 4 + t % 4

/-- The shift register of R281: n states from s. -/
def lfsr : Nat → Nat → List Nat
  | 0, _ => []
  | n + 1, v => v :: lfsr n (v * 2 % 32 / 2 * 2 + b2n (bit v 4 != bit v 2))

/-- The victims of a thief in order (R280, R281), without those that its route may not reach. -/
def victims (s : State) (x : Strand) : List Nat :=
  let c := x.native
  let set := match x.grid.bind (tget s.grids) with | some g => coreSet g | none => []
  let near := ((List.range 4).map (fun i => c / 4 * 4 + i)).filter (· != c)
  let tower := ((lfsr 31 (c % 31 + 1)).map (fun v => towerCore c (v ^^^ towerIndex c))).filter (fun v => v / 4 != c / 4)
  let far := ((List.range 1023).map (fun i => c / 1024 * 1024 + (c + i + 1) % 1024)).filter (fun v => towerOf v != towerOf c)
  (near ++ tower ++ far).filter (fun v => set.contains v && !stopsAt s c v false false)

/-- An idle slot sends its thief, or waits 1,024 cycles where it has no victim. -/
def sendThief (id : Nat) (s : State) : State :=
  let x := strandAt s id
  match victims s x with
  | [] => sched 1024 (.thiefRetry id) s
  | v :: t =>
    let n := s.fresh
    sched (leg s x.native v) (.thiefVictimArrival n) (bump { s with thieves := tput s.thieves n ⟨id, x.block, v :: t, none⟩ })

/-- A thief of a block's slot is out. -/
def thiefOut (s : State) (id block : Nat) : Bool := s.thieves.any (fun e => decide (e.2.sid = id ∧ e.2.block = block))

/-- The slot waits until it may send a thief again. -/
def thiefWaits (s : State) (id : Nat) : Bool := s.agenda.any (fun e => e.2 == .thiefRetry id)

/-- A take of the slot is under way at a deque. -/
def takingFor (s : State) (core id block : Nat) : Bool :=
  (coreAt s core).deque.any (fun p => decide (p.st = .taking ∧ p.taker = id ∧ p.tblock = block ∧ p.thief = 0))

/-- No engine operation of a strand's slot is counted. -/
def engZero (x : Strand) : Bool := engClear x.eng 0

/-- A slot of the block has nothing left to do; a frame that it is taking belongs to its block (log 33). -/
def slotDone (s : State) (b id : Nat) : Bool :=
  let quiet (x : Strand) : Bool := isIdle x && engZero x && decide (x.posted = 0) && decide (x.vents = 0 ∧ x.vmems = 0)
    && !thiefOut s id b && !takingFor s x.native id b
  (match tget s.strands id with | some x => decide (x.block ≠ b) || quiet x | none => true)
    && (match tget s.store id with | some x => decide (x.block ≠ b) || quiet x | none => true)

/-- The block has completed (R282), and nothing of it is outstanding (R157, R322). -/
def blockDone (s : State) (b : Nat) : Bool :=
  match tget s.blocks b with
  | none => false
  | some q => decide (q.st ≠ .ended ∧ q.st ≠ .out) && q.sids.all (slotDone s b) && !(coreAt s q.core).deque.any (fun p => p.block == b)
      && !(coming s).any (fun e => match e with | .blockRerun x => x == b | .dequeAdjustmentAccepted _ _ i => decide (i / 2 ^ 40 = b) | _ => false)

/-- The thief goes on to its next victim, or ends. -/
def nextVictim (th : Nat) (s : State) : State :=
  match tget s.thieves th with
  | none => s
  | some t =>
    match t.victims with
    | v :: w :: rest => sched (leg s v w) (.thiefVictimArrival th) { s with thieves := tput s.thieves th { t with victims := w :: rest } }
    | _ => sched 1024 (.thiefRetry t.sid) { s with thieves := tdel s.thieves th }

/-- The mark on the slot's number in the request of a take that waits at the unit for a frame that is being released. -/
def takeWaits : Nat := 2 ^ 40

/-- The place of an event among the requests of one cycle at a deque unit (R272): kill actions, takes that wait there already, takes
by idle slots of the core in ascending slot number, thieves. Owner pops act before every event (stepOnce). -/
def takeRank (s : State) (core : Nat) (e : Instr) : Option Nat :=
  match e with
  | .strandKill sid _ => if (strandAt s sid).native = core then some 0 else none
  | .dequeTakeRequest c id th => if c = core then some (if takeWaits ≤ id then 1 else if th = 0 then 2 + id % 32 else 40) else none
  | .thiefVictimArrival th =>
    match tget s.thieves th with
    | some t => (match t.victims with | v :: _ => if v = core then some 40 else none | [] => none)
    | none => none
  | _ => none

/-- A request that comes before event e at the deque unit is still to be served in this cycle. -/
def takeBehind (s : State) (core : Nat) (e : Instr) : Bool :=
  s.agenda.any (fun a => decide (a.1 ≤ s.now) && (match takeRank s core a.2, takeRank s core e with | some r, some q => decide (r < q) | _, _ => false))

/-- A take request at a deque unit: by an idle slot of the core (thief 0), whose block has not completed (R280), or by a thief, whose slot may
be suspended meanwhile. -/
def takeRequest (core sid thief : Nat) (s : State) : State :=
  let id := sid % takeWaits
  let t := tget s.thieves thief
  match (if thief = 0 then tget s.strands id else t.bind (fun t => blockStrand s id t.block)) with
  | none => if thief = 0 then s else { s with thieves := tdel s.thieves thief }
  | some x =>
    let g := x.grid.getD 0
    if isIdle x = false ∨ (thief = 0 ∧ (takingFor s core id x.block = true ∨ blockDone s x.block = true)) then
      (if thief = 0 then s else { s with thieves := tdel s.thieves thief })
    else match takeable s core g with
    | some p =>
      if p.st = .released then sendFrame core p.j id x.block thief s
      else
        let ctr := frameWord (memRead s.mem (framePa core p.j) 192) 17
        sendStep x.owner core ctr (.dequeIncrementAccepted core p.j)
          (modCore core (fun q => { q with deque := lmod (fun r => r.j == p.j) (fun r => { r with
            st := .taking, taker := id, tblock := x.block, thief := thief }) q.deque }) s)
    | none =>
      if releasingOf s core g then sched 1 (.dequeTakeRequest core (id + takeWaits) thief) s
      else if thief = 0 then (if thiefOut s id x.block || thiefWaits s id then s else sendThief id s)
      else nextVictim thief s

/-- A request takes its turn at the unit. -/
def takeTurn (core : Nat) (e : Instr) (f : State → State) (s : State) : State := if takeBehind s core e then sched 0 e s else f s

/-- The notice that a strand has ended reaches its native core: the slot is idle from now on (R277, R417). -/
def slotIdle (id : Nat) (s : State) : State := modIf id (fun x => if x.run = .idle then { x with away := false } else x) s

def execDequeTakeRequest (place sid thief : Nat) (s : State) : Out :=
  .next (takeTurn place (.dequeTakeRequest place sid thief) (fun s => takeRequest place sid thief (if thief = 0 then slotIdle sid s else s)) s)

/-- A counter's count changed by one step of a deque unit; poison stays (R272, R283). -/
def adjust (owner core ctr : Nat) (f : Nat → Nat) (s : State) : State :=
  if stepPasses s owner core ctr then sramWrite ctr (leBytes 8 (f (peek8 s ctr) % 2 ^ 64)) s else s

/-- The increment of a taken frame's counter is accepted, and the frame is sent. -/
def takeAccepted (core j : Nat) (s : State) : State :=
  match (coreAt s core).deque.find? (fun p => decide (p.j = j ∧ p.st = .taking)) with
  | none => s
  | some p =>
    let ctr := frameWord (memRead s.mem (framePa core j) 192) 17
    let owner := match tget s.grids p.grid with | some g => g.owner | none => 0
    sendFrame core j p.taker p.tblock p.thief (adjust owner core ctr (fun w => w / 2 ^ 32 * 2 ^ 32 + (w % 2 ^ 32 + 1) % 2 ^ 32) s)

def execDequeIncrementAccepted (place j : Nat) (s : State) : Out := .next (takeAccepted place j s)

def execThiefVictimArrival (th : Nat) (s : State) : Out :=
  .next (match tget s.thieves th with
    | none => s
    | some t => match t.victims with
      | v :: _ => takeTurn v (.thiefVictimArrival th) (takeRequest v t.sid th) s
      | [] => nextVictim th s)

/-- A thief is home: the frame goes into the slot, which a frame of its own core may have filled meanwhile; then the thief
waits until it is idle again. -/
def execThiefFrameArrival (th : Nat) (s : State) : Out :=
  .next (match tget s.thieves th with
    | none => s
    | some t =>
      match t.frame, blockStrand s t.sid t.block with
      | some bs, some x =>
        -- the slot waits for its own take, and for its block, where that is suspended
        if isIdle x && !takingFor s x.native t.sid t.block && (strandAt s t.sid).block == t.block then
          restoreFrame t.sid bs 8 { s with thieves := tdel s.thieves th }
        else sched 8 (.thiefFrameArrival th) s
      | _, _ => { s with thieves := tdel s.thieves th })

def execThiefRetry (sid : Nat) (s : State) : Out :=
  .next (takeRequest (strandAt s sid).native sid 0 s)

/-! ### Kills and the fault count (R283) -/

/-- The codes of an inline frame and of a taken one where an adjustment names a place. -/
def dqInline : Nat := 64
def dqTaken : Nat := 65

/-- The place that a link names in the deque of its native core; none where the frame was pushed on another core (R283). -/
def ownPlace (s : State) (x : Strand) : Option DqPlace :=
  if fwdCore s x.link.core = x.native then (coreAt s x.native).deque.find? (fun p => decide (p.j = x.link.index ∧ p.seq = x.link.seq)) else none

/-- The name of a killed strand in its adjustment: its slot with its block, as the slot's strand may be suspended meanwhile. -/
def chainOf (x : Strand) : Nat := 32 * x.native + x.nslot + 2 ^ 40 * x.block

/-- Byte address of inline frame d in a floor block. -/
def inlineAt (floor d : Nat) : Nat := floor + 0x1000 - 192 * d

/-- The deque unit acts on the link of a killed strand, whose floor block is at floor: the adjustment is sent. -/
def dequeKill (id floor : Nat) (s : State) : State :=
  let x := strandAt s id
  let n := chainOf x
  if x.link.depth ≠ 0 then
    let ctr := frameWord (memRead s.mem (inlineAt floor x.link.depth) 192) 17
    sendStep x.owner x.native ctr (.dequeAdjustmentAccepted x.native dqInline n) s
  else if x.link.valid = false then s
  else
    match ownPlace s x with
    | some p =>
      let set (st : DqState) (s : State) : State :=
        modCore x.native (fun q => { q with deque := lmod (fun r => r.j == p.j) (fun r => { r with st := st }) q.deque }) s
      if p.st = .held then
        let ctr := frameWord (memRead s.mem (framePa x.native p.j) 192) 17
        sendStep x.owner x.native ctr (.dequeAdjustmentAccepted x.native p.j n) (set .releasing s)
      else sched (2 * leg s x.native (homeOf x.link.ctr) + 1) (.dequeAdjustmentAccepted x.native dqTaken n) s
    | none => sendStep x.owner x.native x.link.ctr (.dequeAdjustmentAccepted x.native dqTaken n) s

/-- faults plus one, and count less one where the frame has been taken. -/
def faultStep (taken : Bool) (w : Nat) : Nat :=
  let f := min (bits w 47 32 + 1) 0xFFFF
  let c := if taken then (w % 2 ^ 32 + 2 ^ 32 - 1) % 2 ^ 32 else w % 2 ^ 32
  w / 2 ^ 48 * 2 ^ 48 + f * 2 ^ 32 + c

/-- The adjustment is accepted: an inline frame comes back into the native slot, a held one becomes released; a taken one
that is still taking waits. -/
def adjustAccepted (core j chain : Nat) (s : State) : State :=
  let id := chain % 2 ^ 40
  if j = dqInline then
    ofBlock id (chain / 2 ^ 40) (fun floor s =>
      let y := strandAt s id
      let bs := memRead s.mem (inlineAt floor y.link.depth) 192
      -- of a pair both strands are restored (R379)
      modPair id (fun x => { restoreRegs bs x with
        link := { y.link with depth := y.link.depth - 1 }, run := .live, park := none, readyAt := s.now + 8 })
        (adjust y.owner core (frameWord bs 17) (faultStep false) s)) s
  else if j = dqTaken then
    ofBlock id (chain / 2 ^ 40) (fun _ s =>
      let x := strandAt s id
      if (ownPlace s x).any (fun p => decide (p.st = .taking)) then sched 1 (.dequeAdjustmentAccepted core j chain) s
      else sched 0 (.dequeTakeRequest core id 0) (modStrand id (fun x => { x with link := TaskLink.reset }) (adjust x.owner core x.link.ctr (faultStep true) s))) s
  else
    let ctr := frameWord (memRead s.mem (framePa core j) 192) 17
    let s1 := modCore core (fun q => { q with deque := lmod (fun r => r.j == j) (fun r => { r with st := .released }) q.deque }) s
    let g := (coreAt s core).deque.find? (fun p => p.j == j) |>.elim 0 (fun p => p.grid)
    let owner := match tget s.grids g with | some q => q.owner | none => 0
    callIdle core g 0
      (ofBlock id (chain / 2 ^ 40) (fun _ => modStrand id (fun x => if x.run = .idle then { x with link := TaskLink.reset } else x))
        (adjust owner core ctr (faultStep false) s1))

def execDequeAdjustmentAccepted (place j sid : Nat) (s : State) : Out := .next (adjustAccepted place j sid s)

end

end Sys2Proof.Machine
end

