-- ==== Sys2Proof/Machine/Courier.lean ====
section
/-! DEFINITION. Couriers: copy, copy.mc, copy.t and reduce of major 0x1D (R252 to R265), and what carries the pieces of
every courier operation, ring and pipe puts included (R254 to R260, R292, R293). -/

namespace Sys2Proof.Machine

open Sys2Proof

noncomputable section

/-! ### Ends of a piece (R254) -/

/-- The space table of R254: the cause raised, if any. -/
def endSpace (s : State) (pa : Nat) (dst : Bool) : Option Nat :=
  match space s pa with
  | .vault _ _ => none
  | .loft _ _ => none
  | .hub _ _ => none
  | .pad _ o => if dst && decide (0x3E0000 ≤ o) then some 6 else none
  | .hole => some 5
  | _ => some 6

/-- Translation of one end for an operation. -/
def endTr (s : State) (place asn owner va : Nat) (dst : Bool) : Tr := translateAt s place asn owner (va % 2 ^ 64) (!dst) dst false

/-- One end of piece 0, for the issuing strand. -/
def withEnd (va : Nat) (dst : Bool) (f : Nat → Nat → Bool → State → State) (s : State) : State :=
  withTr (w64 va) (!dst) dst false (fun pa pol win s =>
    match endSpace s pa dst with | some c => raise c (w64 va) s | none => f pa pol win s) s

/-- The range of a record end: 0x04 outside its extent, whatever its bounds mode. -/
def withRange (n : BitVec 5) (off : Word) (len : Nat) (f : Nat → State → State) (s : State) : State :=
  if recLoading s (rec5 n) then park (.record (rec5 n)) s
  else match recAt s (rec5 n) with
  | .error (c, v) => raise c v s
  | .ok r =>
    if off.toInt < 0 ∨ (recExtent r : Int) < off.toInt + len then raise 4 off s
    else f ((recBase r + off.toNat) % 2 ^ 64) s

/-- The parts of a range, given by its runs of PAs, that stand in this core's SRAM, as locks: one for each (R166). -/
def lockOf (core part : Nat) (runs : List (Nat × Nat × Nat)) : List (Nat × Nat × Nat × Nat) :=
  (runs.filter (fun r => decide (homeOf r.2.1 = core ∧ bits r.2.1 47 46 ≠ 0))).map (fun r => (part, r.1, r.2.1 % 2 ^ 31, r.2.2))

/-- The runs of PAs of a range of the issuing strand, each with its offset. -/
def myRuns (s : State) (va len : Nat) : List (Nat × Nat × Nat) := pageRuns s s.here s.me.asn s.me.root va len

/-- The policy hint of a record that an end is reached through (R140). -/
def hintOf (s : State) (n : BitVec 5) : Nat := policyOf s 0 0 (rec5 n)

/-! ### Issue (R253) -/

/-- Vector memory enters first (R181), then an entry of the copy queue is reserved. -/
def courierIssue (i : Instr) (srcs : List Nat) (f : State → State) (s : State) : State :=
  allowed i true false false (decodeOk false srcs [] false (fun s =>
    if s.me.vmems ≠ 0 then park .vmem s
    else if 16 ≤ (myCore s).copyq.length + flying s none courierWord then park .copyq s
    else f s)) s

/-- The q8 place of an operation with tok (R253). -/
def withQ8 (tok : Bool) (f : State → State) (s : State) : State :=
  if tok = false then f s
  else if s.me.place ≠ s.me.native then raise 12 24 s
  else
    let k := scAt s s.here s.mySc
    if 32 ≤ k.q8.length + k.q8res then park .q8 s else f s

/-- Checks sc, and goes on with its token bit, tile offset and length. -/
def withSc (v : Word) (tile : Bool) (f : Bool → Nat → Nat → State → State) (s : State) : State :=
  let w := v.toNat
  if bits w 62 46 ≠ 0 ∨ bits w 23 0 = 0 ∨ (tile = false ∧ bits w 45 24 ≠ 0) then raise 4 v s
  else withQ8 (bit w 63) (f (bit w 63) (bits w 45 24) (bits w 23 0)) s

/-- Lists an operation with its prepared first piece and its locks, and lets the copy engine launch it (R254). -/
def enqueue (o : Op) (p : Nat → Piece) (locks : List (Nat × Nat × Nat × Nat)) (k : BitVec 1) (s : State) : State :=
  if locksFree s s.here < locks.length then park (.locks locks.length) s
  else
    let id := s.fresh
    let pid := id + 1
    let s1 := startOp { o with flying := pid } s
    let s2 := bump { s1 with pieces := tput s1.pieces pid (p id) }
    let s3 := lockRanges s2.here id locks (modCore s2.here (fun c => { c with copyq := c.copyq ++ [id] }) s2)
    let s4 := if o.tok then modMySc (fun q => { q with q8res := q.q8res + 1 }) s3 else s3
    retire k (sched 8 (.courierPieceLaunch id) s4)

/-- Length of the piece at an offset: cut where an end crosses a multiple of 4,096. -/
def cutAt (o : Op) : Nat :=
  let n := min (o.len - o.next) (4096 - (o.src + o.next) % 4096)
  match o.kind with
  | .copy | .copyMc | .copyT => min n (4096 - (o.dst + o.next) % 4096)
  | _ => n

/-- copy and copy.mc: both ends of piece 0 are translated, then their spaces are checked; class and locks are those of every
page that the tables map at issue, later ones being checked at launch (R157, R166, R254; log 31). -/
def copyOp (mc : Bool) (i : Instr) (c b : BitVec 4) (n : BitVec 5) (a : BitVec 4) (d : BitVec 5) (k : BitVec 1) (s : State) : State :=
  courierIssue i [a.toNat, b.toNat, c.toNat] (fun s =>
    withSc (regVal s.me c.toNat) false (fun tok _ len s =>
      withRange n (regVal s.me b.toNat) len (fun vs s =>
        withRange d (regVal s.me a.toNat) len (fun vd s =>
          withTr (w64 vs) true false false (fun spa spol swin s =>
            withTr (w64 vd) false true false (fun dpa dpol dwin s =>
              match endSpace s spa false, endSpace s dpa true with
              | some c1, _ => raise c1 (w64 vs) s
              | none, some c2 => raise c2 (w64 vd) s
              | none, none =>
                if mc ∧ (homeOf dpa ≠ s.here ∨ bits dpa 47 46 = 0) then raise 6 (w64 vd) s
                else
                  let runs := myRuns s vd len
                  let o : Op := { newOp (if mc then .copyMc else .copy) s with
                    tok := tok, cls := classOf s.here (homeOf dpa :: runs.map (fun r => homeOf r.2.1)), src := vs, dst := vd, len := len
                    policy := hintOf s n + 4 * hintOf s d }
                  let l := cutAt o
                  enqueue { o with next := l } (fun id => { newPiece id 0 l spa dpa s with
                    origin := s.here, epoch := (myCore s).epoch, win := swin || dwin
                    spol := max spol (hintOf s n), dpol := max dpol (hintOf s d) })
                    (lockOf s.here 0 (myRuns s vs len) ++ lockOf s.here 1 runs) k s) s) s) s) s) s) s

def execCopy (c b : BitVec 4) (n : BitVec 5) (a : BitVec 4) (d : BitVec 5) (k : BitVec 1) (s : State) : Out :=
  .next (copyOp false (.copy c b n a d k) c b n a d k s)
def execCopyMc (c b : BitVec 4) (n : BitVec 5) (a : BitVec 4) (d : BitVec 5) (k : BitVec 1) (s : State) : Out :=
  .next (copyOp true (.copyMc c b n a d k) c b n a d k s)

/-- copy.t (R259). -/
def execCopyT (c b : BitVec 4) (n : BitVec 5) (t : BitVec 6) (k : BitVec 1) (s : State) : Out :=
  .next (courierIssue (.copyT c b n t k) [b.toNat, c.toNat] (fun s =>
    let x := tileAt s s.here t.toNat
    if ¬ x.defined ∨ x.grid ≠ ctxKey s.me ∨ x.st = .ready ∨ x.st = .draining then raise 13 (w64 t.toNat) s
    else if x.st = .empty then park (.tileFilled t.toNat) s
    else
      let sc := regVal s.me c.toNat
      withSc sc true (fun tok toff len s =>
        if x.len < toff + len then raise 13 sc s
        else withRange n (regVal s.me b.toNat) len (fun vs s =>
          withEnd vs false (fun spa spol swin s =>
            let dpa := sramBase s.here + x.base + toff
            let o : Op := { newOp .copyT s with
              tok := tok, cls := classOf s.here [s.here], src := vs, dst := dpa, len := len, tile := t.toNat, toff := toff
              policy := hintOf s n }
            let l := cutAt o
            enqueue { o with next := l } (fun id => { newPiece id 0 l spa dpa s with
              origin := s.here, epoch := (myCore s).epoch, win := swin, spol := max spol (hintOf s n) })
              (lockOf s.here 0 (myRuns s vs len) ++ lockOf s.here 1 [(0, dpa, len)]) k s) s) s) s) s)

/-! ### Failing pieces (R257) -/

/-- A failure stops the operation (R257). -/
def stopOp (op cause off : Nat) (s : State) : State :=
  match tget s.ops op with
  | none => s
  | some o =>
    let s1 := modOp op (fun o => { o with stopped := true }) (noteFail op cause off s)
    let s2 := modCore o.place (fun c => { c with copyq := c.copyq.filter (· != op) }) s1
    if o.kind = .copyT then tileFault o.place o.tile s2 else s2

/-- A piece fails away from its launch. -/
def failPiece (pc from_ status cause off : Nat) (s : State) : State :=
  match tget s.pieces pc with
  | none => s
  | some p => reportPiece pc from_ status cause off (tellFailure p.op false (stopOp p.op cause off (modPiece pc (fun p => { p with stage := 6 }) s)))

/-- A failure on a shared route fails the piece for every member (R260). -/
def failMates (pc from_ status cause : Nat) (s : State) : State :=
  match tget s.pieces pc with
  | none => s
  | some p => (pc :: p.mates).foldl (fun s m => failPiece m from_ status cause ((tget s.pieces m).map Piece.off |>.getD 0) s)
      (modPiece pc (fun p => { p with mates := [] }) s)

/-- Pieces of the core's couriers in flight. -/
def inFlight (s : State) (core : Nat) : Nat :=
  (s.pieces.filter (fun e => decide (e.2.origin = core ∧ 1 ≤ e.2.stage ∧ e.2.stage ≤ 4))).length

/-- A courier's leg with f flits; a pod link takes 22 cycles more for each further 25 (R255, R390). -/
def courierLeg (s : State) (a b f : Nat) : Nat :=
  if a = b then 2 + f else 4 + 3 * (route a b).1 + 5 * (route a b).2 + f + podHops s a b * podHop (max 1 f)

/-- A courier sets out for its source (or, without bytes, for its ring). -/
def setOut (pc : Nat) (s : State) : State :=
  match tget s.pieces pc with
  | none => s
  | some p =>
    match tget s.ops p.op with
    | none => s
    | some o =>
      let home := if p.record then o.home else homeOf p.src
      let e : Instr := if p.record then .ringPieceArrival pc else .courierPickUp pc
      courierGo { plainFrame o.owner p.origin home [] p.win e with srcSc := some o.sc, destSc := hubQuarter p.src } pc (courierLeg s p.origin home 0)
        (modPiece pc (fun p => { p with stage := 1 }) s)

/-- The combining stage of the cluster router (R260). -/
def combineAt (pc : Nat) (p : Piece) (o : Op) (s : State) : State :=
  let cl := clusterOf p.origin
  let k := sliceAt s cl
  let other (m : Nat) : Bool := match tget s.pieces m with | some q => decide (q.origin ≠ p.origin) | none => true
  let s1 := modPiece pc (fun p => { p with stage := 1 }) s
  match k.combine.find? (fun e => decide (e.owner = o.owner ∧ e.pa = p.src ∧ e.len = p.len) && e.members.all other) with
  | some e =>
    modSlice cl (fun k => { k with combine := lmod (fun c => c.id == e.id) (fun c => { c with members := c.members ++ [pc] }) k.combine }) s1
  | none =>
    if 8 ≤ k.combine.length then setOut pc s
    else
      let id := s1.fresh
      sched 64 (.combineWindowClose cl id)
        (bump (modSlice cl (fun k => { k with combine := k.combine ++ [⟨id, o.owner, p.src, p.len, [pc]⟩] }) s1))

/-- The window ends: one courier is sent for every member. -/
def execCombineWindowClose (cl id : Nat) (s : State) : Out :=
  .next (match (sliceAt s cl).combine.find? (fun e => e.id == id) with
    | none => s
    | some e =>
      let s1 := modSlice cl (fun k => { k with combine := k.combine.filter (fun c => c.id != id) }) s
      match e.members.filter (fun m => (tget s.pieces m).isSome) with
      | [] => s1
      | m :: rest => setOut m (modPiece m (fun p => { p with mates := rest }) s1))

/-- What follows a launch, one in each cycle of the copy engine: the next piece, or the queue place given back (R254). -/
def afterLaunch (id : Nat) (s : State) : State :=
  match tget s.ops id with
  | none => s
  | some o =>
    let s := modCore o.place (fun c => { c with launchAt := s.now + 1 }) s
    if o.len ≤ o.next then modCore o.place (fun c => { c with copyq := c.copyq.filter (· != id) }) s
    else sched 1 (.courierPieceLaunch id) s

/-- The copy engine can launch for this operation now. -/
def mayLaunch (s : State) (id : Nat) (o : Op) : Bool :=
  let c := coreAt s o.place
  decide (c.copyq.head? = some id ∧ inFlight s o.place < 32 ∧ c.launchAt ≤ s.now)

/-- Launches a piece that stands in the table. -/
def sendPiece (id pc : Nat) (s : State) : State :=
  match tget s.ops id, tget s.pieces pc with
  | some o, some p => afterLaunch id (if o.kind = .copyMc then combineAt pc p o s else setOut pc s)
  | _, _ => s

/-- A launch fails: the operation stops; for a put a fault record takes the piece's place (R292). -/
def failLaunch (id cause : Nat) (s : State) : State :=
  match tget s.ops id with
  | none => s
  | some o =>
    let s1 := tellFailure id true (stopOp id cause o.next s)
    let s2 := modOp id (mergeEnd 2 cause o.next) s1
    if o.kind = .ringPut ∨ o.kind = .pipePut then
      let pc := s2.fresh
      setOut pc (bump { s2 with pieces := tput s2.pieces pc { newPiece id o.next 0 0 0 s2 with record := true } })
    else if opEnded s2 id then finishOp id s2 else s2

/-- A migration operation suspends or streams the core: no new piece is launched there, and what comes for its slots waits (R371, R372).
While it removes the core's blocks, what comes for them is taken as R373 states. -/
def migrating (s : State) (core : Nat) : Bool :=
  match (hubAt s (moduleOf core)).mg with | some g => decide (g.src = core ∧ g.stage ≤ 1) | none => false

/-- The copy engine launches the next piece of the operation at the head of its queue (R254). -/
def pieceLaunch (id : Nat) (s : State) : State :=
  match tget s.ops id with
  | none => s
  | some o =>
    if o.stopped then s
    else if migrating s o.place then sched 1 (.courierPieceLaunch id) s
    else if mayLaunch s id o = false then sched 1 (.courierPieceLaunch id) s
    else if o.flying ≠ 0 then sendPiece id o.flying (modOp id (fun o => { o with flying := 0 }) s)
    else
      let va := o.src + o.next
      let l := cutAt o
      let miss (va : Nat) (s : State) : State :=
        match o.walkFault with
        | some (c, v) => if v = va then failLaunch id c s else sched 17 (.courierPieceLaunch id) (startFill o.place o.asn o.root va (2 ^ 40 + id) s)
        | none => sched 17 (.courierPieceLaunch id) (startFill o.place o.asn o.root va (2 ^ 40 + id) s)
      let dva := o.dst + o.next
      -- both ends are translated, then their spaces are checked, as at issue
      match endTr s o.place o.asn o.owner va false with
      | .fault c => failLaunch id c s
      | .miss => miss va s
      | .hit spa spol swin =>
        let s := touch o.place o.asn (va % 2 ^ 64) s
        let two : Bool := decide (o.kind = .copy ∨ o.kind = .copyMc)
        match (if two then endTr s o.place o.asn o.owner dva true else .hit (if o.kind = .copyT then dva else 0) 0 false) with
        | .fault c => failLaunch id c s
        | .miss => miss dva s
        | .hit dpa dpol dwin =>
          let s := if two then touch o.place o.asn (dva % 2 ^ 64) s else s
          -- every piece of copy.mc lands in the core's own SRAM (R260)
          let away : Bool := decide (o.kind = .copyMc ∧ (homeOf dpa ≠ o.place ∨ bits dpa 47 46 = 0))
          match endSpace s spa false, (if two then endSpace s dpa true else none) with
          | some c, _ => failLaunch id c s
          | none, some c => failLaunch id c s
          | none, none =>
            if away then failLaunch id 6 s
            else
              let pc := s.fresh
              let p : Piece := { newPiece id o.next l spa dpa s with win := swin || dwin, spol := max spol (o.policy % 4), dpol := max dpol (o.policy / 4) }
              sendPiece id pc (bump { modOp id (fun o => { o with next := o.next + l }) s with pieces := tput s.pieces pc p })

/-! ### Pick-up and set-down (R255, R258) -/

/-- Nothing of the operation is left to launch, and no piece satisfies p. -/
def noMore (s : State) (id : Nat) (p : Piece → Bool) : Bool :=
  match tget s.ops id with
  | none => true
  | some o => (o.stopped || decide (o.len ≤ o.next)) && decide (o.flying = 0) && s.pieces.all (fun e => e.2.op != id || !p e.2)

def isPut (o : Op) : Bool := decide (o.kind = .ringPut ∨ o.kind = .pipePut)

/-- A lock of an operation is still needed: a piece that is to be launched reads or writes in its range, or one under way does. The
buffer of a reduction is locked until its result is there (R261). -/
def lockNeeded (s : State) (id : Nat) (o : Op) (l : RLock) : Bool :=
  let len := if isPut o ∧ l.part = 1 then o.len else l.len
  let hits (off n : Nat) : Bool := decide (off < l.at_ + len ∧ l.at_ < off + n)
  if o.kind = .reduce then !noMore s id (fun p => decide (p.stage < 6))
  else (!o.stopped && decide (o.next < o.len) && hits o.next (o.len - o.next))
    || s.pieces.any (fun e => decide (e.2.op = id ∧ e.2.stage < (if l.part = 0 then 3 else 6)) && !e.2.record && hits e.2.off e.2.len)

/-- Each locked range is released when the last piece that reads or writes it has done so (R255). -/
def releaseLocks (id : Nat) (s : State) : State :=
  match tget s.ops id with
  | none => s
  | some o =>
    ((coreAt s o.place).locks.filter (fun l => l.op == id && !lockNeeded s id o l)).foldl (fun s l => sched 0 (.rangeLockRelease o.place l.id) s) s

/-- The parts of a range by line. -/
def lineParts (pa n : Nat) : List (Nat × Nat) :=
  ((List.range (n / 128 + 2)).map (fun i =>
    let a := max pa ((pa / 128 + i) * 128)
    (a, min (pa + n) ((pa / 128 + i + 1) * 128) - a))).filter (fun p => decide (p.2 ≠ 0))

/-- Cycles of a pick-up: the last of its lines to come decides (R255). -/
def pickCycles (s : State) (pa n : Nat) : Nat :=
  let f := cdiv n 64
  match space s pa with
  | .vault _ _ => 12 + f + ((lineParts pa n).foldl (fun t p => max t (dataAt s (clusterOf (homeOf pa)) p.1 p.2)) s.now - s.now)
  | _ => 2 + f

/-- The rows that a read around the slice opens: those of the granules that the slice does not hold (R128). -/
def openRows (pa n : Nat) (s : State) : State :=
  let cl := clusterOf (homeOf pa)
  (List.range (n / 32 + 2)).foldl (fun s i =>
    let a := max pa ((pa / 32 + i) * 32)
    let e := min (pa + n) ((pa / 32 + i + 1) * 32)
    if a < e ∧ present (sliceAt s cl) a (e - a) = false then openPage a s else s) s

/-- The lines that a pick-up of a partition brings in, or under no-cache the rows that it opens. -/
def fetchLines (pa n pol part : Nat) (s : State) : State :=
  match space s pa with
  | .vault _ _ =>
    let cl := clusterOf (homeOf pa)
    if pol = 2 then openRows pa n s
    else (lineParts pa n).foldl (fun s p =>
      if present (sliceAt s cl) p.1 p.2 then useLine cl (p.1 / 128) s
      else if missWaits (sliceAt s cl) p.1 p.2 pol then openRows p.1 p.2 s
      else startMiss cl p.1 p.2 part (decide (pol = 1)) s) s
  | _ => s

/-- A piece with its bytes goes to its destination, or to its ring. -/
def carryOn (pc from_ : Nat) (bs : List Byte) (bad : List Nat) (s : State) : State :=
  match tget s.pieces pc with
  | none => s
  | some p =>
    match tget s.ops p.op with
    | none => s
    | some o =>
      let s1 := modPiece pc (fun p => { p with
        bytes := bs, bad := bad, stage := 3
        status := if bad.isEmpty then 0 else 1, cause := if bad.isEmpty then 0 else 8
        failOff := p.off + bad.foldl min p.len }) s
      let put := decide (o.kind = .ringPut ∨ o.kind = .pipePut)
      let home := if put then o.home else homeOf p.dst
      let e : Instr := if put then .ringPieceArrival pc else .courierSetDown pc
      courierGo { plainFrame o.owner from_ home bs p.win e with srcSc := hubQuarter p.src, destSc := hubQuarter p.dst } pc
        (courierLeg s from_ home (cdiv p.len 64)) s1

/-- A courier at its source home: it arrives, its request at the slice starts, and after the pick-up's cycles it takes the bytes. -/
def pickUp (pc : Nat) (s : State) : State :=
  match tget s.pieces pc with
  | none => s
  | some p =>
    match tget s.ops p.op with
    | none => s
    | some o =>
      let home := homeOf p.src
      let all := pc :: p.mates
      if p.stage = 6 then s
      else if p.stage = 1 then
        if crosses s p.origin home && !windowAdmits s o.owner p.src p.len true false && p.win then
          failMates pc home 3 10 s
        else
          let s1 := modPiece pc (fun p => { p with stage := 2 }) s
          match space s p.src with
          | .vault _ _ => request (clusterOf home) ⟨2, chargeOp s o, home, s.now, 0, p.src, p.len, p.spol, .courierPickUp pc, none⟩ s1
          | _ => sched 0 (.courierPickUp pc) s1
      else if p.began = false then
        sched (pickCycles s p.src p.len) (.courierPickUp pc) (fetchLines p.src p.len p.spol (chargeOp s o) (modPiece pc (fun p => { p with began := true }) s))
      else if endSpace s p.src false ≠ none then failMates pc home 2 5 s
      else
        let bs := engineRead s p.src p.len
        let bad := badGranules s p.src p.len
        all.foldl (fun s m =>
          let s1 := carryOn m home bs bad s
          match tget s1.pieces m with | some q => releaseLocks q.op s1 | none => s1) s

/-- A piece for a place in the SRAM of a core that forwards goes on to the core that took it, over the path between them (R372). -/
def followed (end_ : Piece → Nat) (to_ : Nat → Piece → Piece) (e : Instr) (f : State → State) (pc : Nat) (s : State) : State :=
  match tget s.pieces pc with
  | none => s
  | some p =>
    let a := fwdPa s (end_ p)
    if a = end_ p then f s else sched (mgPath (homeOf (end_ p)) (homeOf a)) e (modPiece pc (to_ a) s)

def execCourierPickUp (pc : Nat) (s : State) : Out :=
  .next (followed Piece.src (fun a p => { p with src := a }) (.courierPickUp pc) (pickUp pc) pc s)

/-- The tile into which a put of a ticket delivers, while its slot is bound to that ticket. -/
def stageOfPut (s : State) (o : Op) : Option (Nat × Nat) :=
  let r := hdrAt s o.home o.hdr
  let t := r.tb + o.ticket % r.n
  let x := tileAt s o.home t
  if r.live ∧ r.n ≠ 0 ∧ r.grid = o.grid.getD 0 ∧ x.ring = some (o.hdr, o.ticket % r.n) ∧ x.ticket = o.ticket % 2 ^ 32 then some (o.home, t) else none

/-- Deliveries into one tile by one strand are set down in order (R184): an earlier piece is still to come. -/
def earlierDue (s : State) (pc : Nat) (p : Piece) (o : Op) : Bool :=
  let same (q : Op) : Bool := match o.kind with
    | .copyT =>
      if q.kind = .copyT then decide (q.place = o.place ∧ q.tile = o.tile) else isPut q && decide (stageOfPut s q = some (o.place, o.tile))
    | .ringPut | .pipePut =>
      if isPut q then decide (q.home = o.home ∧ q.hdr = o.hdr ∧ q.ticket = o.ticket)
      else decide (q.kind = .copyT ∧ stageOfPut s o = some (q.place, q.tile))
    | _ => false
  let same (q : Op) : Bool := decide (q.sid = o.sid ∧ q.grid = o.grid) && same q
  s.ops.any (fun e => same e.2 &&
    (decide (e.1 < p.op) && (!(e.2.stopped || decide (e.2.len ≤ e.2.next)) || s.pieces.any (fun f => decide (f.2.op = e.1 ∧ f.2.stage < 6)))
      || decide (e.1 = p.op) && s.pieces.any (fun f => decide (f.2.op = p.op ∧ f.1 ≠ pc ∧ f.2.off < p.off ∧ f.2.stage < 6))))

/-- The end of a piece's set-down at its home. -/
def setDownEnd (pc home status cause off : Nat) (s : State) : State :=
  match tget s.pieces pc with
  | none => s
  | some p => releaseLocks p.op (tellFailure p.op false (reportPiece pc home status cause off (modPiece pc (fun p => { p with stage := 6, bytes := [] }) s)))

/-- A courier at its destination home. Model's choice: the granules of a piece are performed in one step, in the cycle in which the
set-down ends (R176 leaves their order and times open; log 48, DESIGN CHOICE). -/
def setDownPiece (pc : Nat) (s : State) : State :=
  match tget s.pieces pc with
  | none => s
  | some p =>
    match tget s.ops p.op with
    | none => s
    | some o =>
      let home := homeOf p.dst
      let f := cdiv p.len 64
      -- a delivery of this cycle into the tile is counted first (R259)
      let first : Bool := decide (o.kind = .copyT) && s.agenda.any (fun e => decide (e.1 ≤ s.now) && (match e.2 with
        | .tileSetDown c t _ _ => decide (c = o.place ∧ t = o.tile) | _ => false))
      if p.stage = 6 then s
      else if p.stage = 3 then
        if crosses s (homeOf p.src) home && !windowAdmits s o.owner p.dst p.len false true && p.win then failPiece pc home 3 10 p.off s
        else
          let s1 := modPiece pc (fun p => { p with stage := 4 }) s
          match space s p.dst with
          | .vault _ _ => request (clusterOf home) ⟨2, chargeOp s o, home, s.now, 4 + f, p.dst, p.len, p.dpol, .courierSetDown pc, none⟩ s1
          | _ => sched (2 + f) (.courierSetDown pc) s1
      else if endSpace s p.dst true ≠ none then failPiece pc home 2 5 p.off s
      else if earlierDue s pc p o || (match space s p.dst with | .vault _ _ => missWaits (sliceAt s (clusterOf home)) p.dst p.len p.dpol | _ => false) then
        sched 1 (.courierSetDown pc) s
      else if first then sched 0 (.courierSetDown pc) s
      else
        let s1 := engineWrite (chargeOp s o) p.dst p.bytes p.bad p.dpol s
        if o.kind = .copyT then
          let filling := decide ((tileAt s o.place o.tile).st = .filling)
          let s2 := sched 0 (.tileSetDown o.place o.tile p.len (!p.bad.isEmpty)) s1
          if filling then setDownEnd pc home p.status p.cause p.failOff s2
          else setDownEnd pc home (max p.status 1) (if p.status = 0 then 13 else p.cause) (if p.status = 0 then p.off else p.failOff) s2
        else setDownEnd pc home p.status p.cause p.failOff s1

def execCourierSetDown (pc : Nat) (s : State) : Out :=
  .next (followed Piece.dst (fun a p => { p with dst := a }) (.courierSetDown pc) (setDownPiece pc) pc s)

end

end Sys2Proof.Machine
end

