-- ==== Sys2Proof/Machine/Reduce.lean ====
section
/-! DEFINITION. The in-fabric reduction (R261 to R265): the issue, the chunks, the nodes of the tree, the results. -/

namespace Sys2Proof.Machine

open Sys2Proof

noncomputable section

/-! ### Issue (R261) -/

/-- Element size of a reduction format. -/
def redWidth (f : Nat) : Nat := match f with | 0 => 4 | 3 => 4 | _ => 2

/-- Translates every page of a buffer for reading and writing: its runs of PAs, each with its length, and the strictest policy of
its pages (R140, R261). -/
def withBuffer (va len : Nat) (f : List (Nat × Nat) → Nat → State → State) (s : State) : State :=
  let rec go : Nat → Nat → List (Nat × Nat) → Nat → State → State
    | 0, _, rs, p, s => f rs p s
    | n + 1, at_, rs, p, s =>
      if va + len ≤ at_ then f rs p s
      else withTr (w64 at_) true true false (fun pa pol _ s =>
        let next := (at_ / 65536 + 1) * 65536
        go n next (addRun rs pa (min next (va + len) - at_)) (max p pol) s) s
  go (len / 65536 + 2) va [] 0 s

/-- A buffer lies wholly in the core's own vault, or wholly in its window 0 below 0x003C_0000 (R261). -/
def bufferOurs (s : State) (core : Nat) (rs : List (Nat × Nat)) : Bool :=
  let inVault (a : Nat) : Bool := decide (homeOf a = core) && (match space s a with | .vault _ _ => true | _ => false)
  let inPad (r : Nat × Nat) : Bool := decide (homeOf r.1 = core) && (match space s r.1 with | .pad _ q => decide (q + r.2 ≤ 0x3C0000) | _ => false)
  rs.all (fun r => inVault r.1 && inVault (r.1 + r.2 - 1)) || rs.all inPad

/-- The parts of a buffer's runs that hold n bytes from an offset: each with its offset. -/
def runParts : List (Nat × Nat) → Nat → Nat → Nat → List (Nat × Nat × Nat)
  | [], _, _, _ => []
  | (a, m) :: t, at_, off, n =>
    let lo := max at_ off
    let hi := min (at_ + m) (off + n)
    if lo < hi then (lo, a + (lo - at_), hi - lo) :: runParts t (at_ + m) off n else runParts t (at_ + m) off n

/-- Levels above the leaves: ⌈log2 P⌉. -/
def redLevels (p : Nat) : Nat := if p ≤ 1 then 0 else Nat.log2 (p - 1) + 1

/-- The core of node (l, j) of reduction id over a core set (R262). -/
def nodeCore (cores : List Nat) (id l j : Nat) : Nat := (hashCore cores (id * 2 ^ 21 + l * 2 ^ 16 + j)).getD 0

/-- Every node core of a tree that combines something. -/
def nodeCores (cores : List Nat) (id p : Nat) : List Nat :=
  (List.range (redLevels p)).flatMap (fun l => (List.range (cdiv p (2 ^ (l + 1)))).map (fun j => nodeCore cores id (l + 1) j))

def gridCores (s : State) (g : Option Nat) : List Nat := match g.bind (tget s.grids) with | some g => coreSet g | none => []

/-- The notices of poisoned contributions that were combined before the issuing participant's `reduce` (R264): each participant
that issues later gets them then (log 34). -/
def notesDue (rid : Nat) (s : State) : State :=
  let g := s.me.grid.getD 0
  let ns := match tget s.grids g with | some q => q.redNotes.filter (fun (n : Nat × Word × Nat) => n.1 == rid) | none => []
  let less (n : Nat × Word × Nat) : Option (Nat × Word × Nat) :=
    if n.1 = rid then (if n.2.2 ≤ 1 then none else some (n.1, n.2.1, n.2.2 - 1)) else some n
  ns.foldl (fun s (n : Nat × Word × Nat) => q9Notice s.here (newOp .reduce s) n.2.1 s) (modGrid g (fun q => { q with redNotes := q.redNotes.filterMap less }) s)

/-- reduce (R261). The rule names the checks of sb first, and no order; the model checks sc by R253 before sb, and a `len` that is no
multiple of w puts sc into sr.tval (log 68, DESIGN CHOICE). -/
def execReduce (c b : BitVec 4) (o f : BitVec 2) (a : BitVec 4) (n : BitVec 5) (k : BitVec 1) (s : State) : Out :=
  .next (courierIssue (.reduce c b o f a n k) [a.toNat, b.toNat, c.toNat] (fun s =>
    let sb := regVal s.me b.toNat
    let sc := regVal s.me c.toNat
    let w := redWidth f.toNat
    -- the checks of sc come before those of sb (log 68)
    withSc sc false (fun tok _ len s =>
      let parties := bits sb.toNat 31 16
      let part := bits sb.toNat 15 0
      if bits sb.toNat 63 48 ≠ 0 ∨ parties < 2 ∨ parties ≤ part then raise 4 sb s
      else if len % w ≠ 0 then raise 4 sc s
      else withRange n (regVal s.me a.toNat) len (fun va s =>
        withBuffer va len (fun runs pol s =>
          if bufferOurs s s.here runs = false then raise 6 (w64 va) s
          else if va % w ≠ 0 then raise 3 (w64 va) s
          else
            let locks := lockOf s.here 1 (runs.map (fun r => (0, r.1, r.2)))
            let rid := bits sb.toNat 47 32
            let op : Op := { newOp .reduce s with
              tok := tok, cls := classOf s.here (nodeCores (gridCores s s.me.grid) rid parties), len := len, runs := runs
              policy := max pol (hintOf s n)
              flying := cdiv len 4096, rid := rid, parties := parties, part := part, rop := o.toNat, rfmt := f.toNat }
            if locksFree s s.here < locks.length then park (.locks locks.length) s
            else
              let id := s.fresh
              let s1 := lockRanges s.here id locks (startOp op s)
              let s2 := modCore s.here (fun q => { q with copyq := q.copyq ++ [id] }) s1
              let s3 := if tok then modMySc (fun q => { q with q8res := q.q8res + 1 }) s2 else s2
              retire k (notesDue rid (sched 8 (.courierPieceLaunch id) s3))) s) s) s) s)

/-! ### Elements (R263) -/

/-- The model's number of a reduction format. -/
def redFmt (f : Nat) : Nat := match f with | 0 => 5 | 1 => 6 | _ => 7

/-- left op right on one element, with its flags. -/
def redElem (o f : Nat) (a b : Nat) : Nat × FFlags :=
  if f = 3 then
    (match o with
      | 0 => (a + b) % 2 ^ 32
      | 1 => if sgn32 a < sgn32 b then b else a
      | _ => if sgn32 b < sgn32 a then b else a, 0)
  else match o with
    | 0 => fopArith .fadd (redFmt f) 0 false a b 0
    | 1 => fminmax (redFmt f) false true a b
    | _ => fminmax (redFmt f) false false a b
where
  sgn32 (v : Nat) : Int := if bit v 31 then (v : Int) - (2 ^ 32 : Nat) else v

/-- A whole chunk, element by element. -/
def redBytes (o f : Nat) : Nat → List Byte → List Byte → List Byte × FFlags
  | 0, _, _ => ([], 0)
  | n + 1, l, r =>
    let w := redWidth f
    if l.isEmpty then ([], 0)
    else
      let e := redElem o f (leNat (l.take w)) (leNat (r.take w))
      let t := redBytes o f n (l.drop w) (r.drop w)
      (leBytes w e.1 ++ t.1, e.2 ||| t.2)

/-! ### The tree (R262, R264, R265) -/

/-- Poisoned granules of the n bytes of a buffer from an offset, as offsets of the chunk's 32-byte granules (R264). -/
def chunkBad (s : State) (parts : List (Nat × Nat × Nat)) (off n : Nat) : List Nat :=
  ((List.range (cdiv n 32)).map (32 * ·)).filter (fun g => parts.any (fun p =>
    let lo := max p.1 (off + g)
    let hi := min (p.1 + p.2.2) (off + g + 32)
    decide (lo < hi) && poisoned s (p.2.1 + (lo - p.1)) (hi - lo)))

/-- A chunk that ends without a result for some participants: their operations take the status and cause, and keep their own
bytes for it (R257, R265). -/
def redFail (ops : List Nat) (chunk from_ status cause : Nat) (s : State) : State :=
  ops.foldl (fun s op =>
    match tget s.ops op with
    | none => s
    | some _ =>
      let pc := s.fresh
      let s1 := modOp op (fun o => { o with flying := o.flying - 1 }) s
      let s2 := bump { s1 with pieces := tput s1.pieces pc { newPiece op (4096 * chunk) 0 0 0 s1 with stage := 6 } }
      releaseLocks op (reportPiece pc from_ status cause (4096 * chunk) s2)) s

/-- A courier with a chunk sets out for a place as message n, or is stopped (R257, R262). -/
def redGo (n : Nat) (m : RMsg) (from_ to_ d : Nat) (e : Instr) (s : State) : State :=
  courierGo (plainFrame m.o.owner from_ to_ m.bytes false e) n d { s with rmsgs := tput s.rmsgs n m }

/-- A chunk's result leaves the node above it for one participant. -/
def redDeliver (m : RMsg) (from_ op : Nat) (s : State) : State :=
  match tget s.ops op with
  | none => s
  | some o =>
    let n := s.fresh
    redGo n { m with leaves := [op], down := true, to_ := some op, sender := from_ } from_ o.place (courierLeg s from_ o.place (cdiv m.bytes.length 64))
      (.reductionNodeArrival n) (bump s)

/-- The courier of a result is at its participant: it is set down in the parts of its buffer (R262, R264). -/
def redLand (m : RMsg) (op : Nat) (s : State) : State :=
  match tget s.ops op with
  | none => s
  | some o =>
    let off := 4096 * m.chunk
    let len := min 4096 (o.len - off)
    (runParts o.runs 0 off len).foldl (fun s p =>
      let pc := s.fresh
      let lo := p.1 - off
      let mine := m.bad.filter (fun b => decide (b < lo + p.2.2 ∧ lo < b + 32))
      let both := mine.flatMap (fun b => [b - lo, min (p.2.2 - 1) (b + 31 - lo)])
      let q : Piece := { newPiece op p.1 p.2.2 p.2.1 p.2.1 s with
        bytes := (m.bytes.drop lo).take p.2.2, bad := both, stage := 3, dpol := o.policy, status := if mine.isEmpty then 0 else 1
        cause := if mine.isEmpty then 0 else 8, failOff := p.1 + mine.foldl (fun a b => min a (b - lo)) p.2.2 }
      sched 0 (.courierSetDown pc) (bump { s with pieces := tput s.pieces pc q }))
      (modOp op (fun o => { o with flying := o.flying - 1, flags := o.flags ||| m.flags }) s)

/-- The node of the tree that stands for (l, j): nodes without a right child pass on to their left child. -/
def descend (p : Nat) : Nat → Nat → Nat → Nat × Nat
  | 0, l, j => (l, j)
  | n + 1, l, j => if 0 < l ∧ p ≤ (2 * j + 1) * 2 ^ (l - 1) then descend p n (l - 1) (2 * j) else (l, j)

/-- The operations among those of a message that stand below node (l, j). -/
def below (s : State) (ops : List Nat) (l j : Nat) : List Nat :=
  ops.filter (fun op => match tget s.ops op with | some o => decide (o.part / 2 ^ l = j) | none => false)

/-- A result at a node goes on to the nodes or participants below it (R262). -/
def redDown (m : RMsg) (from_ : Nat) (s : State) : State :=
    let o := m.o
    let kid (l j : Nat) (s : State) : State :=
      let (l, j) := descend o.parties l l j
      let ops := below s m.leaves l j
      if l = 0 then ops.foldl (fun s op => redDeliver m from_ op s) s
      else
        let to_ := nodeCore (gridCores s o.grid) o.rid l j
        let n := s.fresh
        redGo n { m with level := l, index := j, leaves := ops, down := true, sender := from_ } from_ to_
          (courierLeg s from_ to_ (cdiv m.bytes.length 64)) (.reductionNodeArrival n) (bump s)
    if m.level = 0 then redDeliver m from_ m.op s
    else kid (m.level - 1) (2 * m.index + 1) (kid (m.level - 1) (2 * m.index) s)

/-- The next node above (l, j) that has two children: values of a lone left child pass up unchanged. -/
def climb (p : Nat) : Nat → Nat → Nat → Nat × Nat
  | 0, l, j => (l, j)
  | n + 1, l, j => if j % 2 = 0 ∧ p ≤ (j + 1) * 2 ^ l then climb p n (l + 1) (j / 2) else (l, j)

/-- Sends a value up from a place to its node. -/
def redSend (n : Nat) (m : RMsg) (s : State) : State :=
    let o := m.o
    let to_ := nodeCore (gridCores s o.grid) o.rid (m.level + 1) (m.index / 2)
    redGo n m m.sender to_ (courierLeg s m.sender to_ (cdiv m.bytes.length 64)) (.reductionNodeArrival n) s

/-- A value goes on from a place: up to its node, or, from the root, down again (R262). -/
def redUp (m : RMsg) (from_ : Nat) (s : State) : State :=
    let o := m.o
    let top := redLevels o.parties
    let (l, j) := climb o.parties (top - m.level) m.level m.index
    if top ≤ l then redDown m from_ s else redSend s.fresh { m with level := l, index := j, sender := from_ } (bump s)

/-- The notices of a poisoned contribution, to every participant of the reduction, those that have not issued yet included (R264,
R361 kind 01). -/
def redNotice (m : RMsg) (from_ : Nat) (s : State) : State :=
  match m.leaves, m.bad with
  | [op], _ :: _ =>
    match tget s.ops op with
    | none => s
    | some o =>
      let w := w64 (8 * 2 ^ 58 + 1 * 2 ^ 56 + o.place * 2 ^ 38 + bits o.part 15 10 * 2 ^ 32 + bits o.part 9 0 * 2 ^ 22 + o.rid)
      let all := s.ops.filter (fun e => decide (e.2.kind = .reduce ∧ e.2.grid = o.grid ∧ e.2.rid = o.rid))
      let s := all.foldl (fun s e => q9Notice from_ e.2 w s) s
      if o.parties ≤ all.length then s
      else modGrid (o.grid.getD 0) (fun g => { g with redNotes := g.redNotes ++ [(o.rid, w, o.parties - all.length)] }) s
  | _, _ => s

/-- A chunk on its way up at its node: the first arrival takes an entry or is sent back to its sender, which launches it again 256
cycles later; the second combines with it. -/
def nodeUp (id : Nat) (m : RMsg) (s : State) : State :=
  let o := m.o
  let l := m.level + 1
  let j := m.index / 2
  let core := nodeCore (gridCores s o.grid) o.rid l j
  let cl := clusterOf core
  let mine (e : RNode) : Bool := decide (e.group = o.grid.getD 0 ∧ e.rid = o.rid ∧ e.level = l ∧ e.index = j ∧ e.chunk = m.chunk)
  match (sliceAt s cl).nodes.find? mine with
  | none =>
    if 64 ≤ (sliceAt s cl).nodes.length then
      redGo id m core m.sender (courierLeg s core m.sender (cdiv m.bytes.length 64) + 256) (.reductionRelaunch id) s
    else modSlice cl (fun k => { k with nodes := k.nodes ++ [⟨o.grid.getD 0, o.rid, l, j, m.chunk, id⟩] }) s
  | some e =>
    let s1 := modSlice cl (fun k => { k with nodes := k.nodes.filter (fun n => !mine n) }) s
    match tget s.rmsgs e.msg with
    | none => redUp m core { s1 with rmsgs := tdel s1.rmsgs id }
    | some q =>
      let s2 := { s1 with rmsgs := tdel (tdel s1.rmsgs id) e.msg }
      let s3 := redNotice q core (redNotice m core s2)
      let agree : Bool := decide (q.o.rop = o.rop ∧ q.o.rfmt = o.rfmt ∧ q.o.parties = o.parties ∧ q.bytes.length = m.bytes.length)
      if agree = false then redFail (q.leaves ++ m.leaves) m.chunk core 2 4 s3
      else
        let (x, y) := if q.index % 2 = 0 then (q, m) else (m, q)
        let r := redBytes o.rop o.rfmt x.bytes.length x.bytes y.bytes
        redUp { m with level := l, index := j, bytes := r.1, flags := q.flags ||| m.flags ||| r.2
                       bad := (q.bad ++ m.bad).eraseDups, leaves := q.leaves ++ m.leaves } core s3

/-- A chunk or a result at a node. -/
def nodeArrive (id : Nat) (s : State) : State :=
  match tget s.rmsgs id with
  | none => s
  | some m =>
    if let some op := m.to_ then redLand m op { s with rmsgs := tdel s.rmsgs id }
    else if m.down then redDown m (nodeCore (gridCores s m.o.grid) m.o.rid m.level m.index) { s with rmsgs := tdel s.rmsgs id }
    else nodeUp id m s

def execReductionNodeArrival (msg : Nat) (s : State) : Out := .next (nodeArrive msg s)

/-- A chunk that found no entry is launched again by its sender (R265). -/
def execReductionRelaunch (msg : Nat) (s : State) : Out :=
  .next (match tget s.rmsgs msg with | none => s | some m => redSend msg m s)

/-- The next chunk of a reduction with the bytes that its buffer holds now, and the next in a cycle. -/
def chunkGo (id : Nat) (o : Op) (s : State) : State :=
  let n := min 4096 (o.len - o.next)
  let parts := runParts o.runs 0 o.next n
  let s := parts.foldl (fun s p => fetchLines p.2.1 p.2.2 o.policy (chargeOp s o) s) s
  let m : RMsg := ⟨id, o, o.next / 4096, 0, o.part, parts.flatMap (fun p => engineRead s p.2.1 p.2.2), chunkBad s parts o.next n, 0, [id], false, none, o.place⟩
  afterLaunch id (redUp m o.place (modOp id (fun o => { o with next := o.next + n }) s))

/-- A chunk of a vault buffer is read by the slice when its request starts, behind what the strand's accesses asked for before it (R182). -/
def chunkNow (id : Nat) (s : State) : State :=
  match tget s.ops id with | some o => if o.stopped then s else chunkGo id o s | none => s

/-- The launch of a reduction's next chunk: from SRAM at once, from the vault through its slice (R170, R262). -/
def chunkLaunch (id : Nat) (s : State) : State :=
  match tget s.ops id with
  | none => s
  | some o =>
    if o.stopped then s
    else if migrating s o.place then sched 1 (.courierPieceLaunch id) s
    else if mayLaunch s id o = false then sched 1 (.courierPieceLaunch id) s
    else
      let n := min 4096 (o.len - o.next)
      match (runParts o.runs 0 o.next n).find? (fun p => match space s p.2.1 with | .vault _ _ => true | _ => false) with
      | none => chunkGo id o s
      | some p =>
        let a : VAcc := ⟨.chunk, o.sid, id, p.2.1, p.2.2, o.policy, false, .courierPieceLaunch id, 0, 0, 0, false⟩
        request (clusterOf o.place) ⟨2, chargeOp s o, o.place, s.now, 0, p.2.1, p.2.2, o.policy, .courierPieceLaunch id, some a⟩ s

/-- The next 64 KiB piece of a `cpref` or `cdisc` (R326). -/
def cacheLaunch (id : Nat) (s : State) : State :=
  match tget s.ops id with
  | none => s
  | some o =>
    if o.stopped ∨ o.len ≤ o.next then s
    else
      let va := o.src + o.next
      let l := min (o.len - o.next) (65536 - va % 65536)
      let w : Bool := decide (o.kind = .cdisc)
      let walk (s : State) : State := sched 17 (.courierPieceLaunch id) (startFill o.place o.asn o.root (va % 2 ^ 64) (2 ^ 40 + id) s)
      match translateAt s o.place o.asn o.owner (va % 2 ^ 64) (!w) w false with
      | .fault c => failLaunch id c s
      | .miss => (match o.walkFault with | some (c, v) => if v = va % 2 ^ 64 then failLaunch id c s else walk s | none => walk s)
      | .hit pa pol win =>
        match space s pa with
        | .vault _ _ =>
          -- the strictest of the page's policy and the record's hint (R140)
          let pol := max pol o.policy
          let s := touch o.place o.asn (va % 2 ^ 64) s
          let s1 := modOp id (fun o => { o with next := o.next + l }) s
          let s2 := if o.len ≤ o.next + l then s1 else sched 1 (.courierPieceLaunch id) s1
          if pol = 2 ∧ w = false then (if opEnded s2 id then finishOp id s2 else s2) else sendCache id o.next l pa pol win s2
        | _ => failLaunch id 6 s

/-- The copy engine launches the next piece or chunk of an operation. -/
def launchNext (id : Nat) (s : State) : State :=
  match tget s.ops id with
  | none => s
  | some o => 
    if o.kind = .reduce then chunkLaunch id s
    else if o.kind = .cpref ∨ o.kind = .cdisc then cacheLaunch id s
    else pieceLaunch id s

def execCourierPieceLaunch (op : Nat) (s : State) : Out := .next (launchNext op s)

end

end Sys2Proof.Machine
end

