-- ==== Sys2Proof/Machine/Ring.lean ====
section
/-! DEFINITION. Rings and pipes: major 0x14 (R285 to R299). -/

namespace Sys2Proof.Machine

open Sys2Proof

noncomputable section

/-! ### Headers (R285, R286) -/

def setHdr (core h : Nat) (r : RingHdr) (s : State) : State :=
  let v := r.grid % 2 ^ 32 * 2 ^ 160 + r.waits % 2 ^ 8 * 2 ^ 152 + r.size % 2 ^ 13 * 2 ^ 139 + r.n % 2 ^ 7 * 2 ^ 132
    + r.tb % 2 ^ 6 * 2 ^ 126 + b2n r.pipe * 2 ^ 121 + b2n r.live * 2 ^ 120 + r.head % 2 ^ 32 * 2 ^ 32 + r.next % 2 ^ 32
  pokeBytes (sramBase core + h) (leBytes 64 v) s

/-- The header offset of a PA, where it is one. -/
def hdrOf (s : State) (pa : Nat) : Option Nat :=
  match space s pa with | .pad _ o => if 0x3E4000 ≤ o then some o else none | _ => none

/-- A ring instruction goes to its header's home (R288); the checks made there raise 0x17 with the VA. -/
def ringOp (i : Instr) (n : BitVec 5) (a : BitVec 5) (srcs dsts : List Nat) (init : Bool) (k : BitVec 1)
    (f : Nat → RingHdr → Carry → State → State) (s : State) : State :=
  allowed i true false false (decodeOk false (a.toNat :: srcs) dsts false (fun s =>
    access (rec5 n) (rv s a) 64 true true 0 (fun _ => 0) k (raise 4 (rv s a)) (fun c s =>
      match hdrOf s c.pa with
      | none => raise 23 c.va s
      | some h =>
        let r := hdrAt s s.here h
        if (r.live = false ∧ init = false) ∨ (r.live ∧ r.grid ≠ ctxKey s.me) ∨ r.pipe then raise 23 c.va s
        else f h r c s) s)) s

/-! ### init, tkt (R289, R290) -/

/-- Slots that may serve a ring: defined, of the grid, empty, one behind the other (R289). -/
def slotsOk (s : State) (core grid tb n len : Nat) : Bool :=
  let b := (tileAt s core tb).base
  (List.range n).all (fun j =>
    let x := tileAt s core (tb + j)
    x.defined && decide (x.grid = grid ∧ x.st = .empty ∧ x.base = b + j * len ∧ x.len = len))

/-- Slot j becomes filling for a ticket. -/
def bindSlot (core h tb j ticket len : Nat) (s : State) : State :=
  modTile core (tb + j) (fun x => { x with
    st := .filling, expected := len, arrived := 0, faulted := false, ring := some (h, j), ticket := ticket }) s

/-- The header and slots of a new ring. -/
def makeRing (core h grid tb n len : Nat) (pipe : Bool) (s : State) : State :=
  (List.range n).foldl (fun s j => bindSlot core h tb j j len s) (setHdr core h ⟨grid, 0, len, n, tb, pipe, true, 0, 0⟩ s)

def execRingInit (l : BitVec 1) (n a b : BitVec 5) (k : BitVec 1) (s : State) : Out :=
  .next (ringOp (.ringInit l n a b k) n a [b.toNat] [] true k (fun h r _ s =>
    let sb := (rv s b).toNat
    let cnt := bits sb 14 8
    let tb := bits sb 5 0
    let len := (tileAt s s.here tb).len
    if r.live ∨ 2 ^ 15 ≤ sb ∨ bits sb 7 6 ≠ 0 ∨ [1, 2, 4, 8, 16, 32, 64].contains cnt = false ∨ 64 < tb + cnt
        ∨ slotsOk s s.here (ctxKey s.me) tb cnt len = false ∨ len % 32 ≠ 0 ∨ 4096 < len then raise 23 (rv s b) s
    else retire k (dropL l a.toNat (makeRing s.here h (ctxKey s.me) tb cnt len false s))) s)

/-- A ticket word (R290). -/
def ticketWord (core h t : Nat) : Word := w64 (core * 2 ^ 46 + (h - 0x3E4000) / 64 * 2 ^ 35 + t % 2 ^ 32)

def execRingTkt (l : BitVec 1) (n a d : BitVec 5) (k : BitVec 1) (s : State) : Out :=
  .next (ringOp (.ringTkt l n a d k) n a [] [d.toNat] false k (fun h r _ s =>
    retire k (dropL l a.toNat (wr d.toNat (ticketWord s.here h r.next)
      (setHdr s.here h { r with next := (r.next + 1) % 2 ^ 32 } s)))) s)

/-! ### What a ring does with a piece (R293) -/

/-- What a ring does with a piece of a ticket. -/
inductive RingSays where
  | reject
  | take (tile : Nat)
  | wait
  deriving DecidableEq, Repr

/-- t is older than the head, within half the ticket range. -/
def older (t h : Nat) : Bool := decide (1 ≤ (h + 2 ^ 32 - t % 2 ^ 32) % 2 ^ 32 ∧ (h + 2 ^ 32 - t % 2 ^ 32) % 2 ^ 32 ≤ 2 ^ 31)

/-- A pipe's ring with an end whose block has been killed (R299): its ports stay bound, and name a block that is killed or gone. -/
def pipeDead (s : State) (core h : Nat) : Bool :=
  s.cores.any (fun c => c.2.ports.any (fun p => decide (p.core = core ∧ p.hdr = h) &&
    (match tget s.blocks p.block with | some b => b.killed | none => true)))

def ringSays (s : State) (core h grid ticket toff len : Nat) : RingSays :=
  let r := hdrAt s core h
  if r.live = false ∨ r.grid ≠ grid ∨ r.size < toff + len ∨ r.n = 0 ∨ older ticket r.head ∨ (r.pipe && pipeDead s core h) then .reject
  else
    let t := r.tb + ticket % r.n
    let x := tileAt s core t
    if x.ring ≠ some (h, ticket % r.n) then .reject
    else if x.ticket = ticket % 2 ^ 32 then (if x.st = .filling then .take t else .reject)
    else .wait

/-- The strand's group as ring headers keep it. -/
def opGroup (o : Op) : Nat := o.grid.getD 0

/-! ### Puts (R291, R292, R298) -/

/-- The put word is well formed; pipe says whose it is. -/
def putOk (w : Nat) (pipe : Bool) : Bool :=
  let again := bit w 62
  decide (bits w 61 48 = 0 ∧ bits w 31 29 = 0 ∧ bits w 15 12 = 0 ∧ 1 ≤ bits w 28 16 ∧ bits w 28 16 ≤ 4096)
    && (again || decide (bits w 47 32 = 0)) && (pipe || !again) && (!pipe || again || decide (bits w 11 0 = 0))

/-- The entry of the lock table for the stage on the issuing core that a put will write (R166): it covers its part of the stage from the
issue, or while the slot is bound to an earlier ticket from the free that makes it filling for the put's (R295; log 31, DESIGN CHOICE). A
put that its ring would reject now writes nothing. -/
def putLock (s : State) (o : Op) : List (Nat × Nat × Nat × Nat) :=
  if o.home ≠ s.here then []
  else match ringSays s o.home o.hdr (opGroup o) o.ticket o.toff o.len with
  | .reject => []
  | .take t => [(1, 0, (tileAt s o.home t).base + o.toff, o.len)]
  | .wait => [(1, 0, 0, 0)]

/-- The slot of a ticket has become filling for it: puts of its own core for that ticket lock their part of it. -/
def lockStage (core h ticket : Nat) (s : State) : State :=
  let r := hdrAt s core h
  let base := (tileAt s core (r.tb + ticket % r.n)).base
  let at_ (l : RLock) : RLock := match tget s.ops l.op with
    | some o => if isPut o ∧ l.part = 1 ∧ o.home = core ∧ o.hdr = h ∧ o.ticket % 2 ^ 32 = ticket % 2 ^ 32 then { l with base := base + o.toff, len := o.len } else l
    | none => l
  modCore core (fun c => { c with locks := c.locks.map at_ }) s

/-- A put's operation: its ring's home and header, ticket, offset; the hint is its record's (R140). -/
def issuePut (kind : OpKind) (vs w home h ticket hint : Nat) (drop : State → State) (k : BitVec 1) (s : State) : State :=
  let len := bits w 28 16
  withEnd vs false (fun spa spol swin s =>
    let o : Op := { newOp kind s with
      tok := bit w 63, cls := classOf s.here [home], src := vs, len := len, toff := bits w 11 0, hdr := h, home := home, ticket := ticket
      policy := hint }
    let l := cutAt o
    let locks := lockOf s.here 0 (myRuns s vs len) ++ putLock s o
    if locksFree s s.here < locks.length then park (.locks locks.length) s
    else drop (enqueue { o with next := l } (fun id => { newPiece id 0 l spa 0 s with
      origin := s.here, epoch := (myCore s).epoch, win := swin, spol := max spol hint }) locks k s)) s

def execRingPut (l : BitVec 1) (n a b : BitVec 5) (k : BitVec 1) (s : State) : Out :=
  .next (courierIssue (.ringPut l n a b k) [a.toNat, b.toNat, b.toNat + 1] (fun s =>
    let w := regVal s.me (b.toNat + 1)
    let t := (rv s b).toNat
    if putOk w.toNat false = false then raise 23 w s
    else if bits t 34 32 ≠ 0 ∨ 1791 < bits t 45 35 then raise 23 (rv s b) s
    else withQ8 (bit w.toNat 63) (fun s =>
      withRange n (rv s a) (bits w.toNat 28 16) (fun vs s =>
        issuePut .ringPut vs w.toNat (bits t 63 46) (0x3E4000 + 64 * bits t 45 35) (bits t 31 0) (hintOf s n) (dropL l a.toNat) k s) s) s) s)

/-! ### Arrivals (R293) -/

/-- A piece, or the fault record of one, at its ring's home: it arrives, and is set down 2 + F cycles later (R255, R293). -/
def ringArrive (pc : Nat) (s : State) : State :=
  match tget s.pieces pc with
  | none => s
  | some p =>
    match tget s.ops p.op with
    | none => s
    | some o =>
      let toff := o.toff + p.off
      if p.stage = 6 then s
      -- the put, not the piece, must fit the slot (R291)
      else match ringSays s o.home o.hdr (opGroup o) o.ticket o.toff o.len with
      | .reject =>
        if p.record then setDownEnd pc o.home 0 0 0 s else failPiece pc o.home 2 23 toff s
      | .wait =>
        if 16 ≤ (coreAt s o.home).ringWait.length then
          sched (2 * leg s o.home p.origin + 256) (.ringPieceRelaunch pc) s
        else
          let r := hdrAt s o.home o.hdr
          setHdr o.home o.hdr { r with waits := r.waits + 1 } (modPiece pc (fun p => { p with stage := 5 })
            (modCore o.home (fun c => { c with ringWait := c.ringWait ++ [pc] }) s))
      | .take t =>
        if p.record then
          setDownEnd pc o.home 0 0 0 (modTile o.home t (fun x => { x with faulted := true }) s)
        else if p.stage ≠ 4 then sched (2 + cdiv p.len 64) (.ringPieceArrival pc) (modPiece pc (fun p => { p with stage := 4 }) s)
        else if earlierDue s pc p o then sched 1 (.ringPieceArrival pc) s
        else
          let a := sramBase o.home + (tileAt s o.home t).base + toff
          setDownEnd pc o.home p.status p.cause p.failOff
            (sched 0 (.tileSetDown o.home t p.len (!p.bad.isEmpty)) (engineWrite (chargeOp s o) a p.bytes p.bad 0 s))

/-- A piece for a ring of a core that forwards goes on to the core that took it, over the path between them (R372). -/
def ringForward (pc : Nat) (s : State) : State :=
  match (tget s.pieces pc).bind (fun p => (tget s.ops p.op).map (fun o => (p.op, o))) with
  | none => s
  | some (i, o) =>
    let d := fwdCore s o.home
    if d = o.home then ringArrive pc s else sched (mgPath o.home d) (.ringPieceArrival pc) (modOp i (fun o => { o with home := d }) s)

def execRingPieceArrival (pc : Nat) (s : State) : Out := .next (ringForward pc s)

/-- A piece sent back sets out for its ring again. -/
def execRingPieceRelaunch (pc : Nat) (s : State) : Out :=
  .next (match tget s.pieces pc with
    | none => s
    | some p =>
      match tget s.ops p.op with
      | none => s
      | some o =>
        let f := cdiv p.len 64
        sched (courierLeg s p.origin o.home f) (.ringPieceArrival pc) (modPiece pc (fun p => { p with stage := 3 }) s))

/-- Every piece that waits at a ring fails with status 10 and cause 0x17 (R299, R373). -/
def failWaiting (core h : Nat) (s : State) : State :=
  let here (pc : Nat) : Bool := match (tget s.pieces pc).bind (fun p => tget s.ops p.op) with | some o => decide (o.hdr = h) | none => false
  let go := (coreAt s core).ringWait.filter here
  if go.isEmpty then s
  else
    let r := hdrAt s core h
    let s1 := setHdr core h { r with waits := 0 } (modCore core (fun c => { c with ringWait := c.ringWait.filter (fun p => !here p) }) s)
    go.foldl (fun s pc =>
      match (tget s.pieces pc).bind (fun p => (tget s.ops p.op).map (fun o => o.toff + p.off)) with
      | some off => failPiece pc core 2 23 off s
      | none => s) s1

/-- The waiting pieces of a slot that has become filling for a ticket start, in arrival order. -/
def startWaiting (core h ticket : Nat) (s : State) : State :=
  let mine (pc : Nat) : Bool := match (tget s.pieces pc).bind (fun p => tget s.ops p.op) with
    | some o => decide (o.hdr = h ∧ o.ticket % 2 ^ 32 = ticket % 2 ^ 32) | none => false
  let go := (coreAt s core).ringWait.filter mine
  if go.isEmpty then s
  else
    let r := hdrAt s core h
    let s1 := setHdr core h { r with waits := r.waits - go.length } (modCore core (fun c => { c with ringWait := c.ringWait.filter (fun p => !mine p) }) s)
    go.foldl (fun s pc =>
      let n := match tget s.pieces pc with | some p => p.len | none => 0
      sched (2 + cdiv n 64) (.ringPieceArrival pc) (modPiece pc (fun p => { p with stage := 4 }) s)) s1

/-! ### take and free (R294, R295) -/

/-- The run of ready slots from the head. -/
def runFrom (s : State) (core : Nat) (r : RingHdr) : Nat → Nat → Nat
  | 0, _ => 0
  | f + 1, t =>
    let x := tileAt s core (r.tb + t % r.n)
    if x.st = .ready then runFrom s core r f (t + 1) + 1 else 0

def ringRun (s : State) (core : Nat) (r : RingHdr) : Nat := runFrom s core r r.n r.head

/-- The take word of a ring whose head slot is ready (R294). -/
def takeWord (s : State) (core h : Nat) : Word :=
  let r := hdrAt s core h
  w64 (r.head * 2 ^ 32 + (tileAt s core (r.tb + r.head % r.n)).base % 2 ^ 22 * 2 ^ 10 + ringRun s core r)

/-- ring.take and pipe.take at the header. -/
def takeAt (h : Nat) (d : BitVec 5) (k : BitVec 1) (drop : Option Nat) (s : State) : State :=
  if ringRun s s.here (hdrAt s s.here h) = 0 then park (.ringTake h d.toNat drop k) s
  else retire k (dropReg drop (wr d.toNat (takeWord s s.here h) s))

/-- ring.free and pipe.free of c slots; bad and locked say what a refusal and a range lock raise. -/
def freeAt (h c : Nat) (bad locked_ : State → State) (fin : State → State) (s : State) : State :=
  let r := hdrAt s s.here h
  let slot (i : Nat) : Tile := tileAt s s.here (r.tb + (r.head + i) % r.n)
  if c = 0 ∨ r.n < c ∨ (List.range c).any (fun i => decide ((slot i).st ≠ .ready ∧ (slot i).st ≠ .empty)) then bad s
  else if (List.range c).any (fun i => lockedAt s s.here (slot i).base (slot i).len) then locked_ s
  else
    let s1 := (List.range c).foldl (fun s i =>
      bindSlot s.here h r.tb ((r.head + i) % r.n) ((r.head + i + r.n) % 2 ^ 32) r.size s) s
    let s2 := setHdr s.here h { r with head := (r.head + c) % 2 ^ 32 } s1
    fin ((List.range c).foldl (fun s i => startWaiting s.here h (r.head + i + r.n) (lockStage s.here h (r.head + i + r.n) s)) s2)

def execRingTake (l : BitVec 1) (n a d : BitVec 5) (k : BitVec 1) (s : State) : Out :=
  .next (ringOp (.ringTake l n a d k) n a [] [d.toNat] false k (fun h _ _ s => takeAt h d k (if l = 1 then some a.toNat else none) s) s)

def execRingFree (l : BitVec 1) (n a b : BitVec 5) (k : BitVec 1) (s : State) : Out :=
  .next (ringOp (.ringFree l n a b k) n a [b.toNat] [] false k (fun h _ c s =>
    freeAt h (rv s b).toNat (raise 23 (rv s b)) (raise 7 c.va) (fun s => retire k (dropL l a.toNat s)) s) s)

/-! ### Pipes (R297, R298) -/

/-- A pipe form names its port: a guest, or the wrong end, raises 0x0C with the port code. -/
def pipeOp (p : BitVec 5) (producer : Bool) (f : PortBind → State → State) (s : State) : State :=
  match (if s.me.place ≠ s.me.native then none else portBind s (p.toNat - 16)) with
  | some b => if b.producer = producer then f b s else raise 12 (w64 p.toNat) s
  | none => raise 12 (w64 p.toNat) s

/-- The earlier ticket that a put delivers into again. -/
def againTicket (next tkt : Nat) : Option Nat :=
  if next = 0 then none
  else
    let c := (next - 1) / 65536 * 65536 + tkt
    if c < next then some c else if 65536 ≤ c then some (c - 65536) else none

def execPipePut (p a : BitVec 5) (k : BitVec 1) (s : State) : Out :=
  .next (courierIssue (.pipePut p a k) [a.toNat, a.toNat + 1] (pipeOp p true (fun b s =>
    let w := regVal s.me (a.toNat + 1)
    let again := bit w.toNat 62
    if putOk w.toNat true = false then raise 23 w s
    else match (if again then againTicket b.next (bits w.toNat 47 32) else some b.next) with
    | none => raise 23 w s
    | some t =>
      let mine (q : PortBind) : Bool := decide (q.block = s.me.block ∧ q.port = p.toNat - 16)
      let count (s : State) : State :=
        if again then s else modCore s.here (fun c => { c with ports := lmod mine (fun q => { q with next := q.next + 1 }) c.ports }) s
      withQ8 (bit w.toNat 63) (issuePut .pipePut (rv s a).toNat w.toNat b.core b.hdr t 0 count k) s)) s)

/-- A strand access of a pipe at the consumer's own core: vector memory enters first (R181, R296). -/
def pipeHere (i : Instr) (p : BitVec 5) (srcs dsts : List Nat) (f : PortBind → State → State) (s : State) : State :=
  allowed i true false false (decodeOk false srcs dsts false (pipeOp p false (fun b s =>
    if s.me.vmems ≠ 0 then park .vmem s else f b s))) s

def execPipeTake (p d : BitVec 5) (k : BitVec 1) (s : State) : Out :=
  .next (pipeHere (.pipeTake p d k) p [] [d.toNat] (fun b s => takeAt b.hdr d k none s) s)

def execPipeFree (l : BitVec 1) (p a : BitVec 5) (k : BitVec 1) (s : State) : Out :=
  .next (pipeHere (.pipeFree l p a k) p [a.toNat] [] (fun b s =>
    freeAt b.hdr (rv s a).toNat (raise 23 (rv s a)) (raise 7 (w64 p.toNat)) (fun s => retire k (dropL l a.toNat s)) s) s)

end

end Sys2Proof.Machine
end

