-- ==== Sys2Proof/Machine/Bar.lean ====
section
/-! DEFINITION. Barriers: major 0x15 (R301 to R304). -/

namespace Sys2Proof.Machine

open Sys2Proof

noncomputable section

/-! ### Level barriers (R302) -/

/-- The strand arrives at its group's barrier and parks; its instruction retires with the release. A strand that is no member of the
present episode, as its slot came to life during it, arrives at the next. -/
def barLevel (i : Instr) (level : Nat) (k : BitVec 1) (s : State) : State :=
  allowed i true false false (fun s =>
    let x := s.me
    let g := x.grid.getD 0
    let grp := groupOf level x.native
    let s1 := modMe (fun x => { x with park := some .barLevel }) (retire 0 s)
    let w := 2 * s.cur + k.toNat
    let ours (e : Episode) : Bool := decide (e.grid = g ∧ e.level = level ∧ e.group = grp)
    let add (e : Episode) (s : State) : State :=
      checkEpisode e.id (modEpisode e.id (fun e => { e with arrived := ins s.cur e.arrived, waiting := e.waiting ++ [w] }) s)
    let new (behind : Bool) : State :=
      checkEpisode s.fresh (bump { s1 with
        episodes := s1.episodes ++ [⟨s.fresh, g, level, grp, [s.cur], [w], if behind then [] else membersOf s g level grp, [], behind⟩] })
    match s.episodes.find? (fun e => ours e && !e.behind && !e.complete) with
    | none => new false
    | some e =>
      if e.members.contains s.cur ∧ !e.left.contains s.cur then add e s1
      else match s.episodes.find? (fun e => ours e && e.behind) with | some f => add f s1 | none => new true) s

def execBarCore (k : BitVec 1) (s : State) : Out := .next (barLevel (.barCore k) 0 k s)
def execBarCluster (k : BitVec 1) (s : State) : Out := .next (barLevel (.barCluster k) 1 k s)
def execBarTower (k : BitVec 1) (s : State) : Out := .next (barLevel (.barTower k) 2 k s)
def execBarModule (k : BitVec 1) (s : State) : Out := .next (barLevel (.barModule k) 3 k s)
def execBarPod (k : BitVec 1) (s : State) : Out := .next (barLevel (.barPod k) 4 k s)

/-- The release reaches a member that waits, 2·strand + park bit. -/
def releaseOne (w : Nat) (s : State) : State :=
  let s1 := wake (w / 2) s
  if w % 2 = 1 ∧ settled s1 (w / 2) = false then modStrand (w / 2) (fun x => { x with park := some .kbit }) s1 else s1

/-- The release reaches every waiting member; one that is suspended waits no more when it is restored. -/
def releaseEpisode (id : Nat) (s : State) : State :=
  match s.episodes.find? (fun e => e.id == id) with
  | none => s
  | some e =>
    e.waiting.foldl (fun s w =>
      let sid := w / 2
      if (strandAt s sid).park = some .barLevel ∧ (strandAt s sid).grid = some e.grid then releaseOne w s
      else match tget s.store sid with
      | some y => if y.grid = some e.grid ∧ y.park = some .barLevel then { s with store := tput s.store sid { y with park := none } } else s
      | none => s) { s with episodes := s.episodes.filter (fun e => e.id != id) }

def execBarrierRelease (id : Nat) (s : State) : Out := .next (releaseEpisode id s)

/-- The strands of a block that starts are members of the running episodes of their groups, but for slots that the grid has used before:
they are live again, and join the next (R302; log 32). -/
def joinEpisodes (grid : Nat) (ids : List Nat) (s : State) : State :=
  let ids := ids.filter (fun i => (tget s.grids grid).all (fun g => !g.used.contains i))
  { s with episodes := s.episodes.map (fun e =>
    if e.grid = grid ∧ e.complete = false ∧ e.behind = false then
      { e with members := e.members ++ ids.filter (fun i => decide (groupOf e.level (i / 32) = e.group) && !e.members.contains i && !e.left.contains i) }
    else e) }

/-! ### Named barriers (R303, R304) -/

/-- The word of a named barrier, at its home. -/
def barOp (i : Instr) (n a : BitVec 5) (srcs dsts : List Nat) (k : BitVec 1) (f : Word → Carry → State → State) (s : State) : State :=
  allowed i true false false (decodeOk false (a.toNat :: srcs) dsts false (fun s =>
    counter n (rv s a) (fun c s =>
      atHome c k (atPort c 8 .amo (fun s =>
        if poisoned s c.pa 8 then raise 8 c.va s else f (w64 (peek8 s c.pa)) c s)) s) s)) s

def execBarInit (l : BitVec 1) (n a b : BitVec 5) (k : BitVec 1) (s : State) : Out :=
  .next (barOp (.barInit l n a b k) n a [b.toNat] [] k (fun _ c s =>
    let v := (rv s b).toNat
    if v = 0 ∨ 65535 < v then raise 23 (rv s b) s
    else if (coreAt s s.here).bars.any (fun w => decide (w.word = c.pa)) then raise 23 c.va s
    else retire k (dropL l a.toNat (sramWrite c.pa (leBytes 8 (v * 2 ^ 16)) s))) s)

/-- One arrival. -/
def barStep (w : Nat) : Nat :=
  let gen := bits w 63 48
  let expect := bits w 31 16
  let n := (bits w 15 0 + 1) % 2 ^ 16
  if n = expect then (gen + 1) % 2 ^ 16 * 2 ^ 48 + expect * 2 ^ 16 else gen * 2 ^ 48 + expect * 2 ^ 16 + n

def execBarArr (l : BitVec 1) (n a d : BitVec 5) (k : BitVec 1) (s : State) : Out :=
  .next (barOp (.barArr l n a d k) n a [] [d.toNat] k (fun w c s =>
    if bits w.toNat 31 16 = 0 ∨ bits w.toNat 47 32 ≠ 0 then raise 23 w s
    else retire k (dropL l a.toNat (wr d.toNat (w64 (bits w.toNat 63 48)) (sramWrite c.pa (leBytes 8 (barStep w.toNat)) s)))) s)

def execBarWait (l : BitVec 1) (n a b : BitVec 5) (k : BitVec 1) (s : State) : Out :=
  .next (barOp (.barWait l n a b k) n a [b.toNat] [] k (fun w c s =>
    let want := (rv s b).toNat % 2 ^ 16
    if barPassed want w then retire k (dropL l a.toNat s)
    else if 16 ≤ (coreAt s s.here).bars.length then park .barList s
    else
      let e : WordWait := ⟨s.cur, c.pa, want, 0, if l = 1 then [a.toNat] else [], k, none⟩
      park .barWait (modCore s.here (fun q => { q with bars := q.bars ++ [e] }) s)) s)

/-- The port looks at the named-barrier list of a word, one entry a cycle. -/
def barServe (core word : Nat) (s : State) : State :=
  let ready (w : WordWait) : Bool := decide (w.word = word) && (match w.seen with | some v => barPassed w.want v | none => false)
  match (coreAt s core).bars.find? ready with
  | none => s
  | some w =>
    let s1 := modCore core (fun q => { q with bars := dropFirst (· == w) q.bars }) s
    let s2 := retireWord w 0 s1
    if (coreAt s2 core).bars.any ready then sched 1 (.barWaitService core word) s2 else s2

def execBarWaitService (place word : Nat) (s : State) : Out := .next (barServe place word s)

end

end Sys2Proof.Machine
end

