-- ==== Sys2Proof/Machine/Vector.lean ====
section
/-! DEFINITION. Vector instructions: majors 0x16 to 0x1A (R190 to R193, R217 to R243). An instruction writes an entry of its
scalar core's dispatch queue; the wide unit accepts it, and it writes its result when it completes. -/

namespace Sys2Proof.Machine

open Sys2Proof

noncomputable section

/-! ### Lanes, masks and poison (R219, R226) -/

/-- Element i of width w bytes. -/
def elem (v : BitVec 4096) (w i : Nat) : Nat := (v.extractLsb' (8 * w * i) (8 * w)).toNat

/-- The segment of an element is poisoned. -/
def segBad (bad : BitVec 16) (w i : Nat) : Bool := bad.getLsbD (w * i / 32)

/-- A vector register's value and poison. -/
def vreg (f : VFile) (r : Nat) : BitVec 4096 × BitVec 16 := (vget f.v r 0, vget f.poison r 0)

/-- A mask's value and poison; m0 reads all true. -/
def mreg (f : VFile) (m : Nat) : BitVec 256 × Bool := if m = 0 then (BitVec.allOnes 256, false) else (vget f.m m 0, f.mpoison.getLsbD m)

/-- Lane i of width w is active; 8-bit lanes share a mask bit in pairs. -/
def active (mk : BitVec 256) (w i : Nat) : Bool := mk.getLsbD (if w = 1 then i / 2 else i)

/-- What an instruction writes to an element: nothing, or a value that may be poisoned. -/
abbrev Elems := List (Option (Nat × Bool))

/-- Elements of width w from element i on written over old. -/
def putFrom (w : Nat) (old : BitVec 4096) : Nat → Elems → BitVec 4096
  | _, [] => old
  | i, none :: t => putFrom w old (i + 1) t
  | i, some (v, _) :: t =>
    let m : BitVec 4096 := BitVec.ofNat 4096 (2 ^ (8 * w) - 1) <<< (8 * w * i)
    putFrom w ((old &&& ~~~m) ||| (BitVec.ofNat 4096 (v % 2 ^ (8 * w)) <<< (8 * w * i))) (i + 1) t

/-- The poison after a write: a segment that receives a poisoned element, or was poisoned and keeps one of its lanes. -/
def putBad (w : Nat) (old : BitVec 16) (es : Elems) : BitVec 16 :=
  (List.range 16).foldl (fun (b : BitVec 16) (g : Nat) =>
    let mine := (List.range (32 / w)).map (fun i => (es[g * (32 / w) + i]?).getD none)
    if mine.any (fun e => (e.map Prod.snd).getD false) || (old.getLsbD g && mine.any Option.isNone) then b ||| (1 <<< g) else b) 0

/-- A write of elements to register d. -/
def vecOut (f : VFile) (d w : Nat) (es : Elems) : VOut :=
  let (o, b) := vreg f d
  .vec d (putFrom w o 0 es) (putBad w b es)

/-! ### Lane operations (R221 to R225) -/

/-- A lane operation: width, the vector operand a, operand b (none: the captured scalar), the mask, the register named in
vd, whether it reads its old lane, and the function of the three operands. -/
structure LaneOp where
  w : Nat
  va : Nat
  vb : Option Nat
  m : Nat
  d : Nat
  c : Bool
  f : Nat → Nat → Nat → Nat × FFlags

/-- Format and width of a floating-point type code. -/
def vfmt (y : BitVec 2) : Nat := 5 + y.toNat
def vfw (y : BitVec 2) : Nat := if y = 0 then 4 else 2
/-- Width of an integer type code, and of a move's. -/
def viw (y : BitVec 2) : Nat := 4 / 2 ^ y.toNat

/-- A floating-point operation of two or three sources; in the `.vs` form the vector lies in vs2. -/
def vf2 (v : BitVec 1) (y : BitVec 2) (b a : BitVec 5) (m : BitVec 3) (d : BitVec 5) (c : Bool)
    (f : Nat → Nat → Nat → Nat → Nat × FFlags) : LaneOp :=
  ⟨vfw y, if v = 1 then b.toNat else a.toNat, if v = 1 then none else some b.toNat, m.toNat, d.toNat, c, f (vfmt y)⟩

/-- An integer operation. -/
def vi2 (v : BitVec 1) (y : BitVec 2) (b a : BitVec 5) (m : BitVec 3) (d : BitVec 5) (c : Bool)
    (f : Nat → Nat → Nat → Nat → Nat) : LaneOp :=
  ⟨viw y, if v = 1 then b.toNat else a.toNat, if v = 1 then none else some b.toNat, m.toNat, d.toNat, c,
    fun x z o => (f (8 * viw y) x z o % 2 ^ (8 * viw y), 0)⟩

/-- A unary operation. -/
def vf1 (y : BitVec 2) (a : BitVec 5) (m : BitVec 3) (d : BitVec 5) (f : Nat → Nat → Nat × FFlags) : LaneOp :=
  ⟨vfw y, a.toNat, none, m.toNat, d.toNat, false, fun x _ _ => f (vfmt y) x⟩

/-- `vabs` and `vneg`: bits of the sign only, a NaN made canonical, no flag. -/
def vsign (z : Bool) (g : Nat → Nat → Nat) (t x : Nat) : Nat × FFlags :=
  if (fdec t false x).isNan then (canonNaN t, 0) else (g (flushIn t z x) (signBit t), 0)

/-- The signed value of an 8w-bit pattern. -/
def isgn (n x : Nat) : Int := (sextN x n).toInt

def natOf (n : Nat) (i : Int) : Nat := (i % (2 ^ n : Nat)).toNat

/-- The lane operation of an entry, for instructions that write vector lanes. -/
def laneOp (e : VEntry) : Option LaneOp :=
  let r := e.mode
  let z := e.ftz
  let un (g : FVal → FVal × FFlags) (t x : Nat) : Nat × FFlags := rounded t r z (g (fdec t z x))
  match e.instr with
  | .vadd v y b a m d _ => some (vf2 v y b a m d false (fun t p q _ => rounded t r z (fadd2 r (fdec t z p) (fdec t z q))))
  | .vsub v y b a m d _ => some (vf2 v y b a m d false (fun t p q _ => rounded t r z (fadd2 r (fdec t z p) (fdec t z q).negate)))
  | .vmul v y b a m d _ => some (vf2 v y b a m d false (fun t p q _ => rounded t r z (fmul2 (fdec t z p) (fdec t z q))))
  | .vfma v y b a m d _ => some (vf2 v y b a m d true (fun t p q c => rounded t r z (ffma3 r (fdec t z p) (fdec t z q) (fdec t z c))))
  | .vfms v y b a m d _ =>
    some (vf2 v y b a m d true (fun t p q c => rounded t r z (ffma3 r (fdec t z p) (fdec t z q) (fdec t z c).negate)))
  | .vfnma v y b a m d _ =>
    some (vf2 v y b a m d true (fun t p q c => rounded t r z (ffma3 r (fdec t z p).negate (fdec t z q) (fdec t z c))))
  | .vmin v y b a m d _ => some (vf2 v y b a m d false (fun t p q _ => fminmax t z false p q))
  | .vmax v y b a m d _ => some (vf2 v y b a m d false (fun t p q _ => fminmax t z true p q))
  | .vabs y a m d _ => some (vf1 y a m d (vsign z (fun x sb => x % sb)))
  | .vneg y a m d _ => some (vf1 y a m d (vsign z (fun x sb => x ^^^ sb)))
  | .vrcp y a m d _ => some (vf1 y a m d (un (fdiv2 (ofInt 1))))
  | .vrsq y a m d _ => some (vf1 y a m d (un frsq1))
  | .vsqrt y a m d _ => some (vf1 y a m d (un fsqrt1))
  | .vexp2 y a m d _ => some (vf1 y a m d (un fexp2))
  | .vlog2 y a m d _ => some (vf1 y a m d (un flog2))
  | .viadd v y b a m d _ => some (vi2 v y b a m d false (fun _ p q _ => p + q))
  | .visub v y b a m d _ => some (vi2 v y b a m d false (fun n p q _ => p + 2 ^ n - q))
  | .vimul v y b a m d _ => some (vi2 v y b a m d false (fun _ p q _ => p * q))
  | .vimad v y b a m d _ => some (vi2 v y b a m d true (fun _ p q c => p * q + c))
  | .vand v y b a m d _ => some (vi2 v y b a m d false (fun _ p q _ => p &&& q))
  | .vor v y b a m d _ => some (vi2 v y b a m d false (fun _ p q _ => p ||| q))
  | .vxor v y b a m d _ => some (vi2 v y b a m d false (fun _ p q _ => p ^^^ q))
  | .vshl v y b a m d _ => some (vi2 v y b a m d false (fun n p q _ => p * 2 ^ (q % n)))
  | .vshr v y b a m d _ => some (vi2 v y b a m d false (fun n p q _ => p / 2 ^ (q % n)))
  | .vsra v y b a m d _ => some (vi2 v y b a m d false (fun n p q _ => natOf n (isgn n p / (2 ^ (q % n) : Nat))))
  | .vimin v y b a m d _ => some (vi2 v y b a m d false (fun n p q _ => if isgn n q < isgn n p then q else p))
  | .vimax v y b a m d _ => some (vi2 v y b a m d false (fun n p q _ => if isgn n p < isgn n q then q else p))
  | _ => none

/-- The comparison of an entry: its value is 1 where the relation holds. -/
def cmpOp (e : VEntry) : Option LaneOp :=
  let z := e.ftz
  let fc (op t p q : Nat) : Nat × FFlags := let x := frel op (fdec t z p) (fdec t z q); (b2n x.1, x.2)
  match e.instr with
  | .vcmpEq v y b a m d _ => some (vf2 v y b a m d false (fun t p q _ => fc 0 t p q))
  | .vcmpLt v y b a m d _ => some (vf2 v y b a m d false (fun t p q _ => fc 1 t p q))
  | .vcmpLe v y b a m d _ => some (vf2 v y b a m d false (fun t p q _ => fc 2 t p q))
  | .vicmpEq v y b a m d _ => some (vi2 v y b a m d false (fun n p q _ => b2n (decide (isgn n p = isgn n q))))
  | .vicmpLt v y b a m d _ => some (vi2 v y b a m d false (fun n p q _ => b2n (decide (isgn n p < isgn n q))))
  | .vicmpLe v y b a m d _ => some (vi2 v y b a m d false (fun n p q _ => b2n (decide (isgn n p ≤ isgn n q))))
  | _ => none

/-- A lane's operands: value a, b and the old lane, and whether one of them is poisoned. -/
def laneArgs (f : VFile) (o : LaneOp) (sb : Word) (i : Nat) : Nat × Nat × Nat × Bool :=
  let a := vreg f o.va
  let c := vreg f o.d
  let q := match o.vb with
    | some r => (elem (vreg f r).1 o.w i, segBad (vreg f r).2 o.w i)
    | none => (sb.toNat % 2 ^ (8 * o.w), false)
  (elem a.1 o.w i, q.1, elem c.1 o.w i, segBad a.2 o.w i || q.2 || (o.c && segBad c.2 o.w i))

/-- Each active lane's result, and the flags of all of them (R221). -/
def laneRun (f : VFile) (o : LaneOp) (sb : Word) : Elems × FFlags :=
  let mk := mreg f o.m
  let rs := (List.range (512 / o.w)).map (fun i =>
    if active mk.1 o.w i then
      let x := laneArgs f o sb i
      let r := o.f x.1 x.2.1 x.2.2.1
      some (r, x.2.2.2 || mk.2)
    else none)
  (rs.map (fun r => r.map (fun r => (r.1.1, r.2))), rs.foldl (fun fl r => fl ||| ((r.map (fun r => r.1.2)).getD 0)) 0)

/-- The mask that a comparison writes (R225): in 8-bit lanes the relation must hold in both lanes of a pair. -/
def cmpMask (w : Nat) (es : Elems) : BitVec 256 :=
  let on (i : Nat) : Bool := decide ((((es[i]?).getD none).map Prod.fst).getD 0 = 1)
  (List.range 256).foldl (fun (b : BitVec 256) (i : Nat) =>
    if (if w = 1 then on (2 * i) && on (2 * i + 1) else on i) then b ||| (1 <<< i) else b) 0

def anyBad (es : Elems) : Bool := es.any (fun e => (e.map Prod.snd).getD false)

/-- `vsel` (R225): every lane is written, from a where its mask bit is set, else from b, and is poisoned by what it takes (R226). -/
def selRun (f : VFile) (v : BitVec 1) (y : BitVec 2) (b a : BitVec 5) (m : BitVec 3) (d : BitVec 5) (sb : Word) : Elems :=
  let o := vf2 v y b a m d false (fun _ _ _ _ => (0, 0))
  let mk := mreg f o.m
  (List.range (512 / o.w)).map (fun i =>
    let x := laneArgs f o sb i
    if active mk.1 o.w i then some (x.1, segBad (vreg f o.va).2 o.w i || mk.2)
    else some (x.2.1, (match o.vb with | some r => segBad (vreg f r).2 o.w i | none => false) || mk.2))

/-! ### Reductions (R217, R236) -/

/-- One level after another of the tree over 2^k lanes. -/
def redTree (op : Nat → Nat → Nat × FFlags) : Nat → List (Option Nat) → FFlags → Option Nat × FFlags
  | 0, l, fl => (l.headD none, fl)
  | k + 1, l, fl =>
    let h := l.length / 2
    let rs := ((l.take h).zip (l.drop h)).map (fun p =>
      match p with
      | (none, y) => (y, (0 : FFlags))
      | (some x, none) => (some x, 0)
      | (some x, some y) => let r := op x y; (some r.1, r.2))
    redTree op k (rs.map Prod.fst) (rs.foldl (fun fl r => fl ||| r.2) fl)

/-- A reduction: 0 sum, 1 max, 2 min. -/
def redRun (f : VFile) (e : VEntry) (kind : Nat) (y : BitVec 2) (a : BitVec 5) (m : BitVec 3) : VOut × FFlags :=
  let w := if y = 0 ∨ y = 3 then 4 else 2
  let n := 512 / w
  let mk := mreg f m.toNat
  let va := vreg f a.toNat
  let on (i : Nat) : Bool := active mk.1 w i
  let widen (x : Nat) : Nat × FFlags :=
    if y ≠ 3 then (let v := fdec (vfmt y) e.ftz x; rounded 5 0 false (v, snanFlag v)) else (x, 0)
  let ls := (List.range n).map (fun i => if on i then some (widen (elem va.1 w i)) else none)
  let fl0 := ls.foldl (fun fl l => fl ||| ((l.map Prod.snd).getD 0)) (0 : FFlags)
  let op (p q : Nat) : Nat × FFlags :=
    if y = 3 then
      (if kind = 0 then (p + q) % 2 ^ 32
        else if kind = 1 then (if isgn 32 p < isgn 32 q then q else p)
        else (if isgn 32 q < isgn 32 p then q else p), 0)
    else if kind = 0 then fopArith .fadd 5 e.mode e.ftz p q 0
    else fminmax 5 e.ftz (decide (kind = 1)) p q
  let r := redTree op (Nat.log2 n) (ls.map (fun l => l.map Prod.fst)) fl0
  let v := r.1.getD 0
  let bad := mk.2 || (List.range n).any (fun i => on i && segBad va.2 w i)
  (.scalar (if y = 3 then sextN v 32 else zextN v 32) bad, r.2)

/-! ### Moves (R237) -/

/-- Active lanes given by a function of the lane number: value and poison. -/
def moveRun (f : VFile) (w : Nat) (m : BitVec 3) (g : Nat → Nat × Bool) : Elems :=
  let mk := mreg f m.toNat
  (List.range (512 / w)).map (fun i => if active mk.1 w i then some ((g i).1, (g i).2 || mk.2) else none)

/-- The lane that `vperm` reads for lane i, from its index lane. -/
def permLane (y : BitVec 2) (i p : Nat) : Nat := if y = 0 then p % 128 else if y = 1 then p % 256 else i / 256 * 256 + p % 256

/-! ### Conversions (R239 to R243) -/

/-- Bytes of an element of a format. -/
def fmtWidth (f : Nat) : Nat :=
  match f with | 2 => 2 | 6 => 2 | 7 => 2 | 3 => 4 | 5 => 4 | 11 => 4 | 4 => 8 | 12 => 8 | _ => 1

/-- An element of Q4X, its outlier under the flush setting. -/
def q4xAt (ftz : Bool) (v : BitVec 4096) (j : Nat) : FVal :=
  let q := elem v 2 (j / 4)
  if q % 16 = 8 ∧ j % 4 = 0 then fdec 8 ftz (q / 256) else q4xElem q (j % 4)

/-- Element j of a format, as an exact value. -/
def srcElem (ftz : Bool) (f : Nat) (v : BitVec 4096) (j : Nat) : FVal :=
  if f = 10 then q4xAt ftz v j
  else if f ≤ 3 then ofInt (isgn (8 * fmtWidth f) (elem v (fmtWidth f) j))
  else fdec f ftz (elem v (fmtWidth f) j)

/-- The segment's poison of element j of a format. -/
def srcBad (f : Nat) (bad : BitVec 16) (j : Nat) : Bool := if f = 10 then segBad bad 2 (j / 4) else segBad bad (fmtWidth f) j

/-- Quads of 128 values encoded in Q4X: each is written when its first element is active (R240). Model's choice: the flags of all
four sources of a written quad are raised, of its inactive elements too (R206 encodes the four together, R208, R219 and R221 speak
of active lanes; log 38, DESIGN CHOICE). -/
def quadRun (mode : BitVec 2) (on : Nat → Bool) (x : Nat → FVal × FFlags) (bad : Nat → Bool) : Elems × FFlags :=
  let qs := (List.range 32).map (fun k =>
    if on (4 * k) then
      let v (i : Nat) : FVal × FFlags := x (4 * k + i)
      let q := q4xQuad mode (v 0).1 (v 1).1 (v 2).1 (v 3).1
      some (q.1, q.2 ||| (v 0).2 ||| (v 1).2 ||| (v 2).2 ||| (v 3).2,
        bad (4 * k) || bad (4 * k + 1) || bad (4 * k + 2) || bad (4 * k + 3))
    else none)
  (qs.map (fun q => q.map (fun q => (q.1, q.2.2))), qs.foldl (fun fl q => fl ||| ((q.map (fun q => q.2.1)).getD 0)) 0)

/-- Elements of a conversion to any other format: width of the result, active elements, value and flags of each. -/
def cvtList (n : Nat) (on : Nat → Bool) (x : Nat → Nat × FFlags) (bad : Nat → Bool) : Elems × FFlags :=
  let rs := (List.range n).map (fun j => if on j then some (x j, bad j) else none)
  (rs.map (fun r => r.map (fun r => (r.1.1, r.2))), rs.foldl (fun fl r => fl ||| ((r.map (fun r => r.1.2)).getD 0)) 0)

/-- How many elements `vcvt` converts. -/
def cvtCount (t f : Nat) : Nat := 512 / max (fmtWidth t) (fmtWidth f)

/-- `vcvt` (R240): elements and their width. -/
def cvtRun (f : VFile) (e : VEntry) (t fr : Nat) (sat : Bool) (a : BitVec 5) (m : BitVec 3) : Nat × Elems × FFlags :=
  let n := cvtCount t fr
  let mk := mreg f m.toNat
  let va := vreg f a.toNat
  let on (j : Nat) : Bool := mk.1.getLsbD (if n = 512 then j / 2 else j)
  let bad (j : Nat) : Bool := mk.2 || srcBad fr va.2 j
  let x (j : Nat) : FVal := srcElem e.ftz fr va.1 j
  if t = 10 then (2, quadRun e.mode on (fun j => (x j, 0)) bad)
  else
    (fmtWidth t, cvtList n on (fun j =>
      if t ≤ 3 then
        let b := 8 * fmtWidth t
        let r := toInt e.mode (-(2 ^ (b - 1) : Nat)) ((2 ^ (b - 1) : Nat) - 1) (x j)
        (natOf b r.1, r.2)
      else
        let r := fround t e.mode sat e.ftz (x j)
        (r.1, r.2 ||| snanFlag (x j))) bad)

/-- `vqblk` (R242). -/
def qblkRun (f : VFile) (e : VEntry) (q4x : Bool) (a : BitVec 5) (m : BitVec 3) : Nat × Elems × FFlags :=
  let mk := mreg f m.toNat
  let va := vreg f a.toNat
  let sc := fdec 11 e.ftz (e.b.toNat % 2 ^ 24)
  let on (j : Nat) : Bool := mk.1.getLsbD j
  let bad (j : Nat) : Bool := mk.2 || segBad va.2 4 j
  let x (j : Nat) : FVal × FFlags := fdiv2 (fdec 5 e.ftz (elem va.1 4 j)) sc
  if q4x then (2, quadRun e.mode on x bad) else (1, cvtList 128 on (fun j => rounded 8 e.mode e.ftz (x j)) bad)

/-- `vscl` (R243). -/
def sclRun (f : VFile) (e : VEntry) (fmt : Nat) (a : BitVec 5) (m : BitVec 3) : Elems :=
  let mk := mreg f m.toNat
  let va := vreg f a.toNat
  let sc := fdec 11 false (e.b.toNat % 2 ^ 24)
  (cvtList 128 (fun j => mk.1.getLsbD j) (fun j => ((fround 5 0 false false (fmul2 (srcElem false fmt va.1 j) sc).1).1, 0))
    (fun j => mk.2 || srcBad fmt va.2 j)).1

/-! ### What an entry reads and writes (R192) -/

/-- The names of an entry: vector registers read beside its old vd, masks read, whether it counts as reading its own vd, the
vector register written, the mask written. -/
structure VNames where
  vs : List Nat
  ms : List Nat
  old : Bool
  vd : Option Nat
  md : Option Nat

/-- Names of a lane operation or comparison. -/
def laneNames (o : LaneOp) (cmp : Bool) : VNames :=
  ⟨o.va :: o.vb.toList, [o.m], !cmp && (o.c || decide (o.m ≠ 0)), if cmp then none else some o.d, if cmp then some o.d else none⟩

def vnames (e : VEntry) : VNames :=
  match laneOp e with
  | some o => laneNames o false
  | none =>
  match cmpOp e with
  | some o => laneNames o true
  | none =>
  match e.instr with
  | .vsel v _ b a m d _ => ⟨if v = 1 then [b.toNat] else [a.toNat, b.toNat], [m.toNat], decide (m ≠ 0), some d.toNat, none⟩
  | .vld _ _ m d _ => ⟨[], [m.toNat], decide (m ≠ 0), some d.toNat, none⟩
  | .vlds _ _ m d _ => ⟨[], [m.toNat], decide (m ≠ 0), some d.toNat, none⟩
  | .vldg i _ _ m d _ => ⟨[i.toNat], [m.toNat], decide (m ≠ 0 ∨ e.width < 4), some d.toNat, none⟩
  | .vldt _ _ d _ => ⟨[], [], false, some d.toNat, none⟩
  | .vst _ _ m d _ => ⟨[d.toNat], [m.toNat], false, none, none⟩
  | .vsts _ _ m d _ => ⟨[d.toNat], [m.toNat], false, none, none⟩
  | .vstg i _ _ m d _ => ⟨[d.toNat, i.toNat], [m.toNat], false, none, none⟩
  | .vstt _ _ d _ => ⟨[d.toNat], [], false, none, none⟩
  | .vredsum _ a m _ _ => ⟨[a.toNat], [m.toNat], false, none, none⟩
  | .vredmax _ a m _ _ => ⟨[a.toNat], [m.toNat], false, none, none⟩
  | .vredmin _ a m _ _ => ⟨[a.toNat], [m.toNat], false, none, none⟩
  | .vperm _ b a m d _ => ⟨[a.toNat, b.toNat], [m.toNat], decide (m ≠ 0), some d.toNat, none⟩
  | .vrot _ _ a m d _ => ⟨[a.toNat], [m.toNat], decide (m ≠ 0), some d.toNat, none⟩
  | .vbcast _ _ m d _ => ⟨[], [m.toNat], decide (m ≠ 0), some d.toNat, none⟩
  | .vext _ _ a _ _ => ⟨[a.toNat], [], false, none, none⟩
  | .vins _ _ _ d _ => ⟨[], [], true, some d.toNat, none⟩
  | .vmov _ a m d _ => ⟨[a.toNat], [m.toNat], decide (m ≠ 0), some d.toNat, none⟩
  | .mand b a d _ => ⟨[], [a.toNat, b.toNat], false, none, some d.toNat⟩
  | .mor b a d _ => ⟨[], [a.toNat, b.toNat], false, none, some d.toNat⟩
  | .mnot a d _ => ⟨[], [a.toNat], false, none, some d.toNat⟩
  | .mpop a _ _ => ⟨[], [a.toNat], false, none, none⟩
  | .vcvt t _ f a m d _ =>
    let b := if t.toNat = 10 then 64 else cvtCount t.toNat f.toNat * fmtWidth t.toNat
    ⟨[a.toNat], [m.toNat], decide (m ≠ 0 ∨ b < 512), some d.toNat, none⟩
  | .vpack _ a d _ => ⟨[a.toNat], [], true, some d.toNat, none⟩
  | .vunpack _ a d _ => ⟨[a.toNat], [], true, some d.toNat, none⟩
  | .vqblk _ _ a m d _ => ⟨[a.toNat], [m.toNat], true, some d.toNat, none⟩
  | .vscl _ _ a m d _ => ⟨[a.toNat], [m.toNat], decide (m ≠ 0), some d.toNat, none⟩
  | _ => ⟨[], [], false, none, none⟩

/-- An earlier operation that writes something an entry reads. Model's choice: an entry that overwrites the whole of a register
which an earlier slow load still has to write does not wait for it, and the load's late write prevails (R192 orders reads after
writes; log 37, DESIGN CHOICE). -/
def conflicts (w r : VNames) : Bool :=
  (match w.vd with | some d => r.vs.contains d || (r.old && decide (r.vd = some d)) | none => false)
  || (match w.md with | some d => decide (d ≠ 0) && r.ms.contains d | none => false)

/-- The head of a scalar core's queue may be accepted: it has retired, the unit is not held, and every register it reads
has been written (R192, R234). -/
def vEligible (s : State) (place sc : Nat) : Bool :=
  let c := coreAt s place
  match (scAt s place sc).dq with
  | [] => false
  | e :: _ => decide (e.at_ + 7 ≤ s.now ∧ c.vbusy ≤ s.now)
    && c.vruns.all (fun r => decide (r.sc ≠ sc) || !conflicts (vnames r.e) (vnames e))

/-- An entry that is queued or has not written its result yet writes one of these registers (R229). -/
def namesBusy (s : State) (place sc mask : Nat) (vi : Option Nat) : Bool :=
  let ns := (scAt s place sc).dq ++ ((coreAt s place).vruns.filter (fun r => r.sc == sc)).map VRun.e
  ns.any (fun e => let n := vnames e; (decide (mask ≠ 0) && decide (n.md = some mask)) || (vi.isSome && decide (n.vd = vi)))

/-! ### Issue (R191, R220) -/

/-- Decode and the checks that every vector instruction makes: only on a core; register states; the names of R229; a free
entry; the file's tag (R190). -/
def vecDecode (i : Instr) (srcs : List Nat) (d : Option Nat) (mask : Nat) (vi : Option Nat) (f : State → State) (s : State) : State :=
  allowed i true false false (decodeOk false srcs d.toList d.isSome (fun s =>
    let q := scAt s s.here s.mySc
    if namesBusy s s.here s.mySc mask vi then park (.vnames mask vi) s
    else if 8 ≤ q.dq.length + flying s (some s.mySc) vectorWord then park .vqueue s
    else if q.vf.tag ≠ none ∧ q.vf.tag ≠ s.me.grid then raise 6 0 s
    else f s)) s

/-- Writes the entry, with its captured scalars, and retires; the file takes the grid's tag. Model's choice: a Caller strand that stands on
the core has no grid; it finds a file without a tag, or 0x06, and leaves the file without one (R190; log 9, DESIGN CHOICE). -/
def enqueueV (i : Instr) (a b : Word) (elems : List VElem) (width tag : Nat) (k : BitVec 1) (s : State) : State :=
  let x := s.me
  let e : VEntry := ⟨s.fresh, s.cur, s.now, i, a, b, rmOf x, ftzOf x, elems, width, tag⟩
  retire k (bump (modMe (fun x => { x with vents := x.vents + 1 })
    (modMySc (fun q => { q with dq := q.dq ++ [e], vf := { q.vf with tag := x.grid } }) s)))

/-- An instruction on registers only, with up to two scalar sources. -/
def vecOp (i : Instr) (a b : Option (BitVec 5)) (k : BitVec 1) (s : State) : State :=
  let v (s : State) (r : Option (BitVec 5)) : Word := match r with | some r => rv s r | none => 0
  vecDecode i ((a.toList ++ b.toList).map BitVec.toNat) none 0 none (fun s => enqueueV i (v s a) (v s b) [] 0 0 k s) s

/-- The scalar operand of a `.vs` form lies in vs1. -/
def vsOp (i : Instr) (v : BitVec 1) (a : BitVec 5) (k : BitVec 1) (s : State) : State :=
  vecOp i none (if v = 1 then some a else none) k s

/-- An instruction with a scalar result (R193): sd is left pending, as source 2. -/
def vecScalar (i : Instr) (b : Option (BitVec 5)) (d : BitVec 5) (k : BitVec 1) (s : State) : State :=
  vecDecode i (b.toList.map BitVec.toNat) (some d.toNat) 0 none (fun s =>
    let w : Word := match b with | some r => rv s r | none => 0
    let tag := s.fresh
    enqueueV i 0 w [] 0 tag k (startLate d.toNat 2 s.me.pc false none s)) s

def execVadd (v : BitVec 1) (y : BitVec 2) (b a : BitVec 5) (m : BitVec 3) (d : BitVec 5) (k : BitVec 1) (s : State) : Out := .next (vsOp (.vadd v y b a m d k) v a k s)
def execVsub (v : BitVec 1) (y : BitVec 2) (b a : BitVec 5) (m : BitVec 3) (d : BitVec 5) (k : BitVec 1) (s : State) : Out := .next (vsOp (.vsub v y b a m d k) v a k s)
def execVmul (v : BitVec 1) (y : BitVec 2) (b a : BitVec 5) (m : BitVec 3) (d : BitVec 5) (k : BitVec 1) (s : State) : Out := .next (vsOp (.vmul v y b a m d k) v a k s)
def execVfma (v : BitVec 1) (y : BitVec 2) (b a : BitVec 5) (m : BitVec 3) (d : BitVec 5) (k : BitVec 1) (s : State) : Out := .next (vsOp (.vfma v y b a m d k) v a k s)
def execVfms (v : BitVec 1) (y : BitVec 2) (b a : BitVec 5) (m : BitVec 3) (d : BitVec 5) (k : BitVec 1) (s : State) : Out := .next (vsOp (.vfms v y b a m d k) v a k s)
def execVfnma (v : BitVec 1) (y : BitVec 2) (b a : BitVec 5) (m : BitVec 3) (d : BitVec 5) (k : BitVec 1) (s : State) : Out := .next (vsOp (.vfnma v y b a m d k) v a k s)
def execVmin (v : BitVec 1) (y : BitVec 2) (b a : BitVec 5) (m : BitVec 3) (d : BitVec 5) (k : BitVec 1) (s : State) : Out := .next (vsOp (.vmin v y b a m d k) v a k s)
def execVmax (v : BitVec 1) (y : BitVec 2) (b a : BitVec 5) (m : BitVec 3) (d : BitVec 5) (k : BitVec 1) (s : State) : Out := .next (vsOp (.vmax v y b a m d k) v a k s)
def execVcmpEq (v : BitVec 1) (y : BitVec 2) (b a : BitVec 5) (m : BitVec 3) (d : BitVec 5) (k : BitVec 1) (s : State) : Out := .next (vsOp (.vcmpEq v y b a m d k) v a k s)
def execVcmpLt (v : BitVec 1) (y : BitVec 2) (b a : BitVec 5) (m : BitVec 3) (d : BitVec 5) (k : BitVec 1) (s : State) : Out := .next (vsOp (.vcmpLt v y b a m d k) v a k s)
def execVcmpLe (v : BitVec 1) (y : BitVec 2) (b a : BitVec 5) (m : BitVec 3) (d : BitVec 5) (k : BitVec 1) (s : State) : Out := .next (vsOp (.vcmpLe v y b a m d k) v a k s)
def execVsel (v : BitVec 1) (y : BitVec 2) (b a : BitVec 5) (m : BitVec 3) (d : BitVec 5) (k : BitVec 1) (s : State) : Out := .next (vsOp (.vsel v y b a m d k) v a k s)
def execVabs (y : BitVec 2) (a : BitVec 5) (m : BitVec 3) (d : BitVec 5) (k : BitVec 1) (s : State) : Out := .next (vecOp (.vabs y a m d k) none none k s)
def execVneg (y : BitVec 2) (a : BitVec 5) (m : BitVec 3) (d : BitVec 5) (k : BitVec 1) (s : State) : Out := .next (vecOp (.vneg y a m d k) none none k s)
def execVrcp (y : BitVec 2) (a : BitVec 5) (m : BitVec 3) (d : BitVec 5) (k : BitVec 1) (s : State) : Out := .next (vecOp (.vrcp y a m d k) none none k s)
def execVrsq (y : BitVec 2) (a : BitVec 5) (m : BitVec 3) (d : BitVec 5) (k : BitVec 1) (s : State) : Out := .next (vecOp (.vrsq y a m d k) none none k s)
def execVsqrt (y : BitVec 2) (a : BitVec 5) (m : BitVec 3) (d : BitVec 5) (k : BitVec 1) (s : State) : Out := .next (vecOp (.vsqrt y a m d k) none none k s)
def execVexp2 (y : BitVec 2) (a : BitVec 5) (m : BitVec 3) (d : BitVec 5) (k : BitVec 1) (s : State) : Out := .next (vecOp (.vexp2 y a m d k) none none k s)
def execVlog2 (y : BitVec 2) (a : BitVec 5) (m : BitVec 3) (d : BitVec 5) (k : BitVec 1) (s : State) : Out := .next (vecOp (.vlog2 y a m d k) none none k s)
def execViadd (v : BitVec 1) (y : BitVec 2) (b a : BitVec 5) (m : BitVec 3) (d : BitVec 5) (k : BitVec 1) (s : State) : Out := .next (vsOp (.viadd v y b a m d k) v a k s)
def execVisub (v : BitVec 1) (y : BitVec 2) (b a : BitVec 5) (m : BitVec 3) (d : BitVec 5) (k : BitVec 1) (s : State) : Out := .next (vsOp (.visub v y b a m d k) v a k s)
def execVimul (v : BitVec 1) (y : BitVec 2) (b a : BitVec 5) (m : BitVec 3) (d : BitVec 5) (k : BitVec 1) (s : State) : Out := .next (vsOp (.vimul v y b a m d k) v a k s)
def execVimad (v : BitVec 1) (y : BitVec 2) (b a : BitVec 5) (m : BitVec 3) (d : BitVec 5) (k : BitVec 1) (s : State) : Out := .next (vsOp (.vimad v y b a m d k) v a k s)
def execVand (v : BitVec 1) (y : BitVec 2) (b a : BitVec 5) (m : BitVec 3) (d : BitVec 5) (k : BitVec 1) (s : State) : Out := .next (vsOp (.vand v y b a m d k) v a k s)
def execVor (v : BitVec 1) (y : BitVec 2) (b a : BitVec 5) (m : BitVec 3) (d : BitVec 5) (k : BitVec 1) (s : State) : Out := .next (vsOp (.vor v y b a m d k) v a k s)
def execVxor (v : BitVec 1) (y : BitVec 2) (b a : BitVec 5) (m : BitVec 3) (d : BitVec 5) (k : BitVec 1) (s : State) : Out := .next (vsOp (.vxor v y b a m d k) v a k s)
def execVshl (v : BitVec 1) (y : BitVec 2) (b a : BitVec 5) (m : BitVec 3) (d : BitVec 5) (k : BitVec 1) (s : State) : Out := .next (vsOp (.vshl v y b a m d k) v a k s)
def execVshr (v : BitVec 1) (y : BitVec 2) (b a : BitVec 5) (m : BitVec 3) (d : BitVec 5) (k : BitVec 1) (s : State) : Out := .next (vsOp (.vshr v y b a m d k) v a k s)
def execVsra (v : BitVec 1) (y : BitVec 2) (b a : BitVec 5) (m : BitVec 3) (d : BitVec 5) (k : BitVec 1) (s : State) : Out := .next (vsOp (.vsra v y b a m d k) v a k s)
def execVimin (v : BitVec 1) (y : BitVec 2) (b a : BitVec 5) (m : BitVec 3) (d : BitVec 5) (k : BitVec 1) (s : State) : Out := .next (vsOp (.vimin v y b a m d k) v a k s)
def execVimax (v : BitVec 1) (y : BitVec 2) (b a : BitVec 5) (m : BitVec 3) (d : BitVec 5) (k : BitVec 1) (s : State) : Out := .next (vsOp (.vimax v y b a m d k) v a k s)
def execVicmpEq (v : BitVec 1) (y : BitVec 2) (b a : BitVec 5) (m : BitVec 3) (d : BitVec 5) (k : BitVec 1) (s : State) : Out := .next (vsOp (.vicmpEq v y b a m d k) v a k s)
def execVicmpLt (v : BitVec 1) (y : BitVec 2) (b a : BitVec 5) (m : BitVec 3) (d : BitVec 5) (k : BitVec 1) (s : State) : Out := .next (vsOp (.vicmpLt v y b a m d k) v a k s)
def execVicmpLe (v : BitVec 1) (y : BitVec 2) (b a : BitVec 5) (m : BitVec 3) (d : BitVec 5) (k : BitVec 1) (s : State) : Out := .next (vsOp (.vicmpLe v y b a m d k) v a k s)
def execVredsum (y : BitVec 2) (a : BitVec 5) (m : BitVec 3) (d : BitVec 5) (k : BitVec 1) (s : State) : Out := .next (vecScalar (.vredsum y a m d k) none d k s)
def execVredmax (y : BitVec 2) (a : BitVec 5) (m : BitVec 3) (d : BitVec 5) (k : BitVec 1) (s : State) : Out := .next (vecScalar (.vredmax y a m d k) none d k s)
def execVredmin (y : BitVec 2) (a : BitVec 5) (m : BitVec 3) (d : BitVec 5) (k : BitVec 1) (s : State) : Out := .next (vecScalar (.vredmin y a m d k) none d k s)
def execVperm (y : BitVec 2) (b a : BitVec 5) (m : BitVec 3) (d : BitVec 5) (k : BitVec 1) (s : State) : Out := .next (vecOp (.vperm y b a m d k) none none k s)
def execVrot (y : BitVec 2) (b a : BitVec 5) (m : BitVec 3) (d : BitVec 5) (k : BitVec 1) (s : State) : Out := .next (vecOp (.vrot y b a m d k) none (some b) k s)
def execVbcast (y : BitVec 2) (a : BitVec 5) (m : BitVec 3) (d : BitVec 5) (k : BitVec 1) (s : State) : Out := .next (vecOp (.vbcast y a m d k) (some a) none k s)
def execVext (y : BitVec 2) (b a d : BitVec 5) (k : BitVec 1) (s : State) : Out := .next (vecScalar (.vext y b a d k) (some b) d k s)
def execVins (y : BitVec 2) (b a d : BitVec 5) (k : BitVec 1) (s : State) : Out := .next (vecOp (.vins y b a d k) (some a) (some b) k s)
def execVmov (y : BitVec 2) (a : BitVec 5) (m : BitVec 3) (d : BitVec 5) (k : BitVec 1) (s : State) : Out := .next (vecOp (.vmov y a m d k) none none k s)
def execMand (b a d : BitVec 5) (k : BitVec 1) (s : State) : Out := .next (vecOp (.mand b a d k) none none k s)
def execMor (b a d : BitVec 5) (k : BitVec 1) (s : State) : Out := .next (vecOp (.mor b a d k) none none k s)
def execMnot (a d : BitVec 5) (k : BitVec 1) (s : State) : Out := .next (vecOp (.mnot a d k) none none k s)
def execMpop (a d : BitVec 5) (k : BitVec 1) (s : State) : Out := .next (vecScalar (.mpop a d k) none d k s)
def execVcvt (t : BitVec 4) (e : BitVec 1) (f : BitVec 4) (a : BitVec 5) (m : BitVec 3) (d : BitVec 5) (k : BitVec 1) (s : State) : Out := .next (vecOp (.vcvt t e f a m d k) none none k s)
def execVpack (f : BitVec 4) (a d : BitVec 5) (k : BitVec 1) (s : State) : Out := .next (vecOp (.vpack f a d k) none none k s)
def execVunpack (f : BitVec 4) (a d : BitVec 5) (k : BitVec 1) (s : State) : Out := .next (vecOp (.vunpack f a d k) none none k s)
def execVqblk (f : BitVec 1) (b a : BitVec 5) (m : BitVec 3) (d : BitVec 5) (k : BitVec 1) (s : State) : Out := .next (vecOp (.vqblk f b a m d k) none (some b) k s)
def execVscl (f : BitVec 1) (b a : BitVec 5) (m : BitVec 3) (d : BitVec 5) (k : BitVec 1) (s : State) : Out := .next (vecOp (.vscl f b a m d k) none (some b) k s)

/-! ### Vector memory (R227 to R234) -/

/-- The forms of addressing. -/
inductive VForm where
  | plain | strided | gather
  deriving DecidableEq, Repr

/-- R231 at the current core: the cause that an element's space raises. -/
def vSpace (s : State) (pa w : Nat) (load : Bool) (sc : Nat) : Option Nat :=
  match checkSpace s pa w (if load then .load else .store) with
  | some c => some c
  | none => match space s pa with
    | .win _ n _ => if load ∧ winHole n sc then some 5 else none
    | _ => none

/-- What a check of the elements ends in: all of them, a cause and value, a page that must first be cached, a vault that is
being reduced. -/
inductive VChecked where
  | ok (es : List VElem)
  | bad (cause : Nat) (v : Word)
  | miss (va : Word)
  | busy (core : Nat)

/-- The checks of R230 for one element at an offset. -/
def checkElem (s : State) (n w j : Nat) (off : Word) (load : Bool) : VChecked :=
  match ea s n off w with
  | .error (c, v) => .bad c v
  | .ok none => .ok [⟨j, none, 0, 0⟩]
  | .ok (some va) =>
    match translate s va load (!load) false with
    | .fault c => .bad c va
    | .miss => match s.me.walkFault with
      | some (c, v) => if v = va then .bad c.toNat va else .miss va
      | none => .miss va
    | .hit pa page _ =>
      if homeOf pa ≠ s.here then .bad 15 va
      else
        let sc := match space s pa with | .win _ k i => scaleAt s (s.now + 8) k i | _ => 0
        match vSpace s pa w load sc with
        | some c => .bad c va
        | none =>
          if lockedFrom s (s.now + 8) pa w then .bad 7 va
          else match space s pa with
          | .vault core o => if lostHere s core o then .busy core else .ok [⟨j, some pa, policyOf s page 0 n, sc⟩]
          | _ => .ok [⟨j, some pa, 0, sc⟩]

/-- All active elements in ascending order: the first that fails decides. -/
def checkAll (s : State) (n w : Nat) (load : Bool) : List (Nat × Word) → VChecked
  | [] => .ok []
  | (j, off) :: t =>
    match checkElem s n w j off load with
    | .ok es => (match checkAll s n w load t with | .ok fs => .ok (es ++ fs) | x => x)
    | x => x

/-- A checked memory instruction's entry; a load or store is counted until it has entered the port (R181), and a store
counts as posted (R233). -/
def enqueueMem (i : Instr) (load : Bool) (es : List VElem) (w : Nat) (k : BitVec 1) (s : State) : State :=
  enqueueV i 0 0 es w 0 k (modMe (fun x => { x with vmems := x.vmems + 1, posted := x.posted + (if load then 0 else 1) }) s)

/-- Offset of element j. -/
def vOffset (form : VForm) (sa : Word) (r : BitVec 256) (idx : BitVec 4096) (w j : Nat) : Word :=
  match form with
  | .plain => sa + w64 (j * w)
  | .strided => sa + BitVec.ofInt 64 (j * recStride0 r)
  | .gather => sa + sextN (elem idx 4 j) 32 * w64 w

/-- The pages of the elements become the most recently used. -/
def touchAll (n w : Nat) (offs : List (Nat × Word)) (s : State) : State :=
  offs.foldl (fun s o => match ea s n o.2 w with | .ok (some va) => touch s.here s.me.asn va.toNat s | _ => s) s

/-- A record form. -/
def vecMem (i : Instr) (load : Bool) (form : VForm) (vi : Option Nat) (n a : BitVec 5) (m : BitVec 3) (k : BitVec 1) (s : State) : State :=
  vecDecode i [a.toNat] none m.toNat vi (fun s =>
    let num := rec5 n
    if recLoading s num then park (.record num) s
    else match recAt s num with
    | .error (c, v) => raise c v s
    | .ok r =>
      if 13 ≤ recFmt r then raise 4 (w64 num) s
      else
        let w := fmtWidth (recFmt r)
        let cnt := if form = .gather then min (512 / w) 128 else 512 / w
        let f := (scAt s s.here s.mySc).vf
        let mk := (mreg f m.toNat).1
        let idx := (vreg f (vi.getD 0)).1
        let js := (List.range cnt).filter (fun j => active mk w j)
        let offs := js.map (fun j => (j, vOffset form (rv s a) r idx w j))
        match checkAll s num w load offs with
        | .ok es => enqueueMem i load es w k (touchAll num w offs (modMe (fun x => { x with walkFault := none }) s))
        | .bad c v => raise c v (modMe (fun x => { x with walkFault := none }) s)
        | .busy core => park (.vaultBusy core) s
        | .miss va => startFill s.here s.me.asn s.me.root va.toNat s.cur (park (.translation va.toNat) (modMe (fun x => { x with walkFault := none }) s))) s

/-- A tile form (R232). Model's choice: sr.tval of its 0x07, which has no VA, is the scratchpad offset of the first locked element:
the tile's base + sa + 4j (log 29, DESIGN CHOICE). -/
def vecTile (i : Instr) (load : Bool) (t : BitVec 6) (a : BitVec 5) (k : BitVec 1) (s : State) : State :=
  vecDecode i [a.toNat] none 0 none (fun s =>
    let x := tileAt s s.here t.toNat
    let mine : Bool := x.defined && decide (x.grid = ctxKey s.me)
    let sa := (rv s a).toNat
    if mine ∧ x.st ≠ .ready then park (.tileReady t.toNat) s
    else if !mine then raise 13 (w64 t.toNat) s
    else if sa % 32 ≠ 0 ∨ x.len < sa + 512 then raise 13 (rv s a) s
    else match (List.range 128).find? (fun j => lockedAt s s.here (x.base + sa + 4 * j) 4) with
    | some j => raise 7 (w64 (x.base + sa + 4 * j)) s
    | none => enqueueMem i load ((List.range 128).map (fun j => ⟨j, some (sramBase s.here + x.base + sa + 4 * j), 0, 0⟩)) 4 k s) s

def execVld (n a : BitVec 5) (m : BitVec 3) (d : BitVec 5) (k : BitVec 1) (s : State) : Out := .next (vecMem (.vld n a m d k) true .plain none n a m k s)
def execVlds (n a : BitVec 5) (m : BitVec 3) (d : BitVec 5) (k : BitVec 1) (s : State) : Out := .next (vecMem (.vlds n a m d k) true .strided none n a m k s)
def execVldg (i : BitVec 4) (n a : BitVec 5) (m : BitVec 3) (d : BitVec 5) (k : BitVec 1) (s : State) : Out :=
  .next (vecMem (.vldg i n a m d k) true .gather (some i.toNat) n a m k s)
def execVldt (t : BitVec 6) (a d : BitVec 5) (k : BitVec 1) (s : State) : Out := .next (vecTile (.vldt t a d k) true t a k s)
def execVst (n a : BitVec 5) (m : BitVec 3) (d : BitVec 5) (k : BitVec 1) (s : State) : Out := .next (vecMem (.vst n a m d k) false .plain none n a m k s)
def execVsts (n a : BitVec 5) (m : BitVec 3) (d : BitVec 5) (k : BitVec 1) (s : State) : Out := .next (vecMem (.vsts n a m d k) false .strided none n a m k s)
def execVstg (i : BitVec 4) (n a : BitVec 5) (m : BitVec 3) (d : BitVec 5) (k : BitVec 1) (s : State) : Out :=
  .next (vecMem (.vstg i n a m d k) false .gather (some i.toNat) n a m k s)
def execVstt (t : BitVec 6) (a d : BitVec 5) (k : BitVec 1) (s : State) : Out := .next (vecTile (.vstt t a d k) false t a k s)

/-! ### Acceptance (R192, R233, R234) -/

def isVault (s : State) (pa : Nat) : Bool := match space s pa with | .vault _ _ => true | _ => false

/-- What a load's element reads, and whether a granule it reads is poisoned. -/
def loadElem (s : State) (core w : Nat) (e : VElem) : Nat × Bool :=
  match e.pa with
  | none => (0, false)
  | some pa =>
    match space s pa with
    | .vault _ _ => (leNat (sliceRead s pa w), poisoned s pa w)
    | .win _ n i => (winRead s core n i e.sc, winBad s core n i e.sc)
    | _ => (peekN s pa w, poisoned s pa w)

/-- Elements by number. -/
def elemsAt (n : Nat) (es : List (Nat × (Nat × Bool))) : Elems := (List.range n).map (fun j => (es.find? (fun e => e.1 == j)).map Prod.snd)

/-- The distinct 32-byte sectors of some elements that stand in the vault, with the policy of each. -/
def sectorsIn (s : State) (es : List VElem) : List (Nat × Nat) :=
  ((es.filterMap (fun x => x.pa.bind (fun p => if isVault s p then some (p / 32, x.pol) else none)))).eraseDups

/-- Cycles for which a memory operation holds the unit (R234). -/
def holdCycles (e : VEntry) : Nat :=
  match e.instr with
  | .vlds .. => cdiv (512 / e.width) 32
  | .vsts .. => cdiv (512 / e.width) 32
  | .vldg .. => cdiv (min (512 / e.width) 128) 32
  | .vstg .. => cdiv (min (512 / e.width) 128) 32
  | _ => 1

/-- The elements that enter the home port in a cycle of a memory operation: 32 of a strided, gather or scatter form (R234). -/
def batchOf (e : VEntry) (b : Nat) : List VElem :=
  if holdCycles e = 1 then e.elems else e.elems.filter (fun x => decide (x.j / 32 = b))

/-- Writes of a store grouped by granule: elements that follow one another inside a 32-byte granule form one write. -/
def mergeRuns : List (Nat × Nat × List Byte) → List (Nat × Nat × List Byte)
  | [] => []
  | (a, p, bs) :: t =>
    match mergeRuns t with
    | (b, q, cs) :: u => if a + bs.length = b ∧ a / 32 = b / 32 ∧ p = q then (a, p, bs ++ cs) :: u else (a, p, bs) :: (b, q, cs) :: u
    | [] => [(a, p, bs)]

/-- Elements of a store enter the port: those in SRAM are performed, those in the vault are posted to the slice, which performs them 4
cycles later; granules that receive a byte of a poisoned segment become poisoned (R226, R233). Gives the window stores' flags. -/
def storeBatch (core sid w : Nat) (es : List VElem) (src : BitVec 4096 × BitVec 16) (s : State) : FFlags × State :=
  let spoils (x : VElem) (a n : Nat) : List Nat :=
    if segBad src.2 w x.j then (granules (n + 1) a (List.replicate n (0 : Byte))).map (fun g => g.1 / 32) else []
  let step (acc : FFlags × State × List (Nat × Nat × List Byte) × List Nat) (x : VElem) : FFlags × State × List (Nat × Nat × List Byte) × List Nat :=
    match x.pa with
    | none => acc
    | some pa =>
      let (fl, s, ps, gs) := acc
      let v := elem src.1 w x.j
      let put (a n : Nat) (bs : List Byte) (s : State) : State := (spoils x a n).foldl (fun s g => setPoison g s) (sramWrite a bs s)
      match space s pa with
      | .vault _ _ => (fl, s, ps ++ [(pa, x.pol, leBytes w v)], gs ++ spoils x pa w)
      | .win _ n i =>
        let q := winEncode n v
        let (o, b) := elemAt n i
        (fl ||| q.2, put (sramBase core + o) b (leBytes b q.1) s, ps, gs)
      | _ => (fl, put pa w (leBytes w v) s, ps, gs)
  let (fl, s, ps, gs) := es.foldl step (0, s, [], [])
  (fl, (mergeRuns ps).foldl (fun s p =>
    postAt sid p.1 p.2.2 p.2.1 (s.now + 4) (gs.eraseDups.filter (fun g => decide (p.1 / 32 = g))) s) s)

/-- What an entry on registers only writes, and its flags. -/
def vEval (f : VFile) (e : VEntry) : VOut × FFlags :=
  match laneOp e with
  | some o => let r := laneRun f o e.b; (vecOut f o.d o.w r.1, r.2)
  | none =>
  match cmpOp e with
  | some o => let r := laneRun f o e.b; (.mask o.d (cmpMask o.w r.1) (anyBad r.1 || (mreg f o.m).2), r.2)
  | none =>
  match e.instr with
  | .vsel v y b a m d _ => (vecOut f d.toNat (vfw y) (selRun f v y b a m d e.b), 0)
  | .vredsum y a m _ _ => redRun f e 0 y a m
  | .vredmax y a m _ _ => redRun f e 1 y a m
  | .vredmin y a m _ _ => redRun f e 2 y a m
  | .vperm y b a m d _ =>
    let w := viw y
    let va := vreg f a.toNat
    let vb := vreg f b.toNat
    (vecOut f d.toNat w (moveRun f w m (fun i =>
      let p := permLane y i (elem vb.1 w i)
      (elem va.1 w p, segBad va.2 w p || segBad vb.2 w i))), 0)
  | .vrot y _ a m d _ =>
    let w := viw y
    let va := vreg f a.toNat
    (vecOut f d.toNat w (moveRun f w m (fun i =>
      let p := (i + e.b.toNat) % (512 / w)
      (elem va.1 w p, segBad va.2 w p))), 0)
  | .vbcast y _ m d _ => (vecOut f d.toNat (viw y) (moveRun f (viw y) m (fun _ => (e.a.toNat, false))), 0)
  | .vext y _ a _ _ =>
    let w := viw y
    let p := e.b.toNat % (512 / w)
    (.scalar (w64 (elem (vreg f a.toNat).1 w p)) (segBad (vreg f a.toNat).2 w p), 0)
  | .vins y _ _ d _ =>
    let w := viw y
    let p := e.b.toNat % (512 / w)
    (vecOut f d.toNat w ((List.range (512 / w)).map (fun i => if i = p then some (e.a.toNat, false) else none)), 0)
  | .vmov y a m d _ =>
    let w := viw y
    (vecOut f d.toNat w (moveRun f w m (fun i => (elem (vreg f a.toNat).1 w i, segBad (vreg f a.toNat).2 w i))), 0)
  | .mand b a d _ => (.mask d.toNat ((mreg f a.toNat).1 &&& (mreg f b.toNat).1) ((mreg f a.toNat).2 || (mreg f b.toNat).2), 0)
  | .mor b a d _ => (.mask d.toNat ((mreg f a.toNat).1 ||| (mreg f b.toNat).1) ((mreg f a.toNat).2 || (mreg f b.toNat).2), 0)
  | .mnot a d _ => (.mask d.toNat (~~~(mreg f a.toNat).1) (mreg f a.toNat).2, 0)
  | .mpop a _ _ =>
    (.scalar (w64 ((List.range 256).filter (fun i => (mreg f a.toNat).1.getLsbD i)).length) (mreg f a.toNat).2, 0)
  | .vcvt t st fr a m d _ => let r := cvtRun f e t.toNat fr.toNat (decide (st = 1)) a m; (vecOut f d.toNat r.1 r.2.1, r.2.2)
  | .vpack _ a d _ =>
    let va := vreg f a.toNat
    (vecOut f d.toNat 32 ((List.range 16).map (fun g => if g < 8 then none else some (elem va.1 32 (g - 8), segBad va.2 32 (g - 8)))), 0)
  | .vunpack _ a d _ =>
    let va := vreg f a.toNat
    (vecOut f d.toNat 32 ((List.range 16).map (fun g => if 8 ≤ g then none else some (elem va.1 32 (g + 8), segBad va.2 32 (g + 8)))), 0)
  | .vqblk q _ a m d _ => let r := qblkRun f e (decide (q = 1)) a m; (vecOut f d.toNat r.1 r.2.1, r.2.2)
  | .vscl q _ a m d _ => (vecOut f d.toNat 4 (sclRun f e (if q = 1 then 10 else 8) a m), 0)
  | _ => (.nothing, 0)

/-- The register that a vector memory instruction names in vd, and whether it loads. -/
def vmemOf (e : VEntry) : Option (Nat × Bool) :=
  match e.instr with
  | .vld _ _ _ d _ => some (d.toNat, true)
  | .vlds _ _ _ d _ => some (d.toNat, true)
  | .vldg _ _ _ _ d _ => some (d.toNat, true)
  | .vldt _ _ d _ => some (d.toNat, true)
  | .vst _ _ _ d _ => some (d.toNat, false)
  | .vsts _ _ _ d _ => some (d.toNat, false)
  | .vstg _ _ _ _ d _ => some (d.toNat, false)
  | .vstt _ _ d _ => some (d.toNat, false)
  | _ => none

def modRun (place id : Nat) (f : VRun → VRun) (s : State) : State :=
  modCore place (fun c => { c with vruns := lmod (fun r => r.e.id == id) f c.vruns }) s

/-- A load is complete once all its elements have entered the port and every sector has been read: it writes vd then (R234). -/
def loadEnd (place id : Nat) (s : State) : State :=
  match (coreAt s place).vruns.find? (fun r => r.e.id == id) with
  | some r => if r.todo = 0 ∧ r.left = 0 then sched (r.at_ - s.now) (.vectorEntryComplete place id) s else s
  | none => s

/-- The slice reads one sector of a load now: the elements in it, which reach the wide unit 12 cycles after the start on a hit, 8 after
the missing sector (R172, R234). -/
def vecNow (a : VAcc) (s : State) : State :=
  let place := homeOf a.pa
  match (coreAt s place).vruns.find? (fun r => r.e.id == a.tag) with
  | none => s
  | some r =>
    let cl := clusterOf place
    let mine := r.e.elems.filter (fun x => x.pa.any (fun p => decide (p / 32 = a.pa / 32)))
    let es := mine.map (fun x => (x.j, loadElem s place r.e.width x))
    let hit := present (sliceAt s cl) a.pa 32
    let t := dataAt s cl a.pa 32 + if hit then 12 else 8
    let s := (readReturn a s).2
    loadEnd place a.tag (modRun place a.tag (fun r => { r with got := r.got ++ es, left := r.left - 1, at_ := max r.at_ t }) s)

/-- The wide unit takes the head of a queue: a lane operation computes on the file as it stands and writes 5 cycles on, a memory operation
enters the home port from the next cycle on (R192, R233). -/
def acceptEntry (place sc : Nat) (s : State) : State :=
  match (scAt s place sc).dq with
  | [] => s
  | e :: rest =>
    if vEligible s place sc = false then s
    else
      let f := (scAt s place sc).vf
      let hold := holdCycles e
      let s := modSc place sc (fun q => { q with dq := rest }) s
      let s := modCore place (fun c => { c with vserved := sc, vbusy := s.now + hold }) s
      let run (out : VOut) (fl : FFlags) (n : Nat) (s : State) : State :=
        modCore place (fun c => { c with vruns := c.vruns ++ [⟨sc, e, out, fl, n, 0, [], s.now + 4 + hold⟩] }) s
      match vmemOf e with
      | none => let r := vEval f e; sched 5 (.vectorEntryComplete place e.id) (run r.1 r.2 0 s)
      | some (d, load) =>
        let out : VOut := if load then .vec d 0 0 else .vec d (vreg f d).1 (vreg f d).2
        sched 1 (.vectorEntryComplete place e.id) (run out 0 hold s)

/-- The next batch of a memory operation's elements enters the home port (R181, R233, R234). -/
def portStep (place : Nat) (r : VRun) (s : State) : State :=
  let e := r.e
  let id := e.id
  let b := holdCycles e - r.todo
  let last : Bool := decide (r.todo ≤ 1)
  let xs := batchOf e b
  let s := if last then modIf e.sid (fun x => { x with vmems := x.vmems - 1 }) s else s
  match vmemOf e with
  | some (_, true) =>
    let asked := sectorsIn s ((List.range b).flatMap (batchOf e))
    let new := (sectorsIn s xs).filter (fun q => !asked.any (fun o => o.1 == q.1))
    let here := (xs.filter (fun x => !x.pa.any (isVault s))).map (fun x => (x.j, loadElem s place e.width x))
    let s := modRun place id (fun r => { r with todo := r.todo - 1, left := r.left + new.length, got := r.got ++ here }) s
    let s := new.foldl (fun s q =>
      let a : VAcc := ⟨.vector, e.sid, id, q.1 * 32, 32, q.2, false, e.instr, 0, 0, 0, false⟩
      request (clusterOf place) (accReq a (s.now + 4) s) s) s
    if last then loadEnd place id s else sched 1 (.vectorEntryComplete place id) s
  | _ =>
    let src := match r.out with | .vec _ v p => (v, p) | _ => (0, 0)
    let (fl, s) := storeBatch place e.sid e.width xs src s
    let s := if last then modIf e.sid (fun x => { x with posted := x.posted - 1 }) s else s
    sched (if last then 4 else 1) (.vectorEntryComplete place id) (modRun place id (fun r => { r with todo := r.todo - 1, flags := r.flags ||| fl }) s)

/-- What an accepted operation writes in the end: a load its elements, a store nothing. -/
def outOf (s : State) (place : Nat) (r : VRun) : VOut :=
  match vmemOf r.e with
  | some (d, true) => vecOut (scAt s place r.sc).vf d r.e.width (elemsAt (512 / r.e.width) r.got)
  | some (_, false) => .nothing
  | none => r.out

/-- The result is written: flags accrue, a scalar result returns 7 cycles later (R192, R193). -/
def writeEntry (place : Nat) (r : VRun) (s : State) : State :=
  let out := outOf s place r
  let s := modCore place (fun c => { c with vruns := c.vruns.filter (fun q => q.e.id != r.e.id) }) s
  let s := modIf r.e.sid (fun x => { x with vents := x.vents - 1, fcsr := x.fcsr ||| r.flags.setWidth 8 }) s
  match out with
  | .nothing => s
  | .vec d v b => modSc place r.sc (fun q => { q with vf := { q.vf with v := vset q.vf.v d v, poison := vset q.vf.poison d b } }) s
  | .mask d v b => modSc place r.sc (fun q => { q with vf := { q.vf with
      m := vset q.vf.m d v, mpoison := if b then q.vf.mpoison ||| ((1 : BitVec 8) <<< d) else q.vf.mpoison &&& ~~~((1 : BitVec 8) <<< d) } }) s
  | .scalar v b => sched 7 (.lateResultReturn place r.e.sid ⟨r.e.tag, v, b, 0⟩) s

/-- An accepted operation goes on: elements enter the port, or its result is written. -/
def completeEntry (place id : Nat) (s : State) : State :=
  match (coreAt s place).vruns.find? (fun r => r.e.id == id) with
  | none => s
  | some r => if r.todo ≠ 0 then portStep place r s else writeEntry place r s

def execVectorEntryAccept (place sc : Nat) (s : State) : Out := .next (acceptEntry place sc s)
def execVectorEntryComplete (place id : Nat) (s : State) : Out := .next (completeEntry place id s)

end

end Sys2Proof.Machine
end

