-- ==== Sys2Proof/Machine/Matrix.lean ====
section
/-! DEFINITION. Matrix commands: majors 0x1B and 0x1C (R194 to R200, R215, R216, R244 to R251). An instruction checks its
operands and writes a command; the matrix unit starts it, and performs it when it completes. -/

namespace Sys2Proof.Machine

open Sys2Proof

noncomputable section

/-! ### Formats and operand words (R198 to R200, R245) -/

/-- The element format of an f3 code: E4M3, E5M2, INT8, Q4X, BF16, FP16, FP32. -/
def matFmt (f : Nat) : Nat := match f with | 0 => 8 | 1 => 9 | 2 => 1 | 3 => 10 | 4 => 6 | 5 => 7 | _ => 5

/-- Element size in half bytes, and the cost per k in half cycles. -/
def matHalf (f : Nat) : Nat := match f with | 3 => 1 | 4 => 4 | 5 => 4 | 6 => 8 | _ => 2
def matCost (f : Nat) : Nat := match f with | 3 => 1 | 4 => 4 | 5 => 4 | 6 => 16 | _ => 2

/-- The group of k that is summed exactly (R215). -/
def matGroup (scaled : Bool) (f : Nat) : Nat :=
  if scaled then (if f = 0 then 16 else 32) else match f with | 4 => 16 | 5 => 16 | 6 => 4 | _ => 32

/-- The fields of sa and sb. -/
structure MatShape where
  aoff : Nat
  m : Nat
  n : Nat
  boff : Nat
  k : Nat
  pitch : Nat
  deriving DecidableEq, Repr

def matShape (sa sb : Word) : MatShape :=
  ⟨bits sa.toNat 19 0, bits sa.toNat 28 20, bits sa.toNat 38 29, bits sb.toNat 22 0, bits sb.toNat 32 23, bits sb.toNat 40 33⟩

/-- What a multiply is: format, A read transposed, scaled. -/
structure MatKind where
  f : Nat
  trans : Bool
  scaled : Bool
  deriving DecidableEq, Repr

/-- Bytes of the scale words: A's blocks, then B's. -/
def scaleLen (q : MatKind) (x : MatShape) : Nat :=
  let g := matGroup true q.f
  4 * (x.m / g * (x.k / g) + x.k / g * (x.n / g))

/-- Cycles of a multiply (R248). -/
def matCycles (q : MatKind) (x : MatShape) : Nat := 16 + cdiv x.m 96 * cdiv x.n 128 * (16 + cdiv (x.k * matCost q.f) 2)

/-- The shape rules of R245. -/
def shapeOk (q : MatKind) (x : MatShape) : Bool :=
  (decide (q.f ≠ 3) || (decide (x.k % 4 = 0 ∧ x.n % 4 = 0) && (!q.trans || decide (x.m % 4 = 0))))
    && (!q.scaled || (let g := matGroup true q.f; decide (x.m % g = 0 ∧ x.n % g = 0 ∧ x.k % g = 0)))

/-- The checks of R246 after the tile's: sr.tval of the first that fails. -/
def matCheck (q : MatKind) (len sbase : Nat) (t : BitVec 6) (sa sb : Word) : Option Word :=
  let x := matShape sa sb
  if 2 ^ 39 ≤ sa.toNat then some sa
  else if 2 ^ 41 ≤ sb.toNat then some sb
  else if ¬ (1 ≤ x.m ∧ x.m ≤ 384 ∧ 1 ≤ x.n ∧ x.n ≤ 640) then some sa
  else if ¬ (1 ≤ x.k ∧ x.k ≤ 512 ∧ 1 ≤ x.pitch) then some sb
  else if x.aoff % 4 ≠ 0 ∨ 0x100000 < x.aoff + 4 * x.m * x.n then some sa
  else if x.boff % 512 ≠ 0 ∨ 0x800000 < x.boff + 512 * x.k * x.pitch ∨ 1024 * x.pitch < x.n * matHalf q.f then some sb
  else if 2 * len < x.m * x.k * matHalf q.f then some (w64 t.toNat)
  else if shapeOk q x = false then some sa
  else if q.scaled ∧ 0x3C0000 < sbase + scaleLen q x then some (w64 sbase)
  else if 32768 < matCycles q x then some sa
  else none

/-! ### Issue (R194, R246, R251) -/

/-- Loft and accumulator bytes in the SRAM space (R123). -/
def loftOff : Nat := 0x20000000
def accOff : Nat := 0x28000000

/-- Every entry of the strand's matrix queue is taken or reserved (R194). -/
def mqFull (s : State) : Bool := decide (8 ≤ (scAt s s.here s.mySc).mq.length + flying s (some s.mySc) matrixWord)

/-- Decode of a matrix instruction: only on a core; vector memory first (R181); the tile ready; a free entry. -/
def matDecode (i : Instr) (srcs : List Nat) (t : Option (BitVec 6)) (f : Tile → State → State) (s : State) : State :=
  allowed i true false false (decodeOk false srcs [] false (fun s =>
    if s.me.vmems ≠ 0 then park .vmem s
    else match t with
    | none => if mqFull s then park .mqueue s else f Tile.none_ s
    | some t =>
      let x := tileAt s s.here t.toNat
      let mine : Bool := x.defined && decide (x.grid = ctxKey s.me)
      if mine ∧ x.st ≠ .ready then park (.tileReady t.toNat) s
      else if mqFull s then park .mqueue s
      else if !mine then raise 13 (w64 t.toNat) s
      else f x s)) s

/-- Writes the command: its ranges are locked, it counts in class core, and the instruction retires. -/
def enqueueM (i : Instr) (sa sb : Word) (x : Tile) (sbase : Nat) (ranges : List (Nat × Nat)) (k : BitVec 1) (fin : State → State)
    (s : State) : State :=
  if locksFree s s.here < ranges.length then park (.locks ranges.length) s
  else
    let id := s.fresh
    let c : MCmd := ⟨id, s.cur, s.now, s.me.grid.getD 0, i, sa, sb, x.base, x.len, x.faulted, sbase, s.me.pc⟩
    let s1 := bump (modMySc (fun q => { q with mq := q.mq ++ [c] }) s)
    let s2 := lockRanges s.here id (ranges.zipIdx.map (fun r => (r.2, 0, r.1.1, r.1.2))) (modMe (engMod 0 (· + 1)) s1)
    retire k (fin s2)

/-- A multiply. -/
def matMul (i : Instr) (q : MatKind) (l m : BitVec 1) (t : BitVec 6) (a b : BitVec 5) (k : BitVec 1) (s : State) : State :=
  matDecode i [a.toNat, b.toNat] (some t) (fun x s =>
    let sa := rv s a
    let sb := rv s b
    let sbase := match ctxOf s with | some c => if q.f = 0 then c.sbase6.toNat else c.sbase7.toNat | none => 0
    match matCheck q x.len sbase t sa sb with
    | some v => raise 13 v s
    | none =>
      let h := matShape sa sb
      let rs := [(x.base, x.len), (loftOff + h.boff, 512 * h.k * h.pitch), (accOff + h.aoff, 4 * h.m * h.n)]
        ++ (if q.scaled then [(sbase, scaleLen q h)] else [])
      enqueueM i sa sb x sbase rs k (fun s => dropL l a.toNat (dropL m b.toNat s)) s) s

/-- The byte width of an acc.rd or acc.wr format. -/
def accWidth (f : BitVec 3) : Nat := if f = 6 then 4 else 2

/-- An accumulator or loft command over a tile; lim is whether sa and the tile's length fit. -/
def matMove (i : Instr) (l : BitVec 1) (t : BitVec 6) (a : BitVec 5) (fits : Nat → Nat → Bool) (range : Nat → Nat → Nat × Nat)
    (k : BitVec 1) (s : State) : State :=
  matDecode i [a.toNat] (some t) (fun x s =>
    let sa := rv s a
    if fits sa.toNat x.len then enqueueM i sa 0 x 0 [(x.base, x.len), range sa.toNat x.len] k (dropL l a.toNat) s
    else raise 13 sa s) s

def execMma (l m : BitVec 1) (t : BitVec 6) (a : BitVec 5) (f : BitVec 3) (b : BitVec 5) (k : BitVec 1) (s : State) : Out :=
  .next (matMul (.mma l m t a f b k) ⟨f.toNat, false, false⟩ l m t a b k s)
def execMmaT (l m : BitVec 1) (t : BitVec 6) (a : BitVec 5) (f : BitVec 3) (b : BitVec 5) (k : BitVec 1) (s : State) : Out :=
  .next (matMul (.mmaT l m t a f b k) ⟨f.toNat, true, false⟩ l m t a b k s)
def execMmas (l m : BitVec 1) (t : BitVec 6) (a : BitVec 5) (f : BitVec 2) (b : BitVec 5) (k : BitVec 1) (s : State) : Out :=
  .next (matMul (.mmas l m t a f b k) ⟨f.toNat, false, true⟩ l m t a b k s)

def execAccZero (l m : BitVec 1) (a b : BitVec 5) (k : BitVec 1) (s : State) : Out :=
  .next (matDecode (.accZero l m a b k) [a.toNat, b.toNat] none (fun x s =>
    let sa := (rv s a).toNat
    let sb := (rv s b).toNat
    if sa % 4 ≠ 0 ∨ sb % 4 ≠ 0 ∨ sb < 4 ∨ 0x100000 < sa + sb then raise 13 (rv s a) s
    else enqueueM (.accZero l m a b k) (rv s a) (rv s b) x 0 [(accOff + sa, sb)] k
      (fun s => dropL l a.toNat (dropL m b.toNat s)) s) s)

/-- sa and the FP32 elements of a tile lie in the accumulator. -/
def accFits (w sa len : Nat) : Bool := decide (sa % 4 = 0 ∧ sa + 4 * (len / w) ≤ 0x100000)

def execAccRd (l : BitVec 1) (t : BitVec 6) (a : BitVec 5) (f : BitVec 3) (k : BitVec 1) (s : State) : Out :=
  .next (matMove (.accRd l t a f k) l t a (accFits (accWidth f)) (fun sa len => (accOff + sa, 4 * (len / accWidth f))) k s)
def execAccWr (l : BitVec 1) (t : BitVec 6) (a : BitVec 5) (f : BitVec 3) (k : BitVec 1) (s : State) : Out :=
  .next (matMove (.accWr l t a f k) l t a (accFits (accWidth f)) (fun sa len => (accOff + sa, 4 * (len / accWidth f))) k s)
def execLoftLd (l : BitVec 1) (t : BitVec 6) (a : BitVec 5) (k : BitVec 1) (s : State) : Out :=
  .next (matMove (.loftLd l t a k) l t a (fun sa len => decide (sa % 512 = 0 ∧ sa + len ≤ 0x800000))
    (fun sa len => (loftOff + sa, len)) k s)

/-! ### The unit (R195) -/

/-- Cycles of a command (R248, R251). -/
def cmdCycles (c : MCmd) : Nat :=
  match c.instr with
  | .mma _ _ _ _ f _ _ => matCycles ⟨f.toNat, false, false⟩ (matShape c.sa c.sb)
  | .mmaT _ _ _ _ f _ _ => matCycles ⟨f.toNat, true, false⟩ (matShape c.sa c.sb)
  | .mmas _ _ _ _ f _ _ => matCycles ⟨f.toNat, false, true⟩ (matShape c.sa c.sb)
  | .accZero .. => 8 + cdiv c.sb.toNat 512
  | .accRd _ _ _ f _ => 8 + cdiv (4 * c.len) (512 * accWidth f)
  | .accWr _ _ _ f _ => 8 + cdiv (4 * c.len) (512 * accWidth f)
  | _ => 8 + cdiv c.len 512

/-- The head of a scalar core's queue can start: it has retired, and q10 has a place. -/
def mCanStart (s : State) (place sc : Nat) : Bool :=
  let q := scAt s place sc
  match q.mq with
  | [] => false
  | c :: _ => decide (c.at_ + 7 ≤ s.now) && decide (q.q10.length + q.q10res < 16)

/-- The queue that the free unit serves next. -/
def mNext (s : State) (place : Nat) : Option Nat :=
  let c := coreAt s place
  if c.mrun.isSome then none
  else ([1, 2, 3, 4].map (fun i => (c.mserved + i) % 4)).find? (mCanStart s place)

/-- Starts the next command. -/
def mStart (place : Nat) (s : State) : State :=
  match mNext s place with
  | none => s
  | some sc =>
    match (scAt s place sc).mq with
    | [] => s
    | c :: t =>
      let s := modSc place sc (fun q => { q with mq := t, q10res := q.q10res + 1 }) s
      sched (cmdCycles c) (.matrixCommandComplete place) (modCore place (fun k => { k with mrun := some (sc, c), mserved := sc }) s)

/-! ### What a command does (R215, R216, R247, R249, R251) -/

/-- Element i of a format from address a on, and whether its granule is poisoned. -/
def memElem (s : State) (fmt a i : Nat) : FVal × Bool :=
  if fmt = 10 then (q4xElem (peekN s (a + i / 4 * 2) 2) (i % 4), poisoned s (a + i / 4 * 2) 2)
  else
    let w := fmtWidth fmt
    let v := peekN s (a + i * w) w
    (if fmt = 1 then ofInt (isgn 8 v) else fdec fmt false v, poisoned s (a + i * w) w)

/-- The exact sum of products of a group, with R216's special values; an exact zero is +0. -/
def groupSum (ps : List (FVal × FVal)) : FVal × FFlags :=
  let bad (p : FVal × FVal) : Bool := (p.1.isZero && p.2.isInf) || (p.1.isInf && p.2.isZero)
  let prods := ps.map (fun p => (fmul2 p.1 p.2).1)
  let both := prods.any (fun x => x.isInf && x.neg) && prods.any (fun x => x.isInf && !x.neg)
  let fl : FFlags := if both || ps.any bad || ps.any (fun p => p.1.isSnan || p.2.isSnan) then fNV else 0
  if both || prods.any FVal.isNan then (.nan false, fl)
  else match prods.find? FVal.isInf with
  | some x => (x, fl)
  | none => (prods.foldl (fun a x => (fadd2 0 a x).1) (.num false 0 0 false), fl)

/-- An exact zero is +0. -/
def plusZero (x : FVal) : FVal := if x.isZero then .num false 0 0 false else x

/-- A command's operands as it reads them. -/
structure MatIn where
  a : Nat → Nat → FVal × Bool
  b : Nat → Nat → FVal × Bool
  sA : Nat → Nat → FVal × Bool
  sB : Nat → Nat → FVal × Bool

/-- The operands of a command on a core (R198, R199, R245, R247). -/
def matIn (s : State) (core : Nat) (q : MatKind) (x : MatShape) (c : MCmd) : MatIn :=
  let base := sramBase core
  let fmt := matFmt q.f
  let g := matGroup true q.f
  let scale (i : Nat) : FVal × Bool :=
    (fdec 11 false (peekN s (base + c.sbase + 4 * i) 3), poisoned s (base + c.sbase + 4 * i) 4)
  { a := fun m k => memElem s fmt (base + c.base) (if q.trans then k * x.m + m else m * x.k + k),
    b := fun k n => memElem s fmt (base + loftOff + x.boff + 512 * x.pitch * k) n,
    sA := fun m k => scale (m / g * (x.k / g) + k / g),
    sB := fun k n => scale (x.m / g * (x.k / g) + k / g * (x.n / g) + n / g) }

/-- The sum of group j of C(m, n), rounded, and its flags. -/
def matPart (q : MatKind) (x : MatShape) (i : MatIn) (m n j : Nat) : Nat × FFlags :=
  let g := matGroup q.scaled q.f
  let ks := (List.range (min x.k (j * g + g) - j * g)).map (fun d => j * g + d)
  let s := groupSum (ks.map (fun k => ((i.a m k).1, (i.b k n).1)))
  let s := if q.scaled then
      (let u := fmul2 s.1 (i.sA m (j * g)).1
       let v := fmul2 u.1 (i.sB (j * g) n).1
       (plusZero v.1, s.2 ||| u.2 ||| v.2))
    else (plusZero s.1, s.2)
  let r := fround 5 0 false false s.1
  (r.1, s.2 ||| r.2)

/-- C(m, n) after a command from its old value, with the flags (R215). -/
def matElement (q : MatKind) (x : MatShape) (i : MatIn) (m n c : Nat) : Nat × FFlags :=
  (List.range (cdiv x.k (matGroup q.scaled q.f))).foldl (fun acc j =>
    let p := matPart q x i m n j
    let r := fopArith .fadd 5 0 false acc.1 p.1 0
    (r.1, acc.2 ||| p.2 ||| r.2)) (c, 0)

/-- Some element or scale that the groups of C(m, n) read is poisoned. -/
def matBad (q : MatKind) (x : MatShape) (i : MatIn) (m n : Nat) : Bool :=
  (List.range x.k).any (fun k => (i.a m k).2 || (i.b k n).2 || (q.scaled && ((i.sA m k).2 || (i.sB k n).2)))

/-- A multiply performed: the state, its flags, whether it read poison. -/
def matRun (core : Nat) (q : MatKind) (c : MCmd) (s : State) : State × FFlags × Bool :=
  let x := matShape c.sa c.sb
  let i := matIn s core q x c
  let cAt (m n : Nat) : Nat := sramBase core + accOff + x.aoff + 4 * (m * x.n + n)
  let cells := (List.range x.m).flatMap (fun m => (List.range x.n).map (fun n => (m, n)))
  let rs := cells.map (fun p => (cAt p.1 p.2, matElement q x i p.1 p.2 (peekN s (cAt p.1 p.2) 4), matBad q x i p.1 p.2))
  let bad := rs.any (fun r => r.2.2) || poisoned s (cAt 0 0) (4 * x.m * x.n)
  (rs.foldl (fun s r =>
    let s := pokeBytes r.1 (leBytes 4 r.2.1.1) s
    if r.2.2 then setPoison (r.1 / 32) s else s) s, rs.foldl (fun fl r => fl ||| r.2.1.2) 0, bad)

/-- A move of n elements from src (width ws) to dst (width wd), each through a conversion; poison goes with the bytes. -/
def moveElems (src ws dst wd n : Nat) (f : Nat → Nat × FFlags) (s : State) : State × FFlags × Bool :=
  let rs := (List.range n).map (fun i => (f (peekN s (src + i * ws) ws), poisoned s (src + i * ws) ws))
  let bytes := rs.flatMap (fun r => leBytes wd r.1.1)
  let bad := rs.zipIdx.flatMap (fun r => if r.1.2 then [r.2 * wd, r.2 * wd + wd - 1] else [])
  (engineWrite 0 dst bytes bad 0 s, rs.foldl (fun fl r => fl ||| r.1.2) 0, rs.any (fun r => r.2))

/-- A conversion between a 16-bit format and FP32, RNE, never flushing (R251). -/
def convert (f t v : Nat) : Nat × FFlags := let x := fdec f false v; rounded t 0 false (x, snanFlag x)

/-- The format of an acc.rd or acc.wr code. -/
def accFmt (f : BitVec 3) : Nat := matFmt f.toNat

/-- What a command does when it completes. -/
def cmdRun (core : Nat) (c : MCmd) (s : State) : State × FFlags × Bool :=
  let pad := sramBase core + c.base
  let acc := sramBase core + accOff + c.sa.toNat
  match c.instr with
  | .mma _ _ _ _ f _ _ => matRun core ⟨f.toNat, false, false⟩ c s
  | .mmaT _ _ _ _ f _ _ => matRun core ⟨f.toNat, true, false⟩ c s
  | .mmas _ _ _ _ f _ _ => matRun core ⟨f.toNat, false, true⟩ c s
  | .accZero .. => (engineWrite 0 acc (List.replicate c.sb.toNat 0) [] 0 s, 0, false)
  | .accRd _ _ _ f _ =>
    let w := accWidth f
    moveElems acc 4 pad w (c.len / w) (fun v => if f = 6 then (v, 0) else convert 5 (accFmt f) v) s
  | .accWr _ _ _ f _ =>
    let w := accWidth f
    moveElems pad w acc 4 (c.len / w) (fun v => if f = 6 then (v, 0) else convert (accFmt f) 5 v) s
  | .loftLd .. => moveElems pad 32 (sramBase core + loftOff + c.sa.toNat) 32 (c.len / 32) (fun v => (v, 0)) s
  | _ => (s, 0, false)

/-- The token of a command (R196). -/
def cmdToken (c : MCmd) (fl : FFlags) (bad : Bool) : Word :=
  w64 (b2n (bad || c.faulted) * 2 ^ 62 + fl.toNat * 2 ^ 56 + c.pc.toNat % 2 ^ 56)

/-- The running command completes: its writes, its locks, its count, its token (R195). -/
def mComplete (place : Nat) (s : State) : State :=
  match (coreAt s place).mrun with
  | none => s
  | some (sc, c) =>
    let r := cmdRun place c s
    let s := unlockAll place c.id (modCore place (fun k => { k with mrun := none }) r.1)
    let s := modOwner c.sid (some c.grid) (engMod 0 (· - 1)) s
    modSc place sc (fun q => { q with q10 := q.q10 ++ [(cmdToken c r.2.1 r.2.2, c.grid)], q10res := q.q10res - 1 }) s

def execMatrixCommandStart (place : Nat) (s : State) : Out := .next (mStart place s)
def execMatrixCommandComplete (place : Nat) (s : State) : Out := .next (mComplete place s)

end

end Sys2Proof.Machine
end

