-- ==== Sys2Proof/Machine/Kill.lean ====
section
/-! DEFINITION. Killing a strand (R63, R360, R361), its filters (R366), and lost packets. -/

namespace Sys2Proof.Machine

open Sys2Proof

noncomputable section

/-- The notice of a killed or lost strand (R361, kind 10). -/
def strandNotice (x : Strand) (cause : Nat) : Word :=
  w64 (cause * 2 ^ 58 + 2 * 2 ^ 56 + x.native * 2 ^ 38 + x.nslot * 2 ^ 33 + pcField x.epc)

/-- The scrub (R360 step 3), with nothing outstanding left. -/
def scrub (x : Strand) : Strand :=
  { x with
    regs := Vector.replicate 16 0, rst := Vector.replicate 16 .full, late := [], gives := 0, park := none, carried := none
    meetOp := none, lug := none, walkFault := none, inHandler := false, lvq := [], cmp := [], flight := none, released := false }

/-- What a kill does to a suspended strand, which has no wait, meeting, symbol or access left (R369): it leaves its barriers, is scrubbed,
and its deque unit acts on its link. -/
def killSuspended (id : Nat) (quiet : Bool) (s : State) : State :=
  let x := strandAt s id
  let s := modStrand id (fun x => { scrub x with run := .idle }) (leaveEpisodes id s)
  if quiet then modStrand id (fun x => { x with link := TaskLink.reset }) s
  else if x.link.depth ≠ 0 ∨ x.link.valid then dequeKill id (storeFloor id) s else s

/-- What a kill does to the strand where it stands (R360 steps 1 to 6). quiet: context removal, which sends no notices and
leaves the deque to its own steps. -/
def killHere (id : Nat) (quiet : Bool) (s : State) : State :=
  let x := strandAt s id
  let s := withdraw id true (dropLoads x (leaveMeeting id .killed (leaveEpisodes id s)))
  let s := modCore x.place (fun c => { c with reads := c.reads.filter (fun r => r.reader != id) }) s
  let s := modSc x.place (x.slot / 8) (fun q => { q with syms := q.syms.filter (fun e => e.2.sid != id) }) s
  let s := modHub (moduleOf x.place) (fun h => { h with evwaits := h.evwaits.filter (fun w => w.sid != id) }) s
  match x.kind with
  | .core =>
    let out : Bool := !quiet && !isNative x && decide (x.link.depth = 0) && !x.link.valid
    let s := modStrand id (fun x => { scrub x with place := x.native, slot := x.nslot, away := out, run := .idle }) s
    if quiet then modStrand id (fun x => { x with link := TaskLink.reset }) s
    else if x.link.depth ≠ 0 ∨ x.link.valid then dequeKill id (floorAt x.native x.nslot) s
    else sched (leg s x.place x.native) (.dequeTakeRequest x.native id 0) s
  | _ => { s with strands := tdel s.strands id }

/-- Nothing of a block can run any more: every slot is idle with nothing of it at the deque unit, and the deque holds no frame of
the block. -/
def blockDead (s : State) (b : Nat) : Bool :=
  let still (x : Strand) : Bool := decide (x.block ≠ b) || (decide (x.run = .idle ∧ x.link.depth = 0) && !x.link.valid)
  match tget s.blocks b with
  | none => false
  | some q => q.sids.all (fun i => (match tget s.strands i with | some x => still x | none => true) && (match tget s.store i with | some x => still x | none => true))
      && !(coreAt s q.core).deque.any (fun p => p.block == b)

/-- A block that a kill leaves with nothing to run is killed: the pieces that wait at its pipes' rings fail, later ones are rejected
(R299). -/
def killBlock (b : Nat) (s : State) : State :=
  match tget s.blocks b with
  | none => s
  | some q =>
    if q.killed ∨ blockDead s b = false then s
    else
      let ps := (coreAt s q.core).ports.filter (fun p => decide (p.block = b))
      ps.foldl (fun s p => failWaiting p.core p.hdr s) (modBlock b (fun b => { b with killed := true }) s)

/-- The reports of a kill (R360 step 7, R350): q9, the fault record, the MC's log. -/
def killReport (x : Strand) (id cause : Nat) (s : State) : State :=
  let s := send x.owner x.place x.native (leg s x.place x.native) (.noticeArrival ⟨9, x.native, 0, x.block, strandNotice x cause, x.place⟩) s
  mcLog (moduleOf x.native) logKill cause x.owner x.native x.epc (blockFault id cause x.epc x.tval s)

/-- A kill of a suspended strand, in its store (R369). -/
def killStored (id cause : Nat) (quiet report : Bool) (s : State) : State :=
  match tget s.store id with
  | none => s
  | some x =>
    if x.run = .idle then s
    else killBlock x.block (inStore id (fun s => killSuspended id quiet (if report then killReport x id cause s else s)) s)

/-- A kill of the strand that stands in a slot. One that is on its way is killed when it arrives (R366). -/
def killOne (id cause : Nat) (quiet report : Bool) (s : State) : State :=
  match tget s.strands id with
  | some x =>
    if x.run = .idle then s
    else if x.away then modCore x.native (fun c => { c with filters := tput c.filters id cause }) s
    else killBlock x.block (killHere id quiet (if report then killReport x id cause s else s))
  | none => s

/-- The strand of a slot: the one that has it, else the one suspended there. -/
def slotOwner (s : State) (id : Nat) : Strand := (tget s.strands id).getD ((tget s.store id).getD Strand.reset)

/-- A kill of the strand of a block in a slot, in the slot or in its store. -/
def killIn (block id cause : Nat) (quiet report : Bool) (s : State) : State :=
  match tget s.strands id with
  | some x => if x.block = block then killOne id cause quiet report s else killStored id cause quiet report s
  | none => killStored id cause quiet report s

/-- The leading strand of a pair; a strand without a partner leads itself (R379). -/
def leaderOf (s : State) (id : Nat) : Nat :=
  let x := slotOwner s id
  match x.partner with | some p => if trailS x then p else id | none => id

/-- A kill of a strand of a block, or of both of its pair with one notice, which names the leading slot (R360, R379). -/
def killPair (block id cause : Nat) (s : State) : State :=
  match (blockStrand s id block).bind Strand.partner with
  | none => killIn block id cause false true s
  | some p => killIn block id cause false true (killIn block p cause true false s)

/-- A kill of a strand, or of both of a pair (R360, R379). Poison writes the registers that name it; no other kill writes any. -/
def killStrand (id cause : Nat) (s : State) : State :=
  let lead := leaderOf s id
  let y := slotOwner s id
  killPair y.block lead cause (if cause = 8 ∧ lead ≠ id then modIf lead (fun x => { x with epc := y.epc, tval := y.tval, cause := y.cause }) s else s)

/-- A mismatch under policy 2 kills every strand of the block (R360), each pair with one notice, and starts it again; the third acts as
policy 1 (R377). -/
def mismatchPolicy (b : Nat) (s : State) : State :=
  match tget s.blocks b with
  | none => s
  | some q =>
    match tget s.grids q.grid with
    | none => s
    | some g =>
      if g.fpol ≠ 2 then s
      else if 2 ≤ q.reruns then send g.owner q.core g.caller (faultLeg s q.core g.caller) (.contextRemoval q.grid) s
      else
        let lead (i : Nat) : Bool := (blockStrand s i b).any (fun x => !trailS x)
        let s := (q.sids.filter lead).foldl (fun s i => killPair b i 14 s) s
        sched 8 (.blockRerun b) (modBlock b (fun q => { q with reruns := q.reruns + 1 }) s)

/-- The event of a kill: poison, a mismatch, a command or `kill`. -/
def strandKill (sid cause : Nat) (s : State) : State :=
  let b := (slotOwner s sid).block
  if cause = 14 then mismatchPolicy b (killStrand sid cause s) else killStrand sid cause s

def execStrandKill (sid cause : Nat) (s : State) : Out := .next (strandKill sid cause s)

/-- The filter entries of a strand and its partner are cleared (R366). -/
def clearFilters (id : Nat) (s : State) : State :=
  let both := id :: (strandAt s id).partner.toList
  modCore (strandAt s id).native (fun c => { c with filters := c.filters.filter (fun i => !both.contains i.1) }) s

/-- A packet's strand is lost: the native core releases its slot and reports the loss with cause 0 (R63, R360). -/
def lostStrand (id : Nat) (s : State) : State :=
  let s := clearFilters id s
  strandKill id 0 (modPair id (fun x => { x with away := false, place := x.native, slot := x.nslot }) s)

def execKillNotice (sid : Nat) (s : State) : Out := .next (if (strandAt s sid).away then lostStrand sid s else s)

/-- A packet is dropped where it is: the kill notice goes to the native core named in its header. -/
def dropPacket (pk : Nat) (s : State) : State :=
  match tget s.packets pk with
  | none => s
  | some p => schedFree (.killNotice p.sid) { s with packets := tdel s.packets pk, frames := tdel s.frames pk }

/-- What a packet between modules carries is stopped or lost: a courier's piece or chunk ends with status 11 and a cause (R257, R349); so does
a piece whose report it was, of which the issuing core hears as of a stop. A message is gone. -/
def loseCarried (id from_ cause : Nat) (s : State) : State :=
  let report : Bool := (tget s.frames id).any (fun f => match f.what with | .engineCompletionReport _ => true | _ => false)
  let s : State := { s with frames := tdel s.frames id }
  match tget s.pieces id with
  | some p => if report then reportPiece id from_ 3 cause p.off (noteFail p.op cause p.off s) else failMates id from_ 3 cause s
  | none => match tget s.rmsgs id with
    | some m => redFail m.leaves m.chunk from_ 3 cause { s with rmsgs := tdel s.rmsgs id }
    | none => s

/-- A link fails under a packet: a strand is lost, a courier's piece ends with status 11 and cause 0 (R63, R257). -/
def linkFails (pk : Nat) (s : State) : State :=
  match tget s.packets pk with
  | some _ => dropPacket pk { s with packets := tmod s.packets pk ⟨0, 0, 0, none, .travel, 0, [], [], false, false, true, 0, none⟩ (fun p => { p with truncated := true }) }
  | none => loseCarried pk (match tget s.frames pk with | some f => hubOf f.hop.from_ | none => (match tget s.pieces pk with | some p => p.origin | none => 0)) 0 s

def execLinkFailure (pk : Nat) (s : State) : Out := .next (linkFails pk s)

/-- Whether a strand that arrives is killed instead, of a pair both (R366, R373): quietly where its grid is being removed, or its block
was removed with a checkpoint, whose slot is free then (R371). Its filters are cleared. -/
def arrivalKill (id : Nat) (s : State) : Option State :=
  let x := strandAt s id
  let both := id :: x.partner.toList
  let gone : Bool := match x.grid.bind (tget s.grids) with | some g => g.removal.isSome | none => false
  let here (s : State) : State := modPair id (fun x => { x with away := false, place := x.native, slot := x.nslot }) s
  let out : Bool := match tget s.blocks x.block with | some b => decide (b.st = .out) | none => false
  if gone then some (both.foldl (fun s i => killOne i 0 true false s) (here (clearFilters id s)))
  else if out then
    let s := both.foldl (fun s i => killOne i 0 true false s) (here (clearFilters id s))
    some { s with strands := s.strands.filter (fun e => !both.contains e.1) }
  else match both.findSome? (tget (coreAt s x.native).filters) with
    | some cause => some (killStrand id cause (here (clearFilters id s)))
    | none => none

end

end Sys2Proof.Machine
end

