-- ==== Sys2Proof/Machine/Shoot.lean ====
section
/-! DEFINITION. Shoot-downs: what a `tlbi` invalidates, the epochs and their counts, the acknowledgement (R66, R142, R343,
R367). -/

namespace Sys2Proof.Machine

open Sys2Proof

noncomputable section

/-- What a shoot-down invalidates: the entries of every space (none), of an address space, or of one page of it. -/
structure Shot where
  asn : Option Nat
  va : Option Nat
  deriving DecidableEq, Repr

/-- Whether a cached translation is invalidated: a page form covers the 64 KiB page and a 64 MiB leaf over it. -/
def Shot.hits (x : Shot) (e : TlbEntry) : Bool :=
  (match x.asn with | none => true | some a => decide (e.asn = a))
    && (match x.va with | none => true | some v => decide (e.page = v / 2 ^ e.bits))

/-- A walk in progress for an entry that is invalidated installs nothing. -/
def Shot.stales (x : Shot) (w : Walk) : Bool :=
  (match x.asn with | none => true | some a => decide (w.asn = a))
    && (match x.va with | none => true | some v => decide (w.va / 2 ^ 26 = v / 2 ^ 26))

/-- The module of a slice table's key: a cluster's, or a Caller's own caches (log 7, DESIGN CHOICE). -/
def sliceModule (cl : Nat) : Nat := if cl < 2 ^ 20 then cl / 256 else cl - 2 ^ 20

/-- What a core has translated under an epoch and has not arrived: strand packets with a PA, strands that wait to leave with one
(R65, R66), courier pieces. -/
def epochCount (s : State) (core : Nat) (e : Bool) : Nat :=
  (s.strands.filter (fun x => decide (x.2.place = core ∧ x.2.park = some .leave) && !x.2.away && x.2.carried.any (fun c => c.epoch == e))).length
    + (s.packets.filter (fun p => decide (p.2.src = core ∧ p.2.epoch = e) && (strandAt s p.2.sid).carried.isSome)).length
    + (s.pieces.filter (fun p => decide (p.2.origin = core ∧ p.2.epoch = e ∧ 1 ≤ p.2.stage ∧ p.2.stage ≤ 4))).length

/-- Invalidates in the caches of the named cores and clusters; the code lines that their slices hold go too (R169; all of them, since a
line bears no VA: log 51, DESIGN CHOICE). -/
def invalidate (x : Shot) (core cluster : Nat → Bool) (s : State) : State :=
  { s with
    cores := s.cores.map (fun c => if core c.1 then (c.1, { c.2 with tlb := c.2.tlb.filter (fun e => !x.hits e) }) else c)
    slices := s.slices.map (fun k =>
      if cluster k.1 then
        (k.1, { k.2 with
          lines := k.2.lines.filter (fun l => !codeLine s k.1 l.line)
          tlb := k.2.tlb.filter (fun e => !x.hits e)
          walks := lmod x.stales (fun w => { w with stale := true }) k.2.walks })
      else k) }

/-- The new epoch at every core of a shoot-down. -/
def flipEpochs (cores : List Nat) (s : State) : State :=
  cores.foldl (fun s c => modCore c (fun k => { k with epoch := !k.epoch }) s) s

/-- No packet or piece of the epoch before the present one is in flight from any of the cores. -/
def oldClear (s : State) (cores : List Nat) : Bool := cores.all (fun c => decide (epochCount s c (!(coreAt s c).epoch) = 0))

/-- Starts a shoot-down: the entries go, the epoch flips at every core in scope once an earlier flip has drained there, and
the acknowledgement is awaited. A core that holds nothing has nothing in flight: only the listed ones count. -/
def startShot (x : Shot) (sid : Nat) (quarters : Option (Nat × Nat)) (grid : Option Nat) (core cluster : Nat → Bool) (s : State) : State :=
  let id := s.fresh
  let cores := (s.cores.map Prod.fst).filter core
  let s := invalidate x core cluster s
  let ok := oldClear s cores
  let s := if ok then flipEpochs cores s else s
  bump { s with tlbis := tput s.tlbis id ⟨sid, cores, ok, quarters, grid⟩ }

/-- Cores and clusters of one module, or of every module of the pod. -/
def moduleScope (m : Option Nat) (p : Nat) : Bool := match m with | none => true | some m => decide (moduleOf p = m)
def clusterScope (m : Option Nat) (cl : Nat) : Bool := match m with | none => true | some m => decide (sliceModule cl = m)

/-- Cores and clusters of quarters of a module; the Caller's caches serve them all. -/
def quarterScope (m mask p : Nat) : Bool := decide (moduleOf p = m) && !isMc p && (isHub p || bit mask (quarterOf p))
def quarterClusters (m mask cl : Nat) : Bool := decide (sliceModule cl = m) && (decide (2 ^ 20 ≤ cl) || bit mask (cl % 16 / 4))

/-- A shoot-down can be acknowledged, or its flip made. -/
def shotReady (s : State) (id : Nat) : Bool := match tget s.tlbis id with | none => false | some t => oldClear s t.cores

/-- The acknowledgement, or the flip that an earlier epoch held up (R367). shotDown collects the quarters of the module that a
shoot-down of R343 has covered. -/
def shotAck (id : Nat) (s : State) : State :=
  match tget s.tlbis id with
  | none => s
  | some t =>
    if oldClear s t.cores = false then s
    else if t.flipped = false then { flipEpochs t.cores s with tlbis := tput s.tlbis id { t with flipped := true } }
    else
      let s := { s with tlbis := tdel s.tlbis id }
      let s := match t.quarters with
        | some (m, mask) => modHub m (fun h => { h with shotDown := h.shotDown ||| mask }) s
        | none => s
      match (strandAt s t.sid).park with
      | some (.tlbi i k) =>
        if i ≠ id then s
        else if k = 1 ∧ settled s t.sid = false then modStrand t.sid (fun x => { x with park := some .kbit }) s else wake t.sid s
      | _ => s

def execTlbiAck (id : Nat) (s : State) : Out := .next (shotAck id s)

end

end Sys2Proof.Machine
end

