-- ==== Sys2Proof/Machine/Dispatcher.lean ====
section
/-! DEFINITION. Dealing and completion (R300, R312 to R325), pre-emption (R368, R369), re-runs (R377): the root, the module,
tower and cluster dispatchers. -/

namespace Sys2Proof.Machine

open Sys2Proof

noncomputable section

/-! ### The tree of dispatchers (R318) -/

/-- The nodes: the root, modules, towers and clusters of the pod. -/
def nodeM (m : Nat) : Nat := 2 ^ 20 + m
def nodeT (t : Nat) : Nat := 2 ^ 21 + t
def nodeC (c : Nat) : Nat := 2 ^ 22 + c
def levelOf (n : Nat) : Nat := if n = 0 then 0 else if n < 2 ^ 21 then 1 else if n < 2 ^ 22 then 2 else 3

/-- A cluster's number from its tower and its place in it, in ascending order. -/
def towerCluster (t i : Nat) : Nat := t / 32 * 256 + (t % 32 / 4 * 2 + i / 4) * 16 + t % 4 * 4 + i % 4
def clusterTower (c : Nat) : Nat := c / 256 * 32 + c % 256 / 32 * 4 + c % 16 / 4

def childrenOf (g : Grid) (n : Nat) : List Nat :=
  match levelOf n with
  | 0 => g.modules.map nodeM
  | 1 => ((List.range 32).filter (fun i => bit g.quarters (i % 4))).map (fun i => nodeT ((n - 2 ^ 20) * 32 + i))
  | 2 => (List.range 8).map (fun i => nodeC (towerCluster (n - 2 ^ 21) i))
  | _ => []

def parentOf (n : Nat) : Nat :=
  match levelOf n with | 3 => nodeT (clusterTower (n - 2 ^ 22)) | 2 => nodeM ((n - 2 ^ 21) / 32) | _ => 0

/-- Whether a node stands over a core. -/
def covers (n core : Nat) : Bool :=
  match levelOf n with
  | 0 => true
  | 1 => decide (moduleOf core = n - 2 ^ 20)
  | 2 => decide (towerOf core = n - 2 ^ 21)
  | _ => decide (clusterOf core = n - 2 ^ 22)

/-- A core lies in the grid's core set (R313). -/
def inSet (g : Grid) (core : Nat) : Bool := g.modules.contains (moduleOf core) && bit g.quarters (quarterOf core)

/-- Cores of the core set under a node. -/
def nodeSize (g : Grid) (n : Nat) : Nat :=
  let q := ((List.range 4).filter (bit g.quarters)).length
  match levelOf n with | 0 => g.modules.length * 256 * q | 1 => 256 * q | 2 => 32 | _ => 4

/-- Where a node's dispatcher lies: the root's Caller, or the hub of the node's module. -/
def nodePlace (g : Grid) (n : Nat) : Nat :=
  match levelOf n with | 0 => g.caller | 1 => hubOf (n - 2 ^ 20) | 2 => hubOf ((n - 2 ^ 21) / 32) | _ => hubOf ((n - 2 ^ 22) / 256)

/-- The time from a node to a child: the legs of R321, pod hops added. -/
def childLeg (s : State) (g : Grid) (child : Nat) : Nat :=
  match levelOf child with
  | 1 => 10 + podHops s g.caller (hubOf (child - 2 ^ 20)) * podHop 1
  | 2 => 8
  | _ => 8 + 3 * ((child - 2 ^ 22) % 256 / 16)

/-- A grid's message between two dispatchers, which passes pod links as any packet does (R23). -/
def nodeSend (g : Grid) (a b d : Nat) (e : Instr) (s : State) : State := send g.owner (nodePlace g a) (nodePlace g b) d e s

/-- The state of a quarter (R339): 0 running, 1 quiescing, 2 quiesced, 3 open. -/
def qst (s : State) (m q : Nat) : Nat := bits (ctlGet s m 0x100038) (4 * q + 3) (4 * q)

/-- A quarter does not run, or another of its partition is quiescing or quiesced (R340). -/
def quarterHeld (s : State) (m q : Nat) : Bool :=
  let pid (q : Nat) : Nat := bits (ctlGet s m 0x100000) (16 * q + 1) (16 * q)
  decide (qst s m q ≠ 0) || (List.range 4).any (fun p => decide (pid p = pid q ∧ (qst s m p = 1 ∨ qst s m p = 2)))

/-- A node's dispatcher deals: its module is not halted, its quarter is not held (R340). -/
def nodeRuns (s : State) (n : Nat) : Bool :=
  match levelOf n with
  | 0 => true
  | 1 => !(hubAt s (n - 2 ^ 20)).halted
  | 2 => !quarterHeld s ((n - 2 ^ 21) / 32) ((n - 2 ^ 21) % 4) && !(hubAt s ((n - 2 ^ 21) / 32)).halted
  | _ => !quarterHeld s ((n - 2 ^ 22) / 256) ((n - 2 ^ 22) % 16 / 4) && !(hubAt s ((n - 2 ^ 22) / 256)).halted

/-! ### Slots -/

/-- A core takes no block while it forwards, while a migration operation fills or empties it, or while it runs from its log (R371, R372,
R381). -/
def coreTakes (s : State) (core : Nat) : Bool :=
  (coreAt s core).fw.isNone && !replaying s core
    && (match (hubAt s (moduleOf core)).mg with | some g => !decide (g.src = core ∨ g.op = 1 ∧ g.dst = core) | none => true)

/-- A native slot that no strand holds, of a core that takes blocks. -/
def slotFree (s : State) (core j : Nat) : Bool := (tget s.strands (32 * core + j)).isNone && coreTakes s core

/-- The free native slots of a core, ascending. -/
def freeNative (s : State) (core : Nat) : List Nat :=
  ((List.range 4).flatMap (fun q => (List.range 6).map (fun i => 8 * q + i))).filter (slotFree s core)

/-- Pairs of free native slots of one scalar core each (R374). -/
def freePairs (s : State) (core : Nat) : List (Nat × Nat) :=
  (List.range 4).flatMap (fun q =>
    let f := (freeNative s core).filter (fun j => decide (j / 8 = q))
    (List.range (f.length / 2)).map (fun i => ((f[2 * i]?).getD 0, (f[2 * i + 1]?).getD 0)))

/-- The slots that a block takes on a core, in strand order; none when it does not fit. -/
def takeSlots (s : State) (g : Grid) (core : Nat) : Option (List Nat) :=
  if g.paired then
    let p := freePairs s core
    if p.length < g.strands then none else some ((p.take g.strands).flatMap (fun x => [x.1, x.2]))
  else
    let f := freeNative s core
    if f.length < g.strands then none else some (f.take g.strands)

/-- Cores of the core set under a node on which some native slot is taken, or that forward. -/
def usedCores (s : State) (g : Grid) (n : Nat) : List Nat :=
  ((s.strands.filterMap (fun e => if e.2.kind = .core then some e.2.native else none))
    ++ (s.cores.filterMap (fun c => if !coreTakes s c.1 then some c.1 else none))).eraseDups.filter (fun c => inSet g c && covers n c)

/-- Free native slots under a node. -/
def freeUnder (s : State) (g : Grid) (n : Nat) : Nat :=
  let u := usedCores s g n
  24 * (nodeSize g n - u.length) + (u.map (fun c => (freeNative s c).length)).sum

/-- The blocks, or instances, that the free native slots under a node could start now (R318): an instance starts whole on one cluster
(R300). -/
def capacity (s : State) (g : Grid) (n : Nat) : Nat :=
  let u := usedCores s g n
  let all := (if g.paired then 12 else 24) / g.strands
  let per (c : Nat) : Nat := if u.contains c then (if g.paired then (freePairs s c).length else (freeNative s c).length) / g.strands else all
  let used := (u.map clusterOf).eraseDups
  4 * all / max g.gang 1 * (nodeSize g n / 4 - used.length)
    + (used.map (fun cl => ((List.range 4).map (fun i => per (4 * cl + i))).sum / max g.gang 1)).sum

/-! ### Intervals -/

/-- Adds [lo, hi) to ascending intervals, merged. -/
def addIv (lo hi : Nat) : List (Nat × Nat) → List (Nat × Nat)
  | [] => [(lo, hi)]
  | (a, b) :: t =>
    if hi < a then (lo, hi) :: (a, b) :: t
    else if b < lo then (a, b) :: addIv lo hi t
    else addIv (min lo a) (max hi b) t

def ivTotal (l : List (Nat × Nat)) : Nat := (l.map (fun i => i.2 - i.1)).sum

/-- Takes at most n from the lowest undealt index, as one interval: what is taken and what is left. -/
def takeIv (n : Nat) (l : List (Nat × Nat)) : Option ((Nat × Nat) × List (Nat × Nat)) :=
  match l with
  | [] => none
  | (a, b) :: t => if n < b - a then some ((a, a + n), (a + n, b) :: t) else some ((a, b), t)

def heldAt (q : Grid) (n : Nat) : List (Nat × Nat) := (tget q.held n).getD []
def setHeld (n : Nat) (l : List (Nat × Nat)) (q : Grid) : Grid :=
  { q with held := if l.isEmpty then tdel q.held n else tput q.held n l }

/-- Units of dealing: blocks, or gang instances (R318). -/
def unitsOf (g : Grid) : Nat := g.blocks / max g.gang 1

/-! ### The root's own words (R312, R316, R324) -/

def stateWord (g : Grid) : Word :=
  w64 (min g.faults 0xFFFF * 2 ^ 48 + g.reason % 16 * 2 ^ 36 + b2n g.trunc * 2 ^ 7 + b2n g.killed * 2 ^ 6 + b2n g.cancelled * 2 ^ 5 + g.state)

/-- The root writes the RO fields of the record. -/
def writeRecord (g : Nat) (s : State) : State :=
  match tget s.grids g with
  | none => s
  | some q => poke8 (q.recPa + 0xB0) (w64 q.done) (poke8 (q.recPa + 0xA8) (stateWord q) (poke8 (q.recPa + 0xA0) (w64 g) s))

/-- The bytes of a fault record (R324). -/
def faultBytes (g : Nat) (r : FaultRec) : List Byte :=
  leBytes 8 (r.core * 2 ^ 46 + r.cause % 64 * 2 ^ 40 + r.block) ++ leBytes 8 r.epc.toNat ++ leBytes 8 r.tval.toNat ++ leBytes 8 g

def reportBytes (g : Nat) (q : Grid) : List Byte :=
  (List.range 64).flatMap (fun c => leBytes 4 ((tget q.causes c).getD 0)) ++ q.modules.flatMap (fun m =>
    let iv := if q.cancelled then (tget q.startedIv m).getD [] else []
    (match tget q.firstFault m with | some r => faultBytes g r | none => leBytes 32 0)
      ++ leBytes 8 ((tget q.doneBy m).getD 0 % 2 ^ 40 * 2 ^ 16 + m) ++ leBytes 8 ((tget q.faultedBy m).getD 0) ++ leBytes 8 iv.length
      ++ leBytes 8 0 ++ iv.flatMap (fun i => leBytes 8 i.1 ++ leBytes 8 i.2))

/-- Writes the report, as far as the buffer goes. -/
def writeReport (g : Nat) (s : State) : State :=
  match tget s.grids g with
  | none => s
  | some q =>
    if q.rbuf = 0 ∧ q.rbufSize = 0 then s
    else
      let bs := reportBytes g q
      let n := 32 * q.rbufSize
      modGrid g (fun q => { q with trunc := decide (n < bs.length) }) (pokeBytes (hubSram (moduleOf q.caller) + q.rbuf) (bs.take n) s)

/-! ### Events (R327) -/

def eventOwner (s : State) (m e : Nat) : Nat := bits (ctlGet s m (0x180000 + 8 * (e / 16))) (4 * (e % 16) + 3) (4 * (e % 16))

/-- An evwait retires with a value. -/
def evFinish (m : Nat) (w : EvWait) (v : Word) (s : State) : State :=
  let s := modHub m (fun h => { h with evwaits := h.evwaits.filter (fun x => x.id != w.id) }) s
  let s := modIf w.sid (fun x =>
    w.drop.foldl (fun x r => setRst r .empty x) { setReg w.sd v x with park := none, pc := x.pc + 4, readyAt := s.now + 2 }) s
  if w.k = 1 ∧ settled s w.sid = false then modIf w.sid (fun x => { x with park := some .kbit }) s else s

/-- Adds 1 to an event; the first waiter takes it. -/
def signalEvent (m e : Nat) (s : State) : State :=
  match (hubAt s m).evwaits.find? (fun w => w.event == e) with
  | some w => evFinish m w 1 s
  | none => modHub m (fun h => { h with events := tput h.events e (min ((tget h.events e).getD 0 + 1) 0xFFFFFFFF) }) s

/-! ### Accepting a grid on a module (R139, R313, R321) -/

/-- Record n of a grid on a core: b56 to b63 with the base of the core added where the record table says so. -/
def recordFor (q : Grid) (core n : Nat) : BitVec 256 :=
  let kind := if 56 ≤ n then bits q.kinds (4 * (n - 56) + 3) (4 * (n - 56)) else 0
  let v := ((q.images[n]?).getD 0).toNat
  let add := if kind = 1 then q.lspad + core * 0x400000 else if kind = 2 then q.lvault + core * 0x80000000 else 0
  BitVec.ofNat 256 (v / 2 ^ 64 * 2 ^ 64 + (v + add) % 2 ^ 64)

/-- The record table of a grid on a core. -/
def recordTable (q : Grid) (core : Nat) : Tbl (BitVec 256) :=
  ((List.range 64).map (fun n => (n, recordFor q core n))).filter (fun e => decide (e.2 ≠ 0))

/-- A module accepts the grid: records and window bases on every core of the set, L1s invalidated. -/
def acceptModule (g m : Nat) (s : State) : State :=
  match tget s.grids g with
  | none => s
  | some q =>
    let cores := (coreSet q).filter (fun c => decide (moduleOf c = m))
    cores.foldl (fun s c => invalL1 c (modCore c (fun k => { k with ctx := tput k.ctx g ⟨recordTable q c, [], 0, 0, []⟩ }) s)) s

/-! ### Grants (R318, R320, R321) -/

/-- A node holds undealt blocks of an earlier grid of the same stream; the root also holds a grid that waits to be accepted. -/
def laterInStream (s : State) (q : Grid) (n : Nat) : Bool :=
  s.grids.any (fun e => decide (e.2.stream = q.stream ∧ e.2.order < q.order)
    && (!(heldAt e.2 n).isEmpty || (decide (n = 0 ∧ e.2.state = 1) && !e.2.accepted.contains 0)))

/-- The grid's arrival at a node is noted (R320). -/
def noteSeen (g n : Nat) (s : State) : State :=
  match tget s.grids g with
  | some q => if (tget q.seen n).isSome then s else bump (modGrid g (fun q => { q with seen := tput q.seen n s.fresh }) s)
  | none => s

/-- The order in which a node serves two grids: the higher class first; of one stream the earlier grid, of two the earlier arrival
(R320). -/
def servedBefore (n : Nat) (a b : Grid) : Bool :=
  decide (a.pclass < b.pclass)
    || (decide (a.pclass = b.pclass) && (if a.stream = b.stream then decide (a.order < b.order)
      else decide ((tget a.seen n).getD a.order < (tget b.seen n).getD b.order)))

/-- Added to a node's number: the grants on their way to it, in order. -/
def transit : Nat := 2 ^ 40

/-- A grant leaves for a node, d cycles away. -/
def sendGrant (g n d : Nat) (iv : Nat × Nat) (s : State) : State :=
  let s1 := modGrid g (fun q => setHeld (n + transit) (heldAt q (n + transit) ++ [iv]) q) s
  match tget s.grids g with
  | some q => nodeSend q (parentOf n) n d (.dealingGrant g (n + transit)) s1
  | none => s

/-- The oldest grant on its way to a node is there. -/
def landGrant (g n : Nat) (s : State) : State :=
  modGrid g (fun q => match heldAt q (n + transit) with
    | [] => q
    | iv :: t => setHeld n (addIv iv.1 iv.2 (heldAt q n)) (setHeld (n + transit) t q)) s

/-- The event by which a node takes up a grid's blocks. -/
def takeUp (g n : Nat) : Instr := if levelOf n = 3 then .blockStart g (n - 2 ^ 22) else .dealingGrant g n

/-- Every grid whose blocks a node holds is looked at again. -/
def kickNode (n : Nat) (s : State) : State :=
  (s.grids.filter (fun e => !(heldAt e.2 n).isEmpty)).foldl (fun s e => sched 0 (takeUp e.1 n) s) s

/-- One grant of a parent to a child. -/
def grantTo (g n child : Nat) (s : State) : State :=
  match tget s.grids g with
  | none => s
  | some q =>
    let held := ivTotal (heldAt q n)
    let w := freeUnder s q child + 1
    let sum := ((childrenOf q n).map (fun c => freeUnder s q c + 1)).sum
    match takeIv (min held (max 1 (cdiv (held * w) sum))) (heldAt q n) with
    | none => s
    | some (iv, rest) =>
      sendGrant g child (childLeg s q child) iv
        (modGrid g (fun q => { setHeld n rest q with asking := q.asking.filter (· != child) }) s)

/-- A request of this child is on its way, waits at the parent, or has its grant on the way. -/
def asksAlready (s : State) (q : Grid) (g n : Nat) : Bool :=
  q.asking.contains n || !(heldAt q (n + transit)).isEmpty || (coming s).any (fun e => match e with | .dealingRequest h m => decide (h = g ∧ m = n) | _ => false)

/-- A child asks for blocks when it holds fewer than its capacity; a child of a quarter that is not running does not. -/
def askIfShort (g n : Nat) (s : State) : State :=
  match tget s.grids g with
  | none => s
  | some q =>
    if n = 0 ∨ (q.state ≠ 1 ∧ q.state ≠ 2) ∨ q.stopped.contains n ∨ q.places ≠ [] ∨ asksAlready s q g n ∨ nodeRuns s n = false ∨ capacity s q n ≤ ivTotal (heldAt q n)
    then s else nodeSend q n (parentOf n) (childLeg s q n) (.dealingRequest g n) s

/-- A request arrives at the parent of a node; one that holds none passes it up, one that the stop has reached drops it. -/
def dealRequest (g n : Nat) (s : State) : State :=
  match tget s.grids g with
  | none => s
  | some q =>
    let p := parentOf n
    if q.stopped.contains p then s else
    let s := modGrid g (fun q => { q with asking := ins n q.asking }) s
    if !(heldAt q p).isEmpty then sched 0 (.dealingGrant g p) s
    else if p = 0 ∨ asksAlready s q g p then s
    else nodeSend q p (parentOf p) (childLeg s q p) (.dealingRequest g p) s

/-- The placed blocks of a module go to their clusters (R318). -/
def dealPlaces (g m : Nat) (s : State) : State :=
  match tget s.grids g with
  | none => s
  | some q =>
    (List.range (unitsOf q)).foldl (fun s u =>
      let core := (q.places[u * max q.gang 1]?).getD 0
      if moduleOf core ≠ m then s
      else
        let n := nodeC (clusterOf core)
        sendGrant g n (8 + childLeg s q n) (u, u + 1) s) s

/-- A child's blocks run out at the root: every block is dealt (R316). -/
def allDealt (g : Nat) (s : State) : State :=
  match tget s.grids g with
  | none => s
  | some q => if q.state = 1 ∧ (heldAt q 0).isEmpty then writeRecord g (modGrid g (fun q => { q with state := 2 }) s) else s

/-- The stop has reached a node, or the grid is past dealing. -/
def dealStopped (q : Grid) (n : Nat) : Bool := q.stopped.contains n || decide (n = 0 ∧ q.cancelled) || decide (2 < q.state)

/-- An earlier launch of the stream has still to be accepted or refused at the root: the launches of a stream reach every module in
their order (R321). -/
def behindLaunch (s : State) (q : Grid) : Bool :=
  s.grids.any (fun e => decide (e.2.stream = q.stream ∧ e.2.order < q.order ∧ e.2.state = 1) && !e.2.accepted.contains 0)

/-- A node takes a grid up: at a module the L1s are invalidated and the tables installed. The root lets every module of the set do so
before a block of the grid can start there (R313, R321); every child counts as asking (R318). -/
def acceptNode (n : Nat) (s : State) (g : Nat) : State :=
  match tget s.grids g with
  | none => s
  | some q =>
    if q.accepted.contains n ∨ (n = 0 ∧ behindLaunch s q) then s
    else
      let s := modGrid g (fun q => { q with accepted := ins n q.accepted, asking := (childrenOf q n).foldl (fun a c => ins c a) q.asking })
        (if levelOf n = 1 then acceptModule g (n - 2 ^ 20) s else s)
      if n = 0 then q.modules.foldl (fun s m => nodeSend q 0 (nodeM m) (childLeg s q (nodeM m)) (.dealingGrant g (nodeM m)) s) s else s

/-- One grid at a node: its asking children are served in ascending order; placed blocks go on to their modules and clusters. -/
def dealOne (n : Nat) (s : State) (g : Nat) : State :=
  match tget s.grids g with
  | none => s
  | some q =>
    if dealStopped q n ∨ laterInStream s q n ∨ q.accepted.contains n = false then s
    else
      let s :=
        if q.places ≠ [] then
          (if (heldAt q n).isEmpty then s
           else
            let s := modGrid g (setHeld n []) s
            if n = 0 then q.modules.foldl (fun s m =>
                sendGrant g (nodeM m) (childLeg s q (nodeM m)) (0, unitsOf q) s) s
            else dealPlaces g (n - 2 ^ 20) s)
        else (childrenOf q n).foldl (fun s c =>
          match tget s.grids g with
          | some q => if q.asking.contains c && nodeRuns s c && !(heldAt q n).isEmpty then grantTo g n c s else s
          | none => s) s
      let s := if n = 0 then allDealt g s else askIfShort g n s
      match tget s.grids g with
      | some r => if (heldAt r n).isEmpty && !(heldAt q n).isEmpty then kickNode n s else s
      | none => s

/-- A node deals: it takes the grid up, and serves the grids that it holds in their order (R320). -/
def deal (g n : Nat) (s : State) : State :=
  match tget s.grids g with
  | none => s
  | some q =>
    if dealStopped q n ∨ nodeRuns s n = false then s
    else
      let gs := ((noteSeen g n s).grids.filter (fun e => decide (e.1 = g) || !(heldAt e.2 n).isEmpty)).mergeSort (fun a b => !servedBefore n b.2 a.2)
      let s := ((gs.mergeSort (fun a b => decide (a.2.order ≤ b.2.order))).map Prod.fst).foldl (acceptNode n) (noteSeen g n s)
      (gs.map Prod.fst).foldl (dealOne n) s

/-! ### Acceptance by the root (R314) -/

/-- A grid is refused. -/
def refuse (g reason : Nat) (s : State) : State :=
  match tget s.grids g with
  | none => s
  | some q => kickNode 0 (writeRecord g (mcLog (moduleOf q.caller) logRefusedLaunch reason q.owner q.caller (w64 g)
      (modGrid g (fun q => { q with state := 4, reason := reason, held := [], asking := [] }) s)))

/-- The pipes whose tiles lie at kernel k of the gang. -/
def pipesAt (q : Grid) (k : Nat) : List PipeEntry := q.pipes.filter (fun p => decide (p.ckern = k))

/-- Two blocks' pipes share a tile number or a scratchpad byte (R300). -/
def pipesClash (a b : List PipeEntry) : Bool :=
  a.any (fun x => b.any (fun y =>
    decide (x.tb < y.tb + y.n ∧ y.tb < x.tb + x.n) || decide (x.spad < y.spad + y.n * y.size ∧ y.spad < x.spad + x.n * x.size)))

/-- A core as a place for kernels: its free native slots, those of them that blocks of the grid can take, the pipes there. -/
structure Cand where
  core : Nat
  free : Nat
  room : Nat
  pipes : List PipeEntry
  deriving DecidableEq, Repr

/-- Places kernels of an instance one after another on candidate cores. The cores are tried by most free slots, the lower on a
tie. -/
def placeGang (q : Grid) (need : Nat) (fit : Nat → Nat → Bool) : List Nat → List Cand → Option (List Nat)
  | [], _ => some []
  | k :: ks, cores =>
    let best := cores.mergeSort (fun a b => decide (b.free ≤ a.free))
    best.findSome? (fun c =>
      if need ≤ c.room ∧ fit k c.core ∧ pipesClash (pipesAt q k) c.pipes = false then
        (placeGang q need fit ks (cores.map (fun d =>
          if d.core = c.core then ⟨d.core, d.free - need, d.room - need, d.pipes ++ pipesAt q k⟩ else d))).map (c.core :: ·)
      else none)

def needOf (q : Grid) : Nat := if q.paired then 2 * q.strands else q.strands

/-- The core that a place list gives kernel k of unit u, if there is one. -/
def placeFits (q : Grid) (u k core : Nat) : Bool := if q.places = [] then true else decide ((q.places[u * max q.gang 1 + k]?).getD 0 = core)

/-- An empty cluster holds every instance; of a place list, the cluster of the instance's first block (R314). -/
def gangFits (q : Grid) : Bool :=
  let empty (cl : Nat) : List Cand := (List.range 4).map (fun i => ⟨4 * cl + i, 24, 24, []⟩)
  (List.range (if q.places = [] then 1 else unitsOf q)).all (fun u =>
    (placeGang q (needOf q) (placeFits q u) (List.range q.gang) (empty (clusterOf ((q.places[u * q.gang]?).getD 0)))).isSome)

/-- Why the root refuses a grid, if it does (R314, R316). -/
def refusal (s : State) (q : Grid) : Option Nat :=
  let own (m : Nat) : Bool := (List.range 4).all (fun i => !bit q.quarters i || decide (bits (ctlGet s m 0x100000) (16 * i + 7) (16 * i + 4) = q.owner))
  if q.modules.any (fun m => !inPod s (moduleOf q.caller) m) then some 1
  else if q.modules.any (fun m => !own m) then some 2
  else if q.places.any (fun c => !inSet q c) then some 3
  else if 2 ≤ q.gang ∧ gangFits q = false then some 4
  else none

/-- Modules of the set that give no answer: one that is halted, or whose links to and from the root carry no packet of the owner
(R314, R349). -/
def silent (s : State) (q : Grid) : List Nat :=
  let r := moduleOf q.caller
  let far (m : Nat) : Bool := decide (m ≠ r) && ((hopsOf s q.caller (hubOf m)).isEmpty || (hopsOf s (hubOf m) q.caller).isEmpty || !keyValid s r q.owner || !keyValid s m q.owner)
  q.modules.filter (fun m => (hubAt s m).halted || far m)

/-- The root takes an accepted launch up: it refuses it, waits for a silent module, or deals. -/
def rootDeal (g : Nat) (s : State) : State :=
  match tget s.grids g with
  | none => s
  | some q =>
    if q.accepted.contains 0 then deal g 0 s
    else match refusal s q with
    | some r => refuse g r s
    | none => match silent s q with
      | m :: _ => sched 65536 (.moduleAnswerTimeout g m) s
      | [] => deal g 0 (modGrid g (fun q => setHeld 0 (if unitsOf q = 0 then [] else [(0, unitsOf q)]) q) s)

def execDealingRequest (g node : Nat) (s : State) : Out := .next (dealRequest g node s)

/-- A module still silent after 65,536 cycles makes the root refuse the grid; else the grid is dealt. -/
def execModuleAnswerTimeout (g m : Nat) (s : State) : Out :=
  .next (match tget s.grids g with
    | none => s
    | some q => if q.state ≠ 1 ∨ q.accepted.contains 0 then s else if (silent s q).contains m then refuse g 1 s else rootDeal g s)

/-! ### Starting blocks (R300, R310, R319, R374) -/

/-- The index word of block b (R102, R121). -/
def indexWord (q : Grid) (b : Nat) : Word :=
  let gx := max (bits q.gdim.toNat 19 0) 1
  let gy := max (bits q.gdim.toNat 39 20) 1
  w64 (b / gx / gy * 2 ^ 40 + b / gx % gy * 2 ^ 20 + b % gx)

/-- A strand as dispatch makes it: arguments in s1 to s4, every register full (R310). -/
def newStrand (g : Nat) (q : Grid) (key b core i slot : Nat) (partner : Option Nat) (trail : Bool) (ready : Nat) : Strand :=
  { Strand.reset with
    kind := .core, native := core, nslot := slot, place := core, slot := slot, run := .live
    regs := Vector.ofFn (fun (r : Fin 16) => if 1 ≤ r.val ∧ r.val ≤ 4 then (q.args[r.val - 1]?).getD 0 else 0)
    pc := (q.entries[b % max q.gang 1]?).getD 0
    status := w64 (b2n trail * 2 ^ 11 + b2n q.paired * 2 ^ 10 + q.pclass % 4 * 2 ^ 8 + 1)
    bidx := indexWord q b, sidx := i, owner := q.owner, grid := some g, block := key, asn := q.asn, root := q.root
    readyAt := ready, lastIssue := ready, partner := partner }

/-- The strands of a block over its slots, numbered in slot order; of pairs in pair order (R319, R374). -/
def blockStrands (g : Nat) (q : Grid) (key b core : Nat) (slots : List Nat) (ready : Nat) : List (Nat × Strand) :=
  slots.zipIdx.map (fun e =>
    let id := 32 * core + e.1
    if q.paired then
      let trail : Bool := decide (e.2 % 2 = 1)
      let other := (slots[if trail then e.2 - 1 else e.2 + 1]?).getD 0
      (id, newStrand g q key b core (e.2 / 2) e.1 (some (32 * core + other)) trail ready)
    else (id, newStrand g q key b core e.2 e.1 none false ready))

/-- Installs a block on a core: its strands issue 16 cycles later. -/
def installBlock (g b core : Nat) (slots : List Nat) (s : State) : State :=
  match tget s.grids g with
  | none => s
  | some q =>
    let key := s.fresh
    let st := blockStrands g q key b core slots (s.now + 16)
    let s := bump { s with
      strands := st.foldl (fun t e => tput t e.1 e.2) s.strands
      blocks := tput s.blocks key ⟨g, b, core, st.map Prod.fst, .running, false, false, 0, s.now⟩ }
    let m := moduleOf core
    let ids := st.map Prod.fst
    modGrid g (fun q => { q with used := ids.foldl (fun a i => ins i a) q.used }) (joinEpisodes g ids (modGrid g (fun q => { q with
      started := q.started + 1, startedIv := tput q.startedIv m (addIv b (b + 1) ((tget q.startedIv m).getD [])) }) s))

/-- The lowest ring header of a core that is not live (R284). -/
def freeHeader (s : State) (core : Nat) : Option Nat := ((List.range 1792).map (fun i => 0x3E4000 + 64 * i)).find? (fun h => !(hdrAt s core h).live)

/-- Binds one pipe of an instance (R284): tiles and ring at the consumer, ports at both ends. -/
def bindPipe (g : Nat) (keys : List (Nat × Nat)) (p : PipeEntry) (s : State) : State :=
  match keys[p.ckern]?, keys[p.pkern]? with
  | some (ckey, ccore), some (pkey, pcore) =>
    match freeHeader s ccore with
    | none => s
    | some h =>
      let s := (List.range p.n).foldl (fun s j => modTile ccore (p.tb + j) (fun _ => { Tile.none_ with defined := true, base := p.spad + j * p.size, len := p.size, grid := g }) s) s
      let s := makeRing ccore h g p.tb p.n p.size true s
      let s := modCore ccore (fun c => { c with ports := c.ports ++ [⟨ckey, p.cport, false, ccore, h, 0, []⟩] }) s
      modCore pcore (fun c => { c with ports := c.ports ++ [⟨pkey, p.pport, true, ccore, h, 0, []⟩] }) s
  | _, _ => s

/-- The pipes of started gang blocks on a core. -/
def pipesOn (s : State) (core : Nat) : List PipeEntry :=
  s.blocks.flatMap (fun e => if e.2.core = core ∧ e.2.st ≠ .ended ∧ e.2.st ≠ .out then
    (match tget s.grids e.2.grid with | some q => if 2 ≤ q.gang then pipesAt q (e.2.idx % q.gang) else [] | none => []) else [])

/-- Where a cluster places the unit u of a grid: the cores of its blocks, or none when it does not fit (R319, R300). -/
def placeUnit (s : State) (q : Grid) (cl u : Nat) : Option (List Nat) :=
  let m := max q.gang 1
  let cores := ((List.range 4).map (4 * cl + ·)).filter (inSet q)
  let room (c : Nat) : Nat := if q.paired then 2 * (freePairs s c).length else (freeNative s c).length
  placeGang q (needOf q) (placeFits q u) (List.range m) (cores.map (fun c => ⟨c, (freeNative s c).length, room c, pipesOn s c⟩))

/-- Starts the blocks of a unit on their cores; a gang's pipes are bound. -/
def startUnit (g u : Nat) (cores : List Nat) (s : State) : State :=
  match tget s.grids g with
  | none => s
  | some q =>
    let m := max q.gang 1
    let (s, keys) := cores.zipIdx.foldl (fun (a : State × List (Nat × Nat)) e =>
      match takeSlots a.1 q e.1 with
      | some sl => (installBlock g (u * m + e.2) e.1 sl a.1, a.2 ++ [(a.1.fresh, e.1)])
      | none => a) (s, [])
    q.pipes.foldl (fun s p => bindPipe g keys p s) s

/-- The grid whose undealt block a cluster starts next, in the order of R320. -/
def nextGrid (s : State) (cl : Nat) : Option (Nat × Grid) :=
  (s.grids.filter (fun e => !(heldAt e.2 (nodeC cl)).isEmpty && !laterInStream s e.2 (nodeC cl))).foldl (fun o e =>
    match o with
    | none => some e
    | some b => if servedBefore (nodeC cl) e.2 b.2 then some e else o) none

/-! ### Pre-emption (R368, R369) -/

/-- Native slots of a core that the suspension of block p leaves free for grid g, on scalar cores whose file is free for it. -/
def freedFor (s : State) (core p g : Nat) (paired : Bool) : Nat :=
  let freed (j : Nat) : Bool :=
    let tag := (scAt s core (j / 8)).vf.tag
    (decide (tag = none) || decide (tag = some g)) &&
      (match tget s.strands (32 * core + j) with | none => true | some x => decide (x.block = p))
  -- pairs take two slots of one scalar core (R374)
  ((List.range 4).map (fun q =>
    let n := (List.range 6).countP (fun i => freed (8 * q + i))
    if paired then n / 2 * 2 else n)).sum

/-- The raw scratchpad range that the image of b56 gives, where its kind is 1 (R368). -/
def b56Range (q : Grid) : Option (Nat × Nat) :=
  let r := (q.images[56]?).getD 0
  if bits q.kinds 3 0 = 1 then some (recBase r, recBase r + recExtent r) else none

/-- Both ranges are given, and share no byte. -/
def apart (a b : Grid) : Bool :=
  match b56Range a, b56Range b with
  | some x, some y => decide (x.2 ≤ y.1) || decide (y.2 ≤ x.1)
  | _, _ => false

/-- A started block that block b of grid g may displace. -/
def mayDisplace (s : State) (cl g : Nat) (q : Grid) (e : Nat × Block) : Bool :=
  match tget s.grids e.2.grid with
  | none => false
  | some p =>
    decide (e.2.st = .running ∧ clusterOf e.2.core = cl ∧ q.pclass < p.pclass ∧ e.2.grid ≠ g) && apart q p
      && decide (needOf q ≤ freedFor s e.2.core e.1 g q.paired) && e.2.sids.all (fun i => (tget s.store i).isNone)

/-- The block to suspend: the greatest class, the latest started among those; none while one is being suspended. -/
def victimBlock (s : State) (cl g : Nat) (q : Grid) : Option Nat :=
  let cls (b : Block) : Nat := match tget s.grids b.grid with | some p => p.pclass | none => 0
  if s.blocks.any (fun e => decide (e.2.st = .suspended ∧ clusterOf e.2.core = cl) && e.2.sids.any (fun i => match tget s.strands i with | some x => decide (x.block = e.1) | none => false))
  then none
  else ((s.blocks.filter (mayDisplace s cl g q)).foldl (fun (o : Option (Nat × Block)) e =>
    match o with
    | none => some e
    | some b => if cls b.2 < cls e.2 ∨ (cls b.2 = cls e.2 ∧ b.2.startedAt ≤ e.2.startedAt) then some e else o) none).map Prod.fst

/-- Moves a floor block between the scratchpad and the store, its poison with it. -/
def moveFloor (a b : Nat) (s : State) : State := setDown b (memRead s.mem a 4096) (badGranules s a 4096) s

/-- Whether a strand of a block can be suspended now (R369): its slot's entry of the context store is free, at home, with no instruction in flight, not meeting, R34 holding, and owning
no symbol-table entry (R115). An idle slot has no strand that could hold it up. -/
def canSuspend (s : State) (b id : Nat) : Bool :=
  match tget s.strands id with
  | none => false
  | some x => decide (x.block = b) && (tget s.store id).isNone && !x.away && isNative x && x.flight.isNone && (x.partner.isNone || decide (x.readyAt ≤ s.now))
      && (meetOf s id).isNone && x.meetOp.isNone && canDepart s id && (scAt s x.place (x.slot / 8)).syms.all (fun e => decide (e.2.sid ≠ id))

/-- One strand goes to the context store. -/
def suspendOne (id : Nat) (s : State) : State :=
  let s := withdraw id false s
  let x := strandAt s id
  let park := match x.park with | some .barLevel => x.park | some .kbit => x.park | some (.acq a k) => some (.acq a k) | _ => none
  moveFloor (floorAt x.native x.nslot) (storeFloor id) { s with strands := tdel s.strands id, store := tput s.store id { x with park := park } }

/-- A block is suspended: now the strands that can be, the others as they become able to. -/
def suspendBlock (b : Nat) (s : State) : State :=
  match tget s.blocks b with
  | none => s
  | some q =>
    let s := modBlock b (fun q => { q with st := .suspended }) s
    let s := (q.sids.filter (canSuspend s b)).foldl (fun s i => suspendOne i s) s
    kickNode (nodeC (clusterOf q.core)) s

/-- A strand of a suspended block can go now. -/
def suspendDue (s : State) (b : Nat) : Bool :=
  match tget s.blocks b with | some q => decide (q.st = .suspended) && q.sids.any (canSuspend s b) | none => false

def execPreemptSuspend (b : Nat) (s : State) : Out := .next (suspendBlock b s)

/-- A strand of a block stands in the context store. -/
def storedOf (s : State) (b i : Nat) : Bool := match tget s.store i with | some x => decide (x.block = b) | none => false

/-- Every slot that a block had suspended is free again (R369). -/
def restorable (s : State) (e : Nat × Block) : Bool :=
  decide (e.2.st = .suspended) && coreTakes s e.2.core && e.2.sids.any (storedOf s e.1)
    && e.2.sids.all (fun i => !storedOf s e.1 i || (tget s.strands i).isNone)

def restoreBlock (b : Nat) (s : State) : State :=
  match tget s.blocks b with
  | none => s
  | some q =>
    if restorable s (b, q) = false then s
    else
      let s := modBlock b (fun q => { q with st := .running }) s
      q.sids.foldl (fun s i =>
        match tget s.store i with
        | none => s
        | some x =>
          if x.block ≠ b then s
          else
            let s := moveFloor (storeFloor i) (floorAt x.native x.nslot)
              { s with strands := tput s.strands i { x with readyAt := s.now + 16 }, store := tdel s.store i }
            if isIdle x then sched 16 (.dequeTakeRequest x.native i 0) s else s) s

def execPreemptRestore (b : Nat) (s : State) : Out := .next (restoreBlock b s)

/-- The suspended block of a cluster that comes before a block of class c. -/
def toRestore (s : State) (cl c : Nat) : Option Nat :=
  (s.blocks.find? (fun e => decide (clusterOf e.2.core = cl) && restorable s e
    && (match tget s.grids e.2.grid with | some p => decide (p.pclass ≤ c) | none => false))).map Prod.fst

/-- A cluster dispatcher takes its next step: it restores a suspended block, starts its lowest undealt block, or displaces one
of a lower class. -/
def startNext (cl : Nat) (s : State) : State :=
  -- a quiescing quarter starts no block; one that is suspended has not ended, and goes on (R340)
  if nodeRuns s (nodeC cl) = false then
    (if (hubAt s (cl / 256)).halted ∨ qst s (cl / 256) (cl % 16 / 4) ≠ 1 then s
     else match toRestore s cl 4 with | some b => sched 1 (.blockStart 0 cl) (restoreBlock b s) | none => s)
  else match toRestore s cl (match nextGrid s cl with | some (_, q) => q.pclass | none => 4) with
  | some b => sched 1 (.blockStart 0 cl) (restoreBlock b s)
  | none =>
    match nextGrid s cl with
    | none => s
    | some (g, q) =>
      match takeIv 1 (heldAt q (nodeC cl)) with
      | none => s
      | some (iv, rest) =>
        match placeUnit s q cl iv.1 with
        | some cores =>
          let s := startUnit g iv.1 cores (modGrid g (setHeld (nodeC cl) rest) s)
          askIfShort g (nodeC cl) (sched 1 (.blockStart g cl) s)
        | none => match victimBlock s cl g q with | some b => sched 0 (.preemptSuspend b) s | none => askIfShort g (nodeC cl) s

def execBlockStart (g cl : Nat) (s : State) : Out := let _ := g; .next (startNext cl s)

/-- A grant arrives at a node, or a node looks at a grid that it has. -/
def grantArrive (g node : Nat) (s : State) : State :=
  let n := node % transit
  let s := if node < transit then s else landGrant g n s
  if n = 0 then rootDeal g s
  else if levelOf n = 3 then startNext (n - 2 ^ 22) (noteSeen g n s)
  else deal g n s

def execDealingGrant (g node : Nat) (s : State) : Out := .next (grantArrive g node s)

/-! ### Ends (R282, R322, R323) -/
/-- The slots of a block become free, its notices are discarded, its ports unbound; the end is reported (R361). -/
def endBlock (b : Nat) (s : State) : State :=
  match tget s.blocks b with
  | none => s
  | some q =>
    let mine (t : Tbl Strand) : Tbl Strand := t.filter (fun e => decide (e.2.block ≠ b))
    let s := { s with strands := mine s.strands, store := mine s.store }
    let s := modCore q.core (fun c => { c with q9 := c.q9.filter (fun e => decide (e.2 ≠ b)), ports := if q.killed then c.ports else c.ports.filter (fun p => decide (p.block ≠ b)) }) s
    let s := modBlock b (fun q => { q with st := .ended }) s
    let cl := clusterOf q.core
    let s := sched 0 (.blockStart q.grid cl) (sched 8 (.blockEndReport b 0) s)
    s.grids.foldl (fun s e => if inSet e.2 q.core then askIfShort e.1 (nodeC cl) s else s) s

def execBlockCompletion (b : Nat) (s : State) : Out := .next (if blockDone s b then endBlock b s else s)

/-- A cancelled grid's stop has reached every level. -/
def stopsOut (s : State) (g : Nat) : Bool := (coming s).any (fun e => match e with | .cancelStop h _ => h == g | _ => false)

/-- The root has counted every end (R322). -/
def gridEnded (s : State) (g : Nat) : Bool :=
  match tget s.grids g with
  | none => false
  | some q => (decide (q.state = 1) || decide (q.state = 2)) && q.removal.isNone
      && (decide (q.ends = q.blocks) || (q.cancelled && !stopsOut s g && decide (q.ends = q.started)))

/-- An end report goes up one level; the root counts it. -/
def endReport (b level : Nat) (s : State) : State :=
  match tget s.blocks b with
  | none => s
  | some q =>
    match tget s.grids q.grid with
    | none => s
    | some g =>
      if level < 3 then
        let hub := hubOf (moduleOf q.core)
        if level = 2 then send g.owner hub g.caller (8 + podHops s q.core g.caller * podHop 1) (.blockEndReport b 3) s
        else sched 8 (.blockEndReport b (level + 1)) s
      else
        let m := moduleOf q.core
        let s := modGrid q.grid (fun g =>
          if q.faulted then { g with ends := g.ends + 1, faults := g.faults + 1, faultedBy := tmod g.faultedBy m 0 (· + 1) }
          else { g with ends := g.ends + 1, done := g.done + 1, doneBy := tmod g.doneBy m 0 (· + 1) }) { s with blocks := tdel s.blocks b }
        if gridEnded s q.grid then sched 0 (.gridDone q.grid) s else s

def execBlockEndReport (b level : Nat) (s : State) : Out := .next (endReport b level s)

/-- The header offsets of a core at which some byte is not zero: every live one is among them (R286). -/
def writtenHeaders (s : State) (core : Nat) : List Nat :=
  (s.mem.filterMap (fun e =>
    let a := sramBase core + 0x3E4000
    if a ≤ e.1 ∧ e.1 < a + 64 * 1792 then some (0x3E4000 + (e.1 - a) / 64 * 64) else none)).eraseDups

/-- What a grid's end returns to rest on every core: records and window bases, vector files, common registers, ring headers
(R99, R104, R190, R286), and the forwarding that only it kept (R372). -/
def releaseGrid (g : Nat) (s : State) : State :=
  let live (h : Nat) : Bool := match tget s.grids h with | some q => decide (q.state = 1 ∨ q.state = 2) | none => false
  let sc (k : SCore) : SCore :=
    let k := commit 8 s.now k
    { k with
      c := k.c.map (fun r => if r.tag = some g then ⟨0, none⟩ else r)
      cpend := k.cpend.filter (fun p => decide (p.tag ≠ some g))
      vf := if k.vf.tag = some g then SCore.reset.vf else k.vf }
  let s : State := { s with cores := s.cores.map (fun (c : Nat × Core) => (c.1, { c.2 with
    ctx := tdel c.2.ctx g, sc := c.2.sc.map sc
    fw := match c.2.fw with
      | some (d, l) => if (l.filter (fun h => decide (h ≠ g) && live h)).isEmpty then none else some (d, l)
      | none => none })) }
  s.cores.foldl (fun (s : State) (c : Nat × Core) => (writtenHeaders s c.1).foldl (fun (s : State) h =>
    let r := hdrAt s c.1 h
    if r.live ∧ r.grid = g then
      let s : State := { s with cores := s.cores.map (fun (k : Nat × Core) => (k.1, { k.2 with ports := k.2.ports.filter (fun p => !decide (p.core = c.1 ∧ p.hdr = h)) })) }
      pokeBytes (sramBase c.1 + h) (leBytes 64 0)
        (modCore c.1 (fun k => { k with tiles := k.tiles.map (fun t => match t.2.ring with | some (x, _) => if x = h then (t.1, { t.2 with ring := none }) else t | none => t) }) s)
    else s) s) s

/-- The root writes the report, done and the state word, and signals the event (R322). -/
def finishGrid (g : Nat) (s : State) : State :=
  match tget s.grids g with
  | none => s
  | some q =>
    let s := modGrid g (fun q => { q with state := 3 }) s
    let s := writeRecord g (writeReport g s)
    let s := releaseGrid g s
    if q.cev = 0 then s else signalEvent (moduleOf q.caller) (q.cev - 1) s

def execGridDone (g : Nat) (s : State) : Out := .next (if gridEnded s g then finishGrid g s else s)

/-! ### Cancelling (R325) -/

/-- The stop at a node: its undealt blocks are dropped, and it goes on down. -/
def stopNode (g n : Nat) (s : State) : State :=
  match tget s.grids g with
  | none => s
  | some q =>
    let s := modGrid g (fun q => setHeld n [] { q with asking := q.asking.filter (· != n), stopped := ins n q.stopped }) s
    let s := (childrenOf q n).foldl (fun s c => nodeSend q n c (childLeg s q c) (.cancelStop g c) s) s
    let s := kickNode n s
    if gridEnded s g then sched 0 (.gridDone g) s else s

def execCancelStop (g node : Nat) (s : State) : Out := .next (stopNode g node s)

/-- The root sets cancelled and sends its stop: it reaches a cluster in row y 40 + 3y cycles after the cancel issues. A cancel that
reaches the root after the last end changes nothing. -/
def cancelGrid (g : Nat) (s : State) : State :=
  match tget s.grids g with
  | none => s
  | some q =>
    if q.ends = q.blocks then s
    else sched 14 (.cancelStop g 0) (writeRecord g (modGrid g (fun q => { q with cancelled := true }) s))

/-! ### Re-runs (R377) -/

/-- The block starts again from its entry in its own slots, once everything of it has ended. -/
def rerunBlock (b : Nat) (s : State) : State :=
  match tget s.blocks b with
  | none => s
  | some q =>
    match tget s.grids q.grid with
    | none => s
    | some g =>
      if q.st = .ended then s
      else if q.sids.all (slotDone s b) then
        let st := blockStrands q.grid g b q.idx q.core (q.sids.map (· % 32)) (s.now + 16)
        let s := modBlock b (fun q => { q with killed := false }) s
        { s with
          strands := st.foldl (fun t e => tput t e.1 e.2) s.strands
          cores := s.cores.map (fun c => if c.1 = q.core then (c.1, { c.2 with deque := c.2.deque.filter (fun p => decide (p.block ≠ b)) }) else c) }
      else sched 8 (.blockRerun b) s

def execBlockRerun (b : Nat) (s : State) : Out := .next (rerunBlock b s)

end

end Sys2Proof.Machine
end

