-- ==== Sys2Proof/Machine/Removal.lean ====
section
/-! DEFINITION. Context removal of a grid, step by step (R373). -/

namespace Sys2Proof.Machine

open Sys2Proof

noncomputable section

/-- The longest leg from the root to a core of the set. -/
def longLeg (s : State) (q : Grid) : Nat := (q.modules.map (fun m => leg s q.caller (m * 1024 + 1023))).foldl max 0

/-- Strands of a grid. -/
def ofGrid (s : State) (g id : Nat) : Bool := match tget s.strands id with | some x => decide (x.grid = some g) | none => false

/-- An operation of the grid. -/
def opOf (s : State) (g op : Nat) : Bool := match tget s.ops op with | some o => decide (o.grid = some g) | none => false

/-- No request of some strands waits at a slice (R373). -/
def slicesDone (s : State) (mine : Nat → Bool) : Bool := s.slices.all (fun k => k.2.waits.all (fun q => q.acc.all (fun a => !mine a.sid)))

/-- What step k waits for; 0 is the stop of dealing. -/
def stepDone (s : State) (g k : Nat) : Bool :=
  match k with
  | 0 => !stopsOut s g
  | 1 => s.strands.all (fun e => decide (e.2.grid ≠ some g) || decide (e.2.run = .idle)) && s.packets.all (fun p => !ofGrid s g p.2.sid)
  | 2 => s.cores.all (fun c => c.2.sc.toList.all (fun q => q.mq.all (fun m => decide (m.grid ≠ g)))
      && (match c.2.mrun with | some (_, m) => decide (m.grid ≠ g) | none => true))
  | 3 => s.pieces.all (fun p => !opOf s g p.2.op) && s.rmsgs.all (fun m => !opOf s g m.2.op)
  | 4 => s.stores.all (fun p => !ofGrid s g p.sid) && slicesDone s (ofGrid s g)
  | 5 => true
  | _ => s.tlbis.all (fun t => decide (t.2.grid ≠ some g))

/-- Step 1: every strand of the grid is killed without notices; its blocks end as killed. -/
def stopIssue (g : Nat) (s : State) : State :=
  let ids := (s.strands.filter (fun e => decide (e.2.grid = some g))).map Prod.fst
  let stored := (s.store.filter (fun e => decide (e.2.grid = some g))).map Prod.fst
  let s := ids.foldl (fun s i => killOne i 0 true false s) s
  let s := stored.foldl (fun s i => killStored i 0 true false s) s
  let s : State := { s with
    thieves := s.thieves.filter (fun t => !ofGrid s g t.2.sid), episodes := s.episodes.filter (fun e => decide (e.grid ≠ g)) }
  s.blocks.foldl (fun s b => if b.2.grid = g ∧ b.2.st ≠ .ended then
    modBlock b.1 (fun q => { q with killed := true, faulted := true }) s else s) s

/-- Step 2: matrix commands that have not started go, their locks, counts and q10 places with them; q10 tokens are dropped. -/
def dropMatrix (g : Nat) (s : State) : State :=
  s.cores.foldl (fun (s : State) (c : Nat × Core) =>
    let ids := (c.2.sc.toList.flatMap (fun q => (q.mq.filter (fun m => decide (m.grid = g))).map (fun m => (m.id, m.sid))))
    let s := ids.foldl (fun s i => unlockAll c.1 i.1 (modOwner i.2 (some g) (engMod 0 (· - 1)) s)) s
    modCore c.1 (fun k => { k with sc := k.sc.map (fun q => { q with
      mq := q.mq.filter (fun m => decide (m.grid ≠ g)), q10 := q.q10.filter (fun t => decide (t.2 ≠ g))
      q10res := q.q10res - (q.mq.filter (fun m => decide (m.grid = g))).length }) }) s) s

/-- Step 3 for some operations: no piece is launched; pieces at rings fail; reduction and combining entries are freed. -/
def stopCouriers (mine : Op → Bool) (s : State) : State :=
  let s : State := { s with ops := s.ops.map (fun o => if mine o.2 then (o.1, { o.2 with stopped := true, next := o.2.len }) else o) }
  let ours (op : Nat) : Bool := match tget s.ops op with | some o => mine o | none => false
  let rings := (s.pieces.filter (fun p => decide (p.2.stage = 5) && ours p.2.op)).filterMap (fun p => (tget s.ops p.2.op).map (fun o => (o.home, o.hdr)))
  let s := rings.eraseDups.foldl (fun s r => failWaiting r.1 r.2 s) s
  let free (k : Slice) : Slice := { k with
    nodes := k.nodes.filter (fun n => match tget s.rmsgs n.msg with | some r => !ours r.op | none => true)
    combine := (k.combine.map (fun c => { c with members := c.members.filter (fun p => match tget s.pieces p with | some x => !ours x.op | none => false) })).filter (fun c => !c.members.isEmpty) }
  let gone (p : Nat × Piece) : Bool := ours p.2.op && decide (p.2.stage = 0)
  { s with
    slices := s.slices.map (fun k => (k.1, free k.2)), pieces := s.pieces.filter (fun p => !gone p)
    rmsgs := s.rmsgs.filter (fun m => !ours m.2.op) }

/-- Step 4 for some strands: their entries in wait lists everywhere are freed; a load, an atomic or a record's read that has been sent
is performed. -/
def purgeWaits (mine : Nat → Bool) (s : State) : State :=
  { s with
    cores := s.cores.map (fun c => (c.1, { c.2 with
      joins := c.2.joins.filter (fun w => !mine w.sid), bars := c.2.bars.filter (fun w => !mine w.sid), fe := c.2.fe.filter (fun w => !mine w.sid) }))
    slices := s.slices.map (fun k => (k.1, { k.2 with
      watches := k.2.watches.filter (fun w => !mine w.sid)
      waits := k.2.waits.filter (fun w => w.acc.all (fun a => !(decide (a.kind = .watch) && mine a.sid))) })) }

/-- Step 4: wait entries of the grid are freed; what is left of its operations goes. -/
def purgeGrid (g : Nat) (s : State) : State :=
  let ids := (s.ops.filter (fun o => decide (o.2.grid = some g))).map Prod.fst
  purgeWaits (ofGrid s g) (ids.foldl (fun s i => finishOp i s) s)

/-- Step 5: vector entries under way, tiles, locks, deque places, queue entries, meeting entries; the rest is what a grid's end releases (R104, R190). -/
def resetTiles (g : Nat) (s : State) : State :=
  let blocks := (s.blocks.filter (fun b => decide (b.2.grid = g))).map Prod.fst
  let core (c : Core) : Core := { c with
    vruns := c.vruns.filter (fun r => decide ((vget c.sc r.sc SCore.reset).vf.tag ≠ some g))
    tiles := c.tiles.filter (fun t => decide (t.2.grid ≠ g) || !t.2.defined)
    deque := c.deque.filter (fun p => decide (p.grid ≠ g)), q9 := c.q9.filter (fun e => !blocks.contains e.2)
    ports := c.ports.filter (fun p => !blocks.contains p.block)
    meets := c.meets.filter (fun e => decide (e.group ≠ g)), reads := c.reads.filter (fun r => !ofGrid s g r.reader)
    sc := c.sc.map (fun q => { q with
      q8 := q.q8.filter (fun t => decide (t.2 ≠ g)), dq := if q.vf.tag = some g then [] else q.dq }) }
  releaseGrid g { s with cores := s.cores.map (fun c => (c.1, core c.2)) }

/-- What the order of a step before the last makes the cores do. -/
def orderStep (g k : Nat) (s : State) : State :=
  match k with
  | 1 => stopIssue g s
  | 2 => dropMatrix g s
  | 3 => stopCouriers (fun o => decide (o.grid = some g)) s
  | 4 => purgeGrid g s
  | _ => resetTiles g s

/-- The action of step k. -/
def stepAct (g k : Nat) (s : State) : State :=
  match tget s.grids g with
  | none => s
  | some q =>
    if k ≤ 5 then orderStep g k s
    else startShot ⟨some q.asn, none⟩ 0 none (some g) (inSet q) (fun cl => (List.range 4).any (fun i => inSet q (4 * cl + i))) s

/-- The removal has ended everywhere: the strands' slots are free, the blocks counted, the state word written with killed. -/
def endRemoval (g : Nat) (s : State) : State :=
  let mine := s.blocks.filter (fun b => decide (b.2.grid = g))
  let count (q : Grid) (b : Nat × Block) : Grid :=
    let m := moduleOf b.2.core
    if b.2.faulted ∨ b.2.st ≠ .ended then { q with ends := q.ends + 1, faults := q.faults + 1, faultedBy := tmod q.faultedBy m 0 (· + 1) }
    else { q with ends := q.ends + 1, done := q.done + 1, doneBy := tmod q.doneBy m 0 (· + 1) }
  let s : State := { s with
    strands := s.strands.filter (fun e => decide (e.2.grid ≠ some g)), store := s.store.filter (fun e => decide (e.2.grid ≠ some g))
    blocks := s.blocks.filter (fun b => decide (b.2.grid ≠ g)) }
  let s := modGrid g (fun q => mine.foldl count { q with removal := none, state := 3, killed := true }) s
  let s := writeRecord g (writeReport g s)
  let s := (mine.map (fun b => clusterOf b.2.core)).eraseDups.foldl (fun s cl => sched 0 (.blockStart g cl) s) s
  match tget s.grids g with
  | some q => if q.cev = 0 then s else signalEvent (moduleOf q.caller) (q.cev - 1) s
  | none => s

/-- Context removal starts: dealing is stopped as cancel does. -/
def removeGrid (g : Nat) (s : State) : State :=
  match tget s.grids g with
  | none => s
  | some q =>
    if q.removal.isSome ∨ (q.state ≠ 1 ∧ q.state ≠ 2) then s
    else
      let s := if q.cancelled then s else cancelGrid g s
      sched 1 (.contextRemovalStepEnd g) (writeRecord g (modGrid g (fun q => { q with removal := some 0, killed := true, killMode := true }) s))

def execContextRemoval (g : Nat) (s : State) : Out := .next (removeGrid g s)

/-- The root learns whether the step has ended everywhere; then the next one starts, its order going out and the report of its
end coming back. -/
def removalStep (g : Nat) (s : State) : State :=
  match tget s.grids g with
  | none => s
  | some q =>
    match q.removal with
    | none => s
    | some k =>
      if stepDone s g k = false then sched 1 (.contextRemovalStepEnd g) s
      else if 6 ≤ k then endRemoval g s
      else sched (2 * longLeg s q) (.contextRemovalStepEnd g) (modGrid g (fun q => { q with removal := some (k + 1) }) (stepAct g (k + 1) s))

def execContextRemovalStepEnd (g : Nat) (s : State) : Out := .next (removalStep g s)

end

end Sys2Proof.Machine
end

