-- ==== Sys2Proof/Machine/Caller.lean ====
section
/-! DEFINITION. The Caller's instructions: major 0x1E (R311 to R317, R325 to R331, R340). -/

namespace Sys2Proof.Machine

open Sys2Proof

noncomputable section

/-! ### Launch records (R312, R314) -/

/-- Dword o of a record's 256 bytes. -/
def recField (r o : Nat) : Nat := r / 2 ^ (8 * o) % 2 ^ 64

/-- A PA that R122 allows for a root table, a multiple of 8 KiB. -/
def rootOk (p : Nat) : Bool := decide (p < 2 ^ 56 ∧ p % 8192 = 0) && !bit p 46 && decide (bits p 45 41 = 0)

/-- The first failing check of a launch record: the byte offset of its field. -/
def recordError (r : Nat) : Option Nat :=
  let ctl := recField r 0x10
  let gd := recField r 0x08
  let pipes := recField r 0x78
  let place := recField r 0x70
  let recs := recField r 0x38
  let rbuf := recField r 0xB8
  let b := bits gd 19 0 * bits gd 39 20 * bits gd 59 40
  let st := bits ctl 4 0
  let m := bits ctl 13 10
  let hub := 0x4000000
  let checks : List (Nat × Bool) := [
    (0x08, decide (bits gd 63 60 ≠ 0)), (0x10, decide (bits ctl 63 25 ≠ 0)), (0x18, decide (bits (recField r 0x18) 63 12 ≠ 0)),
    (0x38, decide (bits recs 31 26 ≠ 0)), (0x70, decide (bits place 63 26 ≠ 0)), (0x78, decide (bits pipes 63 32 ≠ 0)),
    (0xB8, decide (bits rbuf 63 48 ≠ 0 ∨ bits rbuf 31 26 ≠ 0)), (0xC0, decide (r / 2 ^ 1536 % 2 ^ 512 ≠ 0)),
    (0x08, decide (b = 0 ∨ 2 ^ 40 - 1 < b)), (0x10, decide (st = 0 ∨ (if bit ctl 5 then 12 else 24) < st)),
    (0x10, decide (bits ctl 9 8 = 3) || (decide (bits ctl 9 8 = 2) && !bit ctl 5)),
    (0x10, decide (m = 1 ∨ 8 < m ∨ (m ≠ 0 ∧ b % m ≠ 0) ∨ (bits pipes 31 26 ≠ 0 ∧ m < 2))),
    (0x78, decide (32 < bits pipes 31 26)),
    (0x10, decide (bits ctl 17 14 = 0)), (0x80, decide (r / 2 ^ 1024 % 2 ^ 256 = 0)),
    (0x38, decide (hub < bits recs 25 0 + 2048) || (List.range 8).any (fun i => decide (2 < bits recs (35 + 4 * i) (32 + 4 * i)))),
    (0x70, decide (place ≠ 0 ∧ hub < bits place 25 0 + 4 * b)), (0x78, decide (hub < bits pipes 25 0 + 8 * bits pipes 31 26)),
    (0xB8, decide (bits rbuf 25 0 % 32 ≠ 0 ∨ hub < bits rbuf 25 0 + 32 * bits rbuf 47 32)),
    (0x20, !rootOk (recField r 0x20))]
  (checks.find? Prod.snd).map Prod.fst

/-- The grid that a record describes, as the root takes it in one step. -/
def gridOf (s : State) (caller sc owner stream recPa : Nat) (r : Nat) : Grid :=
  let h := hubSram (moduleOf caller)
  let ctl := recField r 0x10
  let gd := recField r 0x08
  let m := bits ctl 13 10
  let pipes := recField r 0x78
  let place := bits (recField r 0x70) 25 0
  let b := bits gd 19 0 * bits gd 39 20 * bits gd 59 40
  { owner := owner, asn := bits (recField r 0x18) 11 0, root := recField r 0x20, caller := caller, callerSc := sc, stream := stream
    order := s.fresh, recPa := recPa, gdim := w64 gd, strands := bits ctl 4 0, paired := bit ctl 5, pclass := bits ctl 7 6, fpol := bits ctl 9 8
    entries := if m = 0 then [w64 (recField r 0)] else (List.range m).map (fun i => w64 (peek8 s (h + recField r 0 % 2 ^ 26 + 8 * i)))
    quarters := bits ctl 17 14, modules := (List.range 256).filter (fun i => bit r (1024 + i))
    tvec := w64 (recField r 0x28), tdeleg := w64 (recField r 0x30), args := (List.range 4).map (fun i => w64 (recField r (0x50 + 8 * i)))
    rbuf := bits (recField r 0xB8) 25 0, rbufSize := bits (recField r 0xB8) 47 32, cev := bits ctl 24 18, gang := m, blocks := b
    pipes := (List.range (bits pipes 31 26)).map (fun i =>
      let e := peek8 s (h + bits pipes 25 0 + 8 * i)
      ⟨bits e 63 42, bits e 41 29, bits e 28 22, bits e 21 16, bits e 15 12, bits e 11 8, bits e 7 4, bits e 3 0⟩)
    places := if place = 0 then [] else (List.range b).map (fun i => peekN s (h + place + 4 * i) 4 % 2 ^ 18)
    images := (List.range 64).map (fun i => recOf (memRead s.mem (h + bits (recField r 0x38) 25 0 + 32 * i) 32))
    kinds := bits (recField r 0x38) 63 32, lspad := recField r 0x40, lvault := recField r 0x48
    state := 1, reason := 0, faults := 0, done := 0, ends := 0, started := 0, cancelled := false, killed := false, trunc := false
    killMode := false, held := [], asking := [], stopped := [], accepted := [], seen := [], removal := none, firstFault := [], causes := []
    startedIv := [], doneBy := [], faultedBy := [], redNotes := [], used := [] }

/-- The latest grid of a record. -/
def gridAt (s : State) (recPa : Nat) : Option (Nat × Grid) := (s.grids.filter (fun e => decide (e.2.recPa = recPa))).foldl
  (fun o e => match o with | none => some e | some b => if b.2.order < e.2.order then some e else o) none

/-- The root accepts a record: its number, state 1, and the grid on its way to dealing in 14 cycles (R321). -/
def acceptGrid (caller sc owner stream recPa : Nat) (s : State) : State :=
  let m := moduleOf caller
  let n := (hubAt s m).launches
  let g := m * 2 ^ 24 + n % 2 ^ 24
  let q := gridOf s caller sc owner stream recPa (peekN s recPa 256)
  let s := bump { s with grids := tput s.grids g q }
  sched 14 (.dealingGrant g 0) (writeRecord g (modHub m (fun h => { h with launches := n + 1 }) s))

/-! ### launch, lwait, cancel (R314, R317, R325) -/

/-- A Caller instruction, outside the Caller 0x02 (R50). -/
def callerOp (i : Instr) (srcs dsts : List Nat) (f : State → State) (s : State) : State :=
  allowed i false true false (decodeOk false srcs dsts false f) s

/-- The record that sa names: aligned, in hub SRAM of this module; that of another partition is beyond the strand's reach (R334). -/
def withRecord (v : Word) (f : Nat → State → State) (s : State) : State :=
  if v.toNat % 256 ≠ 0 then raise 3 v s
  else withTr v true true false (fun pa _ _ s =>
    match space s pa with
    | .hub m _ => if m ≠ moduleOf s.here then raise 6 v s else if hubBarred s s.me pa then raise 10 (w64 (homeOf pa)) s else f pa s
    | _ => raise 6 v s) s

/-- A `cdisc` of the strand has not completed. -/
def discarding (s : State) (id : Nat) : Bool := s.ops.any (fun o => decide (o.2.sid = id ∧ o.2.kind = .cdisc ∧ o.2.grid = none))

/-- What a launch waits for. -/
def launchHeld (s : State) (id : Nat) : Bool := discarding s id || quarterHeld s (moduleOf (strandAt s id).place) ((strandAt s id).slot / 8)

def execLaunch (l : BitVec 1) (a : BitVec 5) (k : BitVec 1) (s : State) : Out :=
  .next (callerOp (.launch l a k) [a.toNat] [] (fun s =>
    withRecord (rv s a) (fun pa s =>
      if launchHeld s s.cur then park .launch s
      else
        let r := peekN s pa 256
        match recordError r with
        | some o => raise 4 (w64 o) s
        | none =>
          if bits (recField r 0xA8) 2 0 = 1 ∨ bits (recField r 0xA8) 2 0 = 2 then raise 4 0xA8 s
          else retire k (dropL l a.toNat (acceptGrid s.here s.mySc s.me.owner s.cur pa s))) s) s)

/-- The state word that `lwait` reads: the root's own copy, or the record's where no grid of it was accepted. -/
def recordState (s : State) (pa : Nat) : Word := match gridAt s pa with | some (_, q) => stateWord q | none => w64 (peek8 s (pa + 0xA8))

/-- The state that `lwait` waits for. -/
def stateEnded (w : Word) : Bool := let t := w.toNat % 8; decide (t = 0 ∨ t = 3 ∨ t = 4)

def execLwait (l : BitVec 1) (a d : BitVec 5) (k : BitVec 1) (s : State) : Out :=
  .next (callerOp (.lwait l a d k) [a.toNat] [d.toNat] (fun s =>
    withRecord (rv s a) (fun pa s =>
      let w := recordState s pa
      if stateEnded w then retire k (dropL l a.toNat (wr d.toNat w s)) else park (.lwait pa d (if l = 1 then some a.toNat else none) k) s) s) s)

def execCancel (l : BitVec 1) (b a : BitVec 5) (k : BitVec 1) (s : State) : Out :=
  .next (callerOp (.cancel l b a k) [a.toNat, b.toNat] [] (fun s =>
    withRecord (rv s a) (fun pa s =>
      if 2 ≤ (rv s b).toNat then raise 4 (rv s b) s
      else
        let go (s : State) : State :=
          match gridAt s pa with
          | none => s
          | some (g, q) =>
            if q.state ≠ 1 ∧ q.state ≠ 2 then s
            else if rv s b = 1 then removeGrid g s
            else if q.cancelled then s else cancelGrid g s
        retire k (dropL l a.toNat (go s))) s) s)

/-! ### cpref, cdisc (R326) -/

def cacheIssue (kind : OpKind) (i : Instr) (l : BitVec 1) (n a b : BitVec 5) (k : BitVec 1) (s : State) : State :=
  callerOp i [a.toNat, b.toNat] [] (fun s =>
    let w := (rv s b).toNat
    let len := bits w 31 0
    if bits w 62 32 ≠ 0 then raise 4 (rv s b) s
    else if len = 0 then retire k (dropL l a.toNat s)
    else withRange n (rv s a) len (fun va s =>
      withQ8 (bit w 63) (fun s =>
        let o : Op := { newOp kind s with cls := 4, tok := bit w 63, src := va, dst := va, len := len, policy := policyOf s 0 0 (rec5 n) }
        let id := s.fresh
        let s1 := startOp o s
        let s2 := if o.tok then modMySc (fun q => { q with q8res := q.q8res + 1 }) s1 else s1
        retire k (dropL l a.toNat (sched 8 (.courierPieceLaunch id) s2))) s) s) s

def execCpref (l : BitVec 1) (n a b : BitVec 5) (k : BitVec 1) (s : State) : Out := .next (cacheIssue .cpref (.cpref l n a b k) l n a b k s)
def execCdisc (l : BitVec 1) (n a b : BitVec 5) (k : BitVec 1) (s : State) : Out := .next (cacheIssue .cdisc (.cdisc l n a b k) l n a b k s)

/-! ### evsig, evwait (R327) -/

/-- A remote signal is dropped at a module: the landlord's log and the owner's Caller have the report (R67, R327, R350). -/
def signalLost (m what owner : Nat) (s : State) : State :=
  ownerReport m owner (mcLog m logKeyFail 10 owner (hubOf m) (w64 what) s)

def execEvsig (l : BitVec 1) (a : BitVec 5) (k : BitVec 1) (s : State) : Out :=
  .next (callerOp (.evsig l a k) [a.toNat] [] (fun s =>
    let v := (rv s a).toNat
    let m := moduleOf s.here
    let e := bits v 5 0
    if bits v 63 17 ≠ 0 ∨ bits v 7 6 ≠ 0 then raise 4 (rv s a) s
    else if bit v 16 ∧ bits v 15 8 ≠ m then
      let d := bits v 15 8
      let s1 := if (hopsOf s s.here (hubOf d)).isEmpty ∨ !inPod s m d then signalLost m d s.me.owner s
        else send s.me.owner s.here (hubOf d) (leg s s.here (hubOf d)) (.remoteEvsigArrival d e s.me.owner) s
      retire k (dropL l a.toNat s1)
    else if eventOwner s m e ≠ s.me.owner then raise 6 (rv s a) s
    else retire k (dropL l a.toNat (signalEvent m e s))) s)

/-- A remote signal arrives: the event's owner and the link key are checked. -/
def remoteSignal (m e owner : Nat) (s : State) : State :=
  if keyValid s m owner = false ∨ eventOwner s m e ≠ owner then signalLost m e owner s else signalEvent m e s

def execRemoteEvsigArrival (m e owner : Nat) (s : State) : Out := .next (remoteSignal m e owner s)

def execEvwait (l : BitVec 1) (a d : BitVec 5) (k : BitVec 1) (s : State) : Out :=
  .next (callerOp (.evwait l a d k) [a.toNat] [d.toNat] (fun s =>
    let v := (rv s a).toNat
    let m := moduleOf s.here
    let e := bits v 5 0
    if bits v 31 6 ≠ 0 then raise 4 (rv s a) s
    else if eventOwner s m e ≠ s.me.owner then raise 6 (rv s a) s
    else
      let c := (tget (hubAt s m).events e).getD 0
      if 0 < c then
        retire k (dropL l a.toNat (wr d.toNat 1 (modHub m (fun h => { h with events := tput h.events e (c - 1) }) s)))
      else
        let id := s.fresh
        let w : EvWait := ⟨id, s.cur, e, d.toNat, if l = 1 then [a.toNat] else [], k⟩
        let s1 := park .evwait (bump (modHub m (fun h => { h with evwaits := h.evwaits ++ [w] }) s))
        if bits v 63 32 = 0 then s1 else sched (bits v 63 32) (.eventWaitTimeout m id) s1) s)

def execEventWaitTimeout (m id : Nat) (s : State) : Out :=
  .next (match (hubAt s m).evwaits.find? (fun w => w.id == id) with | some w => evFinish m w 0 s | none => s)

/-! ### Virtual-function queues (R328 to R331) -/

/-- The configuration of a VF. -/
def vfCfg (s : State) (m vf : Nat) : Nat := ctlGet s m (0x170000 + 8 * vf)
def vfTag (c : Nat) : Nat := bits c 63 60

/-- The handle of an entry. -/
def handleOf (e : VFEntry) : Word := w64 (e.tag * 2 ^ 60 + e.vf * 2 ^ 56 + e.slot * 2 ^ 44 + e.at_)

/-- Its wait holds. -/
def waitHolds (h : Hub) (e : VFEntry) : Bool :=
  let w := ((e.words[0]?).getD 0).toNat
  !bit w 63 || decide ((((tget h.dep (64 * e.vf + bits w 61 56)).getD 0).toNat + 2 ^ 32 - bits w 31 0) % 2 ^ 32 < 2 ^ 31)

/-- A notice of the mailbox for a VF's Caller scalar core (R331). -/
def vfNotice (m vf : Nat) (h : Word) (s : State) : State :=
  sched 1 (.noticeArrival ⟨11, hubOf m, bits (vfCfg s m vf) 1 0, 0, w64 (h.toNat / 2 ^ 44 * 2 ^ 44), hubOf m⟩) s

def execVfq (l : BitVec 1) (a d : BitVec 5) (k : BitVec 1) (s : State) : Out :=
  .next (callerOp (.vfq l a d k) [a.toNat] [d.toNat] (fun s =>
    let v := (rv s a).toNat
    let m := moduleOf s.here
    if 16 ≤ v then raise 4 (rv s a) s
    else if vfTag (vfCfg s m v) ≠ s.me.owner ∧ s.me.owner ≠ 0 then raise 6 (rv s a) s
    else
      let h := hubAt s m
      match h.vfq.find? (fun e => decide (e.vf = v) && !e.taken && waitHolds h e) with
      | none => retire k (dropL l a.toNat (wr d.toNat 0 s))
      | some e =>
        let s1 := modHub m (fun h => { h with vfq := lmod (fun x => decide (x.vf = v ∧ x.slot = e.slot)) (fun x => { x with taken := true }) h.vfq }) s
        retire k (dropL l a.toNat (wr d.toNat (handleOf e) s1))) s)

def execVfdone (l : BitVec 1) (a : BitVec 5) (k : BitVec 1) (s : State) : Out :=
  .next (callerOp (.vfdone l a k) [a.toNat] [] (fun s =>
    let m := moduleOf s.here
    match (hubAt s m).vfq.find? (fun e => e.taken && decide (handleOf e = rv s a)) with
    | none => raise 6 (rv s a) s
    | some e =>
      if e.tag ≠ s.me.owner ∧ s.me.owner ≠ 0 then raise 6 (rv s a) s
      else
        let w := ((e.words[0]?).getD 0).toNat
        let c := 64 * e.vf + bits w 55 50
        let v : BitVec 32 := (tget (hubAt s m).dep c).getD 0 + BitVec.ofNat 32 ((e.words[1]?).getD 0).toNat
        let sig := bit w 62
        let r : Word × Word := (rv s a, if sig then w64 (bits w 55 50 * 2 ^ 32 + v.toNat) else 0)
        let s1 := modHub m (fun h => { h with
          dep := if sig then tput h.dep c v else h.dep
          vfq := h.vfq.filter (fun x => !decide (x.vf = e.vf ∧ x.slot = e.slot))
          fns := tmod h.fns e.vf FnRegs.reset (fun f => { f with waiting := f.waiting ++ [r] }) }) s
        let s2 := sched 0 (.completionRecordWrite m e.vf) (if sig then vfNotice m e.vf (rv s a) s1 else s1)
        retire k (dropL l a.toNat s2)) s)

end

end Sys2Proof.Machine
end

