-- ==== Sys2Proof/Machine/Manage.lean ====
section
/-! DEFINITION. Partitions (R334 to R344), windows (R345 to R347), link keys (R348), the vault drop (R351, R352), strand
control (R358, R359), sensors and trips (R394, R401, R403), the MC's flash and reports (R395 to R397), resets (R399, R400). -/

namespace Sys2Proof.Machine

open Sys2Proof

noncomputable section

/-! ### Partition commands (R339 to R344) -/

def qOwner (s : State) (m q : Nat) : Nat := bits (ctlGet s m 0x100000) (16 * q + 7) (16 * q + 4)
def qPid (s : State) (m q : Nat) : Nat := bits (ctlGet s m 0x100000) (16 * q + 1) (16 * q)
def setQst (m q v : Nat) (s : State) : State :=
  let w := ctlGet s m 0x100038
  ctlPut m 0x100038 (w - bits w (4 * q + 3) (4 * q) * 2 ^ (4 * q) + v * 2 ^ (4 * q)) s

/-- The quarters of a mask, ascending. -/
def quartersOf (mask : Nat) : List Nat := (List.range 4).filter (bit mask)
def lowestQ (mask : Nat) : Nat := ((quartersOf mask).head?).getD 0

/-- The mask is a run of adjacent quarters of one owner. -/
def isRun (s : State) (m mask : Nat) : Bool :=
  let qs := quartersOf mask
  let lo := lowestQ mask
  !qs.isEmpty && qs == (List.range qs.length).map (lo + ·) && qs.all (fun q => decide (qOwner s m q = qOwner s m lo))

/-- pm.stat after a command (R339). -/
def pmStat (m reason quarter vf : Nat) (s : State) : State :=
  ctlPut m 0x100030 (if reason = 0 then 0 else quarter * 2 ^ 16 + vf * 2 ^ 8 + reason * 16 + 1) s

/-- The dispatchers of a quarter take up what they hold, and ask again (R340). -/
def kickQuarter (m q : Nat) (s : State) : State :=
  let towers := (List.range 8).map (fun i => nodeT (m * 32 + 4 * i + q))
  let clusters := (List.range 64).map (fun i => m * 256 + i / 4 * 16 + 4 * q + i % 4)
  let s := kickNode (nodeM m) s
  let s := towers.foldl (fun s n => kickNode n s) s
  clusters.foldl (fun s c =>
    let s := kickNode (nodeC c) s
    let s := if s.blocks.any (fun b => decide (b.2.st = .suspended ∧ clusterOf b.2.core = c)) then sched 0 (.blockStart 0 c) s else s
    (s.grids.filter (fun e => inSet e.2 (4 * c) && !(e.2.accepted.isEmpty))).foldl (fun s e => askIfShort e.1 (nodeC c) s) s) s

/-- The quarters whose partition holds a quarter of the mask. -/
def partsOf (s : State) (m mask : Nat) : List Nat :=
  (List.range 4).filter (fun q => (quartersOf mask).any (fun p => decide (qPid s m p = qPid s m q)))

def pmQuiesce (m mask : Nat) (s : State) : State :=
  if isRun s m mask = false then pmStat m 3 (lowestQ mask) 0 s
  else
    let s := (quartersOf mask).foldl (fun s q => if qst s m q = 0 then setQst m q 1 s else s) s
    pmStat m 0 0 0 ((partsOf s m mask).foldl (fun s q => sched 1 (.noticeArrival ⟨11, hubOf m, q, 0, 1, hubOf m⟩) s) s)

/-- Quarters set running; held launches wake by their own condition, held host writes go on. -/
def runQuarters (m : Nat) (qs : List Nat) (s : State) : State :=
  let s := qs.foldl (fun s q => setQst m q 0 s) s
  ((List.range 4).filter (fun q => qs.any (fun p => decide (qPid s m p = qPid s m q)))).foldl (fun s q => kickQuarter m q s) s

def pmResume (m mask : Nat) (s : State) : State :=
  if isRun s m mask = false then pmStat m 3 (lowestQ mask) 0 s
  else pmStat m 0 0 0 (runQuarters m ((quartersOf mask).filter (fun q => decide (qst s m q = 1 ∨ qst s m q = 2))) s)

/-- The lowest VF of the mask's Caller scalar cores with an entry that is accepted and not done. -/
def busyVf (s : State) (m mask : Nat) : Option Nat :=
  (List.range 16).find? (fun v => bit mask (bits (vfCfg s m v) 1 0) && (hubAt s m).vfq.any (fun e => e.vf == v))

def pmOpen (m mask : Nat) (s : State) : State :=
  if isRun s m mask = false then pmStat m 3 (lowestQ mask) 0 s
  else match (quartersOf mask).find? (fun q => decide (qst s m q ≠ 2)) with
  | some q => pmStat m 1 q 0 s
  | none => match busyVf s m mask with
    | some v => pmStat m 2 (bits (vfCfg s m v) 1 0) v s
    | none =>
      let s := (quartersOf mask).foldl (fun s q => setQst m q 3 s) s
      pmStat m 0 0 0 (modHub m (fun h => { h with shotDown := (List.range 4).foldl (fun a q => if bit h.shotDown q && !bit mask q then a + 2 ^ q else a) 0 }) s)

/-- The quarters whose routers a release looks at: those of the partitions that the mask's quarters form, and of the partitions beside them
that are not open, which a split leaves behind. -/
def checkedQuarters (s : State) (m mask : Nat) : List Nat :=
  let mine := partsOf s m mask
  let beside (q : Nat) : Bool := mine.any (fun p => decide (p = q + 1 ∨ q = p + 1)) && decide (qst s m q ≠ 3)
  (List.range 4).filter (fun q => mine.contains q || beside q)

/-- The configuration of R344: partitions are runs with one owner and the pid of their lowest quarter, and the routers of the
partitions formed carry it, with boundaries exactly at the partitions' edges. -/
def consistent (s : State) (m mask : Nat) : Bool :=
  let own (q : Nat) : Bool := decide (qPid s m q = q)
    || (decide (q ≠ 0 ∧ qPid s m q = qPid s m (q - 1) ∧ qOwner s m q = qOwner s m (q - 1)))
  (List.range 4).all own && (checkedQuarters s m mask).all (fun q => (List.range 64).all (fun i =>
    let x := 4 * q + i % 4
    let be : Bool := decide (x % 4 = 3 ∧ x < 15 ∧ qPid s m (q + 1) = q + 1)
    let bw : Bool := decide (x % 4 = 0 ∧ 0 < x ∧ qPid s m q = q)
    decide (rtCfg s (m * 256 + i / 4 * 16 + x) = b2n bw * 32 + b2n be * 16 + qPid s m q)))

def pmRelease (m mask : Nat) (s : State) : State :=
  match (quartersOf mask).find? (fun q => decide (qst s m q ≠ 3)) with
  | some q => pmStat m 1 q 0 s
  | none => match (quartersOf mask).find? (fun q => !bit (hubAt s m).shotDown q) with
    | some q => pmStat m 5 q 0 s
    | none => if consistent s m mask then pmStat m 0 0 0 (runQuarters m (quartersOf mask) s) else pmStat m 4 (lowestQ mask) 0 s

def execPmQuiesce (m mask : Nat) (s : State) : Out := .next (pmQuiesce m mask s)
def execPmOpen (m mask : Nat) (s : State) : Out := .next (pmOpen m mask s)
def execPmRelease (m mask : Nat) (s : State) : Out := .next (pmRelease m mask s)
def execPmResume (m mask : Nat) (s : State) : Out := .next (pmResume m mask s)

/-- A core lies in a quarter of a module. -/
def inQuarter (m q c : Nat) : Bool := isCore c && decide (moduleOf c = m ∧ quarterOf c = q)

/-- An operation's place belongs to the partition of a quarter: a core's quarter, or that of its Caller scalar core. -/
def ofPartition (s : State) (m q : Nat) (o : Op) : Bool :=
  decide (moduleOf o.place = m ∧ !isMc o.place) && decide (qPid s m (if isCore o.place then quarterOf o.place else o.sc) = qPid s m q)

/-- A quiescing quarter has no started block that has not ended, no grant in transit, no courier of its partition in flight (R340). -/
def quarterStill (s : State) (m q : Nat) : Bool :=
  s.blocks.all (fun b => decide (b.2.st = .out ∨ b.2.st = .ended) || !inQuarter m q b.2.core)
    && (coming s).all (fun e => match e with
      | .dealingGrant _ t =>
        let n := t - transit
        !(decide (transit ≤ t) && (match levelOf n with
          | 2 => decide ((n - 2 ^ 21) / 32 = m ∧ (n - 2 ^ 21) % 4 = q)
          | 3 => decide ((n - 2 ^ 22) / 256 = m ∧ (n - 2 ^ 22) % 16 / 4 = q)
          | _ => false))
      | _ => true)
    && s.pieces.all (fun p => !(decide (1 ≤ p.2.stage ∧ p.2.stage ≤ 4) && (tget s.ops p.2.op).any (ofPartition s m q)))
    && s.rmsgs.all (fun r => !ofPartition s m q r.2.o)

def quiesced (m q : Nat) (s : State) : State := if qst s m q = 1 ∧ quarterStill s m q then setQst m q 2 s else s
def execQuarterQuiesced (m q : Nat) (s : State) : Out := .next (quiesced m q s)

/-! ### Windows (R345 to R347) -/

def winOff (cl i : Nat) : Nat := 0x120000 + 0x100 * (cl % 256) + 0x10 * i
def winD0 (s : State) (cl i : Nat) : Nat := ctlGet s (cl / 256) (winOff cl i)
def winD1 (s : State) (cl i : Nat) : Nat := ctlGet s (cl / 256) (winOff cl i + 8)

/-- The range lies within one core of the router's cluster. -/
def winRangeOk (cl d0 d1 : Nat) : Bool :=
  let base := bits d0 55 16 * 65536
  let n := bits d1 23 0 * 65536
  decide (0 < n) && decide (isCore (homeOf base) ∧ homeOf base = homeOf (base + n - 1) ∧ clusterOf (homeOf base) = cl)

/-- Opens a closed window; false when the write is refused. -/
def openWindow (cl i d0 d1 : Nat) (s : State) : State × Bool :=
  if bits (winD0 s cl i) 1 0 ≠ 0 ∨ bits d0 1 0 ≠ 1 ∨ bits d0 59 58 ≠ 0 ∨ bits d0 15 2 ≠ 0 ∨ bits d1 63 24 ≠ 0 ∨ winRangeOk cl d0 d1 = false then (s, false)
  else (ctlPut (cl / 256) (winOff cl i + 8) d1 (ctlPut (cl / 256) (winOff cl i) d0 s), true)

/-- Starts the revocation of an open window: from now on no arrival is admitted. -/
def revokeWindow (cl i : Nat) (s : State) : State × Bool :=
  let d := winD0 s cl i
  if bits d 1 0 = 1 then (ctlPut (cl / 256) (winOff cl i) (d + 1) s, true) else (s, false)

def closeWindow (cl i : Nat) (s : State) : State × Bool :=
  let d := winD0 s cl i
  if bits d 1 0 = 3 then (ctlPut (cl / 256) (winOff cl i) (d - 3) s, true) else (s, false)

def execWindowOpen (cl i : Nat) (d0 d1 : Word) (s : State) : Out := .next (openWindow cl i d0.toNat d1.toNat s).1
def execWindowRevoke (cl i : Nat) (s : State) : Out := .next (revokeWindow cl i s).1
def execWindowClose (cl i : Nat) (s : State) : Out := .next (closeWindow cl i s).1

/-- A guest that this entry let in and that still stands there. -/
def admittedGuest (cl i : Nat) (x : Strand) : Bool := !x.away && decide (x.letInBy = some (8 * cl + i))

/-- A guest is sent home in N1 with cause 0x0A (R67, R347). -/
def sendHome (id : Nat) (s : State) : State :=
  let x := strandAt s id
  let s := withdraw id false (leaveMeeting id .evicted s)
  let pk : Packet := {
    sid := id, src := x.place, dest := x.native, pref := none, trip := .stopped x.place x.pc, cls := 1, luggage := [], bad := []
    epoch := (coreAt s x.place).epoch, win := true, truncated := false, k := 0, taken := none }
  launchPacket pk x.owner false (modPair id (fun x => { x with away := true, park := none, lug := none, meetOp := none, carried := none, letInBy := none }) s)

/-- Guests of a revoking window that can leave now. -/
def leavers (s : State) (cl i : Nat) : List Nat :=
  (s.strands.filter (fun e => admittedGuest cl i e.2 && !trailS e.2 && e.2.flight.isNone && decide (e.2.readyAt ≤ s.now ∨ e.2.park.isSome))).map Prod.fst

/-- A request that has not been performed at a window's home is of an owner's: an access of a strand, a store, or a cache request or a
courier's. -/
def requestOf (s : State) (owner : Nat) (r : SliceReq) : Bool :=
  let ofStrand (i : Nat) : Bool := decide ((strandAt s i).owner = owner)
  match r.acc, r.what with
  | some a, _ => ofStrand a.sid
  | none, .storeAccepted i => s.stores.any (fun p => decide (p.id = i) && ofStrand p.sid)
  | none, .sliceCacheRequest pc => ((tget s.pieces pc).bind (fun p => tget s.ops p.op)).any (fun o => decide (o.owner = owner))
  | none, .courierPickUp pc => ((tget s.pieces pc).bind (fun p => tget s.ops p.op)).any (fun o => decide (o.owner = owner))
  | none, .courierSetDown pc => ((tget s.pieces pc).bind (fun p => tget s.ops p.op)).any (fun o => decide (o.owner = owner))
  | none, _ => false

/-- Nothing of the grantee is left at the window: no guest, and no access admitted there that has not been performed: a store, a piece, a
request at the slice, an operation on a full/empty word. -/
def windowIdle (s : State) (cl i : Nat) : Bool :=
  let d := winD0 s cl i
  let base := bits d 55 16 * 65536
  let top := base + bits (winD1 s cl i) 23 0 * 65536
  let inside (a : Nat) : Bool := decide (base ≤ a ∧ a < top)
  let owner := bits d 63 60
  s.strands.all (fun e => !admittedGuest cl i e.2)
    && (sliceAt s cl).waits.all (fun r => !(inside r.pa && requestOf s owner r))
    && (coreAt s (homeOf base)).fe.all (fun w => !(inside w.word && decide ((strandAt s w.sid).owner = owner)))
    && s.stores.all (fun p => !inside p.pa || decide ((strandAt s p.sid).owner ≠ bits d 63 60))
    && s.pieces.all (fun p => !(p.2.win && ((tget s.ops p.2.op).map Op.owner).getD 16 = bits d 63 60 && ((decide (p.2.stage = 2) && inside p.2.src) || (decide (p.2.stage = 4) && inside p.2.dst))))

/-- The acknowledgement: first the guests leave, then the state becomes 3. -/
def windowAck (cl i : Nat) (s : State) : State :=
  if bits (winD0 s cl i) 1 0 ≠ 2 then s
  else
    let s := (leavers s cl i).foldl (fun s id => sendHome id s) s
    if windowIdle s cl i then ctlPut (cl / 256) (winOff cl i) (winD0 s cl i + 1) s else s

def execWindowRevokedAck (cl i : Nat) (s : State) : Out := .next (windowAck cl i s)

/-! ### Link keys (R348) -/

/-- A key is written: the one before it becomes the old key for 2^20 cycles. -/
def putKey (m o : Nat) (key : BitVec 256) (first : Bool) (s : State) : State :=
  let k := (tget (hubAt s m).keys o).getD ⟨0, 0, 0⟩
  let s1 := modHub m (fun h => { h with keys := tput h.keys o (if first then ⟨key, k.key, s.now + 2 ^ 20⟩ else { k with key := key }) }) s
  if first then sched (2 ^ 20) (.oldKeyExpiry m o) s1 else s1

def execKeyWrite (m o : Nat) (key : BitVec 256) (s : State) : Out := .next (putKey m o key true s)

def expireKey (m o : Nat) (s : State) : State :=
  match tget (hubAt s m).keys o with
  | some k => if k.oldUntil ≤ s.now then modHub m (fun h => { h with keys := tput h.keys o { k with old := 0, oldUntil := 0 } }) s else s
  | none => s

def execOldKeyExpiry (m o : Nat) (s : State) : Out := .next (expireKey m o s)

/-! ### Dropping a pseudo-channel (R351, R352) -/

def vcOff (core : Nat) : Nat := 0x130008 + 16 * (core % 1024)
def vcStat (next pch state : Nat) : Nat := next * 65536 + pch * 4 + state
/-- Granules that a full vault's reduced layout holds. -/
def lastGranule : Nat := 5592403

/-- What refuses a drop (R351); a matrix, accumulator or loft command is an engine operation (R157). -/
def dropBlocked (s : State) (core : Nat) : Bool :=
  decide (vaultState s core ≠ 0) || s.strands.any (fun e => decide (e.2.run = .live) && (decide (e.2.place = core) && !e.2.away || decide (e.2.native = core)))
    || (coreAt s core).deque.any (fun p => decide (p.st = .held)) || s.ops.any (fun o => decide (o.2.place = core))
    || (coreAt s core).mrun.isSome || (coreAt s core).sc.toList.any (fun k => !k.mq.isEmpty)

/-- The lines of a vault are written back and dropped. -/
def emptyVaultLines (core : Nat) (s : State) : State :=
  let cl := clusterOf core
  let mine (l : SLine) : Bool := decide (homeOf (l.line * 128) = core)
  let k := sliceAt s cl
  let s := ((k.wb.filter mine) ++ (k.lines.filter mine)).foldl (fun s l => writeBack l s) s
  modSlice cl (fun k => { k with lines := k.lines.filter (fun l => !mine l), wb := k.wb.filter (fun l => !mine l) }) s

def startDrop (core pch : Nat) (s : State) : State × Bool :=
  if dropBlocked s core ∨ 2 < pch then (s, false)
  else
    let s := invalL1 core (emptyVaultLines core s)
    (sched 16 (.vaultGranuleMove core) (ctlPut (moduleOf core) (vcOff core) (vcStat lastGranule pch 1) s), true)

def execVaultDropGo (core pch : Nat) (s : State) : Out := .next (startDrop core pch s).1

/-- One granule moves; the bytes keep their addresses. With the last the capacity falls, and what lies beyond it is lost. -/
def moveGranule (core : Nat) (s : State) : State :=
  let v := ctlGet s (moduleOf core) (vcOff core)
  let next := bits v 39 16
  let pch := bits v 3 2
  if bits v 1 0 ≠ 1 then s
  else if next = 0 then
    let lo := vaultBase core + 0x55555400
    let hi := vaultBase core + 2 ^ 31
    let s := ctlPut (moduleOf core) (vcOff core) (vcStat 0 pch 2) s
    { s with mem := s.mem.filter (fun c => !decide (lo ≤ c.1 ∧ c.1 < hi)), poison := s.poison.filter (fun g => !decide (lo ≤ g * 32 ∧ g * 32 < hi)) }
  else sched 16 (.vaultGranuleMove core) (ctlPut (moduleOf core) (vcOff core) (vcStat (next - 1) pch 1) s)

def execVaultGranuleMove (core : Nat) (s : State) : Out := .next (moveGranule core s)

/-! ### Strand control (R358, R359) -/

/-- The strand of a slot's record: the one that stands there, else the slot's native strand, else a suspended one. -/
def slotStrand (s : State) (place slot : Nat) : Option (Nat × Strand × Bool) :=
  match holder s place slot with
  | some i => some (i, strandAt s i, false)
  | none =>
    let id := 32 * place + slot
    match tget s.strands id with
    | some x => some (id, x, false)
    | none => (tget s.store id).map (fun x => (id, x, true))

/-- sc.ctl.state: 0 free, 1 live, 2 held, 3 stopped or halted, 4 suspended, 5 idle. -/
def scState (s : State) (place slot : Nat) : Nat :=
  match slotStrand s place slot with
  | none => 0
  | some (_, _, true) => 4
  | some (_, x, false) => match x.run with | .live => 1 | .held => 2 | .stopped => 3 | .halted => 3 | .suspended => 4 | .idle => 5

/-- The trailing strand of a pair whose leading strand the Caller resumes: held too it resumes with it; else the trap that it
would still take is withdrawn, or passed over where it stands (R379). -/
def resumeTrailing (i : Nat) (skip : Bool) (s : State) : State :=
  let x := strandAt s i
  match x.partner with
  | none => s
  | some p =>
    let y := strandAt s p
    if y.run = .held then modIf p (fun y => { y with run := .live, pc := x.pc, readyAt := x.readyAt, park := none }) s
    else
      let isTrap (e : CmpEntry) : Bool := e.trap.isSome
      modIf p (fun y => { y with cause := x.cause, epc := x.epc, tval := x.tval })
        (modStrand i (fun x =>
          let cmp := if skip then lmod isTrap (fun e => { e with trap := some (63, 0) }) x.cmp else x.cmp.filter (fun e => !isTrap e)
          { x with cmp := cmp }) s)

/-- A held strand resumes at a PC. -/
def resumeAt (place slot : Nat) (skip : Bool) (s : State) : State × Bool :=
  match slotStrand s place slot with
  | some (i, x, false) =>
    if x.run = .held then
      let go (y : Strand) : Strand := { y with run := .live, pc := if skip then x.epc + 4 else x.epc, readyAt := s.now + 1, park := none }
      (resumeTrailing i skip (modStrand i go s), true)
    else (s, false)
  | _ => (s, false)

/-- Kill by command 3, of a live, held, stopped or suspended strand. -/
def scKillAt (place slot : Nat) (s : State) : State × Bool :=
  match slotStrand s place slot with
  | some (i, _, _) => if scState s place slot = 5 then (s, false) else (strandKill i 0 s, true)
  | none => (s, false)

def execScRetry (place slot : Nat) (s : State) : Out := .next (resumeAt place slot false s).1
def execScSkip (place slot : Nat) (s : State) : Out := .next (resumeAt place slot true s).1
def execScKill (place slot : Nat) (s : State) : Out := .next (scKillAt place slot s).1

/-! ### Sensors, warnings and trips (R394, R401 to R403) -/

/-- The module halts, and every grid that it roots or serves is removed; each owner of such a grid or of a quarter is told, and the
landlord (R403). -/
def tripModule (m cause : Nat) (s : State) : State :=
  let gs := s.grids.filter (fun e => (decide (e.2.state = 1 ∨ e.2.state = 2)) && (e.2.modules.contains m || decide (moduleOf e.2.caller = m)))
  let owners := (gs.map (fun e => e.2.owner) ++ (List.range 4).map (qOwner s m)).eraseDups
  let s := modHub m (fun h => { h with halted := true }) (mcLog m logThermal cause 0 (mcOf m) 0 s)
  let s := owners.foldl (fun s o => ownerReport m o s) s
  gs.foldl (fun s e => removeGrid e.1 (mcLog m logThermal cause e.2.owner (mcOf m) (w64 e.1) s)) s

/-- Sustained limits of the rails, in 0.1 A (R402). -/
def railLimit (k : Nat) : Nat := match k with | 0 => 130000 | 1 => 9000 | 2 => 12000 | 3 => 6000 | _ => 300

/-- The count of samples in a row at which the core rail was beyond its sustained limit. -/
def railRunOff : Nat := 0x1A0200

/-- A sample: every sensor takes a reading; warnings are logged, a trip halts the module. -/
def sampleSensors (m : Nat) (s : State) : State :=
  let offs := (List.range 32).map (fun t => (0x1A0000 + 8 * t, 0xFFFFFFFFFFFF)) ++ (List.range 5).map (fun k => (0x1A0100 + 8 * k, 2 ^ 64 - 1))
  let s := offs.foldl (fun s o => { ctlPut m o.1 ((Config.sensorReading s.oracle).toNat % (o.2 + 1)) s with oracle := s.oracle + 1 }) s
  let t (i : Nat) : Nat := ctlGet s m (0x1A0000 + 8 * i)
  let amps (k : Nat) : Nat := bits (ctlGet s m (0x1A0100 + 8 * k)) 47 24
  let high : Bool := decide (railLimit 0 < amps 0)
  let s := ctlPut m railRunOff (if high then ctlGet s m railRunOff + 1 else 0) s
  let hot (lo dr : Nat) : Bool := (List.range 32).any (fun i => decide (16 * lo < bits (t i) 15 0 ∨ 16 * dr < bits (t i) 47 32))
  let (trip, dtrip, warn, dwarn) := (hubAt s m).applied.limits
  if hot trip dtrip || decide (4 ≤ ctlGet s m railRunOff) then tripModule m 1 s
  else if hot warn dwarn || (List.range 5).any (fun k => decide (railLimit k < amps k)) then mcLog m logThermal 0 0 (mcOf m) 0 s
  else s

def execSensorSample (m : Nat) (s : State) : Out := .next (sampleSensors m s)
def execPllLockLoss (m : Nat) (s : State) : Out := .next (tripModule m 2 s)

/-! ### The MC's log, firmware and reports (R395 to R397) -/

def execLogEntrySelect (m : Nat) (i : Word) (s : State) : Out := .next (modHub m (fun h => { h with logSel := i.toNat }) s)

/-- Dword i of the entry that stands at the index selected in the ring. -/
def logDword (s : State) (m i : Nat) : Word :=
  let h := hubAt s m
  let at_ := (h.logSel + logRing - h.logFirst % logRing) % logRing
  if logRing ≤ h.logSel then 0
  else match h.log[at_]? with | some e => w64 (leNat (((entryBytes e).drop (8 * i)).take 8)) | none => 0

def fwStatus : Nat := 0x1B0020

/-- An update starts, or ends after the time it takes: the signature and the security version are checked, the inactive bank
is written and verified (R396). -/
def fwUpdate (m : Nat) (s : State) : State :=
  if ctlGet s m fwStatus ≠ 7 then schedFree (.fwUpdateStart m) (ctlPut m fwStatus 7 s)
  else
    let pa := ctlGet s m 0x1B0010
    let head := memRead s.mem pa 256
    let (sec, len) := Config.fwHeader head
    let image := memRead s.mem pa (min len 0x4000000)
    let r := if Config.ecdsaVerifies (Config.sha384 image) head = false then 1
      else if sec < (hubAt s m).applied.minVersion then 2
      else if Config.flashTakes s.oracle = false then 3 else 0
    let s := if r = 0 then modHub m (fun h => { h with flash := { h.flash with banks := tput h.flash.banks (1 - h.fwRunning) (head ++ image) } }) s else s
    mcLog m logFirmware r 0 (mcOf m) (w64 pa) { ctlPut m fwStatus r s with oracle := s.oracle + 1 }

def execFwUpdateStart (m : Nat) (s : State) : Out := .next (fwUpdate m s)

/-- The written bank is marked for the next boot. -/
def fwMark (m : Nat) (s : State) : State :=
  if ctlGet s m fwStatus = 0 then modHub m (fun h => { h with fwMarked := 2 - h.fwRunning }) s else s

def execFwBankMark (m : Nat) (s : State) : Out := .next (fwMark m s)

/-- The digest of the firmware in a bank: of the image written to it, or of the factory's. -/
def bankDigest (h : Hub) (m k : Nat) : BitVec 384 :=
  Config.sha384 ((tget h.flash.banks k).getD ((List.range 48).map (fun i => Config.vendorByte (m * 4096 + k * 64 + i))))

/-- The report of R397 over the block, and bit 0 of 0x1B_0038. -/
def attest (m owner : Nat) (pa : Word) (s : State) : State :=
  let a := pa.toNat
  if a % 512 ≠ 0 ∨ (match space s a with | .hub n _ => decide (n = m) | _ => false) = false then s
  else
    let h := hubAt s m
    let q := (List.range 4).foldl (fun n i => if qOwner s m i = owner then n + 2 ^ i else n) 0
    let body := leBytes 8 (1 + h.applied.number.getD m * 256) ++ memRead s.mem a 48 ++ leBytes 48 (bankDigest h m h.fwRunning).toNat
      ++ leBytes 48 (Config.sha384 h.applied.bytes).toNat ++ leBytes 8 (owner % 16 + q * 16) ++ leBytes 8 (bits (ctlGet s m (0x140020 + 0x40 * owner)) 15 8)
      ++ leBytes 8 h.bootCount
    let sig := Config.ecdsaSign s.oracle (Config.sha384 body)
    { ctlPut m 0x1B0038 1 (pokeBytes a (body ++ leBytes 96 sig.toNat) s) with oracle := s.oracle + 1 }

def execAttestationRequest (m owner : Nat) (pa : Word) (s : State) : Out := .next (attest m owner pa s)

end

end Sys2Proof.Machine
end

