-- ==== Sys2Proof/Machine/Migrate.lean ====
section
/-! DEFINITION. Moving a core: migration, checkpoint and restore (R370, R371), and forwarding (R372). -/

namespace Sys2Proof.Machine

open Sys2Proof

noncomputable section

/-! ### The status register and what refuses an operation (R370) -/

def mgImg (s : State) (m : Nat) : Nat := bits (ctlGet s m 0x260008) 55 24 * 2 ^ 24
def mgStat (m src reason state : Nat) (s : State) : State :=
  ctlPut m 0x260010 ((tget (hubAt s m).ckpt src).getD 0 * 2 ^ 32 + reason * 16 + state) s

/-- A destination is free: no slot in use, no tile, frame or lock, no grid's context. -/
def coreFree (s : State) (core : Nat) : Bool :=
  let k := coreAt s core
  s.strands.all (fun e => decide (e.2.native ≠ core) && (e.2.away || decide (e.2.place ≠ core)))
    && s.store.all (fun e => decide (e.2.native ≠ core))
    && k.tiles.all (fun t => !t.2.defined) && k.deque.isEmpty && k.locks.isEmpty && k.ctx.isEmpty

/-- The whole image lies in a vault. -/
def imageInVault (s : State) (img : Nat) : Bool :=
  (match space s img with | .vault _ _ => true | _ => false) && (match space s (img + 0xFFFFFF) with | .vault _ _ => true | _ => false)

/-- The header's place in an image. -/
def mgHeader : Nat := 0x0D3C800

/-- Why an operation is refused: 0 when it is accepted. -/
def mgReason (s : State) (m op src dst : Nat) : Nat :=
  let c := m * 1024 + src
  let img := mgImg s m
  if (hubAt s m).mg.isSome then 1
  else if op = 1 then
    if coreFree s (m * 1024 + dst) = false then 2 else if partitionOf s c 0 ≠ partitionOf s (m * 1024 + dst) 0 then 3 else 0
  else if imageInVault s img = false then 4
  else if op = 4 then
    if coreFree s c = false then 2
    else if leNat (sliceRead s (img + mgHeader) 8) % 1024 ≠ src then 5 else 0
  else 0

/-! ### Images -/

/-- The three SRAMs in image order: image offset, SRAM-space offset, size, first poison bit. -/
def imageParts : List (Nat × Nat × Nat × Nat) :=
  [(0, 0, 0x400000, 0), (0x400000, 0x20000000, 0x800000, 0x20000), (0xC00000, 0x28000000, 0x100000, 0x60000)]

/-- The listed bytes of a range. -/
def cellsIn (s : State) (lo n : Nat) : List Host.Cell := s.mem.filter (fun c => decide (lo ≤ c.1 ∧ c.1 < lo + n))
def clearRange (lo n : Nat) (s : State) : State :=
  { s with mem := s.mem.filter (fun c => !decide (lo ≤ c.1 ∧ c.1 < lo + n)), poison := s.poison.filter (fun g => !decide (lo ≤ g * 32 ∧ g * 32 < lo + n)) }

/-- The bytes, poison and full/empty bits of one range copied to another that has been cleared. -/
def copyRange (a b n : Nat) (s : State) : State :=
  let s1 := (cellsIn s a n).foldl (fun s c => pokeBytes (c.1 - a + b) [c.2] s) s
  let s2 := (s.poison.filter (fun g => decide (a ≤ g * 32 ∧ g * 32 < a + n))).foldl (fun s g => setPoison ((g * 32 - a + b) / 32) s) s1
  (s.empties.filter (fun w => decide (a ≤ w * 8 ∧ w * 8 < a + n))).foldl (fun s w => setEmpty (w * 8 - a + b) s) s2

/-- Sets bit i of a bit map at a. -/
def setMapBit (a i : Nat) (s : State) : State := pokeBytes (a + i / 8) [memGet s.mem (a + i / 8) ||| (1 <<< (i % 8))] s
/-- The bits set in a map of n bytes. -/
def mapBits (s : State) (a n : Nat) : List Nat :=
  (cellsIn s a n).flatMap (fun c => ((List.range 8).filter (fun i => c.2.getLsbD i)).map (fun i => (c.1 - a) * 8 + i))

/-- Lines of a vault that a stream reads or overwrites leave the slice. -/
def settleLines (lo n : Nat) (s : State) : State :=
  let cl := clusterOf (homeOf lo)
  let mine (l : SLine) : Bool := decide (lo ≤ l.line * 128 ∧ l.line * 128 < lo + n)
  let k := sliceAt s cl
  let s := ((k.wb.filter mine) ++ (k.lines.filter mine)).foldl (fun s l => writeBack l s) s
  invalL1Range (homeOf lo) lo n (modSlice cl (fun k => { k with lines := k.lines.filter (fun l => !mine l), wb := k.wb.filter (fun l => !mine l) }) s)

/-- The strands of a core that a migration operation took to the store: those of its blocks that are not suspended by a
dispatcher. -/
def takenOf (s : State) (core : Nat) : Tbl Strand :=
  s.store.filter (fun e => decide (e.2.native = core) && (match tget s.blocks e.2.block with | some b => decide (b.st ≠ .suspended) | none => true))

/-- They resume in their slots (R371). -/
def resumeTaken (core : Nat) (s : State) : State :=
  (takenOf s core).foldl (fun s e => moveFloor (storeFloor e.1) (floorAt e.2.native e.2.nslot)
    { s with strands := tput s.strands e.1 { e.2 with readyAt := s.now + 1 }, store := tdel s.store e.1 }) s

/-- What an image's header names: a core and the number of its checkpoint. -/
def imageKey (core n : Nat) : Nat := core * 2 ^ 32 + n % 2 ^ 32

/-- The image of a core, written to its range; the strands stand in their slots. -/
def capture (m src : Nat) (s : State) : State :=
  let core := m * 1024 + src
  let img := mgImg s m
  let n := (tget (hubAt s m).ckpt src).getD 0 + 1
  let s := clearRange img (2 ^ 24) (settleLines img (2 ^ 24) s)
  let s := (s.store.filter (fun e => decide (e.2.native = core))).foldl (fun s e => moveFloor (storeFloor e.1) (floorAt core e.2.nslot) s) s
  let s := imageParts.foldl (fun s p => (cellsIn s (sramBase core + p.2.1) p.2.2.1).foldl (fun s c => pokeBytes (c.1 - (sramBase core + p.2.1) + img + p.1) [c.2] s) s) s
  let s := (s.empties.filter (fun w => decide (sramBase core ≤ w * 8 ∧ w * 8 < sramBase core + 0x400000))).foldl (fun s w => setMapBit (img + 0xD00000) (w - sramBase core / 8) s) s
  let s := imageParts.foldl (fun s p =>
    let lo := sramBase core + p.2.1
    (s.poison.filter (fun g => decide (lo ≤ g * 32 ∧ g * 32 < lo + p.2.2.1))).foldl (fun s g => setMapBit (img + 0xD10000) (p.2.2.2 + g - lo / 32) s) s) s
  let s : State := pokeBytes (img + 0xD20000) ((List.range (mgHeader - 0xD20000)).map (Config.imageByte s.oracle)) { s with oracle := s.oracle + 1 }
  let here := s.strands.filter (fun e => decide (e.2.native = core) && !e.2.away)
  let held := s.store.filter (fun e => decide (e.2.native = core))
  let s := (held ++ here).foldl (fun s e => pokeBytes (img + 0xD20000 + 512 * e.2.nslot) (frameBytes e.2 e.2.pc 0 0 0) s) s
  let s := pokeBytes (img + mgHeader) (leBytes 8 (n % 2 ^ 32 * 2 ^ 32 + src)) s
  let s := ctlPut m (dbgOff core + 0x10) (n % 2 ^ 32 * 2 ^ 32) (modHub m (fun h => { h with ckpt := tput h.ckpt src (n % 2 ^ 32) }) s)
  { s with images := tput s.images (imageKey core n) ⟨core, cycleOf s m, coreAt s core, here, held⟩, arrivals := tput s.arrivals core [] }

/-- What a core keeps when its state goes: caches, the translation epoch, refills. -/
def bare (k : Core) : Core := { Core.reset with l1 := k.l1, refills := k.refills, tlb := k.tlb, epoch := k.epoch, fw := k.fw }

/-- The other parts of a core as an image or a migration brings them. -/
def dressed (k new : Core) : Core := { new with l1 := k.l1, refills := k.refills, tlb := k.tlb, epoch := k.epoch, fw := k.fw }

/-- The blocks that a checkpoint takes away from a core. -/
def outBlock (s : State) (core key : Nat) : Bool := (tget s.blocks key).any (fun b => decide (b.core = core ∧ b.st = .out))
/-- Their operations and strands. -/
def outOp (s : State) (core : Nat) (o : Op) : Bool := outBlock s core o.block
def outStrand (s : State) (core id : Nat) : Bool := decide (id / 32 = core) && ((tget s.strands id).any (fun x => outBlock s core x.block) || (tget s.store id).any (fun x => outBlock s core x.block))

/-- The grid number under which the shoot-downs of a core's removal run; no grid has it. -/
def outShot (core : Nat) : Nat := 2 ^ 41 + core

/-- The action of step k of the removal of a checkpointed core's blocks (R371, R373). -/
def outAct (core k : Nat) (s : State) : State :=
  match k with
  | 1 =>
    let s : State := { s with blocks := s.blocks.map (fun b => if b.2.core = core ∧ b.2.st ≠ .ended then (b.1, { b.2 with st := .out }) else b) }
    let ids := (s.strands.filter (fun e => decide (e.2.native = core))).map Prod.fst
    let stored := (s.store.filter (fun e => decide (e.2.native = core))).map Prod.fst
    let s := stored.foldl (fun s i => killStored i 0 true false s) (ids.foldl (fun s i => killOne i 0 true false s) s)
    { s with thieves := s.thieves.filter (fun t => !outBlock s core t.2.block) }
  | 2 => modCore core (fun c => { c with sc := c.sc.map (fun q => { q with q10 := [], q10res := 0 }) }) s
  | 3 =>
    stopCouriers (outOp s core) ((writtenHeaders s core).foldl (fun s h => if (hdrAt s core h).live then failWaiting core h s else s) s)
  | 4 =>
    let ids := (s.ops.filter (fun o => outOp s core o.2)).map Prod.fst
    purgeWaits (outStrand s core) (ids.foldl (fun s i => finishOp i s) s)
  | 5 =>
    let s := (writtenHeaders s core).foldl (fun s h => if (hdrAt s core h).live then pokeBytes (sramBase core + h) (leBytes 64 0) s else s) s
    { s with cores := tmod s.cores core Core.reset (fun k => { bare k with filters := k.filters, copyq := k.copyq, launchAt := k.launchAt }) }
  | _ =>
    let spaces := ((s.strands ++ s.store).filterMap (fun e => if e.2.native = core ∧ outBlock s core e.2.block then some e.2.asn else none)).eraseDups
    spaces.foldl (fun s a => startShot ⟨some a, none⟩ (2 ^ 40) none (some (outShot core)) (· == core) (· == clusterOf core) s) s

/-- What step k waits for. -/
def outDone (s : State) (core k : Nat) : Bool :=
  match k with
  | 1 => s.strands.all (fun e => !outStrand s core e.1 || decide (e.2.run = .idle) && !e.2.away)
  | 3 => s.pieces.all (fun p => !(tget s.ops p.2.op).any (outOp s core)) && s.rmsgs.all (fun r => r.2.down || !outOp s core r.2.o)
  | 4 => s.stores.all (fun p => !outStrand s core p.sid) && slicesDone s (outStrand s core)
  | 6 => s.tlbis.all (fun t => decide (t.2.grid ≠ some (outShot core)))
  | _ => true

/-- The removal has ended: the core's slots are free. -/
def outEnd (core : Nat) (s : State) : State :=
  let mine (e : Nat × Strand) : Bool := outStrand s core e.1
  { s with strands := s.strands.filter (fun e => !mine e), store := s.store.filter (fun e => !mine e) }

/-- A core restored from checkpoint n that replays takes the first entry of that checkpoint's log at its cycle since the checkpoint,
and reads sr.cycle as in the logged run (R381). -/
def startReplay (core n cycle : Nat) (s : State) : State :=
  if replaying s core = false ∨ bits (ctlGet s (moduleOf core) (dbgOff core + 0x10)) 63 32 ≠ n then s
  else
    let s := ctlPut (moduleOf core) (skewOff core) ((cycle + 2 ^ 64 - cycleOf s (moduleOf core) % 2 ^ 64) % 2 ^ 64) s
    match tget s.arrivals core with
    | some (a :: _) => sched a.cycle (.replayDelivery core) (modCore core (fun k => { k with played := 0 }) s)
    | _ => s

/-- An image streamed into its core: what its layout fixes comes from the image's bytes, the rest from what was kept. -/
def restoreImage (m src : Nat) (s : State) : State :=
  let core := m * 1024 + src
  let img := mgImg s m
  let s := settleLines img (2 ^ 24) s
  let s := imageParts.foldl (fun s p =>
    let lo := sramBase core + p.2.1
    (cellsIn s (img + p.1) p.2.2.1).foldl (fun s c => pokeBytes (c.1 - (img + p.1) + lo) [c.2] s) (clearRange lo p.2.2.1 s)) s
  let s : State := { s with empties := s.empties.filter (fun w => !decide (sramBase core ≤ w * 8 ∧ w * 8 < sramBase core + 0x400000)) }
  let s := (mapBits s (img + 0xD00000) 0x10000).foldl (fun s i => setEmpty (sramBase core + 8 * i) s) s
  let s := imageParts.foldl (fun s p =>
    ((mapBits s (img + 0xD10000) 0x10000).filter (fun i => decide (p.2.2.2 ≤ i ∧ i < p.2.2.2 + p.2.2.1 / 32))).foldl
      (fun s i => setPoison ((sramBase core + p.2.1) / 32 + (i - p.2.2.2)) s) s) s
  let n := leNat (memRead s.mem (img + mgHeader) 8) / 2 ^ 32
  match tget s.images (imageKey core n) with
  | none => s
  | some k =>
    let ctx (x : Strand) : Strand := { restoreRegs (memRead s.mem (img + 0xD20000 + 512 * x.nslot) 192) x with readyAt := s.now + 1, run := x.run }
    let strands := (k.strands.filter (fun e => decide (e.2.native = core))).map (fun e => (e.1, ctx e.2))
    let held := k.store.filter (fun e => decide (e.2.native = core))
    let s := held.foldl (fun s e => moveFloor (floorAt core e.2.nslot) (storeFloor e.1) s) s
    let s : State := strands.foldl (fun s e => { s with strands := tput s.strands e.1 e.2 }) s
    let s : State := held.foldl (fun s e => { s with store := tput s.store e.1 e.2 }) s
    let keys := (strands ++ held).map (fun e => e.2.block)
    startReplay core n k.cycle { s with
      cores := tmod s.cores core Core.reset (fun c => dressed c k.part)
      blocks := s.blocks.map (fun b => if b.2.st = .out ∧ keys.contains b.1 then
        (b.1, { b.2 with st := if held.any (fun e => e.2.block == b.1) then .suspended else .running }) else b) }

/-! ### Migration (R371, R372) -/

/-- An event of the agenda with the names of a moved core's strands, places and words replaced. -/
def reEvent (f g w : Nat → Nat) : Instr → Instr
  | .doubleFault i => .doubleFault (f i)
  | .guestEviction i => .guestEviction (f i)
  | .forwardedResult i v => .forwardedResult (f i) v
  | .lateResultReturn p i v => .lateResultReturn p (f i) v
  | .parkWake i => .parkWake (f i)
  | .strandPromotion i => .strandPromotion (f i)
  | .killNotice i => .killNotice (f i)
  | .strandKill i c => .strandKill (f i) c
  | .thiefRetry i => .thiefRetry (f i)
  | .storeAck p i => .storeAck p (f i)
  | .dequeTakeRequest p i t => .dequeTakeRequest (g p) (f (i % takeWaits) + i / takeWaits * takeWaits) t
  | .dequeIncrementAccepted p j => .dequeIncrementAccepted (g p) j
  | .dequeAdjustmentAccepted p j i => .dequeAdjustmentAccepted (g p) j (f (i % 2 ^ 40) + i / 2 ^ 40 * 2 ^ 40)
  | .feWaiterService p a => .feWaiterService (g p) (w a)
  | .joinListService p a => .joinListService (g p) (w a)
  | .barWaitService p a => .barWaitService (g p) (w a)
  | .tileSetDown p t b x => .tileSetDown (g p) t b x
  | .tileDeliveryFault p t o c => .tileDeliveryFault (g p) t o c
  | .rangeLockRelease p i => .rangeLockRelease (g p) i
  | .meetingExpiry p e => .meetingExpiry (g p) e
  | .meetingPaired p e => .meetingPaired (g p) e
  | .noticeArrival n => .noticeArrival (if n.q = 11 then n else { n with place := g n.place })
  | i => i

/-- A core's own tables with the names replaced. -/
def reCore (f g w : Nat → Nat) (k : Core) : Core :=
  { k with
    fe := k.fe.map (fun e => { e with sid := f e.sid, word := w e.word })
    meets := k.meets.map (fun e => { e with a := e.a.map f, b := e.b.map f })
    reads := k.reads.map (fun r => { r with reader := f r.reader, owner := f r.owner })
    joins := k.joins.map (fun e => { e with sid := f e.sid, word := w e.word })
    bars := k.bars.map (fun e => { e with sid := f e.sid, word := w e.word })
    deque := k.deque.map (fun p => { p with taker := f p.taker })
    ports := k.ports.map (fun p => { p with core := g p.core })
    filters := k.filters.foldl (fun t e => tput t (f e.1) e.2) [] }

/-- Every strand of src becomes native to dst, in the slot with the same number, and dst takes src's state; from now on src
forwards. -/
def moveCore (src dst : Nat) (s : State) : State :=
  let f (i : Nat) : Nat := if i / 32 = src then 32 * dst + i % 32 else i
  let g (p : Nat) : Nat := if p = src then dst else p
  let w (a : Nat) : Nat := if bits a 47 46 = 2 ∧ a < 2 ^ 56 ∧ homeOf a = src then sramBase dst + a % 2 ^ 31 else a
  let live := ((s.blocks.filter (fun b => decide (b.2.core = src ∧ b.2.st ≠ .ended))).map (fun b => b.2.grid)).eraseDups
  let s := (s.store.filter (fun e => decide (e.2.native = src))).foldl (fun s e => moveFloor (storeFloor e.1) (storeFloor (f e.1)) s) s
  let s := imageParts.foldl (fun s p => copyRange (sramBase src + p.2.1) (sramBase dst + p.2.1) p.2.2.1
    (clearRange (sramBase dst + p.2.1) p.2.2.1 s)) s
  let strand (x : Strand) : Strand := { x with
    native := g x.native, place := if x.native = src ∧ x.place = src ∧ x.away = false then dst else x.place, partner := x.partner.map f }
  let table (t : Tbl Strand) : Tbl Strand := t.foldl (fun (a : Tbl Strand) e => tput a (f e.1) (strand e.2)) []
  let old := coreAt s src
  let op (o : Op) : Op := { o with sid := f o.sid, place := g o.place, home := g o.home }
  { s with
    strands := table s.strands, store := table s.store
    cores := tput (tput (s.cores.map (fun c => (c.1, reCore f g w c.2))) dst (dressed (coreAt s dst) (reCore f g w old))) src { bare old with fw := some (dst, live) }
    slices := s.slices.map (fun k => (k.1, { k.2 with
      watches := k.2.watches.map (fun x => { x with sid := f x.sid })
      walks := k.2.walks.map (fun x => { x with waiters := x.waiters.map f })
      waits := k.2.waits.map (fun x => { x with what := reEvent f g w x.what, acc := x.acc.map (fun a => { a with sid := f a.sid }) }) }))
    hubs := s.hubs.map (fun h => (h.1, { h.2 with evwaits := h.2.evwaits.map (fun e => { e with sid := f e.sid }) }))
    stores := s.stores.map (fun p => { p with sid := f p.sid })
    packets := s.packets.map (fun p => (p.1, { p.2 with sid := f p.2.sid }))
    frames := s.frames.map (fun p => (p.1, { p.2 with what := reEvent f g w p.2.what }))
    thieves := s.thieves.map (fun t => (t.1, { t.2 with sid := f t.2.sid }))
    ops := s.ops.map (fun o => (o.1, op o.2)), rmsgs := s.rmsgs.map (fun r => (r.1, { r.2 with o := op r.2.o, sender := g r.2.sender }))
    pieces := s.pieces.map (fun p => (p.1, { p.2 with origin := g p.2.origin }))
    blocks := s.blocks.map (fun b => if b.2.core = src then (b.1, { b.2 with core := dst, sids := b.2.sids.map f }) else b)
    episodes := s.episodes.map (fun e => { e with arrived := e.arrived.map f, waiting := e.waiting.map f, members := e.members.map f, left := e.left.map f })
    agenda := s.agenda.map (fun e => (e.1, reEvent f g w e.2)) }

/-! ### The operations -/

/-- Streaming starts. -/
def mgStream (m : Nat) (g : MgOp) (s : State) : State :=
  let t := 65536 + (if g.op = 1 then mgPath g.src g.dst else 0)
  sched t (.migrationStreamDone m) (mgStat m (g.src % 1024) 0 2 (modHub m (fun h => { h with mg := some { g with stage := 1 } }) s))

def mgAccept (m op src dst : Nat) (s : State) : State :=
  let r := mgReason s m op src dst
  if r ≠ 0 then mgStat m src r 4 s
  else
    let g : MgOp := ⟨op, m * 1024 + src, m * 1024 + dst, 0⟩
    let s := mgStat m src 0 1 (modHub m (fun h => { h with mg := some g }) s)
    if op = 4 then mgStream m g s else s

/-- Guests on the core, none of them called home yet. -/
def mgGuests (s : State) (core : Nat) : List Nat :=
  ((s.strands.filter (fun e => decide (e.2.place = core ∧ e.2.native ≠ core) && !e.2.away))).map Prod.fst
def mgCalled (s : State) (id : Nat) : Bool := s.agenda.any (fun e => match e.2 with | .guestEviction i => i == id | _ => false)

/-- Natives at home that can be suspended now; the store has room for one context of a slot (R369). -/
def mgNatives (s : State) (core : Nat) : List Nat :=
  ((s.strands.filter (fun e => decide (e.2.place = core ∧ e.2.native = core) && !e.2.away && canSuspend s e.2.block e.1))).map Prod.fst

/-- Nothing on the core holds up the stream: natives at home and guests have gone, no lock, no matrix command, no vector
entry. -/
def mgClear (s : State) (core : Nat) : Bool :=
  let k := coreAt s core
  s.strands.all (fun e => decide (e.2.place ≠ core) || e.2.away) && k.locks.isEmpty && k.mrun.isNone && k.vruns.isEmpty
    && k.sc.toList.all (fun q => q.mq.isEmpty && q.dq.isEmpty)

/-- An operation that suspends can go a step further. -/
def mgDue (s : State) (m : Nat) : Bool :=
  match (hubAt s m).mg with
  | some g => decide (g.stage = 0) && ((mgGuests s g.src).any (fun i => !mgCalled s i) || !(mgNatives s g.src).isEmpty || mgClear s g.src)
  | none => false

def mgProgress (m : Nat) (s : State) : State :=
  match (hubAt s m).mg with
  | none => s
  | some g =>
    if g.stage ≠ 0 then s
    else
      let s := ((mgGuests s g.src).filter (fun i => !mgCalled s i)).foldl (fun s i => sched 0 (.guestEviction i) s) s
      let s := (mgNatives s g.src).foldl (fun s i => suspendOne i s) s
      if mgClear s g.src then mgStream m g s else s

/-- The event of an operation: it is accepted, or goes on. -/
def mgRun (m op src dst : Nat) (s : State) : State :=
  if (hubAt s m).mg = some ⟨op, m * 1024 + src, m * 1024 + dst, 0⟩ then mgProgress m s else mgAccept m op src dst s

def execMgMigrate (m src dst : Nat) (s : State) : Out := .next (mgRun m 1 src dst s)
def execMgCheckpoint (m src : Nat) (s : State) : Out := .next (mgRun m 2 src 0 s)
def execMgCheckpointRemove (m src : Nat) (s : State) : Out := .next (mgRun m 3 src 0 s)
def execMgRestore (m src : Nat) (s : State) : Out := .next (mgRun m 4 src 0 s)

/-- The operation has ended. -/
def mgEnd (m : Nat) (g : MgOp) (s : State) : State :=
  kickNode (nodeC (clusterOf g.src)) (mgStat m (g.src % 1024) 0 3 (modHub m (fun h => { h with mg := none }) s))

/-- Step k of a removal starts: the order goes out and the report of its end comes back (R373, R417). -/
def mgRemove (m k : Nat) (g : MgOp) (s : State) : State :=
  sched (2 * leg s (hubOf m) g.src) (.migrationStreamDone m) (outAct g.src k (modHub m (fun h => { h with mg := some { g with stage := 1 + k } }) s))

/-- The stream has ended, or a step of the removal after it. -/
def mgDone (m : Nat) (s : State) : State :=
  match (hubAt s m).mg with
  | none => s
  | some g =>
    let src := g.src % 1024
    if g.stage ≤ 1 then
      match g.op with
      | 1 => mgEnd m g (moveCore g.src g.dst (resumeTaken g.src s))
      | 2 => mgEnd m g (capture m src (resumeTaken g.src s))
      | 3 => mgRemove m 1 g (capture m src (resumeTaken g.src s))
      | _ => mgEnd m g (restoreImage m src s)
    else
      let k := g.stage - 1
      if outDone s g.src k = false then sched 1 (.migrationStreamDone m) s
      else if k < 6 then mgRemove m (k + 1) g s
      else mgEnd m g (outEnd g.src s)

def execMigrationStreamDone (m : Nat) (s : State) : Out := .next (mgDone m s)

end

end Sys2Proof.Machine
end

