-- ==== Sys2Proof/Machine/Link.lean ====
section
/-! DEFINITION. Pod links: frames, sequence and tag checks (R349), resending, link down and training (R389 to R391). -/

namespace Sys2Proof.Machine

open Sys2Proof

noncomputable section

def portStat (p : Nat) : Nat := 0x191000 + 8 * p
/-- Sets lanes and state of a port, keeping its count of frames sent again. -/
def setPort (m p lanes state : Nat) (s : State) : State :=
  ctlPut m (portStat p) (bits (ctlGet s m (portStat p)) 63 32 * 2 ^ 32 + lanes % 256 * 256 + state) s

/-- A link's two directions are down at a port: both count from 0 again, and the port trains (R389, R391). -/
def portDown (m p : Nat) (s : State) : State :=
  schedFree (.podPortTraining m p 8) (setPort m p 0 0 (modHub m (fun h => { h with
    seqTx := tdel h.seqTx p, seqRx := tdel h.seqRx p, linkFails := tdel h.linkFails p }) s))

/-- The packets on a link, in either direction. -/
def onLink (s : State) (h : Hop) : List Nat :=
  (s.frames.filter (fun f => f.2.sent.isSome && (decide (f.2.hop = h) || decide (f.2.hop = ⟨h.to_, h.inPort, h.from_, h.port⟩)))).map Prod.fst

/-- The link is down: what is on it is truncated (R63); the ports at both ends train again. -/
def linkDown (h : Hop) (s : State) : State :=
  let ids := onLink s h
  let s : State := { s with agenda := s.agenda.filter (fun e => match e.2 with | .podFrameReceive _ _ id _ => !ids.contains id | _ => true) }
  portDown h.from_ h.port (portDown h.to_ h.inPort (ids.foldl (fun s id => schedFree (.linkFailure id) s) s))

/-- A frame that FEC cannot correct is sent again by the port at the far end, out of its replay buffer, and no flit is lost; the sixteenth
in a row takes the link down. -/
def frameFails (m p id : Nat) (s : State) : State :=
  match tget s.frames id with
  | none => s
  | some f =>
    let k := (tget (hubAt s m).linkFails p).getD 0 + 1
    let s := countField f.hop.from_ (portStat f.hop.port) 63 32 (modHub m (fun h => { h with linkFails := tput h.linkFails p k }) s)
    if 16 ≤ k then linkDown f.hop s else schedFree (.podFrameReceive m p id true) s

/-- A packet at the hub of a module on its way: its port numbers and seals it with the owner's key and epoch bit and sends it, or it stops
there (R67, R338, R349). -/
def frameSend (id : Nat) (f : Frame) (s : State) : State :=
  let m := f.hop.from_
  if linkOut s f = false then sched 0 (.boundaryStop id) s
  else
    let seq := (tget (hubAt s m).seqTx f.hop.port).getD 0
    sched (podHop f.flits) (.podFrameReceive f.hop.to_ f.hop.inPort id true)
      (modHub m (fun h => { h with seqTx := tput h.seqTx f.hop.port (seq + 1) })
        { s with frames := tput s.frames id { f with sent := some (seq, keyEpoch s m f.owner, linkKey s m f.owner) } })

/-- A packet that a port has admitted: in its module it goes on to its place, else to the next link of its route (R68). -/
def frameGoesOn (id : Nat) (f : Frame) (s : State) : State :=
  let m := f.hop.to_
  if m = moduleOf f.dest then sched f.rest f.what { s with frames := tdel s.frames id }
  else match podPath s (moduleOf f.dest) 256 m with
    | h :: _ => sched 0 (.podFrameReceive h.from_ h.port id true) { s with frames := tput s.frames id { f with hop := h, sent := none } }
    | [] => sched 0 (.boundaryStop id) s

/-- A packet that fails its check is dropped whole: a strand is lost, a courier's piece ends with status 11 and cause 0x0A (R349). -/
def dropFrame (id : Nat) (f : Frame) (seq : Nat) (s : State) : State :=
  let s := keyFails f.hop f.owner seq s
  if (tget s.packets id).isSome then dropPacket id s else loseCarried id (hubOf f.hop.to_) 10 s

/-- A packet comes to a port: to that of its own hub, which sends it, or over the link, where the port checks it (R349). -/
def frameReceive (m p id : Nat) (s : State) : State :=
  match tget s.frames id with
  | none => s
  | some f =>
    match f.sent with
    | none => frameSend id f s
    | some (seq, epoch, key) =>
      let s := modHub m (fun h => { h with linkFails := tdel h.linkFails p }) s
      if linkAdmits s f seq epoch key then frameGoesOn id f (modHub m (fun h => { h with seqRx := tput h.seqRx p seq }) s)
      else dropFrame id f seq s

def execPodFrameReceive (m port pk : Nat) (fecOk : Bool) (s : State) : Out :=
  .next (if fecOk then frameReceive m port pk s else frameFails m port pk s)

/-- A port that is down begins to train, and ends its training with its lanes; with no lane it has failed. -/
def portTrains (m p lanes : Nat) (s : State) : State :=
  if bits (ctlGet s m (portStat p)) 2 0 = 1 then setPort m p lanes (if lanes = 0 then 3 else 2) s
  else schedFree (.podPortTraining m p lanes) (setPort m p 0 1 (modHub m (fun h => { h with
    seqTx := tdel h.seqTx p, seqRx := tdel h.seqRx p, linkFails := tdel h.linkFails p }) s))

def execPodPortTraining (m port lanes : Nat) (s : State) : Out := .next (portTrains m port lanes s)

end

end Sys2Proof.Machine
end

