-- ==== Sys2Proof/Machine/Mailbox.lean ====
section
/-! DEFINITION. The host side: the mailbox (R185, R186, R329, R382 to R388) and the load of a file (R414). -/

namespace Sys2Proof.Machine

open Sys2Proof

noncomputable section

def fnAt (s : State) (m f : Nat) : FnRegs := (tget (hubAt s m).fns f).getD FnRegs.reset
def modFn (m f : Nat) (g : FnRegs → FnRegs) (s : State) : State := modHub m (fun h => { h with fns := tmod h.fns f FnRegs.reset g }) s
def toHost (o : HostOut) (s : State) : State := { s with hostOut := s.hostOut ++ [o] }

/-- The kind of log entries about refused host requests (log 15, PRESUMED). -/
def logHost : Nat := 15

/-- The owner tag of a function (R328, R383). -/
def fnTag (s : State) (m f : Nat) : Nat := if f < 16 then vfTag (vfCfg s m f) else 0

/-- An AER non-fatal error of a function (R384, R387); a refused aperture request is also reported to the function's owner and to the
landlord (R350). -/
def aerError (m f off : Nat) (aperture : Bool) (s : State) : State :=
  let s1 := toHost (.error m f off) s
  if aperture then ownerReport m (fnTag s m f) (mcLog m logHost 0 (fnTag s m f) (hubOf m) (w64 off) s1) else s1

/-! ### Apertures (R387) -/

/-- The quarter that holds the home of a PA, with its module (R334). -/
def quarterHome (pa : Nat) : Nat × Nat :=
  let h := homeOf pa
  if isCore h then (moduleOf h, quarterOf h) else (moduleOf h, pa % 2 ^ 26 / 2 ^ 24)

/-- A space that the host reaches. -/
def hostSpace (s : State) (pa : Nat) : Bool :=
  match space s pa with | .vault _ _ => true | .pad _ _ => true | .loft _ _ => true | .hub _ _ => true | _ => false

/-- The PA of a BAR2 request that is admitted. -/
def aperturePa (s : State) (m f off n : Nat) (w : Bool) : Option Nat :=
  let a := 0x171000 + 0x80 * f + 0x10 * (off / 2 ^ 29)
  let d := ctlGet s m a
  let o := off % 2 ^ 29
  let pa := bits d 55 16 * 65536 + o
  let q := quarterHome pa
  if bit d 0 && decide (o + n ≤ bits (ctlGet s m (a + 8)) 13 0 * 65536) && bit d (if w then 63 else 62) && decide (pa + n ≤ 2 ^ 56)
      && hostSpace s pa && hostSpace s (pa + n - 1) && decide (homeOf pa = homeOf (pa + n - 1))
      && (decide (fnTag s m f = 0) || decide (qOwner s q.1 q.2 = fnTag s m f)) then some pa
  else none

/-! ### The queue of host requests (R185, R340) -/

/-- The quarter of the home is not held. -/
def homeRuns (s : State) (pa : Nat) : Bool := let q := quarterHome pa; !quarterHeld s q.1 q.2

/-- The answer to a read: BAR0 registers, or the bytes of an aperture. -/
def fnRead (s : State) (m f off : Nat) : Nat :=
  let r := fnAt s m f
  if off = 0x40 then r.estSlot % 4096 * 65536 + b2n r.estValid * 8 + r.estStatus % 8
  else if off = 0x48 then r.cqb.toNat
  else if off = 0x50 then r.lsize
  else if off = 0x58 then r.head
  else if off = 0x60 then b2n r.phase * 4096 + r.tail
  else if off = 0x68 then b2n r.irq
  else if 0x100 ≤ off ∧ off < 0x200 ∧ off % 4 = 0 then ((tget (hubAt s m).dep (64 * f + (off - 0x100) / 4)).getD 0).toNat
  else 0

/-- BAR0 as bytes. -/
def fnByte (s : State) (m f a : Nat) : Byte :=
  if 0x100 ≤ a ∧ a < 0x200 then BitVec.ofNat 8 (fnRead s m f (a / 4 * 4) / 2 ^ (8 * (a % 4)))
  else BitVec.ofNat 8 (fnRead s m f (a / 8 * 8) / 2 ^ (8 * (a % 8)))

def answerRead (m : Nat) (h : HWrite) (s : State) : State :=
  match h.read with
  | none => s
  | some (f, bar, off, n) =>
    if bar = 0 then toHost (.readData m f off ((List.range n).map (fun i => fnByte s m f (off + i))) false) s
    else toHost (.readData m f off (engineRead s (fwdPa s h.pa) n) (poisoned s (fwdPa s h.pa) n)) s

/-- The time to a home and back. -/
def homeTrip (s : State) (m home : Nat) : Nat := 2 * leg s (hubOf m) home

/-- What the mailbox can send now: behind sent writes of one home, writes to that home whose quarter runs; a read once
nothing stands before it. -/
def sendable (s : State) (m : Nat) : List HWrite → Option Nat → List HWrite × List Nat
  | [], _ => ([], [])
  | h :: t, cur =>
    if h.sent then
      let r := sendable s m t (some h.home)
      (h :: r.1, r.2)
    else if h.read.isNone && homeRuns s h.pa && (match cur with | none => true | some c => decide (c = h.home)) then
      let r := sendable s m t (some h.home)
      ({ h with sent := true, due := s.now + homeTrip s m h.home } :: r.1, h.home :: r.2)
    else (h :: t, [])

/-- A read of a vault that moves its data waits (R352). -/
def readWaits (s : State) (h : HWrite) : Bool :=
  match h.read with
  | some (_, bar, _, _) => decide (bar ≠ 0) && (match space s (fwdPa s h.pa) with | .vault c _ => decide (vaultState s c = 1) | _ => false)
  | none => true

/-- Reads at the head of the queue are answered. -/
def answerReads (m : Nat) : List HWrite → State → List HWrite × State
  | [], s => ([], s)
  | h :: t, s => if readWaits s h then (h :: t, s) else answerReads m t (answerRead m h s)

/-- The mailbox goes on with its queue. -/
def hostPump (m : Nat) (s : State) : State :=
  let a := answerReads m (hubAt s m).hwq s
  let r := sendable a.2 m a.1 none
  r.2.foldl (fun s home => sched (homeTrip s m home) (.hostWriteAck m) s) (modHub m (fun h => { h with hwq := r.1 }) a.2)

/-- The queue could go on. -/
def hostPumpDue (s : State) (m : Nat) : Bool :=
  match (hubAt s m).hwq with
  | [] => false
  | h :: t => !readWaits s h || !(sendable s m (h :: t) none).2.isEmpty

/-- A write in arrival order. -/
def enqueueHost (m : Nat) (h : HWrite) (s : State) : State := hostPump m (modHub m (fun k => { k with hwq := k.hwq ++ [h] }) s)

/-- The partition that a function's host writes are charged to (R173): that of the Caller scalar core which a VF's notices go to; a
PF's is 0. -/
def fnPart (s : State) (m f : Nat) : Nat := if f < 16 then partitionOf s (hubOf m) (bits (vfCfg s m f) 1 0) else 0

/-- Writes that stand at their home are performed in order and acknowledged; the notice of an entry follows it (R185, R385). The
head of the queue may be performed; behind it, writes that no slice serves. -/
def hostPerform (m : Nat) : Nat → State → State
  | 0, s => s
  | n + 1, s =>
    match (hubAt s m).hwq with
    | [] => s
    | h :: t =>
      let pa := fwdPa s h.pa
      let s := match space s pa with | .hole => s | _ => engineWrite (fnPart s m h.fn) pa h.bytes [] 0 s
      let s := modHub m (fun k => { k with hwq := t }) s
      let s := match h.entry with | some (vf, w) => vfNotice m vf w s | none => s
      match t with
      | g :: _ => if g.tok && (match space s (fwdPa s g.pa) with | .vault _ _ => false | _ => true) then hostPerform m n s else s
      | [] => s

/-- The first write of a queue that has been sent and now stands at its home, marked. -/
def hostTok (now : Nat) : List HWrite → List HWrite × Option HWrite
  | [] => ([], none)
  | h :: t =>
    if h.sent && !h.tok && decide (h.due ≤ now) then ({ h with tok := true } :: t, some h)
    else let r := hostTok now t; (h :: r.1, r.2)

/-- A host write reaches its home, where a vault's slice serves it as demand (R170, R173); or its request has started, and the oldest
is performed. -/
def hostAck (m : Nat) (s : State) : State :=
  match hostTok s.now (hubAt s m).hwq with
  | (q, some h) =>
    let s := modHub m (fun k => { k with hwq := q }) s
    let pa := fwdPa s h.pa
    (match space s pa with
    | .vault c _ => request (clusterOf c) ⟨2, fnPart s m h.fn, c, s.now, 0, pa, h.bytes.length, 0, .hostWriteAck m, none⟩ s
    | _ => if q.head?.any (·.tok) && decide ((q.filter (·.tok)).length = 1)
        then hostPump m (hostPerform m q.length s) else s)
  | (q, none) =>
    match q with
    | h :: _ =>
      let pa := fwdPa s h.pa
      if h.tok = false then s
      else if (match space s pa with | .vault c _ => missWaits (sliceAt s (clusterOf c)) pa h.bytes.length 0 | _ => false) then sched 1 (.hostWriteAck m) s
      else hostPump m (hostPerform m q.length s)
    | [] => s

def execHostWriteAck (m : Nat) (s : State) : Out := .next (hostAck m s)

/-! ### Mailbox registers (R384 to R386) -/

/-- A commit: the entry is checked; an accepted one takes the lowest free slot and is written to its queue area. -/
def mailCommit (m f : Nat) (s : State) : State :=
  let r := fnAt s m f
  let bytes := (List.range 64).map (fun i => (tget r.ent i).getD 0)
  let words : List Word := (List.range 8).map (fun i => w64 (leNat ((bytes.drop (8 * i)).take 8)))
  let w0 := ((words[0]?).getD 0).toNat
  let w1 := ((words[1]?).getD 0).toNat
  let c := vfCfg s m f
  let used := ((hubAt s m).vfq.filter (fun e => e.vf == f)).map VFEntry.slot
  let slot := (List.range (bits c 43 32)).find? (fun i => !used.contains i)
  let st : Nat :=
    if 16 ≤ f ∨ bits c 43 32 = 0 then 4
    else if bits w0 49 32 ≠ 0 ∨ bits w1 63 32 ≠ 0 then 3
    else if (bit w0 63 ∧ bits c 55 48 ≤ bits w0 61 56) ∨ (bit w0 62 ∧ bits c 55 48 ≤ bits w0 55 50) then 2
    else if slot.isNone then 1 else 0
  let s := modFn m f (fun r => { r with ent := [], estValid := true, estStatus := st, estSlot := if st = 0 then slot.getD 0 else r.estSlot }) s
  if st ≠ 0 then s
  else
    let j := slot.getD 0
    let e : VFEntry := ⟨f, j, vfTag c, bits c 25 12 * 4096 + 64 * j, words, false⟩
    let pa := hubSram m + e.at_
    let s := modHub m (fun h => { h with vfq := h.vfq ++ [e] }) s
    enqueueHost m ⟨f, pa, bytes, homeOf pa, false, 0, false, some (f, handleOf e), none⟩ s

def execMailboxCommit (m f : Nat) (s : State) : Out := .next (mailCommit m f s)

/-- The mailbox writes completion records while the ring has room; without a ring they are dropped. -/
def writeRecords (m f : Nat) (s : State) : State :=
  let r := fnAt s m f
  match r.waiting with
  | [] => s
  | (h, c) :: t =>
    if r.lsize = 0 then modFn m f (fun r => { r with waiting := [] }) s
    else
      let size := 2 ^ r.lsize
      let next := (r.tail + 1) % size
      if next = r.head % size then s
      else
        let d1 := c ||| w64 (b2n r.phase * 2 ^ 63)
        let s := toHost (.record m f (r.cqb + w64 (16 * r.tail)) h d1) s
        let s := modFn m f (fun r => { r with waiting := t, tail := next, phase := if next = 0 then !r.phase else r.phase }) s
        let s := if r.irq then toHost (.interrupt m f) s else s
        if t.isEmpty then s else atOnce (.completionRecordWrite m f) s

def execCompletionRecordWrite (m f : Nat) (s : State) : Out := .next (writeRecords m f s)

/-- The host moves the head: room in the ring for waiting records. -/
def moveHead (m f : Nat) (v : Word) (s : State) : State :=
  if bits v.toNat 63 12 ≠ 0 then aerError m f 0x58 false s
  else atOnce (.completionRecordWrite m f) (modFn m f (fun r => { r with head := v.toNat }) s)

def execCqHeadWrite (m f : Nat) (v : Word) (s : State) : Out := .next (moveHead m f v s)

/-- A PF starts a module reset; a VF's request is refused. -/
def execModuleResetRequest (m f : Nat) (s : State) : Out :=
  .next (if 16 ≤ f then atOnce (.moduleReset m) s else aerError m f 0x70 false s)

/-- A write of a BAR0 register; what follows it comes before the next request (R185). Model's choices: a write that sets a bit of
mb.irq or mb.rst above bit 0, which R384 does not list, is refused as a reserved field is, and so is one that would change an RO
register (log 63, DESIGN CHOICE); a register has no home, so that its write takes effect as it arrives, ahead of aperture writes that wait
in the mailbox (log 63, DESIGN CHOICE). -/
def fnWrite (m f off v : Nat) (s : State) : State :=
  if off = 0x48 then
    if v % 64 ≠ 0 then aerError m f off false s else modFn m f (fun r => { r with cqb := w64 v }) s
  else if off = 0x50 then
    if 16 ≤ v ∨ 12 < v ∨ (v ≠ 0 ∧ v < 4) then aerError m f off false s
    else atOnce (.completionRecordWrite m f) (modFn m f (fun r => { r with lsize := v }) s)
  else if off = 0x58 then moveHead m f (w64 v) s
  else if off = 0x68 then
    if 2 ≤ v then aerError m f off false s else modFn m f (fun r => { r with irq := decide (v = 1) }) s
  else if off = 0x70 then
    if f < 16 ∨ 2 ≤ v then aerError m f off false s else if v = 1 then atOnce (.moduleResetRequest m f) s else s
  else if (off = 0x40 ∨ off = 0x60) ∧ v = fnRead s m f off then s
  else aerError m f off false s

/-- The part of a write that falls on the register at base. -/
def fnPartWrite (m f off base : Nat) (bytes : List Byte) (s : State) : State :=
  fnWrite m f base (leNat ((List.range 8).map (fun i =>
    if off ≤ base + i ∧ base + i < off + bytes.length then (bytes[base + i - off]?).getD 0 else fnByte s m f (base + i)))) s

/-- A write of BAR0: its bytes of the entry, whose last eight commit it (R385), then the registers that it covers in ascending order, each
of which is written or refused by itself (log 63, DESIGN CHOICE). -/
def bar0Write (m f off : Nat) (bytes : List Byte) (s : State) : State :=
  let n := bytes.length
  let s := if off < 0x40 then
      modFn m f (fun r => { r with ent := (List.range (min n (0x40 - off))).foldl (fun (e : Tbl Byte) i => tput e (off + i) ((bytes[i]?).getD 0)) r.ent }) s
    else s
  let s := if off ≤ 0x38 ∧ 0x40 ≤ off + n then mailCommit m f s else s
  ((List.range (n / 8 + 2)).map (fun i => (off / 8 + i) * 8)).foldl (fun s base =>
    if 0x40 ≤ base ∧ base < off + n then fnPartWrite m f off base bytes s else s) s

/-- A host write arrives at the mailbox. -/
def hostArrive (m f bar off : Nat) (bytes : List Byte) (s : State) : State :=
  if bytes.isEmpty then s
  else if bar = 0 then bar0Write m f off bytes s
  else match aperturePa s m f off bytes.length true with
    | some pa => enqueueHost m ⟨f, pa, bytes, homeOf pa, false, 0, false, none, none⟩ s
    | none => aerError m f off true s

def execHostWrite (m f bar off : Nat) (bytes : List Byte) (s : State) : Out := .next (hostArrive m f bar off bytes s)

/-- A host read arrives: refused, or answered behind every write before it. -/
def hostAsk (m f bar off n : Nat) (s : State) : State :=
  if bar = 0 then enqueueHost m ⟨f, hubSram m, [], hubOf m, false, 0, false, none, some (f, 0, off, n)⟩ s
  else match aperturePa s m f off n false with
    | some pa => enqueueHost m ⟨f, pa, [], homeOf pa, false, 0, false, none, some (f, bar, off, n)⟩ s
    | none => aerError m f off true (toHost (.unsupported m f off) s)

def execHostRead (m f bar off n : Nat) (s : State) : Out := .next (hostAsk m f bar off n s)

/-- A function-level reset (R388). -/
def resetFunction (m f : Nat) (s : State) : State :=
  modHub m (fun h => { h with
    fns := tdel h.fns f
    dep := if f < 16 then h.dep.filter (fun d => decide (d.1 / 64 ≠ f)) else h.dep
    vfq := h.vfq.filter (fun e => decide (e.vf ≠ f)) }) s

def execFunctionLevelReset (m f : Nat) (s : State) : Out := .next (resetFunction m f s)

/-- A configuration request: retry status before bring-up has ended (R400). -/
def execConfigRequest (m f : Nat) (s : State) : Out := .next (toHost (.config m f (decide ((hubAt s m).bringup < 6))) s)

/-! ### Loading a file (R305, R334, R337, R414) -/

/-- The stream of the launches of a load. -/
def loadStream : Nat := 2 ^ 40

/-- A block of data at its place; scratchpad words are marked (R121). -/
def placeData (pa : Nat) (bytes : List Byte) (empty : Bool) (s : State) : State :=
  let s := setDown pa bytes [] (match space s pa with | .vault _ _ => settleLines pa bytes.length s | _ => s)
  match space s pa with
  | .pad _ o =>
    (List.range (cdiv (pa % 8 + bytes.length) 8)).foldl (fun s i =>
      if 0x3E0000 ≤ o / 8 * 8 + 8 * i then s else if empty then setEmpty (pa + 8 * i) s else setFull (pa + 8 * i) s) s
  | _ => s

/-- The Caller scalar core that a file's program starts on: the lowest quarter of the owner (R334). -/
def ownersQuarter (s : State) (m owner : Nat) : Option Nat := (List.range 4).find? (fun q => qOwner s m q == owner)

/-- A program's strand in a native slot of a Caller or MC place, with the record images of its file. -/
def startProgram (kind : Kind) (place slot owner asn root recs : Nat) (pc : Word) (s : State) : State :=
  let id := 32 * place + slot
  if (tget s.strands id).isSome then s
  else
    let x : Strand := { Strand.reset with
      kind := kind, native := place, nslot := slot, place := place, slot := slot, run := .live, pc := pc, owner := owner, asn := asn, root := root
      readyAt := s.now + 1, lastIssue := s.now, arrived := s.now }
    let images := (List.range 64).map (fun i => (i, recOf (memRead s.mem (recs + 32 * i) 32)))
    modCore place (fun c => { c with ctx := tput c.ctx (ctxKey x) ⟨images, [], 0, 0, []⟩ }) { s with strands := tput s.strands id x }

/-- The valid bit of a page's entry is set or cleared (R132, R284). -/
def markPage (pte : Nat) (valid : Bool) (s : State) : State :=
  engineWrite 0 pte (leBytes 8 (leNat (sliceRead s pte 8) / 2 * 2 + b2n valid)) [] 0 s

/-- One item of a load. The tiles that a file's launch defines are defined and ready here, before the root accepts or refuses the grid,
in place of any entry there; R189 says that dispatch makes them ready (log 64, DESIGN CHOICE). -/
def loadOne (l : LaunchSpec) (s : State) : State :=
  match l with
  | .data pa bytes empty => placeData pa bytes empty s
  | .inject pa len => (List.range (cdiv (pa % 32 + len) 32)).foldl (fun s i => setPoison (pa / 32 + i) s) s
  | .absent pte asn va => markPage pte false { s with absents := s.absents ++ [(pte, asn, va)] }
  | .present pte asn va => startShot ⟨some asn, some va⟩ (2 ^ 40) none none (fun _ => true) (fun _ => true) (markPage pte true s)
  | .grid m off owner tiles =>
    let pa := hubSram m + off
    if (recordError (peekN s pa 256)).isSome then s
    else
      let g := m * 2 ^ 24 + (hubAt s m).launches % 2 ^ 24
      let s := tiles.foldl (fun s t => modTile t.1 t.2.1 (fun _ => { Tile.none_ with defined := true, base := t.2.2.1, len := t.2.2.2, grid := g, st := .ready }) s) s
      acceptGrid (hubOf m) ((ownersQuarter s m owner).getD 0) owner loadStream pa s
  | .caller m owner asn root recs pc =>
    match ownersQuarter s m owner with
    | some q => startProgram .caller (hubOf m) (8 * q) owner asn root (hubSram m + recs) pc s
    | none => mcLog m logRefusedLaunch 0 owner (hubOf m) (w64 m) s
  | .mc m owner recs pc =>
    match (List.range 8).find? (fun j => (tget s.strands (32 * mcOf m + j)).isNone) with
    | some j => startProgram .mc (mcOf m) j owner 0 0 (mcSram m + recs) pc s
    | none => s

/-- Data and errors are placed at once; each launch comes after the acceptance of the one before it. -/
def loadAll : List LaunchSpec → State → State
  | [], s => s
  | .data pa b e :: t, s => loadAll t (loadOne (.data pa b e) s)
  | .inject pa n :: t, s => loadAll t (loadOne (.inject pa n) s)
  | .absent p a v :: t, s => loadAll t (loadOne (.absent p a v) s)
  | .present p a v :: t, s => loadAll t (loadOne (.present p a v) s)
  | l :: t, s => if t.isEmpty then loadOne l s else sched 15 (.loadLaunch t) (loadOne l s)

def execLoadLaunch (ls : List LaunchSpec) (s : State) : Out := .next (loadAll ls s)

end

end Sys2Proof.Machine
end

