-- ==== Sys2Proof/Machine/System.lean ====
section
/-! DEFINITION. Control space (R337, R392) and the SYSTEM major: ecall, ebreak, eret, halt, sget, sset, tlbi, kill (R362 to
R367). -/

namespace Sys2Proof.Machine

open Sys2Proof

noncomputable section

/-! ### The register map (R392) -/

/-- off lies in n registers of a block at base, step bytes apart, at one of the offsets of a record. -/
def inBlock (off base step n : Nat) (offs : List Nat) : Bool :=
  decide (base ≤ off ∧ off < base + step * n) && offs.contains ((off - base) % step)

/-- Who may write a block: nobody, the MC, every Caller and MC strand, owner 0, owner 0 or the record's owner. -/
inductive Writer where
  | nobody | mc | any | owner0 | record
  deriving DecidableEq, Repr

/-- The writer of a register; none where the offset names no register. -/
def writerOf (off : Nat) : Option Writer :=
  if off = 0 then some .nobody
  else if inBlock off 0x100000 0x40 1 [0, 8, 0x10, 0x18, 0x20, 0x28, 0x30, 0x38] then some .owner0
  else if inBlock off 0x110000 0x10 256 [0] then some .owner0
  else if inBlock off 0x120000 0x100 256 ((List.range 8).flatMap (fun i => [0x10 * i, 0x10 * i + 8])) then some .owner0
  else if inBlock off 0x130000 0x10 1024 [0, 8] then some .owner0
  else if inBlock off 0x140000 0x40 16 [0, 8, 0x10, 0x18, 0x20, 0x28] then some .mc
  else if inBlock off 0x160000 0x80 256 ((List.range 16).map (8 * ·)) then some .owner0
  else if inBlock off 0x170000 8 16 [0] then some .owner0
  else if inBlock off 0x171000 0x10 144 [0, 8] then some .owner0
  else if inBlock off 0x180000 8 4 [0] then some .owner0
  else if inBlock off 0x190000 8 256 [0] then some .owner0
  else if inBlock off 0x191000 8 64 [0] then some .owner0
  else if inBlock off 0x1A0000 8 32 [0] || inBlock off 0x1A0100 8 5 [0] then some .nobody
  else if [0x1B0000, 0x1B0010, 0x1B0018, 0x1B0020].contains off || inBlock off 0x1B1000 8 16 [0] then some .owner0
  else if off = 0x1B0030 ∨ off = 0x1B0038 then some .any
  else if inBlock off 0x250000 0x20 32 [0, 8, 0x10, 0x18] then some .record
  else if inBlock off 0x260000 8 3 [0] || inBlock off 0x261000 8 1024 [0] then some .owner0
  else if inBlock off 0x270000 0x20 1024 [0, 8, 0x10] then some .owner0
  else if inBlock off 0x300000 0x20 32768 [0, 8, 0x10, 0x18] then some .record
  else none

/-- The place and slot of a strand control record (R358). -/
def scSlot (m off : Nat) : Nat × Nat :=
  if off < 0x300000 then (hubOf m, (off - 0x250000) / 0x20) else (m * 1024 + (off - 0x300000) / 0x400, (off - 0x300000) % 0x400 / 0x20)

/-- A writer is allowed: the owner id, and whether it is the MC. -/
def mayWrite (s : State) (m off owner : Nat) (isMc : Bool) : Bool :=
  match writerOf off with
  | none => false
  | some .nobody => false
  | some .mc => isMc
  | some .any => true
  | some .owner0 => decide (owner = 0)
  | some .record =>
    let p := scSlot m off
    decide (owner = 0) || (match slotStrand s p.1 p.2 with | some (_, x, _) => decide (x.owner = owner) | none => false)

/-! ### Reads -/

/-- A bucket as its register reads (R173). -/
def bucketWord (b : Bucket) : Nat :=
  (b.level % 2 ^ 17).toNat * 2 ^ 41 + b2n b.nolend * 2 ^ 40 + b.depth % 2 ^ 16 * 2 ^ 16 + b.rate % 2 ^ 16

/-- A strand control register (R358). A strand that was held or stopped when it was killed keeps its cause there (R360). -/
def scRead (s : State) (m off : Nat) : Nat :=
  let p := scSlot m off
  match slotStrand s p.1 p.2 with
  | none => 0
  | some (_, x, _) =>
    let st := scState s p.1 p.2
    let stuck := decide (st = 2 ∨ st = 3)
    match off % 0x20 with
    | 0 => x.grid.getD 0 % 2 ^ 32 * 2 ^ 32 + x.owner % 16 * 2 ^ 28 + st
    | 8 => if stuck ∨ st = 5 then x.cause.toNat else 0
    | 0x10 => x.epc.toNat
    | _ => if stuck then x.tval.toNat else 0

/-- The value of a control register of module m; write-only fields read zero. -/
def controlRead (s : State) (m off : Nat) (last : BitVec 2) : Nat :=
  if off = 0 then last.toNat
  else if off = 0x100028 then 0
  else if inBlock off 0x130000 0x10 1024 [0] then 0
  else if inBlock off 0x140000 0x40 16 [0, 8, 0x10, 0x18] then 0
  else if inBlock off 0x160000 0x80 256 ((List.range 16).map (8 * ·)) then
    bucketWord (vget (bucketsNow s (m * 256 + (off - 0x160000) / 0x80)) ((off - 0x160000) % 0x80 / 8) Bucket.reset)
  else if off = 0x1B0018 then 0
  else if off = 0x1B0000 then (hubAt s m).logSel
  else if inBlock off 0x1B1000 8 16 [0] then (logDword s m ((off - 0x1B1000) / 8)).toNat
  else if writerOf off = some .record then scRead s m off
  else if off = 0x260000 then 0
  else if inBlock off 0x261000 8 1024 [0] then
    match (coreAt s (m * 1024 + (off - 0x261000) / 8)).fw with | some (d, _) => 2 ^ 63 + d % 1024 | none => 0
  else ctlGet s m off

/-- A read that R392 does not allow returns zero. -/
def readFor (s : State) (m off owner : Nat) (isMc : Bool) (last : BitVec 2) : Nat :=
  if writerOf off = some .nobody ∨ mayWrite s m off owner isMc then controlRead s m off last else 0

/-! ### Writes -/

/-- The reserved bits of a register. Model's choice: bits [63:56] of dbg.lpa, which R380's map does not list, are reserved here (log 63,
DESIGN CHOICE). -/
def rsvMask (off : Nat) : Nat :=
  let top (n : Nat) : Nat := 2 ^ 64 - 2 ^ n
  if off = 0x100000 then 0xFF0CFF0CFF0CFF0C
  else if off = 0x100028 then top 8
  else if off = 0x100030 then top 20 + 8
  else if off = 0x100038 then top 16
  else if inBlock off 0x110000 0x10 256 [0] then top 6 + 0xC
  else if inBlock off 0x120000 0x10 4096 [0] then 3 * 2 ^ 58 + 0xFFFC
  else if inBlock off 0x120000 0x10 4096 [8] then top 24
  else if inBlock off 0x130000 0x10 1024 [0] then top 9 + 0xFC
  else if inBlock off 0x130000 0x10 1024 [8] then top 40 + 0xFFF0
  else if inBlock off 0x140000 0x40 16 [0x20] then top 16 + 0xFE
  else if inBlock off 0x140000 0x40 16 [0x28] then top 32
  else if inBlock off 0x160000 8 4096 [0] then top 58 + 0xFF * 2 ^ 32
  else if inBlock off 0x170000 8 16 [0] then 0xF * 2 ^ 56 + 0xF * 2 ^ 44 + 0x3F * 2 ^ 26 + 0xFFC
  else if inBlock off 0x171000 0x10 144 [0] then 0x3F * 2 ^ 56 + 0xFFFE
  else if inBlock off 0x171000 0x10 144 [8] then top 14
  else if inBlock off 0x190000 8 256 [0] then top 8 + 0x40
  else if inBlock off 0x191000 8 64 [0] then 0xFFFF0000 + 0xF8
  else if off < 0x300000 ∧ 0x250000 ≤ off ∧ writerOf off = some .record ∧ off % 0x20 = 0 then 0xFFFFF08
  else if 0x300000 ≤ off ∧ off % 0x20 = 0 then 0xFFFFF08
  else if writerOf off = some .record ∧ off % 0x20 = 8 then top 6
  else if off = 0x260000 then 2 ^ 60 - 2 ^ 26 + 0xFC00
  else if off = 0x260008 then 0xFF * 2 ^ 56 + 0xFFFFFF
  else if off = 0x260010 then 0xFFFFFF00 + 8
  else if inBlock off 0x261000 8 1024 [0] then 2 ^ 63 - 1024
  else if inBlock off 0x270000 0x20 1024 [0] then top 2
  else if inBlock off 0x270000 0x20 1024 [8] then 0xFF * 2 ^ 56
  else 0

/-- Performed, or refused under R7. -/
def done7 (s : State) : State × BitVec 2 := (s, 0)
def refuse7 (s : State) : State × BitVec 2 := (s, 1)
def tell (r : State × Bool) : State × BitVec 2 := if r.2 then (r.1, 0) else (r.1, 1)

/-- A write changes a field only of quarters that are open (R342). -/
def openOnly (s : State) (m off v field q : Nat) : Bool :=
  decide (bits (ctlGet s m off) (field + 15) field = bits v (field + 15) field ∨ qst s m q = 3)

/-- A command of pm.cmd (R339). -/
def pmCommand (m v : Nat) (s : State) : State × BitVec 2 :=
  let mask := bits v 7 4
  match v % 16 with
  | 1 => done7 (pmQuiesce m mask s)
  | 2 => done7 (pmOpen m mask s)
  | 3 => done7 (pmRelease m mask s)
  | 4 => done7 (pmResume m mask s)
  | _ => refuse7 s

/-- Dword 0 of a window (R345). -/
def windowWrite (cl i v : Nat) (s : State) : State × BitVec 2 :=
  let d := winD0 s cl i
  match d % 4, v % 4 with
  | 0, 1 => tell (openWindow cl i v (winD1 s cl i) s)
  | 1, 2 => if v = d + 1 then tell (revokeWindow cl i s) else refuse7 s
  | 3, 0 => tell (closeWindow cl i s)
  | _, _ => refuse7 s

/-- A strand control register (R358, R359). -/
def scWrite (m off v : Nat) (s : State) : State × BitVec 2 :=
  let p := scSlot m off
  match off % 0x20 with
  | 0 => match bits v 7 4 with
    | 0 => done7 s
    | 1 => tell (resumeAt p.1 p.2 false s)
    | 2 => tell (resumeAt p.1 p.2 true s)
    | 3 => tell (scKillAt p.1 p.2 s)
    | _ => refuse7 s
  | 0x10 => match slotStrand s p.1 p.2 with
    | some (i, x, false) =>
      if x.run = .held then done7 (modStrand i (fun x => { x with epc := w64 v }) s) else refuse7 s
    | _ => refuse7 s
  | _ => done7 s

/-- The value a plain register takes: its writable fields from v, the others as they are. -/
def plainPut (m off rw v : Nat) (s : State) : State × BitVec 2 :=
  done7 (ctlPut m off ((w64 v &&& w64 rw) ||| (w64 (ctlGet s m off) &&& ~~~(w64 rw))).toNat s)

/-- A write of an allowed writer to a control register, checked whole (R7). Model's choice: R351 lists pch as 0 to 2; a write to vc.ctl
with pch = 3 is refused also with go = 0 (log 63, DESIGN CHOICE). -/
def controlPut (m off owner v : Nat) (s : State) : State × BitVec 2 :=
  let all := 2 ^ 64 - 1
  if w64 v &&& w64 (rsvMask off) ≠ 0 then refuse7 s
  else if off = 0x100000 then
    if (List.range 4).all (fun q => openOnly s m off v (16 * q) q && decide (bits v (16 * q + 1) (16 * q) ≤ q)) then plainPut m off all v s else refuse7 s
  else if 0x100008 ≤ off ∧ off ≤ 0x100020 then
    if ctlGet s m off = v ∨ qst s m ((off - 0x100008) / 8) = 3 then plainPut m off all v s else refuse7 s
  else if off = 0x100028 then pmCommand m v s
  else if off = 0x100030 ∨ off = 0x100038 then done7 s
  else if inBlock off 0x110000 0x10 256 [0] then
    if ctlGet s m off = v ∨ qst s m ((off - 0x110000) / 16 % 16 / 4) = 3 then plainPut m off all v s else refuse7 s
  else if inBlock off 0x120000 0x10 4096 [0] then windowWrite (m * 256 + (off - 0x120000) / 0x100) ((off - 0x120000) % 0x100 / 0x10) v s
  else if inBlock off 0x120000 0x10 4096 [8] then
    if ctlGet s m (off - 8) % 4 = 0 ∨ ctlGet s m off = v then plainPut m off all v s else refuse7 s
  else if inBlock off 0x130000 0x10 1024 [0] then
    if bit v 8 then tell (startDrop (m * 1024 + (off - 0x130000) / 16) (v % 4) s) else if v % 4 = 3 then refuse7 s else done7 s
  else if inBlock off 0x130000 0x10 1024 [8] then done7 s
  else if inBlock off 0x140000 0x40 16 [0, 8, 0x10, 0x18] then
    let o := (off - 0x140000) / 0x40
    let i := off % 0x40 / 8
    let k := (match tget (hubAt s m).keys o with | some k => k.key.toNat | none => 0)
    done7 (putKey m o (BitVec.ofNat 256 (k - bits k (64 * i + 63) (64 * i) * 2 ^ (64 * i) + v * 2 ^ (64 * i))) (i == 0) s)
  else if inBlock off 0x140000 0x40 16 [0x28] then done7 (ctlPut m off (w64 (ctlGet s m off) &&& ~~~(w64 v)).toNat s)
  else if inBlock off 0x160000 8 4096 [0] then
    if bits v 31 16 = 0 then refuse7 s
    else
      let cl := m * 256 + (off - 0x160000) / 0x80
      let i := (off - 0x160000) % 0x80 / 8
      let s := fillBuckets cl s
      let b := vget (sliceAt s cl).buckets i Bucket.reset
      let d : Int := (bits v 31 16 : Nat)
      let b := { b with nolend := bit v 40, depth := bits v 31 16, rate := bits v 15 0, level := max (-d) (min b.level d) }
      done7 (accrualOn cl (modSlice cl (fun k => { k with buckets := vset k.buckets i b }) s))
  else if inBlock off 0x170000 8 16 [0] then
    if 1024 < bits v 43 32 ∨ 64 < bits v 55 48 then refuse7 s else plainPut m off all v s
  else if inBlock off 0x191000 8 64 [0] then
    done7 (ctlPut m off (ctlGet s m off % 2 ^ 32 + (w64 (bits (ctlGet s m off) 63 32) &&& ~~~(w64 (bits v 63 32))).toNat * 2 ^ 32) s)
  else if off = 0x1B0000 then done7 (sched 0 (.logEntrySelect m (w64 v)) s)
  else if off = 0x1B0018 then
    if v = 1 then done7 (if ctlGet s m fwStatus = 7 then s else sched 0 (.fwUpdateStart m) s)
    else if v = 2 then done7 (sched 0 (.fwBankMark m) s) else refuse7 s
  else if off = 0x1B0020 ∨ off = 0x1B0038 ∨ inBlock off 0x1B1000 8 16 [0] then done7 s
  else if off = 0x1B0030 then done7 (schedFree (.attestationRequest m owner (w64 v)) (ctlPut m 0x1B0038 0 (ctlPut m off v s)))
  else if writerOf off = some .record then scWrite m off v s
  else if off = 0x260000 then
    if v / 2 ^ 60 = 0 ∨ 4 < v / 2 ^ 60 then refuse7 s else done7 (mgAccept m (v / 2 ^ 60) (v % 1024) (bits v 25 16) s)
  else if off = 0x260010 ∨ inBlock off 0x261000 8 1024 [0] then done7 s
  else if inBlock off 0x270000 0x20 1024 [0x10] then done7 s
  else plainPut m off all v s

/-- A command that resumes a held Caller strand, which only the MC may (R364). -/
def mcOnly (s : State) (m off v : Nat) : Bool :=
  let p := scSlot m off
  decide (writerOf off = some .record ∧ off % 0x20 = 0 ∧ (bits v 7 4 = 1 ∨ bits v 7 4 = 2))
    && (match slotStrand s p.1 p.2 with | some (_, x, _) => decide (x.kind ≠ .core) | none => false)

/-- A write to a control register: refused by the owner rule (2), by R7 (1), or performed (0). -/
def controlWrite (m off owner : Nat) (isMc : Bool) (v : Nat) (s : State) : State × BitVec 2 :=
  if mayWrite s m off owner isMc = false then (s, 2)
  else if !isMc && mcOnly s m off v then refuse7 s else controlPut m off owner v s

def execRegisterWrite (m off owner : Nat) (isMc : Bool) (v : Word) (s : State) : Out := .next (controlWrite m off owner isMc v.toNat s).1

/-! ### sget and sset (R365) -/

/-- An instruction for Caller and MC strands only (R363). -/
def forMasters (i : Instr) (f : State → State) (s : State) : State :=
  if s.me.kind = .core then raise 2 (wordOf i) s else f s

/-- The address of a control register, or the trap that it takes. -/
def withControl (v : Word) (f : Nat → Nat → State → State) (s : State) : State :=
  let a := v.toNat
  let m := bits a 47 40
  let off := bits a 39 0
  if a % 8 ≠ 0 then raise 3 v s
  else if bits a 63 48 ≠ 0 then raise 4 v s
  else if writerOf off = none then raise 5 v s
  else if inPod s (moduleOf s.here) m = false then raise 10 v s
  else f m off s

/-- A request for another module's control space gets there and its answer back: on every link of the way its owner's key is valid at both
ends, and the same (R23, R349). -/
def controlReaches (s : State) (m owner : Nat) : Bool :=
  let up (h : Hop) : Bool := keyValid s h.from_ owner && keyValid s h.to_ owner && decide (linkKey s h.from_ owner = checkKey s h.to_ owner (keyEpoch s h.from_ owner))
  decide (moduleOf s.here = m) || (!(hopsOf s s.here (hubOf m)).isEmpty && (hopsOf s s.here (hubOf m)).all up)

/-- Issue to return: 40 cycles after the memory stage, and the pod hops there and back to another module. -/
def controlTime (s : State) (m : Nat) : Nat := 46 + 2 * podHops s s.here (hubOf m) * podHop 1

/-- The answer of a control space comes back, over the links from another module. -/
def controlAnswer (m : Nat) (e : Instr) (s : State) : State :=
  let out := 46 + podHops s s.here (hubOf m) * podHop 1
  if moduleOf s.here = m then sched (controlTime s m) e s
  else sendOff { plainFrame s.me.owner (hubOf m) s.here [] false e with destSc := some s.mySc } s.fresh out (controlTime s m) (bump s)

/-- A request that no link lets through is dropped at the first, and counted. -/
def controlLost (m : Nat) (s : State) : State :=
  match hopsOf s s.here (hubOf m) with | h :: _ => keyFails h s.me.owner ((tget (hubAt s h.from_).seqTx h.port).getD 0) s | [] => s

def execSget (a d : BitVec 5) (k : BitVec 1) (s : State) : Out :=
  .next (forMasters (.sget a d k) (decodeOk false [a.toNat] [d.toNat] true (fun s =>
    withControl (rv s a) (fun m off s =>
      let v := readFor s m off s.me.owner (decide (s.me.kind = .mc)) ((tget s.me.last m).getD 0)
      let tag := s.fresh
      let s1 := startLate d.toNat 1 (rv s a) false none s
      retire k (if controlReaches s m s.me.owner then controlAnswer m (.lateResultReturn s.here s.cur ⟨tag, w64 v, false, 0⟩) s1 else controlLost m s1)) s)) s)

def execSset (b a : BitVec 5) (k : BitVec 1) (s : State) : Out :=
  .next (forMasters (.sset b a k) (decodeOk false [a.toNat, b.toNat] [] false (fun s =>
    withControl (rv s a) (fun m off s =>
      let id := s.cur
      if controlReaches s m s.me.owner = false then retire k (controlLost m (modMe (fun x => { x with posted := x.posted + 1 }) s))
      else
        let r := controlWrite m off s.me.owner (decide (s.me.kind = .mc)) (rv s b).toNat s
        let s1 : State := { r.1 with cur := id }
        retire k (controlAnswer m (.storeAck (ackFrom (hubOf m) s.here) id)
          (modMe (fun x => { x with posted := x.posted + 1, last := tput x.last m r.2 }) s1))) s)) s)

/-! ### ecall, ebreak, eret, halt (R364) -/

def execEcall (_k : BitVec 1) (s : State) : Out := .next (raise 17 0 s)
def execEbreak (_k : BitVec 1) (s : State) : Out := .next (raise 16 0 s)
def execEret (k : BitVec 1) (s : State) : Out :=
  .next (if s.me.epc.toNat % 4 ≠ 0 then raise 3 s.me.epc s else retireAt s.me.epc k s)

/-- The strand is held with cause 0; a Caller strand, and an MC strand, until the MC acts. -/
def haltOp (s : State) : State :=
  let s := modMe (fun x => { x with epc := x.pc, carried := none }) s
  match s.me.kind with
  | .core => hold s.cur 0 s
  | _ => haltStrand s.cur logHeldCaller 0 s

def execHalt (_k : BitVec 1) (s : State) : Out := .next (haltOp s)

/-! ### tlbi (R343, R367) -/

/-- Retires, and parks until the shoot-down is acknowledged. -/
def shootAndPark (k : BitVec 1) (x : Shot) (quarters : Option (Nat × Nat)) (core cluster : Nat → Bool) (s : State) : State :=
  let id := s.fresh
  modMe (fun x => { x with park := some (.tlbi id k) }) (retire 0 (startShot x s.cur quarters none core cluster s))

def execTlbi (b a : BitVec 5) (k : BitVec 1) (s : State) : Out :=
  .next (
    if s.me.kind = .mc ∨ (s.me.kind = .caller ∧ s.me.owner = 0) then
      decodeOk false [a.toNat, b.toNat] [] false (fun s =>
        let va := (rv s a).toNat
        let w := (rv s b).toNat
        let scope : Option Nat := if bit w 20 then none else some (bits w 19 12)
        match va / 2 ^ 62 with
        | 0 =>
          if bits va 61 56 ≠ 0 ∨ bits va 15 0 ≠ 0 ∨ bits w 63 21 ≠ 0 then raise 4 (rv s a) s
          else shootAndPark k ⟨some (bits w 11 0), some (bits va 55 16 * 65536)⟩ none (moduleScope scope) (clusterScope scope) s
        | 1 =>
          if bits va 61 0 ≠ 0 ∨ bits w 63 21 ≠ 0 then raise 4 (rv s a) s
          else shootAndPark k ⟨some (bits w 11 0), none⟩ none (moduleScope scope) (clusterScope scope) s
        | 2 =>
          if bits va 61 16 ≠ 0 ∨ bits va 7 4 ≠ 0 ∨ w ≠ 0 then raise 4 (rv s a) s
          else shootAndPark k ⟨none, none⟩ (some (bits va 15 8, va % 16)) (quarterScope (bits va 15 8) (va % 16)) (quarterClusters (bits va 15 8) (va % 16)) s
        | _ => raise 4 (rv s a) s) s
    else raise 2 (wordOf (.tlbi b a k)) s)

/-! ### kill (R366) -/

/-- A strand kill has been performed: no filter waits for the strand any more. -/
def killPerformed (s : State) (sid : Nat) : Bool := (tget (coreAt s (sid / 32)).filters sid).isNone

/-- A context removal has ended. -/
def removalEnded (s : State) (g : Nat) : Bool :=
  match tget s.grids g with | some q => decide (q.state ≠ 1 ∧ q.state ≠ 2) && q.removal.isNone | none => true

def execKill (a : BitVec 5) (k : BitVec 1) (s : State) : Out :=
  .next (forMasters (.kill a k) (decodeOk false [a.toNat] [] false (fun s =>
    let v := (rv s a).toNat
    let id := s.cur
    let mine (o : Nat) : Bool := decide (o = s.me.owner ∨ s.me.owner = 0)
    match v / 2 ^ 62 with
    | 0 =>
      if bits v 61 23 ≠ 0 then raise 4 (rv s a) s
      else match (match tget s.strands v with | some x => some x | none => tget s.store v) with
        | none => retire k s
        | some x =>
          if mine x.owner = false then raise 6 (rv s a) s
          else if x.run = .idle then retire k s
          else
            let s1 : State := { strandKill v 0 s with cur := id }
            modMe (fun x => { x with park := some (.killStrand v k) }) (retire 0 s1)
    | 1 =>
      let g := bits v 31 0
      if bits v 61 32 ≠ 0 then raise 4 (rv s a) s
      else match tget s.grids g with
        | none => retire k s
        | some q =>
          if mine q.owner = false then raise 6 (rv s a) s
          else if q.state ≠ 1 ∧ q.state ≠ 2 then retire k s
          else
            let s1 : State := { removeGrid g s with cur := id }
            modMe (fun x => { x with park := some (.killGrid g k) }) (retire 0 s1)
    | _ => raise 4 (rv s a) s)) s)

end

end Sys2Proof.Machine
end

