-- ==== Sys2Proof/Machine/Boot.lean ====
section
/-! DEFINITION. Flash records and their use (R398), the resets (R399) and the bring-up (R400), the fallback of a boot (R396). -/

namespace Sys2Proof.Machine

open Sys2Proof

noncomputable section

/-! ### Configuration records (R398) -/

/-- What a record sets. Limits may be lowered, not raised (R403). -/
def recordSets (m : Nat) (r : RecordBody) (s : State) : State :=
  let set (f : Applied → Applied) : State := modHub m (fun h => { h with applied := f h.applied }) s
  match r with
  | .block ws => ws.foldl (fun s w => (controlWrite m w.1 0 true w.2.toNat s).1) s
  | .number n => set (fun a => { a with number := some n })
  | .rail mv => set (fun a => { a with rail := some mv })
  | .limits l d lw dw => set (fun a => { a with limits := (min a.limits.1 l, min a.limits.2.1 d, min a.limits.2.2.1 lw, min a.limits.2.2.2 dw) })
  | .minVersion v => set (fun a => { a with minVersion := v })
  | .enrol k => modHub m (fun h => { h with flash := { h.flash with landlord := some k } }) s

/-- A record verifies: under the Orohan key if it enrols the landlord's, which it does once; else under the landlord's key. -/
def recordVerifies (h : Hub) (r : FlashRecord) : Bool :=
  let d := Config.sha384 r.bytes
  match r.body, h.flash.landlord with
  | .enrol k, some l => decide (k = l) && Config.ecdsaVerifies d r.sig
  | .enrol _, none => Config.ecdsaVerifies d r.sig
  | _, some l => Config.landlordVerifies l d r.sig
  | _, none => false

/-- The MC applies a record, or logs that it fails and leaves its block at its reset values. -/
def applyRecord (m : Nat) (s : State) (r : FlashRecord) : State :=
  if recordVerifies (hubAt s m) r = false then mcLog m logConfig 0 0 (mcOf m) 0 s
  else modHub m (fun h => { h with applied := { h.applied with bytes := h.applied.bytes ++ r.bytes } }) (recordSets m r.body s)

/-- Its records in flash order. -/
def applyRecords (m : Nat) (s : State) : State := (hubAt s m).flash.records.foldl (applyRecord m) s

/-! ### What a reset leaves (R62, R399, R400) -/

/-- A hub whose bring-up begins at a step: only flash survives, the log, the firmware banks and the records; a marked bank runs. -/
def hubAfter (h : Hub) (now step : Nat) : Hub :=
  { Hub.reset with
    cycle0 := now, bringup := step, halted := true, log := h.log, logFirst := h.logFirst, flash := h.flash
    fwRunning := if h.fwMarked = 0 then h.fwRunning else h.fwMarked - 1, bootCount := h.bootCount + 1 }

/-- A physical address of a module's memories. -/
def ofModule (m a : Nat) : Bool := decide ((a < 2 ^ 56 ∧ a / 2 ^ 48 = m) ∨ (2 ^ 56 ≤ a ∧ a < 2 ^ 57 ∧ (a - 2 ^ 56) / 2 ^ 22 = m)
  ∨ (2 ^ 57 ≤ a ∧ moduleOf ((a - 2 ^ 57) / 4096 / 32) = m))

/-- An event is the work of a module's own cores, slices, dispatchers or hub, as their tables stood before the reset; t is what the reset
leaves: what is there still goes on. -/
def actsIn (s t : State) (m : Nat) (e : Instr) : Bool :=
  let here (p : Nat) : Bool := decide (moduleOf p = m)
  let strand (i : Nat) : Bool := (tget t.strands i).isNone || here (strandAt s i).place
  let carried (i : Nat) : Bool := (tget t.packets i).isNone && (tget t.pieces i).isNone && (tget t.rmsgs i).isNone && (tget t.frames i).isNone
  match e with
  | .strandArrival i => carried i
  | .evictionReturn i => carried i
  | .stoppedReturn i => carried i
  | .boundaryStop i => carried i
  | .linkFailure i => carried i
  | .podFrameReceive _ _ i _ => (tget t.frames i).isNone
  | .guestEviction i => strand i
  | .parkWake i => strand i
  | .strandPromotion i => strand i
  | .strandKill i _ => strand i
  | .doubleFault i => strand i
  | .thiefRetry i => strand i
  | .forwardedResult i _ => here (i / 32)
  | .killNotice i => here (i / 32)
  | .lateResultReturn p _ _ => here p
  | .storeAck p _ => here (ackPlace p)
  | .symbolResolution p _ _ => here p
  | .meetingExpiry p _ => here p
  | .meetingPaired p _ => here p
  | .feWaiterService p _ => here p
  | .joinListService p _ => here p
  | .barWaitService p _ => here p
  | .translationFill p _ _ => here p
  | .tileSetDown p _ _ _ => here p
  | .tileDeliveryFault p _ _ _ => here p
  | .rangeLockRelease p _ => here p
  | .vectorEntryAccept p _ => here p
  | .vectorEntryComplete p _ => here p
  | .matrixCommandStart p => here p
  | .matrixCommandComplete p => here p
  | .dequeTakeRequest p _ _ => here p
  | .dequeIncrementAccepted p _ => here p
  | .dequeAdjustmentAccepted p _ _ => here p
  | .vaultGranuleMove p => here p
  | .replayDelivery p => here p
  | .noticeArrival n => here n.place
  | .storeAccepted i => t.stores.all (fun p => p.id != i)
  | .vaultFillReturn c _ => decide (sliceModule c = m)
  | .writeBackDrain c => decide (sliceModule c = m)
  | .watchTimeout c _ => decide (sliceModule c = m)
  | .tableWalkComplete c _ => decide (sliceModule c = m)
  | .combineWindowClose c _ => decide (sliceModule c = m)
  | .tokenAccrual c => decide (sliceModule c = m)
  | .blockStart _ c => decide (sliceModule c = m)
  | .courierPieceLaunch i => (tget t.ops i).isNone
  | .courierPickUp i => (tget t.pieces i).isNone
  | .courierSetDown i => (tget t.pieces i).isNone
  | .engineCompletionReport i => (tget t.pieces i).isNone
  | .ringPieceArrival i => (tget t.pieces i).isNone
  | .ringPieceRelaunch i => (tget t.pieces i).isNone
  | .sliceCacheRequest i => (tget t.pieces i).isNone
  | .reductionNodeArrival i => (tget t.rmsgs i).isNone
  | .reductionRelaunch i => (tget t.rmsgs i).isNone
  | .thiefVictimArrival i => (tget t.thieves i).isNone
  | .thiefFrameArrival i => (tget t.thieves i).isNone
  | .barrierRelease i => t.episodes.all (fun e => e.id != i)
  | .blockCompletion b => (tget t.blocks b).isNone
  | .blockEndReport b _ => (tget t.blocks b).isNone
  | .preemptSuspend b => (tget t.blocks b).isNone
  | .preemptRestore b => (tget t.blocks b).isNone
  | .blockRerun b => (tget t.blocks b).isNone
  | .gridDone g => (tget t.grids g).isNone
  | .dealingRequest g _ => (tget t.grids g).isNone
  | .dealingGrant g _ => (tget t.grids g).isNone
  | .cancelStop g _ => (tget t.grids g).isNone
  | .moduleAnswerTimeout g _ => (tget t.grids g).isNone
  | .contextRemoval g => (tget t.grids g).isNone
  | .contextRemovalStepEnd g => (tget t.grids g).isNone
  | .migrationStreamDone n => n == m
  | .eventWaitTimeout n _ => n == m
  | .remoteEvsigArrival n _ _ => n == m
  | .hostWriteAck n => n == m
  | .mailboxCommit n _ => n == m
  | .completionRecordWrite n _ => n == m
  | .cqHeadWrite n _ _ => n == m
  | .fwUpdateStart n => n == m
  | .fwBankMark n => n == m
  | .bootFallback n => n == m
  | .attestationRequest n _ _ => n == m
  | .sensorSample n => n == m
  | .oldKeyExpiry n _ => n == m
  | .logEntrySelect n _ => n == m
  | .podPortTraining n _ _ => n == m
  | .moduleResetRequest n _ => n == m
  | .moduleReset n => decide (n % 256 = m)
  | _ => false

/-- The cables of a module: those that are listed, and those that its routes name, as links out of it. -/
def cablesOf (s : State) (m : Nat) : List Hop :=
  let listed := (List.range 64).filterMap (fun p => (tget s.cables (64 * m + p)).map (fun v => (⟨m, p, v / 64 % 256, v % 64⟩ : Hop)))
  let routed := (List.range 256).filterMap (fun b =>
    if b ≠ m ∧ bit (routeEntry s m b) 7 then
      let p := bits (routeEntry s m b) 5 0
      let e := farEnd s m p b
      some (⟨m, p, e.1, e.2⟩ : Hop)
    else none)
  (listed ++ routed).eraseDups

/-- Strands of another module that a reset loses: guests on the module, and those in a packet for it (R62, R63; log 57). -/
def lostWith (s : State) (m : Nat) : List Nat :=
  let here (p : Nat) : Bool := decide (moduleOf p = m)
  (s.strands.filter (fun e => !here e.2.native &&
    (if e.2.away then s.packets.any (fun p => decide (p.2.sid = e.1) && here p.2.dest) else here e.2.place))).map Prod.fst

/-- What a reset of a module clears: everything of it; what was on its way to it is lost. A strand packet that has left it is sent in full,
and a strand that stands on another module stands there still (R62). Its links go down, with what is on them (R63, R389). -/
def clearModule (m step : Nat) (s : State) : State :=
  let here (p : Nat) : Bool := decide (moduleOf p = m)
  let lost := lostWith s m
  let flies (i : Nat) : Bool := s.packets.any (fun p => decide (p.2.sid = i) && !here p.2.dest)
  let stays (e : Nat × Strand) : Bool := lost.contains e.1 || if e.2.away then flies e.1 || !here e.2.native && !here e.2.place else !here e.2.place
  let gone := (s.strands.filter (fun e => !stays e)).map Prod.fst
  let onLinks := (s.frames.filter (fun f => f.2.sent.isSome && (decide (f.2.hop.from_ = m) || decide (f.2.hop.to_ = m)))).map Prod.fst
  let cut := (s.pieces.filter (fun p => !here p.2.origin && decide (p.2.stage < 6)
    && (decide (p.2.stage ≤ 2) && here (homeOf p.2.src) || decide (3 ≤ p.2.stage)
      && (match tget s.ops p.2.op with | some o => here (if isPut o then o.home else homeOf p.2.dst) | none => false)))).map Prod.fst
  let links := cablesOf s m
  let s0 := gone.foldl (fun s i => leaveEpisodes i s) s
  let t : State := { s0 with
    oracle := s0.oracle + 1
    mem := s0.mem.filter (fun c => !ofModule m c.1), poison := s0.poison.filter (fun g => !ofModule m (g * 32))
    empties := s0.empties.filter (fun w => !ofModule m (w * 8)), rows := s0.rows.filter (fun r => decide (r.1 / 16 / 96 / 32 ≠ m))
    absents := s0.absents.filter (fun a => !ofModule m a.1)
    strands := (s0.strands.filter stays).map (fun e => if lost.contains e.1 then (e.1, { e.2 with away := true, park := none, flight := none }) else e)
    store := s0.store.filter (fun e => !here e.2.native)
    cores := s0.cores.filter (fun c => !here c.1), slices := s0.slices.filter (fun k => decide (sliceModule k.1 ≠ m))
    stores := s0.stores.filter (fun p => !here p.place && !here (homeOf p.pa))
    packets := s0.packets.filter (fun p => !here p.2.dest)
    thieves := s0.thieves.filter (fun t => !here (t.2.sid / 32)), ops := s0.ops.filter (fun o => !here o.2.place)
    pieces := s0.pieces.filter (fun p => !here p.2.origin), rmsgs := s0.rmsgs.filter (fun r => !here r.2.o.place)
    grids := s0.grids.filter (fun g => !here g.2.caller), blocks := s0.blocks.filter (fun b => !here b.2.core)
    episodes := s0.episodes.filter (fun e => (tget s0.grids e.grid).any (fun g => !here g.caller))
    tlbis := s0.tlbis.filter (fun t => !here (t.2.sid / 32)), arrivals := s0.arrivals.filter (fun a => !here a.1)
    hubs := tput s0.hubs m (hubAfter (hubAt s0 m) s.now step) }
  let keeps (f : Nat × Frame) : Bool :=
    onLinks.contains f.1 || (tget t.packets f.1).isSome || (tget t.pieces f.1).isSome || (tget t.rmsgs f.1).isSome
      || (tget s0.packets f.1).isNone && (tget s0.pieces f.1).isNone && (tget s0.rmsgs f.1).isNone && !here f.2.dest
  let t : State := { t with frames := t.frames.filter keeps }
  let t : State := { t with agenda := t.agenda.filter (fun e => !actsIn s t m e.2 && (match e.2 with | .podFrameReceive _ _ i _ => !onLinks.contains i | _ => true)) }
  let t := links.foldl (fun t h => portDown h.to_ h.inPort t) t
  lost.foldl (fun t i => schedFree (.killNotice i) t) ((onLinks ++ cut).eraseDups.foldl (fun t i => schedFree (.linkFailure i) t) t)

/-! ### Bring-up (R396, R399, R400) -/

/-- The event that brings a module's bring-up to its next step; it names the boot, since a reset may come before it. -/
def nextStep (s : State) (m : Nat) : Instr := .moduleReset (m + 256 * (hubAt s m).bootCount)

/-- Step 2 begins: the marked bank boots, or fails, which takes its time (R396). -/
def boot (m : Nat) (marked : Bool) (s : State) : State :=
  let s1 : State := { s with oracle := s.oracle + 1 }
  if marked && !Config.bankBoots s.oracle then schedFree (.bootFallback m) s1 else schedFree (nextStep s m) s1

/-- The marked bank fails: the MC boots the other one and logs the fallback (R396). -/
def bootOther (m : Nat) (s : State) : State :=
  let s := mcLog m logFirmware 8 0 (mcOf m) 0 (modHub m (fun h => { h with fwRunning := 1 - h.fwRunning, fwMarked := 0 }) s)
  if (hubAt s m).bringup < 6 then schedFree (nextStep s m) s else s

def execBootFallback (m : Nat) (s : State) : Out := .next (bootOther m s)

/-- The bring-up goes on: the MC has booted and applies its records, and the ports train while memory is cleared; then it ends, and the
module runs. -/
def bringUp (m : Nat) (s : State) : State :=
  if (hubAt s m).bringup ≤ 2 then
    let s := modHub m (fun h => { h with bringup := 5 }) (applyRecords m s)
    schedFree (nextStep s m) ((List.range 64).foldl (fun s p => schedFree (.podPortTraining m p 8) (setPort m p 0 1 s)) s)
  else modHub m (fun h => { h with bringup := 6, halted := false, cycle0 := s.now }) s

/-- A module reset: the module is halted while its bring-up runs from step 2 (R399, R400); or the next step of a bring-up, if no other
reset has come meanwhile. -/
def resetModule (v : Nat) (s : State) : State :=
  let m := v % 256
  if v < 256 then boot m (decide ((hubAt s m).fwMarked ≠ 0)) (clearModule m 2 (mcLog m logReset 0 0 (mcOf m) 0 s))
  else if (hubAt s m).bootCount = v / 256 ∧ (hubAt s m).bringup < 6 then bringUp m s else s

def execModuleReset (m : Nat) (s : State) : Out := .next (resetModule m s)

/-- A cold reset: every module of the pod is brought up from its first step (R400). -/
def resetCold (s : State) : State :=
  let hubs := if s.hubs.isEmpty then [(0, Hub.reset)] else s.hubs
  let t : State := { State.reset with
    now := s.now, fresh := s.fresh, oracle := s.oracle, cables := s.cables, hostOut := s.hostOut
    hubs := hubs.map (fun h => (h.1, hubAfter h.2 s.now 1)) }
  hubs.foldl (fun t h => boot h.1 (decide (h.2.fwMarked ≠ 0)) t) t

def execColdReset (s : State) : Out := .next (resetCold s)

end

end Sys2Proof.Machine
end

