-- ==== Sys2Proof/Machine/Memory.lean ====
section
/-! DEFINITION. Loads, stores, atomics, full/empty words and watch: majors 0x01 to 0x04, 0x0D, 0x0E (R143 to R155). -/

namespace Sys2Proof.Machine

open Sys2Proof

noncomputable section

/-! ### Loads and stores (R147) -/

/-- The loaded bytes as a register value. -/
def extend (signed : Bool) (bs : List Byte) : Word :=
  if signed then sextN (leNat bs) (8 * bs.length) else zextN (leNat bs) (8 * bs.length)

/-- A load of the vault that the slice performs now. -/
def loadNow (a : VAcc) (s : State) : State := performLoad a (extend a.signed) s

/-- ld_op. -/
def ldOp (size : Nat) (signed : Bool) (d : BitVec 5) (k : BitVec 1) (c : Carry) (s : State) : State :=
  atPort c size .load (fun s =>
    let done (v : Word) (s : State) : State := retireAcc c.ord false k (wr d.toNat v s)
    match space s c.pa with
    | .vault core _ =>
      let late (s : State) : State :=
        let a : VAcc := ⟨.load, s.cur, s.fresh, c.pa, size, c.pol, signed, .tokenAccrual 0, 0, 0, 0, false⟩
        retireAcc c.ord false k (vaultAccess a (l1Refill core a.tag c.pa c.pol (startLate d.toNat 1 c.va false none s)))
      match (if c.pol = 2 then none else l1Find s core c.pa) with
      | none => late s
      | some l =>
        let s1 : State := { s with oracle := s.oracle + 1 }
        if Config.l1Keeps s.oracle then done (extend signed ((List.range size).map (fun i => lineByte l.data (c.pa % 128 + i)))) s1
        else late (modCore core (fun q => { q with l1 := q.l1.filter (fun o => o.line != l.line) }) s1)
    | .win core w i =>
      let sc := scaleAt s s.now w i
      if winBad s core w i sc then raise 8 c.va s
      else done (extend signed (leBytes 4 (winRead s core w i sc))) s
    | .hub m _ =>
      -- a Caller has no scratchpad: hub SRAM answers with a pending result, in a time that the spec does not give (R26, R416; log 3)
      let v : LateValue := ⟨s.fresh, extend signed (memRead s.mem c.pa size), poisoned s c.pa size, 0⟩
      retireAcc c.ord false k (schedFree (.lateResultReturn (hubOf m) s.cur v) (startLate d.toNat 1 c.va false none s))
    | _ => if poisoned s c.pa size then raise 8 c.va s else done (extend signed (memRead s.mem c.pa size)) s) s

/-- A load of either form. -/
def load (size : Nat) (signed : Bool) (imm : Word) (suffix : BitVec 2) (o : BitVec 2) (n : BitVec 6) (x d : BitVec 5)
    (k : BitVec 1) (s : State) : State :=
  decodeOk false [x.toNat] [d.toNat] true (fun s =>
    access n.toNat (rv s x + imm) size true false suffix.toNat (fun s => orderOf s o n.toNat) k
      (fun s => retire k (wr d.toNat 0 s)) (ldOp size signed d k) s) s

/-- sext(imm6, 6)·size. -/
def imm6 (i : BitVec 6) (size : Nat) : Word := i.signExtend 64 * w64 size

/-- st_op: an SRAM store is performed, and so accepted, at entry. -/
def stOp (size : Nat) (v : Word) (k : BitVec 1) (c : Carry) (s : State) : State :=
  atPort c size .store (fun s =>
    match space s c.pa with
    | .vault _ _ => retireAcc c.ord true k (postStore c.pa (leBytes size v.toNat) c.pol s)
    | .win core w i =>
      let q := winEncode w v.toNat
      let (o, b) := elemAt w i
      retireAcc c.ord true k (accrue q.2 (sramWrite (sramBase core + o) (leBytes b q.1) s))
    | _ => retireAcc c.ord true k (sramWrite c.pa (leBytes size v.toNat) s)) s

def store (size : Nat) (imm : Word) (suffix : BitVec 2) (o : BitVec 2) (n : BitVec 6) (x v : BitVec 5) (k : BitVec 1)
    (s : State) : State :=
  decodeOk false [x.toNat, v.toNat] [] false (fun s =>
    access n.toNat (rv s x + imm) size false true suffix.toNat (fun s => orderOf s o n.toNat) k (retire k)
      (fun c s => stOp size (rv s v) k c s) s) s

def execLdB (i n : BitVec 6) (x d : BitVec 5) (k : BitVec 1) (s : State) : Out := .next (load 1 true (imm6 i 1) 0 0 n x d k s)
def execLdH (i n : BitVec 6) (x d : BitVec 5) (k : BitVec 1) (s : State) : Out := .next (load 2 true (imm6 i 2) 0 0 n x d k s)
def execLdW (i n : BitVec 6) (x d : BitVec 5) (k : BitVec 1) (s : State) : Out := .next (load 4 true (imm6 i 4) 0 0 n x d k s)
def execLdD (i n : BitVec 6) (x d : BitVec 5) (k : BitVec 1) (s : State) : Out := .next (load 8 true (imm6 i 8) 0 0 n x d k s)
def execLdBu (i n : BitVec 6) (x d : BitVec 5) (k : BitVec 1) (s : State) : Out := .next (load 1 false (imm6 i 1) 0 0 n x d k s)
def execLdHu (i n : BitVec 6) (x d : BitVec 5) (k : BitVec 1) (s : State) : Out := .next (load 2 false (imm6 i 2) 0 0 n x d k s)
def execLdWu (i n : BitVec 6) (x d : BitVec 5) (k : BitVec 1) (s : State) : Out := .next (load 4 false (imm6 i 4) 0 0 n x d k s)
def execLdBMx (o p : BitVec 2) (n : BitVec 6) (x d : BitVec 5) (k : BitVec 1) (s : State) : Out := .next (load 1 true 0 p o n x d k s)
def execLdHMx (o p : BitVec 2) (n : BitVec 6) (x d : BitVec 5) (k : BitVec 1) (s : State) : Out := .next (load 2 true 0 p o n x d k s)
def execLdWMx (o p : BitVec 2) (n : BitVec 6) (x d : BitVec 5) (k : BitVec 1) (s : State) : Out := .next (load 4 true 0 p o n x d k s)
def execLdDMx (o p : BitVec 2) (n : BitVec 6) (x d : BitVec 5) (k : BitVec 1) (s : State) : Out := .next (load 8 true 0 p o n x d k s)
def execLdBuMx (o p : BitVec 2) (n : BitVec 6) (x d : BitVec 5) (k : BitVec 1) (s : State) : Out := .next (load 1 false 0 p o n x d k s)
def execLdHuMx (o p : BitVec 2) (n : BitVec 6) (x d : BitVec 5) (k : BitVec 1) (s : State) : Out := .next (load 2 false 0 p o n x d k s)
def execLdWuMx (o p : BitVec 2) (n : BitVec 6) (x d : BitVec 5) (k : BitVec 1) (s : State) : Out := .next (load 4 false 0 p o n x d k s)
def execStB (i n : BitVec 6) (x v : BitVec 5) (k : BitVec 1) (s : State) : Out := .next (store 1 (imm6 i 1) 0 0 n x v k s)
def execStH (i n : BitVec 6) (x v : BitVec 5) (k : BitVec 1) (s : State) : Out := .next (store 2 (imm6 i 2) 0 0 n x v k s)
def execStW (i n : BitVec 6) (x v : BitVec 5) (k : BitVec 1) (s : State) : Out := .next (store 4 (imm6 i 4) 0 0 n x v k s)
def execStD (i n : BitVec 6) (x v : BitVec 5) (k : BitVec 1) (s : State) : Out := .next (store 8 (imm6 i 8) 0 0 n x v k s)
def execStBMx (o p : BitVec 2) (n : BitVec 6) (x v : BitVec 5) (k : BitVec 1) (s : State) : Out := .next (store 1 0 p o n x v k s)
def execStHMx (o p : BitVec 2) (n : BitVec 6) (x v : BitVec 5) (k : BitVec 1) (s : State) : Out := .next (store 2 0 p o n x v k s)
def execStWMx (o p : BitVec 2) (n : BitVec 6) (x v : BitVec 5) (k : BitVec 1) (s : State) : Out := .next (store 4 0 p o n x v k s)
def execStDMx (o p : BitVec 2) (n : BitVec 6) (x v : BitVec 5) (k : BitVec 1) (s : State) : Out := .next (store 8 0 p o n x v k s)

/-! ### Atomics (R149, R150) -/

/-- The signed value of w bits. -/
def sgn (w v : Nat) : Int := if bit v (w - 1) then (v : Int) - (2 ^ w : Nat) else v

/-- The new memory value, sd and the flags of an atomic of w bits on memory value m, with operands a and b of w bits (R150). -/
def amoNew (i : Instr) (w : Nat) (mode : BitVec 2) (ftz : Bool) (a b m : Nat) : Nat × Word × FFlags :=
  match i with
  | .amoAdd .. => ((m + a) % 2 ^ w, sextN m w, 0)
  | .amoSwap .. => (a, sextN m w, 0)
  | .amoAnd .. => (m &&& a, sextN m w, 0)
  | .amoOr .. => (m ||| a, sextN m w, 0)
  | .amoXor .. => (m ^^^ a, sextN m w, 0)
  | .amoMin .. => (if sgn w a < sgn w m then a else m, sextN m w, 0)
  | .amoMax .. => (if sgn w m < sgn w a then a else m, sextN m w, 0)
  | .amoMinu .. => (min m a, sextN m w, 0)
  | .amoMaxu .. => (max m a, sextN m w, 0)
  | .amoFaddS .. => let r := fopArith .fadd 5 mode ftz m a 0; (r.1, w64 m, r.2)
  | _ => (if m = a then b else m, sextN m w, 0)

/-- What an atomic does to the memory value. -/
def amoDoes (a : VAcc) (m : Nat) : Nat × Word × FFlags :=
  amoNew a.instr (8 * a.size) a.mode a.ftz (a.a.toNat % 2 ^ (8 * a.size)) (a.b.toNat % 2 ^ (8 * a.size)) m

/-- An atomic of the vault that the slice performs now: read, computed and written in one step (R150). -/
def amoNow (a : VAcc) (s : State) : State :=
  let home := homeOf a.pa
  let r := amoDoes a (leNat (sliceRead s a.pa a.size))
  let v : LateValue := ⟨a.tag, r.2.1, poisoned s a.pa a.size, r.2.2⟩
  let t := readReturn a s
  sched (t.1 - s.now) (.lateResultReturn home a.sid v)
    (if v.poison then t.2 else sliceUpdate a.pa (leBytes a.size r.1) a.pol (chargeOf s a.sid) t.2)

/-- amo_op for an instruction with its operands. -/
def amoOp (i : Instr) (size : Nat) (d : BitVec 5) (k : BitVec 1) (c : Carry) (s : State) : State :=
  let fadd := match i with | .amoFaddS .. => true | _ => false
  let a : VAcc := ⟨.amo, s.cur, s.fresh, c.pa, size, c.pol, false, i, rv s d, regVal s.me (d.toNat + 1), rmOf s.me, ftzOf s.me⟩
  atPort c size .amo (fun s =>
    if poisoned s c.pa size then raise 8 c.va s
    else match space s c.pa with
    | .vault core _ => retireAcc c.ord false k (vaultAccess a (invalL1Range core c.pa size (startLate d.toNat 1 c.va fadd none s)))
    | .hub m _ =>
      let r := amoDoes a (peekN s c.pa size)
      let s1 := sramWrite c.pa (leBytes size r.1) (startLate d.toNat 1 c.va fadd none s)
      retireAcc c.ord false k (schedFree (.lateResultReturn (hubOf m) s.cur ⟨a.tag, r.2.1, false, r.2.2⟩) s1)
    | _ =>
      let r := amoDoes a (peekN s c.pa size)
      retireAcc c.ord false k (accrue r.2.2 (wr d.toNat r.2.1 (sramWrite c.pa (leBytes size r.1) s)))) s

/-- An atomic of either size; srcs are its sources beside rx. -/
def amo (i : Instr) (size : Nat) (srcs : List Nat) (o : BitVec 2) (n : BitVec 6) (x d : BitVec 5) (k : BitVec 1) (s : State) : State :=
  decodeOk false (x.toNat :: srcs) [d.toNat] true (fun s =>
    access n.toNat (rv s x) size true true 0 (fun s => orderOf s o n.toNat) k (fun s => retire k (wr d.toNat 0 s))
      (amoOp i size d k) s) s

/-- The size that a z bit names. -/
def amoSize (z : BitVec 1) : Nat := if z = 1 then 8 else 4

def execAmoAdd (o : BitVec 2) (n : BitVec 6) (x : BitVec 5) (z : BitVec 1) (d : BitVec 5) (k : BitVec 1) (s : State) : Out :=
  .next (amo (.amoAdd o n x z d k) (amoSize z) [d.toNat] o n x d k s)
def execAmoSwap (o : BitVec 2) (n : BitVec 6) (x : BitVec 5) (z : BitVec 1) (d : BitVec 5) (k : BitVec 1) (s : State) : Out :=
  .next (amo (.amoSwap o n x z d k) (amoSize z) [d.toNat] o n x d k s)
def execAmoAnd (o : BitVec 2) (n : BitVec 6) (x : BitVec 5) (z : BitVec 1) (d : BitVec 5) (k : BitVec 1) (s : State) : Out :=
  .next (amo (.amoAnd o n x z d k) (amoSize z) [d.toNat] o n x d k s)
def execAmoOr (o : BitVec 2) (n : BitVec 6) (x : BitVec 5) (z : BitVec 1) (d : BitVec 5) (k : BitVec 1) (s : State) : Out :=
  .next (amo (.amoOr o n x z d k) (amoSize z) [d.toNat] o n x d k s)
def execAmoXor (o : BitVec 2) (n : BitVec 6) (x : BitVec 5) (z : BitVec 1) (d : BitVec 5) (k : BitVec 1) (s : State) : Out :=
  .next (amo (.amoXor o n x z d k) (amoSize z) [d.toNat] o n x d k s)
def execAmoMin (o : BitVec 2) (n : BitVec 6) (x : BitVec 5) (z : BitVec 1) (d : BitVec 5) (k : BitVec 1) (s : State) : Out :=
  .next (amo (.amoMin o n x z d k) (amoSize z) [d.toNat] o n x d k s)
def execAmoMax (o : BitVec 2) (n : BitVec 6) (x : BitVec 5) (z : BitVec 1) (d : BitVec 5) (k : BitVec 1) (s : State) : Out :=
  .next (amo (.amoMax o n x z d k) (amoSize z) [d.toNat] o n x d k s)
def execAmoMinu (o : BitVec 2) (n : BitVec 6) (x : BitVec 5) (z : BitVec 1) (d : BitVec 5) (k : BitVec 1) (s : State) : Out :=
  .next (amo (.amoMinu o n x z d k) (amoSize z) [d.toNat] o n x d k s)
def execAmoMaxu (o : BitVec 2) (n : BitVec 6) (x : BitVec 5) (z : BitVec 1) (d : BitVec 5) (k : BitVec 1) (s : State) : Out :=
  .next (amo (.amoMaxu o n x z d k) (amoSize z) [d.toNat] o n x d k s)

def execAmoFaddS (o : BitVec 2) (n : BitVec 6) (x d : BitVec 5) (k : BitVec 1) (s : State) : Out :=
  .next (amo (.amoFaddS o n x d k) 4 [d.toNat] o n x d k s)

def execAmoCas (o : BitVec 2) (n : BitVec 6) (x : BitVec 5) (z : BitVec 1) (d : BitVec 5) (k : BitVec 1) (s : State) : Out :=
  .next (amo (.amoCas o n x z d k) (amoSize z) [d.toNat, d.toNat + 1] o n x d k s)

/-! ### Full/empty words (R151 to R153) -/

/-- The full/empty unit is to look at a word's waiters. -/
def feDue (s : State) (core word : Nat) : Bool := s.agenda.any (fun e => decide (e.2 = .feWaiterService core word))

/-- Lets the full/empty unit look at a word's waiters in the next cycle: one service of a word in each cycle, the first in the cycle
after a change of its state (R153). -/
def feKick (changed : Bool) (core word : Nat) (s : State) : State :=
  if (coreAt s core).fe.any (fun w => decide (w.word = word)) = false then s
  else if changed then schedNext (.feWaiterService core word) { s with agenda := s.agenda.filter (fun e => decide (e.2 ≠ .feWaiterService core word)) }
  else if feDue s core word then s
  else schedNext (.feWaiterService core word) s

/-- Readers of a word wait; gives of a word wait. -/
def feReaders (s : State) (core word : Nat) : Bool := (coreAt s core).fe.any (fun w => decide (w.word = word ∧ w.kind ≠ .give))
def feGivers (s : State) (core word : Nat) : Bool := (coreAt s core).fe.any (fun w => decide (w.word = word ∧ w.kind = .give))

def feWrite (core word : Nat) (v : Word) (s : State) : State :=
  feKick (feEmpty s word) core word (setFull word (sramWrite word (leBytes 8 v.toNat) s))

/-- A full/empty access: not on the Caller or the MC (R308, R393), through the checks of an atomic. -/
def feAccess (i : Instr) (srcs dsts : List Nat) (late : Bool) (o : BitVec 2) (n : BitVec 6) (x : BitVec 5) (k : BitVec 1)
    (onNone : State → State) (op : Carry → State → State) (s : State) : State :=
  allowed i true false true (decodeOk false (x.toNat :: srcs) dsts late (fun s =>
    access n.toNat (rv s x) 8 true true 0 (fun s => orderOf s o n.toNat) k onNone (fun c s => atPort c 8 .fe (op c) s) s)) s

/-- take and peek: read a full word, or wait with sd pending. -/
def feRead (kind : FEKind) (d : BitVec 5) (k : BitVec 1) (c : Carry) (s : State) : State :=
  let core := homeOf c.pa
  if feEmpty s c.pa = false ∧ feReaders s core c.pa = false then
    if poisoned s c.pa 8 then raise 8 c.va s
    else
      let v := w64 (peek8 s c.pa)
      let s1 := if kind = .take then feKick true core c.pa (setEmpty c.pa s) else s
      retireAcc c.ord false k (wr d.toNat v s1)
  else if 64 ≤ (coreAt s core).fe.length then park .feList s
  else
    let w : FEWait := ⟨s.cur, kind, c.pa, s.fresh, 0⟩
    let s1 := modCore core (fun q => { q with fe := q.fe ++ [w] }) (startLate d.toNat 3 c.va false none s)
    retireAcc c.ord false k (if feEmpty s c.pa then s1 else feKick false core c.pa s1)

def execTake (o : BitVec 2) (n : BitVec 6) (x d : BitVec 5) (k : BitVec 1) (s : State) : Out :=
  .next (feAccess (.take o n x d k) [] [d.toNat] true o n x k (fun s => retire k (wr d.toNat 0 s)) (feRead .take d k) s)
def execPeek (o : BitVec 2) (n : BitVec 6) (x d : BitVec 5) (k : BitVec 1) (s : State) : Out :=
  .next (feAccess (.peek o n x d k) [] [d.toNat] true o n x k (fun s => retire k (wr d.toNat 0 s)) (feRead .peek d k) s)

def execGive (o : BitVec 2) (n : BitVec 6) (x v : BitVec 5) (k : BitVec 1) (s : State) : Out :=
  .next (feAccess (.give o n x v k) [v.toNat] [] false o n x k (retire k) (fun c s =>
    let core := homeOf c.pa
    if feEmpty s c.pa = true ∧ feGivers s core c.pa = false then retireAcc c.ord true k (feWrite core c.pa (rv s v) s)
    else if 64 ≤ (coreAt s core).fe.length then park .feList s
    else
      let w : FEWait := ⟨s.cur, .give, c.pa, 0, rv s v⟩
      let s1 := modMe (fun x => { x with gives := x.gives + 1 }) (modCore core (fun q => { q with fe := q.fe ++ [w] }) s)
      retireAcc c.ord true k (if feEmpty s c.pa then feKick false core c.pa s1 else s1)) s)

def execFill (o : BitVec 2) (n : BitVec 6) (x v : BitVec 5) (k : BitVec 1) (s : State) : Out :=
  .next (feAccess (.fill o n x v k) [v.toNat] [] false o n x k (retire k) (fun c s =>
    retireAcc c.ord true k (feWrite (homeOf c.pa) c.pa (rv s v) s)) s)
def execFemark (o : BitVec 2) (n : BitVec 6) (x : BitVec 5) (k : BitVec 1) (s : State) : Out :=
  .next (feAccess (.femark o n x k) [] [] false o n x k (retire k) (fun c s =>
    retireAcc c.ord true k (feKick (feEmpty s c.pa) (homeOf c.pa) c.pa (setFull c.pa s))) s)
def execFeclear (o : BitVec 2) (n : BitVec 6) (x : BitVec 5) (k : BitVec 1) (s : State) : Out :=
  .next (feAccess (.feclear o n x k) [] [] false o n x k (retire k) (fun c s =>
    retireAcc c.ord true k (feKick (!feEmpty s c.pa) (homeOf c.pa) c.pa (setEmpty c.pa s))) s)
def execFequery (o : BitVec 2) (n : BitVec 6) (x d : BitVec 5) (k : BitVec 1) (s : State) : Out :=
  .next (feAccess (.fequery o n x d k) [] [d.toNat] false o n x k (fun s => retire k (wr d.toNat 0 s)) (fun c s =>
    retireAcc c.ord false k (wr d.toNat (boolW (!feEmpty s c.pa)) s)) s)

/-- The full/empty unit serves one waiter of a word (R153). -/
def feServe (core word : Nat) (s : State) : State :=
  let mine (w : FEWait) : Bool := decide (w.word = word)
  let drop (w : FEWait) (s : State) : State := modCore core (fun q => { q with fe := dropFirst (· == w) q.fe }) s
  if feEmpty s word then
    match (coreAt s core).fe.find? (fun w => mine w && decide (w.kind = .give)) with
    | none => s
    | some w => feWrite core word w.value (modStrand w.sid (fun x => { x with gives := x.gives - 1 }) (drop w s))
  else
    match (coreAt s core).fe.find? (fun w => mine w && decide (w.kind ≠ .give)) with
    | none => s
    | some w =>
      let s1 := sched 0 (.lateResultReturn core w.sid ⟨w.tag, w64 (peek8 s word), poisoned s word 8, 0⟩) (drop w s)
      if w.kind = .take then feKick true core word (setEmpty word s1) else feKick false core word s1

def execFeWaiterService (place word : Nat) (s : State) : Out := .next (feServe place word s)

/-! ### Watch (R154, R155) -/

/-- A watch reaches its slice: it takes a table entry and is looked at, or waits for one; its deadline runs from now (R154, R155). -/
def watchNow (a : VAcc) (s : State) : State :=
  let cl := clusterOf (homeOf a.pa)
  let m := word64 (sliceRead s a.pa 8)
  let dl := (strandAt s a.sid).wtimeout.toNat
  let full : Bool := decide (64 ≤ ((sliceAt s cl).watches.filter (fun w => !w.queued)).length)
  let w : Watch := { watchOf a m with deadline := if dl = 0 then none else some (s.now + dl), queued := full }
  let s := (readReturn a s).2
  let s := modSlice cl (fun q => { q with watches := q.watches ++ [w] }) s
  let s := if dl = 0 then s else sched dl (.watchTimeout cl w.id) s
  if !full && watchCond w.cond m w.want then watchFinish cl w m s else s

/-- watch (R154): it translates, is held where the order asks, and its request goes to the slice; the strand stays parked in it. -/
def watch (i : Instr) (o : BitVec 2) (n : BitVec 6) (x v : BitVec 5) (k : BitVec 1) (s : State) : State :=
  allowed i true false true (decodeOk false [x.toNat, v.toNat] [v.toNat] false (fun s =>
    access n.toNat (rv s x) 8 true false 0 (fun s => orderOf s o n.toNat) k (retire k) (fun c s =>
      atPort c 8 .watch (fun s =>
        let a : VAcc := ⟨.watch, s.cur, s.fresh, c.pa, 8, c.pol, false, i, rv s v, 0, BitVec.ofNat 2 c.ord, false⟩
        vaultAccess a (modMe (fun x => { x with park := some .watch, readyAt := s.now + interval x, carried := none }) (bump s))) s) s)) s

def execWatchEq (o : BitVec 2) (n : BitVec 6) (x v : BitVec 5) (k : BitVec 1) (s : State) : Out := .next (watch (.watchEq o n x v k) o n x v k s)
def execWatchNe (o : BitVec 2) (n : BitVec 6) (x v : BitVec 5) (k : BitVec 1) (s : State) : Out := .next (watch (.watchNe o n x v k) o n x v k s)
def execWatchLt (o : BitVec 2) (n : BitVec 6) (x v : BitVec 5) (k : BitVec 1) (s : State) : Out := .next (watch (.watchLt o n x v k) o n x v k s)
def execWatchGe (o : BitVec 2) (n : BitVec 6) (x v : BitVec 5) (k : BitVec 1) (s : State) : Out := .next (watch (.watchGe o n x v k) o n x v k s)
def execWatchLtu (o : BitVec 2) (n : BitVec 6) (x v : BitVec 5) (k : BitVec 1) (s : State) : Out := .next (watch (.watchLtu o n x v k) o n x v k s)
def execWatchGeu (o : BitVec 2) (n : BitVec 6) (x v : BitVec 5) (k : BitVec 1) (s : State) : Out := .next (watch (.watchGeu o n x v k) o n x v k s)

/-- A watch's deadline: it retires with the word's present value, once it has a table entry (R154, R155). -/
def watchExpire (cl id : Nat) (s : State) : State :=
  match (sliceAt s cl).watches.find? (fun w => w.id == id) with
  | none => s
  | some w => if w.queued then sched 1 (.watchTimeout cl id) s else admitWatches cl (watchFinish cl w (word64 (sliceRead s w.pa 8)) s)

def execWatchTimeout (cl id : Nat) (s : State) : Out := .next (watchExpire cl id s)

end

end Sys2Proof.Machine
end

