-- ==== Sys2Proof/Machine/Arrive.lean ====
section
/-! DEFINITION. What reaches a core by itself: strand packets and evictions (R32 to R34, R67), late results and symbols
(R26, R113), wakes and promotion (R29, R332), stores, fills and write-backs of the slice (R144, R171, R172), walks
(R132 to R136), notices (R331, R361), and the traps of a fetch (R49, R136, R356). -/

namespace Sys2Proof.Machine

open Sys2Proof

noncomputable section

/-! ### Boundaries (R67) -/

/-- The PC that cause 0x0A names: the travel instruction, or the one that travelled automatically. -/
def stopEpc (x : Strand) (t : Trip) : Word :=
  match t with
  | .travel => if x.carried.isSome then x.pc else x.pc - 4
  | .meet => x.pc - 4
  | .stopped _ e => e
  | _ => x.pc

/-- A packet that may not pass: the strand goes home in N1 without its luggage, from where it stopped; the MC's log has the
landlord's report. A courier's piece ends with status 11 (R257). -/
def stopPacket (pk from_ : Nat) (s : State) : State :=
  match tget s.packets pk with
  | some p =>
    if goesBack p.trip then dropPacket pk s else
    let x := strandAt s p.sid
    let q : Packet := { p with src := from_, dest := x.native, trip := .stopped p.dest (stopEpc x p.trip), cls := 1, luggage := [], bad := [], k := 0, taken := none }
    launchPacket q x.owner false (mcLog (moduleOf p.src) logBoundary 10 x.owner p.src (w64 p.dest)
      (modPair p.sid (fun x => { x with carried := none, meetOp := none }) { s with packets := tdel s.packets pk, frames := tdel s.frames pk }))
  | none => loseCarried pk from_ 10 s

/-- Where a packet stops: at the hub whose link it may not pass, or on its way from its source. -/
def stopPlace (s : State) (pk : Nat) : Nat :=
  match tget s.frames pk with
  | some f => hubOf f.hop.from_
  | none =>
    match tget s.packets pk, tget s.pieces pk, tget s.rmsgs pk with
    | some p, _, _ => p.src
    | none, some p, _ => p.origin
    | none, none, some m => m.sender
    | none, none, none => 0

def execBoundaryStop (pk : Nat) (s : State) : Out := .next (stopPacket pk (stopPlace s pk) s)

/-- A packet reaches the interface of the core that its slot lies on now: it waits while a migration runs there and follows a
forwarding core, and so does the access that it comes for (R372). -/
def redirected (pk : Nat) (p : Packet) (again : Instr) (f : State → State) (s : State) : State :=
  if isCore p.dest && migrating s p.dest then sched 1 again s
  else
    let d := fwdCore s p.dest
    if d ≠ p.dest then
      sched (mgPath p.dest d) again (modPair p.sid (fun x => { x with carried := x.carried.map (fun c => { c with pa := fwdPa s c.pa }) })
        { s with packets := tput s.packets pk { p with dest := d, taken := none } })
    else
      -- the interface takes one arrival in each cycle, in order of delivery (R32)
      match p.taken with
      | some _ => f s
      | none =>
        let t := max s.now (coreAt s p.dest).inFree
        let s := modCore p.dest (fun c => { c with inFree := t + 1 }) { s with packets := tput s.packets pk { p with taken := some t } }
        if t = s.now then f s else sched (t - s.now) again s

/-- Home again: the native slot is reserved. -/
def takeNative (pk : Nat) (p : Packet) (s : State) : State :=
  let x := strandAt s p.sid
  takeSlot p.sid x.native x.nslot { p with luggage := [], bad := [] } { s with packets := tdel s.packets pk }

/-- A strand that a filter or a removal awaits is killed as it arrives, its luggage dropped (R366, R373). -/
def unlessKilled (pk : Nat) (p : Packet) (f : State → State) (s : State) : State :=
  match arrivalKill p.sid { s with packets := tdel s.packets pk } with
  | some s' => s'
  | none => f s

/-- A trap of a strand on the way, taken by both of a pair (R379). -/
def trapPair (id cause : Nat) (epc tval : Word) (s : State) : State :=
  let s := trap id cause epc tval s
  let x := strandAt s id
  match x.partner with
  | none => s
  | some p => modIf p (fun y => { y with
      cause := x.cause, epc := x.epc, tval := x.tval, pc := x.pc, run := x.run, inHandler := x.inHandler, readyAt := x.readyAt
      park := none, carried := none }) s

def returnStopped (pk : Nat) (s : State) : State :=
  match tget s.packets pk with
  | none => s
  | some p => redirected pk p (.stoppedReturn pk) (unlessKilled pk p (fun s =>
      match p.trip with
      | .stopped dest epc => trapPair p.sid 10 epc (w64 dest) (takeNative pk p s)
      | _ => takeNative pk p s)) s

def execStoppedReturn (pk : Nat) (s : State) : Out := .next (returnStopped pk s)

/-! ### Guests and evictions (R32, R33, R155, R71, R302) -/

/-- What becomes of the instruction that an evicted guest is parked in. -/
def endParked (id : Nat) (s : State) : State :=
  let x := strandAt s id
  let again (s : State) : State := modStrand id (fun x => { x with park := none, pc := x.pc - 4 }) s
  match x.park with
  | some .watch =>
    let cl := clusterOf x.place
    match (sliceAt s cl).watches.find? (fun w => w.sid == id) with
    | some w => watchFinish cl w w.last s
    | none =>
      -- its request has not reached the slice: it sees the word as it stands (R155)
      (match ((sliceAt s cl).waits.filterMap SliceReq.acc).find? (fun a => decide (a.kind = .watch ∧ a.sid = id)) with
      | some a => let m := word64 (sliceRead s a.pa 8); watchFinish cl (watchOf a m) m s
      | none => modStrand id (fun x => { x with park := none }) s)
  | some .meet => s
  | some .barLevel => s
  | some .kbit => s
  | some (.acq _ _) => s
  | some (.yield _) => again s
  | some (.tlbi _ _) => again s
  | some (.killStrand _ _) => again s
  | some (.killGrid _ _) => again s
  | some _ => modStrand id (fun x => { x with park := none }) s
  | none => s

/-- A guest leaves in N1 for its native slot. -/
def evictGuest (id : Nat) (s : State) : State :=
  match tget s.strands id with
  | none => s
  | some x =>
    if x.away ∨ isNative x then s
    else
      let s := withdraw id false (endParked id (leaveMeeting id .evicted s))
      let pk : Packet := {
        sid := id, src := x.place, dest := x.native, pref := none, trip := .evicted, cls := 1, luggage := [], bad := []
        epoch := (coreAt s x.place).epoch, win := false, truncated := false, k := 0, taken := none }
      launchPacket pk x.owner false (modPair id (fun x => { x with away := true, lug := none, carried := none, letInBy := none }) s)

def execGuestEviction (sid : Nat) (s : State) : Out := .next (evictGuest (leaderOf s sid) s)

/-- An evicted guest is home: sr.status.evicted is set, and a `meet` retires with status 0. -/
def returnEvicted (pk : Nat) (s : State) : State :=
  match tget s.packets pk with
  | none => s
  | some p => redirected pk p (.evictionReturn pk) (unlessKilled pk p (fun s =>
      retireMeet p.sid 0 3 (modPair p.sid (setStatusBit 2 true) (takeNative pk p s)))) s

def execEvictionReturn (pk : Nat) (s : State) : Out := .next (returnEvicted pk s)

/-- A packet that passed a boundary or a pod link under win is admitted by an open window only (R346). -/
def arrivalAdmitted (s : State) (p : Packet) : Bool :=
  let x := strandAt s p.sid
  !(p.win && crosses s p.src p.dest) || (match x.carried with | some c => windowAdmits s x.owner c.pa 1 c.r c.w | none => false)

/-- The strand stands in its slot and goes on: into the meeting table, or ready. -/
def settleIn (slot pk : Nat) (p : Packet) (s : State) : State :=
  let x := strandAt s p.sid
  let by_ := if p.win && crosses s p.src p.dest then x.carried.bind (fun c => admitEntry s x.owner c.pa 1 c.r c.w) else none
  let s := modPair p.sid (fun x => { x with letInBy := by_ }) (takeSlot p.sid p.dest slot p { s with packets := tdel s.packets pk })
  if p.trip = .meet then sched 3 (.parkWake p.sid) (modPair p.sid (fun x => { x with park := some .meet }) s) else s

/-- A guest has an instruction in flight, which its eviction waits for (R33). -/
def guestBusy (s : State) (g : Nat) : Bool :=
  let busy (i : Nat) : Bool := (strandAt s i).flight.isSome
  busy g || (strandAt s g).partner.any busy

/-- A strand packet arrives: home, in a free guest slot, or in that of the guest it evicts, whose instruction in flight ends first. -/
def arrive (pk : Nat) (s : State) : State :=
  match tget s.packets pk with
  | none => s
  | some p => redirected pk p (.strandArrival pk) (unlessKilled pk p (fun s =>
      let x := strandAt s p.sid
      if arrivalAdmitted s p = false then stopPacket pk p.dest s
      else if p.dest = x.native then settleIn x.nslot pk p s
      else match (if x.partner.isSome then freePair s p.dest p.pref else freeGuest s p.dest p.pref) with
        | some j => settleIn j pk p s
        | none =>
          match oldestGuest s p.dest with
          | none => sched 1 (.strandArrival pk) s
          | some g =>
            -- a pair evicts every guest of the scalar core (R378)
            let sc := (strandAt s g).slot / 8
            let gs := if x.partner.isSome then ([8 * sc + 6, 8 * sc + 7].filterMap (holder s p.dest)) else [g]
            let free := gs.filter (fun g => !guestBusy s g)
            sched (if free.length = gs.length then 0 else 1) (.strandArrival pk) (free.foldl (fun s g => sched 0 (.guestEviction g) s) s))) s

def execStrandArrival (pk : Nat) (s : State) : Out := .next (arrive pk s)

/-! ### Late results and symbols (R26, R34, R113, R115, R150, R168, R360) -/

/-- A result that a pair's leading strand receives: it goes into the load-value queue's entry, and into the trailing strand's
register where that awaits it (R375, R376). -/
def feedPair (id reg : Nat) (v : LateValue) (s : State) : State :=
  match (strandAt s id).partner with
  | none => s
  | some p =>
    modIf p (fun y => match regSt y reg with | .await t => if t = v.tag then setReg reg v.value y else y | _ => y)
      (modStrand id (fun x => { x with lvq := lmod (fun e => decide (e.tag = v.tag) && e.value.isNone && !e.later) (fun e => { e with value := some v.value }) x.lvq }) s)

/-- The symbol that a tag stands for enters resolution in this cycle, a: it ends in a + 4, or with the writeback of the last instruction
that folded over it (R113, R114). The tagged register may have been written meanwhile, as a popped frame does (R109). -/
def startResolution (place sc tag : Nat) (v : Word) (s : State) : State :=
  match (scAt s place sc).syms.find? (fun e => decide (e.2.tag = tag)) with
  | none => s
  | some (e, y) =>
    let s := sched 4 (.symbolResolution place sc e)
      (modSc place sc (fun k => { k with syms := tput k.syms e { y with value := some v, ends := s.now + 4 } }) s)
    if s.now + 4 < y.held then sched (y.held - s.now) (.symbolResolution place sc e) s else s

/-- A returned value reaches its strand: it fills the register, and its symbol enters resolution; a poisoned one kills. -/
def applyLate (id : Nat) (v : LateValue) (s : State) : State :=
  match tget s.strands id with
  | none => s
  | some x =>
    match x.late.find? (fun l => decide (l.tag = v.tag)) with
    | none => s
    | some l =>
      let s := modStrand id (fun x => { x with late := x.late.filter (fun l => decide (l.tag ≠ v.tag)) }) s
      if v.poison then trap id 8 l.pc l.va s
      else
        let s := if l.fadd then accrueTo id v.flags s else s
        match regSt x l.reg with
        | .await t => feedPair id l.reg v (if t = v.tag then modStrand id (setReg l.reg v.value) s else s)
        | .sym e .tagged =>
          let own : Bool := (tget (scAt s x.place (x.slot / 8)).syms e).any (fun y => decide (y.tag = v.tag))
          startResolution x.place (x.slot / 8) v.tag v.value (if own then modStrand id (setReg l.reg v.value) s else s)
        | _ => startResolution x.place (x.slot / 8) v.tag v.value (feedPair id l.reg v s)

/-- A record that waits for this result is loaded where it stands, wherever its strand is (R168). -/
def fillRecord (id : Nat) (v : LateValue) (s : State) : State :=
  match (tget s.strands id).bind (fun x => (x.late.find? (fun l => decide (l.tag = v.tag))).bind Late.record) with
  | some f => recordLoaded f v.poison s
  | none => s

/-- A result returns to a core: it installs its L1 line, fills its record, and is forwarded where the strand has left. -/
def lateReturn (place id : Nat) (v : LateValue) (s : State) : State :=
  let s := fillRecord id v (installL1 place v.tag s)
  let s := modCore place (fun c => { c with reads := c.reads.filter (fun r => decide (r.tag ≠ v.tag)) }) s
  match tget s.strands id with
  | none => s
  | some x => if x.away ∨ x.place ≠ place then send x.owner place x.native (travelTime s place x.native 0) (.forwardedResult id (.result v)) s else applyLate id v s

def execLateResultReturn (place sid : Nat) (v : LateValue) (s : State) : Out := .next (lateReturn place sid v s)

/-- A store's acknowledgement. -/
def acked (x : Strand) : Strand := { x with posted := x.posted - 1 }

def execForwardedResult (sid : Nat) (f : Forwarded) (s : State) : Out :=
  .next (match f with | .result v => applyLate sid v s | .ack => modIf sid acked s)

/-- What a resolution does in cycle a + 4: the flags of every step in order, every register still over the symbol full; the entry is
free then, or at the writeback of an instruction that has folded over it (R113, R114). -/
def resolveSymbol (place sc e : Nat) (s : State) : State :=
  match tget (scAt s place sc).syms e with
  | none => s
  | some y =>
    match y.value with
    | none => s
    | some v =>
      if s.now < y.ends then s
      else
        let r := stepsEval v y.steps
        let fill (x : Strand) (i : Nat) : Strand :=
          match regSt x i with
          | .sym f (.affine p q) => if f = e then setReg i (p * v + q) x else x
          | .sym f (.step n) => if f = e then setReg i (r.1.getD n 0) x else x
          | .sym f .tagged => if f = e then setReg i v x else x
          | _ => x
        accrueTo y.sid (r.2.foldl (· ||| ·) 0) (modIf y.sid (fun x => (List.range 16).foldl fill x)
          (modSc place sc (fun k => { k with syms := if y.held ≤ s.now then tdel k.syms e else tput k.syms e { y with steps := [] } }) s))

def execSymbolResolution (place sc e : Nat) (s : State) : Out := .next (resolveSymbol place sc e s)

/-! ### Waking (R29) -/

/-- A fill or walk that the strand waits for is on its way. -/
def fillPending (s : State) (x : Strand) (id va : Nat) : Bool :=
  s.agenda.any (fun e => match e.2 with | .translationFill p a v => p == x.place && a == x.asn && v / 65536 == va / 65536 | _ => false)
    || (sliceAt s (tlbCluster x.place)).walks.any (fun w => w.waiters.contains id)

/-- A pair's trailing strand has reached the leading strand's instruction with an empty load-value queue and no comparator
entry (R378). -/
def partnerReady (s : State) (id : Nat) : Bool :=
  let x := strandAt s id
  match x.partner.bind (tget s.strands) with
  | none => false
  | some y => decide (y.pc = x.pc) && x.lvq.isEmpty && x.cmp.isEmpty && decide (y.place = x.place)
      && decide (y.park = some .pairTravel ∨ y.park = some .pairValue ∨ y.park = some .pairEffect)

/-- The store comparator is full; a trap that waits for the trailing strand takes no entry of it (R376, R379). -/
def cmpFull (x : Strand) : Bool := decide (16 ≤ (x.cmp.filter (fun e => e.trap.isNone)).length)

/-- The condition that a parked strand waits for. Waits that their own events end are never due here. -/
def parkHolds (s : State) (id : Nat) : Bool :=
  let x := strandAt s id
  let s : State := { s with cur := id }
  let k := scAt s x.place (x.slot / 8)
  let c := coreAt s x.place
  match x.park with
  | none => false
  | some (.regs rs) => rs.any (isFull x)
  | some (.dest r) => !awaits x r
  | some .slots => decide (x.late.length < 8)
  | some .kbit => settled s id
  | some .exits => settled s id
  | some .depart => canDepart s id
  | some .leave => canDepart s id
  | some (.port q n pop) => if pop then decide (n ≤ portHas s q) else decide (n ≤ portRoom s q)
  | some .fcsr => fcsrSettled s id
  | some .vmem => decide (x.vmems = 0)
  | some .vqueue => decide (k.dq.length + flying s (some s.mySc) vectorWord < 8)
  | some (.vnames mask vi) => !namesBusy s x.place (x.slot / 8) mask vi
  | some .mqueue => decide (k.mq.length + flying s (some s.mySc) matrixWord < 8)
  | some .copyq => decide (c.copyq.length + flying s none courierWord < 16)
  | some .q8 => decide (k.q8.length + k.q8res < 32)
  | some (.vaultBusy core) => decide (vaultState s core ≠ 1)
  | some (.locks n) => decide (n ≤ locksFree s x.place)
  | some (.tileReady t) => decide ((tileAt s x.place t).st = .ready) || !(tileAt s x.place t).defined
  | some (.tileFilled t) => decide ((tileAt s x.place t).st ≠ .empty) || !(tileAt s x.place t).defined
  | some (.twait t _) => tileWaitDone (tileAt s x.place t) || !(tileAt s x.place t).defined
  | some (.translation va) => x.walkFault.isSome || (tlbFind c.tlb x.asn va).isSome || !fillPending s x id va
  | some (.record n) => !recLoading s n
  | some .feList => decide (c.fe.length < 64)
  | some .release => fenceHolds s id 1 0
  | some (.fence kind scope _) => fenceHolds s id kind scope
  | some (.report _ _ t) => decide (t ≤ s.now)
  | some (.relReport t) => decide (t ≤ s.now)
  | some (.symw r _) => !symbolic x r && !awaits x r
  | some (.yield l) => l.all (· == yieldK) && (l.isEmpty || settled s id)
  | some (.acq st _) => x.late.isEmpty && (!st || decide (x.posted = 0))
  | some .meet => false
  | some .watch => false
  | some .join => false
  | some .barLevel => false
  | some .barWait => false
  | some .evwait => false
  | some .joinList => decide (c.joins.length < 16)
  | some .barList => decide (c.bars.length < 16)
  | some (.ringTake h _ _ _) => decide (0 < ringRun s x.place (hdrAt s x.place h))
  | some (.dequeFree core j) => !(coreAt s core).deque.any (fun p => decide (p.j = j ∧ p.st = .taking))
  | some .launch => !launchHeld s id
  | some (.lwait pa _ _ _) => stateEnded (recordState s pa)
  | some (.tlbi _ _) => false
  | some (.killStrand i _) => killPerformed s i
  | some (.killGrid g _) => removalEnded s g
  | some (.pairRoom queue) => if queue then decide (x.lvq.length < 64) else !cmpFull x
  | some .pairValue =>
    let l := strandAt s (leaderOf s id)
    (match l.lvq.head? with | some e => e.value.isSome | none => false) || (match l.cmp.head? with | some e => e.trap.isSome | none => false)
  | some .pairTravel => if trailS x then !(strandAt s (leaderOf s id)).cmp.isEmpty else partnerReady s id
  | some .pairEffect => if trailS x then !(strandAt s (leaderOf s id)).cmp.isEmpty else x.cmp.isEmpty

/-- The end of a retired instruction's wait: its park bit's condition is next (R31). -/
def wakeK (id : Nat) (k : BitVec 1) (s : State) : State :=
  if k = 1 ∧ settled s id = false then modStrand id (fun x => { x with park := some .kbit }) s else wake id s

/-- The wait inside an instruction is over: it acts, and retires to the next instruction. -/
def retireWoken (id : Nat) (k : BitVec 1) (f : State → State) (s : State) : State :=
  let c := s.cur
  let s : State := f { s with cur := id }
  wakeK id k (modStrand id (fun x => { x with pc := x.pc + 4, carried := none }) { s with cur := c })

/-- A strand whose access travels leaves with the carried PA, now that R34 holds (R65). -/
def leaveNow (id : Nat) (s : State) : State :=
  let x := strandAt s id
  let c := s.cur
  match x.carried with
  | some a => { depart (homeOf a.pa) none (some a) x.pc .travel 0 { s with cur := id } with cur := c }
  | none => wake id s

/-- A parked strand wakes; one inside `meet` presents its arrival to the table (R70), one inside `exit` ends (R277). A pair's strand
issues its `exit` or take again, which the two perform together. -/
def wakeParked (id : Nat) (s : State) : State :=
  let x := strandAt s id
  match x.park with
  | some .meet =>
    if x.away then s
    else match x.meetOp with
    | some m =>
      (match m.decided with
      | some st => retireMeet id st 2 s
      | none => if (meetOf s id).isNone then meetArrive id s else s)
    | none => s
  | some .leave => if parkHolds s id then leaveNow id s else s
  | some (.acq _ k) => if parkHolds s id then wakeK id k (invalL1 x.place s) else s
  | some (.fence kind _ k) =>
    if parkHolds s id = false then s
    else if kind ≠ 0 ∧ isNative x = false then modStrand id (fun x => { x with park := some (.report kind k (reportAt s x)) }) s
    else retireWoken id k (fun s => if kind = 0 ∨ kind = 2 then invalL1 x.place s else s) s
  | some (.report kind k _) => if parkHolds s id then retireWoken id k (fun s => if kind = 2 then invalL1 x.place s else s) s else s
  | some (.relReport _) => if parkHolds s id then wake id (modStrand id (fun x => { x with released := true }) s) else s
  | some (.symw _ k) => if parkHolds s id then retireWoken id k (fun s => s) s else s
  | some (.twait t k) =>
    if parkHolds s id = false then s
    else if (tileAt s x.place t).defined then retireWoken id k (fun s => s) s else wake id s
  | some (.lwait pa d drop k) =>
    if parkHolds s id then
      retireWoken id k (fun s =>
        dropReg drop (wr d.toNat (recordState s pa) s)) s
    else s
  | some .exits => if parkHolds s id = false then s else if x.partner.isSome then wake id s else endStrand id s
  | some (.ringTake h d drop k) =>
    if parkHolds s id = false then s
    else if x.partner.isSome then wake id s
    else retireWoken id k (fun s => dropReg drop (wr d (takeWord s x.place h) s)) s
  | some (.killStrand _ k) => if parkHolds s id then wakeK id k s else s
  | some (.killGrid _ k) => if parkHolds s id then wakeK id k s else s
  | _ => if parkHolds s id then wake id s else s

def execParkWake (sid : Nat) (s : State) : Out := .next (wakeParked sid s)

/-- A ready strand that has not issued for 256 cycles goes ahead of every class (R332). -/
def execStrandPromotion (sid : Nat) (s : State) : Out := .next (modIf sid (fun x => { x with promoted := true }) s)

/-! ### The meeting table's own events (R71, R72) -/

/-- The deadline of an entry; arrivals of the same cycle come first. -/
def expireMeet (place n : Nat) (s : State) : State :=
  match (coreAt s place).meets.find? (fun e => e.id == n) with
  | none => s
  | some e =>
    let first : Bool := s.agenda.any (fun a => decide (a.1 ≤ s.now) && (match a.2 with
      | .strandArrival pk => (match tget s.packets pk with | some p => decide (p.dest = place) | none => false)
      | .parkWake i => decide ((strandAt s i).park = some .meet ∧ (strandAt s i).place = place) && (strandAt s i).meetOp.any (fun m => m.decided.isNone)
      | _ => false))
    if first then sched 0 (.meetingExpiry place n) s
    else match e.st with
      | .waiting =>
        let s := dropMeet place n s
        match e.a with | some i => decideMeet i 0 s | none => s
      | .lost => dropMeet place n s
      | _ => s

def execMeetingExpiry (place entry : Nat) (s : State) : Out := .next (expireMeet place entry s)

/-- Ten cycles after the second arrival both `meet` instructions retire with status 1. -/
def pairMeet (place n : Nat) (s : State) : State :=
  match (coreAt s place).meets.find? (fun e => e.id == n) with
  | none => s
  | some e =>
    if e.st = .pairing then
      let one (o : Option Nat) (s : State) : State := match o with | some i => retireMeet i 1 2 s | none => s
      one e.b (one e.a (modMeet place n (fun e => { e with st := .met }) s))
    else s

def execMeetingPaired (place entry : Nat) (s : State) : Out := .next (pairMeet place entry s)

/-! ### Stores and the slice (R144, R145, R171 to R174) -/

/-- The slice performs a posted store whose request has started. -/
def acceptStore (id : Nat) (s : State) : State :=
  match s.stores.find? (fun p => p.id == id) with | none => s | some p => performStore p s

def execStoreAccepted (id : Nat) (s : State) : Out := .next (acceptStore id s)

/-- The acknowledgement of a home at the issuing slot, forwarded where the strand has left (R34). -/
def storeAcked (place id : Nat) (s : State) : State :=
  match tget s.strands id with
  | none => s
  | some x => if x.away ∨ x.place ≠ place then send x.owner place x.native (travelTime s place x.native 0) (.forwardedResult id .ack) s else modIf id acked s

def execStoreAck (place sid : Nat) (s : State) : Out := .next (storeAcked (ackPlace place) sid s)

/-- Bytes of the sectors of a mask. -/
def sectorBytes (m : BitVec 4) : BitVec 128 := (List.range 4).foldl (fun v i => if m.getLsbD i then v ||| span (32 * i) 32 else v) 0

/-- A refill starts, charged to the partition whose demand caused it (R173): only the bytes that no merged write covers come from the vault
(R172). -/
def fillLine (cl line : Nat) (s : State) : State :=
  let k := sliceAt s cl
  match k.miss.find? (fun e => e.line == line) with
  | none => s
  | some e =>
    if s.now < e.due then s else
    let s := (k.wb.filter (fun l => l.line == line)).foldl (fun s l => writeBack l s) s
    let s := modSlice cl (fun k => { k with wb := k.wb.filter (fun l => l.line != line) }) s
    match makeRoom cl line e.part s with
    | none => refillAt cl line (s.now + 1) s
    | some s =>
      let old := ((sliceAt s cl).lines.find? (fun l => l.line == line)).getD ⟨line, 0, 0, 0, 0, e.streaming⟩
      let new := sectorBytes e.sectors
      let data := (List.range 128).foldl (fun d i =>
        if e.wmask.getLsbD i then lineSet d i (lineByte e.wdata i)
        else if new.getLsbD i && !old.valid.getLsbD i then lineSet d i (memGet s.mem (line * 128 + i)) else d) old.data
      let l : SLine := { old with data := data, valid := old.valid ||| new, dirty := old.dirty ||| e.wmask, used := (sliceAt s cl).clock }
      accrualOn cl (modSlice cl (fun k => creditToken 1 e.part { k with
        clock := k.clock + 1, miss := k.miss.filter (fun m => m.line != line), lines := l :: k.lines.filter (fun o => o.line != line) }) s)

def execVaultFillReturn (cl line : Nat) (s : State) : Out := .next (fillLine cl line s)

/-- The oldest line of the write-back buffer enters the vault's write queue. -/
def drainWb (cl : Nat) (s : State) : State :=
  match (sliceAt s cl).wb with
  | [] => s
  | l :: t => writeBack l (modSlice cl (fun k => { k with wb := t }) s)

def execWriteBackDrain (cl : Nat) (s : State) : Out := .next (drainWb cl s)

/-- The access of a request that starts now. -/
def performAcc (a : VAcc) (s : State) : State :=
  match a.kind with
  | .load => loadNow a s
  | .record => recordNow a s
  | .amo => amoNow a s
  | .watch => watchNow a s
  | .vector => vecNow a s
  | .chunk => chunkNow a.tag s

/-- A request of the slice itself can start: a write-back always, a refill when its line has room (R170, R171). -/
def ownStart (cl : Nat) (q : SliceReq) (s : State) : Option State :=
  if q.port = 0 then some s
  else match missOf (sliceAt s cl) (q.pa / 128) with
    | some e => (makeRoom cl e.line e.part s).map (fun _ => s)
    | none => some s

/-- The i-th waiting request starts, where it can; no other starts in this cycle (R170). -/
def startAt (cl i : Nat) (s : State) : Option State :=
  let ws := (sliceAt s cl).waits
  match ws[i]? with
  | none => none
  | some q =>
    if s.now < q.at_ then none
    else (if q.port ≤ 1 then ownStart cl q s else startReq cl (ws.take i) q s).map (fun s =>
      let s := modSlice cl (fun k => { k with waits := k.waits.eraseIdx i, turned := s.now + 1 }) s
      match q.acc with
      | some a => performAcc a s
      | none => sched q.rest q.what s)

/-- The first of a port's waiting requests, of a partition where one is named, that can start. -/
def startFrom (cl port : Nat) (part : Option Nat) (s : State) : Option State :=
  ((sliceAt s cl).waits.zipIdx.filter (fun q => decide (q.1.port = port) && part.all (· == q.1.part))).findSome? (fun q => startAt cl q.2 s)

/-- The request that starts in a cycle: write-backs, refills, demand and Caller prefetch in this order, and the partitions of the last
two in turn (R170, R174). -/
def serveOne (cl : Nat) (s : State) : State :=
  match (startFrom cl 0 none s).orElse (fun _ => startFrom cl 1 none s) with
  | some t => t
  | none =>
    let rr := (sliceAt s cl).rr
    let order := [2, 3].flatMap (fun port => (List.range 4).map (fun j => (port, (rr + j) % 4)))
    match order.findSome? (fun o => (startFrom cl o.1 (some o.2) s).map (fun t => (o.2, t))) with
    | some (p, t) => modSlice cl (fun k => { k with rr := (p + 1) % 4 }) t
    | none => s

/-- A slice's turn in a cycle, behind what else comes in it: the cycle's tokens, and the request that starts. -/
def sliceTurn (cl : Nat) (s : State) : State :=
  let s := fillBuckets cl s
  if s.agenda.any (fun e => decide (e.1 ≤ s.now) && (match e.2 with | .tokenAccrual _ => false | _ => true)) then sched 0 (.tokenAccrual cl) s
  else accrualOn cl (if s.now < (sliceAt s cl).turned then s else serveOne cl s)

def execTokenAccrual (cl : Nat) (s : State) : Out := .next (sliceTurn cl s)

/-! ### Translation (R132 to R135) -/

/-- An entry into a core's cache of 512, the most recently used first. -/
def installTlb (place : Nat) (e : TlbEntry) (s : State) : State :=
  modCore place (fun c => { c with tlb := (e :: c.tlb.filter (fun o => !decide (o.asn = e.asn ∧ o.page = e.page ∧ o.bits = e.bits))).take 512 }) s

/-- An entry into a cluster's cache: 1,024 sets of 16 ways, which both page sizes share. -/
def installCluster (cl : Nat) (e : TlbEntry) (s : State) : State :=
  modSlice cl (fun k =>
    let rest := k.tlb.filter (fun o => !decide (o.asn = e.asn ∧ o.page = e.page ∧ o.bits = e.bits))
    let mine (o : TlbEntry) : Bool := decide (o.page % 1024 = e.page % 1024)
    { k with tlb := (e :: (rest.filter mine).take 15) ++ rest.filter (fun o => !mine o) }) s

def fillTranslation (place asn va : Nat) (s : State) : State :=
  match tlbFind (sliceAt s (tlbCluster place)).tlb asn va with | some e => installTlb place e s | none => s

def execTranslationFill (place asn va : Nat) (s : State) : Out := .next (fillTranslation place asn va s)

/-- What a walk's end means for a waiter: the entry in its core's cache, or the fault for its own address. -/
def walkWaiter (w : Walk) (r : Option (Nat × Nat)) (i : Nat) (s : State) : State :=
  let entry (n bits_ : Nat) : TlbEntry := ⟨w.asn, w.va / 2 ^ bits_, bits_, w64 n⟩
  if 2 ^ 40 ≤ i then
    match tget s.ops (i - 2 ^ 40), r with
    | some o, some (e, n) => if w.stale then s else installTlb o.place (entry e n) s
    | some _, none => if w.stale then s else modOp (i - 2 ^ 40) (fun o => { o with walkFault := some (5, w.va) }) s
    | none, _ => s
  else
    match tget s.strands i, r with
    | some x, some (e, n) => if w.stale ∨ x.away then s else installTlb x.place (entry e n) s
    | some x, none =>
      match x.park with
      | some (.translation va) => if w.stale then s else modStrand i (fun x => { x with walkFault := some (5, w64 va) }) s
      | _ => s
    | none, _ => s

/-- A walk has its result; the next one in the queue takes its walker. -/
def endWalk (cl : Nat) (w : Walk) (r : Option (Nat × Nat)) (s : State) : State :=
    let id := w.id
    let s := modSlice cl (fun k => { k with walks := k.walks.filter (fun v => v.id != id) }) s
    let s := match r with
      | some (e, n) => if w.stale then s else installCluster cl ⟨w.asn, w.va / 2 ^ n, n, w64 e⟩ s
      | none => s
    let s := w.waiters.foldl (fun s i => walkWaiter w r i s) s
    match (sliceAt s cl).walks.find? (fun v => !v.started) with
    | some v => schedFree (.tableWalkComplete cl v.id) (modSlice cl (fun k => { k with walks := lmod (fun u => u.id == v.id) (fun u => { u with started := true }) k.walks }) s)
    | none => s

/-- A walker reads the entry of its level at the entry's home (R135): the walk goes on with the next table, or ends. -/
def walkRead (cl id : Nat) (s : State) : State :=
  match (sliceAt s cl).walks.find? (fun w => w.id == id) with
  | none => s
  | some w =>
    let pa := entryAt w.table w.va w.level
    let e := leNat (sliceRead s pa 8)
    let s := match space s pa with
      | .vault core _ => if present (sliceAt s (clusterOf core)) pa 8 then s else openPage pa s
      | _ => s
    match walkEntry w.level e with
    | .leaf e n => endWalk cl w (some (e, n)) s
    | .bad => endWalk cl w none s
    | .table a =>
      schedFree (.tableWalkComplete cl id)
        (modSlice cl (fun k => { k with walks := lmod (fun v => v.id == id) (fun v => { v with level := w.level - 1, table := a }) k.walks }) s)

def execTableWalkComplete (cl id : Nat) (s : State) : Out := .next (walkRead cl id s)

/-! ### Notices (R331, R340, R357, R361, R417) -/

/-- A VF notice has bit 0 clear. -/
def vfWord (n : Notice) : Bool := !n.word.getLsbD 0

def pushQ11 (n : Notice) (s : State) : State := modSc n.place n.sc (fun k => { k with q11 := k.q11 ++ [n.word] }) s
def q11Room (s : State) (n : Notice) : Bool := decide ((scAt s n.place n.sc).q11.length < 64)

/-- A notice that finds q11 full stays with its sender: the mailbox offers its own in order as soon as there is room, every
other sender after 256 cycles. -/
def offerQ11 (n : Notice) (s : State) : State :=
  let m := moduleOf n.place
  let before : Bool := vfWord n && (hubAt s m).heldNotices.any (fun e => vfWord e.2 && decide (e.2.sc = n.sc ∧ e.2.place = n.place))
  if q11Room s n && !before then pushQ11 n s
  else
    let id := s.fresh
    let s := bump (modHub m (fun h => { h with heldNotices := tput h.heldNotices id n }) s)
    if vfWord n then s else sched 256 (.noticeReoffer id) s

/-- A notice reaches its queue. -/
def noticeIn (n : Notice) (s : State) : State :=
  match n.q with
  | 11 => offerQ11 n s
  | 9 =>
    if isHub n.place then
      -- a Caller's own operations: its notices belong to no block (R326, R361)
      (if 32 ≤ (coreAt s n.place).q9.length then mcLog (moduleOf n.place) logNoticeLost 0 0 n.place n.word s
       else modCore n.place (fun c => { c with q9 := c.q9 ++ [(n.word, 0)] }) s)
    else
    let core := fwdCore s n.place
    match tget s.blocks n.block with
    | none => s
    | some b =>
      if b.st = .ended then s
      else if 32 ≤ (coreAt s core).q9.length then
        mcLog (moduleOf core) logNoticeLost 0 (match tget s.grids b.grid with | some g => g.owner | none => 0) core n.word
          (modBlock n.block (fun b => { b with faulted := true }) s)
      else modCore core (fun c => { c with q9 := c.q9 ++ [(n.word, n.block)] }) s
  | _ => s

def execNoticeArrival (n : Notice) (s : State) : Out := .next (noticeIn n s)

/-- The module that keeps a notice. -/
def heldAtHub (s : State) (id : Nat) : Option (Nat × Notice) :=
  s.hubs.findSome? (fun h => (tget h.2.heldNotices id).map (fun n => (h.1, n)))

def reoffer (id : Nat) (s : State) : State :=
  match heldAtHub s id with
  | none => s
  | some (m, n) =>
    if q11Room s n then pushQ11 n (modHub m (fun h => { h with heldNotices := tdel h.heldNotices id }) s)
    else if vfWord n then s else sched 256 (.noticeReoffer id) s

def execNoticeReoffer (id : Nat) (s : State) : Out := .next (reoffer id s)

/-! ### Traps of the fetch (R49, R136, R356) -/

def execIllegalInstruction (w : IWord) (s : State) : Out := .next (raise 1 (w.setWidth 64) s)
def execInstructionFetchFault (va : Word) (s : State) : Out := .next (raise 22 va s)

/-- The handler's first fetch faults: the strand is stopped, with the trap's registers as they are (R356). -/
def stopStrand (id : Nat) (s : State) : State :=
  let x := strandAt s id
  let s := modStrand id (fun x => { x with run := .stopped, park := none, inHandler := false }) s
  if trailS x then s else
  let s := mcLog (moduleOf x.place) logDouble 21 x.owner x.place x.pc s
  heldNotice id 21 (blockFault id 21 x.epc x.tval s)

def execDoubleFault (sid : Nat) (s : State) : Out := .next (stopStrand sid s)

/-! ### The debug log's replay (R380, R381) -/

/-- What a dispatcher's order brings is there again; its strands issue 16 cycles later (R310). -/
def orderIn (core : Nat) (o : Order) (s : State) : State :=
  let s := o.rings.foldl (fun s r => pokeBytes (sramBase core + r.1) r.2 s) s
  let s := modCore core (fun c => { c with ports := c.ports ++ o.ports, tiles := o.tiles.foldl (fun t e => tput t e.1 e.2) c.tiles }) s
  { s with
    strands := o.strands.foldl (fun t e => tput t e.1 { e.2 with readyAt := s.now + 16, lastIssue := s.now + 16 }) s.strands
    store := o.strands.foldl (fun t e => tdel t e.1) s.store
    blocks := o.blocks.foldl (fun t e => tput t e.1 e.2) s.blocks }

/-- One core as if it were alone, by an action on it: a removal's step, for one. -/
def onlyAt (core : Nat) (f : State → State) (s : State) : State :=
  let mine (x : Strand) : Bool := decide (x.native = core ∨ x.place = core)
  let t := f { s with
    strands := s.strands.filter (fun e => mine e.2), store := s.store.filter (fun e => mine e.2), cores := s.cores.filter (fun c => c.1 == core)
    blocks := s.blocks.filter (fun b => b.2.core == core), ops := s.ops.filter (fun o => o.2.place == core) }
  { t with
    strands := (s.strands.filter (fun e => !mine e.2)).foldl (fun t e => tput t e.1 e.2) t.strands
    store := (s.store.filter (fun e => !mine e.2)).foldl (fun t e => tput t e.1 e.2) t.store
    cores := (s.cores.filter (fun c => c.1 != core)).foldl (fun t c => tput t c.1 c.2) t.cores
    blocks := (s.blocks.filter (fun b => b.2.core != core)).foldl (fun t b => tput t b.1 b.2) t.blocks
    ops := (s.ops.filter (fun o => o.2.place != core)).foldl (fun t o => tput t o.1 o.2) t.ops }

/-- A logged arrival comes again: what it carried is there under new names. An engine's report finds the operation and the
piece that the replayed run made. -/
def redeliver (core : Nat) (a : Arrival) (s : State) : State :=
  let n := s.fresh
  let packet (f : Nat → State → State) : State :=
    match a.strand, a.packet with
    | some x, some p => f n (bump { s with strands := tput s.strands p.sid x, packets := tput s.packets n p })
    | _, _ => s
  let piece (f : Nat → State → State) : State :=
    match a.piece, a.op with
    | some p, some o => f n (bump (bump { s with pieces := tput s.pieces n { p with op := n + 1, mates := [] }, ops := tput s.ops (n + 1) o }))
    | _, _ => s
  match a.event with
  | .strandArrival _ => packet arrive
  | .evictionReturn _ => packet returnEvicted
  | .stoppedReturn _ => packet returnStopped
  | .courierPickUp _ => piece pickUp
  | .courierSetDown _ => piece setDownPiece
  | .ringPieceArrival _ => piece ringArrive
  | .engineCompletionReport _ =>
    match a.piece, a.op with
    | some p, some o =>
      (match s.ops.find? (fun e => decide (e.2.sid = o.sid ∧ e.2.pc = o.pc)) with
      | some (j, _) =>
        (match s.pieces.find? (fun e => decide (e.2.op = j ∧ e.2.off = p.off)) with
        | some (i, _) => pieceReport i (modPiece i (fun q => { q with status := p.status, cause := p.cause, failOff := p.failOff, stage := p.stage }) s)
        | none => s)
      | none => s)
    | _, _ => s
  | .lateResultReturn place id v =>
    match (strandAt s id).late.find? (fun l => decide (l.reg = a.reg)) with
    | some l => lateReturn place id { v with tag := l.tag } s
    | none => s
  | .storeAck place id => storeAcked (ackPlace place) id s
  | .noticeArrival w => noticeIn w s
  | .hostWriteAck _ => match a.write with | some h => engineWrite 0 h.pa h.bytes [] 0 s | none => s
  | .blockStart _ _ => match a.order with | some o => orderIn core o s | none => s
  | .strandKill id cause => if (strandAt s id).away then lostStrand id s else strandKill id cause s
  | .barrierRelease _ => a.members.foldl (fun s w => releaseOne w s) s
  | .contextRemovalStepEnd g => onlyAt core (orderStep g a.reg) s
  | _ => s

/-- Whether an event that follows from a redelivered arrival stays with the core: what goes to another place is discarded (R381). -/
def staysAt (core : Nat) (e : Instr) : Bool :=
  match e with
  | .engineCompletionReport _ => false
  | .evictionReturn _ => false
  | .stoppedReturn _ => false
  | .forwardedResult .. => false
  | .podFrameReceive .. => false
  | .boundaryStop _ => false
  | .dequeTakeRequest .. => false
  | .blockEndReport .. => false
  | .contextRemoval _ => false
  | .killNotice _ => false
  | .noticeArrival n => n.place == core
  | .storeAck p _ => ackPlace p == core
  | .lateResultReturn p _ _ => p == core
  | _ => true

/-- An arrival comes again at a core that replays. -/
def deliverAgain (core : Nat) (a : Arrival) (s : State) : State :=
  let t := redeliver core a s
  { t with agenda := t.agenda.filter (fun e => s.agenda.contains e || staysAt core e.2) }

/-- The next logged entry of a core that replays is delivered, and the one after it is set for its cycle. -/
def replayNext (core : Nat) (s : State) : State :=
  if replaying s core = false then s
  else
    let n := (coreAt s core).played
    match ((tget s.arrivals core).getD []).drop n with
    | [] => s
    | a :: t =>
      let s := deliverAgain core a (modCore core (fun k => { k with played := n + 1 }) s)
      match t with
      | [] => s
      | b :: _ => sched (b.cycle - a.cycle) (.replayDelivery core) s

def execReplayDelivery (core : Nat) (s : State) : Out := .next (replayNext core s)

end

end Sys2Proof.Machine
end

