-- ==== Sys2Proof/Machine/Dispatch.lean ====
section
/-! DEFINITION. One arm per constructor of Instr: the instruction's meaning. -/

namespace Sys2Proof.Machine

open Sys2Proof
open Sys2Proof.Machine in noncomputable
def exec (i : Instr) (s : State) : Host.Outcome State Fault Refusal :=
  match i with
  | .ldB i0 n x d k => Sys2Proof.Machine.execLdB i0 n x d k s
  | .ldH i0 n x d k => Sys2Proof.Machine.execLdH i0 n x d k s
  | .ldW i0 n x d k => Sys2Proof.Machine.execLdW i0 n x d k s
  | .ldD i0 n x d k => Sys2Proof.Machine.execLdD i0 n x d k s
  | .ldBu i0 n x d k => Sys2Proof.Machine.execLdBu i0 n x d k s
  | .ldHu i0 n x d k => Sys2Proof.Machine.execLdHu i0 n x d k s
  | .ldWu i0 n x d k => Sys2Proof.Machine.execLdWu i0 n x d k s
  | .ldBMx o p n x d k => Sys2Proof.Machine.execLdBMx o p n x d k s
  | .ldHMx o p n x d k => Sys2Proof.Machine.execLdHMx o p n x d k s
  | .ldWMx o p n x d k => Sys2Proof.Machine.execLdWMx o p n x d k s
  | .ldDMx o p n x d k => Sys2Proof.Machine.execLdDMx o p n x d k s
  | .ldBuMx o p n x d k => Sys2Proof.Machine.execLdBuMx o p n x d k s
  | .ldHuMx o p n x d k => Sys2Proof.Machine.execLdHuMx o p n x d k s
  | .ldWuMx o p n x d k => Sys2Proof.Machine.execLdWuMx o p n x d k s
  | .stB i0 n x s0 k => Sys2Proof.Machine.execStB i0 n x s0 k s
  | .stH i0 n x s0 k => Sys2Proof.Machine.execStH i0 n x s0 k s
  | .stW i0 n x s0 k => Sys2Proof.Machine.execStW i0 n x s0 k s
  | .stD i0 n x s0 k => Sys2Proof.Machine.execStD i0 n x s0 k s
  | .stBMx o p n x s0 k => Sys2Proof.Machine.execStBMx o p n x s0 k s
  | .stHMx o p n x s0 k => Sys2Proof.Machine.execStHMx o p n x s0 k s
  | .stWMx o p n x s0 k => Sys2Proof.Machine.execStWMx o p n x s0 k s
  | .stDMx o p n x s0 k => Sys2Proof.Machine.execStDMx o p n x s0 k s
  | .amoAdd o n x z d k => Sys2Proof.Machine.execAmoAdd o n x z d k s
  | .amoSwap o n x z d k => Sys2Proof.Machine.execAmoSwap o n x z d k s
  | .amoAnd o n x z d k => Sys2Proof.Machine.execAmoAnd o n x z d k s
  | .amoOr o n x z d k => Sys2Proof.Machine.execAmoOr o n x z d k s
  | .amoXor o n x z d k => Sys2Proof.Machine.execAmoXor o n x z d k s
  | .amoMin o n x z d k => Sys2Proof.Machine.execAmoMin o n x z d k s
  | .amoMax o n x z d k => Sys2Proof.Machine.execAmoMax o n x z d k s
  | .amoMinu o n x z d k => Sys2Proof.Machine.execAmoMinu o n x z d k s
  | .amoMaxu o n x z d k => Sys2Proof.Machine.execAmoMaxu o n x z d k s
  | .amoFaddS o n x d k => Sys2Proof.Machine.execAmoFaddS o n x d k s
  | .amoCas o n x z d k => Sys2Proof.Machine.execAmoCas o n x z d k s
  | .take o n x d k => Sys2Proof.Machine.execTake o n x d k s
  | .peek o n x d k => Sys2Proof.Machine.execPeek o n x d k s
  | .give o n x s0 k => Sys2Proof.Machine.execGive o n x s0 k s
  | .fill o n x s0 k => Sys2Proof.Machine.execFill o n x s0 k s
  | .femark o n x k => Sys2Proof.Machine.execFemark o n x k s
  | .feclear o n x k => Sys2Proof.Machine.execFeclear o n x k s
  | .fequery o n x d k => Sys2Proof.Machine.execFequery o n x d k s
  | .watchEq o n x v k => Sys2Proof.Machine.execWatchEq o n x v k s
  | .watchNe o n x v k => Sys2Proof.Machine.execWatchNe o n x v k s
  | .watchLt o n x v k => Sys2Proof.Machine.execWatchLt o n x v k s
  | .watchGe o n x v k => Sys2Proof.Machine.execWatchGe o n x v k s
  | .watchLtu o n x v k => Sys2Proof.Machine.execWatchLtu o n x v k s
  | .watchGeu o n x v k => Sys2Proof.Machine.execWatchGeu o n x v k s
  | .fenceAcq s0 k => Sys2Proof.Machine.execFenceAcq s0 k s
  | .fenceRel s0 k => Sys2Proof.Machine.execFenceRel s0 k s
  | .fenceFull s0 k => Sys2Proof.Machine.execFenceFull s0 k s
  | .fenceEng s0 k => Sys2Proof.Machine.execFenceEng s0 k s
  | .discard n a b k => Sys2Proof.Machine.execDiscard n a b k s
  | .prefetch n a b k => Sys2Proof.Machine.execPrefetch n a b k s
  | .flush n a b k => Sys2Proof.Machine.execFlush n a b k s
  | .invl1 k => Sys2Proof.Machine.execInvl1 k s
  | .tdef l m t a b k => Sys2Proof.Machine.execTdef l m t a b k s
  | .texp l t a k => Sys2Proof.Machine.execTexp l t a k s
  | .tstate t d k => Sys2Proof.Machine.execTstate t d k s
  | .twait t k => Sys2Proof.Machine.execTwait t k s
  | .tready t k => Sys2Proof.Machine.execTready t k s
  | .tdrain t k => Sys2Proof.Machine.execTdrain t k s
  | .treset t k => Sys2Proof.Machine.execTreset t k s
  | .recLd l n a m k => Sys2Proof.Machine.execRecLd l n a m k s
  | .recSt l n a m k => Sys2Proof.Machine.execRecSt l n a m k s
  | .go l a k => Sys2Proof.Machine.execGo l a k s
  | .gohome k => Sys2Proof.Machine.execGohome k s
  | .goa l n a k => Sys2Proof.Machine.execGoa l n a k s
  | .lug l m b a k => Sys2Proof.Machine.execLug l m b a k s
  | .meet l m b a d k => Sys2Proof.Machine.execMeet l m b a d k s
  | .part_ k => Sys2Proof.Machine.execPart_ k s
  | .pget p d k => Sys2Proof.Machine.execPget p d k s
  | .pput l a p k => Sys2Proof.Machine.execPput l a p k s
  | .pxch p d k => Sys2Proof.Machine.execPxch p d k s
  | .plug d k => Sys2Proof.Machine.execPlug d k s
  | .whereIs d k => Sys2Proof.Machine.execWhereIs d k s
  | .symq x d k => Sys2Proof.Machine.execSymq x d k s
  | .symw x k => Sys2Proof.Machine.execSymw x k s
  | .symtag x d k => Sys2Proof.Machine.execSymtag x d k s
  | .spawn o n a k => Sys2Proof.Machine.execSpawn o n a k s
  | .jend l n a k => Sys2Proof.Machine.execJend l n a k s
  | .join l n a d k => Sys2Proof.Machine.execJoin l n a d k s
  | .yield k => Sys2Proof.Machine.execYield k s
  | .exit k => Sys2Proof.Machine.execExit k s
  | .dqn d k => Sys2Proof.Machine.execDqn d k s
  | .ringInit l n a b k => Sys2Proof.Machine.execRingInit l n a b k s
  | .ringTkt l n a d k => Sys2Proof.Machine.execRingTkt l n a d k s
  | .ringPut l n a b k => Sys2Proof.Machine.execRingPut l n a b k s
  | .ringTake l n a d k => Sys2Proof.Machine.execRingTake l n a d k s
  | .ringFree l n a b k => Sys2Proof.Machine.execRingFree l n a b k s
  | .pipePut p a k => Sys2Proof.Machine.execPipePut p a k s
  | .pipeTake p d k => Sys2Proof.Machine.execPipeTake p d k s
  | .pipeFree l p a k => Sys2Proof.Machine.execPipeFree l p a k s
  | .barInit l n a b k => Sys2Proof.Machine.execBarInit l n a b k s
  | .barArr l n a d k => Sys2Proof.Machine.execBarArr l n a d k s
  | .barWait l n a b k => Sys2Proof.Machine.execBarWait l n a b k s
  | .barCore k => Sys2Proof.Machine.execBarCore k s
  | .barCluster k => Sys2Proof.Machine.execBarCluster k s
  | .barTower k => Sys2Proof.Machine.execBarTower k s
  | .barModule k => Sys2Proof.Machine.execBarModule k s
  | .barPod k => Sys2Proof.Machine.execBarPod k s
  | .vadd v y b a m d k => Sys2Proof.Machine.execVadd v y b a m d k s
  | .vsub v y b a m d k => Sys2Proof.Machine.execVsub v y b a m d k s
  | .vmul v y b a m d k => Sys2Proof.Machine.execVmul v y b a m d k s
  | .vfma v y b a m d k => Sys2Proof.Machine.execVfma v y b a m d k s
  | .vfms v y b a m d k => Sys2Proof.Machine.execVfms v y b a m d k s
  | .vfnma v y b a m d k => Sys2Proof.Machine.execVfnma v y b a m d k s
  | .vmin v y b a m d k => Sys2Proof.Machine.execVmin v y b a m d k s
  | .vmax v y b a m d k => Sys2Proof.Machine.execVmax v y b a m d k s
  | .vcmpEq v y b a m d k => Sys2Proof.Machine.execVcmpEq v y b a m d k s
  | .vcmpLt v y b a m d k => Sys2Proof.Machine.execVcmpLt v y b a m d k s
  | .vcmpLe v y b a m d k => Sys2Proof.Machine.execVcmpLe v y b a m d k s
  | .vsel v y b a m d k => Sys2Proof.Machine.execVsel v y b a m d k s
  | .vabs y a m d k => Sys2Proof.Machine.execVabs y a m d k s
  | .vneg y a m d k => Sys2Proof.Machine.execVneg y a m d k s
  | .vrcp y a m d k => Sys2Proof.Machine.execVrcp y a m d k s
  | .vrsq y a m d k => Sys2Proof.Machine.execVrsq y a m d k s
  | .vsqrt y a m d k => Sys2Proof.Machine.execVsqrt y a m d k s
  | .vexp2 y a m d k => Sys2Proof.Machine.execVexp2 y a m d k s
  | .vlog2 y a m d k => Sys2Proof.Machine.execVlog2 y a m d k s
  | .viadd v y b a m d k => Sys2Proof.Machine.execViadd v y b a m d k s
  | .visub v y b a m d k => Sys2Proof.Machine.execVisub v y b a m d k s
  | .vimul v y b a m d k => Sys2Proof.Machine.execVimul v y b a m d k s
  | .vimad v y b a m d k => Sys2Proof.Machine.execVimad v y b a m d k s
  | .vand v y b a m d k => Sys2Proof.Machine.execVand v y b a m d k s
  | .vor v y b a m d k => Sys2Proof.Machine.execVor v y b a m d k s
  | .vxor v y b a m d k => Sys2Proof.Machine.execVxor v y b a m d k s
  | .vshl v y b a m d k => Sys2Proof.Machine.execVshl v y b a m d k s
  | .vshr v y b a m d k => Sys2Proof.Machine.execVshr v y b a m d k s
  | .vsra v y b a m d k => Sys2Proof.Machine.execVsra v y b a m d k s
  | .vimin v y b a m d k => Sys2Proof.Machine.execVimin v y b a m d k s
  | .vimax v y b a m d k => Sys2Proof.Machine.execVimax v y b a m d k s
  | .vicmpEq v y b a m d k => Sys2Proof.Machine.execVicmpEq v y b a m d k s
  | .vicmpLt v y b a m d k => Sys2Proof.Machine.execVicmpLt v y b a m d k s
  | .vicmpLe v y b a m d k => Sys2Proof.Machine.execVicmpLe v y b a m d k s
  | .vld n a m d k => Sys2Proof.Machine.execVld n a m d k s
  | .vlds n a m d k => Sys2Proof.Machine.execVlds n a m d k s
  | .vldg i0 n a m d k => Sys2Proof.Machine.execVldg i0 n a m d k s
  | .vldt t a d k => Sys2Proof.Machine.execVldt t a d k s
  | .vst n a m d k => Sys2Proof.Machine.execVst n a m d k s
  | .vsts n a m d k => Sys2Proof.Machine.execVsts n a m d k s
  | .vstg i0 n a m d k => Sys2Proof.Machine.execVstg i0 n a m d k s
  | .vstt t a d k => Sys2Proof.Machine.execVstt t a d k s
  | .vredsum y a m d k => Sys2Proof.Machine.execVredsum y a m d k s
  | .vredmax y a m d k => Sys2Proof.Machine.execVredmax y a m d k s
  | .vredmin y a m d k => Sys2Proof.Machine.execVredmin y a m d k s
  | .vperm y b a m d k => Sys2Proof.Machine.execVperm y b a m d k s
  | .vrot y b a m d k => Sys2Proof.Machine.execVrot y b a m d k s
  | .vbcast y a m d k => Sys2Proof.Machine.execVbcast y a m d k s
  | .vext y b a d k => Sys2Proof.Machine.execVext y b a d k s
  | .vins y b a d k => Sys2Proof.Machine.execVins y b a d k s
  | .vmov y a m d k => Sys2Proof.Machine.execVmov y a m d k s
  | .mand b a d k => Sys2Proof.Machine.execMand b a d k s
  | .mor b a d k => Sys2Proof.Machine.execMor b a d k s
  | .mnot a d k => Sys2Proof.Machine.execMnot a d k s
  | .mpop a d k => Sys2Proof.Machine.execMpop a d k s
  | .vcvt t s0 f a m d k => Sys2Proof.Machine.execVcvt t s0 f a m d k s
  | .vpack f a d k => Sys2Proof.Machine.execVpack f a d k s
  | .vunpack f a d k => Sys2Proof.Machine.execVunpack f a d k s
  | .vqblk f b a m d k => Sys2Proof.Machine.execVqblk f b a m d k s
  | .vscl f b a m d k => Sys2Proof.Machine.execVscl f b a m d k s
  | .mma l m t a f b k => Sys2Proof.Machine.execMma l m t a f b k s
  | .mmaT l m t a f b k => Sys2Proof.Machine.execMmaT l m t a f b k s
  | .mmas l m t a f b k => Sys2Proof.Machine.execMmas l m t a f b k s
  | .accZero l m a b k => Sys2Proof.Machine.execAccZero l m a b k s
  | .accRd l t a f k => Sys2Proof.Machine.execAccRd l t a f k s
  | .accWr l t a f k => Sys2Proof.Machine.execAccWr l t a f k s
  | .loftLd l t a k => Sys2Proof.Machine.execLoftLd l t a k s
  | .copy c b s0 a d k => Sys2Proof.Machine.execCopy c b s0 a d k s
  | .copyMc c b s0 a d k => Sys2Proof.Machine.execCopyMc c b s0 a d k s
  | .copyT c b s0 t k => Sys2Proof.Machine.execCopyT c b s0 t k s
  | .reduce c b o f a n k => Sys2Proof.Machine.execReduce c b o f a n k s
  | .launch l a k => Sys2Proof.Machine.execLaunch l a k s
  | .lwait l a d k => Sys2Proof.Machine.execLwait l a d k s
  | .cancel l b a k => Sys2Proof.Machine.execCancel l b a k s
  | .cpref l n a b k => Sys2Proof.Machine.execCpref l n a b k s
  | .cdisc l n a b k => Sys2Proof.Machine.execCdisc l n a b k s
  | .evsig l a k => Sys2Proof.Machine.execEvsig l a k s
  | .evwait l a d k => Sys2Proof.Machine.execEvwait l a d k s
  | .vfq l a d k => Sys2Proof.Machine.execVfq l a d k s
  | .vfdone l a k => Sys2Proof.Machine.execVfdone l a k s
  | .add_ b a d k => Sys2Proof.Machine.execAdd b a d k s
  | .sll b a d k => Sys2Proof.Machine.execSll b a d k s
  | .slt b a d k => Sys2Proof.Machine.execSlt b a d k s
  | .sltu b a d k => Sys2Proof.Machine.execSltu b a d k s
  | .xor_ b a d k => Sys2Proof.Machine.execXor b a d k s
  | .srl b a d k => Sys2Proof.Machine.execSrl b a d k s
  | .or_ b a d k => Sys2Proof.Machine.execOr b a d k s
  | .and_ b a d k => Sys2Proof.Machine.execAnd b a d k s
  | .sub_ b a d k => Sys2Proof.Machine.execSub b a d k s
  | .sra b a d k => Sys2Proof.Machine.execSra b a d k s
  | .mul_ b a d k => Sys2Proof.Machine.execMul b a d k s
  | .mulh b a d k => Sys2Proof.Machine.execMulh b a d k s
  | .mulhu b a d k => Sys2Proof.Machine.execMulhu b a d k s
  | .div_ b a d k => Sys2Proof.Machine.execDiv b a d k s
  | .divu b a d k => Sys2Proof.Machine.execDivu b a d k s
  | .rem_ b a d k => Sys2Proof.Machine.execRem b a d k s
  | .remu b a d k => Sys2Proof.Machine.execRemu b a d k s
  | .min_ b a d k => Sys2Proof.Machine.execMin b a d k s
  | .max_ b a d k => Sys2Proof.Machine.execMax b a d k s
  | .minu b a d k => Sys2Proof.Machine.execMinu b a d k s
  | .maxu b a d k => Sys2Proof.Machine.execMaxu b a d k s
  | .clz a d k => Sys2Proof.Machine.execClz a d k s
  | .ctz a d k => Sys2Proof.Machine.execCtz a d k s
  | .popc a d k => Sys2Proof.Machine.execPopc a d k s
  | .sextB a d k => Sys2Proof.Machine.execSextB a d k s
  | .sextH a d k => Sys2Proof.Machine.execSextH a d k s
  | .sextW a d k => Sys2Proof.Machine.execSextW a d k s
  | .zextB a d k => Sys2Proof.Machine.execZextB a d k s
  | .zextH a d k => Sys2Proof.Machine.execZextH a d k s
  | .zextW a d k => Sys2Proof.Machine.execZextW a d k s
  | .addi i0 a d k => Sys2Proof.Machine.execAddi i0 a d k s
  | .slti i0 a d k => Sys2Proof.Machine.execSlti i0 a d k s
  | .sltiu i0 a d k => Sys2Proof.Machine.execSltiu i0 a d k s
  | .xori i0 a d k => Sys2Proof.Machine.execXori i0 a d k s
  | .ori i0 a d k => Sys2Proof.Machine.execOri i0 a d k s
  | .andi i0 a d k => Sys2Proof.Machine.execAndi i0 a d k s
  | .slli h a d k => Sys2Proof.Machine.execSlli h a d k s
  | .srli h a d k => Sys2Proof.Machine.execSrli h a d k s
  | .srai h a d k => Sys2Proof.Machine.execSrai h a d k s
  | .lui i0 d k => Sys2Proof.Machine.execLui i0 d k s
  | .auipc i0 d k => Sys2Proof.Machine.execAuipc i0 d k s
  | .beq o b a k => Sys2Proof.Machine.execBeq o b a k s
  | .bne o b a k => Sys2Proof.Machine.execBne o b a k s
  | .bfull o a k => Sys2Proof.Machine.execBfull o a k s
  | .bempty o a k => Sys2Proof.Machine.execBempty o a k s
  | .blt o b a k => Sys2Proof.Machine.execBlt o b a k s
  | .bge o b a k => Sys2Proof.Machine.execBge o b a k s
  | .bltu o b a k => Sys2Proof.Machine.execBltu o b a k s
  | .bgeu o b a k => Sys2Proof.Machine.execBgeu o b a k s
  | .jal i0 d k => Sys2Proof.Machine.execJal i0 d k s
  | .jalr i0 a d k => Sys2Proof.Machine.execJalr i0 a d k s
  | .fadd f b a r d k => Sys2Proof.Machine.execFadd f b a r d k s
  | .fsub f b a r d k => Sys2Proof.Machine.execFsub f b a r d k s
  | .fmul f b a r d k => Sys2Proof.Machine.execFmul f b a r d k s
  | .fdiv f b a r d k => Sys2Proof.Machine.execFdiv f b a r d k s
  | .fsqrt f a r d k => Sys2Proof.Machine.execFsqrt f a r d k s
  | .ffma f b a r d k => Sys2Proof.Machine.execFfma f b a r d k s
  | .fmin f b a d k => Sys2Proof.Machine.execFmin f b a d k s
  | .fmax f b a d k => Sys2Proof.Machine.execFmax f b a d k s
  | .feq f b a d k => Sys2Proof.Machine.execFeq f b a d k s
  | .flt f b a d k => Sys2Proof.Machine.execFlt f b a d k s
  | .fle f b a d k => Sys2Proof.Machine.execFle f b a d k s
  | .fclass f a d k => Sys2Proof.Machine.execFclass f a d k s
  | .fcvtToFloat f s0 a r d k => Sys2Proof.Machine.execFcvtToFloat f s0 a r d k s
  | .fcvtToInt f s0 a r d k => Sys2Proof.Machine.execFcvtToInt f s0 a r d k s
  | .get_ i0 d k => Sys2Proof.Machine.execGet i0 d k s
  | .set_ i0 a k => Sys2Proof.Machine.execSet i0 a k s
  | .cget c d k => Sys2Proof.Machine.execCget c d k s
  | .cset c a k => Sys2Proof.Machine.execCset c a k s
  | .ecall k => Sys2Proof.Machine.execEcall k s
  | .ebreak k => Sys2Proof.Machine.execEbreak k s
  | .eret k => Sys2Proof.Machine.execEret k s
  | .halt k => Sys2Proof.Machine.execHalt k s
  | .tlbi b a k => Sys2Proof.Machine.execTlbi b a k s
  | .kill a k => Sys2Proof.Machine.execKill a k s
  | .sget a d k => Sys2Proof.Machine.execSget a d k s
  | .sset b a k => Sys2Proof.Machine.execSset b a k s
  | .doubleFault sid => Sys2Proof.Machine.execDoubleFault sid s
  | .strandArrival pk => Sys2Proof.Machine.execStrandArrival pk s
  | .guestEviction sid => Sys2Proof.Machine.execGuestEviction sid s
  | .evictionReturn pk => Sys2Proof.Machine.execEvictionReturn pk s
  | .forwardedResult sid f => Sys2Proof.Machine.execForwardedResult sid f s
  | .lateResultReturn place sid v => Sys2Proof.Machine.execLateResultReturn place sid v s
  | .symbolResolution place sc e => Sys2Proof.Machine.execSymbolResolution place sc e s
  | .parkWake sid => Sys2Proof.Machine.execParkWake sid s
  | .strandPromotion sid => Sys2Proof.Machine.execStrandPromotion sid s
  | .meetingExpiry place entry => Sys2Proof.Machine.execMeetingExpiry place entry s
  | .meetingPaired place entry => Sys2Proof.Machine.execMeetingPaired place entry s
  | .linkFailure pk => Sys2Proof.Machine.execLinkFailure pk s
  | .killNotice sid => Sys2Proof.Machine.execKillNotice sid s
  | .boundaryStop pk => Sys2Proof.Machine.execBoundaryStop pk s
  | .stoppedReturn pk => Sys2Proof.Machine.execStoppedReturn pk s
  | .storeAccepted id => Sys2Proof.Machine.execStoreAccepted id s
  | .storeAck place sid => Sys2Proof.Machine.execStoreAck place sid s
  | .vaultFillReturn cl line => Sys2Proof.Machine.execVaultFillReturn cl line s
  | .writeBackDrain cl => Sys2Proof.Machine.execWriteBackDrain cl s
  | .feWaiterService place word => Sys2Proof.Machine.execFeWaiterService place word s
  | .watchTimeout cl id => Sys2Proof.Machine.execWatchTimeout cl id s
  | .joinListService place word => Sys2Proof.Machine.execJoinListService place word s
  | .barWaitService place word => Sys2Proof.Machine.execBarWaitService place word s
  | .translationFill place asn va => Sys2Proof.Machine.execTranslationFill place asn va s
  | .tableWalkComplete cl id => Sys2Proof.Machine.execTableWalkComplete cl id s
  | .tileSetDown place t b poisoned => Sys2Proof.Machine.execTileSetDown place t b poisoned s
  | .tileDeliveryFault place t off pc => Sys2Proof.Machine.execTileDeliveryFault place t off pc s
  | .rangeLockRelease place id => Sys2Proof.Machine.execRangeLockRelease place id s
  | .vectorEntryAccept place sc => Sys2Proof.Machine.execVectorEntryAccept place sc s
  | .vectorEntryComplete place id => Sys2Proof.Machine.execVectorEntryComplete place id s
  | .matrixCommandStart place => Sys2Proof.Machine.execMatrixCommandStart place s
  | .matrixCommandComplete place => Sys2Proof.Machine.execMatrixCommandComplete place s
  | .courierPieceLaunch op => Sys2Proof.Machine.execCourierPieceLaunch op s
  | .courierPickUp pc => Sys2Proof.Machine.execCourierPickUp pc s
  | .courierSetDown pc => Sys2Proof.Machine.execCourierSetDown pc s
  | .engineCompletionReport pc => Sys2Proof.Machine.execEngineCompletionReport pc s
  | .combineWindowClose cl id => Sys2Proof.Machine.execCombineWindowClose cl id s
  | .reductionNodeArrival msg => Sys2Proof.Machine.execReductionNodeArrival msg s
  | .reductionRelaunch msg => Sys2Proof.Machine.execReductionRelaunch msg s
  | .ringPieceArrival pc => Sys2Proof.Machine.execRingPieceArrival pc s
  | .ringPieceRelaunch pc => Sys2Proof.Machine.execRingPieceRelaunch pc s
  | .dequeTakeRequest place sid thief => Sys2Proof.Machine.execDequeTakeRequest place sid thief s
  | .dequeIncrementAccepted place j => Sys2Proof.Machine.execDequeIncrementAccepted place j s
  | .dequeAdjustmentAccepted place j sid => Sys2Proof.Machine.execDequeAdjustmentAccepted place j sid s
  | .thiefVictimArrival th => Sys2Proof.Machine.execThiefVictimArrival th s
  | .thiefFrameArrival th => Sys2Proof.Machine.execThiefFrameArrival th s
  | .thiefRetry sid => Sys2Proof.Machine.execThiefRetry sid s
  | .barrierRelease id => Sys2Proof.Machine.execBarrierRelease id s
  | .blockCompletion b => Sys2Proof.Machine.execBlockCompletion b s
  | .blockEndReport b level => Sys2Proof.Machine.execBlockEndReport b level s
  | .gridDone g => Sys2Proof.Machine.execGridDone g s
  | .dealingRequest g node => Sys2Proof.Machine.execDealingRequest g node s
  | .dealingGrant g node => Sys2Proof.Machine.execDealingGrant g node s
  | .blockStart g cl => Sys2Proof.Machine.execBlockStart g cl s
  | .cancelStop g node => Sys2Proof.Machine.execCancelStop g node s
  | .moduleAnswerTimeout g m => Sys2Proof.Machine.execModuleAnswerTimeout g m s
  | .preemptSuspend b => Sys2Proof.Machine.execPreemptSuspend b s
  | .preemptRestore b => Sys2Proof.Machine.execPreemptRestore b s
  | .strandKill sid cause => Sys2Proof.Machine.execStrandKill sid cause s
  | .blockRerun b => Sys2Proof.Machine.execBlockRerun b s
  | .noticeArrival n => Sys2Proof.Machine.execNoticeArrival n s
  | .noticeReoffer id => Sys2Proof.Machine.execNoticeReoffer id s
  | .tlbiAck id => Sys2Proof.Machine.execTlbiAck id s
  | .contextRemoval g => Sys2Proof.Machine.execContextRemoval g s
  | .contextRemovalStepEnd g => Sys2Proof.Machine.execContextRemovalStepEnd g s
  | .pmQuiesce m mask => Sys2Proof.Machine.execPmQuiesce m mask s
  | .pmOpen m mask => Sys2Proof.Machine.execPmOpen m mask s
  | .pmRelease m mask => Sys2Proof.Machine.execPmRelease m mask s
  | .pmResume m mask => Sys2Proof.Machine.execPmResume m mask s
  | .quarterQuiesced m q => Sys2Proof.Machine.execQuarterQuiesced m q s
  | .scRetry place slot => Sys2Proof.Machine.execScRetry place slot s
  | .scSkip place slot => Sys2Proof.Machine.execScSkip place slot s
  | .scKill place slot => Sys2Proof.Machine.execScKill place slot s
  | .mgMigrate m src dst => Sys2Proof.Machine.execMgMigrate m src dst s
  | .mgCheckpoint m src => Sys2Proof.Machine.execMgCheckpoint m src s
  | .mgCheckpointRemove m src => Sys2Proof.Machine.execMgCheckpointRemove m src s
  | .mgRestore m src => Sys2Proof.Machine.execMgRestore m src s
  | .migrationStreamDone m => Sys2Proof.Machine.execMigrationStreamDone m s
  | .vaultDropGo core pch => Sys2Proof.Machine.execVaultDropGo core pch s
  | .vaultGranuleMove core => Sys2Proof.Machine.execVaultGranuleMove core s
  | .windowOpen cl i0 d0 d1 => Sys2Proof.Machine.execWindowOpen cl i0 d0 d1 s
  | .windowRevoke cl i0 => Sys2Proof.Machine.execWindowRevoke cl i0 s
  | .windowClose cl i0 => Sys2Proof.Machine.execWindowClose cl i0 s
  | .windowRevokedAck cl i0 => Sys2Proof.Machine.execWindowRevokedAck cl i0 s
  | .keyWrite m o key => Sys2Proof.Machine.execKeyWrite m o key s
  | .oldKeyExpiry m o => Sys2Proof.Machine.execOldKeyExpiry m o s
  | .podFrameReceive m port pk fecOk => Sys2Proof.Machine.execPodFrameReceive m port pk fecOk s
  | .podPortTraining m port lanes => Sys2Proof.Machine.execPodPortTraining m port lanes s
  | .hostWrite m f bar off bytes => Sys2Proof.Machine.execHostWrite m f bar off bytes s
  | .hostWriteAck m => Sys2Proof.Machine.execHostWriteAck m s
  | .hostRead m f bar off n => Sys2Proof.Machine.execHostRead m f bar off n s
  | .mailboxCommit m f => Sys2Proof.Machine.execMailboxCommit m f s
  | .moduleResetRequest m f => Sys2Proof.Machine.execModuleResetRequest m f s
  | .cqHeadWrite m f v => Sys2Proof.Machine.execCqHeadWrite m f v s
  | .completionRecordWrite m f => Sys2Proof.Machine.execCompletionRecordWrite m f s
  | .functionLevelReset m f => Sys2Proof.Machine.execFunctionLevelReset m f s
  | .configRequest m f => Sys2Proof.Machine.execConfigRequest m f s
  | .coldReset => Sys2Proof.Machine.execColdReset s
  | .moduleReset m => Sys2Proof.Machine.execModuleReset m s
  | .pllLockLoss m => Sys2Proof.Machine.execPllLockLoss m s
  | .sensorSample m => Sys2Proof.Machine.execSensorSample m s
  | .fwUpdateStart m => Sys2Proof.Machine.execFwUpdateStart m s
  | .fwBankMark m => Sys2Proof.Machine.execFwBankMark m s
  | .bootFallback m => Sys2Proof.Machine.execBootFallback m s
  | .logEntrySelect m i0 => Sys2Proof.Machine.execLogEntrySelect m i0 s
  | .attestationRequest m owner pa => Sys2Proof.Machine.execAttestationRequest m owner pa s
  | .eventWaitTimeout m id => Sys2Proof.Machine.execEventWaitTimeout m id s
  | .remoteEvsigArrival m e owner => Sys2Proof.Machine.execRemoteEvsigArrival m e owner s
  | .replayDelivery core => Sys2Proof.Machine.execReplayDelivery core s
  | .loadLaunch ls => Sys2Proof.Machine.execLoadLaunch ls s
  | .registerWrite m off owner isMc v => Sys2Proof.Machine.execRegisterWrite m off owner isMc v s
  | .illegalInstruction w => Sys2Proof.Machine.execIllegalInstruction w s
  | .instructionFetchFault va => Sys2Proof.Machine.execInstructionFetchFault va s
  | .tokenAccrual cl => Sys2Proof.Machine.execTokenAccrual cl s
  | .sliceCacheRequest pc => Sys2Proof.Machine.execSliceCacheRequest pc s

end Sys2Proof.Machine
end

