-- ==== Sys2Proof/Machine/Paired.lean ====
section
/-! DEFINITION. Paired mode (R374 to R379): the leading strand's values go through the load-value queue, its effects through
the store comparator. A strand without a partner executes its instruction as it is. -/

namespace Sys2Proof.Machine

open Sys2Proof

noncomputable section

/-! ### What an instruction is to a pair (R375, R376, R378) -/

/-- own: each strand executes it for itself. value d: the leading strand receives a value from outside its registers, into
register d. effect: it acts outside the registers. both d: an effect whose result comes back. sync: both strands reach it
before it acts. -/
inductive PairClass where
  | own
  | value (d : Nat)
  | effect
  | both (d : Nat)
  | sync
  deriving DecidableEq, Repr

/-- Register codes of the sources and of the destination of a scalar word of majors 0x05 to 0x0C. -/
def scalarSrcs (w : Nat) : List Nat :=
  let m := bits w 6 1
  if m = 5 ∨ m = 11 then [bits w 19 15] else if m = 6 ∨ m = 9 ∨ m = 12 then [bits w 19 15, bits w 24 20] else []
def scalarDst (w : Nat) : Nat :=
  let m := bits w 6 1
  if 5 ≤ m ∧ m ≤ 12 ∧ m ≠ 9 then bits w 11 7 else 0

/-- The class of a scalar word: a push is an effect, a pop a value. -/
def scalarClass (w : Nat) : PairClass :=
  if 16 ≤ scalarDst w then .effect else if (scalarSrcs w).any (16 ≤ ·) then .value (scalarDst w) else .own

def pairClass (i : Instr) : PairClass :=
  match i with
  | .ldB _ _ _ d _ | .ldH _ _ _ d _ | .ldW _ _ _ d _ | .ldD _ _ _ d _ | .ldBu _ _ _ d _ | .ldHu _ _ _ d _ | .ldWu _ _ _ d _ => .value d.toNat
  | .ldBMx _ _ _ _ d _ | .ldHMx _ _ _ _ d _ | .ldWMx _ _ _ _ d _ | .ldDMx _ _ _ _ d _ | .ldBuMx _ _ _ _ d _
  | .ldHuMx _ _ _ _ d _ | .ldWuMx _ _ _ _ d _ => .value d.toNat
  | .stB .. | .stH .. | .stW .. | .stD .. | .stBMx .. | .stHMx .. | .stWMx .. | .stDMx .. => .effect
  | .amoAdd _ _ _ _ d _ | .amoSwap _ _ _ _ d _ | .amoAnd _ _ _ _ d _ | .amoOr _ _ _ _ d _ | .amoXor _ _ _ _ d _
  | .amoMin _ _ _ _ d _ | .amoMax _ _ _ _ d _ | .amoMinu _ _ _ _ d _ | .amoMaxu _ _ _ _ d _ | .amoCas _ _ _ _ d _ => .both d.toNat
  | .amoFaddS _ _ _ d _ => .both d.toNat
  | .take _ _ _ d _ | .peek _ _ _ d _ | .fequery _ _ _ d _ => .value d.toNat
  | .give .. | .fill .. | .femark .. | .feclear .. => .effect
  | .watchEq _ _ _ v _ | .watchNe _ _ _ v _ | .watchLt _ _ _ v _ | .watchGe _ _ _ v _ | .watchLtu _ _ _ v _
  | .watchGeu _ _ _ v _ => .value v.toNat
  | .discard .. | .prefetch .. | .flush .. | .tdef .. | .texp .. | .tready .. | .tdrain .. | .treset .. | .recLd .. | .recSt .. => .effect
  | .tstate _ d _ => .value d.toNat
  | .go .. | .gohome .. | .goa .. | .meet .. | .part_ .. | .spawn .. | .jend .. | .exit .. => .sync
  | .pget _ d _ | .plug d _ | .whereIs d _ | .symq _ d _ | .symtag _ d _ | .dqn d _ => .value d.toNat
  | .pput .. => .effect
  | .pxch _ d _ => .both d.toNat
  | .join _ _ _ d _ | .barArr _ _ _ d _ => .value d.toNat
  | .barWait .. => .value 0
  | .ringInit .. | .ringPut .. | .ringFree .. | .pipePut .. | .pipeFree .. | .barInit .. => .effect
  | .ringTkt _ _ _ d _ | .ringTake _ _ _ d _ | .pipeTake _ d _ => .both d.toNat
  | .vadd .. | .vsub .. | .vmul .. | .vfma .. | .vfms .. | .vfnma .. | .vmin .. | .vmax .. | .vcmpEq .. | .vcmpLt .. | .vcmpLe ..
  | .vsel .. | .vabs .. | .vneg .. | .vrcp .. | .vrsq .. | .vsqrt .. | .vexp2 .. | .vlog2 .. | .viadd .. | .visub .. | .vimul ..
  | .vimad .. | .vand .. | .vor .. | .vxor .. | .vshl .. | .vshr .. | .vsra .. | .vimin .. | .vimax .. | .vicmpEq .. | .vicmpLt ..
  | .vicmpLe .. | .vld .. | .vlds .. | .vldg .. | .vldt .. | .vst .. | .vsts .. | .vstg .. | .vstt .. | .vperm .. | .vrot .. | .vbcast ..
  | .vins .. | .vmov .. | .mand .. | .mor .. | .mnot .. | .vcvt .. | .vpack .. | .vunpack .. | .vqblk .. | .vscl .. => .effect
  | .vredsum _ _ _ d _ | .vredmax _ _ _ d _ | .vredmin _ _ _ d _ => .both d.toNat
  | .vext _ _ _ d _ => .both d.toNat
  | .mpop _ d _ => .both d.toNat
  | .mma .. | .mmaT .. | .mmas .. | .accZero .. | .accRd .. | .accWr .. | .loftLd .. | .copy .. | .copyMc .. | .copyT .. | .reduce .. => .effect
  | .bfull .. | .bempty .. => .value 0
  | .get_ _ d _ => if 16 ≤ d.toNat then .effect else .value d.toNat
  | .cget _ d _ => .value d.toNat
  | .set_ .. | .cset .. => .effect
  | _ => scalarClass (wordOf i).toNat

/-- The register codes whose values the comparator records (R376). -/
def pairSrcs (i : Instr) : List Nat :=
  match i with
  | .stB _ _ x v _ | .stH _ _ x v _ | .stW _ _ x v _ | .stD _ _ x v _ => [x.toNat, v.toNat]
  | .stBMx _ _ _ x v _ | .stHMx _ _ _ x v _ | .stWMx _ _ _ x v _ | .stDMx _ _ _ x v _ => [x.toNat, v.toNat]
  | .amoAdd _ _ x _ d _ | .amoSwap _ _ x _ d _ | .amoAnd _ _ x _ d _ | .amoOr _ _ x _ d _ | .amoXor _ _ x _ d _
  | .amoMin _ _ x _ d _ | .amoMax _ _ x _ d _ | .amoMinu _ _ x _ d _ | .amoMaxu _ _ x _ d _ => [x.toNat, d.toNat]
  | .amoCas _ _ x _ d _ => [x.toNat, d.toNat, d.toNat + 1]
  | .amoFaddS _ _ x d _ => [x.toNat, d.toNat]
  | .go _ a _ | .goa _ _ a _ | .spawn _ _ a _ | .jend _ _ a _ => [a.toNat]
  | .meet _ _ b a _ _ => [b.toNat, a.toNat]
  | .give _ _ x v _ | .fill _ _ x v _ => [x.toNat, v.toNat]
  | .femark _ _ x _ | .feclear _ _ x _ => [x.toNat]
  | .discard _ a b _ | .prefetch _ a b _ | .flush _ a b _ => [a.toNat, b.toNat]
  | .tdef _ _ _ a b _ => [a.toNat, b.toNat]
  | .texp _ _ a _ => [a.toNat]
  | .recLd _ _ a _ _ | .recSt _ _ a _ _ => [a.toNat]
  | .pput _ a _ _ => [a.toNat]
  | .pxch _ d _ => [d.toNat]
  | .ringInit _ _ a b _ | .ringPut _ _ a b _ | .ringFree _ _ a b _ | .barInit _ _ a b _ => [a.toNat, b.toNat]
  | .ringTkt _ _ a _ _ | .ringTake _ _ a _ _ => [a.toNat]
  | .pipePut _ a _ => [a.toNat]
  | .pipeFree _ _ a _ => [a.toNat]
  | .vld _ a _ _ _ | .vlds _ a _ _ _ | .vst _ a _ _ _ | .vsts _ a _ _ _ => [a.toNat]
  | .vldg _ _ a _ _ _ | .vstg _ _ a _ _ _ => [a.toNat]
  | .vldt _ a _ _ | .vstt _ a _ _ => [a.toNat]
  | .vbcast _ a _ _ _ => [a.toNat]
  | .vrot _ b _ _ _ _ => [b.toNat]
  | .vext _ b _ _ _ => [b.toNat]
  | .vins _ b a _ _ => [a.toNat, b.toNat]
  | .vqblk _ b _ _ _ _ | .vscl _ b _ _ _ _ => [b.toNat]
  | .mma _ _ _ a _ b _ | .mmaT _ _ _ a _ b _ => [a.toNat, b.toNat]
  | .mmas _ _ _ a _ b _ => [a.toNat, b.toNat]
  | .accZero _ _ a b _ => [a.toNat, b.toNat]
  | .accRd _ _ a _ _ | .accWr _ _ a _ _ => [a.toNat]
  | .loftLd _ _ a _ => [a.toNat]
  | .copy c b _ a _ _ | .copyMc c b _ a _ _ => [c.toNat, b.toNat, a.toNat]
  | .copyT c b _ _ _ => [c.toNat, b.toNat]
  | .reduce c b _ _ a _ _ => [c.toNat, b.toNat, a.toNat]
  | .set_ _ a _ | .cset _ a _ => [a.toNat]
  | .vadd v _ _ a _ _ _ | .vsub v _ _ a _ _ _ | .vmul v _ _ a _ _ _ | .vfma v _ _ a _ _ _ | .vfms v _ _ a _ _ _ | .vfnma v _ _ a _ _ _
  | .vmin v _ _ a _ _ _ | .vmax v _ _ a _ _ _ | .vcmpEq v _ _ a _ _ _ | .vcmpLt v _ _ a _ _ _ | .vcmpLe v _ _ a _ _ _
  | .vsel v _ _ a _ _ _ | .viadd v _ _ a _ _ _ | .visub v _ _ a _ _ _ | .vimul v _ _ a _ _ _ | .vimad v _ _ a _ _ _
  | .vand v _ _ a _ _ _ | .vor v _ _ a _ _ _ | .vxor v _ _ a _ _ _ | .vshl v _ _ a _ _ _ | .vshr v _ _ a _ _ _ | .vsra v _ _ a _ _ _
  | .vimin v _ _ a _ _ _ | .vimax v _ _ a _ _ _ | .vicmpEq v _ _ a _ _ _ | .vicmpLt v _ _ a _ _ _ | .vicmpLe v _ _ a _ _ _ =>
    if v = 1 then [a.toNat] else []
  | _ => (scalarSrcs (wordOf i).toNat).filter (· < 16)

def pairVals (i : Instr) (x : Strand) : List Word := (pairSrcs i).map (regVal x)

/-- The ports that an effect pops: a word that a port gives and that goes out by another (R375, R376). -/
def pairPops (i : Instr) : List Nat :=
  match pairClass i with
  | .effect => (scalarSrcs (wordOf i).toNat).filter (16 ≤ ·)
  | _ => []

/-- What an instruction reads or writes outside the registers, as far as program order ties a read to an earlier effect: memory,
special and context registers, tiles, the partner of a meeting. -/
inductive PairPlace where
  | memory | special | tile | peer | other
  deriving DecidableEq, Repr

def pairPlace (i : Instr) : PairPlace :=
  match i with
  | .get_ .. | .cget .. | .set_ .. | .cset .. => .special
  | .tdef .. | .texp .. | .tready .. | .tdrain .. | .treset .. | .tstate .. => .tile
  | .pget .. | .plug .. | .pput .. | .pxch .. => .peer
  | .bfull .. | .bempty .. | .whereIs .. | .symq .. | .symtag .. | .dqn .. => .other
  | _ => if 5 ≤ bits (wordOf i).toNat 6 1 ∧ bits (wordOf i).toNat 6 1 ≤ 12 then .other else .memory

/-- A recorded effect that is still to be performed comes before this read in program order (R179; log 54). -/
def behindEffect (i : Instr) (x : Strand) : Bool :=
  decide (pairPlace i ≠ .other) && x.cmp.any (fun e => match decode e.word with | .ok j => decide (pairPlace j = pairPlace i) | .error _ => false)

/-! ### Contexts -/

/-- The strand x with the context of c: what a strand computes with, its place in a pair, and its slots kept. -/
def withCtx (c x : Strand) : Strand :=
  { x with
    regs := c.regs, rst := c.rst, pc := c.pc, status := setStatusBit 11 (trailS x) c |>.status, fcsr := c.fcsr, cause := c.cause
    epc := c.epc, tval := c.tval, wtimeout := c.wtimeout, brought := c.brought, lug := c.lug, link := c.link
    carried := c.carried, park := c.park, readyAt := c.readyAt, meetOp := c.meetOp, walkFault := c.walkFault
    inHandler := c.inHandler, run := c.run }

/-- Registers that an instruction has emptied. -/
def emptied (x y : Strand) : List Nat := (List.range 16).filter (fun r => decide (regSt y r = .empty ∧ regSt x r ≠ .empty))

/-- The instruction was annulled: its strand parks where it stands. -/
def annulled (x y : Strand) : Bool := decide (y.pc = x.pc) && y.park.isSome && decide (y.run = .live) && !y.away
/-- The instruction trapped. -/
def trapped (x y : Strand) : Bool := decide (y.run ≠ .live) || (y.inHandler && !x.inHandler)
/-- The instruction made the strand leave. -/
def left (x y : Strand) : Bool := y.away && !x.away
/-- The strand waits inside its instruction for a value. -/
def waitsInside (y : Strand) : Bool := decide (y.park = some .watch ∨ y.park = some .join ∨ y.park = some .barWait)

/-! ### The leading strand -/

/-- The trap of the leading strand, for the trailing strand to take (R379); one that the trailing strand has come to first and
taken, as a word that never parks does (R51), is done. -/
def leadTrap (w : IWord) (x : Strand) (t : State) : State :=
  let ahead := match x.partner.bind (tget t.strands) with | some z => (z.cmp.head?.map CmpEntry.pc) == some x.pc | none => false
  match x.partner with
  | some p =>
    if ahead then modIf p (fun z => { z with cmp := z.cmp.drop 1 }) t
    else modMe (fun y => { y with cmp := y.cmp ++ [⟨w, x.pc, [w64 y.lvq.length], some (y.cause, y.tval)⟩] }) t
  | none => t

/-- The trailing strand z after an instruction that turned the leading strand from x into y: it keeps what is its own and takes what the
instruction changed. -/
def follow (x y z : Strand) : Strand :=
  let same (r : Nat) : Bool := decide (regSt x r = regSt y r ∧ regVal x r = regVal y r)
  let w := withCtx y z
  { (List.range 16).foldl (fun w r => if same r then { w with regs := vset w.regs r (vget z.regs r 0), rst := vset w.rst r (vget z.rst r .full) } else w) w with
    status := if y.status = x.status then z.status else w.status
    fcsr := if y.fcsr = x.fcsr then z.fcsr else y.fcsr
    tval := if y.tval = x.tval then z.tval else y.tval
    away := y.away, carried := y.carried, park := if y.park = some .meet then y.park else none }

/-- Both strands of a pair go on from an instruction that they reach together: t is the state in which the leading strand, x before it,
has executed it. Each keeps its own registers, and both sets travel (R378). -/
def together (x : Strand) (t : State) : State :=
  let y := t.me
  match y.partner with
  | none => t
  | some p => modIf p (follow x y) t

/-- The value that the leading strand has received enters the load-value queue (R375). -/
def pushValue (d : Nat) (x : Strand) (t : State) : State :=
  let y := t.me
  let e : LvEntry :=
    if waitsInside y then ⟨x.pc, x.pc + 4, d, none, 0, true, [], 0⟩
    else match regSt y d with
      | .await g => ⟨x.pc, y.pc, d, none, g, false, emptied x y, y.fcsr.setWidth 5⟩
      | _ => ⟨x.pc, y.pc, d, some (regVal y d), 0, false, emptied x y, y.fcsr.setWidth 5⟩
  modMe (fun y => { y with lvq := y.lvq ++ [e] }) t

/-- A leading strand that has waited inside its instruction issues again: the value it found is in its register. -/
def settleLater (s : State) : State :=
  let x := s.me
  let gone := (List.range 16).filter (fun r => decide (regSt x r = .empty))
  let fill (e : LvEntry) : LvEntry := { e with value := some (regVal x e.d), later := false, drop := gone }
  modMe (fun y => { y with lvq := lmod LvEntry.later fill y.lvq }) s

/-- The leading strand's copy of an effect is recorded, and its strand goes on; what it computes for itself it has (R376). A
result that the effect will bring has its place in the load-value queue (R375). -/
def recordEffect (i : Instr) (w : IWord) (d : Option Nat) (x : Strand) (t s : State) : State :=
  let e : CmpEntry := ⟨w, x.pc, pairVals i x, none⟩
  let later : List LvEntry := match d with | some d => [⟨x.pc, x.pc + 4, d, none, 0, false, [], 0⟩] | none => []
  modMe (fun y =>
    let z := withCtx t.me { y with cmp := y.cmp ++ [e], lvq := y.lvq ++ later }
    let z := match d with | some d => setRst d (.await 0) z | none => z
    { z with park := if w.getLsbD 0 then some .kbit else none }) s

/-- The leading strand pops the words that its effect sends on: they enter the load-value queue (R375). -/
def popAhead (pops : List Nat) (x : Strand) (s : State) : State :=
  pops.foldl (fun s c =>
    let r := popPort c s
    modMe (fun y => { y with lvq := y.lvq ++ [⟨x.pc, x.pc, c, some r.1, 0, false, [], 0⟩] }) r.2) s

/-- Causes that decode raises in steps 1 to 4 of R51: such a word never parks. -/
def earlyCause (c : Nat) : Bool := decide (c = 0x16 ∨ c = 1 ∨ c = 2 ∨ c = 0x0C)

/-- A mismatch (R377): cause 0x0E in both strands with the leading PC, then the kill and the block's policy. -/
def pairMismatch (s : State) : State :=
  let l := leaderOf s s.cur
  let pc := match (strandAt s l).cmp.head? with | some e => e.pc | none => (strandAt s l).pc
  sched 0 (.strandKill l 14) (modPair l (fun x => { x with
    cause := 14, epc := x.pc, tval := pc, park := some .pairEffect, readyAt := s.now + 8, carried := none }) s)

/-- Words of the load-value queue that an instruction takes up, and whether it enters the comparator. -/
def queueNeeds (i : Instr) : Nat := match pairClass i with | .value _ => 1 | .both _ => 1 | _ => (pairPops i).length
def entersComparator (i : Instr) : Bool := match pairClass i with | .effect => true | .both _ => true | _ => false

/-- Both strands stand at an instruction that they perform together: their operands are compared, then it is performed (R376). -/
def syncTogether (i : Instr) (x : Strand) (s t : State) : State :=
  match x.partner.bind (tget s.strands) with
  | none => together x t
  | some z => if pairVals i z = pairVals i x then together x t else pairMismatch s

/-- Execution by the leading strand. -/
def lead (i : Instr) (w : IWord) (s0 : State) : Out :=
  let s := settleLater s0
  let x := s.me
  match exec i s with
  | .next t =>
    let y := t.me
    let isSync := decide (pairClass i = .sync)
    if trapped x y && earlyCause y.cause.toNat then .next (leadTrap w x t)
    else if 64 < x.lvq.length + queueNeeds i then .next (park (.pairRoom true) s)
    else if entersComparator i && cmpFull x then .next (park (.pairRoom false) s)
    else if entersComparator i = false && isSync = false && behindEffect i x && decide (pairClass i ≠ .own) then .next (park .pairEffect s)
    else if isSync && partnerReady s s.cur = false then
      .next (if apart s x then pairMismatch s else park .pairTravel s)
    else if isSync && decide (y.run = .held ∨ y.run = .stopped) then .next (leadTrap w x t)
    else if isSync && y.inHandler && !x.inHandler then .next (leadTrap w x t)
    else if isSync then .next (if annulled x y then t else syncTogether i x s t)
    else if trapped x y then .next (leadTrap w x t)
    else if left x y then .next (if partnerReady s s.cur then together x t else park .pairTravel s)
    else if annulled x y && !waitsInside y then .next t
    else match pairClass i with
      | .value d => .next (pushValue d x t)
      | .effect => .next (recordEffect i w none x t (popAhead (pairPops i) x s))
      | .both d => .next (recordEffect i w (some d) x t s)
      | _ => .next t
  | o => o
where
  /-- The trailing strand waits at another instruction of this kind: the kinds differ (R377). -/
  apart (s : State) (x : Strand) : Bool :=
    match x.partner.bind (tget s.strands) with
    | none => false
    | some y => decide (y.pc ≠ x.pc) && x.lvq.isEmpty && x.cmp.isEmpty && decide (y.park = some .pairTravel ∨ y.park = some .pairEffect)

/-! ### The trailing strand -/

/-- The comparator and the queue of its pair, kept at the leading strand. -/
def modLead (f : Strand → Strand) (s : State) : State := modIf (leaderOf s s.cur) f s

/-- The trap that the leading strand took at this instruction, all values before it taken. -/
def dueTrap (l : Strand) (pc : Word) : Option (BitVec 6 × Word) :=
  match l.cmp.head? with
  | some e => if e.vals = [0] ∧ e.pc = pc then e.trap else none
  | none => none

/-- The trailing strand takes a trap without executing and without a notice of its own (R379). -/
def enterTrap (c : BitVec 6) (tval : Word) (s : State) : State :=
  let x := s.me
  let s := modMe (fun x => { x with cause := c, epc := x.pc, tval := tval, carried := none, park := none, readyAt := s.now + 8 }) s
  if (tdelegOf s x).getLsbD c.toNat ∨ tvecOf s x = 0 then modMe (fun x => { x with run := .held }) s
  else modMe (fun x => { x with pc := tvecOf s x &&& ~~~3, inHandler := true }) s

/-- The trailing strand takes the leading strand's trap (R379); one that the Caller skipped is passed. -/
def takeTrap (c : BitVec 6) (tval : Word) (s : State) : State :=
  let s := modLead (fun l => { l with cmp := l.cmp.drop 1 }) s
  if c = 63 then modMe (fun x => { x with pc := x.pc + 4, readyAt := s.now + 8, carried := none, park := none }) s
  else enterTrap c tval s

/-- The trailing strand comes first to a word that never parks: it takes the trap, and keeps its mark until the leading strand
comes there (R51, R379; log 54). -/
def trapAhead (w : IWord) (c : BitVec 6) (tval : Word) (s : State) : State :=
  modMe (fun x => { x with cmp := x.cmp ++ [⟨w, s.me.pc, [], some (c, tval)⟩] }) (enterTrap c tval s)

/-- The trailing strand takes the oldest value as its result (R375). -/
def takeValue (e : LvEntry) (v : Word) (k : BitVec 1) (s : State) : State :=
  let s := modLead (fun l => { l with lvq := l.lvq.drop 1, cmp := lmod (fun e => e.trap.isSome) (fun e => { e with vals := e.vals.map (· - 1) }) l.cmp }) s
  let s := if e.d < 16 then modMe (setReg e.d v) s else s
  retireAt e.next k (modMe (fun x => e.drop.foldl (fun x r => setRst r .empty x) { x with fcsr := x.fcsr ||| e.flags.setWidth 8 }) s)

/-- The result of an effect in the leading strand, which has gone on. -/
def giveBack (d : Nat) (y l : Strand) : Strand :=
  match regSt l d with
  | .await 0 => (match regSt y d with | .await t => setRst d (.await t) l | _ => setReg d (regVal y d) l)
  | _ => l

/-- A word that the leading strand popped stands at the head of its port again, for the effect that sends it on. -/
def unpop (c : Nat) (v : Word) (s : State) : State :=
  if c = 24 then modMySc (fun k => { k with q8 := (v, 0) :: k.q8 }) s
  else if c = 25 then modCore s.here (fun k => { k with q9 := (v, s.me.block) :: k.q9 }) s
  else if c = 26 then modMySc (fun k => { k with q10 := (v, 0) :: k.q10 }) s
  else if c = 27 then modMySc (fun k => { k with q11 := v :: k.q11 }) s
  else
    let mine (b : PortBind) : Bool := decide (b.block = s.me.block ∧ b.port = c - 16)
    modCore s.here (fun k => { k with ports := lmod mine (fun b => { b with words := v :: b.words }) k.ports }) s

/-- The result of an effect, or the mark of the result that is to come, in its place of the load-value queue (R375). -/
def resultOf (d : Nat) (x y : Strand) (e : LvEntry) : LvEntry :=
  let e := { e with next := y.pc, drop := emptied x y, flags := y.fcsr.setWidth 5 }
  match regSt y d with
  | .await g => { e with tag := g }
  | _ => { e with value := some (regVal y d) }

/-- The effect is performed, in the leading strand's name with the trailing strand's context (R376). Its result goes to the
leading strand's register and to the load-value queue, where the trailing strand takes it (R375). -/
def perform (i : Instr) (d : Option Nat) (w : IWord) (s : State) : Out :=
  let me := s.cur
  let x := s.me
  let l := leaderOf s me
  let popped := (strandAt s l).lvq.take (pairPops i).length
  let base := popped.reverse.foldl (fun s e => unpop e.d (e.value.getD 0) s) (modIf l (fun z => { z with lvq := z.lvq.drop popped.length }) s)
  match exec i { modIf l (withCtx x) base with cur := l } with
  | .next r =>
    let y := strandAt r l
    if trapped x y ∨ left x y then .next (pairMismatch s)
    else if annulled x y then
      .next (if popped.isEmpty then { modIf me (withCtx y) (modIf l (withCtx (strandAt s l)) r) with cur := me } else modIf me (withCtx y) s)
    else
      let r := modIf l (fun z => { withCtx (strandAt s l) z with cmp := z.cmp.drop 1 }) r
      match d with
      | none => .next { modIf me (withCtx y) r with cur := me }
      | some d =>
        let r : State := { modIf l (fun z => giveBack d y { z with lvq := (z.lvq.take 1).map (resultOf d x y) ++ z.lvq.drop 1 }) r with cur := me }
        match (strandAt r l).lvq.head? with
        | some e => (match e.value with | some v => .next (takeValue e v (w.extractLsb' 0 1) r) | none => .next (park .pairValue r))
        | none => .next r
  | o => o

/-- Execution by the trailing strand. A trap that the leading strand took here it takes without executing (R379); a word that
fails in steps 1 to 4 of R51 never parks it. -/
def trail (i : Instr) (w : IWord) (s : State) : Out :=
  let x := s.me
  let l := strandAt s (leaderOf s s.cur)
  let compare (d : Option Nat) : Out :=
    match l.cmp.head? with
    | none => .next (if waitsApart l x then pairMismatch s else park .pairEffect s)
    | some e =>
      if e.trap = none ∧ e.word = w ∧ e.pc = x.pc ∧ e.vals = pairVals i x then perform i d w s else .next (pairMismatch s)
  let take : Out :=
    match l.lvq.head? with
    | none => .next (park .pairValue s)
    | some e =>
      if e.pc ≠ x.pc then .next (pairMismatch s)
      else match e.value with
        | some v => .next (takeValue e v (w.extractLsb' 0 1) s)
        | none => .next (park .pairValue s)
  let tried := exec i s
  let early : Option (BitVec 6 × Word) := match tried with
    | .next t => if trapped x t.me && earlyCause t.me.cause.toNat then some (t.me.cause, t.me.tval) else none
    | _ => none
  match dueTrap l x.pc, early, pairClass i with
  | some (c, v), _, .own =>
    (match tried with
    | .next t => if trapped x t.me then .next (takeTrap c v s) else .next t
    | o => o)
  | some (c, v), _, _ => .next (takeTrap c v s)
  | none, some (c, v), _ => .next (if l.cmp.isEmpty && l.lvq.isEmpty then trapAhead w c v s else pairMismatch s)
  | none, none, .own =>
    (match tried with
    | .next t => if trapped x t.me then .next (if l.cmp.isEmpty then park .pairEffect s else pairMismatch s) else .next t
    | o => o)
  | none, none, .value _ => take
  | none, none, .effect => if l.lvq.length < (pairPops i).length then .next (park .pairValue s) else compare none
  | none, none, .both d =>
    (match l.lvq.head? with
    | some e => if e.pc = x.pc ∧ (e.value.isSome ∨ e.tag ≠ 0) then take else compare (some d)
    | none => compare (some d))
  | none, none, .sync =>
    if l.cmp.isEmpty then .next (if waitsApart l x then pairMismatch s else park .pairTravel s) else .next (pairMismatch s)
where
  /-- The leading strand waits for its partner at another instruction: the kinds differ (R377). -/
  waitsApart (l x : Strand) : Bool := decide (l.park = some .pairTravel) && l.lvq.isEmpty && decide (l.pc ≠ x.pc)
/-- The issuing strand's instruction, with its word. -/
def issueExec (i : Instr) (w : IWord) (s : State) : Out :=
  match s.me.partner with
  | none => exec i s
  | some _ => if trailS s.me then trail i w s else lead i w s

end

end Sys2Proof.Machine
end

