-- ==== Sys2Proof/Machine/Cycle.lean ====
section
/-! DEFINITION. What one step does: the next event that is due, else the next thing that can happen by itself, else the next
scalar core's issue (R27, R28, R332) with its fetch (R41, R136), else the next cycle; the debug log (R380, R381). -/

namespace Sys2Proof.Machine

open Sys2Proof

noncomputable section

/-! ### The debug log and replay (R380, R381) -/

/-- The place whose answer a late result is (R26): the home of its access, the hub of a control space; none for one that the core itself
makes, as from its own SRAM, a vector instruction or a partner's register. -/
def answerFrom (s : State) (id : Nat) (v : LateValue) : Option Nat :=
  match (tget s.strands id).bind (fun x => (x.late.find? (fun l => decide (l.tag = v.tag))).map (fun l => (x, l))) with
  | none => none
  | some (x, l) =>
    if l.src ≠ 1 ∧ l.src ≠ 3 then none
    else match lookPa s x.place x.asn x.root l.va.toNat with
      | none => some (hubOf (moduleOf x.place))
      | some pa => if decide (homeOf pa = x.place) && (match space s pa with | .vault _ _ => false | _ => true) then none else some (homeOf pa)

/-- Where an event brings something to a core's interface from the mesh, the core, and the place that sends it. A packet or a piece that
has arrived and waits there for more comes from nowhere. -/
def arrivalAt (s : State) (e : Instr) : Option (Nat × Nat) :=
  let packet (pk : Nat) : Option (Nat × Nat) := ((tget s.packets pk).filter (fun p => p.taken.isNone)).map (fun p => (p.dest, p.src))
  let piece (pc stage : Nat) (f : Piece → Nat × Nat) : Option (Nat × Nat) := ((tget s.pieces pc).filter (fun p => p.stage == stage)).map f
  let c := match e with
    | .strandArrival pk => packet pk
    | .evictionReturn pk => packet pk
    | .stoppedReturn pk => packet pk
    | .courierPickUp pc => piece pc 1 (fun p => (homeOf p.src, p.origin))
    | .courierSetDown pc => piece pc 3 (fun p => (homeOf p.dst, homeOf p.src))
    | .ringPieceArrival pc =>
      ((tget s.pieces pc).filter (fun (p : Piece) => p.stage == 3)).bind (fun (p : Piece) => (tget s.ops p.op).map (fun (o : Op) => (o.home, homeOf p.src)))
    | .engineCompletionReport pc => (tget s.pieces pc).map (fun (p : Piece) =>
        (p.origin, match (tget s.ops p.op) with | some o => if isPut o then o.home else homeOf p.dst | none => homeOf p.dst))
    | .lateResultReturn place id v => (answerFrom s id v).map (place, ·)
    | .storeAck place _ => some (ackPlace place, ackHome place)
    | .noticeArrival n => if n.q = 9 then some (n.place, n.from_) else none
    | _ => none
  c.filter (fun a => isCore a.1)

/-- Flits of a logged arrival; a pair's packet has two more (R378). -/
def arrivalFlits (s : State) (a : Arrival) : Nat :=
  match a.packet, a.piece, a.write with
  | some p, _, _ => 3 + pairFlits s p.sid + cdiv p.luggage.length 64
  | none, some p, _ => 1 + cdiv p.bytes.length 64
  | none, none, some h => 1 + cdiv h.bytes.length 64
  | none, none, none => 1

def arrivalSize (s : State) (a : Arrival) : Nat := 64 * (1 + arrivalFlits s a)

/-- The source that an entry names: a core, or the hub. -/
def arrivalSource (a : Arrival) : Nat := if isCore a.src then a.src else 0x3FFFF

/-- One entry of a core's log: kept for replay, and written to the log region; a strand packet's flits are
those of R39; the code of its class and kind and the bytes of other flits are the interface's own (log 17, DESIGN CHOICE). -/
def logEntry (core : Nat) (a : Arrival) (s : State) : State :=
  let m := moduleOf core
  let st := ctlGet s m (dbgOff core + 0x10)
  if bit (dbgCtl s core) 0 = false ∨ bit st 31 ∨ replaying s core then s
  else
    let old := (tget s.arrivals core).getD []
    let base := (tget (hubAt s m).ckpt (core % 1024)).getD 0
    let since := match tget s.images (imageKey core base) with | some k => k.cycle | none => 0
    let a : Arrival := { a with cycle := cycleOf s m - since }
    let lpa := ctlGet s m (dbgOff core + 8)
    let at_ := (old.map (arrivalSize s)).sum
    if lpa % 65536 * 65536 < at_ + arrivalSize s a then ctlPut m (dbgOff core + 0x10) (st + 2 ^ 31) s
    else
      let code := (Config.imageByte s.oracle 0).toNat % 64
      let head := leBytes 8 (a.cycle % 2 ^ 40 * 2 ^ 24 + arrivalSource a * 64 + code) ++ leBytes 8 (arrivalFlits s a) ++ leBytes 48 0
      let flits := match a.packet with
        | some p => packetBytes s (strandAt s p.sid) p.luggage
        | none => (List.range (64 * arrivalFlits s a)).map (fun i => Config.imageByte s.oracle (i + 1))
      let s := engineWrite (partitionOf s core 0) (bits lpa 55 16 * 65536 + at_) (head ++ flits) [] 0 { s with arrivals := tput s.arrivals core (old ++ [a]), oracle := s.oracle + 1 }
      ctlPut m (dbgOff core + 0x10) (base % 2 ^ 32 * 2 ^ 32 + (bits st 30 0 + 1)) s

/-- An entry for an event from a place, with nothing carried yet. -/
def entryOf (e : Instr) (src : Nat) : Arrival := ⟨0, e, src, none, none, none, none, none, none, 0, []⟩

/-- The entry of what an event brings from a place to a core. -/
def logArrival (core src : Nat) (e : Instr) (s : State) : State :=
  let pk := match e with | .strandArrival p => tget s.packets p | .evictionReturn p => tget s.packets p | .stoppedReturn p => tget s.packets p | _ => none
  let pc := match e with
    | .courierPickUp p => tget s.pieces p
    | .courierSetDown p => tget s.pieces p
    | .ringPieceArrival p => tget s.pieces p
    | .engineCompletionReport p => tget s.pieces p
    | _ => none
  let reg := match e with
    | .lateResultReturn _ id v => (match (strandAt s id).late.find? (fun l => decide (l.tag = v.tag)) with | some l => l.reg | none => 0)
    | _ => 0
  logEntry core { entryOf e src with strand := pk.map (fun p => strandAt s p.sid), packet := pk, piece := pc, op := pc.bind (fun p => tget s.ops p.op), reg := reg } s

/-! ### Orders from outside: N0 control, dispatch, host writes -/

/-- Cores of which a bit of dbg.ctl is set: 0 log, 1 replay. -/
def debugged (s : State) (b : Nat) : List Nat :=
  s.hubs.flatMap (fun h => h.2.ctl.filterMap (fun r =>
    if 0x270000 ≤ r.1 ∧ r.1 < 0x278000 ∧ r.1 % 32 = 0 ∧ bit r.2.toNat b then some (h.1 * 1024 + (r.1 - 0x270000) / 32) else none))

/-- A strand stands on a core or has its native slot there. -/
def strandOf (core : Nat) (x : Strand) : Bool := decide (x.native = core ∨ x.place = core)

/-- A core's own parts in t are as in s: it takes nothing from outside while it replays (R381). -/
def keepCore (core : Nat) (s t : State) : State :=
  let lo := sramBase core
  let hi := lo + 2 ^ 31
  let strands (a b : Tbl Strand) : Tbl Strand := (a.filter (fun e => strandOf core e.2)).foldl (fun t e => tput t e.1 e.2) (b.filter (fun e => !strandOf core e.2))
  { t with
    strands := strands s.strands t.strands, store := strands s.store t.store
    cores := (match tget s.cores core with | some c => tput t.cores core c | none => tdel t.cores core)
    blocks := (s.blocks.filter (fun b => b.2.core == core)).foldl (fun t b => tput t b.1 b.2) (t.blocks.filter (fun b => b.2.core != core))
    mem := t.mem.filter (fun c => decide (c.1 < lo)) ++ s.mem.filter (fun c => decide (lo ≤ c.1 ∧ c.1 < hi)) ++ t.mem.filter (fun c => decide (hi ≤ c.1))
    poison := t.poison.filter (fun g => decide (g < lo / 32)) ++ s.poison.filter (fun g => decide (lo / 32 ≤ g ∧ g < hi / 32)) ++ t.poison.filter (fun g => decide (hi / 32 ≤ g))
    empties := t.empties.filter (fun g => decide (g < lo / 8)) ++ s.empties.filter (fun g => decide (lo / 8 ≤ g ∧ g < hi / 8)) ++ t.empties.filter (fun g => decide (hi / 8 ≤ g)) }

/-- What a dispatcher's order has brought to a core from s to t: strands that have come to its slots, with their blocks. -/
def orderAt (core : Nat) (s t : State) : Order :=
  let new := t.strands.filter (fun e => decide (e.2.native = core) && (tget s.strands e.1).all (fun x => decide (x.block ≠ e.2.block)))
  let keys := (new.map (fun e => e.2.block)).eraseDups
  let ports := (coreAt t core).ports.filter (fun p => keys.contains p.block)
  let old := (coreAt s core).tiles
  ⟨new, t.blocks.filter (fun b => keys.contains b.1), ports, (coreAt t core).tiles.filter (fun e => decide (tget old e.1 ≠ some e.2)),
    ((ports.filter (fun p => !p.producer)).map (fun p => (p.hdr, memRead t.mem (sramBase core + p.hdr) 64)))⟩

/-- Strands of a core that an order has killed. -/
def killedAt (core : Nat) (s t : State) : List Nat :=
  (s.strands.filter (fun e => strandOf core e.2 && decide (e.2.run ≠ .idle) && (tget t.strands e.1).all (fun y => decide (y.run = .idle)))).map Prod.fst

/-- The step that a grid's removal has come to. -/
def removalOf (s : State) (g : Nat) : Option Nat := (tget s.grids g).bind Grid.removal

/-- The entries of what an event outside a core has done there: an order of its dispatcher, a removal's step, a barrier's release, a host
write, a kill. -/
def logControl (core : Nat) (e : Instr) (s t : State) : State :=
  let hub := hubOf (moduleOf core)
  match e with
  | .blockStart _ cl =>
    let o := orderAt core s t
    if clusterOf core ≠ cl ∨ o.strands.isEmpty then t else logEntry core { entryOf e hub with order := some o } t
  | .contextRemovalStepEnd g =>
    (match removalOf t g with
    | some k => if removalOf s g ≠ some k ∧ (tget t.grids g).any (fun q => inSet q core) then logEntry core { entryOf e hub with reg := k } t else t
    | none => t)
  | .barrierRelease id =>
    let ws := ((s.episodes.find? (fun e => e.id == id)).map Episode.waiting).getD []
    let here := ws.filter (fun w => let x := strandAt s (w / 2); decide (x.place = core ∧ x.park = some .barLevel) && !x.away)
    if here.isEmpty then t else logEntry core { entryOf e hub with members := here } t
  | .hostWriteAck m =>
    let q := (hubAt s m).hwq
    let done := (q.take (q.length - (hubAt t m).hwq.length)).filter (fun h => decide (h.home = core) && h.read.isNone)
    done.foldl (fun t h => logEntry core { entryOf e hub with write := some h } t) t
  | _ => (killedAt core s t).foldl (fun t i => logEntry core (entryOf (.strandKill i 0) hub) t) t

/-- What an event from outside the cores leaves of its work: a core that replays has taken nothing of it, one that logs has it logged. -/
def outside (e : Instr) (s t : State) : State :=
  let t := (debugged s 1).foldl (fun t c => keepCore c s t) t
  (debugged s 0).foldl (fun t c => logControl c e s t) t

/-- Events that bring orders to cores. -/
def bringsOrders (e : Instr) : Bool :=
  match e with
  | .blockStart .. => true
  | .contextRemovalStepEnd _ => true
  | .barrierRelease _ => true
  | .hostWriteAck _ => true
  | .killNotice _ => true
  | _ => false

/-- What a replaying core does to itself; everything it does outside is discarded. -/
def discardOutside (core : Nat) (s t : State) : State :=
  let lo := sramBase core
  let hi := lo + 2 ^ 31
  let inner (e : Instr) : Bool :=
    match e with
    | .symbolResolution .. => true
    | .parkWake _ => true
    | .meetingExpiry .. => true
    | .meetingPaired .. => true
    | .joinListService .. => true
    | .barWaitService .. => true
    | .vectorEntryComplete .. => true
    | .matrixCommandComplete _ => true
    | .rangeLockRelease .. => true
    | .strandKill .. => true
    | .lateResultReturn p _ _ => decide (p = core) && (arrivalAt t e).isNone
    | _ => false
  { s with
    strands := t.strands, fresh := t.fresh, oracle := t.oracle, ops := t.ops, pieces := t.pieces
    cores := (match tget t.cores core with | some c => tput s.cores core c | none => s.cores)
    mem := s.mem.filter (fun c => decide (c.1 < lo)) ++ t.mem.filter (fun c => decide (lo ≤ c.1 ∧ c.1 < hi)) ++ s.mem.filter (fun c => decide (hi ≤ c.1))
    poison := s.poison.filter (fun g => decide (g < lo / 32)) ++ t.poison.filter (fun g => decide (lo / 32 ≤ g ∧ g < hi / 32)) ++ s.poison.filter (fun g => decide (hi / 32 ≤ g))
    empties := s.empties.filter (fun g => decide (g < lo / 8)) ++ t.empties.filter (fun g => decide (lo / 8 ≤ g ∧ g < hi / 8)) ++ s.empties.filter (fun g => decide (hi / 8 ≤ g))
    agenda := t.agenda.filter (fun e => s.agenda.contains e || inner e.2) }

def mapNext (f : State → State) : Out → Out
  | .next t => .next (f t)
  | o => o

/-- An event happens. One that reaches a core which replays is not taken; one that a logging core takes is logged, unless it
only waits for another try. What orders do at such cores is looked at behind them. -/
def happen (e : Instr) (s : State) : Out :=
  match arrivalAt s e with
  | none => if bringsOrders e then mapNext (outside e s) (exec e s) else exec e s
  | some (core, src) =>
    if replaying s core then .next s
    else match exec e s with
      | .next t => if t.agenda.any (fun a => a.2 == e) && decide (arrivalAt t e = some (core, src)) then .next t else exec e (logArrival core src e s)
      | o => o

/-! ### What can happen by itself -/

/-- A parked strand's condition holds. -/
def dueWake (s : State) : Option Instr :=
  (s.strands.find? (fun e => e.2.park.isSome && decide (e.2.run = .live) && !e.2.away && parkHolds s e.1)).map (fun e => .parkWake e.1)

/-- A meeting read whose register is full (R73, R75). -/
def dueRead (s : State) : Option Instr :=
  s.cores.findSome? (fun c => c.2.reads.findSome? (fun r =>
    let y := strandAt s r.owner
    if isFull y r.reg then some (.lateResultReturn c.1 r.reader ⟨r.tag, regVal y r.reg, false, 0⟩)
    else none))

def dueBlock (s : State) : Option Instr :=
  match s.blocks.find? (fun b => suspendDue s b.1) with
  | some b => some (.preemptSuspend b.1)
  | none => (s.blocks.find? (fun b => blockDone s b.1)).map (fun b => .blockCompletion b.1)

def dueUnit (s : State) : Option Instr :=
  s.cores.findSome? (fun c =>
    if (mNext s c.1).isSome then some (.matrixCommandStart c.1)
    else (([1, 2, 3, 4].map (fun i => (c.2.vserved + i) % 4)).find? (vEligible s c.1)).map (fun sc => .vectorEntryAccept c.1 sc))

/-- A migration's next step, as the operation that runs. -/
def mgEvent (m : Nat) (g : MgOp) : Instr :=
  match g.op with
  | 1 => .mgMigrate m (g.src % 1024) (g.dst % 1024)
  | 2 => .mgCheckpoint m (g.src % 1024)
  | 3 => .mgCheckpointRemove m (g.src % 1024)
  | _ => .mgRestore m (g.src % 1024)

def dueHub (s : State) : Option Instr :=
  s.hubs.findSome? (fun h =>
    match (List.range 4).find? (fun q => decide (qst s h.1 q = 1) && quarterStill s h.1 q) with
    | some q => some (.quarterQuiesced h.1 q)
    | none =>
      match h.2.mg with
      | some g => if mgDue s h.1 then some (mgEvent h.1 g) else none
      | none => (h.2.heldNotices.find? (fun n => vfWord n.2 && q11Room s n.2)).map (fun n => .noticeReoffer n.1))

/-- A revoking window that can go a step further. -/
def dueWindow (s : State) : Option Instr :=
  s.hubs.findSome? (fun h =>
    h.2.ctl.findSome? (fun r =>
      if 0x120000 ≤ r.1 ∧ r.1 < 0x130000 ∧ r.1 % 16 = 0 ∧ r.2.toNat % 4 = 2 then
        let cl := h.1 * 256 + (r.1 - 0x120000) / 256
        let i := r.1 % 256 / 16
        if !(leavers s cl i).isEmpty || windowIdle s cl i then some (.windowRevokedAck cl i) else none
      else none))

def dueShot (s : State) : Option Instr := (s.tlbis.find? (fun t => shotReady s t.1)).map (fun t => .tlbiAck t.1)

/-- The next thing that can happen by itself. -/
def dueNow (s : State) : Option Instr :=
  (dueWake s).orElse (fun _ => (dueRead s).orElse (fun _ => (dueBlock s).orElse (fun _ => (dueUnit s).orElse (fun _ => (dueShot s).orElse (fun _ =>
    (dueHub s).orElse (fun _ => dueWindow s))))))

/-- A module's mailbox that can go on. -/
def duePump (s : State) : Option Nat := (s.hubs.find? (fun h => hostPumpDue s h.1)).map Prod.fst

/-! ### Issue (R27, R28, R332) -/

/-- A strand may issue now. -/
def canIssue (s : State) (x : Strand) : Bool :=
  decide (x.run = .live) && !x.away && x.park.isNone && x.flight.isNone && decide (x.readyAt ≤ s.now) && !(hubAt s (moduleOf x.place)).halted
    && (decide (x.kind ≠ .mc) || decide (s.now % 4 = 0))

/-- Priority class (R100). -/
def pclassOf (x : Strand) : Nat := bits x.status.toNat 9 8

/-- The first slot after the one that issued last, in cyclic order. -/
def cyclic (last : Nat) (l : List (Nat × Strand)) : Option (Nat × Strand) :=
  ([1, 2, 3, 4, 5, 6, 7, 8].map (fun i => (last + i) % 8)).findSome? (fun j => l.find? (fun e => decide (e.2.slot % 8 = j)))

/-- The strand that a scalar core issues: promoted ones first, then the highest class. -/
def pick (s : State) (place sc : Nat) : Option (Nat × Strand) :=
  let ready := s.strands.filter (fun e => decide (e.2.place = place ∧ e.2.slot / 8 = sc) && canIssue s e.2)
  let last := (scAt s place sc).lastSlot
  match ready.filter (fun e => e.2.promoted) with
  | [] => (List.range 4).findSome? (fun c => cyclic last (ready.filter (fun e => decide (pclassOf e.2 = c))))
  | l => cyclic last l

/-- Of candidates with their places and slots, the one at the lowest place and slot: scalar cores come in order (R46, R74, R175). -/
def lowest (l : List (Nat × Strand)) : Option (Nat × Strand) :=
  l.foldl (fun b e => match b with
    | none => some e
    | some f => if 32 * e.2.place + e.2.slot < 32 * f.2.place + f.2.slot then some e else some f) none

/-- The next strand to issue in this cycle: scalar cores in order, each once. -/
def nextIssue (s : State) : Option (Nat × Strand) :=
  (lowest (s.strands.filter (fun e => canIssue s e.2 && decide ((scAt s e.2.place (e.2.slot / 8)).issuedAt ≠ some s.now)))).bind
    (fun e => pick s e.2.place (e.2.slot / 8))

/-- The strands whose decoded instruction in flight has come to its stage. -/
def dueFlights (s : State) : List (Nat × Strand) :=
  s.strands.filter (fun e => match e.2.flight with | some f => f.decoded && decide (f.due ≤ s.now) | none => false)

/-- The next instruction that comes to its decode: scalar cores in order (R27, R46). -/
def nextDecode (s : State) : Option (Nat × Strand) :=
  lowest (s.strands.filter (fun e => match e.2.flight with | some f => !f.decoded && decide (f.due ≤ s.now) | none => false))

/-- The instruction acts in its memory stage now. -/
def inMemory (x : Strand) (f : Flight) : Bool := f.back.isNone && decide (f.due - f.issued = 6 * (interval x / 8))

/-- The word is a `meet`. -/
def isMeet (w : IWord) : Bool := match decode w with | .ok (.meet ..) => true | _ => false

/-- The next instruction in flight whose stage has come: `meet`s come first (R71), then commits and writebacks by slot (R74), then what
acts in the memory stage, by scalar core (R108, R175). -/
def nextFlight (s : State) : Option (Nat × Strand) :=
  let meet (e : Nat × Strand) : Bool := e.2.flight.any (fun f => f.word.any isMeet)
  let mem (e : Nat × Strand) : Bool := e.2.flight.any (inMemory e.2)
  let l := dueFlights s
  (lowest (l.filter meet)).orElse (fun _ => (lowest (l.filter (fun e => !mem e))).orElse (fun _ => lowest l))

/-- What comes before the instructions in flight of its cycle: a strand at its meeting core or a `meet` that is tried again (R71), and
a packet at the interface, whose place no eviction is still to free (R33). -/
def dueFirst (s : State) : Option (Nat × Instr) :=
  let leaving (p : Nat) : Bool := s.agenda.any (fun a => decide (a.1 ≤ s.now) && match a.2 with
    | .guestEviction j => decide ((strandAt s j).place = p)
    | _ => false)
  s.agenda.find? (fun a => decide (a.1 ≤ s.now) && match a.2 with
    | .parkWake i => decide ((strandAt s i).park = some .meet)
    | .strandArrival pk => (match tget s.packets pk with | some p => !leaving p.dest | none => false)
    | _ => false)

/-- An eviction or a kill on the core of strand x, of a lower slot: it comes before what x does (R74). -/
def dueLeave (s : State) (x : Strand) : Option (Nat × Instr) :=
  let below (j : Nat) : Bool := let y := strandAt s j; !y.away && decide (y.place = x.place ∧ y.slot < x.slot)
  s.agenda.find? (fun a => decide (a.1 ≤ s.now) && match a.2 with
    | .guestEviction j => below j
    | .strandKill j _ => below j
    | _ => false)

/-- The slot has issued: a `yield` on its scalar core waits for it no longer (R276). -/
def noteIssue (id : Nat) (x : Strand) (s : State) : State :=
  let s := modSc x.place (x.slot / 8) (fun k => { k with lastSlot := x.slot % 8, issuedAt := some s.now }) s
  let seen (y : Strand) : Strand :=
    match y.park with
    | some (.yield l) => if y.place = x.place ∧ y.slot / 8 = x.slot / 8 then { y with park := some (.yield (l.filter (· != x.slot))) } else y
    | _ => y
  let s : State := { s with strands := s.strands.map (fun e => (e.1, seen e.2)), cur := id }
  modMe (fun x => { x with lastIssue := s.now, promoted := false }) s

/-! ### Fetch (R41, R49, R136, R356) -/

/-- The word at the PC goes to f; a fetch that faults to bad; a translation that is not there parks the strand. -/
def withFetch (f : IWord → State → Out) (bad : State → Out) (s : State) : Out :=
  let x := s.me
  let read (pa : Nat) (s : State) : Out :=
    let r := fetchWord pa s
    f (BitVec.ofNat 32 r.1) (touch s.here x.asn x.pc.toNat r.2)
  let wait (s : State) : Out := .next (startFill s.here x.asn x.root x.pc.toNat s.cur (park (.translation x.pc.toNat) s))
  if x.pc.toNat % 4 ≠ 0 then bad s
  else match translate s x.pc false false true with
  | .fault _ => bad s
  | .hit pa _ _ =>
    (match space s pa with
    | .hole => bad s
    | .vault core _ => if vaultState s core = 1 then .next (park (.vaultBusy core) s) else read pa s
    | _ => read pa s)
  | .miss =>
    match x.walkFault with
    | some (_, v) =>
      let s := modMe (fun x => { x with walkFault := none }) s
      if v = x.pc then bad s else wait s
    | none => wait s

/-- A fetch fault; the first fetch of a handler makes it a double fault (R356). -/
def fetchFault (s : State) : Out :=
  let s : State := { s with dec := false }
  if s.me.inHandler then exec (.doubleFault s.cur) s else issueExec (.instructionFetchFault s.me.pc) 0 s

/-- The fetched word is decoded and executed (R49, R51). -/
def runWord (w : IWord) (s : State) : Out :=
  let s := modMe (fun x => { x with inHandler := false }) s
  match decode w with
  | .ok i => issueExec i w s
  | .error _ => issueExec (.illegalInstruction w) w s

/-- The stage, in cycles after issue, in which an instruction acts (R27 and the timing of its chapter): 0 for what acts at its
decode, 3 for a departure's commit (R62), 6 for an access in the memory stage, 7 for the others. -/
def stageOf (i : Instr) : Nat :=
  match i with
  | .bfull .. | .bempty .. | .symw .. | .yield .. => 0
  | .symq .. | .symtag .. => 1
  | .go .. | .gohome .. | .goa .. | .meet .. => 3
  | .ldB .. | .ldH .. | .ldW .. | .ldD .. | .ldBu .. | .ldHu .. | .ldWu .. | .ldBMx .. | .ldHMx .. | .ldWMx .. | .ldDMx .. | .ldBuMx ..
  | .ldHuMx .. | .ldWuMx .. | .stB .. | .stH .. | .stW .. | .stD .. | .stBMx .. | .stHMx .. | .stWMx .. | .stDMx .. => 6
  | .amoAdd .. | .amoSwap .. | .amoAnd .. | .amoOr .. | .amoXor .. | .amoMin .. | .amoMax .. | .amoMinu .. | .amoMaxu .. | .amoCas ..
  | .amoFaddS .. | .take .. | .peek .. | .fequery .. | .give .. | .fill .. | .femark .. | .feclear .. => 6
  | .watchEq .. | .watchNe .. | .watchLt .. | .watchGe .. | .watchLtu .. | .watchGeu .. | .discard .. | .prefetch .. | .flush .. => 6
  | .dqn .. | .tdef .. | .texp .. | .tready .. | .tdrain .. | .treset .. | .tstate .. | .twait .. | .recLd .. | .recSt .. | .get_ .. => 6
  | .join .. | .jend .. | .barArr .. | .barWait .. | .barInit .. | .ringInit .. | .ringTkt .. | .ringTake .. | .ringFree .. | .ringPut ..
  | .pipePut .. | .pipeTake .. | .pipeFree .. | .copy .. | .copyMc .. | .copyT .. | .reduce .. | .invl1 .. => 6
  | .vadd .. | .vsub .. | .vmul .. | .vfma .. | .vfms .. | .vfnma .. | .vmin .. | .vmax .. | .vcmpEq .. | .vcmpLt .. | .vcmpLe ..
  | .vsel .. | .vabs .. | .vneg .. | .vrcp .. | .vrsq .. | .vsqrt .. | .vexp2 .. | .vlog2 .. | .viadd .. | .visub .. | .vimul ..
  | .vimad .. | .vand .. | .vor .. | .vxor .. | .vshl .. | .vshr .. | .vsra .. | .vimin .. | .vimax .. | .vicmpEq .. | .vicmpLt ..
  | .vicmpLe .. | .vld .. | .vlds .. | .vldg .. | .vldt .. | .vst .. | .vsts .. | .vstg .. | .vstt .. | .vperm .. | .vrot .. | .vbcast ..
  | .vins .. | .vmov .. | .mand .. | .mor .. | .mnot .. | .vcvt .. | .vpack .. | .vunpack .. | .vqblk .. | .vscl .. | .vredsum .. | .vredmax ..
  | .vredmin .. | .vext .. | .mpop .. => 6
  | .mma .. | .mmaT .. | .mmas .. | .accZero .. | .accRd .. | .accWr .. | .loftLd .. => 6
  | _ => 7

/-- Instructions that have no operand to look at in their decode: they go into flight as they are. -/
def noOperands (i : Instr) : Bool :=
  match i with
  | .gohome .. | .part_ .. | .exit .. | .eret .. | .halt .. | .invl1 .. | .fenceAcq .. | .fenceRel .. | .fenceFull .. | .fenceEng ..
  | .barCore .. | .barCluster .. | .barTower .. | .barModule .. | .barPod .. => true
  | _ => false

/-- An instruction whose decode let it go acts in its stage; the strand has it, with its word, in flight until its next issue
can come. -/
def land (i : Instr) (w : IWord) (s t : State) : State :=
  let t : State := { t with dec := false }
  match t.me.flight with
  | none => t
  | some f =>
    let n := interval t.me
    modMe (fun x => { x with flight := some { f with due := s.now + stageOf i * (n / 8), word := some w }, readyAt := s.now + n }) t

/-- Waits that the spec places at decode: departures (R55, R271), sr.fcsr and a fold's operands (R111, R193), vector memory (R181), names
and entries of the queues (R191, R194, R229, R253), tiles (R164, R259), a pair's queues and its travel (R375, R376, R378). -/
def waitsAtDecode (p : Park) : Bool :=
  match p with
  | .regs _ | .depart | .fcsr | .vmem | .vqueue | .vnames _ _ | .mqueue | .copyq | .tileReady _ | .tileFilled _ => true
  | .pairRoom _ | .pairValue | .pairTravel | .pairEffect => true
  | _ => false

/-- An instruction that turns s into t is annulled by such a wait. -/
def annulledAt (s t : State) : Bool :=
  decide (t.me.pc = s.me.pc) && (match t.me.park with | some p => waitsAtDecode p | none => false)

/-- A travel that would leave from s finds its luggage's range locked, which its decode looks at (R36, R64). -/
def luggageStops (i : Instr) (s : State) : Bool :=
  decide (stageOf i = 3) && (match s.me.lug with | some (o, n) => isCore s.here && lockedAt s s.here o n | none => false) &&
    (match exec i (modMe (fun x => { x with lug := none }) s) with | .next t => t.me.away | _ => false)

/-- A word that fails in steps 1 to 4 of R51 traps the trailing strand at its decode. -/
def trapsEarly (s t : State) : Bool := s.me.partner.isSome && trapped s.me t.me && earlyCause t.me.cause.toNat

/-- The decode of an issued word: what acts there acts at once, what waits or is stopped there is annulled, everything else goes on
in flight (R27, R51). What a pair's trailing strand takes from the queues needs no operand of its own (R375). -/
def decodeWord (w : IWord) (s : State) : Out :=
  let whole : State := { s with dec := false }
  match decode w with
  | .error _ => runWord w whole
  | .ok i =>
    if stageOf i = 0 then runWord w whole
    else
      let ready (s : State) : State := modMe (fun x => { x with inHandler := false }) s
      let bare : Bool := noOperands i || (s.me.partner.isSome && trailS s.me)
      let go : Out := if bare then .next (land i w s (takeOff [] [] (ready whole))) else mapNext (land i w s) (exec i (ready s))
      match runWord w whole with
      | .next t =>
        if annulledAt s t || luggageStops i (ready whole) || trapsEarly s t then .next t
        else (match go with
          | .next u => if s.me.partner.isSome ∧ u.me.flight = none then .next t else .next u
          | o => o)
      | _ => go

/-- A strand issues and fetches its word, which comes to its decode in the next cycle (R27). -/
def issue (id : Nat) (x : Strand) (s : State) : Out :=
  let s1 := noteIssue id x s
  let fly (w : IWord) (s : State) : Out :=
    .next (modMe (fun x => { x with flight := some ⟨s.now, s.now + interval x / 8, [], [], some w, false, [], none⟩ }) s)
  let r := mapNext (fun t => { t with dec := false }) (withFetch fly fetchFault { s1 with dec := true })
  if replaying s x.place then mapNext (discardOutside x.place s1) r else r

/-- The instruction of strand id comes to its decode: what that does counts its cycles from the issue (R9). -/
def decodeStep (id : Nat) (x : Strand) (s : State) : Out :=
  let s1 := modMe (fun x => { x with flight := none }) { s with cur := id }
  if x.run ≠ .live ∨ x.away ∨ x.park.isSome then .next s1
  else
    let at_ := match x.flight with | some f => f.issued | none => s.now
    match x.flight.bind Flight.word with
    | none => .next s1
    | some w =>
      let r := mapNext (fun t => { t with now := s.now, dec := false, lag := 0 }) (decodeWord w { s1 with now := at_, dec := true, lag := s.now - at_ })
      if replaying s x.place then mapNext (discardOutside x.place s1) r else r

/-- The register that an instruction writes (R52). -/
def destOf (i : Instr) : Option Nat :=
  match pairClass i with
  | .value d => some d
  | .both d => some d
  | .sync => none
  | _ => some (scalarDst (wordOf i).toNat)

/-- The strand with registers at these values, their states as they are. -/
def withValues (l : List (Nat × Word)) (x : Strand) : Strand := l.foldl (fun x e => { x with regs := vset x.regs e.1 e.2 }) x

/-- After an instruction of x: a register that the partner has written meanwhile has its new value, unless the instruction writes it. -/
def reseen (f : Flight) (x : Strand) (id : Nat) (t : State) : State :=
  let d := match f.word.map decode with | some (.ok i) => destOf i | _ => none
  modIf id (withValues ((f.seen.filter (fun e => decide (d ≠ some e.1))).map (fun e => (e.1, vget x.regs e.1 0)))) t

/-- The instruction of x has retired in y. -/
def retired (x y : Strand) : Bool :=
  decide (y.pc ≠ x.pc ∧ y.run = .live) && !y.away && !(y.inHandler && !x.inHandler)
    && (match y.park with | none => true | some .kbit => true | some (.acq _ _) => true | _ => false)

/-- The words of the port that port code c pushes to, as the strand that acts sees it. -/
def pushed (c : Nat) (s : State) : List Word :=
  match portBind s (c - 16) with
  | some b => (match (coreAt s b.core).ports.find? (isPeer b) with | some p => p.words | none => [])
  | none => []

/-- The port without the word pushed last. -/
def unpush (c : Nat) (s : State) : State :=
  match portBind s (c - 16) with
  | some b => modCore b.core (fun k => { k with ports := lmod (isPeer b) (fun p => { p with words := p.words.dropLast }) k.ports }) s
  | none => s

/-- An instruction that has acted in its memory stage, from s to t, leaves its registers, its PC and a push to its writeback in the
next stage (R27, R46, R52). A result that is still to come has its register marked already (R108). -/
def defer (id : Nat) (x : Strand) (f : Flight) (s t : State) : State :=
  let y := strandAt t id
  if retired x y = false then t
  else
    let done (r : Nat) : Bool := decide (regSt y r = .full ∨ regSt y r = .empty) && decide (regSt y r ≠ regSt x r ∨ regVal y r ≠ regVal x r)
    let rs := (List.range 16).filter done
    let back (z : Strand) : Strand := rs.foldl (fun z r => { z with regs := vset z.regs r (vget x.regs r 0), rst := vset z.rst r (vget x.rst r .full) }) z
    let code := match f.word.map decode with | some (.ok (.get_ _ d _)) => d.toNat | _ => 0
    let push : Bool := decide (16 ≤ code ∧ (pushed code s).length < (pushed code t).length)
    let b : WriteBack := ⟨rs.map (fun r => (r, regSt y r, regVal y r)), if push then ((pushed code t).getLast?.map (fun v => (code, v))) else none, y.pc, y.park⟩
    modStrand id (fun y => { back y with
      pc := x.pc, park := none, flight := some { f with due := f.issued + 7 * (interval x / 8), seen := [], back := some b } })
      (if push then unpush code t else t)

/-- The writeback of what an instruction left for it. -/
def landBack (b : WriteBack) (s : State) : State :=
  let s := modMe (fun x => { b.regs.foldl (fun x e => if e.1 = 0 then x else { x with regs := vset x.regs e.1 e.2.2, rst := vset x.rst e.1 e.2.1 }) x with pc := b.pc }) s
  let s := match b.port with | some (c, v) => pushPort c v s | none => s
  modMe (fun x => { x with park := if b.park = some .kbit ∧ settled s s.cur then none else b.park }) s

/-- The instruction of strand id acts: what it does counts its cycles from its issue (R9). It computes with what it has read. -/
def act (id : Nat) (x : Strand) (s : State) : Out :=
  let s1 := modMe (fun x => { x with flight := none }) { s with cur := id }
  match x.flight with
  | none => .next s1
  | some f =>
    if x.run ≠ .live ∨ x.away ∨ x.park.isSome then .next s1
    else match f.back with
    | some b => .next (landBack b s1)
    | none =>
      let s2 : State := { modMe (withValues f.seen) s1 with now := f.issued, lag := s.now - f.issued }
      let run : Out := match f.word with
        | some w => runWord w s2
        | none => withFetch runWord fetchFault s2
      let r := mapNext (fun t =>
        let t : State := reseen f x id { t with now := s.now, lag := 0 }
        if inMemory x f then defer id { x with flight := none } f s1 t else t) run
      let r := if x.kind = .core then r else mapNext (outside (.parkWake id) s1) r
      if replaying s x.place then mapNext (discardOutside x.place s1) r else r

/-! ### Time -/

/-- A ready strand that has not issued for 256 cycles (R332). -/
def duePromotion (s : State) : Option Instr :=
  (s.strands.find? (fun e => canIssue s e.2 && !e.2.promoted && decide (256 ≤ s.now - e.2.lastIssue))).map (fun e => .strandPromotion e.1)

/-- The granule is one of a home's storage (R16). -/
def storedGranule (s : State) (g : Nat) : Bool :=
  match space s (32 * g) with
  | .hole => false
  | .win .. => false
  | _ => decide (g < 2 ^ 52)

/-- The leaves of a table and of the tables below it, with the bits of their pages (R132, R133). -/
def leavesOf (s : State) : Nat → Nat → List (Nat × Nat)
  | 0, _ => []
  | l + 1, t => (List.range 1024).flatMap (fun i =>
      match walkEntry (l + 1) (leNat (sliceRead s (t + 8 * i) 8)) with
      | .leaf e n => [(e, n)]
      | .table a => leavesOf s l a
      | .bad => [])

/-- The owner that the entry of the page names which holds an address, in the tables of the strands and grids (R133). -/
def pageOwner (s : State) (pa : Nat) : Option Nat :=
  let roots := ((s.strands ++ s.store).map (fun e => e.2.root) ++ s.grids.map (fun g => g.2.root)).eraseDups
  ((roots.flatMap (leavesOf s 4)).find? (fun l => decide (bits l.1 55 0 / 2 ^ l.2 = pa / 2 ^ l.2))).map (fun l => bits l.1 63 60)

/-- An uncorrectable error that a home detects in this cycle, if any: its granule is poisoned, and the error is reported to the
owner of the granule's page, and to the landlord; where no page holds it, to the owner of its quarter (R187, R350; log 62, DESIGN CHOICE). -/
def strike (s : State) : State :=
  match Config.strike s.now with
  | none => s
  | some g =>
    if storedGranule s g = false then s
    else
      let home := homeOf (32 * g)
      let m := moduleOf home
      let p := partitionOf s home (32 * g % 2 ^ 26 / 2 ^ 24)
      let owner := (pageOwner s (32 * g)).getD (bits (ctlGet s m 0x100000) (16 * p + 7) (16 * p + 4))
      ownerReport m owner (mcLog m logStrike 8 owner home (w64 (32 * g)) (setPoison g s))

/-- The next cycle; every 65,536 cycles of a module, of which a pod has up to 256, its sensors are sampled (R22, R394). -/
def tick (s : State) : State :=
  let s := strike { s with now := s.now + 1 }
  (List.range 256).foldl (fun s m => if cycleOf s m % 65536 = 0 then sched 0 (.sensorSample m) s else s) s

/-! ### A placed instruction -/

/-- The word is one that only a Caller may run. -/
def forCaller (w : IWord) : Bool :=
  match decode w with
  | .ok (.tlbi ..) => true
  | .ok (.kill ..) => true
  | .ok (.sget ..) => true
  | .ok (.sset ..) => true
  | .ok (.halt ..) => true
  | _ => decide (bits w.toNat 6 1 = 0x1E)

/-- The code page of a placed word: 64 KiB at VA and PA 0x10000, readable, writable, fetchable, of owner 0. -/
def placedPte : Word := 0x10039

/-- The machine with one strand, at the placed word, and nothing else that could happen first. -/
def placeWord (s : State) (nbits w : Nat) : State :=
  let word : IWord := BitVec.ofNat 32 (w % 2 ^ nbits)
  let place := if forCaller word then hubOf 0 else 0
  let x : Strand := { Strand.reset with
    kind := (if forCaller word then .caller else .core), native := place, place := place, run := .live, pc := 0x10000, asn := 1,
    flight := some ⟨s.now, s.now, [], [], none, true, [], none⟩ }
  let s : State := { s with
    agenda := [], blocks := [], tlbis := [], hubs := [], images := [], stores := [], slices := [], frames := [], strands := [(32 * place, x)]
    cores := [(place, { Core.reset with tlb := [⟨1, 1, 16, placedPte⟩] })] }
  pokeBytes 0x10000 (leBytes 4 word.toNat) s

/-- One step of the machine. In each cycle the decodes come first, which see the state as the cycle finds it (R88, R113, R114); then
what comes to a core's interface and its meeting table, the instructions in flight whose stage has come, the events that are due, what
follows from them, and the issues. -/
def stepOnce (s : State) : Out :=
  match nextDecode s with
  | some (id, x) => decodeStep id x s
  | none =>
    match dueFirst s with
    | some a => happen a.2 { s with agenda := s.agenda.erase a }
    | none =>
      match nextFlight s with
      | some (id, x) =>
        (match dueLeave s x with
        | some a => happen a.2 { s with agenda := s.agenda.erase a }
        | none => act id x s)
      | none =>
        match s.agenda with
        | (t, e) :: rest => if t ≤ s.now then happen e { s with agenda := rest } else restOf s
        | [] => restOf s
where
  restOf (s : State) : Out :=
    match dueNow s with
    | some e => exec e s
    | none =>
      match duePump s with
      | some m => .next (hostPump m s)
      | none =>
        match nextIssue s with
        | some (id, x) => issue id x s
        | none =>
          match duePromotion s with
          | some e => exec e s
          | none => .next (tick s)

end

end Sys2Proof.Machine
end

