-- ==== Sys2Proof/Machine/Step.lean ====
section
/-! DEFINITION. One step, and the state in which the next step fetches a given instruction. -/

namespace Sys2Proof.Machine

open Sys2Proof

noncomputable section

/-- One step of the pod. -/
def step (s : State) : Out := stepOnce s

/-- The strand that runs a placed instruction first: in slot 0 of core 0, or of the Caller's first scalar core where only a
Caller may run the word; its code page is the first 64 KiB of core 0's vault, mapped at VA 0x10000 (log 1, DESIGN CHOICE). -/
def State.withFetchWord (s : State) (nbits w : Nat) : State := placeWord s nbits w

end

end Sys2Proof.Machine
end

