-- ==== Sys2Proof/Safety.lean ====
section
/-! DEFINITION. What a safe state is, and the conditions and frames in which the statements speak: conditions on the state
and the operands alone, and what a step leaves as it was. -/

namespace Sys2Proof.Machine

open Sys2Proof

noncomputable section

/-- The memory holds each byte once: addresses rise strictly and no listed byte is zero. -/
def State.Inv (s : State) : Prop := Memory.wf s.mem = true

end

end Sys2Proof.Machine

namespace Sys2Proof.Claims

open Sys2Proof Sys2Proof.Machine

noncomputable section

/-- Steps 4 and 5 of R51 find nothing: no port is misused (R46), every source is full or can be popped, the destination can
be written or awaits nothing, and, for an instruction with a late result, fewer than eight are outstanding (R29, R30). The
instruction is not at its decode, where it would only go into flight, but in the stage in which it acts (R27). -/
def Decodes (ports : Bool) (srcs dsts : List (BitVec 5)) (late : Bool) (s : State) : Prop :=
  misuse ports (srcs.map BitVec.toNat) (dsts.map BitVec.toNat) s = none ∧
    decodePark (srcs.map BitVec.toNat) (dsts.map BitVec.toNat) late s = none ∧ s.dec = false

/-- A scalar access through record n at an offset passes its record and bounds (R52, R139), its translation is cached and
permits it (R134), and its home is where the strand stands (R65), which is a Caller's own part of the hub SRAM (R334). -/
def Reaches (s : State) (n : Nat) (off : Word) (size : Nat) (r w : Bool) (va : Word) (pa pol : Nat) (win : Bool) : Prop :=
  s.me.vmems = 0 ∧ s.me.carried = none ∧ recLoading s n = false ∧ ea s n off size = .ok (some va) ∧
    translate s va r w false = .hit pa pol win ∧ homeOf pa = s.me.place ∧
    hubBarred s s.me pa = false

/-- An access without release, or one whose release has nothing to wait for; off its native core the report that its counts are zero has
come (R147, R158). -/
def Released (s : State) (o : Nat) : Prop :=
  o < 2 ∨ (fenceHolds s s.cur 1 0 = true ∧ (isNative s.me = true ∨ s.me.released = true))

/-- The address space and the range locks permit the access (R148, R167). -/
def Permitted (s : State) (pa size : Nat) (a : Acc) : Prop := checkSpace s pa size a = none ∧ locked s pa size = false

/-- The PA names bytes of an SRAM: scratchpad, loft, accumulator, hub SRAM or the MC's private SRAM (R123, R393). -/
def InSram (s : State) (pa : Nat) : Prop :=
  match space s pa with
  | .pad _ _ | .loft _ _ | .acc _ _ | .hub _ _ | .mc _ => True
  | _ => False

/-- The state with the translation that the access hit made the most recently used (R135). -/
def used (s : State) (va : Word) : State := touch s.here s.me.asn va.toNat s

/-- The number that n bytes from address a give, lowest first (R2). -/
def le (s : State) (a : Nat) : Nat → Nat
  | 0 => 0
  | n + 1 => (memGet s.mem a).toNat + 256 * le s (a + 1) n

/-- The registers outside a list, the special registers and every other strand are as before. -/
def Kept (s t : State) (regs : List Nat) : Prop :=
  t.cur = s.cur ∧ (∀ r, r ∉ regs → regVal t.me r = regVal s.me r ∧ regSt t.me r = regSt s.me r) ∧
    t.me.status = s.me.status ∧ t.me.cause = s.me.cause ∧ t.me.epc = s.me.epc ∧ t.me.tval = s.me.tval ∧
    t.me.wtimeout = s.me.wtimeout ∧ t.me.place = s.me.place ∧ t.me.slot = s.me.slot ∧
    ∀ id, id ≠ s.cur → tget t.strands id = tget s.strands id

/-- Every byte of memory reads as before. -/
def SameMemory (s t : State) : Prop := ∀ a, memGet t.mem a = memGet s.mem a

/-- Every byte of memory outside [a, a + n) reads as before. -/
def SameOutside (s t : State) (a n : Nat) : Prop := ∀ j, j < a ∨ a + n ≤ j → memGet t.mem j = memGet s.mem j

/-- Bytes a to a + n − 1 hold a word, lowest byte first. -/
def Holds (t : State) (a n : Nat) (v : Word) : Prop := ∀ i, i < n → memGet t.mem (a + i) = v.extractLsb' (8 * i) 8

/-- No one waits on a full/empty word, as a reader or as a writer (R153). -/
def NoWaiters (s : State) (word : Nat) : Prop := ∀ w ∈ (coreAt s s.me.place).fe, w.word ≠ word

end

end Sys2Proof.Claims
end

