-- ==== Sys2Proof/Certificates/Slice0/Obligations.lean ====
section
/-! DEFINITION. The statements for the provers. The names under Sys2Proof.Claims are their vocabulary: conditions on the
state and operands alone, and the tables of results as the rules of spec/ give them. -/

namespace Sys2Proof.Claims

open Sys2Proof Sys2Proof.Machine

noncomputable section

/-! ### Integer results (R83 to R85), from the table's words -/

/-- signed(x) >> n with copies of the sign shifted in: the quotient by 2^n rounded down. -/
def sar (x : Word) (n : Nat) : Word := BitVec.ofInt 64 (x.toInt / (2 ^ n : Nat))

/-- How many of the bits that f lists, from the first, are zero. -/
def zeros (f : Nat → Bool) : Nat → Nat
  | 0 => 0
  | n + 1 => if f 0 then 0 else 1 + zeros (fun i => f (i + 1)) n

/-- sext(x, n): the value of the low n bits as a signed number. -/
def sx (x : Word) (n : Nat) : Word :=
  BitVec.ofInt 64 (if x.toNat % 2 ^ n < 2 ^ (n - 1) then ((x.toNat % 2 ^ n : Nat) : Int) else (x.toNat % 2 ^ n : Nat) - (2 ^ n : Nat))

/-- The OP instructions with two sources and their results, by R83. -/
def twoSource : List ((BitVec 5 → BitVec 5 → BitVec 5 → BitVec 1 → Instr) × (Word → Word → Word)) :=
  [(.add_, fun a b => BitVec.ofNat 64 (a.toNat + b.toNat)),
   (.sub_, fun a b => BitVec.ofInt 64 (a.toInt - b.toInt)),
   (.and_, fun a b => a &&& b), (.or_, fun a b => a ||| b), (.xor_, fun a b => a ^^^ b),
   (.sll, fun a b => BitVec.ofNat 64 (a.toNat * 2 ^ (b.toNat % 64))),
   (.srl, fun a b => BitVec.ofNat 64 (a.toNat / 2 ^ (b.toNat % 64))),
   (.sra, fun a b => sar a (b.toNat % 64)),
   (.slt, fun a b => if a.toInt < b.toInt then 1 else 0),
   (.sltu, fun a b => if a.toNat < b.toNat then 1 else 0),
   (.min_, fun a b => if a.toInt ≤ b.toInt then a else b),
   (.max_, fun a b => if a.toInt ≤ b.toInt then b else a),
   (.minu, fun a b => if a.toNat ≤ b.toNat then a else b),
   (.maxu, fun a b => if a.toNat ≤ b.toNat then b else a),
   (.mul_, fun a b => BitVec.ofNat 64 (a.toNat * b.toNat)),
   (.mulh, fun a b => BitVec.ofInt 64 (a.toInt * b.toInt / (2 ^ 64 : Nat))),
   (.mulhu, fun a b => BitVec.ofNat 64 (a.toNat * b.toNat / 2 ^ 64)),
   (.div_, fun a b => if b = 0 then 0xFFFFFFFFFFFFFFFF else BitVec.ofInt 64 (a.toInt.tdiv b.toInt)),
   (.divu, fun a b => if b = 0 then 0xFFFFFFFFFFFFFFFF else BitVec.ofNat 64 (a.toNat / b.toNat)),
   (.rem_, fun a b => if b = 0 then a else BitVec.ofInt 64 (a.toInt - b.toInt * a.toInt.tdiv b.toInt)),
   (.remu, fun a b => if b = 0 then a else BitVec.ofNat 64 (a.toNat - b.toNat * (a.toNat / b.toNat)))]

/-- The OP instructions with one source (R83). -/
def oneSource : List ((BitVec 5 → BitVec 5 → BitVec 1 → Instr) × (Word → Word)) :=
  [(.clz, fun a => BitVec.ofNat 64 (zeros (fun i => a.getLsbD (63 - i)) 64)),
   (.ctz, fun a => BitVec.ofNat 64 (zeros (fun i => a.getLsbD i) 64)),
   (.popc, fun a => BitVec.ofNat 64 (((List.range 64).map (fun i => b2n (a.getLsbD i))).sum)),
   (.sextB, fun a => sx a 8), (.sextH, fun a => sx a 16), (.sextW, fun a => sx a 32),
   (.zextB, fun a => a &&& 0xFF), (.zextH, fun a => a &&& 0xFFFF), (.zextW, fun a => a &&& 0xFFFFFFFF)]

/-- The OPI instructions with a 12-bit immediate b := sext(imm12, 12) (R84). -/
def withImmediate : List ((BitVec 12 → BitVec 5 → BitVec 5 → BitVec 1 → Instr) × (Word → Word → Word)) :=
  [(.addi, fun a b => a + b), (.slti, fun a b => if a.toInt < b.toInt then 1 else 0),
   (.sltiu, fun a b => if a.toNat < b.toNat then 1 else 0), (.xori, fun a b => a ^^^ b), (.ori, fun a b => a ||| b),
   (.andi, fun a b => a &&& b)]

/-- The immediate shifts (R84). -/
def withShift : List ((BitVec 6 → BitVec 5 → BitVec 5 → BitVec 1 → Instr) × (Word → Nat → Word)) :=
  [(.slli, fun a n => BitVec.ofNat 64 (a.toNat * 2 ^ n)), (.srli, fun a n => BitVec.ofNat 64 (a.toNat / 2 ^ n)),
   (.srai, fun a n => sar a n)]

/-- The comparing branches (R87). -/
def branches : List ((BitVec 12 → BitVec 5 → BitVec 5 → BitVec 1 → Instr) × (Word → Word → Bool)) :=
  [(.beq, fun a b => decide (a.toNat = b.toNat)), (.bne, fun a b => decide (a.toNat ≠ b.toNat)),
   (.blt, fun a b => decide (a.toInt < b.toInt)), (.bge, fun a b => decide (a.toInt ≥ b.toInt)),
   (.bltu, fun a b => decide (a.toNat < b.toNat)), (.bgeu, fun a b => decide (a.toNat ≥ b.toNat))]

end

end Sys2Proof.Claims

/-! ### Scalar instructions -/

open Sys2Proof Sys2Proof.Machine Sys2Proof.Claims

/-- R83: the integer instructions with two sources write their result and go on. Both sources are read first, then the
destination is written, so that a port named twice is popped twice (R81). -/
def Sys2Proof.Claims.IntegerTwoSource : Prop :=
  ∀ op f, (op, f) ∈ twoSource → ∀ (b a d : BitVec 5) (k : BitVec 1) (s : State), Decodes true [a, b] [d] false s →
    exec (op b a d k) s =
      .next (retire k (wrOp d (f (rdOp a s).1 (rdOp b (rdOp a s).2).1) (rdOp b (rdOp a s).2).2))

/-- R83: the one-source forms read rs1 only. -/
def Sys2Proof.Claims.IntegerOneSource : Prop :=
  ∀ op f, (op, f) ∈ oneSource → ∀ (a d : BitVec 5) (k : BitVec 1) (s : State), Decodes true [a] [d] false s →
    exec (op a d k) s = .next (retire k (wrOp d (f (rdOp a s).1) (rdOp a s).2))

/-- R84 and R85: the immediate forms, lui and auipc. -/
def Sys2Proof.Claims.IntegerImmediate : Prop :=
  (∀ op f, (op, f) ∈ withImmediate → ∀ (i : BitVec 12) (a d : BitVec 5) (k : BitVec 1) (s : State),
    Decodes true [a] [d] false s →
    exec (op i a d k) s = .next (retire k (wrOp d (f (rdOp a s).1 (i.signExtend 64)) (rdOp a s).2))) ∧
  (∀ op f, (op, f) ∈ withShift → ∀ (h : BitVec 6) (a d : BitVec 5) (k : BitVec 1) (s : State),
    Decodes true [a] [d] false s →
    exec (op h a d k) s = .next (retire k (wrOp d (f (rdOp a s).1 h.toNat) (rdOp a s).2))) ∧
  (∀ (i : BitVec 20) (d : BitVec 5) (k : BitVec 1) (s : State), Decodes true [] [d] false s →
    exec (.lui i d k) s = .next (retire k (wrOp d (sx (BitVec.ofNat 64 (i.toNat * 4096)) 32) s)) ∧
    exec (.auipc i d k) s =
      .next (retire k (wrOp d (s.me.pc + sx (BitVec.ofNat 64 (i.toNat * 4096)) 32) s)))

/-- R81, R83, R84, R85: the integer instructions with two sources, with one, and with an immediate. -/
def Obligations.IntegerArithmetic : Prop :=
  Claims.IntegerTwoSource ∧ Claims.IntegerOneSource ∧ Claims.IntegerImmediate

/-- R87, R89, R90: where branches and jumps go and what they write. -/
def Sys2Proof.Claims.BranchesAndJumps : Prop :=
  (∀ op c, (op, c) ∈ branches → ∀ (o : BitVec 12) (b a : BitVec 5) (k : BitVec 1) (s : State),
    Decodes true [a, b] [] false s →
    exec (op o b a k) s =
      .next (retireAt (if c (rdOp a s).1 (rdOp b (rdOp a s).2).1 then s.me.pc + o.signExtend 64 * 4 else s.me.pc + 4) k
        (rdOp b (rdOp a s).2).2)) ∧
  (∀ (i : BitVec 20) (d : BitVec 5) (k : BitVec 1) (s : State), Decodes true [] [d] false s →
    exec (.jal i d k) s = .next (retireAt (s.me.pc + i.signExtend 64 * 4) k (wrOp d (s.me.pc + 4) s))) ∧
  (∀ (i : BitVec 12) (a d : BitVec 5) (k : BitVec 1) (s : State), Decodes true [a] [d] false s →
    exec (.jalr i a d k) s =
      .next (if ((rdOp a s).1 + i.signExtend 64).toNat % 4 = 0
        then retireAt ((rdOp a s).1 + i.signExtend 64) k (wrOp d (s.me.pc + 4) (rdOp a s).2)
        else raise 3 ((rdOp a s).1 + i.signExtend 64) s))

/-- R88: bfull and bempty on s registers test without parking; s0 is always full. -/
def Sys2Proof.Claims.RegisterTests : Prop :=
  ∀ (o : BitVec 12) (a : BitVec 5) (k : BitVec 1) (s : State), a.toNat < 16 →
    (exec (.bfull o a k) s = .next (retireAt (if regSt s.me a.toNat = .full then s.me.pc + o.signExtend 64 * 4 else s.me.pc + 4) k s)) ∧
    (exec (.bempty o a k) s = .next (retireAt (if regSt s.me a.toNat = .full then s.me.pc + 4 else s.me.pc + o.signExtend 64 * 4) k s))

/-- R87 to R90: branches, jumps, and the tests of a register's state.
Model's reading, not the spec's: log 65 (DESIGN CHOICE). -/
def Obligations.BranchesAndTests : Prop :=
  Claims.BranchesAndJumps ∧ Claims.RegisterTests

/-! ### Scalar floating point -/

namespace Sys2Proof.Claims

noncomputable section

/-- The format of a FOP instruction by its format bit: binary32 or binary64 (R91). -/
def fpFormat (f : BitVec 1) : Nat := if f = 1 then 12 else 5

/-- A `.s` operand is bits [31:0] of its register; a `.d` operand all 64 (R92). -/
def fpOperand (f : BitVec 1) (v : Word) : Nat := if f = 1 then v.toNat else (v &&& 0xFFFFFFFF).toNat

/-- fin (R93): the operand's value, subnormals read as zero under sr.fcsr.ftz. -/
def fpIn (f : BitVec 1) (s : State) (v : Word) : FVal := fdec (fpFormat f) (s.me.fcsr.getLsbD 7) (fpOperand f v)

/-- The mode: f3, or sr.fcsr.rm where f3 is 111 (R92). -/
def fpMode (rm : BitVec 3) (s : State) : BitVec 2 := if rm = 7 then s.me.fcsr.extractLsb' 5 2 else rm.extractLsb' 0 2

/-- fout of an exact result, rounded once, with the flags of the operation and of the rounding (R93). -/
def fpOut (f : BitVec 1) (m : BitVec 2) (s : State) (r : FVal × FFlags) : Word × FFlags :=
  let v := fround (fpFormat f) m false (s.me.fcsr.getLsbD 7) r.1
  (BitVec.ofNat 64 v.1, v.2 ||| r.2)

/-- A result written, its flags accrued, the instruction retired: in this order (R92, R93). -/
def fpDone (k : BitVec 1) (d : BitVec 5) (r : Word × FFlags) (s : State) : State := retire k (accrue r.2 (wrOp d r.1 s))

/-- The FOP instructions with two sources and their exact operations (R93). -/
def fpTwo : List ((BitVec 1 → BitVec 5 → BitVec 5 → BitVec 3 → BitVec 5 → BitVec 1 → Instr) ×
    (BitVec 2 → FVal → FVal → FVal × FFlags)) :=
  [(.fadd, fadd2), (.fsub, fun m x y => fadd2 m x y.negate), (.fmul, fun _ => fmul2), (.fdiv, fun _ => fdiv2)]

/-- The comparisons: the relation that holds, from the order of the two values (R94). -/
def fpRelations : List ((BitVec 1 → BitVec 5 → BitVec 5 → BitVec 5 → BitVec 1 → Instr) × (Ordering → Bool) × Bool) :=
  [(.feq, (fun o => o == .eq), false), (.flt, (fun o => o == .lt), true), (.fle, (fun o => o != .gt), true)]

/-- The bit of `fclass` for a pattern (R95), from its sign, exponent and fraction fields. -/
def classBit (f : BitVec 1) (v : Nat) : Nat :=
  let (p, q) : Nat × Nat := if f = 1 then (11, 52) else (8, 23)
  let neg : Bool := v / 2 ^ (p + q) % 2 = 1
  let e := v / 2 ^ q % 2 ^ p
  let m := v % 2 ^ q
  if e = 2 ^ p - 1 then (if m = 0 then (if neg then 0 else 7) else if 2 ^ (q - 1) ≤ m then 9 else 8)
  else if e = 0 then (if m = 0 then (if neg then 3 else 4) else if neg then 2 else 5)
  else if neg then 1 else 6

/-- The source of a conversion to floating point (R96). -/
def cvtFrom (t : BitVec 3) (s : State) (v : Word) : FVal :=
  if t = 0 then fdec 5 (s.me.fcsr.getLsbD 7) (v &&& 0xFFFFFFFF).toNat
  else if t = 1 then fdec 12 (s.me.fcsr.getLsbD 7) v.toNat
  else if t = 2 then ofInt (sx v 32).toInt
  else if t = 3 then ofInt (v &&& 0xFFFFFFFF).toNat
  else if t = 4 then ofInt v.toInt
  else ofInt v.toNat

/-- The range of an integer target (R96). -/
def cvtRange (t : BitVec 3) : Int × Int :=
  if t = 2 then (-2147483648, 2147483647) else if t = 3 then (0, 4294967295)
  else if t = 4 then (-9223372036854775808, 9223372036854775807) else (0, 18446744073709551615)

end

end Sys2Proof.Claims

/-- R93: fadd, fsub, fmul, fdiv, fsqrt and ffma write the exact result rounded once and accrue its flags. -/
def Sys2Proof.Claims.FloatArithmetic : Prop :=
  (∀ op x, (op, x) ∈ fpTwo → ∀ (f : BitVec 1) (b a : BitVec 5) (rm : BitVec 3) (d : BitVec 5) (k : BitVec 1) (s : State),
    Decodes true [a, b] [d] false s →
    exec (op f b a rm d k) s = .next (fpDone k d
      (fpOut f (fpMode rm s) s (x (fpMode rm s) (fpIn f s (rdOp a s).1) (fpIn f s (rdOp b (rdOp a s).2).1)))
      (rdOp b (rdOp a s).2).2)) ∧
  (∀ (f : BitVec 1) (a : BitVec 5) (rm : BitVec 3) (d : BitVec 5) (k : BitVec 1) (s : State), Decodes true [a] [d] false s →
    exec (.fsqrt f a rm d k) s =
      .next (fpDone k d (fpOut f (fpMode rm s) s (fsqrt1 (fpIn f s (rdOp a s).1))) (rdOp a s).2)) ∧
  (∀ (f : BitVec 1) (b a : BitVec 5) (rm : BitVec 3) (d : BitVec 5) (k : BitVec 1) (s : State), d.toNat < 16 →
    Decodes true [a, b, d] [d] false s →
    exec (.ffma f b a rm d k) s = .next (fpDone k d
      (fpOut f (fpMode rm s) s (ffma3 (fpMode rm s) (fpIn f s (rdOp a s).1) (fpIn f s (rdOp b (rdOp a s).2).1)
        (fpIn f s (regVal s.me d.toNat))))
      (rdOp b (rdOp a s).2).2))

/-- R94 and R95: fmin and fmax never round; comparisons write 1 or 0, 0 with a NaN; fclass writes one bit and raises no flag. -/
def Sys2Proof.Claims.FloatCompare : Prop :=
  (∀ (f : BitVec 1) (b a d : BitVec 5) (k : BitVec 1) (s : State), Decodes true [a, b] [d] false s →
    let x := (rdOp a s).1
    let y := (rdOp b (rdOp a s).2).1
    let z := s.me.fcsr.getLsbD 7
    exec (.fmin f b a d k) s = .next (fpDone k d
      (BitVec.ofNat 64 (fminmax (fpFormat f) z false (fpOperand f x) (fpOperand f y)).1,
        (fminmax (fpFormat f) z false (fpOperand f x) (fpOperand f y)).2) (rdOp b (rdOp a s).2).2) ∧
    exec (.fmax f b a d k) s = .next (fpDone k d
      (BitVec.ofNat 64 (fminmax (fpFormat f) z true (fpOperand f x) (fpOperand f y)).1,
        (fminmax (fpFormat f) z true (fpOperand f x) (fpOperand f y)).2) (rdOp b (rdOp a s).2).2)) ∧
  (∀ op r q, (op, r, q) ∈ fpRelations → ∀ (f : BitVec 1) (b a d : BitVec 5) (k : BitVec 1) (s : State),
    Decodes true [a, b] [d] false s →
    let x := fpIn f s (rdOp a s).1
    let y := fpIn f s (rdOp b (rdOp a s).2).1
    exec (op f b a d k) s = .next (fpDone k d
      (match fcmp x y with | some o => if r o then 1 else 0 | none => 0,
        if x.isSnan ∨ y.isSnan ∨ (q = true ∧ (x.isNan ∨ y.isNan)) then fNV else 0) (rdOp b (rdOp a s).2).2)) ∧
  (∀ (f : BitVec 1) (a d : BitVec 5) (k : BitVec 1) (s : State), Decodes true [a] [d] false s →
    exec (.fclass f a d k) s = .next (fpDone k d (BitVec.ofNat 64 (2 ^ classBit f (fpOperand f (rdOp a s).1)), 0) (rdOp a s).2))

/-- R96: conversions round by the instruction's mode; one to an integer writes the nearest limit with NV for a value out of
range, and NX otherwise where rounding changed it. -/
def Sys2Proof.Claims.FloatConvert : Prop :=
  (∀ (f : BitVec 1) (t : BitVec 3) (a : BitVec 5) (rm : BitVec 3) (d : BitVec 5) (k : BitVec 1) (s : State),
    Decodes true [a] [d] false s →
    let x := cvtFrom t s (rdOp a s).1
    exec (.fcvtToFloat f t a rm d k) s =
      .next (fpDone k d (fpOut f (fpMode rm s) s (x, if x.isSnan then fNV else 0)) (rdOp a s).2)) ∧
  (∀ (f : BitVec 1) (t : BitVec 3) (a : BitVec 5) (rm : BitVec 3) (d : BitVec 5) (k : BitVec 1) (s : State),
    Decodes true [a] [d] false s →
    ∃ i fl, exec (.fcvtToInt f t a rm d k) s = .next (fpDone k d (BitVec.ofInt 64 i, fl) (rdOp a s).2) ∧
      match roundInt (fpMode rm s) (fpIn f s (rdOp a s).1) with
      | none => fl = fNV ∧ i = (if fpIn f s (rdOp a s).1 = .inf true then (cvtRange t).1 else (cvtRange t).2)
      | some (v, exact) =>
        if v < (cvtRange t).1 then fl = fNV ∧ i = (cvtRange t).1
        else if (cvtRange t).2 < v then fl = fNV ∧ i = (cvtRange t).2
        else i = v ∧ fl = (if exact then 0 else fNX))

/-- R94, R95, R96: minimum, maximum, comparisons, classes and conversions. -/
def Obligations.FloatComparesAndConverts : Prop :=
  Claims.FloatCompare ∧ Claims.FloatConvert

/-- R207, the four modes: rounding m·2^e to a multiple k·2^q with q above e. rtz takes the multiple below in magnitude, rne
the nearer one and the even one on a tie, rdn and rup the one on their side. -/
def Sys2Proof.Claims.RoundingModes : Prop :=
  ∀ (neg : Bool) (m : Nat) (e q : Int), e < q →
    let g := 2 ^ (q - e).toNat
    let k (mode : BitVec 2) := (roundAt mode neg m e false q).1
    (k 1 * g ≤ m ∧ m < k 1 * g + g) ∧
    (2 * m ≤ 2 * (k 0 * g) + g ∧ 2 * (k 0 * g) ≤ 2 * m + g ∧
      ((2 * m = 2 * (k 0 * g) + g ∨ 2 * (k 0 * g) = 2 * m + g) → k 0 % 2 = 0)) ∧
    (if neg then (m ≤ k 2 * g ∧ k 2 * g < m + g) ∧ k 3 = k 1 else (m ≤ k 3 * g ∧ k 3 * g < m + g) ∧ k 2 = k 1) ∧
    (∀ mode, (roundAt mode neg m e false q).2 = decide (m % g = 0))

/-- R93, R207: floating-point arithmetic, and the four rounding modes that it uses. -/
def Obligations.FloatArithmeticAndRounding : Prop :=
  Claims.FloatArithmetic ∧ Claims.RoundingModes

/-- R110: an integer instruction that folds writes a symbolic destination over the same symbol without waiting, or its offset
where the scale is 0, in its writeback. The symbolic source is a, over entry y with the expression (p, q); its value has not
returned. -/
def Obligations.IntegerFolding : Prop :=
  ∀ (b a d : BitVec 5) (k : BitVec 1) (s : State) (y : Nat) (e : SymEntry) (p q : Word), s.dec = false →
    1 ≤ a.toNat → a.toNat < 16 → d.toNat < 16 → b.toNat < 16 →
    (regSt s.me a.toNat = .sym y (.affine p q) ∨ (p = 1 ∧ q = 0 ∧ regSt s.me a.toNat = .sym y .tagged)) →
    tget (scAt s s.here s.mySc).syms y = some e → e.value = none →
    regSt s.me b.toNat = .full → awaits s.me d.toNat = false →
    let v := regVal s.me b.toNat
    (exec (.add_ b a d k) s = .next (retire k (wrExpr d y p (q + v) s))) ∧
    (exec (.add_ a b d k) s = .next (retire k (wrExpr d y p (v + q) s))) ∧
    (exec (.sub_ b a d k) s = .next (retire k (wrExpr d y p (q - v) s))) ∧
    (exec (.sub_ a b d k) s = .next (retire k (wrExpr d y (-p) (v - q) s))) ∧
    (exec (.mul_ b a d k) s = .next (retire k (wrExpr d y (p * v) (q * v) s))) ∧
    (exec (.sub_ a a d k) s = .next (retire k (wrExpr d y 0 0 s)) ∧
      regSt (wrExpr d y 0 0 s).me d.toNat = .full ∧ regVal (wrExpr d y 0 0 s).me d.toNat = 0) ∧
    (∀ i : BitVec 12, exec (.addi i a d k) s = .next (retire k (wrExpr d y p (q + i.signExtend 64) s))) ∧
    (∀ h : BitVec 6, exec (.slli h a d k) s = .next (retire k (wrExpr d y (p <<< h.toNat) (q <<< h.toNat) s)))

/-! ### Special and common registers -/

namespace Sys2Proof.Claims

noncomputable section

/-- The value of special register n (R99 to R102, R38); sr.cycle at the memory stage, on the MC in its own cycles (R97, R393). -/
def special (s : State) (n : Nat) : Word :=
  let x := s.me
  let g := x.grid.bind (tget s.grids)
  match n with
  | 0x000 => x.status
  | 0x001 => x.fcsr.setWidth 64
  | 0x002 => BitVec.ofNat 64 (0x3C0000 + 4096 * x.slot)
  | 0x003 => x.cause.setWidth 64
  | 0x004 => x.epc
  | 0x005 => x.tval
  | 0x006 => (match g with | some g => g.tvec &&& 0xFFFFFFFFFFFFFFFC | none => 0)
  | 0x007 => (match g with | some g => g.tdeleg | none => 0)
  | 0x008 => x.wtimeout.setWidth 64
  | 0x009 => BitVec.ofNat 64 (8 - (scAt s x.place (x.slot / 8)).mq.length - reservedBy s (s.now + 8) (some (x.slot / 8)) matrixWord)
  | 0x00A => (match tget (coreAt s x.place).ctx (ctxKey x) with | some c => c.sbase6.setWidth 64 | none => 0)
  | 0x00B => (match tget (coreAt s x.place).ctx (ctxKey x) with | some c => c.sbase7.setWidth 64 | none => 0)
  | 0x00C => BitVec.ofNat 64 (s.now - (hubAt s (moduleOf x.place)).cycle0 + (if x.kind = .mc then 24 else 6) + skewOf s x.place)
  | 0x00D => x.bidx
  | 0x00E => (match g with | some g => g.gdim | none => 0)
  | 0x00F => BitVec.ofNat 64 x.sidx
  | _ => BitVec.ofNat 64 (x.owner * 4294967296 + x.grid.getD 0)

/-- The strand's registers whose every field is RW, their RW bits and what a write changes (R99, R101). -/
def writable : List (Nat × Word × (Word → Strand → Strand)) :=
  [(0x001, 0xFF, fun v x => { x with fcsr := v.setWidth 8 }), (0x003, 0x3F, fun v x => { x with cause := v.setWidth 6 }),
   (0x004, 0xFFFFFFFFFFFFFFFF, fun v x => { x with epc := v }), (0x005, 0xFFFFFFFFFFFFFFFF, fun v x => { x with tval := v }),
   (0x008, 0xFFFFFFFF, fun v x => { x with wtimeout := v.setWidth 32 })]

end

end Sys2Proof.Claims

/-- R97, R99: get writes the register's value; that of sr.fcsr only once it is settled (R112). -/
def Sys2Proof.Claims.SpecialRegisterRead : Prop :=
  ∀ (i : BitVec 12) (d : BitVec 5) (k : BitVec 1) (s : State), i.toNat ≤ 16 → Decodes true [] [d] false s →
    (i = 1 → fcsrSettled s s.cur = true) → exec (.get_ i d k) s = .next (retire k (wrOp d (special s i.toNat) s))

/-- R98 to R100: set changes the RW fields whole, or raises 0x06 with the value: a reserved field that is not zero, a
read-only field that differs, a register without a writable field. A change of a scale base is noted with its cycle, for the
window accesses that issued before it. -/
def Sys2Proof.Claims.SpecialRegisterWrite : Prop :=
  ∀ (i : BitVec 12) (a : BitVec 5) (k : BitVec 1) (s : State), Decodes true [a] [] false s →
    (i = 1 → fcsrSettled s s.cur = true) →
    let v := (rdOp a s).1
    (∀ m u, (i.toNat, m, u) ∈ writable →
      exec (.set_ i a k) s = .next (if v &&& ~~~m = 0 then retire k (modMe (u v) (rdOp a s).2) else raise 6 v s)) ∧
    (i = 0 → exec (.set_ i a k) s = .next (
      if v &&& 0xFFFFFFFFFFFFF0F0 = 0 ∧ v &&& 0xF04 = s.me.status &&& 0xF04 then
        retire k (modMe (fun x => { x with status := (x.status &&& ~~~3 &&& ~~~(v &&& 8)) ||| (v &&& 3) }) (rdOp a s).2)
      else raise 6 v s)) ∧
    (i.toNat ∈ [2, 6, 7, 9, 12, 13, 14, 15, 16] → exec (.set_ i a k) s = .next (raise 6 v s)) ∧
    (∀ c, ctxOf s = some c → a.toNat < 16 → v &&& 0xFFFFFFFFFFC00003 = 0 →
      (i = 10 → exec (.set_ i a k) s = .next (retire k (modCore s.here
        (fun q => { q with ctx := tput q.ctx (ctxKey s.me) { c with sbase6 := v.setWidth 22, sbWas := recent (s.now + s.lag) c.sbWas ++ [(s.now + s.lag, 6, c.sbase6)] } }) s))) ∧
      (i = 11 → exec (.set_ i a k) s = .next (retire k (modCore s.here
        (fun q => { q with ctx := tput q.ctx (ctxKey s.me) { c with sbase7 := v.setWidth 22, sbWas := recent (s.now + s.lag) c.sbWas ++ [(s.now + s.lag, 7, c.sbase7)] } }) s))))

/-- R104, R105: cget reads 0 from an untagged register, its value under the strand's own tag, and raises 0x06 under another.
A cset that issues in cycle n is unseen in cycles n to n + 7 and seen from n + 8 on, on the MC in its own cycles, of which each is
four (R393). -/
def Sys2Proof.Claims.CommonRegisters : Prop :=
  ∀ (c : BitVec 3) (r : BitVec 5) (k : BitVec 1) (s : State), r.toNat < 16 → s.me.slot < 32 →
    let now (n : Nat) (t : State) := vget (commit (if s.me.kind = .mc then 32 else 8) n (scAt t s.here s.mySc)).c c.toNat ⟨0, none⟩
    (Decodes false [] [r] false s →
      exec (.cget c r k) s = .next (
        if (now s.now s).tag = none then retire k (wr r.toNat 0 s)
        else if (now s.now s).tag = some (myTag s.me) then retire k (wr r.toNat (now s.now s).val s)
        else raise 6 (c.setWidth 64) s)) ∧
    (Decodes false [r] [] false s →
      if (now s.now s).tag = none ∨ (now s.now s).tag = some (myTag s.me) then
        ∃ t, exec (.cset c r k) s = .next t ∧ t.me.pc = s.me.pc + 4 ∧
          (∀ n, s.now + (if s.me.kind = .mc then 32 else 8) ≤ n → now n t = ⟨regVal s.me r.toNat, some (myTag s.me)⟩) ∧ now s.now t = now s.now s ∧
          (∀ j, t.me.regs = s.me.regs ∧ memGet t.mem j = memGet s.mem j)
      else exec (.cset c r k) s = .next (raise 6 (c.setWidth 64) s))

/-- R97 to R100, R104, R105: special registers and common registers, read and written.
Model's reading, not the spec's: log 9 (DESIGN CHOICE), log 23 (DESIGN CHOICE), log 53 (DESIGN CHOICE), log 66 (DESIGN CHOICE). -/
def Obligations.SpecialRegisters : Prop :=
  Claims.SpecialRegisterRead ∧ Claims.SpecialRegisterWrite ∧ Claims.CommonRegisters

/-! ### Loads, stores, atomics, full/empty words, watches -/

namespace Sys2Proof.Claims

noncomputable section

/-- Loads of major 0x01: width and whether the value is sign-extended (R146, R147). -/
def loads : List ((BitVec 6 → BitVec 6 → BitVec 5 → BitVec 5 → BitVec 1 → Instr) × Nat × Bool) :=
  [(.ldB, 1, true), (.ldH, 2, true), (.ldW, 4, true), (.ldD, 8, true), (.ldBu, 1, false), (.ldHu, 2, false), (.ldWu, 4, false)]

/-- Loads of major 0x02, with order and policy. -/
def loadsMx : List ((BitVec 2 → BitVec 2 → BitVec 6 → BitVec 5 → BitVec 5 → BitVec 1 → Instr) × Nat × Bool) :=
  [(.ldBMx, 1, true), (.ldHMx, 2, true), (.ldWMx, 4, true), (.ldDMx, 8, true), (.ldBuMx, 1, false), (.ldHuMx, 2, false),
   (.ldWuMx, 4, false)]

/-- Stores of majors 0x03 and 0x04. -/
def stores : List ((BitVec 6 → BitVec 6 → BitVec 5 → BitVec 5 → BitVec 1 → Instr) × Nat) :=
  [(.stB, 1), (.stH, 2), (.stW, 4), (.stD, 8)]
def storesMx : List ((BitVec 2 → BitVec 2 → BitVec 6 → BitVec 5 → BitVec 5 → BitVec 1 → Instr) × Nat) :=
  [(.stBMx, 1), (.stHMx, 2), (.stWMx, 4), (.stDMx, 8)]

/-- The loaded value (R147): size bytes, sign- or zero-extended. -/
def loaded (signed : Bool) (size v : Nat) : Word := if signed then sx (BitVec.ofNat 64 v) (8 * size) else BitVec.ofNat 64 v

/-- The PA names no bytes of a hub's SRAM. -/
def OffHub (s : State) (pa : Nat) : Prop := ∀ m o, space s pa ≠ .hub m o

/-- The strand goes on with a load's destination pending (R26): its PC has advanced, the result is outstanding. -/
def PendsLoad (s t : State) (d : BitVec 5) (va : Word) : Prop :=
  t.me.pc = s.me.pc + 4 ∧ t.me.late = s.me.late ++ [⟨s.fresh, d.toNat, 1, s.me.pc, va, false, none⟩] ∧
    (d ≠ 0 → awaits t.me d.toNat = true) ∧ SameMemory s t ∧ Kept s t [d.toNat]

/-- A request of a partition that comes alone to a slice in its turn starts: no miss is under way, the partition has a token and no
debt, nothing has started in this cycle, and nothing but the slice's own turn is due (R170, R171, R174). -/
def SliceReady (s : State) (cl p : Nat) : Prop :=
  let k := sliceAt s cl
  p < 4 ∧ k.miss = [] ∧ inDebt k p = false ∧ 0 < (vget k.buckets (8 + p) Bucket.reset).level ∧ k.turned ≤ s.now ∧
    ∀ e ∈ s.agenda, e.1 ≤ s.now → ∃ c, e.2 = .tokenAccrual c

/-- Such a request is that of an access to the vault by a strand, of which no other waits there; it can start (R144, R145). -/
def SliceServes (s : State) (cl : Nat) (a : VAcc) : Prop :=
  ∃ p at_ w, SliceReady s cl p ∧ at_ ≤ s.now ∧ cl = clusterOf (homeOf a.pa) ∧ vaultState s (homeOf a.pa) ≠ 1 ∧ a.pa % 32 + a.size ≤ 32 ∧
    (sliceAt s cl).waits = [⟨2, p, homeOf a.pa, at_, 0, a.pa, a.size, a.pol, w, some a⟩]

/-- The value of w bits read as signed. -/
def signedOf (w v : Nat) : Int := if v < 2 ^ (w - 1) then (v : Int) else (v : Int) - (2 ^ w : Nat)

/-- The atomics that take one operand: the new value from the width, the memory value and the operand (R149). -/
def atomics : List ((BitVec 2 → BitVec 6 → BitVec 5 → BitVec 1 → BitVec 5 → BitVec 1 → Instr) × (Nat → Nat → Nat → Nat)) :=
  [(.amoAdd, fun w m a => (m + a) % 2 ^ w), (.amoSwap, fun _ _ a => a), (.amoAnd, fun _ m a => m &&& a),
   (.amoOr, fun _ m a => m ||| a), (.amoXor, fun _ m a => m ^^^ a),
   (.amoMin, fun w m a => if signedOf w m ≤ signedOf w a then m else a),
   (.amoMax, fun w m a => if signedOf w m ≤ signedOf w a then a else m),
   (.amoMinu, fun _ m a => if m ≤ a then m else a), (.amoMaxu, fun _ m a => if m ≤ a then a else m)]

/-- The watches and their conditions on the word m and the register v (R154). -/
def watches : List ((BitVec 2 → BitVec 6 → BitVec 5 → BitVec 5 → BitVec 1 → Instr) × (Word → Word → Bool)) :=
  [(.watchEq, fun m v => decide (m = v)), (.watchNe, fun m v => decide (m ≠ v)), (.watchLt, fun m v => decide (m.toInt < v.toInt)),
   (.watchGe, fun m v => decide (m.toInt ≥ v.toInt)), (.watchLtu, fun m v => decide (m.toNat < v.toNat)),
   (.watchGeu, fun m v => decide (m.toNat ≥ v.toNat))]

end

end Sys2Proof.Claims

/-- R147: a load from a core's SRAM or the MC's private SRAM writes the bytes at its address, extended, and goes on; memory
does not change. One from a hub's SRAM goes on with its destination pending (R26, R150).
Model's reading, not the spec's: log 27 (DESIGN CHOICE). -/
def Obligations.LoadsFromSram : Prop :=
  (∀ op size sg, (op, size, sg) ∈ loads →
    ∀ (i n : BitVec 6) (x d : BitVec 5) (k : BitVec 1) (s : State) (va : Word) (pa pol : Nat) (win : Bool),
    Decodes false [x] [d] true s →
    Reaches s n.toNat (regVal s.me x.toNat + i.signExtend 64 * BitVec.ofNat 64 size) size true false va pa pol win →
    Released s (orderOf s 0 n.toNat) → Permitted s pa size .load → InSram s pa →
    (OffHub s pa → poisoned s pa size = false → exec (op i n x d k) s =
      .next (retireAcc (orderOf s 0 n.toNat) false k (wr d.toNat (loaded sg size (le s pa size)) (used s va)))) ∧
    (¬ OffHub s pa → ∃ t, exec (op i n x d k) s = .next t ∧ PendsLoad s t d va)) ∧
  (∀ op size sg, (op, size, sg) ∈ loadsMx →
    ∀ (o p : BitVec 2) (n : BitVec 6) (x d : BitVec 5) (k : BitVec 1) (s : State) (va : Word) (pa pol : Nat) (win : Bool),
    Decodes false [x] [d] true s → Reaches s n.toNat (regVal s.me x.toNat) size true false va pa pol win →
    Released s (orderOf s o n.toNat) → Permitted s pa size .load → InSram s pa →
    (OffHub s pa → poisoned s pa size = false → exec (op o p n x d k) s =
      .next (retireAcc (orderOf s o n.toNat) false k (wr d.toNat (loaded sg size (le s pa size)) (used s va)))) ∧
    (¬ OffHub s pa → ∃ t, exec (op o p n x d k) s = .next t ∧ PendsLoad s t d va))

/-- R147: a store to an SRAM leaves the low bytes of its register at its address, lowest first, and nothing else in memory
or in the registers changed.
Model's reading, not the spec's: log 27 (DESIGN CHOICE). -/
def Obligations.StoresToSram : Prop :=
  (∀ op size, (op, size) ∈ stores →
    ∀ (i n : BitVec 6) (x v : BitVec 5) (k : BitVec 1) (s : State) (va : Word) (pa pol : Nat) (win : Bool),
    s.Inv → Decodes false [x, v] [] false s →
    Reaches s n.toNat (regVal s.me x.toNat + i.signExtend 64 * BitVec.ofNat 64 size) size false true va pa pol win →
    Released s (orderOf s 0 n.toNat) → Permitted s pa size .store → InSram s pa →
    ∃ t, exec (op i n x v k) s = .next t ∧ t.me.pc = s.me.pc + 4 ∧ Holds t pa size (regVal s.me v.toNat) ∧
      SameOutside s t pa size ∧ Kept s t [] ∧ t.me.fcsr = s.me.fcsr) ∧
  (∀ op size, (op, size) ∈ storesMx →
    ∀ (o p : BitVec 2) (n : BitVec 6) (x v : BitVec 5) (k : BitVec 1) (s : State) (va : Word) (pa pol : Nat) (win : Bool),
    s.Inv → Decodes false [x, v] [] false s → Reaches s n.toNat (regVal s.me x.toNat) size false true va pa pol win →
    Released s (orderOf s o n.toNat) → Permitted s pa size .store → InSram s pa →
    ∃ t, exec (op o p n x v k) s = .next t ∧ t.me.pc = s.me.pc + 4 ∧ Holds t pa size (regVal s.me v.toNat) ∧
      SameOutside s t pa size ∧ Kept s t [] ∧ t.me.fcsr = s.me.fcsr)

/-- R144, R145, R147, R149: a load from the vault that the L1 does not hold goes on with its destination pending; a store to the
vault is posted. Neither changes memory in its own step. When the slice starts it, a load takes the bytes as the slice has them then and
returns 12 cycles later on a hit, 150 on a miss whose DRAM page is open, else 250; an atomic takes the old value and leaves the new one.
Model's reading, not the spec's: log 3 (DESIGN CHOICE), log 5 (DESIGN CHOICE), log 24 (DESIGN CHOICE). -/
def Obligations.VaultAccesses : Prop :=
  (∀ op size sg, (op, size, sg) ∈ loads →
    ∀ (i n : BitVec 6) (x d : BitVec 5) (s : State) (va : Word) (pa pol core off : Nat) (win : Bool),
    Decodes false [x] [d] true s →
    Reaches s n.toNat (regVal s.me x.toNat + i.signExtend 64 * BitVec.ofNat 64 size) size true false va pa pol win →
    orderOf s 0 n.toNat = 0 → Permitted s pa size .load → space s pa = .vault core off → vaultState s core ≠ 1 →
    l1Find s core pa = none →
    ∃ t, exec (op i n x d 0) s = .next t ∧ PendsLoad s t d va) ∧
  (∀ op size, (op, size) ∈ stores →
    ∀ (i n : BitVec 6) (x v : BitVec 5) (s : State) (va : Word) (pa pol core off : Nat) (win : Bool),
    Decodes false [x, v] [] false s →
    Reaches s n.toNat (regVal s.me x.toNat + i.signExtend 64 * BitVec.ofNat 64 size) size false true va pa pol win →
    orderOf s 0 n.toNat = 0 → Permitted s pa size .store → space s pa = .vault core off → vaultState s core ≠ 1 →
    (tget s.strands s.cur).isSome = true →
    ∃ t, exec (op i n x v 0) s = .next t ∧ t.me.pc = s.me.pc + 4 ∧ t.me.posted = s.me.posted + 1 ∧
      t.stores = s.stores ++ [⟨s.fresh, s.cur, homeOf pa, pa, leBytes size (regVal s.me v.toNat).toNat, policyOf s pol 0 n.toNat, []⟩] ∧
      SameMemory s t ∧ Kept s t []) ∧
  (∀ (s : State) (cl : Nat) (a : VAcc), SliceServes s cl a → 0 < a.size →
    (a.kind = .load →
      ∃ t d, exec (.tokenAccrual cl) s = .next t ∧ t.strands = s.strands ∧ SameMemory s t ∧
        d = (if present (sliceAt s cl) a.pa a.size then 12 else if pageOpen s a.pa then 150 else 250) ∧
        (s.now + d, Instr.lateResultReturn (homeOf a.pa) a.sid
          ⟨a.tag, loaded a.signed a.size (leNat (sliceRead s a.pa a.size)), poisoned s a.pa a.size, 0⟩) ∈ t.agenda) ∧
    (∀ op g, (op, g) ∈ atomics → ∀ (o : BitVec 2) (n : BitVec 6) (x : BitVec 5) (z : BitVec 1) (d : BitVec 5) (k : BitVec 1), s.Inv →
      a.kind = .amo → a.instr = op o n x z d k → a.size = (if z = 1 then 8 else 4) → poisoned s a.pa a.size = false →
      (sliceAt s cl).lines = [] → (sliceAt s cl).wb = [] →
      ∃ t d, exec (.tokenAccrual cl) s = .next t ∧ t.strands = s.strands ∧
        (s.now + d, Instr.lateResultReturn (homeOf a.pa) a.sid
          ⟨a.tag, sx (BitVec.ofNat 64 (leNat (sliceRead s a.pa a.size))) (8 * a.size), false, 0⟩) ∈ t.agenda ∧
        leNat (sliceRead t a.pa a.size) = g (8 * a.size) (leNat (sliceRead s a.pa a.size)) (a.a.toNat % 2 ^ (8 * a.size))))

/-- R149, R150: an atomic on scratchpad words writes sext of the old value and leaves the new one in memory, in one step.
amo.fadd.s rounds as fadd.s does and accrues; amo.cas stores its second register where the word matches its first.
Model's reading, not the spec's: log 27 (DESIGN CHOICE). -/
def Obligations.AtomicsOnScratchpad : Prop :=
  (∀ op g, (op, g) ∈ atomics →
    ∀ (o : BitVec 2) (n : BitVec 6) (x : BitVec 5) (z : BitVec 1) (d : BitVec 5) (k : BitVec 1) (s : State) (va : Word)
      (pa pol core off : Nat) (win : Bool),
    let size := if z = 1 then 8 else 4
    s.Inv → Decodes false [x, d] [d] true s → Reaches s n.toNat (regVal s.me x.toNat) size true true va pa pol win →
    Released s (orderOf s o n.toNat) → Permitted s pa size .amo → space s pa = .pad core off → poisoned s pa size = false →
    ∃ t, exec (op o n x z d k) s = .next t ∧ t.me.pc = s.me.pc + 4 ∧
      (d ≠ 0 → regVal t.me d.toNat = sx (BitVec.ofNat 64 (le s pa size)) (8 * size)) ∧
      Holds t pa size (BitVec.ofNat 64 (g (8 * size) (le s pa size) ((regVal s.me d.toNat).toNat % 2 ^ (8 * size)))) ∧
      SameOutside s t pa size ∧ Kept s t [d.toNat] ∧ t.me.fcsr = s.me.fcsr) ∧
  (∀ (o : BitVec 2) (n : BitVec 6) (x d : BitVec 5) (k : BitVec 1) (s : State) (va : Word) (pa pol core off : Nat) (win : Bool),
    s.Inv → Decodes false [x, d] [d] true s → Reaches s n.toNat (regVal s.me x.toNat) 4 true true va pa pol win →
    Released s (orderOf s o n.toNat) → Permitted s pa 4 .amo → space s pa = .pad core off → poisoned s pa 4 = false →
    let r := fpOut 0 (s.me.fcsr.extractLsb' 5 2) s (fadd2 (s.me.fcsr.extractLsb' 5 2)
      (fpIn 0 s (BitVec.ofNat 64 (le s pa 4))) (fpIn 0 s (regVal s.me d.toNat)))
    ∃ t, exec (.amoFaddS o n x d k) s = .next t ∧ t.me.pc = s.me.pc + 4 ∧
      (d ≠ 0 → regVal t.me d.toNat = BitVec.ofNat 64 (le s pa 4)) ∧ Holds t pa 4 r.1 ∧ SameOutside s t pa 4 ∧
      Kept s t [d.toNat] ∧ t.me.fcsr = s.me.fcsr ||| r.2.setWidth 8) ∧
  (∀ (o : BitVec 2) (n : BitVec 6) (x : BitVec 5) (z : BitVec 1) (d : BitVec 5) (k : BitVec 1) (s : State) (va : Word)
      (pa pol core off : Nat) (win : Bool) (d' : BitVec 5),
    let size := if z = 1 then 8 else 4
    d'.toNat = d.toNat + 1 →
    s.Inv → Decodes false [x, d, d'] [d] true s → Reaches s n.toNat (regVal s.me x.toNat) size true true va pa pol win →
    Released s (orderOf s o n.toNat) → Permitted s pa size .amo → space s pa = .pad core off → poisoned s pa size = false →
    ∃ t, exec (.amoCas o n x z d k) s = .next t ∧ t.me.pc = s.me.pc + 4 ∧
      (d ≠ 0 → regVal t.me d.toNat = sx (BitVec.ofNat 64 (le s pa size)) (8 * size)) ∧
      Holds t pa size (if le s pa size = (regVal s.me d.toNat).toNat % 2 ^ (8 * size) then regVal s.me d'.toNat
        else BitVec.ofNat 64 (le s pa size)) ∧
      SameOutside s t pa size ∧ Kept s t [d.toNat])

/-- R151, R152: on a word no one waits for, take reads a full word and empties it, peek reads it, give fills an empty word,
fill writes and fills it, femark and feclear set its state, fequery reads the state. -/
def Sys2Proof.Claims.FullEmptyWords : Prop :=
  ∀ (o : BitVec 2) (n : BitVec 6) (x d : BitVec 5) (k : BitVec 1) (s : State) (va : Word) (pa pol core off : Nat) (win : Bool),
    s.Inv → isCore s.me.place = true → Reaches s n.toNat (regVal s.me x.toNat) 8 true true va pa pol win →
    Released s (orderOf s o n.toNat) → Permitted s pa 8 .fe → space s pa = .pad core off → NoWaiters s pa →
    (Decodes false [x] [d] true s → feEmpty s pa = false → poisoned s pa 8 = false →
      (∃ t, exec (.take o n x d k) s = .next t ∧ t.me.pc = s.me.pc + 4 ∧
        (d ≠ 0 → regVal t.me d.toNat = BitVec.ofNat 64 (le s pa 8)) ∧ feEmpty t pa = true ∧
        (∀ a, a / 8 ≠ pa / 8 → feEmpty t a = feEmpty s a) ∧ SameMemory s t ∧ Kept s t [d.toNat]) ∧
      (∃ t, exec (.peek o n x d k) s = .next t ∧ t.me.pc = s.me.pc + 4 ∧
        (d ≠ 0 → regVal t.me d.toNat = BitVec.ofNat 64 (le s pa 8)) ∧
        (∀ a, feEmpty t a = feEmpty s a) ∧ SameMemory s t ∧ Kept s t [d.toNat])) ∧
    (Decodes false [x, d] [] false s → feEmpty s pa = true →
      ∃ t, exec (.give o n x d k) s = .next t ∧ t.me.pc = s.me.pc + 4 ∧ Holds t pa 8 (regVal s.me d.toNat) ∧
        feEmpty t pa = false ∧ (∀ a, a / 8 ≠ pa / 8 → feEmpty t a = feEmpty s a) ∧ SameOutside s t pa 8 ∧ Kept s t []) ∧
    (Decodes false [x, d] [] false s →
      ∃ t, exec (.fill o n x d k) s = .next t ∧ t.me.pc = s.me.pc + 4 ∧ Holds t pa 8 (regVal s.me d.toNat) ∧
        feEmpty t pa = false ∧ (∀ a, a / 8 ≠ pa / 8 → feEmpty t a = feEmpty s a) ∧ SameOutside s t pa 8 ∧ Kept s t []) ∧
    (Decodes false [x] [] false s →
      (∃ t, exec (.femark o n x k) s = .next t ∧ t.me.pc = s.me.pc + 4 ∧ feEmpty t pa = false ∧
        (∀ a, a / 8 ≠ pa / 8 → feEmpty t a = feEmpty s a) ∧ SameMemory s t ∧ Kept s t []) ∧
      (∃ t, exec (.feclear o n x k) s = .next t ∧ t.me.pc = s.me.pc + 4 ∧ feEmpty t pa = true ∧
        (∀ a, a / 8 ≠ pa / 8 → feEmpty t a = feEmpty s a) ∧ SameMemory s t ∧ Kept s t [])) ∧
    (Decodes false [x] [d] false s →
      exec (.fequery o n x d k) s =
        .next (retireAcc (orderOf s o n.toNat) false k (wr d.toNat (if feEmpty s pa then 0 else 1) (used s va))))

/-- R153: a take that finds an empty word goes on with its destination pending and an entry in the wait list; when the word
is full, the unit's service of it hands the value over and empties the word; a waiting give is served on an empty word. -/
def Sys2Proof.Claims.FullEmptyWaits : Prop :=
  (∀ (o : BitVec 2) (n : BitVec 6) (x d : BitVec 5) (s : State) (va : Word) (pa pol core off : Nat) (win : Bool),
    isCore s.me.place = true → Reaches s n.toNat (regVal s.me x.toNat) 8 true true va pa pol win →
    orderOf s o n.toNat = 0 → Permitted s pa 8 .fe → space s pa = .pad core off → Decodes false [x] [d] true s →
    feEmpty s pa = true → (coreAt s s.me.place).fe.length < 64 →
    ∃ t, exec (.take o n x d 0) s = .next t ∧ t.me.pc = s.me.pc + 4 ∧
      (coreAt t s.me.place).fe = (coreAt s s.me.place).fe ++ [⟨s.cur, .take, pa, s.fresh, 0⟩] ∧
      t.me.late = s.me.late ++ [⟨s.fresh, d.toNat, 3, s.me.pc, va, false, none⟩] ∧ SameMemory s t ∧ Kept s t [d.toNat]) ∧
  (∀ (s : State) (core word : Nat) (w : FEWait) (l : List FEWait), (coreAt s core).fe = w :: l → w.word = word →
    (feEmpty s word = false → w.kind = .take →
      ∃ t, exec (.feWaiterService core word) s = .next t ∧ (coreAt t core).fe = l ∧ feEmpty t word = true ∧
        (s.now, Instr.lateResultReturn core w.sid ⟨w.tag, BitVec.ofNat 64 (le s word 8), poisoned s word 8, 0⟩) ∈ t.agenda ∧
        SameMemory s t ∧ t.strands = s.strands) ∧
    (s.Inv → feEmpty s word = true → w.kind = .give →
      ∃ t, exec (.feWaiterService core word) s = .next t ∧ (coreAt t core).fe = l ∧ feEmpty t word = false ∧
        Holds t word 8 w.value ∧ SameOutside s t word 8 ∧ (strandAt t w.sid).gives = (strandAt s w.sid).gives - 1))

/-- R154: a watch goes to its slice, its strand parked in it. When it starts there, one whose condition holds retires with the word in its
register; one whose condition does not hold has a table entry, whose deadline is sr.wtimeout from then on, and retires at the deadline with
the word as it then is. -/
def Sys2Proof.Claims.Watches : Prop :=
  (∀ op c, (op, c) ∈ watches → ∀ (o : BitVec 2) (n : BitVec 6) (x v : BitVec 5) (k : BitVec 1),
    (∀ (s : State) (va : Word) (pa pol core off : Nat) (win : Bool),
      isCore s.me.place = true → Decodes false [x, v] [v] false s →
      Reaches s n.toNat (regVal s.me x.toNat) 8 true false va pa pol win → Released s (orderOf s o n.toNat) →
      Permitted s pa 8 .watch → space s pa = .vault core off → vaultState s core ≠ 1 →
      ∃ t a p, exec (op o n x v k) s = .next t ∧ t.me.pc = s.me.pc ∧ t.me.park = some .watch ∧ a.kind = .watch ∧ a.sid = s.cur ∧
        a.pa = pa ∧ a.size = 8 ∧ a.instr = op o n x v k ∧ a.a = regVal s.me v.toNat ∧ a.mode = BitVec.ofNat 2 (orderOf s o n.toNat) ∧
        (sliceAt t (clusterOf (homeOf pa))).waits = insertReq ⟨2, p, homeOf pa, s.now + 10, 0, pa, 8, a.pol, .tokenAccrual 0, some a⟩
          (sliceAt s (clusterOf (homeOf pa))).waits ∧
        (∃ e ∈ t.agenda, e.2 = .tokenAccrual (clusterOf (homeOf pa))) ∧ SameMemory s t ∧ Kept s t []) ∧
    (∀ (s : State) (cl : Nat) (a : VAcc) (y : Strand), SliceServes s cl a → a.kind = .watch → a.size = 8 → a.instr = op o n x v k →
      (sliceAt s cl).watches = [] → tget s.strands a.sid = some y → v.toNat < 16 →
      let m := BitVec.ofNat 64 (leNat (sliceRead s a.pa 8))
      if c m a.a then
        ∃ t z, exec (.tokenAccrual cl) s = .next t ∧ tget t.strands a.sid = some z ∧ z.pc = y.pc + 4 ∧ (v ≠ 0 → regVal z v.toNat = m) ∧
          (a.mode = 0 → k = 0 → z.park = none) ∧ (sliceAt t cl).watches = [] ∧ SameMemory s t
      else
        ∃ t w, exec (.tokenAccrual cl) s = .next t ∧ t.strands = s.strands ∧ (sliceAt t cl).watches = [w] ∧ w.sid = a.sid ∧ w.pa = a.pa ∧
          w.sv = v.toNat ∧ w.deadline = (if y.wtimeout = 0 then none else some (s.now + y.wtimeout.toNat)) ∧
          (y.wtimeout ≠ 0 → (s.now + y.wtimeout.toNat, Instr.watchTimeout cl w.id) ∈ t.agenda) ∧ SameMemory s t)) ∧
  (∀ (s : State) (cl : Nat) (w : Watch), (sliceAt s cl).watches = [w] → w.queued = false → w.acq = false → w.k = 0 → w.sv < 16 →
    ∃ t, exec (.watchTimeout cl w.id) s = .next t ∧ (sliceAt t cl).watches = [] ∧
      (w.sv ≠ 0 → regVal (strandAt t w.sid) w.sv = BitVec.ofNat 64 (leNat (sliceRead s w.pa 8))) ∧
      (strandAt t w.sid).pc = (strandAt s w.sid).pc + 4 ∧ (strandAt t w.sid).park = none ∧
      (strandAt t w.sid).readyAt = max (strandAt s w.sid).readyAt (s.now + 2) ∧ SameMemory s t)

/-- R151 to R154: full/empty words, the waits for them, and watches.
Model's reading, not the spec's: log 24 (DESIGN CHOICE), log 55 (DESIGN CHOICE). -/
def Obligations.FullEmptyAndWatches : Prop :=
  Claims.FullEmptyWords ∧ Claims.FullEmptyWaits ∧ Claims.Watches

/-! ### Fences, cache instructions, tiles, records -/

namespace Sys2Proof.Claims

noncomputable section

/-- The engine operations of the classes within a scope are complete (R157, R158): 0 pod, 1 module, 2 tower, 3 cluster,
4 core, 5 the register file's own scope, as the fence encodes it. -/
def EnginesDone (x : Strand) (scope : Nat) : Prop :=
  x.eng.core = 0 ∧ (scope ≤ 3 → x.eng.cluster = 0) ∧ (scope ≤ 2 → x.eng.tower = 0) ∧ (scope ≤ 1 → x.eng.module = 0) ∧
    (scope = 0 → x.eng.pod = 0)

/-- Every posted store and every waiting give and atomic of the strand is done, and what a leading strand compares (R158, R376). -/
def StoresDone (s : State) : Prop :=
  s.me.posted = 0 ∧ s.me.gives = 0 ∧ s.me.cmp = [] ∧
    ∀ k ∈ s.slices, ∀ q ∈ k.2.waits, ∀ a, q.acc = some a → a.kind = .amo → a.sid ≠ s.cur

/-- The cycle in which a report from the native core of the strand is where it stands, off that core (R158, R417). -/
def reported (s : State) : Nat := s.now + s.lag + leg s s.me.native s.me.place

/-- A tile instruction may act on tile t: it stands on a core or the Caller, and no other grid defined the tile (R162). -/
def TileMine (s : State) (t : Nat) : Prop :=
  (isCore s.me.place = true ∨ isHub s.me.place = true) ∧
    ((tileAt s s.me.place t).defined = true → (tileAt s s.me.place t).grid = ctxKey s.me)

/-- The state after a tile's entry is set and the instruction retires. -/
def tileSet (t : BitVec 6) (y : Tile) (k : BitVec 1) (s : State) : State := retire k (modTile s.me.place t.toNat (fun _ => y) s)

end

end Sys2Proof.Claims

/-- R158: a fence retires once what it waits for is done: acq late results, rel stores, atomics and engine operations of its
scope, full both, eng the engine operations. acq and full empty the L1 of the core; rel and eng change nothing else. Off its native
core a strand in rel, full or eng waits for the report that its counts are zero. A fence whose wait is not over annuls and parks in
itself. -/
def Obligations.Fences : Prop :=
  ∀ (f : BitVec 5) (k : BitVec 1) (s : State), s.me.vmems = 0 →
    (s.me.late = [] → exec (.fenceAcq f k) s = .next (retire k (modCore s.me.place (fun c => { c with l1 := [], refills := [] }) s))) ∧
    (isNative s.me = true →
      (StoresDone s → EnginesDone s.me f.toNat → exec (.fenceRel f k) s = .next (retire k s)) ∧
      (s.me.late = [] → StoresDone s → EnginesDone s.me f.toNat →
        exec (.fenceFull f k) s = .next (retire k (modCore s.me.place (fun c => { c with l1 := [], refills := [] }) s))) ∧
      (EnginesDone s.me f.toNat → exec (.fenceEng f k) s = .next (retire k s))) ∧
    (isNative s.me = false →
      (StoresDone s → EnginesDone s.me f.toNat → exec (.fenceRel f k) s = .next (park (.report 1 k (reported s)) s)) ∧
      (s.me.late = [] → StoresDone s → EnginesDone s.me f.toNat → exec (.fenceFull f k) s = .next (park (.report 2 k (reported s)) s)) ∧
      (EnginesDone s.me f.toNat → exec (.fenceEng f k) s = .next (park (.report 3 k (reported s)) s))) ∧
    (s.me.late ≠ [] → exec (.fenceAcq f k) s = .next (park (.fence 0 f.toNat k) s)) ∧
    (¬ StoresDone s → exec (.fenceRel f k) s = .next (park (.fence 1 f.toNat k) s)) ∧
    (¬ EnginesDone s.me f.toNat → exec (.fenceEng f k) s = .next (park (.fence 3 f.toNat k) s)) ∧
    exec (.invl1 k) s = .next (retire k (modCore s.me.place (fun c => { c with l1 := [], refills := [] }) s))

/-- R160: discard, prefetch and flush of a vault range inside one page become engine operations of their strand: the
operation is listed and counted, the strand goes on, memory is as it was. An empty range does nothing.
Model's reading, not the spec's: log 22 (DESIGN CHOICE). -/
def Obligations.CacheOperations : Prop :=
  ∀ (n a b : BitVec 5) (k : BitVec 1) (s : State), Decodes false [a, b] [] false s → s.me.vmems = 0 →
    let len := (regVal s.me b.toNat).toNat
    (len = 0 → exec (.discard n a b k) s = .next (retire k s) ∧ exec (.prefetch n a b k) s = .next (retire k s) ∧
      exec (.flush n a b k) s = .next (retire k s)) ∧
    (∀ op kd, (op, kd) ∈ [(Instr.discard, OpKind.discard), (Instr.prefetch, OpKind.prefetch), (Instr.flush, OpKind.flush)] →
      ∀ (va : Word) (pa pol core off : Nat) (win : Bool), 0 < len → len ≤ 65536 →
      recLoading s (32 + n.toNat) = false → ea s (32 + n.toNat) (regVal s.me a.toNat) 1 = .ok (some va) →
      leavesPage s va.toNat len = false →
      translate s va (kd ≠ .discard) (kd = .discard) false = .hit pa pol win → space s pa = .vault core off →
      (kd = .prefetch → policyOf s pol 0 (32 + n.toNat) ≠ 2) →
      ∃ t o, exec (op n a b k) s = .next t ∧ t.me.pc = s.me.pc + 4 ∧ tget t.ops s.fresh = some o ∧ o.kind = kd ∧
        o.sid = s.cur ∧ o.src = pa ∧ o.len = len ∧ t.me.eng = (engMod o.cls (· + 1) s.me).eng ∧ SameMemory s t ∧ Kept s t [])

/-- R162, R163, R165: each tile instruction on a tile in the state that it takes does what the table says and retires. -/
def Sys2Proof.Claims.TileInstructions : Prop :=
  ∀ (t : BitVec 6) (a b : BitVec 5) (k : BitVec 1) (s : State), s.dec = false → TileMine s t.toNat →
    let x := tileAt s s.me.place t.toNat
    let sa := (regVal s.me a.toNat).toNat
    let sb := (regVal s.me b.toNat).toNat
    (Decodes false [a, b] [] false s → (x.defined = true → x.st = .empty ∧ x.ring = none) → sa % 32 = 0 → sb % 32 = 0 →
      sa + sb ≤ 0x3C0000 → sa < 0x3C0000 → sb < 0x800000 → 0 < sb →
      exec (.tdef 0 0 t a b k) s = .next (tileSet t ⟨true, sa, sb, ctxKey s.me, .empty, false, 0, 0, none, 0⟩ k s)) ∧
    (Decodes false [a] [] false s → x.defined = true → x.st = .empty → x.ring = none → 0 < sa → sa ≤ x.len →
      exec (.texp 0 t a k) s =
        .next (tileSet t { x with st := .filling, expected := sa, arrived := 0, faulted := false } k s)) ∧
    (Decodes false [] [a] false s → ∃ v : Word, exec (.tstate t a k) s = .next (retire k (wr a.toNat v s)) ∧
      v.extractLsb' 0 2 = (match x.st with | .empty => 0 | .filling => 1 | .ready => 2 | .draining => 3) ∧
      v.getLsbD 2 = x.faulted ∧ v.getLsbD 3 = x.defined ∧ v.extractLsb' 8 24 = BitVec.ofNat 24 x.expected ∧
      v.extractLsb' 32 24 = BitVec.ofNat 24 x.arrived) ∧
    (x.defined = true → (x.st = .ready ∨ (x.st = .filling ∧ x.faulted = true)) →
      exec (.twait t k) s = .next (retire k s)) ∧
    (x.defined = true → x.st ≠ .ready → x.st ≠ .filling → exec (.twait t k) s = .next (park (.twait t.toNat k) s)) ∧
    (x.defined = true → x.st ≠ .draining → x.ring = none →
      exec (.tready t k) s = .next (tileSet t { x with st := .ready } k s)) ∧
    (x.defined = true → x.st = .ready → x.ring = none →
      ∃ u, exec (.tdrain t k) s = .next u ∧ u.me.pc = s.me.pc + 4 ∧
        (tileAt u s.me.place t.toNat).st = (if (coreAt s s.me.place).locks.any
          (fun l => decide (l.base < x.base + x.len ∧ x.base < l.base + l.len)) then .draining else .empty) ∧
        SameMemory s u ∧ Kept s u []) ∧
    (x.defined = true → exec (.treset t k) s =
      .next (tileSet t { x with st := .empty, faulted := false, expected := 0, arrived := 0 } k s))

/-- R162, R163: what a tile instruction may not do raises 0x0D with the tile's number: a tile of another grid, an undefined
one, one in another state than the instruction takes. -/
def Sys2Proof.Claims.TileTraps : Prop :=
  ∀ (t : BitVec 6) (k : BitVec 1) (s : State), s.dec = false → (isCore s.me.place = true ∨ isHub s.me.place = true) →
    let x := tileAt s s.me.place t.toNat
    let bad := raise 13 (BitVec.ofNat 64 t.toNat) s
    (x.defined = true → x.grid ≠ ctxKey s.me →
      exec (.twait t k) s = .next bad ∧ exec (.tready t k) s = .next bad ∧ exec (.tdrain t k) s = .next bad ∧
      exec (.treset t k) s = .next bad) ∧
    (x.defined = false → exec (.twait t k) s = .next bad ∧ exec (.tready t k) s = .next bad ∧ exec (.tdrain t k) s = .next bad ∧
      exec (.treset t k) s = .next (retire k s)) ∧
    (x.defined = true → x.grid = ctxKey s.me → x.st ≠ .ready → exec (.tdrain t k) s = .next bad)

/-- R168: rec.ld from an SRAM sets a record b56 to b63 of the strand's grid from 32 bytes; below b56 it raises 0x06 with the
number. rec.st to an SRAM stores a record's 32 bytes. -/
def Sys2Proof.Claims.RecordInstructions : Prop :=
  (∀ (n : BitVec 6) (a m : BitVec 5) (k : BitVec 1) (s : State),
    (isCore s.me.place = true ∨ isHub s.me.place = true) → Decodes false [a] [] true s → n.toNat < 56 →
    exec (.recLd 0 n a m k) s = .next (raise 6 (BitVec.ofNat 64 n.toNat) s)) ∧
  (∀ (n : BitVec 6) (a m : BitVec 5) (k : BitVec 1) (s : State) (va : Word) (pa pol : Nat) (win : Bool) (c : GridCtx),
    (isCore s.me.place = true ∨ isHub s.me.place = true) → Decodes false [a] [] true s → 56 ≤ n.toNat →
    recLoading s n.toNat = false → Reaches s (32 + m.toNat) (regVal s.me a.toNat) 32 true false va pa pol win →
    Permitted s pa 32 .load → InSram s pa → poisoned s pa 32 = false → ctxOf s = some c →
    ∃ t d, exec (.recLd 0 n a m k) s = .next t ∧ t.me.pc = s.me.pc + 4 ∧ ctxOf t = some d ∧
      tget d.recs n.toNat = some (BitVec.ofNat 256 (le s pa 32)) ∧
      (∀ j, j ≠ n.toNat → tget d.recs j = tget c.recs j) ∧ SameMemory s t ∧ Kept s t []) ∧
  (∀ (n : BitVec 6) (a m : BitVec 5) (k : BitVec 1) (s : State) (va : Word) (pa pol : Nat) (win : Bool) (r : BitVec 256),
    s.Inv → (isCore s.me.place = true ∨ isHub s.me.place = true) → Decodes false [a] [] false s →
    recLoading s n.toNat = false → recAt s n.toNat = .ok r →
    Reaches s (32 + m.toNat) (regVal s.me a.toNat) 32 false true va pa pol win → Permitted s pa 32 .store → InSram s pa →
    ∃ t, exec (.recSt 0 n a m k) s = .next t ∧ t.me.pc = s.me.pc + 4 ∧
      (∀ i, i < 32 → memGet t.mem (pa + i) = r.extractLsb' (8 * i) 8) ∧ SameOutside s t pa 32 ∧ Kept s t [])

/-- R162 to R165, R168: tile instructions, their traps, and record instructions.
Model's reading, not the spec's: log 9 (DESIGN CHOICE), log 29 (DESIGN CHOICE), log 36 (DESIGN CHOICE). -/
def Obligations.TilesAndRecords : Prop :=
  Claims.TileInstructions ∧ Claims.TileTraps ∧ Claims.RecordInstructions

/-! ### Travel, meetings, symbols -/

namespace Sys2Proof.Claims

noncomputable section

/-- Nothing of the strand's declared luggage is locked, and it does not run into inline frames (R36, R271). -/
def LuggageFree (s : State) (dest : Nat) : Prop := lugFault dest s = none

/-- The strand is on its way: it holds no slot, its declaration is spent, sr.status.evicted is clear, and a packet from its
place to dest carries the luggage bytes it had declared (R34, R36, R62). -/
def Departed (s t : State) (dest : Nat) (trip : Trip) (pc : Word) : Prop :=
  t.me.away = true ∧ t.me.lug = none ∧ t.me.pc = pc ∧ t.me.status = s.me.status &&& ~~~4 ∧ t.me.regs = s.me.regs ∧
    ∃ n p, tget t.packets n = some p ∧ tget s.packets n = none ∧ p.sid = s.cur ∧ p.src = s.me.place ∧ p.dest = dest ∧
      p.trip = trip ∧ p.luggage = (match s.me.lug with
        | some (o, l) => memRead s.mem (padAt s.me.place s.me.slot o) l | none => []) ∧ SameMemory s t

/-- Packets are numbered below the next fresh number. -/
def Numbered (s : State) : Prop := tget s.packets s.fresh = none

end

end Sys2Proof.Claims

/-- R55, R58, R60, R61: go to the place where the strand stands, gohome at home and goa of an address that is home here only
advance the PC; elsewhere the strand departs with its PC at the next instruction, once R34 holds; before that it parks. -/
def Sys2Proof.Claims.GoingSomewhere : Prop :=
  ∀ (a n : BitVec 5) (k : BitVec 1) (s : State), isMc s.me.place = false →
    let v := (regVal s.me a.toNat).toNat
    (Decodes false [a] [] false s → canDepart s s.cur = false → exec (.go 0 a k) s = .next (park .depart s)) ∧
    (canDepart s s.cur = false → exec (.gohome k) s = .next (park .depart s)) ∧
    (canDepart s s.cur = true → Decodes false [a] [] false s →
      (2 ^ 21 ≤ v → exec (.go 0 a k) s = .next (raise 10 (regVal s.me a.toNat) s)) ∧
      (v < 2 ^ 18 → v = s.me.place → exec (.go 0 a k) s = .next (retire k s)) ∧
      (v < 2 ^ 18 → v ≠ s.me.place → LuggageFree s v → Numbered s → meetOf s s.cur = none →
        ∃ t, exec (.go 0 a k) s = .next t ∧ Departed s t v .travel (s.me.pc + 4))) ∧
    (canDepart s s.cur = true →
      (isNative s.me = true → exec (.gohome k) s = .next (retire k s)) ∧
      (isNative s.me = false → LuggageFree s s.me.native → Numbered s → meetOf s s.cur = none →
        ∃ t, exec (.gohome k) s = .next t ∧ Departed s t s.me.native .travel (s.me.pc + 4))) ∧
    (canDepart s s.cur = true → Decodes false [a] [] false s → recLoading s (32 + n.toNat) = false →
      ∀ (va : Word) (pa pol : Nat) (win : Bool), ea s (32 + n.toNat) (regVal s.me a.toNat) 1 = .ok (some va) →
      translate s va true false false = .hit pa pol win →
      (homeOf pa = s.me.place → exec (.goa 0 n a k) s = .next (retire k (used s va))) ∧
      (homeOf pa ≠ s.me.place → s.me.kind = .core → LuggageFree s (homeOf pa) → Numbered s → meetOf s s.cur = none →
        ∃ t, exec (.goa 0 n a k) s = .next t ∧ Departed s t (homeOf pa) .travel (s.me.pc + 4)))

/-- R57, R61: lug declares an offset and a length of at most 4,096 bytes, or withdraws the declaration; where gives the id of
the place and never parks. -/
def Sys2Proof.Claims.LuggageAndPlace : Prop :=
  ∀ (a b d : BitVec 5) (k : BitVec 1) (s : State), isMc s.me.place = false →
    let sa := (regVal s.me a.toNat).toNat
    let sb := (regVal s.me b.toNat).toNat
    (Decodes false [a, b] [] false s →
      (sa < 0x400000 → sb ≤ 4096 → sa + sb ≤ 0x400000 →
        exec (.lug 0 0 b a k) s = .next (retire k (modMe (fun x => { x with lug := if sb = 0 then none else some (sa, sb) }) s))) ∧
      (0x400000 ≤ sa → exec (.lug 0 0 b a k) s = .next (raise 9 (regVal s.me a.toNat) s)) ∧
      (sa < 0x400000 → 4096 < sb → exec (.lug 0 0 b a k) s = .next (raise 9 (regVal s.me b.toNat) s))) ∧
    (s.dec = false → d.toNat < 16 → isHub s.me.place = false →
      exec (.whereIs d k) s = .next (retire k (wr d.toNat (BitVec.ofNat 64 s.me.place) s))) ∧
    (16 ≤ d.toNat → exec (.whereIs d k) s = .next (raise 12 (BitVec.ofNat 64 d.toNat) s))

/-- R55, R57, R58, R60, R61: go, gohome, goa, lug and where.
Model's reading, not the spec's: log 3 (DESIGN CHOICE), log 36 (DESIGN CHOICE). -/
def Obligations.GoingAndLuggage : Prop :=
  Claims.GoingSomewhere ∧ Claims.LuggageAndPlace

namespace Sys2Proof.Claims

noncomputable section

/-- A form of a scalar access: its instruction; its record, base register, offset and size; whether it reads and writes; its source
and destination registers and whether its result may be late; the order and policy that it encodes; whether it runs on cores only. -/
structure AccessForm where
  i : Instr
  n : Nat
  x : BitVec 5
  off : Word
  size : Nat
  r : Bool
  w : Bool
  srcs : List (BitVec 5)
  dsts : List (BitVec 5)
  late : Bool
  o : BitVec 2
  pol : Nat
  core : Bool

/-- The scalar accesses: loads and stores of both forms (R147), atomics (R149), full/empty accesses (R151) and watches (R154). -/
def IsAccess (f : AccessForm) : Prop :=
  (∃ op size sg, (op, size, sg) ∈ loads ∧ ∃ (i n : BitVec 6) (x d : BitVec 5) (k : BitVec 1),
    f = ⟨op i n x d k, n.toNat, x, i.signExtend 64 * BitVec.ofNat 64 size, size, true, false, [x], [d], true, 0, 0, false⟩) ∨
  (∃ op size sg, (op, size, sg) ∈ loadsMx ∧ ∃ (o p : BitVec 2) (n : BitVec 6) (x d : BitVec 5) (k : BitVec 1),
    f = ⟨op o p n x d k, n.toNat, x, 0, size, true, false, [x], [d], true, o, p.toNat, false⟩) ∨
  (∃ op size, (op, size) ∈ stores ∧ ∃ (i n : BitVec 6) (x v : BitVec 5) (k : BitVec 1),
    f = ⟨op i n x v k, n.toNat, x, i.signExtend 64 * BitVec.ofNat 64 size, size, false, true, [x, v], [], false, 0, 0, false⟩) ∨
  (∃ op size, (op, size) ∈ storesMx ∧ ∃ (o p : BitVec 2) (n : BitVec 6) (x v : BitVec 5) (k : BitVec 1),
    f = ⟨op o p n x v k, n.toNat, x, 0, size, false, true, [x, v], [], false, o, p.toNat, false⟩) ∨
  (∃ op g, (op, g) ∈ atomics ∧ ∃ (o : BitVec 2) (n : BitVec 6) (x : BitVec 5) (z : BitVec 1) (d : BitVec 5) (k : BitVec 1),
    f = ⟨op o n x z d k, n.toNat, x, 0, if z = 1 then 8 else 4, true, true, [x, d], [d], true, o, 0, false⟩) ∨
  (∃ (o : BitVec 2) (n : BitVec 6) (x d : BitVec 5) (k : BitVec 1),
    f = ⟨.amoFaddS o n x d k, n.toNat, x, 0, 4, true, true, [x, d], [d], true, o, 0, false⟩) ∨
  (∃ (o : BitVec 2) (n : BitVec 6) (x : BitVec 5) (z : BitVec 1) (d e : BitVec 5) (k : BitVec 1), e.toNat = d.toNat + 1 ∧
    f = ⟨.amoCas o n x z d k, n.toNat, x, 0, if z = 1 then 8 else 4, true, true, [x, d, e], [d], true, o, 0, false⟩) ∨
  (∃ op late, (op, late) ∈ [(Instr.take, true), (Instr.peek, true), (Instr.fequery, false)] ∧
    ∃ (o : BitVec 2) (n : BitVec 6) (x d : BitVec 5) (k : BitVec 1),
    f = ⟨op o n x d k, n.toNat, x, 0, 8, true, true, [x], [d], late, o, 0, true⟩) ∨
  (∃ op, op ∈ [Instr.give, Instr.fill] ∧ ∃ (o : BitVec 2) (n : BitVec 6) (x v : BitVec 5) (k : BitVec 1),
    f = ⟨op o n x v k, n.toNat, x, 0, 8, true, true, [x, v], [], false, o, 0, true⟩) ∨
  (∃ op, op ∈ [Instr.femark, Instr.feclear] ∧ ∃ (o : BitVec 2) (n : BitVec 6) (x : BitVec 5) (k : BitVec 1),
    f = ⟨op o n x k, n.toNat, x, 0, 8, true, true, [x], [], false, o, 0, true⟩) ∨
  (∃ op c, (op, c) ∈ watches ∧ ∃ (o : BitVec 2) (n : BitVec 6) (x v : BitVec 5) (k : BitVec 1),
    f = ⟨op o n x v k, n.toNat, x, 0, 8, true, false, [x, v], [v], false, o, 0, true⟩)

end

end Sys2Proof.Claims

/-- R65: a scalar access whose home is elsewhere (every load, store, atomic, full/empty access and watch) carries its PA there, with
what had been formed before it: the strand departs with the instruction's own PC, to issue it again at the home; while R34 does not
hold it waits with the PA that it will carry; with sr.status.autotravel clear it raises 0x12 with the VA.
Model's reading, not the spec's: log 3 (DESIGN CHOICE), log 20 (DEDUCED). -/
def Obligations.AutomaticTravel : Prop :=
  ∀ (f : AccessForm), IsAccess f → ∀ (s : State) (va : Word) (pa pol : Nat) (win : Bool),
    (f.core = true → isCore s.me.place = true) → Decodes false f.srcs f.dsts f.late s → s.me.vmems = 0 → s.me.carried = none →
    s.me.kind = .core → recLoading s f.n = false → ea s f.n (regVal s.me f.x.toNat + f.off) f.size = .ok (some va) →
    translate s va f.r f.w false = .hit pa pol win → Released s (orderOf s f.o f.n) → homeOf pa ≠ s.me.place →
    let c : Carry := ⟨pa, va, policyOf s pol f.pol f.n, orderOf s f.o f.n, win, f.r, f.w, (coreAt s s.me.place).epoch⟩
    (s.me.status.getLsbD 0 = false → exec f.i s = .next (raise 18 va (used s va))) ∧
    (s.me.status.getLsbD 0 = true → canDepart s s.cur = true → LuggageFree s (homeOf pa) → Numbered s → meetOf s s.cur = none →
      ∃ t, exec f.i s = .next t ∧ Departed s t (homeOf pa) .travel s.me.pc ∧ t.me.carried = some c) ∧
    (s.me.status.getLsbD 0 = true → canDepart s s.cur = false →
      exec f.i s = .next (modMe (fun x => { x with park := some .leave, readyAt := s.now + 8, carried := some c }) (used s va)))

/-- R62, R32, R37: a strand packet that finds its destination's guest slot free takes the first in guest order, sets its
luggage down on the slot's floor block and may issue three cycles later; a strand that returns takes its native slot. The
interface takes one arrival in each cycle.
Model's reading, not the spec's: log 12 (DESIGN CHOICE). -/
def Obligations.StrandArrivals : Prop :=
  ∀ (n : Nat) (p : Packet) (x : Strand) (s : State), s.Inv → tget s.packets n = some p → tget s.strands p.sid = some x →
    x.partner = none → p.trip = .travel → p.win = false → p.k = 0 → (isCore p.dest && migrating s p.dest) = false →
    (coreAt s p.dest).fw = none → arrivalKill p.sid { s with packets := tdel s.packets n } = none →
    (p.taken.isSome = true ∨ (coreAt s p.dest).inFree ≤ s.now) →
    ∀ j, (if p.dest = x.native then j = x.nslot else freeGuest s p.dest p.pref = some j) →
    ∃ t y, exec (.strandArrival n) s = .next t ∧ tget t.packets n = none ∧ tget t.strands p.sid = some y ∧
      y.place = p.dest ∧ y.slot = j ∧ y.away = false ∧ y.arrived = s.now ∧ y.readyAt = s.now + 3 ∧ y.regs = x.regs ∧ y.brought = p.luggage.length ∧
      (∀ i (h : i < p.luggage.length), memGet t.mem (floorAt p.dest j + i) = p.luggage[i]) ∧
      SameOutside s t (floorAt p.dest j) p.luggage.length

/-- R70, R71, R72, R76: a meet at its own core parks and presents its arrival three cycles later; one whose core is elsewhere
travels there. The first party of a key waits in the core's meeting table, with its deadline; with the second the entry pairs, and ten
cycles later both instructions retire with status 1. A full table, a deadline and a partner that was lost decide status 2, 0 or 3, with
which the instruction retires ten cycles later. part leaves a met entry closing. -/
def Sys2Proof.Claims.Meetings : Prop :=
  (∀ (a b d : BitVec 5) (k : BitVec 1) (s : State) (core : Nat), isMc s.me.place = false → canDepart s s.cur = true →
    Decodes false [a, b] [d] false s → meetOf s s.cur = none → core < 2 ^ 18 →
    regVal s.me a.toNat = BitVec.ofNat 64 (2 ^ 62 + core * 2 ^ 40) →
    let m : MeetOp := ⟨d.toNat, regVal s.me a.toNat, (regVal s.me b.toNat).toNat, [], k, none⟩
    (core = s.me.place → ∃ t, exec (.meet 0 0 b a d k) s = .next t ∧ t.me.pc = s.me.pc + 4 ∧ t.me.park = some .meet ∧
      t.me.meetOp = some m ∧ (s.now + 3, Instr.parkWake s.cur) ∈ t.agenda ∧ t.me.regs = s.me.regs ∧ SameMemory s t) ∧
    (core ≠ s.me.place → LuggageFree s core → Numbered s →
      ∃ t, exec (.meet 0 0 b a d k) s = .next t ∧ Departed s t core .meet (s.me.pc + 4) ∧ t.me.meetOp = some m)) ∧
  (∀ (s : State) (id : Nat) (x : Strand) (m : MeetOp), tget s.strands id = some x → x.park = some .meet → x.away = false →
    x.partner = none → x.meetOp = some m → m.decided = none → meetOf s id = none →
    let g := match x.grid with | some g => g | none => 2 ^ 40 + x.owner
    ((coreAt s x.place).meets = [] → ∃ t, exec (.parkWake id) s = .next t ∧
      (coreAt t x.place).meets =
        [⟨s.fresh, g, m.key, .waiting, some id, none, if m.timeout = 0 then none else some (s.now + m.timeout)⟩] ∧
      (m.timeout ≠ 0 → (s.now + m.timeout, Instr.meetingExpiry x.place s.fresh) ∈ t.agenda) ∧ t.strands = s.strands ∧ t.mem = s.mem) ∧
    (∀ e, (coreAt s x.place).meets = [e] → e.group = g → e.key = m.key → e.st = .waiting → ∃ t, exec (.parkWake id) s = .next t ∧
      (coreAt t x.place).meets = [{ e with st := .pairing, b := some id, deadline := none }] ∧
      (s.now + 10, Instr.meetingPaired x.place e.id) ∈ t.agenda ∧ t.strands = s.strands ∧ t.mem = s.mem) ∧
    (∀ e, (coreAt s x.place).meets = [e] → e.group = g → e.key = m.key → e.st = .lost → ∃ t, exec (.parkWake id) s = .next t ∧
      (coreAt t x.place).meets = [] ∧ (strandAt t id).meetOp = some { m with decided := some 3 } ∧
      (s.now + 10, Instr.parkWake id) ∈ t.agenda) ∧
    (16 ≤ (coreAt s x.place).meets.length → (∀ e ∈ (coreAt s x.place).meets, e.group ≠ g ∨ e.key ≠ m.key) →
      ∃ t, exec (.parkWake id) s = .next t ∧ (coreAt t x.place).meets = (coreAt s x.place).meets ∧
        (strandAt t id).meetOp = some { m with decided := some 2 } ∧ (s.now + 10, Instr.parkWake id) ∈ t.agenda)) ∧
  (∀ (s : State) (id v : Nat) (x : Strand) (m : MeetOp), tget s.strands id = some x → x.park = some .meet → x.away = false →
    x.partner = none → x.meetOp = some m → m.decided = some v → m.k = 0 → m.drop = [] → 0 < m.sd → m.sd < 16 →
    ∃ t, exec (.parkWake id) s = .next t ∧ regVal (strandAt t id) m.sd = BitVec.ofNat 64 v ∧ (strandAt t id).park = none ∧
      (strandAt t id).meetOp = none ∧ (strandAt t id).readyAt = max x.readyAt (s.now + 2)) ∧
  (∀ (s : State) (place n i j : Nat) (e : MeetEntry) (mi mj : MeetOp),
    (coreAt s place).meets = [e] → e.id = n → e.st = .pairing → e.a = some i → e.b = some j → i ≠ j →
    (strandAt s i).meetOp = some mi → (strandAt s j).meetOp = some mj → (strandAt s i).partner = none →
    (strandAt s j).partner = none → mi.k = 0 → mj.k = 0 → mi.drop = [] → mj.drop = [] → 0 < mi.sd → mi.sd < 16 →
    0 < mj.sd → mj.sd < 16 →
    ∃ t, exec (.meetingPaired place n) s = .next t ∧ (coreAt t place).meets = [{ e with st := .met }] ∧
      regVal (strandAt t i) mi.sd = 1 ∧ regVal (strandAt t j) mj.sd = 1 ∧ (strandAt t i).park = none ∧
      (strandAt t j).park = none ∧ (strandAt t i).readyAt = max (strandAt s i).readyAt (s.now + 2) ∧
      (strandAt t j).readyAt = max (strandAt s j).readyAt (s.now + 2)) ∧
  (∀ (s : State) (place n i : Nat) (e : MeetEntry) (m : MeetOp), (coreAt s place).meets = [e] → e.id = n → e.st = .waiting →
    e.a = some i → (strandAt s i).meetOp = some m → (strandAt s i).partner = none → s.agenda = [] →
    ∃ t, exec (.meetingExpiry place n) s = .next t ∧ (coreAt t place).meets = [] ∧
      (strandAt t i).meetOp = some { m with decided := some 0 } ∧ (s.now + 10, Instr.parkWake i) ∈ t.agenda) ∧
  (∀ (k : BitVec 1) (s : State) (e : MeetEntry), isMc s.me.place = false → meetOf s s.cur = some e → e.st = .met →
    (coreAt s s.me.place).meets = [e] → (coreAt s s.me.place).reads = [] →
    ∃ t, exec (.part_ k) s = .next t ∧ t.me.pc = s.me.pc + 4 ∧
      (coreAt t s.me.place).meets = [{ e with st := .closing, a := otherOf e s.cur, b := none }] ∧ Kept s t [] ∧ SameMemory s t)

/-- R73, R74, R75: while a meeting is met, pget reads the partner's register, or has its result pending where that is not full; pput
writes it, full or emptied; pxch exchanges, plug reads what the partner brought and its floor block. pput of a register that awaits a
result or is symbolic, pxch of one that is not full, and each of the four without a met meeting raise 0x0B with the word. -/
def Sys2Proof.Claims.PartnerRegisters : Prop :=
  ∀ (a p d : BitVec 5) (k : BitVec 1) (s : State), isMc s.me.place = false →
    (∀ o, partnerOf s s.cur = some o → o ≠ s.cur → (strandAt s o).partner = none → p.toNat < 16 →
      (Decodes false [] [d] true s → isFull (strandAt s o) p.toNat = true →
        exec (.pget p d k) s = .next (retire k (wr d.toNat (regVal (strandAt s o) p.toNat) s))) ∧
      (Decodes false [] [d] true s → isFull (strandAt s o) p.toNat = false →
        ∃ t, exec (.pget p d k) s = .next t ∧ t.me.pc = s.me.pc + 4 ∧ (d ≠ 0 → awaits t.me d.toNat = true) ∧
          t.me.late = s.me.late ++ [⟨s.fresh, d.toNat, 5, s.me.pc, s.me.pc, false, none⟩] ∧
          (coreAt t s.me.place).reads = (coreAt s s.me.place).reads ++ [⟨s.cur, s.fresh, o, p.toNat⟩] ∧
          Kept s t [d.toNat] ∧ SameMemory s t) ∧
      (Decodes false [a] [] false s → awaits (strandAt s o) p.toNat = false → symbolic (strandAt s o) p.toNat = false →
        ∃ t, exec (.pput 0 a p k) s = .next t ∧ t.me.pc = s.me.pc + 4 ∧
          (p ≠ 0 → regVal (strandAt t o) p.toNat = regVal s.me a.toNat ∧ regSt (strandAt t o) p.toNat = .full) ∧
          t.me.regs = s.me.regs ∧
          (∀ r, r ≠ p.toNat → regVal (strandAt t o) r = regVal (strandAt s o) r) ∧ SameMemory s t) ∧
      (Decodes false [a] [] false s → awaits (strandAt s o) p.toNat = true ∨ symbolic (strandAt s o) p.toNat = true →
        exec (.pput 0 a p k) s = .next (raise 11 (wordOf (.pput 0 a p k)) s)) ∧
      (Decodes false [d] [d] false s → isFull (strandAt s o) p.toNat = false →
        exec (.pxch p d k) s = .next (raise 11 (wordOf (.pxch p d k)) s)) ∧
      (Decodes false [d] [d] false s → isFull (strandAt s o) p.toNat = true →
        ∃ t, exec (.pxch p d k) s = .next t ∧ t.me.pc = s.me.pc + 4 ∧
          (p ≠ 0 → regVal (strandAt t o) p.toNat = regVal s.me d.toNat) ∧
          (d ≠ 0 → regVal t.me d.toNat = regVal (strandAt s o) p.toNat) ∧
          (∀ r, r ≠ d.toNat → regVal t.me r = regVal s.me r) ∧ SameMemory s t) ∧
      (Decodes false [] [d] false s →
        exec (.plug d k) s = .next (retire k (wr d.toNat
          (BitVec.ofNat 64 ((strandAt s o).brought % 8192 * 4194304 + 0x3C0000 + 4096 * (strandAt s o).slot)) s)))) ∧
    (partnerOf s s.cur = none →
      (Decodes false [] [d] true s → exec (.pget p d k) s = .next (raise 11 (wordOf (.pget p d k)) s)) ∧
      (Decodes false [a] [] false s → exec (.pput 0 a p k) s = .next (raise 11 (wordOf (.pput 0 a p k)) s)) ∧
      (Decodes false [d] [d] false s → exec (.pxch p d k) s = .next (raise 11 (wordOf (.pxch p d k)) s)) ∧
      (Decodes false [] [d] false s → exec (.plug d k) s = .next (raise 11 (wordOf (.plug d k)) s)))

/-- R117 to R120: symq gives 0 for a full register and, for a register over a symbol, its table entry with the chain's length
in bits [15:13]; symtag gives the origin of an awaited result, 0 for a full register; symw retires at once on a register that
awaits nothing and holds no symbol, else it parks, on a symbol as on a plain result. -/
def Sys2Proof.Claims.SymbolInspection : Prop :=
  ∀ (x d : BitVec 5) (k : BitVec 1) (s : State), x.toNat < 16 →
    (Decodes false [] [d] false s → regSt s.me x.toNat = .full →
      exec (.symq x d k) s = .next (retire k (wr d.toNat 0 s)) ∧ exec (.symtag x d k) s = .next (retire k (wr d.toNat 0 s))) ∧
    (Decodes false [] [d] false s → ∀ e y v, regSt s.me x.toNat = .sym e v → e < 32 →
      tget (scAt s s.me.place (s.me.slot / 8)).syms e = some y → y.steps.length ≤ 4 →
      ∃ w : Word, exec (.symq x d k) s = .next (retire k (wr d.toNat w s)) ∧ w.extractLsb' 5 5 = BitVec.ofNat 5 e ∧
        w.extractLsb' 13 3 = BitVec.ofNat 3 y.steps.length ∧ w.getLsbD 1 = true ∧ w.getLsbD 0 = (y.value.isSome || returnsAtDecode s y.tag) ∧
        w.extractLsb' 32 32 = BitVec.ofNat 32 (min (s.now + 1 - y.born) 0xFFFFFFFF)) ∧
    (Decodes false [] [d] false s → ∀ g l, regSt s.me x.toNat = .await g → s.me.late.find? (fun l => decide (l.tag = g)) = some l →
      exec (.symtag x d k) s = .next (retire k (wr d.toNat (BitVec.ofNat 64 (l.pc.toNat / 4 % 2 ^ 54 * 1024 + l.src)) s))) ∧
    (symbolic s.me x.toNat = false → awaits s.me x.toNat = false → exec (.symw x k) s = .next (retire k s)) ∧
    (symbolic s.me x.toNat = true ∨ awaits s.me x.toNat = true → exec (.symw x k) s = .next (park (.symw x.toNat k) s))

/-- R70 to R76, R117 to R120: meetings, the partner's registers, and the inspection of symbols.
Model's reading, not the spec's: log 4 (DESIGN CHOICE), log 9 (DESIGN CHOICE), log 36 (DESIGN CHOICE). -/
def Obligations.MeetingsAndSymbols : Prop :=
  Claims.Meetings ∧ Claims.PartnerRegisters ∧ Claims.SymbolInspection

/-! ### What reaches a core by itself -/

namespace Sys2Proof.Claims

noncomputable section

/-- The strand stands in its slot, where the result or acknowledgement comes to. -/
def StandsAt (s : State) (id place : Nat) (x : Strand) : Prop :=
  tget s.strands id = some x ∧ x.away = false ∧ x.place = place ∧ x.partner = none

end

end Sys2Proof.Claims

/-- R26, R30, R34: a tagged result fills the register that awaits it and is no longer outstanding; one that finds its strand
elsewhere is forwarded, and applied when it gets there. -/
def Sys2Proof.Claims.LateResults : Prop :=
  ∀ (s : State) (id place : Nat) (x : Strand) (l : Late) (v : LateValue),
    x.late = [l] → l.tag = v.tag → l.record = none → l.fadd = false → regSt x l.reg = .await v.tag → 0 < l.reg → l.reg < 16 →
    v.poison = false → tget s.strands id = some x → x.partner = none →
    (x.away = false → x.place = place →
      ∃ t y, exec (.lateResultReturn place id v) s = .next t ∧ tget t.strands id = some y ∧ regVal y l.reg = v.value ∧
        regSt y l.reg = .full ∧ y.late = [] ∧ y.pc = x.pc ∧ (∀ r, r ≠ l.reg → regVal y r = regVal x r) ∧ SameMemory s t) ∧
    (x.away = true ∨ x.place ≠ place →
      ∃ t, exec (.lateResultReturn place id v) s = .next t ∧ t.strands = s.strands ∧
        (s.now + travelTime s place x.native 0, Instr.forwardedResult id (.result v)) ∈ t.agenda) ∧
    (∃ t y, exec (.forwardedResult id (.result v)) s = .next t ∧ tget t.strands id = some y ∧ regVal y l.reg = v.value ∧
      regSt y l.reg = .full ∧ y.late = [] ∧ SameMemory s t)

/-- R144, R145: a store's acknowledgement takes one from the posted stores of its strand, forwarded or not; the acceptance of
a store that bypasses the slice leaves its bytes in memory and sends the acknowledgement four cycles later. -/
def Sys2Proof.Claims.PostedStores : Prop :=
  (∀ (s : State) (id place home : Nat) (x : Strand), place < 2 ^ 20 → StandsAt s id place x →
    ∃ t, exec (.storeAck (ackFrom home place) id) s = .next t ∧ tget t.strands id = some { x with posted := x.posted - 1 } ∧
      t.mem = s.mem ∧ (∀ j, j ≠ id → tget t.strands j = tget s.strands j)) ∧
  (∀ (s : State) (id : Nat) (x : Strand), tget s.strands id = some x →
    ∃ t, exec (.forwardedResult id .ack) s = .next t ∧ tget t.strands id = some { x with posted := x.posted - 1 }) ∧
  (∀ (s : State) (p : PStore), s.Inv → s.stores = [p] → p.policy = 2 → p.bad = [] → 0 < p.bytes.length →
    p.pa % 32 + p.bytes.length ≤ 32 → sliceAt s (clusterOf (homeOf p.pa)) = Slice.reset →
    ∃ t, exec (.storeAccepted p.id) s = .next t ∧ t.stores = [] ∧
      (∀ i (h : i < p.bytes.length), memGet t.mem (p.pa + i) = p.bytes[i]) ∧ SameOutside s t p.pa p.bytes.length ∧
      (s.now + 4, Instr.storeAck (ackFrom (homeOf p.pa) p.place) p.sid) ∈ t.agenda ∧ t.strands = s.strands)

/-- R26, R34, R144, R145: late results and posted stores.
Model's reading, not the spec's: log 56 (DESIGN CHOICE). -/
def Obligations.ResultsAndStores : Prop :=
  Claims.LateResults ∧ Claims.PostedStores

/-- R113, R114: when a symbol resolves, every register over it takes its expression's value and is full, and its entry is free, or
stays until the writeback of the last instruction that folds over it. -/
def Sys2Proof.Claims.SymbolResolution : Prop :=
  ∀ (s : State) (place sc e : Nat) (y : SymEntry) (v : Word) (x : Strand), sc < 4 →
    tget (scAt s place sc).syms e = some y → y.value = some v → y.steps = [] → y.ends ≤ s.now →
    tget s.strands y.sid = some x →
    ∃ t z, exec (.symbolResolution place sc e) s = .next t ∧ tget t.strands y.sid = some z ∧
      (∀ r p q, 0 < r → r < 16 → regSt x r = .sym e (.affine p q) → regSt z r = .full ∧ regVal z r = p * v + q) ∧
      (∀ r, 0 < r → r < 16 → regSt x r = .sym e .tagged → regSt z r = .full ∧ regVal z r = v) ∧
      (∀ r, r < 16 → regSt x r = .full → regSt z r = .full ∧ regVal z r = regVal x r) ∧
      (scAt t place sc).syms = (if y.held ≤ s.now then tdel (scAt s place sc).syms e else tput (scAt s place sc).syms e y) ∧ z.pc = x.pc ∧ z.fcsr = x.fcsr ∧ SameMemory s t

/-- R29, R31, R332: a strand parked for registers wakes, two cycles before it may issue, once one of them is full, and stays
parked while none is; a strand parked by its park bit wakes when it is settled; one inside an exit ends when it is settled, and one
inside a take has its word when the head slot is ready; one inside a release fence retires when its counts are zero, off its native core
when the report of it has come (R158); promotion marks the strand. -/
def Sys2Proof.Claims.Waking : Prop :=
  ∀ (s : State) (id : Nat) (x : Strand), tget s.strands id = some x →
    (∀ rs, x.park = some (.regs rs) →
      ((∃ r ∈ rs, regSt x r = .full) → exec (.parkWake id) s = .next (modStrand id (fun x => { x with park := none, readyAt := max x.readyAt (s.now + 2) }) s)) ∧
      ((∀ r ∈ rs, regSt x r ≠ .full) → exec (.parkWake id) s = .next s)) ∧
    (x.park = some .kbit → (settled s id = true → exec (.parkWake id) s =
        .next (modStrand id (fun x => { x with park := none, readyAt := max x.readyAt (s.now + 2) }) s)) ∧
      (settled s id = false → exec (.parkWake id) s = .next s)) ∧
    (x.park = some .exits → x.partner = none → x.kind = .core → (settled s id = true → ∃ t y, exec (.parkWake id) s = .next t ∧
        tget t.strands id = some y ∧ y.run = .idle ∧ y.place = x.native ∧ y.slot = x.nslot ∧ t.mem = s.mem) ∧
      (settled s id = false → exec (.parkWake id) s = .next s)) ∧
    (∀ h d k, x.park = some (.ringTake h d none k) → x.partner = none → k = 0 → d < 16 → 0 < ringRun s x.place (hdrAt s x.place h) →
      ∃ t y, exec (.parkWake id) s = .next t ∧ tget t.strands id = some y ∧ y.pc = x.pc + 4 ∧ y.park = none ∧
        y.readyAt = max x.readyAt (s.now + 2) ∧ (d ≠ 0 → regVal y d = takeWord s x.place h) ∧ t.mem = s.mem) ∧
    (∀ scope k, x.park = some (.fence 1 scope k) → fenceHolds s id 1 scope = true → isNative x = false →
      exec (.parkWake id) s = .next (modStrand id (fun x => { x with
        park := some (.report 1 k (s.now + s.lag + leg s x.native x.place)) }) s)) ∧
    (∀ scope k at_, (x.park = some (.fence 1 scope k) ∧ fenceHolds s id 1 scope = true ∧ isNative x = true) ∨
      (x.park = some (.report 1 k at_) ∧ at_ ≤ s.now) → k = 0 →
      ∃ t y, exec (.parkWake id) s = .next t ∧ tget t.strands id = some y ∧ y.pc = x.pc + 4 ∧ y.park = none ∧
        y.readyAt = max x.readyAt (s.now + 2) ∧ y.regs = x.regs) ∧
    (∃ t, exec (.strandPromotion id) s = .next t ∧ tget t.strands id = some { x with promoted := true })

/-- R29, R31, R113, R332: symbols resolve, parked strands wake. -/
def Obligations.SymbolsAndWaking : Prop :=
  Claims.SymbolResolution ∧ Claims.Waking

/-- R33: a guest that is evicted leaves without luggage for its native slot, whose core takes it three cycles before it may
issue there, or for the first pod link on its way; home again, sr.status.evicted is set. -/
def Sys2Proof.Claims.Evictions : Prop :=
  (∀ (s : State) (id : Nat) (x : Strand), tget s.strands id = some x → x.away = false → isNative x = false → x.partner = none →
    x.park = none → meetOf s id = none → tget s.packets s.fresh = none →
    ∃ t y n p, exec (.guestEviction id) s = .next t ∧ tget t.strands id = some y ∧ y.away = true ∧ y.lug = none ∧ y.regs = x.regs ∧
      y.pc = x.pc ∧ tget t.packets n = some p ∧ p.sid = id ∧ p.src = x.place ∧ p.dest = x.native ∧ p.trip = .evicted ∧
      p.luggage = [] ∧ SameMemory s t ∧
      (moduleOf x.place = moduleOf x.native → (s.now + (travelTime s x.place x.native 0 - 3), Instr.evictionReturn n) ∈ t.agenda) ∧
      (moduleOf x.place ≠ moduleOf x.native → ∀ h l, hopsOf s x.place x.native = h :: l →
        (s.now + linkTime x.place, Instr.podFrameReceive h.from_ h.port n true) ∈ t.agenda ∧
        ∃ f, tget t.frames n = some f ∧ f.hop = h ∧ f.back = true ∧ f.what = .evictionReturn n)) ∧
  (∀ (s : State) (n : Nat) (p : Packet) (x : Strand), tget s.packets n = some p → tget s.strands p.sid = some x →
    p.trip = .evicted → p.dest = x.native → x.partner = none → x.meetOp = none → p.k = 0 → (p.taken.isSome = true ∨ (coreAt s p.dest).inFree ≤ s.now) → (isCore p.dest && migrating s p.dest) = false →
    (coreAt s p.dest).fw = none → arrivalKill p.sid { s with packets := tdel s.packets n } = none →
    ∃ t y, exec (.evictionReturn n) s = .next t ∧ tget t.packets n = none ∧ tget t.strands p.sid = some y ∧ y.place = x.native ∧
      y.slot = x.nslot ∧ y.away = false ∧ y.status = x.status ||| 4 ∧ y.regs = x.regs ∧ SameMemory s t)

/-- R67: a packet that may not pass a boundary turns round where it stopped, within its module or at the hub of a link, without its luggage, and its strand takes 0x0A in its native slot
with the destination in sr.tval. -/
def Sys2Proof.Claims.BoundaryStops : Prop :=
  (∀ (s : State) (n : Nat) (p : Packet) (x : Strand), tget s.packets n = some p → tget s.strands p.sid = some x →
    x.partner = none → p.trip = .travel → x.carried = none →
    ∃ t q m, exec (.boundaryStop n) s = .next t ∧ tget t.packets m = some q ∧ q.sid = p.sid ∧ q.dest = x.native ∧ q.luggage = [] ∧
      q.trip = .stopped p.dest (x.pc - 4) ∧ SameMemory s t ∧
      q.src = (match tget s.frames n with | some f => hubOf f.hop.from_ | none => p.src) ∧
      (moduleOf q.src = moduleOf x.native → (s.now + (travelTime s q.src x.native 0 - 3), Instr.stoppedReturn m) ∈ t.agenda)) ∧
  (∀ (s : State) (n : Nat) (p : Packet) (x : Strand) (dest g : Nat) (epc : Word) (q : Grid), tget s.packets n = some p →
    tget s.strands p.sid = some x → p.trip = .stopped dest epc → p.dest = x.native → x.partner = none → x.kind = .core → p.k = 0 →
    (p.taken.isSome = true ∨ (coreAt s p.dest).inFree ≤ s.now) →
    (isCore p.dest && migrating s p.dest) = false → (coreAt s p.dest).fw = none →
    arrivalKill p.sid { s with packets := tdel s.packets n } = none → x.grid = some g → tget s.grids g = some q →
    q.tvec ≠ 0 → q.tdeleg.getLsbD 10 = false →
    ∃ t y, exec (.stoppedReturn n) s = .next t ∧ tget t.packets n = none ∧ tget t.strands p.sid = some y ∧ y.place = x.native ∧
      y.slot = x.nslot ∧ y.cause = 10 ∧ y.epc = epc ∧ y.tval = BitVec.ofNat 64 dest ∧ y.pc = q.tvec &&& ~~~3 ∧ SameMemory s t)

/-- R33, R67, R336: evicted guests, and packets that stop at a boundary.
Model's reading, not the spec's: log 12 (DESIGN CHOICE), log 25 (DESIGN CHOICE), log 26 (DEDUCED). -/
def Obligations.EvictionsAndBoundaries : Prop :=
  Claims.Evictions ∧ Claims.BoundaryStops

/-- R171, R172, R173: a fill that finds room makes its line present with the sectors asked for, dirty in the bytes merged
while it was pending; a write-back leaves its dirty bytes, and no others, in memory; each cycle's tokens never take a bucket
past its depth.
Model's reading, not the spec's: log 24 (DESIGN CHOICE). -/
def Obligations.SliceEvents : Prop :=
  (∀ (s : State) (cl line : Nat) (e : Miss), (sliceAt s cl).miss = [e] → e.line = line → e.due ≤ s.now → (sliceAt s cl).wb = [] →
    (sliceAt s cl).lines = [] →
    ∃ t l, exec (.vaultFillReturn cl line) s = .next t ∧ (sliceAt t cl).miss = [] ∧ (sliceAt t cl).lines = [l] ∧ l.line = line ∧
      l.valid = sectorBytes e.sectors ∧ l.dirty = e.wmask ∧ l.streaming = e.streaming ∧ SameMemory s t) ∧
  (∀ (s : State) (cl : Nat) (l : SLine) (w : List SLine), s.Inv → (sliceAt s cl).wb = l :: w →
    ∃ t, exec (.writeBackDrain cl) s = .next t ∧ (sliceAt t cl).wb = w ∧
      (∀ i, i < 128 → memGet t.mem (l.line * 128 + i) = if l.dirty.getLsbD i then lineByte l.data i else memGet s.mem (l.line * 128 + i)) ∧
      SameOutside s t (l.line * 128) 128) ∧
  (∀ (s : State) (cl : Nat), (sliceAt s cl).waits = [] →
    ∃ t, exec (.tokenAccrual cl) s = .next t ∧ ∀ i (h : i < 16),
      (sliceAt t cl).buckets[i].level = (if ((sliceAt s cl).buckets[i].depth : Int) ≤ (sliceAt s cl).buckets[i].level
        then (sliceAt s cl).buckets[i].level
        else min ((sliceAt s cl).buckets[i].depth : Int) ((sliceAt s cl).buckets[i].level +
          (((sliceAt s cl).buckets[i].part + (s.now + s.lag - (sliceAt s cl).ticked) * (sliceAt s cl).buckets[i].rate) / 256 : Nat))))

/-- R134, R135: a walk reads the entry of its level. A leaf goes into the cluster's cache and a waiter's core cache; an entry
that names a table leads to that table's level; a bad one leaves cause 0x05 for the waiter's own VA. A fill brings the cluster's entry into a core's cache of 512.
Model's reading, not the spec's: log 22 (DESIGN CHOICE), log 50 (DEDUCED). -/
def Obligations.Translation : Prop :=
  (∀ (s : State) (cl i e n : Nat) (w : Walk) (x : Strand), (sliceAt s cl).walks = [w] → w.stale = false → w.waiters = [i] →
    i < 2 ^ 40 → tget s.strands i = some x → x.away = false →
    (walkEntry w.level (leNat (sliceRead s (entryAt w.table w.va w.level) 8)) = .leaf e n →
      ∃ t, exec (.tableWalkComplete cl w.id) s = .next t ∧ (sliceAt t cl).walks = [] ∧
        (sliceAt t cl).tlb.head? = some ⟨w.asn, w.va / 2 ^ n, n, BitVec.ofNat 64 e⟩ ∧
        (coreAt t x.place).tlb.head? = some ⟨w.asn, w.va / 2 ^ n, n, BitVec.ofNat 64 e⟩ ∧ SameMemory s t) ∧
    (∀ a, walkEntry w.level (leNat (sliceRead s (entryAt w.table w.va w.level) 8)) = .table a →
      ∃ t d, exec (.tableWalkComplete cl w.id) s = .next t ∧ (sliceAt t cl).walks = [{ w with level := w.level - 1, table := a }] ∧
        (s.now + d, Instr.tableWalkComplete cl w.id) ∈ t.agenda ∧ t.strands = s.strands ∧ SameMemory s t) ∧
    (∀ va, walkEntry w.level (leNat (sliceRead s (entryAt w.table w.va w.level) 8)) = .bad → x.park = some (.translation va) →
      ∃ t, exec (.tableWalkComplete cl w.id) s = .next t ∧ (sliceAt t cl).walks = [] ∧
        tget t.strands i = some { x with walkFault := some (5, BitVec.ofNat 64 va) } ∧ SameMemory s t)) ∧
  (∀ (s : State) (place asn va : Nat) (e : TlbEntry), tlbFind (sliceAt s (tlbCluster place)).tlb asn va = some e →
    ∃ t, exec (.translationFill place asn va) s = .next t ∧ (coreAt t place).tlb.head? = some e ∧
      (coreAt t place).tlb.length ≤ 512 ∧ t.strands = s.strands ∧ SameMemory s t)

/-- R331, R361, R417: a notice for q11 enters the queue while it has fewer than 64 entries, else it stays with its sender and
comes again after 256 cycles; one for q9 enters the core's queue of 32 under its block, a Caller's under none. -/
def Obligations.Notices : Prop :=
  (∀ (s : State) (n : Notice), n.q = 11 → n.sc < 4 → n.word.getLsbD 0 = true →
    ((scAt s n.place n.sc).q11.length < 64 →
      ∃ t, exec (.noticeArrival n) s = .next t ∧ (scAt t n.place n.sc).q11 = (scAt s n.place n.sc).q11 ++ [n.word] ∧ t.strands = s.strands) ∧
    (64 ≤ (scAt s n.place n.sc).q11.length →
      ∃ t, exec (.noticeArrival n) s = .next t ∧ (scAt t n.place n.sc).q11 = (scAt s n.place n.sc).q11 ∧
        tget (hubAt t (moduleOf n.place)).heldNotices s.fresh = some n ∧ (s.now + 256, Instr.noticeReoffer s.fresh) ∈ t.agenda)) ∧
  (∀ (s : State) (n : Notice), n.q = 9 → isHub n.place = true → (coreAt s n.place).q9.length < 32 →
    ∃ t, exec (.noticeArrival n) s = .next t ∧ (coreAt t n.place).q9 = (coreAt s n.place).q9 ++ [(n.word, 0)] ∧ t.strands = s.strands) ∧
  (∀ (s : State) (n : Notice) (b : Block), n.q = 9 → isHub n.place = false → tget s.blocks n.block = some b → b.st ≠ .ended → (coreAt s n.place).fw = none →
    (coreAt s n.place).q9.length < 32 →
    ∃ t, exec (.noticeArrival n) s = .next t ∧ (coreAt t n.place).q9 = (coreAt s n.place).q9 ++ [(n.word, n.block)] ∧
      t.strands = s.strands) ∧
  (∀ (s : State) (id m : Nat) (n : Notice), n.sc < 4 → heldAtHub s id = some (m, n) → (scAt s n.place n.sc).q11.length < 64 →
    ∃ t, exec (.noticeReoffer id) s = .next t ∧ (scAt t n.place n.sc).q11 = (scAt s n.place n.sc).q11 ++ [n.word] ∧
      (hubAt t m).heldNotices = tdel (hubAt s m).heldNotices id)

namespace Sys2Proof.Claims

noncomputable section

/-- The machine with one entry more of the core's log played. -/
def onePlayed (core : Nat) (s : State) : State := modCore core (fun k => { k with played := k.played + 1 }) s

/-- The core replays, and a is the next entry of its log, before r. -/
def Playing (s : State) (core : Nat) (a : Arrival) (r : List Arrival) : Prop :=
  replaying s core = true ∧ ((tget s.arrivals core).getD []).drop (coreAt s core).played = a :: r

/-- Entry a of core's log has been played: the log is as it was, and the next entry is set for its own cycle. -/
def Played (s t : State) (core : Nat) (a : Arrival) (r : List Arrival) : Prop :=
  (coreAt t core).played = (coreAt s core).played + 1 ∧ tget t.arrivals core = tget s.arrivals core ∧
  ∀ b ∈ r.head?, (s.now + (b.cycle - a.cycle), Instr.replayDelivery core) ∈ t.agenda

/-- The replay of entry a does from w what event e does there, but for events that would bring something to another place; the next entry is set for
its own cycle. -/
def PlaysAs (s : State) (core : Nat) (a : Arrival) (r : List Arrival) (e : Instr) (w : State) : Prop :=
  ∃ t u, exec (.replayDelivery core) s = .next t ∧ exec e w = .next u ∧ t = { u with agenda := t.agenda } ∧
    (∀ b ∈ r.head?, (u.now + (b.cycle - a.cycle), Instr.replayDelivery core) ∈ t.agenda) ∧
    ∀ v, v.2 ≠ .replayDelivery core → (v ∈ t.agenda ↔ v ∈ u.agenda ∧ (v ∈ s.agenda ∨ staysAt core v.2 = true))

/-- The strand and the packet of an entry are there again, under a new name. -/
def withPacket (core : Nat) (x : Strand) (p : Packet) (s : State) : State :=
  let w := onePlayed core s
  { w with strands := tput w.strands p.sid x, packets := tput w.packets w.fresh p, fresh := w.fresh + 1 }

/-- The piece and the operation of an entry are there again, under new names. -/
def withPiece (core : Nat) (p : Piece) (o : Op) (s : State) : State :=
  let w := onePlayed core s
  { w with pieces := tput w.pieces w.fresh { p with op := w.fresh + 1, mates := [] }, ops := tput w.ops (w.fresh + 1) o, fresh := w.fresh + 2 }

end

end Sys2Proof.Claims

/-- R381: in a replay the next entry of a core's log comes again, and the one after it is set for its own cycle: strand packets, pieces, an
engine's report, results, acknowledgements, notices, kills, a dispatcher's block start, host writes, barrier releases and removal orders;
what would reach another place is discarded. After the last entry, and for a core that does not replay, nothing comes.
Model's reading, not the spec's: log 17 (DESIGN CHOICE), log 53 (DESIGN CHOICE). -/
def Obligations.Replay : Prop :=
  (∀ (s : State) (core : Nat), replaying s core = false → exec (.replayDelivery core) s = .next s) ∧
  (∀ (s : State) (core : Nat), ((tget s.arrivals core).getD []).drop (coreAt s core).played = [] → exec (.replayDelivery core) s = .next s) ∧
  (∀ (s : State) (core : Nat) (a : Arrival) (r : List Arrival), Playing s core a r →
    (∀ p id x, a.event = .storeAck p id → StandsAt s id (ackPlace p) x →
      ∃ t, exec (.replayDelivery core) s = .next t ∧ Played s t core a r ∧
        tget t.strands id = some { x with posted := x.posted - 1 } ∧ t.mem = s.mem) ∧
    (∀ place id v x l, a.event = .lateResultReturn place id v → StandsAt s id place x → x.late = [l] → l.reg = a.reg → l.record = none →
      l.fadd = false → v.poison = false → regSt x l.reg = .await l.tag → 0 < l.reg → l.reg < 16 →
      ∃ t y, exec (.replayDelivery core) s = .next t ∧ Played s t core a r ∧ tget t.strands id = some y ∧ regVal y l.reg = v.value ∧
        regSt y l.reg = .full ∧ y.late = [] ∧ y.pc = x.pc ∧ t.mem = s.mem) ∧
    (∀ g cl o i x b q, a.event = .blockStart g cl → a.order = some o → o.strands = [(i, x)] → o.blocks = [(b, q)] →
      ∃ t, exec (.replayDelivery core) s = .next t ∧ Played s t core a r ∧
        tget t.strands i = some { x with readyAt := s.now + 16, lastIssue := s.now + 16 } ∧ tget t.blocks b = some q ∧
        (coreAt t core).ports = (coreAt s core).ports ++ o.ports) ∧
    (∀ m h off, s.Inv → a.event = .hostWriteAck m → a.write = some h → space s h.pa = .pad core off →
      ∃ t, exec (.replayDelivery core) s = .next t ∧ Played s t core a r ∧
        (∀ i (k : i < h.bytes.length), memGet t.mem (h.pa + i) = h.bytes[i]) ∧ SameOutside s t h.pa h.bytes.length) ∧
    (∀ n i x, a.event = .barrierRelease n → a.members = [2 * i] → tget s.strands i = some x →
      ∃ t, exec (.replayDelivery core) s = .next t ∧ Played s t core a r ∧
        tget t.strands i = some { x with park := none, readyAt := max x.readyAt (s.now + 2) } ∧ t.mem = s.mem) ∧
    (∀ g i o, a.event = .contextRemovalStepEnd g → a.reg = 3 → s.ops = [(i, o)] → s.pieces = [] →
      ∃ t, exec (.replayDelivery core) s = .next t ∧ Played s t core a r ∧ t.mem = s.mem ∧
        (o.grid = some g → o.place = core → t.ops = [(i, { o with stopped := true, next := o.len })]) ∧ (o.place ≠ core → t.ops = s.ops)) ∧
    (∀ n, a.event = .noticeArrival n → PlaysAs s core a r (.noticeArrival n) (onePlayed core s)) ∧
    (∀ i c x, a.event = .strandKill i c → tget s.strands i = some x → x.away = false → PlaysAs s core a r (.strandKill i c) (onePlayed core s)) ∧
    (∀ n x p, a.strand = some x → a.packet = some p →
      (a.event = .strandArrival n → PlaysAs s core a r (.strandArrival s.fresh) (withPacket core x p s)) ∧
      (a.event = .evictionReturn n → PlaysAs s core a r (.evictionReturn s.fresh) (withPacket core x p s)) ∧
      (a.event = .stoppedReturn n → PlaysAs s core a r (.stoppedReturn s.fresh) (withPacket core x p s))) ∧
    (∀ n p o, a.piece = some p → a.op = some o →
      (a.event = .courierPickUp n → fwdPa (withPiece core p o s) p.src = p.src →
        PlaysAs s core a r (.courierPickUp s.fresh) (withPiece core p o s)) ∧
      (a.event = .courierSetDown n → fwdPa (withPiece core p o s) p.dst = p.dst →
        PlaysAs s core a r (.courierSetDown s.fresh) (withPiece core p o s)) ∧
      (a.event = .ringPieceArrival n → fwdCore (withPiece core p o s) o.home = o.home →
        PlaysAs s core a r (.ringPieceArrival s.fresh) (withPiece core p o s)) ∧
      (∀ i j q b, a.event = .engineCompletionReport n → s.ops = [(j, q)] → s.pieces = [(i, b)] → q.sid = o.sid → q.pc = o.pc → b.op = j →
        b.off = p.off → PlaysAs s core a r (.engineCompletionReport i) (modPiece i (fun y => { y with
          status := p.status, cause := p.cause, failOff := p.failOff, stage := p.stage }) (onePlayed core s)))))

/-! ### Traps, the SYSTEM major, control space -/

namespace Sys2Proof.Claims

noncomputable section

/-- The instructions and fetches that end in a trap whatever they find, with its cause and sr.tval (R49, R136, R354, R364). -/
def raisers (k : BitVec 1) (w : IWord) (va : Word) : List (Instr × Nat × Word) :=
  [(.ecall k, 17, 0), (.ebreak k, 16, 0), (.illegalInstruction w, 1, w.setWidth 64), (.instructionFetchFault va, 22, va)]

/-- The strand has taken a trap: cause, epc and tval are written, its registers, status, flags and results are as before,
and so are memory and every other strand. -/
def Trapped (s t : State) (cause : Nat) (tval : Word) : Prop :=
  t.cur = s.cur ∧ t.me.cause = BitVec.ofNat 6 cause ∧ t.me.epc = s.me.pc ∧ t.me.tval = tval ∧ t.me.regs = s.me.regs ∧
    t.me.rst = s.me.rst ∧ t.me.status = s.me.status ∧ t.me.fcsr = s.me.fcsr ∧ t.me.late = s.me.late ∧ t.mem = s.mem ∧
    ∀ id, id ≠ s.cur → tget t.strands id = tget s.strands id

/-- A control-space address (R337, R365): aligned, of a register, in a module of the pod. -/
def Control (s : State) (v : Word) (m off : Nat) : Prop :=
  v.toNat % 8 = 0 ∧ v.toNat < 2 ^ 48 ∧ m = v.toNat / 2 ^ 40 ∧ off = v.toNat % 2 ^ 40 ∧ writerOf off ≠ none ∧
    inPod s (moduleOf s.me.place) m = true

/-- A strand stands in its own slot of its own core, in no pair, with no frame. -/
def AtHome (s : State) (id : Nat) (x : Strand) : Prop :=
  tget s.strands id = some x ∧ x.kind = .core ∧ x.away = false ∧ x.place = x.native ∧ x.slot = x.nslot ∧ x.partner = none ∧
    x.link.depth = 0 ∧ x.link.valid = false

/-- What a kill leaves of a strand of a core (R360): its native slot idle, its registers zero and full, nothing outstanding. -/
def Killed (t : State) (id : Nat) (x : Strand) : Prop :=
  ∃ y, tget t.strands id = some y ∧ y.run = .idle ∧ y.regs = Vector.replicate 16 0 ∧ y.rst = Vector.replicate 16 .full ∧
    y.late = [] ∧ y.park = none ∧ y.place = x.native ∧ y.slot = x.nslot ∧ y.away = false ∧ y.cause = x.cause ∧ y.epc = x.epc ∧
    y.tval = x.tval

end

end Sys2Proof.Claims

/-- R353, R354, R355, R357: `ecall`, `ebreak`, an illegal word and a failed fetch trap, with the cause's sr.tval. The strand
of a core enters its grid's handler; where the grid delegates the cause or names no handler it is held, and its notice is on
its way to a Caller of its module; the strand of a Caller or MC program halts. -/
def Sys2Proof.Claims.TrapEntry : Prop :=
  ∀ (k : BitVec 1) (w : IWord) (va : Word), ∀ e ∈ Claims.raisers k w va, ∀ s : State,
    (∀ (g : Nat) (q : Grid), s.me.kind = .core → s.me.grid = some g → tget s.grids g = some q →
      (q.tvec ≠ 0 → q.tdeleg.getLsbD e.2.1 = false →
        ∃ t, exec e.1 s = .next t ∧ Claims.Trapped s t e.2.1 e.2.2 ∧ t.me.pc = q.tvec &&& ~~~3 ∧ t.me.readyAt = s.now + 8 ∧
          t.me.run = s.me.run ∧ t.agenda = s.agenda) ∧
      (q.tvec = 0 ∨ q.tdeleg.getLsbD e.2.1 = true →
        ∃ t, exec e.1 s = .next t ∧ Claims.Trapped s t e.2.1 e.2.2 ∧ t.me.pc = s.me.pc ∧ t.me.run = .held ∧
          (moduleOf s.me.native = moduleOf q.caller →
            (s.now + (8 + leg s s.me.native q.caller), Instr.noticeArrival ⟨11, q.caller, q.callerSc, 0,
              w64 (s.me.native * 2 ^ 46 + s.me.nslot * 2 ^ 41 + e.2.1 * 2 ^ 35 + 3), s.me.native⟩) ∈ t.agenda))) ∧
    (s.me.kind ≠ .core →
      ∃ t, exec e.1 s = .next t ∧ Claims.Trapped s t e.2.1 e.2.2 ∧ t.me.pc = s.me.pc ∧ t.me.run = .halted)

/-- R356, R364: a fetch of the handler that faults stops the strand with the first trap's registers; `eret` goes to sr.epc,
or traps where that is not a multiple of four; `halt` saves the PC in sr.epc and holds the strand. -/
def Sys2Proof.Claims.TrapReturn : Prop :=
  (∀ (s : State) (id : Nat) (x : Strand), tget s.strands id = some x →
    ∃ t y, exec (.doubleFault id) s = .next t ∧ tget t.strands id = some y ∧ y.run = .stopped ∧ y.cause = x.cause ∧ y.epc = x.epc ∧
      y.tval = x.tval ∧ y.pc = x.pc ∧ y.regs = x.regs ∧ t.mem = s.mem ∧ ∀ j, j ≠ id → tget t.strands j = tget s.strands j) ∧
  (∀ (k : BitVec 1) (s : State),
    (s.me.epc.toNat % 4 = 0 → exec (.eret k) s = .next (retireAt s.me.epc k s)) ∧
    (s.me.epc.toNat % 4 ≠ 0 → exec (.eret k) s = .next (raise 3 s.me.epc s)) ∧
    ∃ t, exec (.halt k) s = .next t ∧ t.me.run = .held ∧ t.me.epc = s.me.pc ∧ t.me.pc = s.me.pc ∧ t.me.cause = s.me.cause ∧
      t.me.tval = s.me.tval ∧ t.me.regs = s.me.regs ∧ t.me.rst = s.me.rst ∧ t.mem = s.mem)

/-- R353 to R357, R364: traps are taken, doubled and left.
Model's reading, not the spec's: log 39 (DEDUCED). -/
def Obligations.Traps : Prop :=
  Claims.TrapEntry ∧ Claims.TrapReturn

/-- R363: `sget`, `sset`, `kill` and `tlbi` of a core's strand are privileged and raise 0x02 with the word; so is `tlbi` of a
Caller strand whose owner is not 0. -/
def Sys2Proof.Claims.PrivilegedInstructions : Prop :=
  ∀ (a b : BitVec 5) (k : BitVec 1) (s : State),
    (s.me.kind = .core → ∀ i ∈ [Instr.sget a b k, .sset b a k, .kill a k, .tlbi b a k], exec i s = .next (raise 2 (wordOf i) s)) ∧
    (s.me.kind = .caller → s.me.owner ≠ 0 → exec (.tlbi b a k) s = .next (raise 2 (wordOf (.tlbi b a k)) s))

/-- R337, R365, R392: `sget` by a Caller or MC strand leaves its register pending; the value comes 46 cycles after issue from
the strand's own module, zero where the strand may not read. `sset` is a posted store that is performed at once or refused,
and cs.last of its slot tells which: here for the table of the pod's modules, which owner 0 writes, and for a register whose
writer the strand is not. A write by the host changes the same register. -/
def Sys2Proof.Claims.ControlSpace : Prop :=
  (∀ (a d : BitVec 5) (k : BitVec 1) (s : State) (m off : Nat), s.me.kind ≠ .core → Claims.Decodes false [a] [d] true s →
    Claims.Control s (rv s a) m off → m = moduleOf s.me.place →
    ∃ t v, exec (.sget a d k) s = .next t ∧ t.me.pc = s.me.pc + 4 ∧ t.me.regs = s.me.regs ∧ t.mem = s.mem ∧ t.hubs = s.hubs ∧
      (∀ r, r ≠ d.toNat → regSt t.me r = regSt s.me r) ∧ (d ≠ 0 → awaits t.me d.toNat = true) ∧
      (s.now + 46, Instr.lateResultReturn s.me.place s.cur ⟨s.fresh, v, false, 0⟩) ∈ t.agenda ∧
      (writerOf off ≠ some .nobody → mayWrite s m off s.me.owner (decide (s.me.kind = .mc)) = false → v = 0) ∧
      (∀ i, i < 256 → off = 0x190000 + 8 * i → s.me.owner = 0 → v = w64 (ctlGet s m off))) ∧
  (∀ (b a : BitVec 5) (k : BitVec 1) (s : State) (m off : Nat), s.me.kind ≠ .core → Claims.Decodes false [a, b] [] false s →
    Claims.Control s (rv s a) m off → m = moduleOf s.me.place →
    (mayWrite s m off s.me.owner (decide (s.me.kind = .mc)) = false →
      ∃ t, exec (.sset b a k) s = .next t ∧ t.me.pc = s.me.pc + 4 ∧ t.me.posted = s.me.posted + 1 ∧ t.me.last = tput s.me.last m 2 ∧
        (s.now + 46, Instr.storeAck (ackFrom (hubOf m) s.me.place) s.cur) ∈ t.agenda ∧ t.hubs = s.hubs ∧ t.mem = s.mem ∧ t.me.regs = s.me.regs) ∧
    (∀ i, i < 256 → off = 0x190000 + 8 * i → s.me.owner = 0 →
      (rv s b &&& 0xFFFFFFFFFFFFFF40 = 0 →
        ∃ t, exec (.sset b a k) s = .next t ∧ t.me.pc = s.me.pc + 4 ∧ t.me.posted = s.me.posted + 1 ∧ t.me.last = tput s.me.last m 0 ∧
          (s.now + 46, Instr.storeAck (ackFrom (hubOf m) s.me.place) s.cur) ∈ t.agenda ∧ ctlGet t m off = (rv s b).toNat ∧
          (∀ o, o ≠ off → ctlGet t m o = ctlGet s m o) ∧ t.mem = s.mem ∧ t.me.regs = s.me.regs) ∧
      (rv s b &&& 0xFFFFFFFFFFFFFF40 ≠ 0 →
        ∃ t, exec (.sset b a k) s = .next t ∧ t.me.last = tput s.me.last m 1 ∧ t.hubs = s.hubs))) ∧
  (∀ (m i : Nat) (mc : Bool) (v : Word) (s : State), i < 256 →
    (v &&& 0xFFFFFFFFFFFFFF40 = 0 →
      ∃ t, exec (.registerWrite m (0x190000 + 8 * i) 0 mc v) s = .next t ∧ ctlGet t m (0x190000 + 8 * i) = v.toNat ∧
        t.mem = s.mem ∧ t.strands = s.strands) ∧
    (v &&& 0xFFFFFFFFFFFFFF40 ≠ 0 → exec (.registerWrite m (0x190000 + 8 * i) 0 mc v) s = .next s))

/-- R337, R363, R365, R392: privileged instructions, and control space.
Model's reading, not the spec's: log 11 (DEDUCED), log 47 (DEDUCED), log 63 (DESIGN CHOICE). -/
def Obligations.PrivilegeAndControl : Prop :=
  Claims.PrivilegedInstructions ∧ Claims.ControlSpace

/-- R63, R257, R358, R359, R360, R366: a strand that is killed where it stands, by `kill`, by command 3, by the machine or as
lost on the way, leaves its native slot idle with registers zero and full; one that is on its way has a filter entry instead.
`kill` parks until it is performed; a slot without a live strand leaves it nothing to do; another owner's strand raises 0x06.
A link that fails drops a packet and sends its kill notice. Retry and skip resume a held strand at sr.epc or the next word.
Model's reading, not the spec's: log 3 (DESIGN CHOICE), log 39 (DEDUCED). -/
def Obligations.KillsAndResumes : Prop :=
  (∀ (a : BitVec 5) (k : BitVec 1) (s : State) (x : Strand), s.me.kind = .caller → Claims.Decodes false [a] [] false s →
    (rv s a).toNat < 2 ^ 23 → (rv s a).toNat ≠ s.cur →
    (tget s.strands (rv s a).toNat = none → tget s.store (rv s a).toNat = none → exec (.kill a k) s = .next (retire k s)) ∧
    (tget s.strands (rv s a).toNat = some x → x.owner ≠ s.me.owner → s.me.owner ≠ 0 → exec (.kill a k) s = .next (raise 6 (rv s a) s)) ∧
    (tget s.strands (rv s a).toNat = some x → x.owner = s.me.owner ∨ s.me.owner = 0 →
      (x.run = .idle → exec (.kill a k) s = .next (retire k s)) ∧
      (x.run ≠ .idle → x.away = true → x.partner = none →
        ∃ t, exec (.kill a k) s = .next t ∧ t.me.pc = s.me.pc + 4 ∧ t.me.park = some (.killStrand (rv s a).toNat k) ∧
          tget (coreAt t x.native).filters (rv s a).toNat = some 0 ∧ t.mem = s.mem) ∧
      (x.run ≠ .idle → Claims.AtHome s (rv s a).toNat x →
        ∃ t, exec (.kill a k) s = .next t ∧ t.me.pc = s.me.pc + 4 ∧ t.me.park = some (.killStrand (rv s a).toNat k) ∧
          Claims.Killed t (rv s a).toNat x))) ∧
  (∀ (s : State) (id : Nat) (x : Strand), Claims.AtHome s id x → x.run ≠ .idle →
    (∃ t, exec (.strandKill id 0) s = .next t ∧ Claims.Killed t id x) ∧
    (holder s x.place x.slot = some id → ∃ t, exec (.scKill x.place x.slot) s = .next t ∧ Claims.Killed t id x)) ∧
  (∀ (s : State) (id : Nat) (x : Strand), tget s.strands id = some x → x.away = true → x.run ≠ .idle → x.kind = .core →
    x.partner = none → x.link.depth = 0 → x.link.valid = false →
    ∃ t, exec (.killNotice id) s = .next t ∧ Claims.Killed t id x) ∧
  (∀ (s : State) (n : Nat) (p : Packet), tget s.packets n = some p →
    ∃ t, exec (.linkFailure n) s = .next t ∧ tget t.packets n = none ∧ t.strands = s.strands ∧ t.mem = s.mem ∧
      (s.now + Config.freeDelay s.oracle, Instr.killNotice p.sid) ∈ t.agenda) ∧
  (∀ (s : State) (place slot id : Nat) (x : Strand), holder s place slot = some id → tget s.strands id = some x → x.partner = none →
    (x.run = .held → ∀ skip : Bool, exec (if skip then .scSkip place slot else .scRetry place slot) s = .next (modStrand id (fun y =>
      { y with run := .live, pc := if skip then x.epc + 4 else x.epc, readyAt := s.now + 1, park := none }) s)) ∧
    (x.run ≠ .held → exec (.scRetry place slot) s = .next s ∧ exec (.scSkip place slot) s = .next s))

/-- R142, R343, R367: `tlbi` takes the entries of an address space, of one 64 KiB page or of all its pages, out of every core's
and cluster's cache of the named module, and parks until it is acknowledged, which it is once nothing of the old epoch is in
flight. A bad field raises 0x04.
Model's reading, not the spec's: log 41 (DESIGN CHOICE). -/
def Obligations.ShootDowns : Prop :=
  (∀ (b a : BitVec 5) (k : BitVec 1) (s : State), (s.me.kind = .mc ∨ s.me.kind = .caller ∧ s.me.owner = 0) →
    Claims.Decodes false [a, b] [] false s →
    (3 ≤ (rv s a).toNat / 2 ^ 62 ∨ 2 ^ 21 ≤ (rv s b).toNat → exec (.tlbi b a k) s = .next (raise 4 (rv s a) s)) ∧
    ((rv s b).toNat < 2 ^ 21 → ∀ (asn va : Nat) (page : Bool), asn = (rv s b).toNat % 4096 → va < 2 ^ 56 → va % 65536 = 0 →
      (rv s a).toNat = (if page then va else 2 ^ 62) →
      ∃ t, exec (.tlbi b a k) s = .next t ∧ t.me.pc = s.me.pc + 4 ∧ t.me.park = some (.tlbi s.fresh k) ∧ t.mem = s.mem ∧
        (tget t.tlbis s.fresh).isSome = true ∧
        let named (m : Nat) : Prop := (rv s b).toNat / 2 ^ 20 % 2 = 1 ∨ m = (rv s b).toNat / 2 ^ 12 % 256
        let goes (e : TlbEntry) : Bool := decide (e.asn = asn) && (!page || decide (e.page = va / 2 ^ e.bits))
        (∀ c, (named (moduleOf c) → (coreAt t c).tlb = (coreAt s c).tlb.filter (fun e => !goes e)) ∧
          (¬ named (moduleOf c) → (coreAt t c).tlb = (coreAt s c).tlb)) ∧
        ∀ cl, cl < 2 ^ 16 → named (cl / 256) → (sliceAt t cl).tlb = (sliceAt s cl).tlb.filter (fun e => !goes e))) ∧
  (∀ (s : State) (id : Nat) (x : Tlbi) (y : Strand), tget s.tlbis id = some x → x.flipped = true → oldClear s x.cores = true →
    tget s.strands x.sid = some y → y.park = some (.tlbi id 0) →
    ∃ t, exec (.tlbiAck id) s = .next t ∧ tget t.tlbis id = none ∧
      tget t.strands x.sid = some { y with park := none, readyAt := max y.readyAt (s.now + 2) } ∧ t.mem = s.mem) ∧
  (∀ (s : State) (id : Nat) (x : Tlbi), tget s.tlbis id = some x → oldClear s x.cores = false → exec (.tlbiAck id) s = .next s)

/-! ### Fork and join, rings and pipes, barriers -/

namespace Sys2Proof.Claims

noncomputable section

/-- The counter of an instruction is a scratchpad word below 0x3C0000 of the strand's own core, and no range lock holds it
(R270, R274). -/
def CounterHere (s : State) (n : BitVec 5) (off va : Word) (pa : Nat) : Prop :=
  ∃ pol win o, Reaches s (32 + n.toNat) off 8 true true va pa pol win ∧ space s pa = .pad s.me.place o ∧ o < 0x3C0000 ∧
    locked s pa 8 = false ∧ isCore s.me.place = true

/-- The strand stands in its native slot, in no pair. -/
def InNativeSlot (s : State) : Prop :=
  s.me.kind = .core ∧ s.me.place = s.me.native ∧ s.me.slot = s.me.nslot ∧ s.me.partner = none

/-- Word i of the frame at an address (R268), lowest byte first. -/
def frame (s : State) (a i : Nat) : Nat := le s (a + 8 * i) 8

/-- A strand that goes on from the frame at address a (R273): s1 to s15 have the frame's values and are full, the PC is its
continuation, fcsr and wtimeout are its own, and of sr.status autotravel and symoff. -/
def GoesOn (s : State) (y : Strand) (a : Nat) (x : Strand) : Prop :=
  (∀ r, 0 < r → r < 16 → regVal y r = BitVec.ofNat 64 (frame s a r) ∧ regSt y r = .full) ∧ y.pc = BitVec.ofNat 64 (frame s a 16) ∧
    y.status = (x.status &&& ~~~3) ||| (BitVec.ofNat 64 (frame s a 20) &&& 3) ∧ y.fcsr = BitVec.ofNat 8 (frame s a 21) ∧
    y.wtimeout = BitVec.ofNat 32 (frame s a 21 / 2 ^ 32) ∧ y.bidx = x.bidx ∧ y.sidx = x.sidx ∧ y.grid = x.grid ∧ y.run = .live

/-- The link that a frame holds: plink and pctr (R268). -/
def frameParent (s : State) (a : Nat) : TaskLink :=
  let p := frame s a 18
  ⟨bit p 63, p / 2 ^ 24 % 2 ^ 18, p / 2 ^ 16 % 2 ^ 6, p % 2 ^ 16, frame s a 19, 0⟩

/-- The frame written by a spawn holds what R268 and R271 list: s1 to s15, the continuation, the counter, the link. -/
def FrameOf (s t : State) (a pa : Nat) : Prop :=
  (∀ r, 0 < r → r < 16 → Holds t (a + 8 * r) 8 (regVal s.me r)) ∧ Holds t (a + 128) 8 (s.me.pc + 4) ∧
    Holds t (a + 136) 8 (BitVec.ofNat 64 pa) ∧ Holds t (a + 144) 8 (linkWord s.me.link) ∧
    Holds t (a + 152) 8 (BitVec.ofNat 64 s.me.link.ctr) ∧ Holds t (a + 160) 8 s.me.status ∧ SameOutside s t a 192

/-- An idle slot that may take a frame. -/
def IdleSlot (s : State) (id g : Nat) (x : Strand) : Prop :=
  tget s.strands id = some x ∧ x.run = .idle ∧ x.kind = .core ∧ x.away = false ∧ x.link.depth = 0 ∧ x.link.valid = false ∧
    x.partner = none ∧ x.grid = some g

/-- A ring instruction reaches the header at offset h of the strand's own core (R285, R288). -/
def RingHere (s : State) (n : BitVec 5) (off : Word) (h : Nat) : Prop :=
  ∃ va pa pol win, Reaches s (32 + n.toNat) off 64 true true va pa pol win ∧ space s pa = .pad s.me.place h ∧ 0x3E4000 ≤ h ∧
    isCore s.me.place = true

/-- The ring is live, of the strand's grid, and no pipe's. -/
def RingMine (s : State) (h : Nat) : Prop :=
  (hdrAt s s.me.place h).live = true ∧ (hdrAt s s.me.place h).grid = ctxKey s.me ∧ (hdrAt s s.me.place h).pipe = false

/-- An engine operation that its strand has issued: listed, and its first launch due 8 cycles later; the strand goes on. -/
def Issued (s t : State) (P : Op → Prop) : Prop :=
  (∃ id o, tget s.ops id = none ∧ tget t.ops id = some o ∧ P o ∧ o.sid = s.cur ∧ o.place = s.me.place ∧ o.pc = s.me.pc ∧
      o.stopped = false ∧ id ∈ (coreAt t s.me.place).copyq ∧ (s.now + 8, Instr.courierPieceLaunch id) ∈ t.agenda) ∧
    t.me.pc = s.me.pc + 4 ∧ t.me.regs = s.me.regs

/-- What a courier instruction needs before its own checks (R181, R253). -/
def CourierReady (s : State) (srcs : List (BitVec 5)) : Prop :=
  isCore s.me.place = true ∧ Decodes false srcs [] false s ∧ s.me.vmems = 0 ∧ (coreAt s s.me.place).copyq.length + flying s none courierWord < 16 ∧
    tget s.ops s.fresh = none

/-- A record end of an operation lies within its record and translates for it (R253, R254). -/
def EndOk (s : State) (n : BitVec 5) (off : Word) (len : Nat) (dst : Bool) (va pa : Nat) : Prop :=
  ∃ r pol win, recLoading s (32 + n.toNat) = false ∧ recAt s (32 + n.toNat) = .ok r ∧ 0 ≤ off.toInt ∧
    off.toInt + len ≤ (recExtent r : Int) ∧ va = (recBase r + off.toNat) % 2 ^ 64 ∧
    translate s (BitVec.ofNat 64 va) (!dst) dst false = .hit pa pol win ∧ endSpace s pa dst = none

/-- The range locks of a put's source and stage are free (R166). -/
def PutLocks (s : State) (va : Word) (len : Nat) : Prop :=
  (lockOf s.me.place 0 (myRuns (used s va) va.toNat len)).length + 1 ≤ locksFree s s.me.place

end

end Sys2Proof.Claims

/-- R271, R273, R275 to R278: `spawn` writes its frame into the lowest free place of the deque, or inline where it has inline
frames or the deque is full, and goes to its target; `jend` goes on from the strand's innermost frame, which parks while a register awaits a
result, else counts down at its counter and ends; `join` gets a count of zero or waits; `yield`, `exit` and `dqn` do what their rules say.
Model's reading, not the spec's: log 28 (DESIGN CHOICE). -/
def Obligations.ForkAndJoin : Prop :=
  (∀ (o : BitVec 12) (n a : BitVec 5) (k : BitVec 1) (s : State) (va : Word) (pa : Nat), s.Inv → Claims.Decodes false [a] [] false s →
    canDepart s s.cur = true → Claims.CounterHere s n (rv s a) va pa → Claims.InNativeSlot s →
    (∀ j, s.me.link.depth = 0 → j < 64 → (∀ i, i < j → ∃ p ∈ (coreAt s s.me.place).deque, p.j = i) →
      (∀ p ∈ (coreAt s s.me.place).deque, p.j ≠ j) →
      ∃ t, exec (.spawn o n a k) s = .next t ∧ t.me.pc = s.me.pc + o.signExtend 64 * 4 ∧ t.me.regs = s.me.regs ∧
        (coreAt t s.me.place).deque = (coreAt s s.me.place).deque ++
          [⟨j, .held, s.me.grid.getD 0, s.me.block, (coreAt s s.me.place).dqCtr.toNat, 0, 0, 0⟩] ∧
        (coreAt t s.me.place).dqCtr = (coreAt s s.me.place).dqCtr + 1 ∧
        t.me.link = ⟨true, s.me.place, j, (coreAt s s.me.place).dqCtr.toNat, pa, 0⟩ ∧
        Claims.FrameOf s t (sramBase s.me.place + 0x3E0000 + 0x100 * j) pa) ∧
    (s.me.link.depth ≠ 0 ∨ (∀ i, i < 64 → ∃ p ∈ (coreAt s s.me.place).deque, p.j = i) →
      (s.me.link.depth < 21 →
        ∃ t, exec (.spawn o n a k) s = .next t ∧ t.me.pc = s.me.pc + o.signExtend 64 * 4 ∧ t.me.regs = s.me.regs ∧
          t.me.link = { s.me.link with depth := s.me.link.depth + 1 } ∧ (coreAt t s.me.place).deque = (coreAt s s.me.place).deque ∧
          Claims.FrameOf s t (floorAt s.me.native s.me.nslot + 0x1000 - 192 * (s.me.link.depth + 1)) pa) ∧
      (s.me.link.depth = 21 → ∃ t, exec (.spawn o n a k) s = .next t ∧ t.me.cause = 9 ∧ t.me.tval = 21 ∧ t.me.epc = s.me.pc))) ∧
  (∀ (l : BitVec 1) (n a : BitVec 5) (k : BitVec 1) (s : State) (va : Word) (pa : Nat), s.Inv → Claims.Decodes false [a] [] false s →
    Claims.CounterHere s n (rv s a) va pa → Claims.InNativeSlot s →
    (∀ r, restoreWaits s s.me = some r →
      ∃ t, exec (.jend l n a k) s = .next t ∧ t.me.pc = s.me.pc ∧ t.me.park = some (.dest r) ∧ t.me.regs = s.me.regs ∧ t.mem = s.mem) ∧
    (0 < s.me.link.depth → (∀ r, 0 < r → r < 16 → awaits s.me r = false) →
      ∃ t, exec (.jend l n a k) s = .next t ∧ t.me.link = { s.me.link with depth := s.me.link.depth - 1 } ∧ t.mem = s.mem ∧
        t.me.readyAt = s.now + 14 ∧
        (s.me.run = .live → Claims.GoesOn s t.me (floorAt s.me.native s.me.nslot + 0x1000 - 192 * s.me.link.depth) s.me)) ∧
    (∀ p, s.me.link.depth = 0 → linkPlace s s.me = some p → p.st = .held → (∀ r, 0 < r → r < 16 → awaits s.me r = false) →
      ∃ t, exec (.jend l n a k) s = .next t ∧ t.mem = s.mem ∧ t.me.readyAt = s.now + 14 ∧
        (coreAt t s.me.place).deque = (coreAt s s.me.place).deque.filter (fun r => r.j != p.j) ∧
        Claims.GoesOn s t.me (sramBase s.me.place + 0x3E0000 + 0x100 * p.j) s.me ∧
        t.me.link = Claims.frameParent s (sramBase s.me.place + 0x3E0000 + 0x100 * p.j)) ∧
    (s.me.link.depth = 0 → linkPlace s s.me = none → poisoned s pa 8 = false →
      ∃ t, exec (.jend l n a k) s = .next t ∧ t.me.run = .idle ∧ t.me.late = [] ∧
        Claims.Holds t pa 8 (BitVec.ofNat 64 (Claims.le s (pa + 4) 4 * 2 ^ 32 + (Claims.le s pa 4 + 2 ^ 32 - 1) % 2 ^ 32)) ∧
        Claims.SameOutside s t pa 8)) ∧
  (∀ (l : BitVec 1) (n a d : BitVec 5) (k : BitVec 1) (s : State) (va : Word) (pa : Nat), Claims.Decodes false [a] [d] false s →
    Claims.CounterHere s n (rv s a) va pa → poisoned s pa 8 = false →
    (Claims.le s pa 4 = 0 → ∃ t, exec (.join l n a d k) s = .next t ∧ t.me.pc = s.me.pc + 4 ∧ t.mem = s.mem ∧
      (d ≠ 0 → regVal t.me d.toNat = BitVec.ofNat 64 (Claims.le s pa 8)) ∧ ∀ r, r ≠ d.toNat → regVal t.me r = regVal s.me r) ∧
    (Claims.le s pa 4 ≠ 0 → (coreAt s s.me.place).joins.length < 16 → ∃ t e, exec (.join l n a d k) s = .next t ∧
      t.me.pc = s.me.pc ∧ t.me.park = some .join ∧ (coreAt t s.me.place).joins = (coreAt s s.me.place).joins ++ [e] ∧
      e.sid = s.cur ∧ e.word = pa ∧ e.sd = d.toNat ∧ t.mem = s.mem ∧ t.me.regs = s.me.regs)) ∧
  (∀ (k : BitVec 1) (s : State),
    (readySlots s = [] → exec (.yield k) s = .next (retire k s)) ∧
    (readySlots s ≠ [] → ∃ t l, exec (.yield 0) s = .next t ∧ t.me.pc = s.me.pc + 4 ∧ t.me.park = some (.yield l) ∧ l = readySlots s) ∧
    (s.me.link.valid = true ∨ s.me.link.depth ≠ 0 → exec (.exit k) s = .next (raise 6 (linkWord s.me.link) s)) ∧
    (s.me.link.valid = false → s.me.link.depth = 0 → settled s s.cur = false → exec (.exit k) s = .next (park .exits s)) ∧
    (s.me.link.valid = false → s.me.link.depth = 0 → settled s s.cur = true →
      ∃ t, exec (.exit k) s = .next t ∧ t.mem = s.mem ∧ (s.me.kind = .core → t.me.run = .idle ∧ t.me.place = s.me.native ∧
        t.me.slot = s.me.nslot) ∧ (s.me.kind ≠ .core → tget t.strands s.cur = none))) ∧
  (∀ (d : BitVec 5) (k : BitVec 1) (s : State), isMc s.me.place = false → Claims.Decodes false [] [d] false s →
    ∃ own live, exec (.dqn d k) s = .next (retire k (wr d.toNat (BitVec.ofNat 64
        (s.me.link.depth * 2 ^ 16 + live * 2 ^ 15 + (coreAt s s.me.place).deque.length * 2 ^ 8 + own)) s)) ∧
      own = ((coreAt s s.me.place).deque.filter (fun p => decide (some p.grid = s.me.grid ∧ (p.st = .held ∨ p.st = .released)))).length ∧
      live = (if (linkPlace s s.me).map DqPlace.st = some .held then 1 else 0))

/-- R272, R275, R280, R283: what a deque unit does, where no request that comes before it in its cycle is still to be served. A waiting joiner is served with its word; a take of a held frame marks it
and sends the count's increment, whose acceptance counts one child more and starts the taker at the frame; a released frame is
taken at once; a thief that finds nothing goes on to its next victim and, with none left, its slot waits 1,024 cycles; a frame
brought home starts its slot; after a kill the counter has one fault more.
Model's reading, not the spec's: log 28 (DESIGN CHOICE), log 33 (DESIGN CHOICE). -/
def Obligations.DequeUnit : Prop :=
  (∀ (s : State) (core word : Nat) (w : WordWait) (v : Word) (x : Strand), (coreAt s core).joins = [w] → w.word = word →
    w.seen = some v → v.toNat % 2 ^ 32 = 0 → w.k = 0 → w.drop = [] → tget s.strands w.sid = some x →
    ∃ t y, exec (.joinListService core word) s = .next t ∧ (coreAt t core).joins = [] ∧ tget t.strands w.sid = some y ∧
      y.park = none ∧ y.pc = x.pc + 4 ∧ y.readyAt = s.now + 2 ∧ (0 < w.sd → w.sd < 16 → regVal y w.sd = v ∧ regSt y w.sd = .full) ∧
      (∀ r, r ≠ w.sd → regVal y r = regVal x r) ∧ t.mem = s.mem) ∧
  (∀ (s : State) (core id g : Nat) (x : Strand) (p : DqPlace), Claims.IdleSlot s id g x → x.native = core → id < 2 ^ 40 →
    takeBehind s core (.dequeTakeRequest core id 0) = false → takingFor s core id x.block = false → blockDone s x.block = false → takeable s core g = some p →
    (p.st = .held → moduleOf (homeOf (Claims.frame s (sramBase core + 0x3E0000 + 0x100 * p.j) 17)) = moduleOf core →
        ∃ t, exec (.dequeTakeRequest core id 0) s = .next t ∧ (∀ i, tget t.strands i = tget s.strands i) ∧ t.mem = s.mem ∧
        (coreAt t core).deque = (coreAt s core).deque.map (fun r => if r.j == p.j then { r with st := .taking, taker := id, tblock := x.block, thief := 0 } else r) ∧
        ∃ d, (s.now + d, Instr.dequeIncrementAccepted core p.j) ∈ t.agenda) ∧
    (p.st = .released → ∀ i ∈ [Instr.dequeTakeRequest core id 0, .thiefRetry id], ∃ t y, exec i s = .next t ∧
        (coreAt t core).deque = (coreAt s core).deque.filter (fun r => r.j != p.j) ∧ tget t.strands id = some y ∧
        Claims.GoesOn s y (sramBase core + 0x3E0000 + 0x100 * p.j) x ∧ y.readyAt = s.now + 8 ∧ t.mem = s.mem)) ∧
  (∀ (s : State) (core j ctr id g : Nat) (x : Strand) (p : DqPlace), s.Inv → Claims.IdleSlot s id g x →
    (coreAt s core).deque = [p] → p.j = j → p.st = .taking → p.taker = id → p.tblock = x.block → p.thief = 0 → j < 64 → core < 2 ^ 18 →
    ctr = Claims.frame s (sramBase core + 0x3E0000 + 0x100 * j) 17 → homeOf ctr = core → ctr + 8 ≤ sramBase core + 0x3C0000 →
    ∃ t y, exec (.dequeIncrementAccepted core j) s = .next t ∧ (coreAt t core).deque = [] ∧ tget t.strands id = some y ∧
      Claims.GoesOn s y (sramBase core + 0x3E0000 + 0x100 * j) x ∧
      y.link = Claims.frameParent s (sramBase core + 0x3E0000 + 0x100 * j) ∧ y.readyAt = s.now + 8 ∧
      Claims.Holds t ctr 8 (BitVec.ofNat 64 (Claims.le s (ctr + 4) 4 * 2 ^ 32 + (Claims.le s ctr 4 + 1) % 2 ^ 32)) ∧
      Claims.SameOutside s t ctr 8) ∧
  (∀ (s : State) (core id : Nat) (x : Strand), s.Inv → tget s.strands id = some x → x.link.valid = true → id < 2 ^ 40 →
    homeOf x.link.ctr = core → (coreAt s x.native).deque = [] →
    ∃ t y, exec (.dequeAdjustmentAccepted core dqTaken (id + 2 ^ 40 * x.block)) s = .next t ∧ tget t.strands id = some y ∧ y.link = TaskLink.reset ∧
      Claims.Holds t x.link.ctr 8 (BitVec.ofNat 64 (Claims.le s (x.link.ctr + 6) 2 * 2 ^ 48 +
        min (Claims.le s (x.link.ctr + 4) 2 + 1) 0xFFFF * 2 ^ 32 + (Claims.le s x.link.ctr 4 + 2 ^ 32 - 1) % 2 ^ 32)) ∧
      Claims.SameOutside s t x.link.ctr 8) ∧
  (∀ (s : State) (th id g v : Nat) (x : Strand) (l : List Nat), Claims.IdleSlot s id g x → th ≠ 0 → tget s.thieves th = some ⟨id, x.block, v :: l, none⟩ →
    (coreAt s v).deque = [] → id < 2 ^ 40 → takeBehind s v (.thiefVictimArrival th) = false →
    (∀ w rest, l = w :: rest → ∃ t, exec (.thiefVictimArrival th) s = .next t ∧ tget t.thieves th = some ⟨id, x.block, l, none⟩ ∧
      (s.now + leg s v w, Instr.thiefVictimArrival th) ∈ t.agenda ∧ t.strands = s.strands ∧ t.mem = s.mem) ∧
    (l = [] → ∃ t, exec (.thiefVictimArrival th) s = .next t ∧ tget t.thieves th = none ∧
      (s.now + 1024, Instr.thiefRetry id) ∈ t.agenda ∧ t.strands = s.strands ∧ t.mem = s.mem)) ∧
  (∀ (s : State) (th id g : Nat) (x : Strand) (bs : List Byte) (l : List Nat), Claims.IdleSlot s id g x →
    tget s.thieves th = some ⟨id, x.block, l, some bs⟩ → takingFor s x.native id x.block = false →
    ∃ t y, exec (.thiefFrameArrival th) s = .next t ∧ tget t.thieves th = none ∧ tget t.strands id = some y ∧ y.run = .live ∧
      y.pc = BitVec.ofNat 64 (leNat ((bs.drop 128).take 8)) ∧ y.readyAt = s.now + 8 ∧ t.mem = s.mem ∧
      ∀ r, 0 < r → r < 16 → regVal y r = BitVec.ofNat 64 (leNat ((bs.drop (8 * r)).take 8)) ∧ regSt y r = .full)

/-- R289 to R299: `ring.init` makes the header and binds its slots; `ring.tkt` gives out the next ticket; `ring.take` reads the
run of ready slots from the head, or waits while there is none; `ring.free` moves the head and binds each freed slot to a later ticket; puts become courier
operations that carry their ticket. A piece that its ring takes at its arrival is set down once its flits have come, and delivered; one that it rejects fails with status 10 and
cause 0x17, one sent back sets out again. The pipe forms act on the header of their port.
Model's reading, not the spec's: log 6 (DESIGN CHOICE), log 31 (DESIGN CHOICE). -/
def Obligations.RingsAndPipes : Prop :=
  (∀ (l : BitVec 1) (n a b : BitVec 5) (k : BitVec 1) (s : State) (h cnt tb len : Nat), s.Inv →
    Claims.Decodes false [a, b] [] false s → Claims.RingHere s n (rv s a) h → (hdrAt s s.me.place h).live = false →
    (hdrAt s s.me.place h).pipe = false → cnt ∈ [1, 2, 4, 8, 16, 32, 64] → tb + cnt ≤ 64 → (rv s b).toNat = cnt * 256 + tb →
    len = (tileAt s s.me.place tb).len → len % 32 = 0 → len ≤ 4096 → slotsOk s s.me.place (ctxKey s.me) tb cnt len = true →
    ∃ t, exec (.ringInit l n a b k) s = .next t ∧ t.me.pc = s.me.pc + 4 ∧ t.me.regs = s.me.regs ∧
      hdrAt t s.me.place h = ⟨ctxKey s.me % 2 ^ 32, 0, len, cnt, tb % 64, false, true, 0, 0⟩ ∧
      (∀ j, j < cnt → (tileAt t s.me.place (tb + j)).st = .filling ∧ (tileAt t s.me.place (tb + j)).expected = len ∧
        (tileAt t s.me.place (tb + j)).arrived = 0 ∧ (tileAt t s.me.place (tb + j)).ring = some (h, j) ∧
        (tileAt t s.me.place (tb + j)).ticket = j) ∧
      Claims.SameOutside s t (sramBase s.me.place + h) 64) ∧
  (∀ (l : BitVec 1) (n a d : BitVec 5) (k : BitVec 1) (s : State) (h : Nat), s.Inv → Claims.Decodes false [a] [d] false s →
    Claims.RingHere s n (rv s a) h → Claims.RingMine s h →
    (∃ t, exec (.ringTkt l n a d k) s = .next t ∧ t.me.pc = s.me.pc + 4 ∧
      (d ≠ 0 → regVal t.me d.toNat = BitVec.ofNat 64 (s.me.place * 2 ^ 46 + (h - 0x3E4000) / 64 * 2 ^ 35 + (hdrAt s s.me.place h).next)) ∧
      (hdrAt t s.me.place h) = { hdrAt s s.me.place h with next := ((hdrAt s s.me.place h).next + 1) % 2 ^ 32 } ∧
      Claims.SameOutside s t (sramBase s.me.place + h) 64) ∧
    (∀ m b, ringRun s s.me.place (hdrAt s s.me.place h) = m → 0 < m →
      b = (tileAt s s.me.place ((hdrAt s s.me.place h).tb + (hdrAt s s.me.place h).head % (hdrAt s s.me.place h).n)).base →
      ∃ t, exec (.ringTake l n a d k) s = .next t ∧ t.me.pc = s.me.pc + 4 ∧ t.mem = s.mem ∧
        (d ≠ 0 → regVal t.me d.toNat = BitVec.ofNat 64 ((hdrAt s s.me.place h).head * 2 ^ 32 + b % 2 ^ 22 * 2 ^ 10 + m))) ∧
    (ringRun s s.me.place (hdrAt s s.me.place h) = 0 →
      ∃ t, exec (.ringTake l n a d k) s = .next t ∧ t.me.pc = s.me.pc ∧ t.me.park = some (.ringTake h d.toNat (if l = 1 then some a.toNat else none) k) ∧ t.mem = s.mem)) ∧
  (∀ (l : BitVec 1) (n a b : BitVec 5) (k : BitVec 1) (s : State) (h : Nat), s.Inv → Claims.Decodes false [a, b] [] false s →
    Claims.RingHere s n (rv s a) h → Claims.RingMine s h → (rv s b).toNat = 1 → 1 ≤ (hdrAt s s.me.place h).n →
    (tileAt s s.me.place ((hdrAt s s.me.place h).tb + (hdrAt s s.me.place h).head % (hdrAt s s.me.place h).n)).st = .ready →
    lockedAt s s.me.place (tileAt s s.me.place ((hdrAt s s.me.place h).tb + (hdrAt s s.me.place h).head % (hdrAt s s.me.place h).n)).base
      (tileAt s s.me.place ((hdrAt s s.me.place h).tb + (hdrAt s s.me.place h).head % (hdrAt s s.me.place h).n)).len = false →
    (coreAt s s.me.place).ringWait = [] →
    ∃ t, exec (.ringFree l n a b k) s = .next t ∧ t.me.pc = s.me.pc + 4 ∧ t.me.regs = s.me.regs ∧
      (hdrAt t s.me.place h) = { hdrAt s s.me.place h with head := ((hdrAt s s.me.place h).head + 1) % 2 ^ 32 } ∧
      (tileAt t s.me.place ((hdrAt s s.me.place h).tb + (hdrAt s s.me.place h).head % (hdrAt s s.me.place h).n)).st = .filling ∧
      (tileAt t s.me.place ((hdrAt s s.me.place h).tb + (hdrAt s s.me.place h).head % (hdrAt s s.me.place h).n)).ticket =
        ((hdrAt s s.me.place h).head + (hdrAt s s.me.place h).n) % 2 ^ 32) ∧
  (∀ (l : BitVec 1) (n a b c : BitVec 5) (k : BitVec 1) (s : State) (len va pa : Nat), Claims.CourierReady s [a, b, c] →
    c.toNat = b.toNat + 1 → 1 ≤ len → len ≤ 4096 → (rv s c).toNat = len * 2 ^ 16 → (rv s b).toNat / 2 ^ 32 % 8 = 0 →
    (rv s b).toNat / 2 ^ 35 % 2 ^ 11 ≤ 1791 → Claims.EndOk s n (rv s a) len false va pa → Claims.PutLocks s (BitVec.ofNat 64 va) len →
    ∃ t, exec (.ringPut l n a b k) s = .next t ∧ Claims.SameMemory s t ∧ Claims.Issued s t (fun o => o.kind = .ringPut ∧ o.src = va ∧
      o.len = len ∧ o.tok = false ∧ o.toff = 0 ∧ o.home = (rv s b).toNat / 2 ^ 46 ∧
      o.hdr = 0x3E4000 + 64 * ((rv s b).toNat / 2 ^ 35 % 2 ^ 11) ∧ o.ticket = (rv s b).toNat % 2 ^ 32)) ∧
  (∀ (p a c : BitVec 5) (k : BitVec 1) (s : State) (len pa pol : Nat) (win : Bool) (q : PortBind), Claims.CourierReady s [a, c] →
    c.toNat = a.toNat + 1 → s.me.place = s.me.native → portBind s (p.toNat - 16) = some q → q.producer = true →
    1 ≤ len → len ≤ 4096 → (rv s c).toNat = len * 2 ^ 16 → translate s (rv s a) true false false = .hit pa pol win →
    endSpace s pa false = none → Claims.PutLocks s (rv s a) len →
    ∃ t, exec (.pipePut p a k) s = .next t ∧ Claims.SameMemory s t ∧ Claims.Issued s t (fun o => o.kind = .pipePut ∧
      o.src = (rv s a).toNat ∧ o.len = len ∧ o.home = q.core ∧ o.hdr = q.hdr ∧ o.ticket = q.next) ∧
      ((portBind t (p.toNat - 16)).map PortBind.next = some (q.next + 1))) ∧
  (∀ (l : BitVec 1) (p d : BitVec 5) (k : BitVec 1) (s : State) (q : PortBind), isCore s.me.place = true →
    s.me.place = s.me.native → portBind s (p.toNat - 16) = some q → q.producer = false → s.me.vmems = 0 →
    (Claims.Decodes false [] [d] false s → ringRun s s.me.place (hdrAt s s.me.place q.hdr) = 0 →
      exec (.pipeTake p d k) s = .next (park (.ringTake q.hdr d.toNat none k) s)) ∧
    (∀ m b, Claims.Decodes false [] [d] false s → ringRun s s.me.place (hdrAt s s.me.place q.hdr) = m → 0 < m →
      b = (tileAt s s.me.place ((hdrAt s s.me.place q.hdr).tb + (hdrAt s s.me.place q.hdr).head % (hdrAt s s.me.place q.hdr).n)).base →
      exec (.pipeTake p d k) s = .next (retire k (wr d.toNat (BitVec.ofNat 64 ((hdrAt s s.me.place q.hdr).head * 2 ^ 32 + b % 2 ^ 22 * 2 ^ 10 + m)) s))) ∧
    (Claims.Decodes false [d] [] false s → (rv s d).toNat = 1 → 1 ≤ (hdrAt s s.me.place q.hdr).n → s.Inv →
      (tileAt s s.me.place ((hdrAt s s.me.place q.hdr).tb + (hdrAt s s.me.place q.hdr).head % (hdrAt s s.me.place q.hdr).n)).st = .ready →
      lockedAt s s.me.place (tileAt s s.me.place ((hdrAt s s.me.place q.hdr).tb + (hdrAt s s.me.place q.hdr).head % (hdrAt s s.me.place q.hdr).n)).base
        (tileAt s s.me.place ((hdrAt s s.me.place q.hdr).tb + (hdrAt s s.me.place q.hdr).head % (hdrAt s s.me.place q.hdr).n)).len = false →
      (coreAt s s.me.place).ringWait = [] →
      ∃ t, exec (.pipeFree l p d k) s = .next t ∧ t.me.pc = s.me.pc + 4 ∧
        (hdrAt t s.me.place q.hdr) = { hdrAt s s.me.place q.hdr with head := ((hdrAt s s.me.place q.hdr).head + 1) % 2 ^ 32 })) ∧
  (∀ (s : State) (pc tile : Nat) (p : Piece) (o : Op), tget s.pieces pc = some p → tget s.ops p.op = some o → fwdCore s o.home = o.home →
    p.record = false →
    (p.stage ≠ 6 → ringSays s o.home o.hdr (opGroup o) o.ticket o.toff o.len = .take tile →
      (p.stage ≠ 4 → exec (.ringPieceArrival pc) s = .next (sched (2 + cdiv p.len 64) (.ringPieceArrival pc)
        (modPiece pc (fun p => { p with stage := 4 }) s))) ∧
      (p.stage = 4 → earlierDue s pc p o = false → moduleOf o.home = moduleOf (o.sid / 32) →
        ∃ t y, exec (.ringPieceArrival pc) s = .next t ∧ tget t.pieces pc = some y ∧ y.stage = 6 ∧ y.status = p.status ∧
          (s.now, Instr.tileSetDown o.home tile p.len (!p.bad.isEmpty)) ∈ t.agenda)) ∧
    (p.stage ≠ 6 → ringSays s o.home o.hdr (opGroup o) o.ticket o.toff o.len = .reject →
      ∃ t y, exec (.ringPieceArrival pc) s = .next t ∧ tget t.pieces pc = some y ∧ y.stage = 6 ∧ y.status = 2 ∧ y.cause = 23 ∧
        t.mem = s.mem) ∧
    (∃ t y, exec (.ringPieceRelaunch pc) s = .next t ∧ tget t.pieces pc = some y ∧ y.stage = 3 ∧
      (s.now + courierLeg s p.origin o.home (cdiv p.len 64), Instr.ringPieceArrival pc) ∈ t.agenda))

/-- R302, R303, R304: a named barrier's word counts arrivals and starts its next generation with the expected one; a waiter of
a generation that has passed goes on, another parks until the port serves it. A level barrier parks each member, which its
release wakes; a slot that came to life during the episode arrives at the next.
Model's reading, not the spec's: log 3 (DESIGN CHOICE), log 28 (DESIGN CHOICE), log 32 (DESIGN CHOICE). -/
def Obligations.Barriers : Prop :=
  (∀ (l : BitVec 1) (n a b : BitVec 5) (k : BitVec 1) (s : State) (va : Word) (pa : Nat), s.Inv →
    Claims.CounterHere s n (rv s a) va pa → poisoned s pa 8 = false →
    (Claims.Decodes false [a, b] [] false s → 0 < (rv s b).toNat → (rv s b).toNat < 2 ^ 16 →
      (∀ w ∈ (coreAt s s.me.place).bars, w.word ≠ pa) →
      ∃ t, exec (.barInit l n a b k) s = .next t ∧ t.me.pc = s.me.pc + 4 ∧ t.me.regs = s.me.regs ∧
        Claims.Holds t pa 8 (BitVec.ofNat 64 ((rv s b).toNat * 2 ^ 16)) ∧ Claims.SameOutside s t pa 8) ∧
    (Claims.Decodes false [a] [b] false s → Claims.le s (pa + 2) 2 ≠ 0 → Claims.le s (pa + 4) 2 = 0 →
      let gen := Claims.le s (pa + 6) 2
      let expect := Claims.le s (pa + 2) 2
      let count := (Claims.le s pa 2 + 1) % 2 ^ 16
      ∃ t, exec (.barArr l n a b k) s = .next t ∧ t.me.pc = s.me.pc + 4 ∧ (b ≠ 0 → regVal t.me b.toNat = BitVec.ofNat 64 gen) ∧
        (∀ r, r ≠ b.toNat → regVal t.me r = regVal s.me r) ∧
        Claims.Holds t pa 8 (BitVec.ofNat 64 (if count = expect then (gen + 1) % 2 ^ 16 * 2 ^ 48 + expect * 2 ^ 16
          else gen * 2 ^ 48 + expect * 2 ^ 16 + count)) ∧ Claims.SameOutside s t pa 8) ∧
    (Claims.Decodes false [a, b] [] false s →
      (Claims.le s (pa + 6) 2 ≠ (rv s b).toNat % 2 ^ 16 →
        ∃ t, exec (.barWait l n a b k) s = .next t ∧ t.me.pc = s.me.pc + 4 ∧ t.mem = s.mem ∧ t.me.regs = s.me.regs) ∧
      (Claims.le s (pa + 6) 2 = (rv s b).toNat % 2 ^ 16 → (coreAt s s.me.place).bars.length < 16 →
        ∃ t e, exec (.barWait l n a b k) s = .next t ∧ t.me.pc = s.me.pc ∧ t.me.park = some .barWait ∧ t.mem = s.mem ∧
          (coreAt t s.me.place).bars = (coreAt s s.me.place).bars ++ [e] ∧ e.sid = s.cur ∧ e.word = pa ∧
          e.want = (rv s b).toNat % 2 ^ 16))) ∧
  (∀ (s : State) (core word : Nat) (w : WordWait) (v : Word) (x : Strand), (coreAt s core).bars = [w] → w.word = word →
    w.seen = some v → v.toNat / 2 ^ 48 ≠ w.want → w.k = 0 → w.drop = [] → w.sd = 0 → tget s.strands w.sid = some x →
    ∃ t, exec (.barWaitService core word) s = .next t ∧ (coreAt t core).bars = [] ∧
      tget t.strands w.sid = some { x with park := none, pc := x.pc + 4, readyAt := s.now + 2, carried := none } ∧ t.mem = s.mem) ∧
  (∀ i level, (i, level) ∈ [(Instr.barCore 0, 0), (.barCluster 0, 1), (.barTower 0, 2), (.barModule 0, 3), (.barPod 0, 4)] →
    ∀ (s : State) (g : Nat), isCore s.me.place = true → s.me.grid = some g →
    (s.episodes = [] → (s.me.run ≠ .idle) → tget s.strands s.cur = some s.me →
      ∃ t e, exec i s = .next t ∧ t.me.pc = s.me.pc + 4 ∧ t.me.park = some .barLevel ∧ t.episodes = [e] ∧ e.grid = g ∧ e.level = level ∧
        e.group = groupOf level s.me.native ∧ e.arrived = [s.cur] ∧ s.cur ∈ e.members ∧ t.mem = s.mem ∧
        (e.members = [s.cur] → ∃ d, (s.now + d, Instr.barrierRelease e.id) ∈ t.agenda)) ∧
    (∀ e, s.episodes = [e] → e.grid = g → e.level = level → e.group = groupOf level s.me.native → e.complete = false →
      e.behind = false →
      (s.cur ∈ e.members → s.cur ∉ e.left → ∃ t f, exec i s = .next t ∧ t.me.pc = s.me.pc + 4 ∧ t.me.park = some .barLevel ∧ t.episodes = [f] ∧ f.id = e.id ∧
        f.members = e.members ∧ s.cur ∈ f.arrived ∧ f.waiting = e.waiting ++ [2 * s.cur] ∧ t.mem = s.mem) ∧
      (s.cur ∉ e.members ∨ s.cur ∈ e.left → ∃ t f, exec i s = .next t ∧ t.me.pc = s.me.pc + 4 ∧ t.me.park = some .barLevel ∧ t.episodes = [e, f] ∧
        f.grid = g ∧ f.level = level ∧ f.group = e.group ∧ f.behind = true ∧ f.arrived = [s.cur] ∧ t.mem = s.mem))) ∧
  (∀ (s : State) (e : Episode) (x : Strand) (i : Nat), s.episodes = [e] → e.waiting = [2 * i] → tget s.strands i = some x →
    x.park = some .barLevel → x.grid = some e.grid →
    ∃ t, exec (.barrierRelease e.id) s = .next t ∧ t.episodes = [] ∧
      tget t.strands i = some { x with park := none, readyAt := max x.readyAt (s.now + 2) } ∧ t.mem = s.mem)

/-! ### Vector and matrix -/

namespace Sys2Proof.Claims

noncomputable section

/-- The instructions of R222 that have a `.vs` form. -/
def vectorTwo : List (BitVec 1 → BitVec 2 → BitVec 5 → BitVec 5 → BitVec 3 → BitVec 5 → BitVec 1 → Instr) :=
  [.vadd, .vsub, .vmul, .vfma, .vfms, .vfnma, .vmin, .vmax, .vcmpEq, .vcmpLt, .vcmpLe, .vsel, .viadd, .visub, .vimul, .vimad,
   .vand, .vor, .vxor, .vshl, .vshr, .vsra, .vimin, .vimax, .vicmpEq, .vicmpLt, .vicmpLe]

/-- Instructions on registers only, with the scalar registers that they read: operand a, operand b (R191, R237 to R243). -/
def vectorPlain (y : BitVec 2) (b a : BitVec 5) (m : BitVec 3) (d : BitVec 5) (k : BitVec 1) (t f : BitVec 4) (z : BitVec 1) :
    List (Instr × Option (BitVec 5) × Option (BitVec 5)) :=
  [(.vabs y a m d k, none, none), (.vneg y a m d k, none, none), (.vrcp y a m d k, none, none), (.vrsq y a m d k, none, none),
   (.vsqrt y a m d k, none, none), (.vexp2 y a m d k, none, none), (.vlog2 y a m d k, none, none), (.vmov y a m d k, none, none),
   (.vperm y b a m d k, none, none), (.vrot y b a m d k, none, some b), (.vbcast y a m d k, some a, none),
   (.vins y b a d k, some a, some b), (.mand b a d k, none, none), (.mor b a d k, none, none), (.mnot a d k, none, none),
   (.vcvt t z f a m d k, none, none), (.vpack f a d k, none, none), (.vunpack f a d k, none, none),
   (.vqblk z b a m d k, none, some b), (.vscl z b a m d k, none, some b)]

/-- Instructions with a scalar result, with the scalar register that they read (R193). -/
def vectorScalar (y : BitVec 2) (b a : BitVec 5) (m : BitVec 3) (d : BitVec 5) (k : BitVec 1) : List (Instr × Option (BitVec 5)) :=
  [(.vredsum y a m d k, none), (.vredmax y a m d k, none), (.vredmin y a m d k, none), (.mpop a d k, none),
   (.vext y b a d k, some b)]

/-- A vector instruction may enter its queue: on a core, decoded, an entry free, the file of the grid or of none, and the mask
and index that it reads at issue are not still to be written (R190, R191, R229). -/
def VectorReady (s : State) (srcs dsts : List (BitVec 5)) (late : Bool) (mask : Nat) (vi : Option Nat) : Prop :=
  isCore s.me.place = true ∧ s.me.slot < 32 ∧ Decodes false srcs dsts late s ∧ (scAt s s.me.place s.mySc).dq.length + flying s (some s.mySc) vectorWord < 8 ∧
    ((scAt s s.me.place s.mySc).vf.tag = none ∨ (scAt s s.me.place s.mySc).vf.tag = s.me.grid) ∧
    namesBusy s s.me.place s.mySc mask vi = false

/-- The entry stands last in the queue of the strand's scalar core with the captured scalars, mode and flush setting; the
strand has gone on (R191, R193). -/
def VectorQueued (s t : State) (id : Nat) (i : Instr) (a b : Word) (es : List VElem) (w tag : Nat) : Prop :=
  (scAt t s.me.place s.mySc).dq = (scAt s s.me.place s.mySc).dq ++
      [⟨id, s.cur, s.now, i, a, b, s.me.fcsr.extractLsb' 5 2, s.me.fcsr.getLsbD 7, es, w, tag⟩] ∧
    (scAt t s.me.place s.mySc).vf.tag = s.me.grid ∧ (scAt t s.me.place s.mySc).vf.v = (scAt s s.me.place s.mySc).vf.v ∧
    (scAt t s.me.place s.mySc).vf.m = (scAt s s.me.place s.mySc).vf.m ∧ t.me.pc = s.me.pc + 4 ∧ t.me.vents = s.me.vents + 1 ∧
    t.me.regs = s.me.regs ∧ t.mem = s.mem

/-- A register's value, or 0 where the instruction reads none. -/
def captured (s : State) : Option (BitVec 5) → Word
  | some r => regVal s.me r.toNat
  | none => 0

/-- Rounding of a lane's exact value, once, with its flags (R221). -/
def laneOut (t : Nat) (m : BitVec 2) (z : Bool) (r : FVal × FFlags) : Nat × FFlags :=
  ((fround t m false z r.1).1, (fround t m false z r.1).2 ||| r.2)

/-- The floating-point lane results (R223): format, mode, flush setting, operands a, b and c. -/
def floatLanes : List ((BitVec 1 → BitVec 2 → BitVec 5 → BitVec 5 → BitVec 3 → BitVec 5 → BitVec 1 → Instr) ×
    (Nat → BitVec 2 → Bool → Nat → Nat → Nat → Nat × FFlags)) :=
  [(.vadd, fun t m z a b _ => laneOut t m z (fadd2 m (fdec t z a) (fdec t z b))),
   (.vsub, fun t m z a b _ => laneOut t m z (fadd2 m (fdec t z a) (fdec t z b).negate)),
   (.vmul, fun t m z a b _ => laneOut t m z (fmul2 (fdec t z a) (fdec t z b))),
   (.vfma, fun t m z a b c => laneOut t m z (ffma3 m (fdec t z a) (fdec t z b) (fdec t z c))),
   (.vfms, fun t m z a b c => laneOut t m z (ffma3 m (fdec t z a) (fdec t z b) (fdec t z c).negate)),
   (.vfnma, fun t m z a b c => laneOut t m z (ffma3 m (fdec t z a).negate (fdec t z b) (fdec t z c))),
   (.vmin, fun t _ z a b _ => fminmax t z false a b), (.vmax, fun t _ z a b _ => fminmax t z true a b)]

/-- The rounded unary lane results (R223). -/
def unaryLanes : List ((BitVec 2 → BitVec 5 → BitVec 3 → BitVec 5 → BitVec 1 → Instr) × (FVal → FVal × FFlags)) :=
  [(.vrcp, fdiv2 (ofInt 1)), (.vrsq, frsq1), (.vsqrt, fsqrt1), (.vexp2, fexp2), (.vlog2, flog2)]

/-- The signed value of an n-bit pattern. -/
def sgn (n x : Nat) : Int := if x < 2 ^ (n - 1) then (x : Int) else (x : Int) - (2 ^ n : Nat)

/-- The integer lane results modulo 2^n, n the lane's bits (R224). -/
def intLanes : List ((BitVec 1 → BitVec 2 → BitVec 5 → BitVec 5 → BitVec 3 → BitVec 5 → BitVec 1 → Instr) ×
    (Nat → Nat → Nat → Nat → Int)) :=
  [(.viadd, fun _ a b _ => (a : Int) + b), (.visub, fun _ a b _ => (a : Int) - b), (.vimul, fun _ a b _ => (a : Int) * b),
   (.vimad, fun _ a b c => (a : Int) * b + c), (.vand, fun _ a b _ => ((a &&& b : Nat) : Int)),
   (.vor, fun _ a b _ => ((a ||| b : Nat) : Int)), (.vxor, fun _ a b _ => ((a ^^^ b : Nat) : Int)),
   (.vshl, fun n a b _ => (a : Int) * (2 ^ (b % n) : Nat)), (.vshr, fun n a b _ => ((a / 2 ^ (b % n) : Nat) : Int)),
   (.vsra, fun n a b _ => sgn n a / (2 ^ (b % n) : Nat)), (.vimin, fun n a b _ => min (sgn n a) (sgn n b)),
   (.vimax, fun n a b _ => max (sgn n a) (sgn n b))]

/-- The head of a scalar core's queue is accepted: the unit computes on the file as it stands, and the result, which no element is
missing from, is written 5 cycles later (R192). -/
def Accepted (s t : State) (place sc : Nat) (e : VEntry) (rest : List VEntry) (out : VOut) (fl : FFlags) : Prop :=
  (scAt t place sc).dq = rest ∧ (scAt t place sc).vf = (scAt s place sc).vf ∧
    (∃ c, (coreAt t place).vruns = (coreAt s place).vruns ++ [⟨sc, e, out, fl, 0, 0, [], c⟩]) ∧
    (s.now + 5, Instr.vectorEntryComplete place e.id) ∈ t.agenda ∧ t.mem = s.mem ∧ t.strands = s.strands

/-- Operand b of lane i: the captured scalar's low bytes in the `.vs` form, else the lane of the second vector. -/
def laneB (f : VFile) (e : VEntry) (v : BitVec 1) (a : BitVec 5) (w i : Nat) : Nat :=
  if v = 1 then e.b.toNat % 2 ^ (8 * w) else elem (vget f.v a.toNat 0) w i

/-- Lane i takes part: its mask bit is set, or the mask is m0 (R219). -/
def laneOn (f : VFile) (m : BitVec 3) (w i : Nat) : Bool :=
  decide (m = 0) || (vget f.m m.toNat 0).getLsbD (if w = 1 then i / 2 else i)

/-- Active lanes hold g's value, the others are as they were; a flag is raised where an active lane raises it. -/
def LanesAre (f : VFile) (m : BitVec 3) (d : BitVec 5) (w : Nat) (data : BitVec 4096) (fl : FFlags) (g : Nat → Nat × FFlags) : Prop :=
  (∀ i, i < 512 / w → elem data w i = if laneOn f m w i then (g i).1 % 2 ^ (8 * w) else elem (vget f.v d.toNat 0) w i) ∧
    ∀ j, j < 5 → (fl.getLsbD j = true ↔ ∃ i, i < 512 / w ∧ laneOn f m w i = true ∧ (g i).2.getLsbD j = true)

/-- Every element of the entry names w bytes of a scratchpad, no two of them the same lane or overlapping bytes. -/
def OnPads (s : State) (e : VEntry) : Prop :=
  (e.width = 1 ∨ e.width = 2 ∨ e.width = 4 ∨ e.width = 8) ∧ (e.elems.map VElem.j).Nodup ∧
    (∀ x ∈ e.elems, x.j < 512 / e.width ∧ ∃ pa c o, x.pa = some pa ∧ space s pa = .pad c o) ∧
    ∀ x ∈ e.elems, ∀ y ∈ e.elems, x ≠ y → ∀ p q, x.pa = some p → y.pa = some q → p + e.width ≤ q ∨ q + e.width ≤ p

/-- The entry is a vector load, or a store, of register d (R227 to R232). -/
def VectorAccess (e : VEntry) (d : Nat) (load : Bool) : Prop :=
  ∃ (i : BitVec 4) (n a v : BitVec 5) (m : BitVec 3) (q : BitVec 6) (k : BitVec 1), v.toNat = d ∧
    if load then e.instr ∈ [Instr.vld n a m v k, .vlds n a m v k, .vldg i n a m v k, .vldt q a v k]
    else e.instr ∈ [Instr.vst n a m v k, .vsts n a m v k, .vstg i n a m v k, .vstt q a v k]

/-- A matrix command may enter its queue (R181, R194). -/
def MatrixReady (s : State) (srcs : List (BitVec 5)) (n : Nat) : Prop :=
  isCore s.me.place = true ∧ s.me.slot < 32 ∧ Decodes false srcs [] false s ∧ s.me.vmems = 0 ∧
    (scAt s s.me.place s.mySc).mq.length + flying s (some s.mySc) matrixWord < 8 ∧ n ≤ locksFree s s.me.place

/-- The tile is the strand's own and ready (R164, R246). -/
def TileReady (s : State) (t : BitVec 6) : Prop :=
  (tileAt s s.me.place t.toNat).defined = true ∧ (tileAt s s.me.place t.toNat).grid = ctxKey s.me ∧
    (tileAt s s.me.place t.toNat).st = .ready

/-- The command stands last in the queue, counted in class core, with its ranges locked; the strand has gone on. -/
def MatrixQueued (s t : State) (i : Instr) (sa sb : Word) (x : Tile) (ranges : List (Nat × Nat)) : Prop :=
  (∃ c, (scAt t s.me.place s.mySc).mq = (scAt s s.me.place s.mySc).mq ++ [c] ∧ c.id = s.fresh ∧ c.sid = s.cur ∧ c.instr = i ∧
    c.sa = sa ∧ c.sb = sb ∧ c.base = x.base ∧ c.len = x.len ∧ c.pc = s.me.pc) ∧
    ((coreAt t s.me.place).locks.map (fun l => (l.base, l.len)) = (coreAt s s.me.place).locks.map (fun l => (l.base, l.len)) ++ ranges) ∧
    t.me.eng.core = s.me.eng.core + 1 ∧ t.me.pc = s.me.pc + 4 ∧ t.me.regs = s.me.regs ∧ t.mem = s.mem

/-- A command that has completed: its memory effect is done, its token stands in q10, the unit is free (R195, R196). -/
def MatrixDone (s t : State) (place sc : Nat) (c : MCmd) : Prop :=
  (coreAt t place).mrun = none ∧ (∃ w, (scAt t place sc).q10 = (scAt s place sc).q10 ++ [(w, c.grid)] ∧
    w.toNat % 2 ^ 56 = c.pc.toNat % 2 ^ 56) ∧ (coreAt t place).locks = (coreAt s place).locks.filter (fun l => l.op != c.id)

end

end Sys2Proof.Claims

/-- R191, R193, R222: a vector instruction on registers writes an entry of its scalar core's queue with the scalars that it
read, and the strand goes on; one with a scalar result leaves its register pending.
Model's reading, not the spec's: log 9 (DESIGN CHOICE), log 37 (DESIGN CHOICE). -/
def Obligations.VectorIssue : Prop :=
  (∀ op ∈ Claims.vectorTwo, ∀ (v : BitVec 1) (y : BitVec 2) (b a : BitVec 5) (m : BitVec 3) (d : BitVec 5) (k : BitVec 1) (s : State),
    Claims.VectorReady s (if v = 1 then [a] else []) [] false 0 none →
    ∃ t, exec (op v y b a m d k) s = .next t ∧
      Claims.VectorQueued s t s.fresh (op v y b a m d k) 0 (Claims.captured s (if v = 1 then some a else none)) [] 0 0) ∧
  (∀ (y : BitVec 2) (b a : BitVec 5) (m : BitVec 3) (d : BitVec 5) (k : BitVec 1) (t f : BitVec 4) (z : BitVec 1) (s : State),
    (∀ e ∈ Claims.vectorPlain y b a m d k t f z, Claims.VectorReady s (e.2.1.toList ++ e.2.2.toList) [] false 0 none →
      ∃ t, exec e.1 s = .next t ∧ Claims.VectorQueued s t s.fresh e.1 (Claims.captured s e.2.1) (Claims.captured s e.2.2) [] 0 0) ∧
    (∀ e ∈ Claims.vectorScalar y b a m d k, Claims.VectorReady s e.2.toList [d] true 0 none →
      ∃ t, exec e.1 s = .next t ∧ Claims.VectorQueued s t (s.fresh + 1) e.1 0 (Claims.captured s e.2) [] 0 s.fresh ∧
        t.me.late = s.me.late ++ [⟨s.fresh, d.toNat, 2, s.me.pc, s.me.pc, false, none⟩] ∧ (d ≠ 0 → awaits t.me d.toNat = true)))

/-- R192, R219, R221, R223, R224: an accepted lane operation writes each active lane with its operands' result, rounded once
in the mode captured at issue, and leaves the other lanes; the flags are those of the active lanes. -/
def Sys2Proof.Claims.VectorLanes : Prop :=
  ∀ (s : State) (place sc : Nat) (e : VEntry) (rest : List VEntry) (v : BitVec 1) (y : BitVec 2) (b a : BitVec 5) (m : BitVec 3)
    (d : BitVec 5) (k : BitVec 1), sc < 4 → y.toNat < 3 → (scAt s place sc).dq = e :: rest → vEligible s place sc = true →
    let f := (scAt s place sc).vf
    let wf := if y = 0 then 4 else 2
    let wi := 4 / 2 ^ y.toNat
    let old := fun w i => elem (vget f.v d.toNat 0) w i
    let lane := fun w i => elem (vget f.v (if v = 1 then b.toNat else a.toNat) 0) w i
    (∀ op g, (op, g) ∈ Claims.floatLanes → e.instr = op v y b a m d k →
      ∃ t data bad fl, exec (.vectorEntryAccept place sc) s = .next t ∧ Claims.Accepted s t place sc e rest (.vec d.toNat data bad) fl ∧
        Claims.LanesAre f m d wf data fl (fun i => g (5 + y.toNat) e.mode e.ftz (lane wf i) (Claims.laneB f e v b wf i) (old wf i))) ∧
    (∀ op g, (op, g) ∈ Claims.unaryLanes → e.instr = op y a m d k →
      ∃ t data bad fl, exec (.vectorEntryAccept place sc) s = .next t ∧ Claims.Accepted s t place sc e rest (.vec d.toNat data bad) fl ∧
        Claims.LanesAre f m d wf data fl (fun i => Claims.laneOut (5 + y.toNat) e.mode e.ftz
          (g (fdec (5 + y.toNat) e.ftz (elem (vget f.v a.toNat 0) wf i))))) ∧
    (∀ op g, (op, g) ∈ Claims.intLanes → e.instr = op v y b a m d k →
      ∃ t data bad fl, exec (.vectorEntryAccept place sc) s = .next t ∧ Claims.Accepted s t place sc e rest (.vec d.toNat data bad) fl ∧
        Claims.LanesAre f m d wi data fl (fun i => ((g (8 * wi) (lane wi i) (Claims.laneB f e v b wi i) (old wi i) %
          (2 ^ (8 * wi) : Nat)).toNat, 0)))

/-- R192, R193, R225, R237: what masks, moves and completions write. A comparison sets the bits of the active lanes whose
relation holds; mask operations are bitwise; a move copies lanes; the result of an entry enters the file of its scalar core
and its flags accrue, or returns to its strand 7 cycles later. -/
def Sys2Proof.Claims.VectorMasksAndMoves : Prop :=
  (∀ (s : State) (place sc : Nat) (e : VEntry) (rest : List VEntry) (v : BitVec 1) (y : BitVec 2) (b a : BitVec 5) (m : BitVec 3)
    (d : BitVec 5) (k : BitVec 1), sc < 4 → y.toNat < 3 → (scAt s place sc).dq = e :: rest → vEligible s place sc = true →
    let f := (scAt s place sc).vf
    let wf := if y = 0 then 4 else 2
    let wi := 4 / 2 ^ y.toNat
    let lane := fun w i => elem (vget f.v (if v = 1 then b.toNat else a.toNat) 0) w i
    (∀ op r, (op, r) ∈ [(Instr.vcmpEq, fun (o : Ordering) => o == .eq), (.vcmpLt, fun o => o == .lt), (.vcmpLe, fun o => o != .gt)] →
      e.instr = op v y b a m d k →
      ∃ t x bad fl, exec (.vectorEntryAccept place sc) s = .next t ∧ Claims.Accepted s t place sc e rest (.mask d.toNat x bad) fl ∧
        ∀ i, i < 256 → (x.getLsbD i = true ↔ i < 512 / wf ∧ Claims.laneOn f m wf i = true ∧
          ((fcmp (fdec (5 + y.toNat) e.ftz (lane wf i)) (fdec (5 + y.toNat) e.ftz (Claims.laneB f e v b wf i))).map r) = some true)) ∧
    (∀ op r, (op, r) ∈ [(Instr.vicmpEq, fun (p q : Int) => decide (p = q)), (.vicmpLt, fun p q => decide (p < q)),
        (.vicmpLe, fun p q => decide (p ≤ q))] → e.instr = op v y b a m d k →
      ∃ t x bad fl, exec (.vectorEntryAccept place sc) s = .next t ∧ Claims.Accepted s t place sc e rest (.mask d.toNat x bad) fl ∧
        fl = 0 ∧ ∀ i, i < 256 →
          let on (j : Nat) : Bool := decide (j < 512 / wi) && Claims.laneOn f m wi j &&
            r (Claims.sgn (8 * wi) (lane wi j)) (Claims.sgn (8 * wi) (Claims.laneB f e v b wi j))
          x.getLsbD i = if wi = 1 then on (2 * i) && on (2 * i + 1) else on i) ∧
    (e.instr = .vmov y a m d k ∨ e.instr = .vrot y b a m d k ∨ e.instr = .vbcast y a m d k →
      ∃ t data bad, exec (.vectorEntryAccept place sc) s = .next t ∧ Claims.Accepted s t place sc e rest (.vec d.toNat data bad) 0 ∧
        Claims.LanesAre f m d wi data 0 (fun i =>
          (if e.instr = .vbcast y a m d k then e.a.toNat
            else elem (vget f.v a.toNat 0) wi (if e.instr = .vmov y a m d k then i else (i + e.b.toNat) % (512 / wi)), 0)))) ∧
  (∀ (s : State) (place sc : Nat) (e : VEntry) (rest : List VEntry) (b a d : BitVec 5) (k : BitVec 1), sc < 4 →
    (scAt s place sc).dq = e :: rest → vEligible s place sc = true →
    let mask := fun (r : BitVec 5) => if r = 0 then BitVec.allOnes 256 else vget (scAt s place sc).vf.m r.toNat 0
    (∀ i x, (i, x) ∈ [(Instr.mand b a d k, mask a &&& mask b), (.mor b a d k, mask a ||| mask b), (.mnot a d k, ~~~(mask a))] →
      e.instr = i → ∃ t bad, exec (.vectorEntryAccept place sc) s = .next t ∧ Claims.Accepted s t place sc e rest (.mask d.toNat x bad) 0) ∧
    (e.instr = .mpop a d k → ∃ t n bad, exec (.vectorEntryAccept place sc) s = .next t ∧
      Claims.Accepted s t place sc e rest (.scalar (BitVec.ofNat 64 n) bad) 0 ∧
      n = ((List.range 256).filter (fun i => (mask a).getLsbD i)).length)) ∧
  (∀ (s : State) (place : Nat) (r : VRun) (x : Strand), (coreAt s place).vruns = [r] → r.sc < 4 → tget s.strands r.e.sid = some x →
    r.todo = 0 → vmemOf r.e = none →
    ∃ t, exec (.vectorEntryComplete place r.e.id) s = .next t ∧ (coreAt t place).vruns = [] ∧ t.mem = s.mem ∧
      tget t.strands r.e.sid = some { x with vents := x.vents - 1, fcsr := x.fcsr ||| r.flags.setWidth 8 } ∧
      (∀ d v b, r.out = .vec d v b → (scAt t place r.sc).vf.v = vset (scAt s place r.sc).vf.v d v ∧
        (scAt t place r.sc).vf.poison = vset (scAt s place r.sc).vf.poison d b) ∧
      (∀ d v b, r.out = .mask d v b → (scAt t place r.sc).vf.m = vset (scAt s place r.sc).vf.m d v) ∧
      (∀ v b, r.out = .scalar v b → (s.now + 7, Instr.lateResultReturn place r.e.sid ⟨r.e.tag, v, b, 0⟩) ∈ t.agenda))

/-- R217 to R247: the lanes of vector instructions, their masks and moves.
Model's reading, not the spec's: log 37 (DESIGN CHOICE), log 38 (DESIGN CHOICE). -/
def Obligations.VectorArithmetic : Prop :=
  Claims.VectorLanes ∧ Claims.VectorMasksAndMoves

/-- R181, R227 to R234: a vector load or store whose elements pass their checks enters the queue with them. When the unit takes it, its
elements enter the home port from the next cycle on, 32 in each of a strided, gather or scatter form: a load's lanes are the bytes at its
elements' addresses as each enters, and its register is written when all are there; a store puts its lanes there and changes nothing else.
Model's reading, not the spec's: log 37 (DESIGN CHOICE). -/
def Obligations.VectorMemory : Prop :=
  (∀ (i : BitVec 4) (n a : BitVec 5) (m : BitVec 3) (d : BitVec 5) (k : BitVec 1) (s : State) (r : BitVec 256),
    recLoading s (32 + n.toNat) = false → recAt s (32 + n.toNat) = .ok r → recFmt r < 13 →
    let w := fmtWidth (recFmt r)
    ∀ x ∈ [(Instr.vld n a m d k, true, VForm.plain, none), (.vlds n a m d k, true, .strided, none),
        (.vldg i n a m d k, true, .gather, some i.toNat), (.vst n a m d k, false, .plain, none), (.vsts n a m d k, false, .strided, none),
        (.vstg i n a m d k, false, .gather, some i.toNat)],
    ∀ es, Claims.VectorReady s [a] [] false m.toNat x.2.2.2 →
      checkAll s (32 + n.toNat) w x.2.1 (((List.range (if x.2.2.1 = .gather then min (512 / w) 128 else 512 / w)).filter (fun j =>
        Claims.laneOn (scAt s s.me.place s.mySc).vf m w j)).map (fun j => (j, vOffset x.2.2.1 (rv s a) r
          (vget (scAt s s.me.place s.mySc).vf.v (x.2.2.2.getD 0) 0) w j))) = .ok es →
      ∃ t, exec x.1 s = .next t ∧ Claims.VectorQueued s t s.fresh x.1 0 0 es w 0 ∧ t.me.vmems = s.me.vmems + 1 ∧
        t.me.posted = s.me.posted + (if x.2.1 then 0 else 1)) ∧
  (∀ (q : BitVec 6) (a d : BitVec 5) (k : BitVec 1) (s : State), ∀ x ∈ [(Instr.vldt q a d k, true), (.vstt q a d k, false)],
    Claims.VectorReady s [a] [] false 0 none → Claims.TileReady s q → (rv s a).toNat % 32 = 0 →
    (rv s a).toNat + 512 ≤ (tileAt s s.me.place q.toNat).len →
    (∀ j, j < 128 → lockedAt s s.me.place ((tileAt s s.me.place q.toNat).base + (rv s a).toNat + 4 * j) 4 = false) →
    ∃ t, exec x.1 s = .next t ∧ Claims.VectorQueued s t s.fresh x.1 0 0 ((List.range 128).map (fun j =>
        ⟨j, some (sramBase s.me.place + (tileAt s s.me.place q.toNat).base + (rv s a).toNat + 4 * j), 0, 0⟩)) 4 0 ∧
      t.me.vmems = s.me.vmems + 1) ∧
  (∀ (s : State) (place sc : Nat) (e : VEntry) (rest : List VEntry) (d : Nat) (load : Bool), sc < 4 → (scAt s place sc).dq = e :: rest →
    vEligible s place sc = true → Claims.VectorAccess e d load →
    ∃ t bad c, exec (.vectorEntryAccept place sc) s = .next t ∧ t.mem = s.mem ∧ (scAt t place sc).dq = rest ∧
      (coreAt t place).vruns = (coreAt s place).vruns ++
        [⟨sc, e, .vec d (if load then 0 else vget (scAt s place sc).vf.v d 0) bad, 0, holdCycles e, 0, [], c⟩] ∧
      (s.now + 1, Instr.vectorEntryComplete place e.id) ∈ t.agenda) ∧
  (∀ (s : State) (place : Nat) (r : VRun) (d : Nat), s.Inv → (coreAt s place).vruns = [r] → Claims.OnPads s r.e → r.todo ≠ 0 → r.left = 0 →
    let xs := batchOf r.e (holdCycles r.e - r.todo)
    (Claims.VectorAccess r.e d true →
      ∃ t got, exec (.vectorEntryComplete place r.e.id) s = .next t ∧ t.mem = s.mem ∧
        (coreAt t place).vruns = [{ r with todo := r.todo - 1, got := r.got ++ got }] ∧ got.map Prod.fst = xs.map VElem.j ∧
        (∀ x ∈ xs, ∀ pa, x.pa = some pa → ∃ g ∈ got, g.1 = x.j ∧ g.2.1 = Claims.le s pa r.e.width) ∧
        (s.now + (if r.todo = 1 then r.at_ - s.now else 1), Instr.vectorEntryComplete place r.e.id) ∈ t.agenda) ∧
    (∀ v p, Claims.VectorAccess r.e d false → r.out = .vec d v p →
      ∃ t, exec (.vectorEntryComplete place r.e.id) s = .next t ∧ (coreAt t place).vruns = [{ r with todo := r.todo - 1 }] ∧
        (s.now + (if r.todo = 1 then 4 else 1), Instr.vectorEntryComplete place r.e.id) ∈ t.agenda ∧
        (∀ x ∈ xs, ∀ pa, x.pa = some pa → Claims.Holds t pa r.e.width (BitVec.ofNat 64 (elem v r.e.width x.j))) ∧
        (∀ b, (∀ x ∈ xs, ∀ pa, x.pa = some pa → b < pa ∨ pa + r.e.width ≤ b) → memGet t.mem b = memGet s.mem b))) ∧
  (∀ (s : State) (place : Nat) (r : VRun) (d : Nat), (coreAt s place).vruns = [r] → r.sc < 4 → d < 32 → r.todo = 0 →
    (r.e.width = 1 ∨ r.e.width = 2 ∨ r.e.width = 4 ∨ r.e.width = 8) → (r.got.map Prod.fst).Nodup →
    (∀ g ∈ r.got, g.1 < 512 / r.e.width ∧ g.2.1 < 2 ^ (8 * r.e.width)) →
    (Claims.VectorAccess r.e d true →
      ∃ t data, exec (.vectorEntryComplete place r.e.id) s = .next t ∧ t.mem = s.mem ∧ (coreAt t place).vruns = [] ∧
        (scAt t place r.sc).vf.v = vset (scAt s place r.sc).vf.v d data ∧ (∀ g ∈ r.got, elem data r.e.width g.1 = g.2.1) ∧
        (∀ j, j < 512 / r.e.width → (∀ g ∈ r.got, g.1 ≠ j) →
          elem data r.e.width j = elem (vget (scAt s place r.sc).vf.v d 0) r.e.width j)) ∧
    (Claims.VectorAccess r.e d false →
      ∃ t, exec (.vectorEntryComplete place r.e.id) s = .next t ∧ t.mem = s.mem ∧ (coreAt t place).vruns = [] ∧
        (scAt t place r.sc).vf = (scAt s place r.sc).vf))

/-- R194, R195, R196, R246, R251: a matrix instruction whose operands pass their checks enters its queue with its ranges
locked; the unit takes the commands of its core one at a time; a multiply adds its groups to each element of C, `acc.zero`
zeroes its range, `loft.ld` copies its tile, and each leaves its token in q10.
Model's reading, not the spec's: log 38 (DESIGN CHOICE). -/
def Obligations.MatrixCommands : Prop :=
  (∀ (l o : BitVec 1) (q : BitVec 6) (a b : BitVec 5) (f : BitVec 3) (g : BitVec 2) (k : BitVec 1) (s : State),
    let x := tileAt s s.me.place q.toNat
    let h := matShape (rv s a) (rv s b)
    let rs := [(x.base, x.len), (0x20000000 + h.boff, 512 * h.k * h.pitch), (0x28000000 + h.aoff, 4 * h.m * h.n)]
    (Claims.TileReady s q → Claims.MatrixReady s [a, b] 4 →
      (∀ i trans, (i, trans) ∈ [(Instr.mma l o q a f b k, false), (.mmaT l o q a f b k, true)] →
        matCheck ⟨f.toNat, trans, false⟩ x.len 0 q (rv s a) (rv s b) = none →
        ∃ t, exec i s = .next t ∧ Claims.MatrixQueued s t i (rv s a) (rv s b) x rs) ∧
      (∀ c, tget (coreAt s s.me.place).ctx (ctxKey s.me) = some c →
        let sbase := if g = 0 then c.sbase6.toNat else c.sbase7.toNat
        matCheck ⟨g.toNat, false, true⟩ x.len sbase q (rv s a) (rv s b) = none →
        ∃ t, exec (.mmas l o q a g b k) s = .next t ∧ Claims.MatrixQueued s t (.mmas l o q a g b k) (rv s a) (rv s b) x
          (rs ++ [(sbase, scaleLen ⟨g.toNat, false, true⟩ h)]))) ∧
    (Claims.MatrixReady s [a, b] 1 → (rv s a).toNat % 4 = 0 → (rv s b).toNat % 4 = 0 → 4 ≤ (rv s b).toNat →
      (rv s a).toNat + (rv s b).toNat ≤ 0x100000 →
      ∃ t y, exec (.accZero l o a b k) s = .next t ∧ Claims.MatrixQueued s t (.accZero l o a b k) (rv s a) (rv s b) y
        [(0x28000000 + (rv s a).toNat, (rv s b).toNat)]) ∧
    (Claims.TileReady s q → Claims.MatrixReady s [a] 2 →
      (∀ w, w = (if f = 6 then 4 else 2) → (rv s a).toNat % 4 = 0 → (rv s a).toNat + 4 * (x.len / w) ≤ 0x100000 →
        ∀ i ∈ [Instr.accRd l q a f k, .accWr l q a f k], ∃ t, exec i s = .next t ∧
          Claims.MatrixQueued s t i (rv s a) 0 x [(x.base, x.len), (0x28000000 + (rv s a).toNat, 4 * (x.len / w))]) ∧
      ((rv s a).toNat % 512 = 0 → (rv s a).toNat + x.len ≤ 0x800000 →
        ∃ t, exec (.loftLd l q a k) s = .next t ∧ Claims.MatrixQueued s t (.loftLd l q a k) (rv s a) 0 x
          [(x.base, x.len), (0x20000000 + (rv s a).toNat, x.len)]))) ∧
  (∀ (s : State) (place sc : Nat) (c : MCmd) (rest : List MCmd), mNext s place = some sc → (scAt s place sc).mq = c :: rest →
    ∃ t, exec (.matrixCommandStart place) s = .next t ∧ (scAt t place sc).mq = rest ∧ (coreAt t place).mrun = some (sc, c) ∧
      (coreAt t place).mserved = sc ∧ (s.now + cmdCycles c, Instr.matrixCommandComplete place) ∈ t.agenda ∧ t.mem = s.mem) ∧
  (∀ (s : State) (place sc : Nat) (c : MCmd) (l o : BitVec 1) (q : BitVec 6) (a b : BitVec 5) (f : BitVec 3) (k : BitVec 1), s.Inv →
    (coreAt s place).mrun = some (sc, c) → sc < 4 → isCore place = true →
    (c.instr = .accZero l o a b k → c.sa.toNat + c.sb.toNat ≤ 0x100000 →
      ∃ t, exec (.matrixCommandComplete place) s = .next t ∧ Claims.MatrixDone s t place sc c ∧
        (∀ i, i < c.sb.toNat → memGet t.mem (sramBase place + 0x28000000 + c.sa.toNat + i) = 0) ∧
        Claims.SameOutside s t (sramBase place + 0x28000000 + c.sa.toNat) c.sb.toNat) ∧
    (c.instr = .loftLd l q a k → c.sa.toNat + c.len ≤ 0x800000 → c.len % 32 = 0 →
      ∃ t, exec (.matrixCommandComplete place) s = .next t ∧ Claims.MatrixDone s t place sc c ∧
        (∀ i, i < c.len → memGet t.mem (sramBase place + 0x20000000 + c.sa.toNat + i) = memGet s.mem (sramBase place + c.base + i)) ∧
        Claims.SameOutside s t (sramBase place + 0x20000000 + c.sa.toNat) c.len) ∧
    (c.instr = .mma l o q a f b k →
      let x := matShape c.sa c.sb
      let y : MatKind := ⟨f.toNat, false, false⟩
      let cell := fun i j => sramBase place + 0x28000000 + x.aoff + 4 * (i * x.n + j)
      ∃ t, exec (.matrixCommandComplete place) s = .next t ∧ Claims.MatrixDone s t place sc c ∧
        (∀ i j, i < x.m → j < x.n → Claims.le t (cell i j) 4 =
          (matElement y x (matIn s place y x c) i j (Claims.le s (cell i j) 4)).1 % 2 ^ 32) ∧
        Claims.SameOutside s t (cell 0 0) (4 * (x.m * x.n))))

/-! ### Couriers and reductions -/

namespace Sys2Proof.Claims

noncomputable section

/-- The range locks of both ends of a copy are free (R166): one for each contiguous run of this core's SRAM. -/
def CopyLocks (s u : State) (vs vd len : Nat) : Prop :=
  (lockOf s.me.place 0 (myRuns u vs len) ++ lockOf s.me.place 1 (myRuns u vd len)).length ≤ locksFree s s.me.place

/-- A piece of an operation of its core, in no pair of pieces that share a pick-up, nothing of a migration in its way. -/
def Flying (s : State) (n : Nat) (p : Piece) (o : Op) : Prop :=
  tget s.pieces n = some p ∧ tget s.ops p.op = some o ∧ p.mates = [] ∧ p.record = false ∧ fwdPa s p.src = p.src ∧ fwdPa s p.dst = p.dst

end

end Sys2Proof.Claims

/-- R253, R254, R259, R260, R261: `copy`, `copy.mc`, `copy.t` and `reduce` whose operands pass their checks become operations
of their core's copy queue; the strand goes on and memory is as it was.
Model's reading, not the spec's: log 31 (DESIGN CHOICE), log 68 (DESIGN CHOICE). -/
def Obligations.CourierIssue : Prop :=
  (∀ (c b a : BitVec 4) (n d : BitVec 5) (k : BitVec 1) (s : State) (len vs spa vd dpa : Nat),
    Claims.CourierReady s [a.setWidth 5, b.setWidth 5, c.setWidth 5] → 0 < len → len < 2 ^ 24 →
    regVal s.me c.toNat = BitVec.ofNat 64 len → Claims.EndOk s n (regVal s.me b.toNat) len false vs spa →
    Claims.EndOk (used s (BitVec.ofNat 64 vs)) d (regVal s.me a.toNat) len true vd dpa →
    Claims.CopyLocks s (used (used s (BitVec.ofNat 64 vs)) (BitVec.ofNat 64 vd)) vs vd len →
    (∃ t, exec (.copy c b n a d k) s = .next t ∧ Claims.SameMemory s t ∧
      Claims.Issued s t (fun o => o.kind = .copy ∧ o.src = vs ∧ o.dst = vd ∧ o.len = len ∧ o.tok = false)) ∧
    (homeOf dpa = s.me.place → dpa / 2 ^ 46 % 4 ≠ 0 →
      ∃ t, exec (.copyMc c b n a d k) s = .next t ∧ Claims.SameMemory s t ∧
        Claims.Issued s t (fun o => o.kind = .copyMc ∧ o.src = vs ∧ o.dst = vd ∧ o.len = len ∧ o.tok = false) ∧
        (myRuns (used (used s (BitVec.ofNat 64 vs)) (BitVec.ofNat 64 vd)) vd len = [(0, dpa, len)] →
          ∃ l ∈ (coreAt t s.me.place).locks, l.base = dpa % 2 ^ 31 ∧ l.len = len)) ∧
    (homeOf dpa ≠ s.me.place → ∃ t, exec (.copyMc c b n a d k) s = .next t ∧ t.me.cause = 6 ∧ t.me.epc = s.me.pc ∧
      t.me.tval = BitVec.ofNat 64 vd ∧ t.ops = s.ops)) ∧
  (∀ (c b : BitVec 4) (n : BitVec 5) (q : BitVec 6) (k : BitVec 1) (s : State) (len toff vs spa : Nat),
    Claims.CourierReady s [b.setWidth 5, c.setWidth 5] → 0 < len → len < 2 ^ 24 → toff < 2 ^ 22 →
    regVal s.me c.toNat = BitVec.ofNat 64 (toff * 2 ^ 24 + len) → (tileAt s s.me.place q.toNat).defined = true →
    (tileAt s s.me.place q.toNat).grid = ctxKey s.me → (tileAt s s.me.place q.toNat).st = .filling →
    toff + len ≤ (tileAt s s.me.place q.toNat).len → Claims.EndOk s n (regVal s.me b.toNat) len false vs spa →
    (lockOf s.me.place 0 (myRuns (used s (BitVec.ofNat 64 vs)) vs len)).length + 1 ≤ locksFree s s.me.place →
    ∃ t, exec (.copyT c b n q k) s = .next t ∧ Claims.SameMemory s t ∧ Claims.Issued s t (fun o => o.kind = .copyT ∧ o.src = vs ∧
      o.dst = sramBase s.me.place + (tileAt s s.me.place q.toNat).base + toff ∧ o.len = len ∧ o.tile = q.toNat ∧ o.toff = toff)) ∧
  (∀ (c b a : BitVec 4) (o f : BitVec 2) (n : BitVec 5) (k : BitVec 1) (s : State) (len id parties part va pa pol q : Nat) (win : Bool)
    (r : BitVec 256), Claims.CourierReady s [a.setWidth 5, b.setWidth 5, c.setWidth 5] → 0 < len → len < 2 ^ 24 →
    regVal s.me c.toNat = BitVec.ofNat 64 len → id < 2 ^ 16 → 2 ≤ parties → parties < 2 ^ 16 → part < parties →
    regVal s.me b.toNat = BitVec.ofNat 64 (id * 2 ^ 32 + parties * 2 ^ 16 + part) → len % redWidth f.toNat = 0 →
    recLoading s (32 + n.toNat) = false → recAt s (32 + n.toNat) = .ok r → 0 ≤ (regVal s.me a.toNat).toInt →
    (regVal s.me a.toNat).toInt + len ≤ (recExtent r : Int) → va = (recBase r + (regVal s.me a.toNat).toNat) % 2 ^ 64 →
    va % 65536 + len ≤ 65536 → va % redWidth f.toNat = 0 → translate s (BitVec.ofNat 64 va) true true false = .hit pa pol win →
    space s pa = .pad s.me.place q → q + len ≤ 0x3C0000 → homeOf pa = s.me.place → 1 ≤ locksFree s s.me.place →
    (∀ g, tget s.grids (s.me.grid.getD 0) = some g → g.redNotes = []) →
    ∃ t, exec (.reduce c b o f a n k) s = .next t ∧ Claims.SameMemory s t ∧ Claims.Issued s t (fun x => x.kind = .reduce ∧ x.runs = [(pa, len)] ∧
      x.len = len ∧ x.rid = id ∧ x.parties = parties ∧ x.part = part ∧ x.rop = o.toNat ∧ x.rfmt = f.toNat))

/-- R254, R255, R257, R260, R262, R265: what couriers do (no pod link and no earlier failure on the way). The head of a core's copy queue launches its piece; the courier
takes the bytes as its source home holds them and puts them down at its destination, where nothing else changes; the report
of the last piece ends the operation and its count; a combining window sends one courier at its end; the first chunk of a
reduction to reach its node takes an entry, the second is combined with it into a result that sets out for each participant, where it is
set down in its buffer. -/
def Sys2Proof.Claims.CourierEvents : Prop :=
  (∀ (s : State) (n : Nat) (p : Piece) (o : Op), Claims.Flying s n p o → o.kind = .copy → o.stopped = false → o.flying = n → n ≠ 0 →
    migrating s o.place = false → (coreAt s o.place).copyq = [p.op] → inFlight s o.place < 32 →
    (coreAt s o.place).launchAt ≤ s.now → pieceStops s p.origin (homeOf p.src) p.win = false → moduleOf p.origin = moduleOf (homeOf p.src) →
    ∃ t y, exec (.courierPieceLaunch p.op) s = .next t ∧ tget t.pieces n = some y ∧ y = { p with stage := 1 } ∧
      (s.now + courierLeg s p.origin (homeOf p.src) 0, Instr.courierPickUp n) ∈ t.agenda ∧ t.mem = s.mem) ∧
  (∀ (s : State) (n core off : Nat) (p : Piece) (o : Op), Claims.Flying s n p o → o.kind = .copy → space s p.src = .pad core off →
    (p.stage = 1 → crosses s p.origin (homeOf p.src) = false →
      ∃ t, exec (.courierPickUp n) s = .next t ∧ tget t.pieces n = some { p with stage := 2 } ∧
        (s.now, Instr.courierPickUp n) ∈ t.agenda ∧ t.mem = s.mem) ∧
    (p.stage = 2 → p.began = false →
      ∃ t, exec (.courierPickUp n) s = .next t ∧ tget t.pieces n = some { p with began := true } ∧
        (s.now + (2 + cdiv p.len 64), Instr.courierPickUp n) ∈ t.agenda ∧ t.mem = s.mem) ∧
    (p.stage = 2 → p.began = true → pieceStops s (homeOf p.src) (homeOf p.dst) p.win = false →
      moduleOf (homeOf p.src) = moduleOf (homeOf p.dst) →
      ∃ t y, exec (.courierPickUp n) s = .next t ∧ tget t.pieces n = some y ∧ y.stage = 3 ∧ y.bytes.length = p.len ∧
        (∀ i (h : i < y.bytes.length), y.bytes[i] = memGet s.mem (p.src + i)) ∧
        (s.now + courierLeg s (homeOf p.src) (homeOf p.dst) (cdiv p.len 64), Instr.courierSetDown n) ∈ t.agenda ∧ t.mem = s.mem)) ∧
  (∀ (s : State) (n core off : Nat) (p : Piece) (o : Op), s.Inv → Claims.Flying s n p o → o.kind = .copy → p.stage = 4 →
    space s p.dst = .pad core off → off < 0x3E0000 → earlierDue s n p o = false → o.fail = none → moduleOf (homeOf p.dst) = moduleOf (o.sid / 32) →
    ∃ t y, exec (.courierSetDown n) s = .next t ∧ tget t.pieces n = some y ∧ y.stage = 6 ∧ y.status = p.status ∧ y.cause = p.cause ∧
      (∀ i (h : i < p.bytes.length), memGet t.mem (p.dst + i) = p.bytes[i]) ∧ Claims.SameOutside s t p.dst p.bytes.length ∧
      (s.now + leg s (homeOf p.dst) (o.sid / 32), Instr.engineCompletionReport n) ∈ t.agenda) ∧
  (∀ (s : State) (n : Nat) (p : Piece) (o : Op) (x : Strand), s.pieces = [(n, p)] → tget s.ops p.op = some o → o.len ≤ o.next → o.fail = none →
    o.flying = 0 → o.tok = false → tget s.strands o.sid = some x → tget s.store o.sid = none → x.grid = o.grid →
    ∃ t, exec (.engineCompletionReport n) s = .next t ∧ t.pieces = [] ∧ tget t.ops p.op = none ∧
      tget t.strands o.sid = some (engMod o.cls (· - 1) x) ∧ t.mem = s.mem) ∧
  (∀ (s : State) (cl id n : Nat) (p : Piece) (o : Op) (e : Combine), Claims.Flying s n p o → (sliceAt s cl).combine = [e] → e.id = id →
    e.members = [n] → pieceStops s p.origin (homeOf p.src) p.win = false → moduleOf p.origin = moduleOf (homeOf p.src) →
    ∃ t, exec (.combineWindowClose cl id) s = .next t ∧ (sliceAt t cl).combine = [] ∧
      (s.now + courierLeg s p.origin (homeOf p.src) 0, Instr.courierPickUp n) ∈ t.agenda ∧ t.mem = s.mem) ∧
  (∀ (s : State) (n core cl : Nat) (m : RMsg), tget s.rmsgs n = some m → m.down = false → m.to_ = none →
    core = nodeCore (gridCores s m.o.grid) m.o.rid (m.level + 1) (m.index / 2) → cl = clusterOf core →
    ((sliceAt s cl).nodes = [] →
      ∃ t, exec (.reductionNodeArrival n) s = .next t ∧ tget t.rmsgs n = some m ∧ t.mem = s.mem ∧
        (sliceAt t cl).nodes = [⟨m.o.grid.getD 0, m.o.rid, m.level + 1, m.index / 2, m.chunk, n⟩]) ∧
    (64 ≤ (sliceAt s cl).nodes.length → (∀ e ∈ (sliceAt s cl).nodes, e.rid ≠ m.o.rid) → pieceStops s core m.sender false = false →
      moduleOf core = moduleOf m.sender →
      ∃ t, exec (.reductionNodeArrival n) s = .next t ∧ tget t.rmsgs n = some m ∧ t.mem = s.mem ∧ (sliceAt t cl).nodes = (sliceAt s cl).nodes ∧
        (s.now + (courierLeg s core m.sender (cdiv m.bytes.length 64) + 256), Instr.reductionRelaunch n) ∈ t.agenda) ∧
    (∀ j a b q r o, (sliceAt s cl).nodes = [⟨m.o.grid.getD 0, m.o.rid, m.level + 1, m.index / 2, m.chunk, j⟩] → j ≠ n → j < s.fresh →
      n < s.fresh → tget s.rmsgs j = some q → q.o.rop = m.o.rop → q.o.rfmt = m.o.rfmt → q.o.parties = 2 → m.o.parties = 2 → m.level = 0 →
      q.index = 0 → m.index = 1 → q.bytes.length = m.bytes.length → q.leaves = [a] → m.leaves = [b] → a ≠ b → q.bad = [] → m.bad = [] →
      tget s.ops a = some r → tget s.ops b = some o → r.part = 0 → o.part = 1 → pieceStops s core r.place false = false →
      moduleOf core = moduleOf r.place → pieceStops s core o.place false = false → moduleOf core = moduleOf o.place →
      ∃ t x y, exec (.reductionNodeArrival n) s = .next t ∧ (sliceAt t cl).nodes = [] ∧ tget t.rmsgs n = none ∧ tget t.rmsgs j = none ∧
        tget t.rmsgs s.fresh = some x ∧ tget t.rmsgs (s.fresh + 1) = some y ∧ x.to_ = some a ∧ y.to_ = some b ∧ x.chunk = m.chunk ∧
        x.bytes = (redBytes m.o.rop m.o.rfmt q.bytes.length q.bytes m.bytes).1 ∧ y.bytes = x.bytes ∧
        (s.now + courierLeg s core r.place (cdiv x.bytes.length 64), Instr.reductionNodeArrival s.fresh) ∈ t.agenda ∧
        (s.now + courierLeg s core o.place (cdiv y.bytes.length 64), Instr.reductionNodeArrival (s.fresh + 1)) ∈ t.agenda) ∧
    (pieceStops s m.sender core false = false → moduleOf m.sender = moduleOf core →
      ∃ t, exec (.reductionRelaunch n) s = .next t ∧ tget t.rmsgs n = some m ∧
      (s.now + courierLeg s m.sender core (cdiv m.bytes.length 64), Instr.reductionNodeArrival n) ∈ t.agenda ∧ t.mem = s.mem)) ∧
  (∀ (s : State) (n op pa : Nat) (m : RMsg) (o : Op), tget s.rmsgs n = some m → m.to_ = some op → tget s.ops op = some o →
    o.runs = [(pa, o.len)] → 4096 * m.chunk < o.len →
    ∃ t q, exec (.reductionNodeArrival n) s = .next t ∧ tget t.rmsgs n = none ∧ tget t.pieces s.fresh = some q ∧ q.op = op ∧
      q.dst = pa + 4096 * m.chunk ∧ q.bytes = m.bytes.take (min 4096 (o.len - 4096 * m.chunk)) ∧
      (s.now, Instr.courierSetDown s.fresh) ∈ t.agenda ∧ t.mem = s.mem)

/-- R160, R163, R166: bytes set down in a filling tile are counted and make it ready at the expected number, faulted where one
was poisoned; a failed delivery marks it faulted and tells q9; a range lock that is released lets the tile that drained under it
become empty; a discard drops its whole lines from the slice. -/
def Sys2Proof.Claims.DeliveriesAndLocks : Prop :=
  (∀ (s : State) (place q b : Nat) (bad : Bool), (tileAt s place q).st = .filling →
    ∃ t, exec (.tileSetDown place q b bad) s = .next t ∧ t.mem = s.mem ∧ t.strands = s.strands ∧
      ((tileAt s place q).arrived + b < (tileAt s place q).expected →
        tileAt t place q = { tileAt s place q with arrived := (tileAt s place q).arrived + b, faulted := (tileAt s place q).faulted || bad }) ∧
      ((tileAt s place q).arrived + b = (tileAt s place q).expected →
        tileAt t place q = { tileAt s place q with
          arrived := (tileAt s place q).expected, st := .ready, faulted := (tileAt s place q).faulted || bad })) ∧
  (∀ (s : State) (place q off n : Nat) (p : Piece) (o : Op), tget s.pieces n = some p → tget s.ops p.op = some o →
    (tileAt s place q).st = .filling → q < 64 → off < 2 ^ 24 → moduleOf place = moduleOf (o.sid / 32) →
    ∃ t w, exec (.tileDeliveryFault place q off n) s = .next t ∧ tileAt t place q = { tileAt s place q with faulted := true } ∧
      (s.now + leg s place (o.sid / 32), Instr.noticeArrival ⟨9, o.sid / 32, 0, o.block, w, place⟩) ∈ t.agenda ∧
      w = BitVec.ofNat 64 (p.cause * 2 ^ 58 + 3 * 2 ^ 56 + off * 2 ^ 32 + q * 2 ^ 24 + o.pc.toNat / 4 % 2 ^ 24) ∧ t.mem = s.mem) ∧
  (∀ (s : State) (place id q : Nat) (x : Tile) (l : RLock), (coreAt s place).locks = [l] → l.id = id → (coreAt s place).tiles = [(q, x)] →
    x.st = .draining →
    ∃ t, exec (.rangeLockRelease place id) s = .next t ∧ (coreAt t place).locks = [] ∧
      tileAt t place q = { x with st := .empty, expected := 0, arrived := 0 } ∧ t.mem = s.mem) ∧
  (∀ (s : State) (n line : Nat) (p : Piece) (o : Op), tget s.pieces n = some p → tget s.ops p.op = some o → o.kind = .discard →
    p.began = true → p.win = false → p.src = line * 128 → p.len = 128 → p.off = 0 → (sliceAt s (clusterOf (homeOf p.src))).miss = [] →
    (sliceAt s (clusterOf (homeOf p.src))).watches = [] → moduleOf (homeOf p.src) = moduleOf (o.sid / 32) →
    ∃ t, exec (.sliceCacheRequest n) s = .next t ∧ (sliceAt t (clusterOf (homeOf p.src))).lines =
        (sliceAt s (clusterOf (homeOf p.src))).lines.filter (fun l => l.line != line) ∧
      (∃ d, (s.now + d, Instr.engineCompletionReport n) ∈ t.agenda) ∧ t.mem = s.mem)

/-- R160, R163, R166, R254 to R265: couriers, deliveries into tiles, and range locks.
Model's reading, not the spec's: log 31 (DESIGN CHOICE), log 34 (DEDUCED), log 40 (DEDUCED), log 48 (DESIGN CHOICE). -/
def Obligations.CouriersAndDeliveries : Prop :=
  Claims.CourierEvents ∧ Claims.DeliveriesAndLocks

/-! ### The Caller's instructions, dealing and the ends of grids -/

namespace Sys2Proof.Claims

noncomputable section

/-- An instruction of a Caller names a launch record: 256-aligned, in the hub SRAM of the module, of its own partition (R314, R334). -/
def RecordHere (s : State) (v : Word) (pa : Nat) : Prop :=
  isHub s.me.place = true ∧ v.toNat % 256 = 0 ∧ ∃ pol win off, translate s v true true false = .hit pa pol win ∧
    space s pa = .hub (moduleOf s.me.place) off ∧ hubBarred s s.me pa = false

/-- The one grid of the pod, in state 1 or 2, that no cancel and no removal has reached. -/
def OneGrid (s : State) (g : Nat) (q : Grid) : Prop :=
  s.grids = [(g, q)] ∧ (q.state = 1 ∨ q.state = 2) ∧ q.cancelled = false ∧ q.killed = false ∧ q.removal = none

/-- The RO fields of a record (R312): grid, state word and done. -/
def RecordHolds (t : State) (g : Nat) (q : Grid) : Prop :=
  Holds t (q.recPa + 0xA0) 8 (BitVec.ofNat 64 g) ∧ Holds t (q.recPa + 0xA8) 8 (stateWord q) ∧
    Holds t (q.recPa + 0xB0) 8 (BitVec.ofNat 64 q.done)

/-- A message between modules: it reaches the first pod link of its way in a cycle, as a frame of the owner for its end (R23, R349). -/
def OnLinks (s t : State) (at_ : Nat) (h : Hop) (owner dest : Nat) (e : Instr) : Prop :=
  ∃ n f, tget s.frames n = none ∧ tget t.frames n = some f ∧ f.hop = h ∧ f.owner = owner ∧ f.dest = dest ∧ f.what = e ∧
    (at_, Instr.podFrameReceive h.from_ h.port n true) ∈ t.agenda

/-- No frame has the state's next number yet. -/
def NewFrames (s : State) : Prop := ∀ n, s.fresh ≤ n → tget s.frames n = none

/-- No strand waits on an event. -/
def NoWaiter (s : State) (m e : Nat) : Prop := ∀ w ∈ (hubAt s m).evwaits, w.event ≠ e

/-- The count of an event. -/
def eventCount (s : State) (m e : Nat) : Nat := (tget (hubAt s m).events e).getD 0

/-- The waiter of an event goes on with a value in its register (R327). -/
def Served (s t : State) (w : EvWait) (x : Strand) (v : Word) : Prop :=
  ∃ y, tget t.strands w.sid = some y ∧ y.park = none ∧ y.pc = x.pc + 4 ∧ y.readyAt = s.now + 2 ∧
    (0 < w.sd → w.sd < 16 → regVal y w.sd = v ∧ regSt y w.sd = .full) ∧ ∀ r, r ≠ w.sd → regVal y r = regVal x r

end

end Sys2Proof.Claims

/-- R314, R316, R317, R325, R373: `launch` of a record that passes its checks makes a grid with the next number of its root,
in state 1, and goes on; the grid is dealt 14 cycles later; a record that fails one raises 0x04 with the offset of the field.
`lwait` reads the state word, and parks while it says that the grid runs. `cancel` with sb 0 sets cancelled and sends the stop;
with sb 1 it starts context removal; any other sb raises 0x04.
Model's reading, not the spec's: log 42 (DESIGN CHOICE). -/
def Obligations.LaunchesAndCancels : Prop :=
  (∀ (l : BitVec 1) (a : BitVec 5) (k : BitVec 1) (s : State) (pa r g : Nat), s.Inv → Claims.Decodes false [a] [] false s →
    Claims.RecordHere s (rv s a) pa → launchHeld s s.cur = false → r = Claims.le s pa 256 →
    (2 ^ 60 ≤ recField r 8 → exec (.launch l a k) s = .next (raise 4 8 (Claims.used s (rv s a)))) ∧
    (∀ o, recordError r = some o → exec (.launch l a k) s = .next (raise 4 (BitVec.ofNat 64 o) (Claims.used s (rv s a)))) ∧
    (recordError r = none → recField r 0xA8 % 8 = 1 ∨ recField r 0xA8 % 8 = 2 →
      exec (.launch l a k) s = .next (raise 4 0xA8 (Claims.used s (rv s a)))) ∧
    (recordError r = none → recField r 0xA8 % 8 ≠ 1 → recField r 0xA8 % 8 ≠ 2 →
      g = moduleOf s.me.place * 2 ^ 24 + (hubAt s (moduleOf s.me.place)).launches % 2 ^ 24 →
      ∃ t q, exec (.launch l a k) s = .next t ∧ t.me.pc = s.me.pc + 4 ∧ t.me.regs = s.me.regs ∧ tget t.grids g = some q ∧
        q.state = 1 ∧ q.owner = s.me.owner ∧ q.caller = s.me.place ∧ q.callerSc = s.me.slot / 8 ∧ q.recPa = pa ∧ q.held = [] ∧
        q.blocks = recField r 8 % 2 ^ 20 * (recField r 8 / 2 ^ 20 % 2 ^ 20) * (recField r 8 / 2 ^ 40 % 2 ^ 20) ∧
        q.strands = recField r 0x10 % 2 ^ 5 ∧ q.root = recField r 0x20 ∧ q.tvec = BitVec.ofNat 64 (recField r 0x28) ∧
        q.tdeleg = BitVec.ofNat 64 (recField r 0x30) ∧
        (hubAt t (moduleOf s.me.place)).launches = (hubAt s (moduleOf s.me.place)).launches + 1 ∧
        (s.now + 14, Instr.dealingGrant g 0) ∈ t.agenda ∧ Claims.Holds t (pa + 0xA0) 8 (BitVec.ofNat 64 g) ∧
        Claims.Holds t (pa + 0xA8) 8 1 ∧ Claims.Holds t (pa + 0xB0) 8 0 ∧ Claims.SameOutside s t (pa + 0xA0) 24)) ∧
  (∀ (l : BitVec 1) (a d : BitVec 5) (k : BitVec 1) (s : State) (pa : Nat) (v : Word), Claims.Decodes false [a] [d] false s →
    Claims.RecordHere s (rv s a) pa →
    ((∀ e ∈ s.grids, e.2.recPa ≠ pa) ∧ v = BitVec.ofNat 64 (Claims.le s (pa + 0xA8) 8) ∨
      ∃ g q, s.grids = [(g, q)] ∧ q.recPa = pa ∧ v = stateWord q) →
    (v.toNat % 8 ∈ [0, 3, 4] → ∃ t, exec (.lwait l a d k) s = .next t ∧ t.me.pc = s.me.pc + 4 ∧ t.mem = s.mem ∧
      (d ≠ 0 → regVal t.me d.toNat = v) ∧ ∀ r, r ≠ d.toNat → regVal t.me r = regVal s.me r) ∧
    (v.toNat % 8 ∉ [0, 3, 4] → ∃ t, exec (.lwait l a d k) s = .next t ∧ t.me.pc = s.me.pc ∧ t.mem = s.mem ∧
      t.me.regs = s.me.regs ∧ t.me.park = some (.lwait pa d (if l = 1 then some a.toNat else none) k))) ∧
  (∀ (l : BitVec 1) (b a : BitVec 5) (k : BitVec 1) (s : State) (pa : Nat), s.Inv → Claims.Decodes false [a, b] [] false s →
    Claims.RecordHere s (rv s a) pa →
    (2 ≤ (rv s b).toNat → exec (.cancel l b a k) s = .next (raise 4 (rv s b) (Claims.used s (rv s a)))) ∧
    ((rv s b).toNat < 2 → (∀ e ∈ s.grids, e.2.recPa ≠ pa) →
      exec (.cancel l b a k) s = .next (retire k (dropL l a.toNat (Claims.used s (rv s a))))) ∧
    (∀ g q, Claims.OneGrid s g q → q.recPa = pa → q.ends ≠ q.blocks →
      (rv s b = 0 → ∃ t y, exec (.cancel l b a k) s = .next t ∧ t.me.pc = s.me.pc + 4 ∧ t.me.regs = s.me.regs ∧
        t.grids = [(g, y)] ∧ y = { q with cancelled := true } ∧ (s.now + 14, Instr.cancelStop g 0) ∈ t.agenda ∧
        Claims.RecordHolds t g y ∧ Claims.SameOutside s t (pa + 0xA0) 24) ∧
      (rv s b = 1 → ∃ t y, exec (.cancel l b a k) s = .next t ∧ t.me.pc = s.me.pc + 4 ∧ t.me.regs = s.me.regs ∧
        t.grids = [(g, y)] ∧ y = { q with cancelled := true, killed := true, killMode := true, removal := some 0 } ∧
        (s.now + 1, Instr.contextRemovalStepEnd g) ∈ t.agenda ∧ Claims.RecordHolds t g y ∧
        Claims.SameOutside s t (pa + 0xA0) 24)))

/-- R326: `cpref` and `cdisc` check their range against the record, count as operations of the pod's class and go on; the first
piece leaves 8 cycles later. A length of 0 does nothing; a range outside the record's extent raises 0x04. -/
def Sys2Proof.Claims.CallerCacheOperations : Prop :=
  ∀ (l : BitVec 1) (n a b : BitVec 5) (k : BitVec 1) (s : State) (len : Nat) (r : BitVec 256), isHub s.me.place = true →
    Claims.Decodes false [a, b] [] false s → rv s b = BitVec.ofNat 64 len → len < 2 ^ 32 →
    recLoading s (32 + n.toNat) = false → recAt s (32 + n.toNat) = .ok r →
    ∀ i kind, (i, kind) ∈ [(Instr.cpref l n a b k, OpKind.cpref), (.cdisc l n a b k, .cdisc)] →
    (len = 0 → exec i s = .next (retire k (dropL l a.toNat s))) ∧
    (0 < len → (rv s a).toInt < 0 ∨ (recExtent r : Int) < (rv s a).toInt + len → exec i s = .next (raise 4 (rv s a) s)) ∧
    (0 < len → 0 ≤ (rv s a).toInt → (rv s a).toInt + len ≤ (recExtent r : Int) →
      ∃ t o, exec i s = .next t ∧ t.me.pc = s.me.pc + 4 ∧ t.me.regs = s.me.regs ∧ t.mem = s.mem ∧ tget t.ops s.fresh = some o ∧
        o.kind = kind ∧ o.src = (recBase r + (rv s a).toNat) % 2 ^ 64 ∧ o.len = len ∧ o.sid = s.cur ∧ o.next = 0 ∧
        t.me.eng.pod = s.me.eng.pod + 1 ∧ (s.now + 8, Instr.courierPieceLaunch s.fresh) ∈ t.agenda)

/-- R327 to R331: a signal counts its event up or serves its first waiter, at once in its own module, or where it arrives if
the links of the way let it pass and the owner and the key are good there; `evwait` counts down or parks, for the cycles it names; at the end of these it goes on
with 0. `vfq` takes the oldest entry whose wait holds and gives its handle, else 0; `vfdone` gives the place back, adds to the
entry's counter and queues a completion. -/
def Sys2Proof.Claims.EventsAndQueues : Prop :=
  (∀ (l : BitVec 1) (a : BitVec 5) (k : BitVec 1) (s : State) (m e d : Nat), isHub s.me.place = true →
    Claims.Decodes false [a] [] false s → m = moduleOf s.me.place → e < 64 → d < 256 →
    (2 ^ 17 ≤ (rv s a).toNat → exec (.evsig l a k) s = .next (raise 4 (rv s a) s)) ∧
    ((rv s a).toNat = e → eventOwner s m e ≠ s.me.owner → exec (.evsig l a k) s = .next (raise 6 (rv s a) s)) ∧
    ((rv s a).toNat = e → eventOwner s m e = s.me.owner → Claims.NoWaiter s m e →
      ∃ t, exec (.evsig l a k) s = .next t ∧ t.me.pc = s.me.pc + 4 ∧ t.me.regs = s.me.regs ∧ t.mem = s.mem ∧
        Claims.eventCount t m e = min (Claims.eventCount s m e + 1) 0xFFFFFFFF ∧
        ∀ f, f ≠ e → Claims.eventCount t m f = Claims.eventCount s m f) ∧
    (∀ w x, (rv s a).toNat = e → eventOwner s m e = s.me.owner → (hubAt s m).evwaits = [w] → w.event = e → w.k = 0 → w.drop = [] →
      w.sid ≠ s.cur → tget s.strands w.sid = some x →
      ∃ t, exec (.evsig l a k) s = .next t ∧ t.me.pc = s.me.pc + 4 ∧ (hubAt t m).evwaits = [] ∧
        Claims.eventCount t m e = Claims.eventCount s m e ∧ Claims.Served s t w x 1) ∧
    ((rv s a).toNat = 2 ^ 16 + d * 2 ^ 8 + e → d ≠ m → Claims.NewFrames s →
      ∃ t, exec (.evsig l a k) s = .next t ∧ t.me.pc = s.me.pc + 4 ∧ t.me.regs = s.me.regs ∧ t.mem = s.mem ∧
        (∀ f, Claims.eventCount t m f = Claims.eventCount s m f) ∧
        (∀ h hs, hopsOf s s.me.place (hubOf d) = h :: hs → inPod s m d = true →
          Claims.OnLinks s t (s.now + hubWay s.me.place) h s.me.owner (hubOf d) (.remoteEvsigArrival d e s.me.owner)))) ∧
  (∀ (s : State) (m e owner : Nat),
    (keyValid s m owner = true → eventOwner s m e = owner → Claims.NoWaiter s m e →
      ∃ t, exec (.remoteEvsigArrival m e owner) s = .next t ∧ t.mem = s.mem ∧ t.strands = s.strands ∧
        Claims.eventCount t m e = min (Claims.eventCount s m e + 1) 0xFFFFFFFF) ∧
    (keyValid s m owner = false ∨ eventOwner s m e ≠ owner →
      ∃ t, exec (.remoteEvsigArrival m e owner) s = .next t ∧ t.mem = s.mem ∧ t.strands = s.strands ∧
        (hubAt t m).events = (hubAt s m).events ∧ (hubAt t m).evwaits = (hubAt s m).evwaits)) ∧
  (∀ (l : BitVec 1) (a d : BitVec 5) (k : BitVec 1) (s : State) (m e n : Nat), isHub s.me.place = true →
    Claims.Decodes false [a] [d] false s → m = moduleOf s.me.place → e < 64 → (rv s a).toNat = n * 2 ^ 32 + e →
    (eventOwner s m e ≠ s.me.owner → exec (.evwait l a d k) s = .next (raise 6 (rv s a) s)) ∧
    (eventOwner s m e = s.me.owner → 0 < Claims.eventCount s m e →
      ∃ t, exec (.evwait l a d k) s = .next t ∧ t.me.pc = s.me.pc + 4 ∧ t.mem = s.mem ∧ (d ≠ 0 → regVal t.me d.toNat = 1) ∧
        (∀ r, r ≠ d.toNat → regVal t.me r = regVal s.me r) ∧ Claims.eventCount t m e = Claims.eventCount s m e - 1) ∧
    (eventOwner s m e = s.me.owner → Claims.eventCount s m e = 0 →
      ∃ t, exec (.evwait l a d k) s = .next t ∧ t.me.pc = s.me.pc ∧ t.me.park = some .evwait ∧ t.me.regs = s.me.regs ∧ t.mem = s.mem ∧
        (hubAt t m).evwaits = (hubAt s m).evwaits ++ [⟨s.fresh, s.cur, e, d.toNat, if l = 1 then [a.toNat] else [], k⟩] ∧
        (n ≠ 0 → (s.now + n, Instr.eventWaitTimeout m s.fresh) ∈ t.agenda))) ∧
  (∀ (s : State) (m : Nat) (w : EvWait) (x : Strand), (hubAt s m).evwaits = [w] → w.k = 0 → w.drop = [] → tget s.strands w.sid = some x →
    ∃ t, exec (.eventWaitTimeout m w.id) s = .next t ∧ (hubAt t m).evwaits = [] ∧ t.mem = s.mem ∧ Claims.Served s t w x 0) ∧
  (∀ (l : BitVec 1) (a d : BitVec 5) (k : BitVec 1) (s : State) (m v : Nat), isHub s.me.place = true →
    Claims.Decodes false [a] [d] false s → m = moduleOf s.me.place → (rv s a).toNat = v →
    (16 ≤ v → exec (.vfq l a d k) s = .next (raise 4 (rv s a) s)) ∧
    (v < 16 → vfTag (vfCfg s m v) ≠ s.me.owner → s.me.owner ≠ 0 → exec (.vfq l a d k) s = .next (raise 6 (rv s a) s)) ∧
    (v < 16 → vfTag (vfCfg s m v) = s.me.owner ∨ s.me.owner = 0 →
      ((hubAt s m).vfq = [] → exec (.vfq l a d k) s = .next (retire k (dropL l a.toNat (wr d.toNat 0 s)))) ∧
      (∀ x, (hubAt s m).vfq = [x] → x.vf = v → x.taken = false → ((x.words[0]?).getD 0).getLsbD 63 = false →
        ∃ t, exec (.vfq l a d k) s = .next t ∧ t.me.pc = s.me.pc + 4 ∧ t.mem = s.mem ∧ (hubAt t m).vfq = [{ x with taken := true }] ∧
          (d ≠ 0 → regVal t.me d.toNat = handleOf x) ∧ ∀ r, r ≠ d.toNat → regVal t.me r = regVal s.me r))) ∧
  (∀ (l : BitVec 1) (a : BitVec 5) (k : BitVec 1) (s : State) (m : Nat), isHub s.me.place = true →
    Claims.Decodes false [a] [] false s → m = moduleOf s.me.place →
    ((hubAt s m).vfq = [] → exec (.vfdone l a k) s = .next (raise 6 (rv s a) s)) ∧
    (∀ x, (hubAt s m).vfq = [x] → x.taken = true → rv s a = handleOf x → x.tag = s.me.owner ∨ s.me.owner = 0 →
      ((x.words[0]?).getD 0).getLsbD 62 = false →
      ∃ t, exec (.vfdone l a k) s = .next t ∧ t.me.pc = s.me.pc + 4 ∧ t.me.regs = s.me.regs ∧ t.mem = s.mem ∧ (hubAt t m).vfq = [] ∧
        ((tget (hubAt t m).fns x.vf).getD FnRegs.reset).waiting =
          ((tget (hubAt s m).fns x.vf).getD FnRegs.reset).waiting ++ [(rv s a, 0)] ∧
        (s.now, Instr.completionRecordWrite m x.vf) ∈ t.agenda))

/-- R326 to R331: the Caller's cache operations, events and queues.
Model's reading, not the spec's: log 48 (DESIGN CHOICE). -/
def Obligations.CallerServices : Prop :=
  Claims.CallerCacheOperations ∧ Claims.EventsAndQueues

/-- R310, R314, R318, R319, R321: the root refuses a grid with its reason, state 4; a grid that it takes has its blocks dealt,
to a single module as one interval, and is in state 2. A request makes the parent deal, or goes on up where that holds
nothing. A module that gives no answer in 65,536 cycles makes the root refuse with reason 1. A cluster starts its lowest
undealt block: a strand in each of the lowest native slots of its core, with the arguments in s1 to s4, that issues 16
cycles later.
Model's reading, not the spec's: log 42 (DESIGN CHOICE), log 45 (DESIGN CHOICE). -/
def Obligations.Dealing : Prop :=
  (∀ (s : State) (g r : Nat) (q : Grid), s.Inv → Claims.OneGrid s g q → q.accepted = [] → q.faults = 0 → q.trunc = false →
    ((refusal s q = some r → r < 16 →
      ∃ t, exec (.dealingGrant g 0) s = .next t ∧ t.grids = [(g, { q with state := 4, reason := r, held := [], asking := [] })] ∧
        Claims.Holds t (q.recPa + 0xA8) 8 (BitVec.ofNat 64 (r * 2 ^ 36 + 4)) ∧ Claims.SameOutside s t (q.recPa + 0xA0) 24) ∧
    ((∃ m ∈ q.modules, inPod s (moduleOf q.caller) m = false) →
      ∃ t, exec (.dealingGrant g 0) s = .next t ∧ t.grids = [(g, { q with state := 4, reason := 1, held := [], asking := [] })]) ∧
    (∀ m, m ∈ q.modules → (hubAt s m).halted = true → q.state = 1 →
      ∃ t, exec (.moduleAnswerTimeout g m) s = .next t ∧ t.grids = [(g, { q with state := 4, reason := 1, held := [], asking := [] })] ∧
        Claims.Holds t (q.recPa + 0xA8) 8 (BitVec.ofNat 64 (2 ^ 36 + 4))) ∧
    (∀ m, q.modules = [m] → m < 256 → silent s q = [] → refusal s q = none → q.state = 1 → q.places = [] → q.gang = 0 →
      0 < q.blocks → q.held = [] → q.reason = 0 → q.stopped = [] →
      ∃ t y, exec (.dealingGrant g 0) s = .next t ∧ t.grids = [(g, y)] ∧ y.state = 2 ∧ y.held = [(nodeM m + transit, [(0, q.blocks)])] ∧
        (moduleOf q.caller = m → (s.now + 10, Instr.dealingGrant g (nodeM m + transit)) ∈ t.agenda) ∧
        (∀ h hs, moduleOf q.caller ≠ m → Claims.NewFrames s → hopsOf s q.caller (hubOf m) = h :: hs →
          Claims.OnLinks s t (s.now + hubWay q.caller) h q.owner (hubOf m) (.dealingGrant g (nodeM m + transit))) ∧
        Claims.Holds t (q.recPa + 0xA8) 8 2 ∧ Claims.SameOutside s t (q.recPa + 0xA0) 24))) ∧
  (∀ (s : State) (g n : Nat) (q : Grid), tget s.grids g = some q → n ≠ 0 → parentOf n ∉ q.stopped →
    (heldAt q (parentOf n) ≠ [] →
      ∃ t, exec (.dealingRequest g n) s = .next t ∧ (s.now, Instr.dealingGrant g (parentOf n)) ∈ t.agenda ∧ t.mem = s.mem ∧
        tget t.grids g = some { q with asking := ins n q.asking }) ∧
    (heldAt q (parentOf n) = [] → parentOf n ≠ 0 → q.asking = [] → heldAt q (parentOf n + transit) = [] → s.agenda = [] →
      s.frames = [] → moduleOf (nodePlace q (parentOf n)) = moduleOf (nodePlace q (parentOf (parentOf n))) →
      ∃ t, exec (.dealingRequest g n) s = .next t ∧ t.agenda = [(s.now + childLeg s q (parentOf n), Instr.dealingRequest g (parentOf n))] ∧
        t.mem = s.mem ∧ tget t.grids g = some { q with asking := [n] })) ∧
  (∀ (s : State) (g cl b gx gy gz x y z : Nat) (q : Grid), s.strands = [] → s.store = [] → s.cores = [] → s.blocks = [] → s.hubs = [] →
    s.grids = [(g, q)] → q.state = 2 → q.removal = none → cl < 2 ^ 16 → q.held = [(nodeC cl, [(b, b + 1)])] → q.places = [] →
    q.gang = 0 → q.pipes = [] → q.paired = false → q.strands ≤ 24 → (∀ c, c / 4 = cl → inSet q c = true) → b < q.blocks →
    q.gdim = BitVec.ofNat 64 (gz * 2 ^ 40 + gy * 2 ^ 20 + gx) → 0 < gx → gx < 2 ^ 20 → 0 < gy → gy < 2 ^ 20 → gz < 2 ^ 20 →
    b = x + gx * (y + gy * z) → x < gx → y < gy → q.args.length = 4 →
    ∃ t, exec (.blockStart g cl) s = .next t ∧ t.mem = s.mem ∧
      (∃ ids, t.blocks = [(s.fresh, ⟨g, b, 4 * cl, ids, .running, false, false, 0, s.now⟩)] ∧
        ids = (List.range q.strands).map (fun i => 32 * (4 * cl) + (8 * (i / 6) + i % 6))) ∧
      (∀ i, i < q.strands → ∃ w, tget t.strands (32 * (4 * cl) + (8 * (i / 6) + i % 6)) = some w ∧ w.run = .live ∧
        w.place = 4 * cl ∧ w.slot = 8 * (i / 6) + i % 6 ∧ some w.pc = (q.entries[0]?).or (some 0) ∧ w.readyAt = s.now + 16 ∧
        w.grid = some g ∧ w.sidx = i ∧ w.bidx = BitVec.ofNat 64 (z * 2 ^ 40 + y * 2 ^ 20 + x) ∧ w.owner = q.owner ∧
        w.status = BitVec.ofNat 64 (q.pclass % 4 * 2 ^ 8 + 1) ∧ w.rst = Vector.replicate 16 .full ∧
        ∀ r, r < 16 → regVal w r = if 1 ≤ r ∧ r ≤ 4 then (q.args[r - 1]?).getD 0 else 0) ∧
      tget t.grids g ≠ none)

/-- R282, R300, R312, R322 to R325, R373: a block ends once nothing of it is left, when its slots become free and its report
goes up, and is counted as done or faulted; a grid all of whose ends are counted is in state 3, its record written and its
event signalled. A stop drops the undealt blocks of a node and goes on to its children. Context removal begins with the stop
of dealing; a step that has not ended is looked at again, and after the last one no strand and no block of the grid is left.
Model's reading, not the spec's: log 43 (DEDUCED). -/
def Obligations.EndsOfGrids : Prop :=
  (∀ (s : State) (b : Nat) (q : Block), tget s.blocks b = some q →
    (blockDone s b = true → ∃ t, exec (.blockCompletion b) s = .next t ∧ tget t.blocks b = some { q with st := .ended } ∧
      (∀ e ∈ t.strands, e.2.block ≠ b) ∧ (∀ e ∈ s.strands, e.2.block ≠ b → e ∈ t.strands) ∧
      (s.now + 8, Instr.blockEndReport b 0) ∈ t.agenda ∧ t.mem = s.mem) ∧
    (∀ i x, i ∈ q.sids → tget s.strands i = some x → x.block = b → x.run = .live → exec (.blockCompletion b) s = .next s)) ∧
  (∀ (s : State) (b g : Nat) (q : Block) (x : Grid), tget s.blocks b = some q → q.grid = g → tget s.grids g = some x →
    (∀ n, n < 3 → ∃ t, exec (.blockEndReport b n) s = .next t ∧ t.grids = s.grids ∧ t.blocks = s.blocks ∧ t.mem = s.mem ∧
      (n < 2 ∨ moduleOf q.core = moduleOf x.caller → (s.now + 8, Instr.blockEndReport b (n + 1)) ∈ t.agenda) ∧
      (∀ h hs, n = 2 → moduleOf q.core ≠ moduleOf x.caller → Claims.NewFrames s →
        hopsOf s (hubOf (moduleOf q.core)) x.caller = h :: hs →
        Claims.OnLinks s t (s.now + hubWay (hubOf (moduleOf q.core))) h x.owner x.caller (.blockEndReport b 3))) ∧
    (∃ t y, exec (.blockEndReport b 3) s = .next t ∧ tget t.blocks b = none ∧ tget t.grids g = some y ∧ y.ends = x.ends + 1 ∧
      (q.faulted = true → y.faults = x.faults + 1 ∧ y.done = x.done) ∧ (q.faulted = false → y.faults = x.faults ∧ y.done = x.done + 1) ∧
      (x.ends + 1 = x.blocks → x.state = 1 ∨ x.state = 2 → x.removal = none → (s.now, Instr.gridDone g) ∈ t.agenda) ∧ t.mem = s.mem)) ∧
  (∀ (s : State) (g : Nat) (q : Grid), s.Inv → Claims.OneGrid s g q → s.cores = [] → q.rbuf = 0 → q.rbufSize = 0 →
    (q.ends = q.blocks →
      ∃ t y, exec (.gridDone g) s = .next t ∧ t.grids = [(g, y)] ∧ y = { q with state := 3 } ∧ Claims.RecordHolds t g y ∧
        Claims.SameOutside s t (q.recPa + 0xA0) 24 ∧
        (∀ e, q.cev = e + 1 → Claims.NoWaiter s (moduleOf q.caller) e →
          Claims.eventCount t (moduleOf q.caller) e = min (Claims.eventCount s (moduleOf q.caller) e + 1) 0xFFFFFFFF)) ∧
    (q.ends ≠ q.blocks → exec (.gridDone g) s = .next s)) ∧
  (∀ (s : State) (g n : Nat) (q : Grid), tget s.grids g = some q →
    ∃ t y, exec (.cancelStop g n) s = .next t ∧ tget t.grids g = some y ∧ heldAt y n = [] ∧ y.stopped = ins n q.stopped ∧
      y.state = q.state ∧ t.mem = s.mem ∧ t.strands = s.strands ∧ t.blocks = s.blocks ∧
      ∀ c ∈ childrenOf q n, moduleOf (nodePlace q n) = moduleOf (nodePlace q c) → (s.now + childLeg s q c, Instr.cancelStop g c) ∈ t.agenda) ∧
  (∀ (s : State) (g : Nat) (q : Grid), s.Inv → Claims.OneGrid s g q → q.ends ≠ q.blocks →
    ∃ t y, exec (.contextRemoval g) s = .next t ∧ t.grids = [(g, y)] ∧
      y = { q with cancelled := true, killed := true, killMode := true, removal := some 0 } ∧
      (s.now + 14, Instr.cancelStop g 0) ∈ t.agenda ∧ (s.now + 1, Instr.contextRemovalStepEnd g) ∈ t.agenda ∧
      t.strands = s.strands ∧ Claims.RecordHolds t g y ∧ Claims.SameOutside s t (q.recPa + 0xA0) 24) ∧
  (∀ (s : State) (g k : Nat) (q : Grid), s.Inv → s.grids = [(g, q)] → q.removal = some k →
    (stepDone s g k = false → ∃ t, exec (.contextRemovalStepEnd g) s = .next t ∧ t.grids = s.grids ∧ t.strands = s.strands ∧
      t.mem = s.mem ∧ (s.now + 1, Instr.contextRemovalStepEnd g) ∈ t.agenda) ∧
    (k = 3 → stepDone s g k = true → s.ops = [] →
      ∃ t, exec (.contextRemovalStepEnd g) s = .next t ∧ t.grids = [(g, { q with removal := some 4 })] ∧ t.mem = s.mem ∧
        (s.now + 2 * longLeg s q, Instr.contextRemovalStepEnd g) ∈ t.agenda ∧
        ∀ c, (∀ w ∈ (coreAt t c).joins, ofGrid s g w.sid = false) ∧ (∀ w ∈ (coreAt t c).bars, ofGrid s g w.sid = false) ∧
          ∀ w ∈ (coreAt t c).fe, ofGrid s g w.sid = false) ∧
    (k = 6 → stepDone s g k = true → q.rbuf = 0 → q.rbufSize = 0 → q.cev = 0 →
      ∃ t y, exec (.contextRemovalStepEnd g) s = .next t ∧ t.grids = [(g, y)] ∧ y.state = 3 ∧ y.killed = true ∧ y.removal = none ∧
        (∀ e ∈ t.strands, e.2.grid ≠ some g) ∧ (∀ e ∈ t.blocks, e.2.grid ≠ g) ∧ Claims.RecordHolds t g y ∧
        Claims.SameOutside s t (q.recPa + 0xA0) 24))

/-- R368, R369, R377: a block that is suspended gives up the slots of those of its strands that can be suspended, which the context
store then holds as they were, floor block included; it is restored to those slots once all of them are free, to issue 16 cycles
later. A block that is run again starts from its entry in its own slots once everything of it has ended.
Model's reading, not the spec's: log 43 (DEDUCED), log 44 (DESIGN CHOICE). -/
def Obligations.PreemptionAndReruns : Prop :=
  (∀ (s : State) (b : Nat) (q : Block), tget s.blocks b = some q → q.sids.Nodup → (∀ k ∈ s.slices, k.2.watches = []) →
    ∃ t, exec (.preemptSuspend b) s = .next t ∧ tget t.blocks b = some { q with st := .suspended } ∧
      (∀ i, i ∉ q.sids ∨ canSuspend s b i = false → tget t.strands i = tget s.strands i ∧ tget t.store i = tget s.store i) ∧
      ∀ i ∈ q.sids, canSuspend s b i = true → ∀ x, tget s.strands i = some x →
        tget t.strands i = none ∧ ∃ y, tget t.store i = some y ∧ y.regs = x.regs ∧ y.rst = x.rst ∧ y.pc = x.pc ∧
          y.status = x.status ∧ y.fcsr = x.fcsr ∧ y.block = b) ∧
  (∀ (s : State) (b : Nat) (q : Block), tget s.blocks b = some q → q.sids.Nodup →
    (restorable s (b, q) = true →
      ∃ t, exec (.preemptRestore b) s = .next t ∧ tget t.blocks b = some { q with st := .running } ∧
        (∀ i, i ∉ q.sids → tget t.strands i = tget s.strands i ∧ tget t.store i = tget s.store i) ∧
        ∀ i ∈ q.sids, ∀ x, tget s.store i = some x → x.block = b →
          tget t.strands i = some { x with readyAt := s.now + 16 } ∧ tget t.store i = none) ∧
    (restorable s (b, q) = false → exec (.preemptRestore b) s = .next s)) ∧
  (∀ (s : State) (b : Nat) (q : Block) (g : Grid), tget s.blocks b = some q → tget s.grids q.grid = some g → q.st ≠ .ended →
    (∀ i ∈ q.sids, i / 32 = q.core) →
    ((∀ i ∈ q.sids, slotDone s b i = true) →
      ∃ t, exec (.blockRerun b) s = .next t ∧ tget t.blocks b = some { q with killed := false } ∧ t.mem = s.mem ∧
        ∀ i ∈ q.sids, ∃ y, tget t.strands i = some y ∧ y.run = .live ∧ y.block = b ∧ y.place = q.core ∧ y.slot = i % 32 ∧
          some y.pc = (g.entries[q.idx % max g.gang 1]?).or (some 0) ∧ y.readyAt = s.now + 16 ∧ y.rst = Vector.replicate 16 .full) ∧
    ((∃ i ∈ q.sids, slotDone s b i = false) →
      ∃ t, exec (.blockRerun b) s = .next t ∧ t.strands = s.strands ∧ t.blocks = s.blocks ∧ (s.now + 8, Instr.blockRerun b) ∈ t.agenda)) ∧
  (∀ (s : State) (b i : Nat) (q : Block) (x : Strand), s.blocks = [(b, q)] → q.sids = [i] → tget s.strands i = some x → x.place = x.native →
    (canSuspend s b i = false → ∃ t, exec (.preemptSuspend b) s = .next t ∧ t.blocks = [(b, { q with st := .suspended })] ∧
      t.strands = s.strands ∧ t.store = s.store ∧ t.mem = s.mem) ∧
    (canSuspend s b i = true → s.slices = [] → s.Inv → isCore x.place = true →
      floorAt x.native x.nslot + 4096 ≤ storeFloor i →
      ∃ t y, exec (.preemptSuspend b) s = .next t ∧ t.blocks = [(b, { q with st := .suspended })] ∧ tget t.strands i = none ∧
        tget t.store i = some y ∧ y.regs = x.regs ∧ y.rst = x.rst ∧ y.pc = x.pc ∧ y.status = x.status ∧ y.fcsr = x.fcsr ∧
        (∀ j, j < 4096 → memGet t.mem (storeFloor i + j) = memGet s.mem (floorAt x.native x.nslot + j)) ∧
        Claims.SameOutside s t (storeFloor i) 4096)) ∧
  (∀ (s : State) (b i : Nat) (q : Block) (x : Strand), s.Inv → s.blocks = [(b, q)] → q.sids = [i] → q.st = .suspended →
    tget s.store i = some x → x.block = b → coreTakes s q.core = true →
    (tget s.strands i = none → floorAt x.native x.nslot + 4096 ≤ storeFloor i →
      ∃ t, exec (.preemptRestore b) s = .next t ∧ t.blocks = [(b, { q with st := .running })] ∧ tget t.store i = none ∧
        tget t.strands i = some { x with readyAt := s.now + 16 } ∧
        (∀ j, j < 4096 → memGet t.mem (floorAt x.native x.nslot + j) = memGet s.mem (storeFloor i + j)) ∧
        Claims.SameOutside s t (floorAt x.native x.nslot) 4096) ∧
    (tget s.strands i ≠ none → exec (.preemptRestore b) s = .next s))

/-! ### Partitions, windows, keys, resets, moved cores, the host and the links -/

namespace Sys2Proof.Claims

noncomputable section

/-- What pm.stat says after a command (R339): a reason, with its quarter and VF; 0 for one that was done. -/
def Said (t : State) (m reason q vf : Nat) : Prop :=
  ctlGet t m 0x100030 = if reason = 0 then 0 else q * 2 ^ 16 + vf * 2 ^ 8 + reason * 16 + 1

/-- Quarter q of module m is in state v, and every other quarter as before. -/
def QuarterIs (s t : State) (m q v : Nat) : Prop := qst t m q = v ∧ ∀ p, p < 4 → p ≠ q → qst t m p = qst s m p

/-- Every control register but some is as before. -/
def ControlSame (s t : State) (m : Nat) (but : List Nat) : Prop := ∀ o, o ∉ but → ctlGet t m o = ctlGet s m o

/-- Only the listed hubs' logs and the machine's own count of open values differ: memory, strands and grids are as before. -/
def HubOnly (s t : State) : Prop := t.mem = s.mem ∧ t.strands = s.strands ∧ t.grids = s.grids ∧ t.cores = s.cores

/-- Word i of the queue entry that a function's registers hold (R384), bytes that were not written zero. -/
def entryWord (s : State) (m f i : Nat) : Nat := leNat ((List.range 8).map (fun j => (tget (fnAt s m f).ent (8 * i + j)).getD 0))

end

end Sys2Proof.Claims

/-- R339 to R344: the partition commands for a mask of one quarter: quiesce, open, release and resume move it on, or pm.stat
gives the reason; a quarter that is quiescing is quiesced once nothing of it is left.
Model's reading, not the spec's: log 46 (DEDUCED). -/
def Obligations.PartitionCommands : Prop :=
  (∀ (m : Nat) (s : State), ∀ i ∈ [Instr.pmQuiesce m 0, .pmOpen m 0, .pmResume m 0],
    ∃ t, exec i s = .next t ∧ Claims.Said t m 3 0 0 ∧ Claims.ControlSame s t m [0x100030] ∧ Claims.HubOnly s t) ∧
  (∀ (m q : Nat) (s : State), q < 4 →
    (∃ t, exec (.pmQuiesce m (2 ^ q)) s = .next t ∧ Claims.QuarterIs s t m q (if qst s m q = 0 then 1 else qst s m q) ∧
      Claims.Said t m 0 0 0 ∧ (s.now + 1, Instr.noticeArrival ⟨11, hubOf m, q, 0, 1, hubOf m⟩) ∈ t.agenda ∧ Claims.HubOnly s t) ∧
    (qst s m q ≠ 2 → ∃ t, exec (.pmOpen m (2 ^ q)) s = .next t ∧ Claims.Said t m 1 q 0 ∧ Claims.ControlSame s t m [0x100030] ∧
      Claims.HubOnly s t) ∧
    (qst s m q = 2 → ∀ e v, (hubAt s m).vfq = [e] → e.vf = v → v < 16 → bits (vfCfg s m v) 1 0 = q →
      ∃ t, exec (.pmOpen m (2 ^ q)) s = .next t ∧ Claims.Said t m 2 q v ∧ Claims.ControlSame s t m [0x100030] ∧ Claims.HubOnly s t) ∧
    (qst s m q = 2 → (hubAt s m).vfq = [] →
      ∃ t, exec (.pmOpen m (2 ^ q)) s = .next t ∧ Claims.QuarterIs s t m q 3 ∧ Claims.Said t m 0 0 0 ∧
        bit (hubAt t m).shotDown q = false ∧ Claims.HubOnly s t) ∧
    (qst s m q ≠ 3 → ∃ t, exec (.pmRelease m (2 ^ q)) s = .next t ∧ Claims.Said t m 1 q 0 ∧ Claims.ControlSame s t m [0x100030]) ∧
    (qst s m q = 3 → bit (hubAt s m).shotDown q = false →
      ∃ t, exec (.pmRelease m (2 ^ q)) s = .next t ∧ Claims.Said t m 5 q 0 ∧ Claims.ControlSame s t m [0x100030]) ∧
    (qst s m q = 3 → bit (hubAt s m).shotDown q = true →
      (consistent s m (2 ^ q) = false →
        ∃ t, exec (.pmRelease m (2 ^ q)) s = .next t ∧ Claims.Said t m 4 q 0 ∧ Claims.ControlSame s t m [0x100030]) ∧
      (consistent s m (2 ^ q) = true →
        ∃ t, exec (.pmRelease m (2 ^ q)) s = .next t ∧ Claims.QuarterIs s t m q 0 ∧ Claims.Said t m 0 0 0 ∧ Claims.HubOnly s t)) ∧
    (qst s m q = 1 ∨ qst s m q = 2 →
      ∃ t, exec (.pmResume m (2 ^ q)) s = .next t ∧ Claims.QuarterIs s t m q 0 ∧ Claims.Said t m 0 0 0 ∧ Claims.HubOnly s t) ∧
    (qst s m q = 1 → quarterStill s m q = true →
      ∃ t, exec (.quarterQuiesced m q) s = .next t ∧ Claims.QuarterIs s t m q 2 ∧ Claims.ControlSame s t m [0x100038] ∧ Claims.HubOnly s t) ∧
    ((∃ b ∈ s.blocks, b.2.st ≠ .out ∧ b.2.st ≠ .ended ∧ isCore b.2.core = true ∧ moduleOf b.2.core = m ∧ quarterOf b.2.core = q) →
      exec (.quarterQuiesced m q) s = .next s))

/-- R345 to R348: a closed window opens with the dwords that name a range of one core of its router's cluster; an open one is
revoked, is acknowledged once nothing of the grantee is left there, and then closes; in any other state nothing changes. A new
link key makes the one before it the old key, for 2^20 cycles.
Model's reading, not the spec's: log 46 (DEDUCED), log 47 (DEDUCED). -/
def Obligations.WindowsAndKeys : Prop :=
  (∀ (cl i d : Nat) (d0 d1 : Word) (s : State), i < 8 → d = winD0 s cl i →
    (d % 4 = 0 → d0.toNat % 4 = 1 → d0 &&& 0x0C0000000000FFFC = 0 → d1.toNat < 2 ^ 24 → winRangeOk cl d0.toNat d1.toNat = true →
      ∃ t, exec (.windowOpen cl i d0 d1) s = .next t ∧ winD0 t cl i = d0.toNat ∧ winD1 t cl i = d1.toNat ∧ Claims.HubOnly s t ∧
        Claims.ControlSame s t (cl / 256) [winOff cl i, winOff cl i + 8]) ∧
    (d % 4 ≠ 0 ∨ d0.toNat % 4 ≠ 1 ∨ 2 ^ 24 ≤ d1.toNat ∨ winRangeOk cl d0.toNat d1.toNat = false →
      exec (.windowOpen cl i d0 d1) s = .next s) ∧
    (d % 4 = 1 → ∃ t, exec (.windowRevoke cl i) s = .next t ∧ winD0 t cl i = d + 1 ∧ Claims.HubOnly s t ∧
      Claims.ControlSame s t (cl / 256) [winOff cl i]) ∧
    (d % 4 ≠ 1 → exec (.windowRevoke cl i) s = .next s) ∧
    (d % 4 = 2 → leavers s cl i = [] → windowIdle s cl i = true →
      ∃ t, exec (.windowRevokedAck cl i) s = .next t ∧ winD0 t cl i = d + 1 ∧ t.mem = s.mem ∧
        Claims.ControlSame s t (cl / 256) [winOff cl i]) ∧
    (d % 4 = 2 → leavers s cl i = [] → windowIdle s cl i = false → exec (.windowRevokedAck cl i) s = .next s) ∧
    (d % 4 ≠ 2 → exec (.windowRevokedAck cl i) s = .next s) ∧
    (d % 4 = 3 → ∃ t, exec (.windowClose cl i) s = .next t ∧ winD0 t cl i = d - 3 ∧ Claims.HubOnly s t ∧
      Claims.ControlSame s t (cl / 256) [winOff cl i]) ∧
    (d % 4 ≠ 3 → exec (.windowClose cl i) s = .next s)) ∧
  (∀ (m o : Nat) (key : BitVec 256) (k : KeyRec) (s : State), tget (hubAt s m).keys o = some k →
    (∃ t, exec (.keyWrite m o key) s = .next t ∧ tget (hubAt t m).keys o = some ⟨key, k.key, s.now + 2 ^ 20⟩ ∧
      (s.now + 2 ^ 20, Instr.oldKeyExpiry m o) ∈ t.agenda ∧ Claims.HubOnly s t ∧
      ∀ p, p ≠ o → tget (hubAt t m).keys p = tget (hubAt s m).keys p) ∧
    (k.oldUntil ≤ s.now → ∃ t, exec (.oldKeyExpiry m o) s = .next t ∧ tget (hubAt t m).keys o = some ⟨k.key, 0, 0⟩ ∧ Claims.HubOnly s t) ∧
    (s.now < k.oldUntil → exec (.oldKeyExpiry m o) s = .next s))

/-- R351, R352: a vault gives up a pseudo-channel granule by granule, bytes keeping their addresses, and what lies above two thirds is
gone with the last; a live strand on the core, or one native there wherever it is, blocks the start. -/
def Sys2Proof.Claims.VaultDrops : Prop :=
  ∀ (core pch : Nat) (s : State), pch < 4 →
    (dropBlocked s core = false → pch < 3 → s.slices = [] →
      ∃ t, exec (.vaultDropGo core pch) s = .next t ∧ ctlGet t (moduleOf core) (vcOff core) = 5592403 * 2 ^ 16 + pch * 4 + 1 ∧
        (s.now + 16, Instr.vaultGranuleMove core) ∈ t.agenda ∧ t.mem = s.mem ∧ t.strands = s.strands) ∧
    ((∃ e ∈ s.strands, e.2.run = .live ∧ (e.2.native = core ∨ (e.2.place = core ∧ e.2.away = false))) ∨ pch = 3 →
      exec (.vaultDropGo core pch) s = .next s) ∧
    (∀ n, ctlGet s (moduleOf core) (vcOff core) = n * 2 ^ 16 + pch * 4 + 1 → n < 2 ^ 24 →
      (0 < n → ∃ t, exec (.vaultGranuleMove core) s = .next t ∧ t.mem = s.mem ∧
        ctlGet t (moduleOf core) (vcOff core) = (n - 1) * 2 ^ 16 + pch * 4 + 1 ∧ (s.now + 16, Instr.vaultGranuleMove core) ∈ t.agenda) ∧
      (n = 0 → s.Inv → ∃ t, exec (.vaultGranuleMove core) s = .next t ∧
        ctlGet t (moduleOf core) (vcOff core) = pch * 4 + 2 ∧
        (∀ j, 0x55555400 ≤ j → j < 2 ^ 31 → memGet t.mem (vaultBase core + j) = 0) ∧
        Claims.SameOutside s t (vaultBase core + 0x55555400) (2 ^ 31 - 0x55555400)))

/-- R62, R63, R399, R400: a module reset halts the module until its bring-up ends and clears what is the module's; what was on its way there
is lost, and of its strands those that stand on other modules, or whose packets have left it, are as they were. A cold reset clears the pod. -/
def Sys2Proof.Claims.Resets : Prop :=
  (∀ (m : Nat) (s : State), s.Inv → m < 256 → (s.strands.map Prod.fst).Nodup → (∀ h ∈ cablesOf s m, h.to_ ≠ m) →
    ∃ t, exec (.moduleReset m) s = .next t ∧ (hubAt t m).halted = true ∧ (hubAt t m).bringup = 2 ∧ (hubAt t m).ctl = [] ∧
      (hubAt t m).keys = [] ∧ (hubAt t m).bootCount = (hubAt s m).bootCount + 1 ∧ (hubAt t m).flash = (hubAt s m).flash ∧
      (∃ d, (s.now + d, Instr.moduleReset (m + 256 * ((hubAt s m).bootCount + 1))) ∈ t.agenda ∨
        ((hubAt s m).fwMarked ≠ 0 ∧ (s.now + d, Instr.bootFallback m) ∈ t.agenda)) ∧
      (∀ a, a / 2 ^ 48 = m → a < 2 ^ 56 → memGet t.mem a = 0) ∧ (∀ a, a < 2 ^ 56 → a / 2 ^ 48 ≠ m → memGet t.mem a = memGet s.mem a) ∧
      (∀ e ∈ t.strands, e.2.away = false → moduleOf e.2.place ≠ m) ∧
      (∀ e ∈ s.strands, e.2.away = false → moduleOf e.2.place ≠ m → e ∈ t.strands) ∧
      (∀ e ∈ s.strands, e.2.away = false → moduleOf e.2.place = m → moduleOf e.2.native ≠ m →
        ∃ d, (s.now + d, Instr.killNotice e.1) ∈ t.agenda) ∧
      (∀ p ∈ s.packets, moduleOf p.2.dest ≠ m → p ∈ t.packets) ∧ (∀ p ∈ t.packets, moduleOf p.2.dest ≠ m) ∧
      ∀ e ∈ t.grids, moduleOf e.2.caller ≠ m) ∧
  (∀ (s : State), ∃ t, exec .coldReset s = .next t ∧ t.mem = [] ∧ t.strands = [] ∧ t.grids = [] ∧ t.cores = [] ∧
    (∀ h ∈ t.hubs, h.2.halted = true ∧ h.2.bringup = 1 ∧ h.2.ctl = []) ∧
    ∀ m h, tget s.hubs m = some h → ∃ d, (s.now + d, Instr.moduleReset (m + 256 * (h.bootCount + 1))) ∈ t.agenda ∨
      (h.fwMarked ≠ 0 ∧ (s.now + d, Instr.bootFallback m) ∈ t.agenda))

/-- R396, R398, R400: the bring-up after a reset goes on while no other reset has come: the MC applies the records of its flash, each that
verifies, and the ports train; then the module runs, its cycle count from 0. A marked bank that does not boot leaves it to the other one. -/
def Sys2Proof.Claims.BringUps : Prop :=
  ∀ (m b : Nat) (s : State), m < 256 → 0 < b →
    ((hubAt s m).bootCount = b → (hubAt s m).bringup ≤ 2 → (hubAt s m).flash.records = [] →
      ∃ t d, exec (.moduleReset (m + 256 * b)) s = .next t ∧ (hubAt t m).bringup = 5 ∧ (hubAt t m).halted = (hubAt s m).halted ∧
        Claims.HubOnly s t ∧ (s.now + d, Instr.moduleReset (m + 256 * b)) ∈ t.agenda ∧
        ∀ p, p < 64 → bits (ctlGet t m (0x191000 + 8 * p)) 2 0 = 1 ∧ ∃ d, (s.now + d, Instr.podPortTraining m p 8) ∈ t.agenda) ∧
    (∀ r, (hubAt s m).bootCount = b → (hubAt s m).bringup ≤ 2 → (hubAt s m).flash.records = [r] →
      (recordVerifies (hubAt s m) r = true → ∀ n, r.body = .number n →
        ∃ t, exec (.moduleReset (m + 256 * b)) s = .next t ∧ (hubAt t m).applied.number = some n) ∧
      (recordVerifies (hubAt s m) r = false →
        ∃ t, exec (.moduleReset (m + 256 * b)) s = .next t ∧ (hubAt t m).applied = (hubAt s m).applied ∧ (hubAt t m).log ≠ [])) ∧
    ((hubAt s m).bootCount = b → 2 < (hubAt s m).bringup → (hubAt s m).bringup < 6 →
      ∃ t, exec (.moduleReset (m + 256 * b)) s = .next t ∧ (hubAt t m).halted = false ∧ (hubAt t m).bringup = 6 ∧
        (hubAt t m).cycle0 = s.now ∧ Claims.HubOnly s t) ∧
    ((hubAt s m).bootCount ≠ b ∨ 6 ≤ (hubAt s m).bringup → exec (.moduleReset (m + 256 * b)) s = .next s) ∧
    (∃ t, exec (.bootFallback m) s = .next t ∧ (hubAt t m).fwRunning = 1 - (hubAt s m).fwRunning ∧ (hubAt t m).fwMarked = 0 ∧
      (hubAt t m).log ≠ [] ∧ Claims.HubOnly s t ∧ ((hubAt s m).bringup < 6 →
        ∃ d, (s.now + d, Instr.moduleReset (m + 256 * (hubAt s m).bootCount)) ∈ t.agenda))

/-- R62, R63, R351, R352, R396, R398 to R400: dropped pseudo-channels, resets, and the bring-up after them.
Model's reading, not the spec's: log 15 (PRESUMED), log 57 (DESIGN CHOICE), log 58 (DESIGN CHOICE). -/
def Obligations.DropsAndResets : Prop :=
  Claims.VaultDrops ∧ Claims.Resets ∧ Claims.BringUps

/-- R394, R395, R401, R403: a sample writes every sensor's reading, and a temperature beyond its trip halts the module, as the loss of its
clock does: its grids are removed, its owners told, and both are logged. Selecting an entry of the log leaves the log as it is. -/
def Sys2Proof.Claims.SensorsAndTrips : Prop :=
  ∀ (m : Nat) (s : State),
    (s.grids = [] → ∃ t, exec (.sensorSample m) s = .next t ∧ Claims.HubOnly s t ∧
      (∀ i, i < 32 → ctlGet t m (0x1A0000 + 8 * i) = (Config.sensorReading (s.oracle + i)).toNat % 2 ^ 48) ∧
      ((∃ i, i < 32 ∧ 16 * (hubAt s m).applied.limits.1 < (Config.sensorReading (s.oracle + i)).toNat % 2 ^ 16) → (hubAt t m).halted = true)) ∧
    (s.grids = [] → ∃ t, exec (.pllLockLoss m) s = .next t ∧ (hubAt t m).halted = true ∧ (hubAt t m).log ≠ [] ∧ Claims.HubOnly s t ∧
      ∀ i q, i < 4 → callerOf s m (qOwner s m i) = some q →
        ∃ d w, (s.now + d, Instr.noticeArrival ⟨11, hubOf m, q, 0, w, hubOf m⟩) ∈ t.agenda) ∧
    (∀ g q, Claims.OneGrid s g q → m ∈ q.modules → ∃ t y, exec (.pllLockLoss m) s = .next t ∧ (hubAt t m).halted = true ∧
      t.grids = [(g, y)] ∧ y.removal = some 0 ∧ y.killed = true ∧ (s.now + 1, Instr.contextRemovalStepEnd g) ∈ t.agenda) ∧
    (∀ i, ∃ t, exec (.logEntrySelect m i) s = .next t ∧ (hubAt t m).logSel = i.toNat ∧ (hubAt t m).log = (hubAt s m).log ∧
      Claims.HubOnly s t)

/-- R396, R397: an update is under way until its checks end: a bad signature, a version below the minimum and a flash that fails leave
their status, else the inactive bank holds the image; a written bank is marked for the next boot. An attestation writes its report behind
the nonce, which it keeps, over the digest of the running bank. -/
def Sys2Proof.Claims.UpdatesAndReports : Prop :=
  (∀ (m : Nat) (s : State) (head image : List Byte) (sec len : Nat), head = memRead s.mem (ctlGet s m 0x1B0010) 256 →
    Config.fwHeader head = (sec, len) → image = memRead s.mem (ctlGet s m 0x1B0010) (min len 0x4000000) →
    (ctlGet s m 0x1B0020 ≠ 7 → ∃ t, exec (.fwUpdateStart m) s = .next t ∧ ctlGet t m 0x1B0020 = 7 ∧ Claims.HubOnly s t ∧
      (s.now + Config.freeDelay s.oracle, Instr.fwUpdateStart m) ∈ t.agenda) ∧
    (ctlGet s m 0x1B0020 = 7 → ∃ t, exec (.fwUpdateStart m) s = .next t ∧ Claims.HubOnly s t ∧ (hubAt t m).log ≠ [] ∧
      (Config.ecdsaVerifies (Config.sha384 image) head = false → ctlGet t m 0x1B0020 = 1 ∧ (hubAt t m).flash = (hubAt s m).flash) ∧
      (Config.ecdsaVerifies (Config.sha384 image) head = true →
        (sec < (hubAt s m).applied.minVersion → ctlGet t m 0x1B0020 = 2 ∧ (hubAt t m).flash = (hubAt s m).flash) ∧
        ((hubAt s m).applied.minVersion ≤ sec →
          (Config.flashTakes s.oracle = false → ctlGet t m 0x1B0020 = 3 ∧ (hubAt t m).flash = (hubAt s m).flash) ∧
          (Config.flashTakes s.oracle = true → ctlGet t m 0x1B0020 = 0 ∧
            tget (hubAt t m).flash.banks (1 - (hubAt s m).fwRunning) = some (head ++ image))))) ∧
    (ctlGet s m 0x1B0020 = 0 → ∃ t, exec (.fwBankMark m) s = .next t ∧ Claims.HubOnly s t ∧
      (hubAt t m).fwMarked = 2 - (hubAt s m).fwRunning) ∧
    (ctlGet s m 0x1B0020 ≠ 0 → exec (.fwBankMark m) s = .next s)) ∧
  (∀ (m owner off : Nat) (pa : Word) (s : State), s.Inv →
    (pa.toNat % 512 = 0 → space s pa.toNat = .hub m off →
      ∃ t, exec (.attestationRequest m owner pa) s = .next t ∧ ctlGet t m 0x1B0038 = 1 ∧
        Claims.Holds t pa.toNat 8 (BitVec.ofNat 64 (1 + (hubAt s m).applied.number.getD m * 256)) ∧
        (∀ i, i < 48 → memGet t.mem (pa.toNat + 8 + i) = memGet s.mem (pa.toNat + i)) ∧
        (∀ i, i < 48 → (leBytes 48 (bankDigest (hubAt s m) m (hubAt s m).fwRunning).toNat)[i]? = some (memGet t.mem (pa.toNat + 56 + i))) ∧
        Claims.Holds t (pa.toNat + 168) 8 (BitVec.ofNat 64 (hubAt s m).bootCount) ∧ Claims.SameOutside s t pa.toNat 272) ∧
    (pa.toNat % 512 ≠ 0 → exec (.attestationRequest m owner pa) s = .next s))

/-- R394 to R397, R401, R403: sensors, trips, the log, updates and reports of the management controller.
Model's reading, not the spec's: log 14 (DESIGN CHOICE), log 15 (PRESUMED). -/
def Obligations.ManagementController : Prop :=
  Claims.SensorsAndTrips ∧ Claims.UpdatesAndReports

/-- R370, R371, R372: an operation on a core is accepted, or refused with its reason in the status; a restore streams at once,
for 65,536 cycles; the others stream once nothing holds the core up. At the end of a migration the destination holds the
scratchpad of the core that moved, which forwards from then on.
Model's reading, not the spec's: log 3 (DESIGN CHOICE), log 49 (DEDUCED). -/
def Obligations.MovedCores : Prop :=
  (∀ (m src dst : Nat) (s : State), src < 1024 → dst < 1024 →
    ∀ i op d, (i, op, d) ∈ [(Instr.mgMigrate m src dst, 1, dst), (.mgCheckpoint m src, 2, 0), (.mgCheckpointRemove m src, 3, 0),
      (.mgRestore m src, 4, 0)] →
    ((hubAt s m).mg = none → mgReason s m op src d = 0 →
      ∃ t, exec i s = .next t ∧ (hubAt t m).mg = some ⟨op, m * 1024 + src, m * 1024 + d, if op = 4 then 1 else 0⟩ ∧ Claims.HubOnly s t ∧
        ctlGet t m 0x260010 % 2 ^ 32 = (if op = 4 then 2 else 1) ∧
        (op = 4 → (s.now + 65536, Instr.migrationStreamDone m) ∈ t.agenda)) ∧
    (∀ r, (hubAt s m).mg = none → mgReason s m op src d = r → 0 < r → r < 6 →
      ∃ t, exec i s = .next t ∧ (hubAt t m).mg = none ∧ ctlGet t m 0x260010 % 2 ^ 32 = r * 16 + 4 ∧ Claims.HubOnly s t) ∧
    (op ≠ 4 → s.strands = [] → s.cores = [] → (hubAt s m).mg = some ⟨op, m * 1024 + src, m * 1024 + d, 0⟩ →
      ∃ t, exec i s = .next t ∧ (hubAt t m).mg = some ⟨op, m * 1024 + src, m * 1024 + d, 1⟩ ∧ ctlGet t m 0x260010 % 2 ^ 32 = 2 ∧
        (s.now + (65536 + if op = 1 then mgPath (m * 1024 + src) (m * 1024 + dst) else 0), Instr.migrationStreamDone m) ∈ t.agenda)) ∧
  (∀ (m src dst : Nat) (s : State), s.Inv → src < 1024 → dst < 1024 → src ≠ dst → m < 256 → s.strands = [] → s.store = [] →
    s.blocks = [] → (hubAt s m).mg = some ⟨1, m * 1024 + src, m * 1024 + dst, 1⟩ →
    ∃ t, exec (.migrationStreamDone m) s = .next t ∧ (hubAt t m).mg = none ∧ ctlGet t m 0x260010 % 2 ^ 32 = 3 ∧
      (coreAt t (m * 1024 + src)).fw = some (m * 1024 + dst, []) ∧ t.strands = [] ∧
      ∀ o, o < 0x400000 → memGet t.mem (sramBase (m * 1024 + dst) + o) = memGet s.mem (sramBase (m * 1024 + src) + o)) ∧
  (∀ (m src dst k : Nat) (s : State), src / 1024 = m → 1 ≤ k → k ≤ 6 → (hubAt s m).mg = some ⟨3, src, dst, 1 + k⟩ →
    (outDone s src k = false → exec (.migrationStreamDone m) s = .next (sched 1 (.migrationStreamDone m) s)) ∧
    (outDone s src k = true → k < 6 → ∃ t, exec (.migrationStreamDone m) s = .next t ∧ (hubAt t m).mg = some ⟨3, src, dst, 2 + k⟩) ∧
    (outDone s src k = true → k = 6 → ∃ t, exec (.migrationStreamDone m) s = .next t ∧ (hubAt t m).mg = none ∧
      ctlGet t m 0x260010 % 2 ^ 32 = 3 ∧ ∀ e ∈ t.strands, outStrand s src e.1 = false))

/-- R329, R382 to R388, R399, R400, R414: host requests. The bytes of an entry are kept and the last of them commit it; an
entry is refused with its status or takes the lowest free slot of its VF's area, to which it is written; a write that is
performed is acknowledged; a read is answered behind the writes before it; completion records go to the ring while it has
room, here with the phase in bit 63; a function-level reset gives up a function's registers and entries. A load places data
and starts its programs.
Model's reading, not the spec's: log 1 (DESIGN CHOICE), log 48 (DESIGN CHOICE), log 59 (DESIGN CHOICE), log 63 (DESIGN CHOICE), log 64 (DESIGN CHOICE). -/
def Obligations.HostRequests : Prop :=
  (∀ (m f : Nat) (bytes : List Byte) (s : State), bytes.length = 8 →
    (∀ off, off + 8 ≤ 0x38 → ∃ t, exec (.hostWrite m f 0 off bytes) s = .next t ∧
      (∀ i, i < 8 → tget (fnAt t m f).ent (off + i) = bytes[i]?) ∧ t.agenda = s.agenda ∧ Claims.HubOnly s t) ∧
    (∃ t u, exec (.hostWrite m f 0 0x38 bytes) s = .next t ∧ (∀ i, i < 8 → tget (fnAt u m f).ent (0x38 + i) = bytes[i]?) ∧
      u = modFn m f (fun r => { r with ent := (fnAt u m f).ent }) s ∧ exec (.mailboxCommit m f) u = .next t ∧ Claims.HubOnly s t) ∧
    (leNat bytes % 64 = 0 → ∃ t, exec (.hostWrite m f 0 0x48 bytes) s = .next t ∧
      (fnAt t m f).cqb = BitVec.ofNat 64 (leNat bytes) ∧ Claims.HubOnly s t) ∧
    (leNat bytes % 64 ≠ 0 → ∃ t, exec (.hostWrite m f 0 0x48 bytes) s = .next t ∧ t.hostOut = s.hostOut ++ [.error m f 0x48] ∧
      fnAt t m f = fnAt s m f ∧ Claims.HubOnly s t) ∧
    (∀ off, aperturePa s m f off 8 true = none → ∃ t, exec (.hostWrite m f 2 off bytes) s = .next t ∧
      t.hostOut = s.hostOut ++ [.error m f off] ∧ Claims.HubOnly s t) ∧
    (∀ off pa, aperturePa s m f off 8 true = some pa → (hubAt s m).hwq = [] → homeRuns s pa = true →
      ∃ t, exec (.hostWrite m f 2 off bytes) s = .next t ∧ (hubAt t m).hwq = [⟨f, pa, bytes, homeOf pa, true, s.now + 2 * leg s (hubOf m) (homeOf pa), false, none, none⟩] ∧
        (s.now + 2 * leg s (hubOf m) (homeOf pa), Instr.hostWriteAck m) ∈ t.agenda ∧ Claims.HubOnly s t)) ∧
  (∀ (m core off : Nat) (h : HWrite) (s : State), s.Inv → (hubAt s m).hwq = [h] → h.sent = true → h.tok = false → h.due ≤ s.now → h.entry = none →
    space s h.pa = .pad core off → off + h.bytes.length ≤ 0x3E0000 → (coreAt s (homeOf h.pa)).fw = none → h.bytes.length = 8 →
    ∃ t, exec (.hostWriteAck m) s = .next t ∧ (hubAt t m).hwq = [] ∧
      (∀ i (l : i < h.bytes.length), memGet t.mem (h.pa + i) = h.bytes[i]) ∧ Claims.SameOutside s t h.pa h.bytes.length) ∧
  (∀ (m f off n : Nat) (s : State),
    ((hubAt s m).hwq = [] → ∃ t, exec (.hostRead m f 0 off n) s = .next t ∧ Claims.HubOnly s t ∧
      t.hostOut = s.hostOut ++ [.readData m f off ((List.range n).map (fun i => fnByte s m f (off + i))) false]) ∧
    (aperturePa s m f off n false = none → ∃ t, exec (.hostRead m f 2 off n) s = .next t ∧ Claims.HubOnly s t ∧
      t.hostOut = s.hostOut ++ [.unsupported m f off, .error m f off])) ∧
  (∀ (m f : Nat) (s : State) (w : Nat), w = Claims.entryWord s m f 0 →
    (16 ≤ f → ∃ t, exec (.mailboxCommit m f) s = .next t ∧ (fnAt t m f).estStatus = 4 ∧ (fnAt t m f).estValid = true ∧
      (fnAt t m f).ent = [] ∧ (hubAt t m).vfq = (hubAt s m).vfq ∧ Claims.HubOnly s t) ∧
    (f < 16 → 0 < bits (vfCfg s m f) 43 32 → w < 2 ^ 32 → Claims.entryWord s m f 1 < 2 ^ 32 → (hubAt s m).vfq = [] →
      ∃ t e, exec (.mailboxCommit m f) s = .next t ∧ (fnAt t m f).estStatus = 0 ∧ (fnAt t m f).estSlot = 0 ∧ (fnAt t m f).ent = [] ∧
        (hubAt t m).vfq = [e] ∧ e.vf = f ∧ e.slot = 0 ∧ e.tag = vfTag (vfCfg s m f) ∧ e.taken = false ∧ e.words.length = 8 ∧
        (∀ i, i < 8 → e.words[i]? = some (BitVec.ofNat 64 (Claims.entryWord s m f i))) ∧ Claims.HubOnly s t)) ∧
  (∀ (m f : Nat) (v : Word) (s : State),
    (16 ≤ f → exec (.moduleResetRequest m f) s = .next (atOnce (.moduleReset m) s)) ∧
    (f < 16 → ∃ t, exec (.moduleResetRequest m f) s = .next t ∧ t.hostOut = s.hostOut ++ [.error m f 0x70] ∧ t.agenda = s.agenda) ∧
    (v.toNat < 4096 → ∃ t, exec (.cqHeadWrite m f v) s = .next t ∧ (fnAt t m f).head = v.toNat ∧
      (s.now, Instr.completionRecordWrite m f) ∈ t.agenda ∧ Claims.HubOnly s t) ∧
    (4096 ≤ v.toNat → ∃ t, exec (.cqHeadWrite m f v) s = .next t ∧ fnAt t m f = fnAt s m f ∧
      t.hostOut = s.hostOut ++ [.error m f 0x58]) ∧
    (∃ t, exec (.configRequest m f) s = .next t ∧ t.hostOut = s.hostOut ++ [.config m f (decide ((hubAt s m).bringup < 6))] ∧
      t.hubs = s.hubs) ∧
    (∃ t, exec (.functionLevelReset m f) s = .next t ∧ (hubAt t m).vfq = (hubAt s m).vfq.filter (fun e => decide (e.vf ≠ f)) ∧
      fnAt t m f = FnRegs.reset ∧ (∀ g, g ≠ f → fnAt t m g = fnAt s m g) ∧ Claims.HubOnly s t)) ∧
  (∀ (m f : Nat) (x c : Word) (s : State), (fnAt s m f).waiting = [(x, c)] →
    ((fnAt s m f).lsize = 0 → ∃ t, exec (.completionRecordWrite m f) s = .next t ∧ (fnAt t m f).waiting = [] ∧ t.hostOut = s.hostOut) ∧
    ((fnAt s m f).lsize ≠ 0 → ((fnAt s m f).tail + 1) % 2 ^ (fnAt s m f).lsize = (fnAt s m f).head % 2 ^ (fnAt s m f).lsize →
      exec (.completionRecordWrite m f) s = .next s) ∧
    ((fnAt s m f).lsize ≠ 0 → ((fnAt s m f).tail + 1) % 2 ^ (fnAt s m f).lsize ≠ (fnAt s m f).head % 2 ^ (fnAt s m f).lsize →
      ∃ t, exec (.completionRecordWrite m f) s = .next t ∧ (fnAt t m f).waiting = [] ∧
        (fnAt t m f).tail = ((fnAt s m f).tail + 1) % 2 ^ (fnAt s m f).lsize ∧
        t.hostOut = s.hostOut ++ ([.record m f ((fnAt s m f).cqb + BitVec.ofNat 64 (16 * (fnAt s m f).tail)) x
          (if (fnAt s m f).phase then c ||| 0x8000000000000000 else c)] ++ if (fnAt s m f).irq then [.interrupt m f] else []))) ∧
  (∀ (s : State) (pa core off m owner asn root recs q : Nat) (bytes : List Byte) (pc : Word), s.Inv →
    (space s pa = .pad core off → off + bytes.length ≤ 0x3C0000 → bytes.length = 8 →
      ∃ t, exec (.loadLaunch [.data pa bytes false]) s = .next t ∧ (∀ i (l : i < bytes.length), memGet t.mem (pa + i) = bytes[i]) ∧
        Claims.SameOutside s t pa bytes.length ∧ t.strands = s.strands) ∧
    (ownersQuarter s m owner = some q → tget s.strands (32 * hubOf m + 8 * q) = none →
      ∃ t x, exec (.loadLaunch [.caller m owner asn root recs pc]) s = .next t ∧ t.mem = s.mem ∧
        tget t.strands (32 * hubOf m + 8 * q) = some x ∧ x.kind = .caller ∧ x.run = .live ∧ x.pc = pc ∧ x.owner = owner ∧
        x.asn = asn ∧ x.root = root ∧ x.place = hubOf m ∧ x.slot = 8 * q))

/-- R67, R68, R338, R348, R349, R389 to R391: a packet at the hub of a module on its way is sent over the link under the link's next number
with the owner's epoch bit and key, or stops there. The port at the far end checks it: one that it admits goes on to its place, or to the
next link of its route; one whose number is not above the last, or whose key or tag is not good, is dropped and reported, its strand lost,
its courier's piece ended with status 11 and cause 0x0A. A frame that cannot be corrected is sent again and counted; the sixteenth in a row takes the
link down, and what is on it is lost. A port that is down begins to train, and has then its lanes in its status, its numbers starting
again.
Model's reading, not the spec's: log 3 (DESIGN CHOICE), log 21 (DESIGN CHOICE), log 61 (DESIGN CHOICE), log 70 (PRESUMED). -/
def Obligations.PodLinks : Prop :=
  (∀ (m p id : Nat) (f : Frame) (s : State), tget s.frames id = some f →
    (∀ seq, f.sent = none → f.hop.from_ = m → seq = (tget (hubAt s m).seqTx f.hop.port).getD 0 →
      (linkOut s f = true → ∃ t, exec (.podFrameReceive m p id true) s = .next t ∧ Claims.HubOnly s t ∧
        tget (hubAt t m).seqTx f.hop.port = some (seq + 1) ∧
        tget t.frames id = some { f with sent := some (seq, keyEpoch s m f.owner, linkKey s m f.owner) } ∧
        (s.now + podHop f.flits, Instr.podFrameReceive f.hop.to_ f.hop.inPort id true) ∈ t.agenda) ∧
      (linkOut s f = false → exec (.podFrameReceive m p id true) s = .next (sched 0 (.boundaryStop id) s))) ∧
    (∀ seq epoch key, f.sent = some (seq, epoch, key) → f.hop.to_ = m → f.hop.inPort = p →
      (linkAdmits s f seq epoch key = true →
        (m = moduleOf f.dest → ∃ t, exec (.podFrameReceive m p id true) s = .next t ∧ Claims.HubOnly s t ∧
          tget (hubAt t m).seqRx p = some seq ∧ tget t.frames id = none ∧ (s.now + f.rest, f.what) ∈ t.agenda) ∧
        (m ≠ moduleOf f.dest → ∀ h l, podPath s (moduleOf f.dest) 256 m = h :: l →
          ∃ t, exec (.podFrameReceive m p id true) s = .next t ∧ Claims.HubOnly s t ∧ tget (hubAt t m).seqRx p = some seq ∧
            tget t.frames id = some { f with hop := h, sent := none } ∧
            (s.now, Instr.podFrameReceive h.from_ h.port id true) ∈ t.agenda)) ∧
      (linkAdmits s f seq epoch key = false →
        (∀ x, tget s.packets id = some x → ∃ t d, exec (.podFrameReceive m p id true) s = .next t ∧ Claims.HubOnly s t ∧
          tget t.packets id = none ∧ tget t.frames id = none ∧ (s.now + d, Instr.killNotice x.sid) ∈ t.agenda ∧
          tget (hubAt t m).seqRx p = tget (hubAt s m).seqRx p ∧ (hubAt t m).log ≠ []) ∧
        (∀ q o n, tget s.packets id = none → tget s.pieces id = some q → q.mates = [] → tget s.ops q.op = some o → f.what = .courierSetDown n →
          ∃ t y d, exec (.podFrameReceive m p id true) s = .next t ∧ tget t.frames id = none ∧ tget t.pieces id = some y ∧ y.stage = 6 ∧
            y.status = 3 ∧ y.cause = 10 ∧ (s.now + d, Instr.engineCompletionReport id) ∈ t.agenda ∧ (hubAt t m).log ≠ [])) ∧
      (∀ l, tget (hubAt s m).seqRx p = some l → seq ≤ l → linkAdmits s f seq epoch key = false)) ∧
    ((tget (hubAt s m).linkFails p).getD 0 < 15 →
      ∃ t d, exec (.podFrameReceive m p id false) s = .next t ∧ (s.now + d, Instr.podFrameReceive m p id true) ∈ t.agenda ∧
        tget (hubAt t m).linkFails p = some ((tget (hubAt s m).linkFails p).getD 0 + 1) ∧ t.frames = s.frames ∧ t.packets = s.packets ∧
        Claims.HubOnly s t) ∧
    (15 ≤ (tget (hubAt s m).linkFails p).getD 0 → f.sent.isSome = true →
      ∃ t d, exec (.podFrameReceive m p id false) s = .next t ∧ (s.now + d, Instr.linkFailure id) ∈ t.agenda ∧ Claims.HubOnly s t ∧
        bits (ctlGet t f.hop.from_ (0x191000 + 8 * f.hop.port)) 7 0 = 0 ∧ bits (ctlGet t f.hop.to_ (0x191000 + 8 * f.hop.inPort)) 7 0 = 0 ∧
        (∃ d, (s.now + d, Instr.podPortTraining f.hop.from_ f.hop.port 8) ∈ t.agenda) ∧
        ∃ d, (s.now + d, Instr.podPortTraining f.hop.to_ f.hop.inPort 8) ∈ t.agenda)) ∧
  (∀ (id : Nat) (x : Packet) (s : State), tget s.packets id = some x →
    ∃ t d, exec (.linkFailure id) s = .next t ∧ tget t.packets id = none ∧ tget t.frames id = none ∧
      (s.now + d, Instr.killNotice x.sid) ∈ t.agenda ∧ t.strands = s.strands) ∧
  (∀ (m p lanes : Nat) (s : State), lanes < 256 →
    (bits (ctlGet s m (0x191000 + 8 * p)) 2 0 = 1 →
      ∃ t, exec (.podPortTraining m p lanes) s = .next t ∧ Claims.HubOnly s t ∧
        ctlGet t m (0x191000 + 8 * p) = bits (ctlGet s m (0x191000 + 8 * p)) 63 32 * 2 ^ 32 + lanes * 256 + (if lanes = 0 then 3 else 2)) ∧
    (bits (ctlGet s m (0x191000 + 8 * p)) 2 0 ≠ 1 →
      ∃ t d, exec (.podPortTraining m p lanes) s = .next t ∧ Claims.HubOnly s t ∧
        ctlGet t m (0x191000 + 8 * p) = bits (ctlGet s m (0x191000 + 8 * p)) 63 32 * 2 ^ 32 + 1 ∧
        tget (hubAt t m).seqTx p = none ∧ tget (hubAt t m).seqRx p = none ∧ tget (hubAt t m).linkFails p = none ∧
        (s.now + d, Instr.podPortTraining m p lanes) ∈ t.agenda))

/-! ### Words, the step, reset, and what holds of every step -/

namespace Sys2Proof.Claims

noncomputable section

/-- Words written out from the encodings of the spec's chapters, with the instructions that they stand for. -/
def words : List (IWord × Instr) :=
  [(0x0062060C, .add_ 6 4 12 0), (0x0292020C, .mul_ 9 4 4 0), (0x0262C18C, .div_ 6 5 3 0), (0x0280018A, .addi 40 0 3 0),
   (0x0400028E, .lui 0x4000 5 0), (0x00010794, .jal 16 15 0), (0x00078016, .jalr 0 15 0 0),
   (0x0000403E, .ecall 0), (0x0030403E, .halt 0), (0x0005503E, .tlbi 0 10 0), (0x0202D03E, .kill 5 0),
   (0x0002E33E, .sget 5 6 0), (0x0221E03E, .sset 2 3 0)]

/-- The state in which an issuing strand fetches: its scalar core and slot have issued in this cycle (R28). -/
def fetching (s : State) (id : Nat) (x : Strand) : State := { noteIssue id x s with dec := true }

/-- The state in which the word that strand id issued earlier is decoded: what that does counts its cycles from the issue (R9, R27). -/
def decoding (s : State) (id issued : Nat) : State :=
  modMe (fun y => { y with inHandler := false })
    { modMe (fun y => { y with flight := none }) { s with cur := id } with now := issued, dec := true, lag := s.now - issued }

/-- The state after a decode that gave t: the cycle is the one in which it happened. -/
def decoded (s t : State) : State := { t with now := s.now, dec := false, lag := 0 }

/-- The state in which an instruction in flight acts, with what it has read: what it does counts its cycles from its issue (R9, R27). -/
def acting (s : State) (id : Nat) (f : Flight) : State :=
  modMe (fun y => { y with inHandler := false })
    { modMe (withValues f.seen) (modMe (fun y => { y with flight := none }) { s with cur := id }) with now := f.issued, lag := s.now - f.issued }

/-- What it leaves there, from t: registers that the partner of a meeting has written meanwhile are as that has left them (R73). -/
def acted (s : State) (id : Nat) (x : Strand) (f : Flight) (t : State) : State := reseen f x id { t with now := s.now, lag := 0 }

/-- No debug log is being written or replayed (R380, R381). -/
def NoDebug (s : State) : Prop := debugged s 0 = [] ∧ debugged s 1 = []

/-- Nothing is under way that comes before the events that are due: no decode, no packet at an interface, no instruction in flight. -/
def NothingFlies (s : State) : Prop := nextDecode s = none ∧ dueFirst s = none ∧ dueFlights s = []

/-- No event is due and nothing happens by itself: what comes next is an issue or the next cycle. -/
def Quiet (s : State) : Prop :=
  NothingFlies s ∧ (∀ e rest, s.agenda = e :: rest → s.now < e.1) ∧ dueNow s = none ∧ duePump s = none

/-- Strand id issues next. -/
def Issues (s : State) (id : Nat) (x : Strand) : Prop :=
  Quiet s ∧ nextIssue s = some (id, x) ∧ tget s.strands id = some x ∧ x.partner = none ∧ replaying s x.place = false

/-- The instruction that strand id issued comes to its decode next. -/
def AtDecode (s : State) (id : Nat) (x : Strand) (f : Flight) : Prop :=
  nextDecode s = some (id, x) ∧ tget s.strands id = some x ∧ x.flight = some f ∧ x.run = .live ∧ x.away = false ∧
    x.park = none ∧ x.partner = none ∧ replaying s x.place = false

/-- Instruction i is stopped at its decode in state s: executed whole it parks at its PC for what is looked at in the decode, or
it is a travel whose luggage is locked. -/
def StopsThere (i : Instr) (s : State) : Prop :=
  ∃ t, exec i { s with dec := false } = .next t ∧
    ((t.me.pc = s.me.pc ∧ ∃ p, t.me.park = some p ∧ waitsAtDecode p = true) ∨ luggageStops i { s with dec := false } = true)

/-- Strand id's instruction in flight comes to its stage next. -/
def Acts (s : State) (id : Nat) (x : Strand) (f : Flight) : Prop :=
  nextDecode s = none ∧ dueFirst s = none ∧ nextFlight s = some (id, x) ∧ dueLeave s x = none ∧ tget s.strands id = some x ∧
    x.flight = some f ∧ x.run = .live ∧ x.away = false ∧ x.park = none ∧ x.partner = none ∧ replaying s x.place = false

/-- The fetch of a strand finds its word at pa (R41, R136). -/
def Fetches (s : State) (x : Strand) (pa : Nat) : Prop :=
  x.pc.toNat % 4 = 0 ∧ (∃ pol win, translateAt s x.place x.asn x.owner x.pc.toNat false false true = .hit pa pol win) ∧
    space s pa ≠ .hole ∧ ∀ c o, space s pa = .vault c o → vaultState s c ≠ 1

end

end Sys2Proof.Claims

/-- R45, R48, R49: every instruction whose fields hold listed values, encoded, decodes to itself: no bit of an encoding is
dropped. -/
def Obligations.EncodingsDecode : Prop := ∀ (i : Instr) (w : IWord), i.wf = true → encode i = some w → decode w = .ok i

/-- R49: a word that decodes is the one encoding of its instruction, whose fields hold listed values: nothing is ignored. -/
def Obligations.EncodingsAreUnique : Prop := ∀ (i : Instr) (w : IWord), decode w = .ok i → encode i = some w ∧ i.wf = true

/-- R48, R49: words written out from the spec decode to their instructions; majors 0x00 and 0x20 to 0x3F are illegal. -/
def Obligations.WordsAndMajors : Prop :=
  (∀ e ∈ Claims.words, decode e.1 = .ok e.2) ∧
  ∀ w : IWord, w.toNat / 2 % 64 = 0 ∨ 32 ≤ w.toNat / 2 % 64 → decode w = .error .illegalMajor

/-- R27, R28, R36, R41, R49, R51, R52, R136, R356, R380, R381: a step with an issued instruction whose decode has come decodes it: an illegal
word raises 0x01, an instruction that acts at its decode is executed, one that the decode stops is annulled or ends in its trap, another one
goes on in flight. Else one whose stage has come is executed, as of its issue; what acts in the memory stage leaves its registers, its PC and
its push to its writeback. Else an event that is due happens; one that reaches a core which logs is logged, one that reaches a core which
replays is not taken. Else the next strand issues: it fetches its word, which is its home's where the slice holds no line of it, and has it in flight; a fetch that faults,
here from a PC that is no multiple of four, raises 0x16, or stops the strand that fetches its handler. With nothing to do the next cycle begins.
Model's reading, not the spec's: log 3 (DESIGN CHOICE), log 10 (DESIGN CHOICE), log 51 (DESIGN CHOICE). -/
def Obligations.StepRunsDecoded : Prop :=
  (∀ (s : State) (id : Nat) (x : Strand) (f : Flight) (w : IWord), Claims.Acts s id x f → f.back = none → f.word = some w →
    x.kind = .core ∨ Claims.NoDebug s →
    (∀ i, decode w = .ok i → inMemory x f = false → step s = mapNext (Claims.acted s id x f) (exec i (Claims.acting s id f))) ∧
    (∀ i, decode w = .ok i → inMemory x f = true → step s = mapNext (fun t => defer id { x with flight := none } f
      (modMe (fun y => { y with flight := none }) { s with cur := id }) (Claims.acted s id x f t)) (exec i (Claims.acting s id f))) ∧
    (f.seen = [] → (Claims.acting s id f).me = { x with flight := none, inHandler := false }) ∧ (Claims.acting s id f).cur = id ∧
    (Claims.acting s id f).mem = s.mem) ∧
  (∀ (s t : State) (id : Nat) (x y : Strand) (f : Flight), tget t.strands id = some y →
    (retired x y = false → defer id x f s t = t) ∧
    (retired x y = true → ∃ z b, tget (defer id x f s t).strands id = some z ∧ z.pc = x.pc ∧ z.park = none ∧
      z.flight = some { f with due := f.issued + 7 * (interval x / 8), seen := [], back := some b } ∧ b.pc = y.pc ∧ b.park = y.park ∧
      (defer id x f s t).mem = t.mem ∧ (∀ j, j ≠ id → tget (defer id x f s t).strands j = tget t.strands j) ∧
      ∀ r, r < 16 → (regSt y r = .full ∨ regSt y r = .empty) → (regSt y r ≠ regSt x r ∨ regVal y r ≠ regVal x r) →
        (r, regSt y r, regVal y r) ∈ b.regs ∧ (0 < r → regSt z r = regSt x r ∧ regVal z r = regVal x r))) ∧
  (∀ (s : State) (id : Nat) (x : Strand) (f : Flight) (b : WriteBack), Claims.Acts s id x f → f.back = some b →
    ∃ t y, step s = .next t ∧ t = landBack b (modMe (fun y => { y with flight := none }) { s with cur := id }) ∧
      tget t.strands id = some y ∧ y.pc = b.pc ∧ t.mem = s.mem ∧
      ∀ r st v, b.regs = [(r, st, v)] → 0 < r → r < 16 → b.port = none → regSt y r = st ∧ regVal y r = v) ∧
  (∀ (s : State) (id : Nat) (x : Strand) (f : Flight) (w : IWord), Claims.AtDecode s id x f → f.word = some w →
    (∀ i, decode w = .ok i → stageOf i = 0 →
      step s = mapNext (Claims.decoded s) (exec i { Claims.decoding s id f.issued with dec := false })) ∧
    (∀ i, decode w = .ok i → stageOf i ≠ 0 → Claims.StopsThere i (Claims.decoding s id f.issued) →
      step s = mapNext (Claims.decoded s) (exec i { Claims.decoding s id f.issued with dec := false })) ∧
    (∀ i, decode w = .ok i → stageOf i ≠ 0 → ¬ Claims.StopsThere i (Claims.decoding s id f.issued) → noOperands i = true →
      ∃ t, step s = .next t ∧ t.me.flight = some ⟨f.issued, f.issued + stageOf i * (interval x / 8), [], [], some w, true, [], none⟩ ∧
        t.me.readyAt = f.issued + interval x ∧ t.me.pc = x.pc) ∧
    (∀ i t, decode w = .ok i → stageOf i ≠ 0 → ¬ Claims.StopsThere i (Claims.decoding s id f.issued) → noOperands i = false →
      exec i (Claims.decoding s id f.issued) = .next t → t.cur = id →
      ∃ u, step s = .next u ∧
        (t.me.flight = none → u = Claims.decoded s t) ∧
        (∀ g, t.me.flight = some g → u.me = { t.me with
          flight := some { g with due := f.issued + stageOf i * (interval t.me / 8), word := some w }, readyAt := f.issued + interval t.me }) ∧
        ∀ j, j ≠ id → tget u.strands j = tget t.strands j) ∧
    (∀ e, decode w = .error e →
      step s = mapNext (Claims.decoded s) (exec (.illegalInstruction w) { Claims.decoding s id f.issued with dec := false })) ∧
    (Claims.decoding s id f.issued).me = { x with flight := none, inHandler := false } ∧
    (Claims.decoding s id f.issued).cur = id ∧ (Claims.decoding s id f.issued).now = f.issued ∧
    (Claims.decoding s id f.issued).mem = s.mem) ∧
  (∀ (s : State) (id pa : Nat) (x : Strand) (w : IWord), Claims.Issues s id x → Claims.Fetches s x pa →
    w = BitVec.ofNat 32 (fetchWord pa (Claims.fetching s id x)).1 →
    (∃ t, step s = .next t ∧ t.cur = id ∧ t.now = s.now ∧
      t.me = { x with lastIssue := s.now, promoted := false, flight := some ⟨s.now, s.now + interval x / 8, [], [], some w, false, [], none⟩ }) ∧
    ((∀ l ∈ (sliceAt s (fetchSlice x.place)).lines, l.line ≠ pa / 128) → w = BitVec.ofNat 32 (leNat (sliceRead s pa 4))) ∧
    (x.slot < 32 → (scAt (Claims.fetching s id x) x.place (x.slot / 8)).issuedAt = some s.now)) ∧
  (∀ (s : State) (id : Nat) (x : Strand), Claims.Issues s id x → x.pc.toNat % 4 ≠ 0 →
    step s = mapNext (fun t => { t with dec := false })
      (exec (if x.inHandler then .doubleFault id else .instructionFetchFault x.pc) { noteIssue id x s with dec := false })) ∧
  (∀ (s : State) (t : Nat) (e : Instr) (rest : List (Nat × Instr)), Claims.NothingFlies s → s.agenda = (t, e) :: rest → t ≤ s.now →
    (arrivalAt { s with agenda := rest } e = none → bringsOrders e = false ∨ Claims.NoDebug s → step s = exec e { s with agenda := rest }) ∧
    (∀ core src, arrivalAt { s with agenda := rest } e = some (core, src) →
      (replaying s core = true → step s = .next { s with agenda := rest }) ∧
      (replaying s core = false → ∀ u, exec e { s with agenda := rest } = .next u → (∀ a ∈ u.agenda, a.2 ≠ e) →
        step s = exec e (logArrival core src e { s with agenda := rest })))) ∧
  (∀ (s : State), s.agenda = [] → s.strands = [] → s.hubs = [] → s.cores = [] → s.blocks = [] → s.tlbis = [] →
    ∃ t, step s = .next t ∧ t.now = s.now + 1 ∧
      ((s.now + 1) % 65536 ≠ 0 → Config.strike (s.now + 1) = none → t = { s with now := s.now + 1 }) ∧
      ((s.now + 1) % 65536 = 0 → ∀ m, m < 256 → (s.now + 1, Instr.sensorSample m) ∈ t.agenda))

/-- R151, R162, R334, R340, R392, R400: right after reset every byte of memory is zero, none is poisoned, every word is full,
no tile is defined, every quarter runs as a partition of its own with owner 0, no strand, grid or operation is there, and the
memory is in its canonical form.
Model's reading, not the spec's: log 2 (DESIGN CHOICE), log 60 (DESIGN CHOICE), log 61 (DESIGN CHOICE). -/
def Obligations.ResetState : Prop :=
  State.reset.Inv ∧ (∀ a, memGet State.reset.mem a = 0) ∧ State.reset.poison = [] ∧ (∀ a, feEmpty State.reset a = false) ∧
    State.reset.strands = [] ∧ State.reset.grids = [] ∧ State.reset.ops = [] ∧ (∀ m, cycleOf State.reset m = 0) ∧
    (∀ c, (coreAt State.reset c).tiles = [] ∧ (coreAt State.reset c).deque = []) ∧
    ∀ m q, q < 4 → qst State.reset m q = 0 ∧ qPid State.reset m q = q ∧ qOwner State.reset m q = 0

/-- R2, R122: every step keeps the memory's canonical form, so that equal memories are equal data: addresses rise strictly and
no listed byte is zero.
Model's reading, not the spec's: log 60 (DESIGN CHOICE). -/
def Obligations.StepKeepsInv : Prop := ∀ s t : State, s.Inv → step s = .next t → t.Inv

/-- R29, R30, R46, R51: an instruction with two sources parks at decode, with nothing changed, while a source is empty or its
destination awaits a result; a push to q8 to q11 raises 0x0C with the register's code. A load parks while eight results are
outstanding, whatever it would find. -/
def Obligations.DecodeChecks : Prop :=
  (∀ op f, (op, f) ∈ Claims.twoSource → ∀ (b a d : BitVec 5) (k : BitVec 1) (s : State), a.toNat < 16 → b.toNat < 16 →
    (d.toNat < 16 → regSt s.me a.toNat = .empty → regSt s.me b.toNat = .full ∨ regSt s.me b.toNat = .empty →
      ∃ t l, exec (op b a d k) s = .next t ∧ t = park (.regs l) s ∧ a.toNat ∈ l) ∧
    (regSt s.me a.toNat = .full → regSt s.me b.toNat = .full →
      (∀ tag, d.toNat < 16 → regSt s.me d.toNat = .await tag → exec (op b a d k) s = .next (park (.dest d.toNat) s)) ∧
      (24 ≤ d.toNat → d.toNat < 28 → exec (op b a d k) s = .next (raise 12 (BitVec.ofNat 64 d.toNat) s)))) ∧
  (∀ op e, (op, e) ∈ Claims.loads → ∀ (i n : BitVec 6) (x d : BitVec 5) (k : BitVec 1) (s : State), x.toNat < 16 → d.toNat < 16 →
    regSt s.me x.toNat = .full → regSt s.me d.toNat = .full → 8 ≤ s.me.late.length → exec (op i n x d k) s = .next (park .slots s)) ∧
  (∀ (p : Park) (s : State), Claims.SameMemory s (park p s) ∧
    (park p s).me = { s.me with park := some p, readyAt := s.now + 1 } ∧ (park p s).cores = s.cores ∧
    ∀ id, id ≠ s.cur → tget (park p s).strands id = tget s.strands id)

/-- R25, R26, R28, R31: what retiring with a result in register d does. The destination holds the value and is full, s0 reads
zero and is full whatever is written to it, everything else of the strand but the PC stays, and so do memory, every other
strand and every core. The strand may issue again after 8 cycles, or 32 for the MC's; with `.k` it parks unless nothing is
outstanding.
Model's reading, not the spec's: log 3 (DESIGN CHOICE), log 8 (DESIGN CHOICE). -/
def Obligations.Retirement : Prop :=
  (∀ (d : Nat) (v : Word) (k : BitVec 1) (s t : State), d < 16 → t = retire k (wr d v s) →
    Claims.Kept s t [d] ∧ Claims.SameMemory s t ∧ t.me.pc = s.me.pc + 4 ∧ (d ≠ 0 → regVal t.me d = v ∧ regSt t.me d = .full) ∧
      regVal t.me 0 = 0 ∧ regSt t.me 0 = .full ∧ t.cores = s.cores ∧ t.slices = s.slices ∧ t.hubs = s.hubs ∧ t.grids = s.grids ∧
      t.agenda = s.agenda ∧ t.me.fcsr = s.me.fcsr ∧ t.me.late = s.me.late) ∧
  (∀ (pc : Word) (k : BitVec 1) (s : State),
    (k = 0 ∨ settled s s.cur = true → (retireAt pc k s).me =
      { s.me with pc := pc, readyAt := s.now + (if s.me.kind = .mc then 32 else 8), carried := none }) ∧
    (k = 1 → settled s s.cur = false → (retireAt pc k s).me =
      { s.me with pc := pc, readyAt := s.now + (if s.me.kind = .mc then 32 else 8), carried := none, park := some .kbit }))
end

