-- ==== Sys2Proof/Laws/State.lean ====
section
/-! SUPPORT. What each update of the state leaves: one lemma per field and update, and the laws of tables. -/

namespace Sys2Proof.Machine

open Sys2Proof

/-! ### Tables -/

@[simp] theorem tget_tput_same {α : Type} (t : Tbl α) (k : Nat) (a : α) : tget (tput t k a) k = some a := by
  induction t with
  | nil => simp [tput, tget]
  | cons e t ih =>
    obtain ⟨j, b⟩ := e
    unfold tput
    split
    · simp [tget]
    · split
      · simp [tget]
      · rename_i h
        simp [tget, Ne.symm h, ih]

theorem tget_tput_ne {α : Type} (t : Tbl α) {k j : Nat} (a : α) (h : j ≠ k) : tget (tput t k a) j = tget t j := by
  induction t with
  | nil => simp [tput, tget, Ne.symm h]
  | cons e t ih =>
    obtain ⟨i, b⟩ := e
    unfold tput
    split
    · simp [tget, Ne.symm h]
    · split
      · subst_vars; simp [tget, Ne.symm h]
      · simp [tget, ih]

theorem tget_tput {α : Type} (t : Tbl α) (k j : Nat) (a : α) :
    tget (tput t k a) j = if j = k then some a else tget t j := by
  split
  · subst_vars; simp
  · exact tget_tput_ne t a ‹_›

/-! ### Fixed rows -/

@[simp] theorem vget_vset_same {α : Type} {n : Nat} (v : Vector α n) {i : Nat} (h : i < n) (a d : α) :
    vget (vset v i a) i d = a := by
  simp [vget, vset, h]

theorem vget_vset_ne {α : Type} {n : Nat} (v : Vector α n) {i j : Nat} (h : j ≠ i) (a d : α) :
    vget (vset v i a) j d = vget v j d := by
  simp [vget, vset, Ne.symm h]

/-! ### One lemma per field and update -/

@[simp] theorem modStrand_now (id : Nat) (f : Strand → Strand) (s : State) : (modStrand id f s).now = s.now := rfl
@[simp] theorem modStrand_cur (id : Nat) (f : Strand → Strand) (s : State) : (modStrand id f s).cur = s.cur := rfl
@[simp] theorem modStrand_dec (id : Nat) (f : Strand → Strand) (s : State) : (modStrand id f s).dec = s.dec := rfl
@[simp] theorem modStrand_lag (id : Nat) (f : Strand → Strand) (s : State) : (modStrand id f s).lag = s.lag := rfl
@[simp] theorem modStrand_agenda (id : Nat) (f : Strand → Strand) (s : State) : (modStrand id f s).agenda = s.agenda := rfl
@[simp] theorem modStrand_fresh (id : Nat) (f : Strand → Strand) (s : State) : (modStrand id f s).fresh = s.fresh := rfl
@[simp] theorem modStrand_oracle (id : Nat) (f : Strand → Strand) (s : State) : (modStrand id f s).oracle = s.oracle := rfl
@[simp] theorem modStrand_mem (id : Nat) (f : Strand → Strand) (s : State) : (modStrand id f s).mem = s.mem := rfl
@[simp] theorem modStrand_poison (id : Nat) (f : Strand → Strand) (s : State) : (modStrand id f s).poison = s.poison := rfl
@[simp] theorem modStrand_empties (id : Nat) (f : Strand → Strand) (s : State) : (modStrand id f s).empties = s.empties := rfl
@[simp] theorem modStrand_absents (id : Nat) (f : Strand → Strand) (s : State) : (modStrand id f s).absents = s.absents := rfl
@[simp] theorem modStrand_rows (id : Nat) (f : Strand → Strand) (s : State) : (modStrand id f s).rows = s.rows := rfl
@[simp] theorem modStrand_cables (id : Nat) (f : Strand → Strand) (s : State) : (modStrand id f s).cables = s.cables := rfl
@[simp] theorem modStrand_store (id : Nat) (f : Strand → Strand) (s : State) : (modStrand id f s).store = s.store := rfl
@[simp] theorem modStrand_cores (id : Nat) (f : Strand → Strand) (s : State) : (modStrand id f s).cores = s.cores := rfl
@[simp] theorem modStrand_slices (id : Nat) (f : Strand → Strand) (s : State) : (modStrand id f s).slices = s.slices := rfl
@[simp] theorem modStrand_hubs (id : Nat) (f : Strand → Strand) (s : State) : (modStrand id f s).hubs = s.hubs := rfl
@[simp] theorem modStrand_stores (id : Nat) (f : Strand → Strand) (s : State) : (modStrand id f s).stores = s.stores := rfl
@[simp] theorem modStrand_packets (id : Nat) (f : Strand → Strand) (s : State) : (modStrand id f s).packets = s.packets := rfl
@[simp] theorem modStrand_frames (id : Nat) (f : Strand → Strand) (s : State) : (modStrand id f s).frames = s.frames := rfl
@[simp] theorem modStrand_thieves (id : Nat) (f : Strand → Strand) (s : State) : (modStrand id f s).thieves = s.thieves := rfl
@[simp] theorem modStrand_ops (id : Nat) (f : Strand → Strand) (s : State) : (modStrand id f s).ops = s.ops := rfl
@[simp] theorem modStrand_pieces (id : Nat) (f : Strand → Strand) (s : State) : (modStrand id f s).pieces = s.pieces := rfl
@[simp] theorem modStrand_rmsgs (id : Nat) (f : Strand → Strand) (s : State) : (modStrand id f s).rmsgs = s.rmsgs := rfl
@[simp] theorem modStrand_grids (id : Nat) (f : Strand → Strand) (s : State) : (modStrand id f s).grids = s.grids := rfl
@[simp] theorem modStrand_blocks (id : Nat) (f : Strand → Strand) (s : State) : (modStrand id f s).blocks = s.blocks := rfl
@[simp] theorem modStrand_episodes (id : Nat) (f : Strand → Strand) (s : State) : (modStrand id f s).episodes = s.episodes := rfl
@[simp] theorem modStrand_tlbis (id : Nat) (f : Strand → Strand) (s : State) : (modStrand id f s).tlbis = s.tlbis := rfl
@[simp] theorem modStrand_images (id : Nat) (f : Strand → Strand) (s : State) : (modStrand id f s).images = s.images := rfl
@[simp] theorem modStrand_arrivals (id : Nat) (f : Strand → Strand) (s : State) : (modStrand id f s).arrivals = s.arrivals := rfl
@[simp] theorem modStrand_hostOut (id : Nat) (f : Strand → Strand) (s : State) : (modStrand id f s).hostOut = s.hostOut := rfl

@[simp] theorem modMe_now (f : Strand → Strand) (s : State) : (modMe f s).now = s.now := rfl
@[simp] theorem modMe_cur (f : Strand → Strand) (s : State) : (modMe f s).cur = s.cur := rfl
@[simp] theorem modMe_dec (f : Strand → Strand) (s : State) : (modMe f s).dec = s.dec := rfl
@[simp] theorem modMe_lag (f : Strand → Strand) (s : State) : (modMe f s).lag = s.lag := rfl
@[simp] theorem modMe_agenda (f : Strand → Strand) (s : State) : (modMe f s).agenda = s.agenda := rfl
@[simp] theorem modMe_fresh (f : Strand → Strand) (s : State) : (modMe f s).fresh = s.fresh := rfl
@[simp] theorem modMe_oracle (f : Strand → Strand) (s : State) : (modMe f s).oracle = s.oracle := rfl
@[simp] theorem modMe_mem (f : Strand → Strand) (s : State) : (modMe f s).mem = s.mem := rfl
@[simp] theorem modMe_poison (f : Strand → Strand) (s : State) : (modMe f s).poison = s.poison := rfl
@[simp] theorem modMe_empties (f : Strand → Strand) (s : State) : (modMe f s).empties = s.empties := rfl
@[simp] theorem modMe_absents (f : Strand → Strand) (s : State) : (modMe f s).absents = s.absents := rfl
@[simp] theorem modMe_rows (f : Strand → Strand) (s : State) : (modMe f s).rows = s.rows := rfl
@[simp] theorem modMe_cables (f : Strand → Strand) (s : State) : (modMe f s).cables = s.cables := rfl
@[simp] theorem modMe_store (f : Strand → Strand) (s : State) : (modMe f s).store = s.store := rfl
@[simp] theorem modMe_cores (f : Strand → Strand) (s : State) : (modMe f s).cores = s.cores := rfl
@[simp] theorem modMe_slices (f : Strand → Strand) (s : State) : (modMe f s).slices = s.slices := rfl
@[simp] theorem modMe_hubs (f : Strand → Strand) (s : State) : (modMe f s).hubs = s.hubs := rfl
@[simp] theorem modMe_stores (f : Strand → Strand) (s : State) : (modMe f s).stores = s.stores := rfl
@[simp] theorem modMe_packets (f : Strand → Strand) (s : State) : (modMe f s).packets = s.packets := rfl
@[simp] theorem modMe_frames (f : Strand → Strand) (s : State) : (modMe f s).frames = s.frames := rfl
@[simp] theorem modMe_thieves (f : Strand → Strand) (s : State) : (modMe f s).thieves = s.thieves := rfl
@[simp] theorem modMe_ops (f : Strand → Strand) (s : State) : (modMe f s).ops = s.ops := rfl
@[simp] theorem modMe_pieces (f : Strand → Strand) (s : State) : (modMe f s).pieces = s.pieces := rfl
@[simp] theorem modMe_rmsgs (f : Strand → Strand) (s : State) : (modMe f s).rmsgs = s.rmsgs := rfl
@[simp] theorem modMe_grids (f : Strand → Strand) (s : State) : (modMe f s).grids = s.grids := rfl
@[simp] theorem modMe_blocks (f : Strand → Strand) (s : State) : (modMe f s).blocks = s.blocks := rfl
@[simp] theorem modMe_episodes (f : Strand → Strand) (s : State) : (modMe f s).episodes = s.episodes := rfl
@[simp] theorem modMe_tlbis (f : Strand → Strand) (s : State) : (modMe f s).tlbis = s.tlbis := rfl
@[simp] theorem modMe_images (f : Strand → Strand) (s : State) : (modMe f s).images = s.images := rfl
@[simp] theorem modMe_arrivals (f : Strand → Strand) (s : State) : (modMe f s).arrivals = s.arrivals := rfl
@[simp] theorem modMe_hostOut (f : Strand → Strand) (s : State) : (modMe f s).hostOut = s.hostOut := rfl

@[simp] theorem modCore_now (c : Nat) (f : Core → Core) (s : State) : (modCore c f s).now = s.now := rfl
@[simp] theorem modCore_cur (c : Nat) (f : Core → Core) (s : State) : (modCore c f s).cur = s.cur := rfl
@[simp] theorem modCore_dec (c : Nat) (f : Core → Core) (s : State) : (modCore c f s).dec = s.dec := rfl
@[simp] theorem modCore_lag (c : Nat) (f : Core → Core) (s : State) : (modCore c f s).lag = s.lag := rfl
@[simp] theorem modCore_agenda (c : Nat) (f : Core → Core) (s : State) : (modCore c f s).agenda = s.agenda := rfl
@[simp] theorem modCore_fresh (c : Nat) (f : Core → Core) (s : State) : (modCore c f s).fresh = s.fresh := rfl
@[simp] theorem modCore_oracle (c : Nat) (f : Core → Core) (s : State) : (modCore c f s).oracle = s.oracle := rfl
@[simp] theorem modCore_mem (c : Nat) (f : Core → Core) (s : State) : (modCore c f s).mem = s.mem := rfl
@[simp] theorem modCore_poison (c : Nat) (f : Core → Core) (s : State) : (modCore c f s).poison = s.poison := rfl
@[simp] theorem modCore_empties (c : Nat) (f : Core → Core) (s : State) : (modCore c f s).empties = s.empties := rfl
@[simp] theorem modCore_absents (c : Nat) (f : Core → Core) (s : State) : (modCore c f s).absents = s.absents := rfl
@[simp] theorem modCore_rows (c : Nat) (f : Core → Core) (s : State) : (modCore c f s).rows = s.rows := rfl
@[simp] theorem modCore_cables (c : Nat) (f : Core → Core) (s : State) : (modCore c f s).cables = s.cables := rfl
@[simp] theorem modCore_strands (c : Nat) (f : Core → Core) (s : State) : (modCore c f s).strands = s.strands := rfl
@[simp] theorem modCore_store (c : Nat) (f : Core → Core) (s : State) : (modCore c f s).store = s.store := rfl
@[simp] theorem modCore_slices (c : Nat) (f : Core → Core) (s : State) : (modCore c f s).slices = s.slices := rfl
@[simp] theorem modCore_hubs (c : Nat) (f : Core → Core) (s : State) : (modCore c f s).hubs = s.hubs := rfl
@[simp] theorem modCore_stores (c : Nat) (f : Core → Core) (s : State) : (modCore c f s).stores = s.stores := rfl
@[simp] theorem modCore_packets (c : Nat) (f : Core → Core) (s : State) : (modCore c f s).packets = s.packets := rfl
@[simp] theorem modCore_frames (c : Nat) (f : Core → Core) (s : State) : (modCore c f s).frames = s.frames := rfl
@[simp] theorem modCore_thieves (c : Nat) (f : Core → Core) (s : State) : (modCore c f s).thieves = s.thieves := rfl
@[simp] theorem modCore_ops (c : Nat) (f : Core → Core) (s : State) : (modCore c f s).ops = s.ops := rfl
@[simp] theorem modCore_pieces (c : Nat) (f : Core → Core) (s : State) : (modCore c f s).pieces = s.pieces := rfl
@[simp] theorem modCore_rmsgs (c : Nat) (f : Core → Core) (s : State) : (modCore c f s).rmsgs = s.rmsgs := rfl
@[simp] theorem modCore_grids (c : Nat) (f : Core → Core) (s : State) : (modCore c f s).grids = s.grids := rfl
@[simp] theorem modCore_blocks (c : Nat) (f : Core → Core) (s : State) : (modCore c f s).blocks = s.blocks := rfl
@[simp] theorem modCore_episodes (c : Nat) (f : Core → Core) (s : State) : (modCore c f s).episodes = s.episodes := rfl
@[simp] theorem modCore_tlbis (c : Nat) (f : Core → Core) (s : State) : (modCore c f s).tlbis = s.tlbis := rfl
@[simp] theorem modCore_images (c : Nat) (f : Core → Core) (s : State) : (modCore c f s).images = s.images := rfl
@[simp] theorem modCore_arrivals (c : Nat) (f : Core → Core) (s : State) : (modCore c f s).arrivals = s.arrivals := rfl
@[simp] theorem modCore_hostOut (c : Nat) (f : Core → Core) (s : State) : (modCore c f s).hostOut = s.hostOut := rfl

@[simp] theorem modSc_now (c i : Nat) (f : SCore → SCore) (s : State) : (modSc c i f s).now = s.now := rfl
@[simp] theorem modSc_cur (c i : Nat) (f : SCore → SCore) (s : State) : (modSc c i f s).cur = s.cur := rfl
@[simp] theorem modSc_dec (c i : Nat) (f : SCore → SCore) (s : State) : (modSc c i f s).dec = s.dec := rfl
@[simp] theorem modSc_lag (c i : Nat) (f : SCore → SCore) (s : State) : (modSc c i f s).lag = s.lag := rfl
@[simp] theorem modSc_agenda (c i : Nat) (f : SCore → SCore) (s : State) : (modSc c i f s).agenda = s.agenda := rfl
@[simp] theorem modSc_fresh (c i : Nat) (f : SCore → SCore) (s : State) : (modSc c i f s).fresh = s.fresh := rfl
@[simp] theorem modSc_oracle (c i : Nat) (f : SCore → SCore) (s : State) : (modSc c i f s).oracle = s.oracle := rfl
@[simp] theorem modSc_mem (c i : Nat) (f : SCore → SCore) (s : State) : (modSc c i f s).mem = s.mem := rfl
@[simp] theorem modSc_poison (c i : Nat) (f : SCore → SCore) (s : State) : (modSc c i f s).poison = s.poison := rfl
@[simp] theorem modSc_empties (c i : Nat) (f : SCore → SCore) (s : State) : (modSc c i f s).empties = s.empties := rfl
@[simp] theorem modSc_absents (c i : Nat) (f : SCore → SCore) (s : State) : (modSc c i f s).absents = s.absents := rfl
@[simp] theorem modSc_rows (c i : Nat) (f : SCore → SCore) (s : State) : (modSc c i f s).rows = s.rows := rfl
@[simp] theorem modSc_cables (c i : Nat) (f : SCore → SCore) (s : State) : (modSc c i f s).cables = s.cables := rfl
@[simp] theorem modSc_strands (c i : Nat) (f : SCore → SCore) (s : State) : (modSc c i f s).strands = s.strands := rfl
@[simp] theorem modSc_store (c i : Nat) (f : SCore → SCore) (s : State) : (modSc c i f s).store = s.store := rfl
@[simp] theorem modSc_slices (c i : Nat) (f : SCore → SCore) (s : State) : (modSc c i f s).slices = s.slices := rfl
@[simp] theorem modSc_hubs (c i : Nat) (f : SCore → SCore) (s : State) : (modSc c i f s).hubs = s.hubs := rfl
@[simp] theorem modSc_stores (c i : Nat) (f : SCore → SCore) (s : State) : (modSc c i f s).stores = s.stores := rfl
@[simp] theorem modSc_packets (c i : Nat) (f : SCore → SCore) (s : State) : (modSc c i f s).packets = s.packets := rfl
@[simp] theorem modSc_frames (c i : Nat) (f : SCore → SCore) (s : State) : (modSc c i f s).frames = s.frames := rfl
@[simp] theorem modSc_thieves (c i : Nat) (f : SCore → SCore) (s : State) : (modSc c i f s).thieves = s.thieves := rfl
@[simp] theorem modSc_ops (c i : Nat) (f : SCore → SCore) (s : State) : (modSc c i f s).ops = s.ops := rfl
@[simp] theorem modSc_pieces (c i : Nat) (f : SCore → SCore) (s : State) : (modSc c i f s).pieces = s.pieces := rfl
@[simp] theorem modSc_rmsgs (c i : Nat) (f : SCore → SCore) (s : State) : (modSc c i f s).rmsgs = s.rmsgs := rfl
@[simp] theorem modSc_grids (c i : Nat) (f : SCore → SCore) (s : State) : (modSc c i f s).grids = s.grids := rfl
@[simp] theorem modSc_blocks (c i : Nat) (f : SCore → SCore) (s : State) : (modSc c i f s).blocks = s.blocks := rfl
@[simp] theorem modSc_episodes (c i : Nat) (f : SCore → SCore) (s : State) : (modSc c i f s).episodes = s.episodes := rfl
@[simp] theorem modSc_tlbis (c i : Nat) (f : SCore → SCore) (s : State) : (modSc c i f s).tlbis = s.tlbis := rfl
@[simp] theorem modSc_images (c i : Nat) (f : SCore → SCore) (s : State) : (modSc c i f s).images = s.images := rfl
@[simp] theorem modSc_arrivals (c i : Nat) (f : SCore → SCore) (s : State) : (modSc c i f s).arrivals = s.arrivals := rfl
@[simp] theorem modSc_hostOut (c i : Nat) (f : SCore → SCore) (s : State) : (modSc c i f s).hostOut = s.hostOut := rfl

@[simp] theorem modMySc_now (f : SCore → SCore) (s : State) : (modMySc f s).now = s.now := rfl
@[simp] theorem modMySc_cur (f : SCore → SCore) (s : State) : (modMySc f s).cur = s.cur := rfl
@[simp] theorem modMySc_dec (f : SCore → SCore) (s : State) : (modMySc f s).dec = s.dec := rfl
@[simp] theorem modMySc_lag (f : SCore → SCore) (s : State) : (modMySc f s).lag = s.lag := rfl
@[simp] theorem modMySc_agenda (f : SCore → SCore) (s : State) : (modMySc f s).agenda = s.agenda := rfl
@[simp] theorem modMySc_fresh (f : SCore → SCore) (s : State) : (modMySc f s).fresh = s.fresh := rfl
@[simp] theorem modMySc_oracle (f : SCore → SCore) (s : State) : (modMySc f s).oracle = s.oracle := rfl
@[simp] theorem modMySc_mem (f : SCore → SCore) (s : State) : (modMySc f s).mem = s.mem := rfl
@[simp] theorem modMySc_poison (f : SCore → SCore) (s : State) : (modMySc f s).poison = s.poison := rfl
@[simp] theorem modMySc_empties (f : SCore → SCore) (s : State) : (modMySc f s).empties = s.empties := rfl
@[simp] theorem modMySc_absents (f : SCore → SCore) (s : State) : (modMySc f s).absents = s.absents := rfl
@[simp] theorem modMySc_rows (f : SCore → SCore) (s : State) : (modMySc f s).rows = s.rows := rfl
@[simp] theorem modMySc_cables (f : SCore → SCore) (s : State) : (modMySc f s).cables = s.cables := rfl
@[simp] theorem modMySc_strands (f : SCore → SCore) (s : State) : (modMySc f s).strands = s.strands := rfl
@[simp] theorem modMySc_store (f : SCore → SCore) (s : State) : (modMySc f s).store = s.store := rfl
@[simp] theorem modMySc_slices (f : SCore → SCore) (s : State) : (modMySc f s).slices = s.slices := rfl
@[simp] theorem modMySc_hubs (f : SCore → SCore) (s : State) : (modMySc f s).hubs = s.hubs := rfl
@[simp] theorem modMySc_stores (f : SCore → SCore) (s : State) : (modMySc f s).stores = s.stores := rfl
@[simp] theorem modMySc_packets (f : SCore → SCore) (s : State) : (modMySc f s).packets = s.packets := rfl
@[simp] theorem modMySc_frames (f : SCore → SCore) (s : State) : (modMySc f s).frames = s.frames := rfl
@[simp] theorem modMySc_thieves (f : SCore → SCore) (s : State) : (modMySc f s).thieves = s.thieves := rfl
@[simp] theorem modMySc_ops (f : SCore → SCore) (s : State) : (modMySc f s).ops = s.ops := rfl
@[simp] theorem modMySc_pieces (f : SCore → SCore) (s : State) : (modMySc f s).pieces = s.pieces := rfl
@[simp] theorem modMySc_rmsgs (f : SCore → SCore) (s : State) : (modMySc f s).rmsgs = s.rmsgs := rfl
@[simp] theorem modMySc_grids (f : SCore → SCore) (s : State) : (modMySc f s).grids = s.grids := rfl
@[simp] theorem modMySc_blocks (f : SCore → SCore) (s : State) : (modMySc f s).blocks = s.blocks := rfl
@[simp] theorem modMySc_episodes (f : SCore → SCore) (s : State) : (modMySc f s).episodes = s.episodes := rfl
@[simp] theorem modMySc_tlbis (f : SCore → SCore) (s : State) : (modMySc f s).tlbis = s.tlbis := rfl
@[simp] theorem modMySc_images (f : SCore → SCore) (s : State) : (modMySc f s).images = s.images := rfl
@[simp] theorem modMySc_arrivals (f : SCore → SCore) (s : State) : (modMySc f s).arrivals = s.arrivals := rfl
@[simp] theorem modMySc_hostOut (f : SCore → SCore) (s : State) : (modMySc f s).hostOut = s.hostOut := rfl

@[simp] theorem modSlice_now (c : Nat) (f : Slice → Slice) (s : State) : (modSlice c f s).now = s.now := rfl
@[simp] theorem modSlice_cur (c : Nat) (f : Slice → Slice) (s : State) : (modSlice c f s).cur = s.cur := rfl
@[simp] theorem modSlice_dec (c : Nat) (f : Slice → Slice) (s : State) : (modSlice c f s).dec = s.dec := rfl
@[simp] theorem modSlice_lag (c : Nat) (f : Slice → Slice) (s : State) : (modSlice c f s).lag = s.lag := rfl
@[simp] theorem modSlice_agenda (c : Nat) (f : Slice → Slice) (s : State) : (modSlice c f s).agenda = s.agenda := rfl
@[simp] theorem modSlice_fresh (c : Nat) (f : Slice → Slice) (s : State) : (modSlice c f s).fresh = s.fresh := rfl
@[simp] theorem modSlice_oracle (c : Nat) (f : Slice → Slice) (s : State) : (modSlice c f s).oracle = s.oracle := rfl
@[simp] theorem modSlice_mem (c : Nat) (f : Slice → Slice) (s : State) : (modSlice c f s).mem = s.mem := rfl
@[simp] theorem modSlice_poison (c : Nat) (f : Slice → Slice) (s : State) : (modSlice c f s).poison = s.poison := rfl
@[simp] theorem modSlice_empties (c : Nat) (f : Slice → Slice) (s : State) : (modSlice c f s).empties = s.empties := rfl
@[simp] theorem modSlice_absents (c : Nat) (f : Slice → Slice) (s : State) : (modSlice c f s).absents = s.absents := rfl
@[simp] theorem modSlice_rows (c : Nat) (f : Slice → Slice) (s : State) : (modSlice c f s).rows = s.rows := rfl
@[simp] theorem modSlice_cables (c : Nat) (f : Slice → Slice) (s : State) : (modSlice c f s).cables = s.cables := rfl
@[simp] theorem modSlice_strands (c : Nat) (f : Slice → Slice) (s : State) : (modSlice c f s).strands = s.strands := rfl
@[simp] theorem modSlice_store (c : Nat) (f : Slice → Slice) (s : State) : (modSlice c f s).store = s.store := rfl
@[simp] theorem modSlice_cores (c : Nat) (f : Slice → Slice) (s : State) : (modSlice c f s).cores = s.cores := rfl
@[simp] theorem modSlice_hubs (c : Nat) (f : Slice → Slice) (s : State) : (modSlice c f s).hubs = s.hubs := rfl
@[simp] theorem modSlice_stores (c : Nat) (f : Slice → Slice) (s : State) : (modSlice c f s).stores = s.stores := rfl
@[simp] theorem modSlice_packets (c : Nat) (f : Slice → Slice) (s : State) : (modSlice c f s).packets = s.packets := rfl
@[simp] theorem modSlice_frames (c : Nat) (f : Slice → Slice) (s : State) : (modSlice c f s).frames = s.frames := rfl
@[simp] theorem modSlice_thieves (c : Nat) (f : Slice → Slice) (s : State) : (modSlice c f s).thieves = s.thieves := rfl
@[simp] theorem modSlice_ops (c : Nat) (f : Slice → Slice) (s : State) : (modSlice c f s).ops = s.ops := rfl
@[simp] theorem modSlice_pieces (c : Nat) (f : Slice → Slice) (s : State) : (modSlice c f s).pieces = s.pieces := rfl
@[simp] theorem modSlice_rmsgs (c : Nat) (f : Slice → Slice) (s : State) : (modSlice c f s).rmsgs = s.rmsgs := rfl
@[simp] theorem modSlice_grids (c : Nat) (f : Slice → Slice) (s : State) : (modSlice c f s).grids = s.grids := rfl
@[simp] theorem modSlice_blocks (c : Nat) (f : Slice → Slice) (s : State) : (modSlice c f s).blocks = s.blocks := rfl
@[simp] theorem modSlice_episodes (c : Nat) (f : Slice → Slice) (s : State) : (modSlice c f s).episodes = s.episodes := rfl
@[simp] theorem modSlice_tlbis (c : Nat) (f : Slice → Slice) (s : State) : (modSlice c f s).tlbis = s.tlbis := rfl
@[simp] theorem modSlice_images (c : Nat) (f : Slice → Slice) (s : State) : (modSlice c f s).images = s.images := rfl
@[simp] theorem modSlice_arrivals (c : Nat) (f : Slice → Slice) (s : State) : (modSlice c f s).arrivals = s.arrivals := rfl
@[simp] theorem modSlice_hostOut (c : Nat) (f : Slice → Slice) (s : State) : (modSlice c f s).hostOut = s.hostOut := rfl

@[simp] theorem modHub_now (m : Nat) (f : Hub → Hub) (s : State) : (modHub m f s).now = s.now := rfl
@[simp] theorem modHub_cur (m : Nat) (f : Hub → Hub) (s : State) : (modHub m f s).cur = s.cur := rfl
@[simp] theorem modHub_dec (m : Nat) (f : Hub → Hub) (s : State) : (modHub m f s).dec = s.dec := rfl
@[simp] theorem modHub_lag (m : Nat) (f : Hub → Hub) (s : State) : (modHub m f s).lag = s.lag := rfl
@[simp] theorem modHub_agenda (m : Nat) (f : Hub → Hub) (s : State) : (modHub m f s).agenda = s.agenda := rfl
@[simp] theorem modHub_fresh (m : Nat) (f : Hub → Hub) (s : State) : (modHub m f s).fresh = s.fresh := rfl
@[simp] theorem modHub_oracle (m : Nat) (f : Hub → Hub) (s : State) : (modHub m f s).oracle = s.oracle := rfl
@[simp] theorem modHub_mem (m : Nat) (f : Hub → Hub) (s : State) : (modHub m f s).mem = s.mem := rfl
@[simp] theorem modHub_poison (m : Nat) (f : Hub → Hub) (s : State) : (modHub m f s).poison = s.poison := rfl
@[simp] theorem modHub_empties (m : Nat) (f : Hub → Hub) (s : State) : (modHub m f s).empties = s.empties := rfl
@[simp] theorem modHub_absents (m : Nat) (f : Hub → Hub) (s : State) : (modHub m f s).absents = s.absents := rfl
@[simp] theorem modHub_rows (m : Nat) (f : Hub → Hub) (s : State) : (modHub m f s).rows = s.rows := rfl
@[simp] theorem modHub_cables (m : Nat) (f : Hub → Hub) (s : State) : (modHub m f s).cables = s.cables := rfl
@[simp] theorem modHub_strands (m : Nat) (f : Hub → Hub) (s : State) : (modHub m f s).strands = s.strands := rfl
@[simp] theorem modHub_store (m : Nat) (f : Hub → Hub) (s : State) : (modHub m f s).store = s.store := rfl
@[simp] theorem modHub_cores (m : Nat) (f : Hub → Hub) (s : State) : (modHub m f s).cores = s.cores := rfl
@[simp] theorem modHub_slices (m : Nat) (f : Hub → Hub) (s : State) : (modHub m f s).slices = s.slices := rfl
@[simp] theorem modHub_stores (m : Nat) (f : Hub → Hub) (s : State) : (modHub m f s).stores = s.stores := rfl
@[simp] theorem modHub_packets (m : Nat) (f : Hub → Hub) (s : State) : (modHub m f s).packets = s.packets := rfl
@[simp] theorem modHub_frames (m : Nat) (f : Hub → Hub) (s : State) : (modHub m f s).frames = s.frames := rfl
@[simp] theorem modHub_thieves (m : Nat) (f : Hub → Hub) (s : State) : (modHub m f s).thieves = s.thieves := rfl
@[simp] theorem modHub_ops (m : Nat) (f : Hub → Hub) (s : State) : (modHub m f s).ops = s.ops := rfl
@[simp] theorem modHub_pieces (m : Nat) (f : Hub → Hub) (s : State) : (modHub m f s).pieces = s.pieces := rfl
@[simp] theorem modHub_rmsgs (m : Nat) (f : Hub → Hub) (s : State) : (modHub m f s).rmsgs = s.rmsgs := rfl
@[simp] theorem modHub_grids (m : Nat) (f : Hub → Hub) (s : State) : (modHub m f s).grids = s.grids := rfl
@[simp] theorem modHub_blocks (m : Nat) (f : Hub → Hub) (s : State) : (modHub m f s).blocks = s.blocks := rfl
@[simp] theorem modHub_episodes (m : Nat) (f : Hub → Hub) (s : State) : (modHub m f s).episodes = s.episodes := rfl
@[simp] theorem modHub_tlbis (m : Nat) (f : Hub → Hub) (s : State) : (modHub m f s).tlbis = s.tlbis := rfl
@[simp] theorem modHub_images (m : Nat) (f : Hub → Hub) (s : State) : (modHub m f s).images = s.images := rfl
@[simp] theorem modHub_arrivals (m : Nat) (f : Hub → Hub) (s : State) : (modHub m f s).arrivals = s.arrivals := rfl
@[simp] theorem modHub_hostOut (m : Nat) (f : Hub → Hub) (s : State) : (modHub m f s).hostOut = s.hostOut := rfl

@[simp] theorem bump_now (s : State) : (bump s).now = s.now := rfl
@[simp] theorem bump_cur (s : State) : (bump s).cur = s.cur := rfl
@[simp] theorem bump_dec (s : State) : (bump s).dec = s.dec := rfl
@[simp] theorem bump_lag (s : State) : (bump s).lag = s.lag := rfl
@[simp] theorem bump_agenda (s : State) : (bump s).agenda = s.agenda := rfl
@[simp] theorem bump_oracle (s : State) : (bump s).oracle = s.oracle := rfl
@[simp] theorem bump_mem (s : State) : (bump s).mem = s.mem := rfl
@[simp] theorem bump_poison (s : State) : (bump s).poison = s.poison := rfl
@[simp] theorem bump_empties (s : State) : (bump s).empties = s.empties := rfl
@[simp] theorem bump_absents (s : State) : (bump s).absents = s.absents := rfl
@[simp] theorem bump_rows (s : State) : (bump s).rows = s.rows := rfl
@[simp] theorem bump_cables (s : State) : (bump s).cables = s.cables := rfl
@[simp] theorem bump_strands (s : State) : (bump s).strands = s.strands := rfl
@[simp] theorem bump_store (s : State) : (bump s).store = s.store := rfl
@[simp] theorem bump_cores (s : State) : (bump s).cores = s.cores := rfl
@[simp] theorem bump_slices (s : State) : (bump s).slices = s.slices := rfl
@[simp] theorem bump_hubs (s : State) : (bump s).hubs = s.hubs := rfl
@[simp] theorem bump_stores (s : State) : (bump s).stores = s.stores := rfl
@[simp] theorem bump_packets (s : State) : (bump s).packets = s.packets := rfl
@[simp] theorem bump_frames (s : State) : (bump s).frames = s.frames := rfl
@[simp] theorem bump_thieves (s : State) : (bump s).thieves = s.thieves := rfl
@[simp] theorem bump_ops (s : State) : (bump s).ops = s.ops := rfl
@[simp] theorem bump_pieces (s : State) : (bump s).pieces = s.pieces := rfl
@[simp] theorem bump_rmsgs (s : State) : (bump s).rmsgs = s.rmsgs := rfl
@[simp] theorem bump_grids (s : State) : (bump s).grids = s.grids := rfl
@[simp] theorem bump_blocks (s : State) : (bump s).blocks = s.blocks := rfl
@[simp] theorem bump_episodes (s : State) : (bump s).episodes = s.episodes := rfl
@[simp] theorem bump_tlbis (s : State) : (bump s).tlbis = s.tlbis := rfl
@[simp] theorem bump_images (s : State) : (bump s).images = s.images := rfl
@[simp] theorem bump_arrivals (s : State) : (bump s).arrivals = s.arrivals := rfl
@[simp] theorem bump_hostOut (s : State) : (bump s).hostOut = s.hostOut := rfl

@[simp] theorem sched_now (d : Nat) (i : Instr) (s : State) : (sched d i s).now = s.now := rfl
@[simp] theorem sched_cur (d : Nat) (i : Instr) (s : State) : (sched d i s).cur = s.cur := rfl
@[simp] theorem sched_dec (d : Nat) (i : Instr) (s : State) : (sched d i s).dec = s.dec := rfl
@[simp] theorem sched_lag (d : Nat) (i : Instr) (s : State) : (sched d i s).lag = s.lag := rfl
@[simp] theorem sched_fresh (d : Nat) (i : Instr) (s : State) : (sched d i s).fresh = s.fresh := rfl
@[simp] theorem sched_oracle (d : Nat) (i : Instr) (s : State) : (sched d i s).oracle = s.oracle := rfl
@[simp] theorem sched_mem (d : Nat) (i : Instr) (s : State) : (sched d i s).mem = s.mem := rfl
@[simp] theorem sched_poison (d : Nat) (i : Instr) (s : State) : (sched d i s).poison = s.poison := rfl
@[simp] theorem sched_empties (d : Nat) (i : Instr) (s : State) : (sched d i s).empties = s.empties := rfl
@[simp] theorem sched_absents (d : Nat) (i : Instr) (s : State) : (sched d i s).absents = s.absents := rfl
@[simp] theorem sched_rows (d : Nat) (i : Instr) (s : State) : (sched d i s).rows = s.rows := rfl
@[simp] theorem sched_cables (d : Nat) (i : Instr) (s : State) : (sched d i s).cables = s.cables := rfl
@[simp] theorem sched_strands (d : Nat) (i : Instr) (s : State) : (sched d i s).strands = s.strands := rfl
@[simp] theorem sched_store (d : Nat) (i : Instr) (s : State) : (sched d i s).store = s.store := rfl
@[simp] theorem sched_cores (d : Nat) (i : Instr) (s : State) : (sched d i s).cores = s.cores := rfl
@[simp] theorem sched_slices (d : Nat) (i : Instr) (s : State) : (sched d i s).slices = s.slices := rfl
@[simp] theorem sched_hubs (d : Nat) (i : Instr) (s : State) : (sched d i s).hubs = s.hubs := rfl
@[simp] theorem sched_stores (d : Nat) (i : Instr) (s : State) : (sched d i s).stores = s.stores := rfl
@[simp] theorem sched_packets (d : Nat) (i : Instr) (s : State) : (sched d i s).packets = s.packets := rfl
@[simp] theorem sched_frames (d : Nat) (i : Instr) (s : State) : (sched d i s).frames = s.frames := rfl
@[simp] theorem sched_thieves (d : Nat) (i : Instr) (s : State) : (sched d i s).thieves = s.thieves := rfl
@[simp] theorem sched_ops (d : Nat) (i : Instr) (s : State) : (sched d i s).ops = s.ops := rfl
@[simp] theorem sched_pieces (d : Nat) (i : Instr) (s : State) : (sched d i s).pieces = s.pieces := rfl
@[simp] theorem sched_rmsgs (d : Nat) (i : Instr) (s : State) : (sched d i s).rmsgs = s.rmsgs := rfl
@[simp] theorem sched_grids (d : Nat) (i : Instr) (s : State) : (sched d i s).grids = s.grids := rfl
@[simp] theorem sched_blocks (d : Nat) (i : Instr) (s : State) : (sched d i s).blocks = s.blocks := rfl
@[simp] theorem sched_episodes (d : Nat) (i : Instr) (s : State) : (sched d i s).episodes = s.episodes := rfl
@[simp] theorem sched_tlbis (d : Nat) (i : Instr) (s : State) : (sched d i s).tlbis = s.tlbis := rfl
@[simp] theorem sched_images (d : Nat) (i : Instr) (s : State) : (sched d i s).images = s.images := rfl
@[simp] theorem sched_arrivals (d : Nat) (i : Instr) (s : State) : (sched d i s).arrivals = s.arrivals := rfl
@[simp] theorem sched_hostOut (d : Nat) (i : Instr) (s : State) : (sched d i s).hostOut = s.hostOut := rfl

@[simp] theorem schedFree_now (i : Instr) (s : State) : (schedFree i s).now = s.now := rfl
@[simp] theorem schedFree_cur (i : Instr) (s : State) : (schedFree i s).cur = s.cur := rfl
@[simp] theorem schedFree_dec (i : Instr) (s : State) : (schedFree i s).dec = s.dec := rfl
@[simp] theorem schedFree_lag (i : Instr) (s : State) : (schedFree i s).lag = s.lag := rfl
@[simp] theorem schedFree_fresh (i : Instr) (s : State) : (schedFree i s).fresh = s.fresh := rfl
@[simp] theorem schedFree_mem (i : Instr) (s : State) : (schedFree i s).mem = s.mem := rfl
@[simp] theorem schedFree_poison (i : Instr) (s : State) : (schedFree i s).poison = s.poison := rfl
@[simp] theorem schedFree_empties (i : Instr) (s : State) : (schedFree i s).empties = s.empties := rfl
@[simp] theorem schedFree_absents (i : Instr) (s : State) : (schedFree i s).absents = s.absents := rfl
@[simp] theorem schedFree_rows (i : Instr) (s : State) : (schedFree i s).rows = s.rows := rfl
@[simp] theorem schedFree_cables (i : Instr) (s : State) : (schedFree i s).cables = s.cables := rfl
@[simp] theorem schedFree_strands (i : Instr) (s : State) : (schedFree i s).strands = s.strands := rfl
@[simp] theorem schedFree_store (i : Instr) (s : State) : (schedFree i s).store = s.store := rfl
@[simp] theorem schedFree_cores (i : Instr) (s : State) : (schedFree i s).cores = s.cores := rfl
@[simp] theorem schedFree_slices (i : Instr) (s : State) : (schedFree i s).slices = s.slices := rfl
@[simp] theorem schedFree_hubs (i : Instr) (s : State) : (schedFree i s).hubs = s.hubs := rfl
@[simp] theorem schedFree_stores (i : Instr) (s : State) : (schedFree i s).stores = s.stores := rfl
@[simp] theorem schedFree_packets (i : Instr) (s : State) : (schedFree i s).packets = s.packets := rfl
@[simp] theorem schedFree_frames (i : Instr) (s : State) : (schedFree i s).frames = s.frames := rfl
@[simp] theorem schedFree_thieves (i : Instr) (s : State) : (schedFree i s).thieves = s.thieves := rfl
@[simp] theorem schedFree_ops (i : Instr) (s : State) : (schedFree i s).ops = s.ops := rfl
@[simp] theorem schedFree_pieces (i : Instr) (s : State) : (schedFree i s).pieces = s.pieces := rfl
@[simp] theorem schedFree_rmsgs (i : Instr) (s : State) : (schedFree i s).rmsgs = s.rmsgs := rfl
@[simp] theorem schedFree_grids (i : Instr) (s : State) : (schedFree i s).grids = s.grids := rfl
@[simp] theorem schedFree_blocks (i : Instr) (s : State) : (schedFree i s).blocks = s.blocks := rfl
@[simp] theorem schedFree_episodes (i : Instr) (s : State) : (schedFree i s).episodes = s.episodes := rfl
@[simp] theorem schedFree_tlbis (i : Instr) (s : State) : (schedFree i s).tlbis = s.tlbis := rfl
@[simp] theorem schedFree_images (i : Instr) (s : State) : (schedFree i s).images = s.images := rfl
@[simp] theorem schedFree_arrivals (i : Instr) (s : State) : (schedFree i s).arrivals = s.arrivals := rfl
@[simp] theorem schedFree_hostOut (i : Instr) (s : State) : (schedFree i s).hostOut = s.hostOut := rfl

@[simp] theorem pokeBytes_now (a : Nat) (b : List Byte) (s : State) : (pokeBytes a b s).now = s.now := rfl
@[simp] theorem pokeBytes_cur (a : Nat) (b : List Byte) (s : State) : (pokeBytes a b s).cur = s.cur := rfl
@[simp] theorem pokeBytes_dec (a : Nat) (b : List Byte) (s : State) : (pokeBytes a b s).dec = s.dec := rfl
@[simp] theorem pokeBytes_lag (a : Nat) (b : List Byte) (s : State) : (pokeBytes a b s).lag = s.lag := rfl
@[simp] theorem pokeBytes_agenda (a : Nat) (b : List Byte) (s : State) : (pokeBytes a b s).agenda = s.agenda := rfl
@[simp] theorem pokeBytes_fresh (a : Nat) (b : List Byte) (s : State) : (pokeBytes a b s).fresh = s.fresh := rfl
@[simp] theorem pokeBytes_oracle (a : Nat) (b : List Byte) (s : State) : (pokeBytes a b s).oracle = s.oracle := rfl
@[simp] theorem pokeBytes_poison (a : Nat) (b : List Byte) (s : State) : (pokeBytes a b s).poison = s.poison := rfl
@[simp] theorem pokeBytes_empties (a : Nat) (b : List Byte) (s : State) : (pokeBytes a b s).empties = s.empties := rfl
@[simp] theorem pokeBytes_absents (a : Nat) (b : List Byte) (s : State) : (pokeBytes a b s).absents = s.absents := rfl
@[simp] theorem pokeBytes_rows (a : Nat) (b : List Byte) (s : State) : (pokeBytes a b s).rows = s.rows := rfl
@[simp] theorem pokeBytes_cables (a : Nat) (b : List Byte) (s : State) : (pokeBytes a b s).cables = s.cables := rfl
@[simp] theorem pokeBytes_strands (a : Nat) (b : List Byte) (s : State) : (pokeBytes a b s).strands = s.strands := rfl
@[simp] theorem pokeBytes_store (a : Nat) (b : List Byte) (s : State) : (pokeBytes a b s).store = s.store := rfl
@[simp] theorem pokeBytes_cores (a : Nat) (b : List Byte) (s : State) : (pokeBytes a b s).cores = s.cores := rfl
@[simp] theorem pokeBytes_slices (a : Nat) (b : List Byte) (s : State) : (pokeBytes a b s).slices = s.slices := rfl
@[simp] theorem pokeBytes_hubs (a : Nat) (b : List Byte) (s : State) : (pokeBytes a b s).hubs = s.hubs := rfl
@[simp] theorem pokeBytes_stores (a : Nat) (b : List Byte) (s : State) : (pokeBytes a b s).stores = s.stores := rfl
@[simp] theorem pokeBytes_packets (a : Nat) (b : List Byte) (s : State) : (pokeBytes a b s).packets = s.packets := rfl
@[simp] theorem pokeBytes_frames (a : Nat) (b : List Byte) (s : State) : (pokeBytes a b s).frames = s.frames := rfl
@[simp] theorem pokeBytes_thieves (a : Nat) (b : List Byte) (s : State) : (pokeBytes a b s).thieves = s.thieves := rfl
@[simp] theorem pokeBytes_ops (a : Nat) (b : List Byte) (s : State) : (pokeBytes a b s).ops = s.ops := rfl
@[simp] theorem pokeBytes_pieces (a : Nat) (b : List Byte) (s : State) : (pokeBytes a b s).pieces = s.pieces := rfl
@[simp] theorem pokeBytes_rmsgs (a : Nat) (b : List Byte) (s : State) : (pokeBytes a b s).rmsgs = s.rmsgs := rfl
@[simp] theorem pokeBytes_grids (a : Nat) (b : List Byte) (s : State) : (pokeBytes a b s).grids = s.grids := rfl
@[simp] theorem pokeBytes_blocks (a : Nat) (b : List Byte) (s : State) : (pokeBytes a b s).blocks = s.blocks := rfl
@[simp] theorem pokeBytes_episodes (a : Nat) (b : List Byte) (s : State) : (pokeBytes a b s).episodes = s.episodes := rfl
@[simp] theorem pokeBytes_tlbis (a : Nat) (b : List Byte) (s : State) : (pokeBytes a b s).tlbis = s.tlbis := rfl
@[simp] theorem pokeBytes_images (a : Nat) (b : List Byte) (s : State) : (pokeBytes a b s).images = s.images := rfl
@[simp] theorem pokeBytes_arrivals (a : Nat) (b : List Byte) (s : State) : (pokeBytes a b s).arrivals = s.arrivals := rfl
@[simp] theorem pokeBytes_hostOut (a : Nat) (b : List Byte) (s : State) : (pokeBytes a b s).hostOut = s.hostOut := rfl

@[simp] theorem setPoison_now (g : Nat) (s : State) : (setPoison g s).now = s.now := rfl
@[simp] theorem setPoison_cur (g : Nat) (s : State) : (setPoison g s).cur = s.cur := rfl
@[simp] theorem setPoison_dec (g : Nat) (s : State) : (setPoison g s).dec = s.dec := rfl
@[simp] theorem setPoison_lag (g : Nat) (s : State) : (setPoison g s).lag = s.lag := rfl
@[simp] theorem setPoison_agenda (g : Nat) (s : State) : (setPoison g s).agenda = s.agenda := rfl
@[simp] theorem setPoison_fresh (g : Nat) (s : State) : (setPoison g s).fresh = s.fresh := rfl
@[simp] theorem setPoison_oracle (g : Nat) (s : State) : (setPoison g s).oracle = s.oracle := rfl
@[simp] theorem setPoison_mem (g : Nat) (s : State) : (setPoison g s).mem = s.mem := rfl
@[simp] theorem setPoison_empties (g : Nat) (s : State) : (setPoison g s).empties = s.empties := rfl
@[simp] theorem setPoison_absents (g : Nat) (s : State) : (setPoison g s).absents = s.absents := rfl
@[simp] theorem setPoison_rows (g : Nat) (s : State) : (setPoison g s).rows = s.rows := rfl
@[simp] theorem setPoison_cables (g : Nat) (s : State) : (setPoison g s).cables = s.cables := rfl
@[simp] theorem setPoison_strands (g : Nat) (s : State) : (setPoison g s).strands = s.strands := rfl
@[simp] theorem setPoison_store (g : Nat) (s : State) : (setPoison g s).store = s.store := rfl
@[simp] theorem setPoison_cores (g : Nat) (s : State) : (setPoison g s).cores = s.cores := rfl
@[simp] theorem setPoison_slices (g : Nat) (s : State) : (setPoison g s).slices = s.slices := rfl
@[simp] theorem setPoison_hubs (g : Nat) (s : State) : (setPoison g s).hubs = s.hubs := rfl
@[simp] theorem setPoison_stores (g : Nat) (s : State) : (setPoison g s).stores = s.stores := rfl
@[simp] theorem setPoison_packets (g : Nat) (s : State) : (setPoison g s).packets = s.packets := rfl
@[simp] theorem setPoison_frames (g : Nat) (s : State) : (setPoison g s).frames = s.frames := rfl
@[simp] theorem setPoison_thieves (g : Nat) (s : State) : (setPoison g s).thieves = s.thieves := rfl
@[simp] theorem setPoison_ops (g : Nat) (s : State) : (setPoison g s).ops = s.ops := rfl
@[simp] theorem setPoison_pieces (g : Nat) (s : State) : (setPoison g s).pieces = s.pieces := rfl
@[simp] theorem setPoison_rmsgs (g : Nat) (s : State) : (setPoison g s).rmsgs = s.rmsgs := rfl
@[simp] theorem setPoison_grids (g : Nat) (s : State) : (setPoison g s).grids = s.grids := rfl
@[simp] theorem setPoison_blocks (g : Nat) (s : State) : (setPoison g s).blocks = s.blocks := rfl
@[simp] theorem setPoison_episodes (g : Nat) (s : State) : (setPoison g s).episodes = s.episodes := rfl
@[simp] theorem setPoison_tlbis (g : Nat) (s : State) : (setPoison g s).tlbis = s.tlbis := rfl
@[simp] theorem setPoison_images (g : Nat) (s : State) : (setPoison g s).images = s.images := rfl
@[simp] theorem setPoison_arrivals (g : Nat) (s : State) : (setPoison g s).arrivals = s.arrivals := rfl
@[simp] theorem setPoison_hostOut (g : Nat) (s : State) : (setPoison g s).hostOut = s.hostOut := rfl

@[simp] theorem clearPoison_now (g : Nat) (s : State) : (clearPoison g s).now = s.now := rfl
@[simp] theorem clearPoison_cur (g : Nat) (s : State) : (clearPoison g s).cur = s.cur := rfl
@[simp] theorem clearPoison_dec (g : Nat) (s : State) : (clearPoison g s).dec = s.dec := rfl
@[simp] theorem clearPoison_lag (g : Nat) (s : State) : (clearPoison g s).lag = s.lag := rfl
@[simp] theorem clearPoison_agenda (g : Nat) (s : State) : (clearPoison g s).agenda = s.agenda := rfl
@[simp] theorem clearPoison_fresh (g : Nat) (s : State) : (clearPoison g s).fresh = s.fresh := rfl
@[simp] theorem clearPoison_oracle (g : Nat) (s : State) : (clearPoison g s).oracle = s.oracle := rfl
@[simp] theorem clearPoison_mem (g : Nat) (s : State) : (clearPoison g s).mem = s.mem := rfl
@[simp] theorem clearPoison_empties (g : Nat) (s : State) : (clearPoison g s).empties = s.empties := rfl
@[simp] theorem clearPoison_absents (g : Nat) (s : State) : (clearPoison g s).absents = s.absents := rfl
@[simp] theorem clearPoison_rows (g : Nat) (s : State) : (clearPoison g s).rows = s.rows := rfl
@[simp] theorem clearPoison_cables (g : Nat) (s : State) : (clearPoison g s).cables = s.cables := rfl
@[simp] theorem clearPoison_strands (g : Nat) (s : State) : (clearPoison g s).strands = s.strands := rfl
@[simp] theorem clearPoison_store (g : Nat) (s : State) : (clearPoison g s).store = s.store := rfl
@[simp] theorem clearPoison_cores (g : Nat) (s : State) : (clearPoison g s).cores = s.cores := rfl
@[simp] theorem clearPoison_slices (g : Nat) (s : State) : (clearPoison g s).slices = s.slices := rfl
@[simp] theorem clearPoison_hubs (g : Nat) (s : State) : (clearPoison g s).hubs = s.hubs := rfl
@[simp] theorem clearPoison_stores (g : Nat) (s : State) : (clearPoison g s).stores = s.stores := rfl
@[simp] theorem clearPoison_packets (g : Nat) (s : State) : (clearPoison g s).packets = s.packets := rfl
@[simp] theorem clearPoison_frames (g : Nat) (s : State) : (clearPoison g s).frames = s.frames := rfl
@[simp] theorem clearPoison_thieves (g : Nat) (s : State) : (clearPoison g s).thieves = s.thieves := rfl
@[simp] theorem clearPoison_ops (g : Nat) (s : State) : (clearPoison g s).ops = s.ops := rfl
@[simp] theorem clearPoison_pieces (g : Nat) (s : State) : (clearPoison g s).pieces = s.pieces := rfl
@[simp] theorem clearPoison_rmsgs (g : Nat) (s : State) : (clearPoison g s).rmsgs = s.rmsgs := rfl
@[simp] theorem clearPoison_grids (g : Nat) (s : State) : (clearPoison g s).grids = s.grids := rfl
@[simp] theorem clearPoison_blocks (g : Nat) (s : State) : (clearPoison g s).blocks = s.blocks := rfl
@[simp] theorem clearPoison_episodes (g : Nat) (s : State) : (clearPoison g s).episodes = s.episodes := rfl
@[simp] theorem clearPoison_tlbis (g : Nat) (s : State) : (clearPoison g s).tlbis = s.tlbis := rfl
@[simp] theorem clearPoison_images (g : Nat) (s : State) : (clearPoison g s).images = s.images := rfl
@[simp] theorem clearPoison_arrivals (g : Nat) (s : State) : (clearPoison g s).arrivals = s.arrivals := rfl
@[simp] theorem clearPoison_hostOut (g : Nat) (s : State) : (clearPoison g s).hostOut = s.hostOut := rfl

@[simp] theorem setEmpty_now (a : Nat) (s : State) : (setEmpty a s).now = s.now := rfl
@[simp] theorem setEmpty_cur (a : Nat) (s : State) : (setEmpty a s).cur = s.cur := rfl
@[simp] theorem setEmpty_dec (a : Nat) (s : State) : (setEmpty a s).dec = s.dec := rfl
@[simp] theorem setEmpty_lag (a : Nat) (s : State) : (setEmpty a s).lag = s.lag := rfl
@[simp] theorem setEmpty_agenda (a : Nat) (s : State) : (setEmpty a s).agenda = s.agenda := rfl
@[simp] theorem setEmpty_fresh (a : Nat) (s : State) : (setEmpty a s).fresh = s.fresh := rfl
@[simp] theorem setEmpty_oracle (a : Nat) (s : State) : (setEmpty a s).oracle = s.oracle := rfl
@[simp] theorem setEmpty_mem (a : Nat) (s : State) : (setEmpty a s).mem = s.mem := rfl
@[simp] theorem setEmpty_poison (a : Nat) (s : State) : (setEmpty a s).poison = s.poison := rfl
@[simp] theorem setEmpty_absents (a : Nat) (s : State) : (setEmpty a s).absents = s.absents := rfl
@[simp] theorem setEmpty_rows (a : Nat) (s : State) : (setEmpty a s).rows = s.rows := rfl
@[simp] theorem setEmpty_cables (a : Nat) (s : State) : (setEmpty a s).cables = s.cables := rfl
@[simp] theorem setEmpty_strands (a : Nat) (s : State) : (setEmpty a s).strands = s.strands := rfl
@[simp] theorem setEmpty_store (a : Nat) (s : State) : (setEmpty a s).store = s.store := rfl
@[simp] theorem setEmpty_cores (a : Nat) (s : State) : (setEmpty a s).cores = s.cores := rfl
@[simp] theorem setEmpty_slices (a : Nat) (s : State) : (setEmpty a s).slices = s.slices := rfl
@[simp] theorem setEmpty_hubs (a : Nat) (s : State) : (setEmpty a s).hubs = s.hubs := rfl
@[simp] theorem setEmpty_stores (a : Nat) (s : State) : (setEmpty a s).stores = s.stores := rfl
@[simp] theorem setEmpty_packets (a : Nat) (s : State) : (setEmpty a s).packets = s.packets := rfl
@[simp] theorem setEmpty_frames (a : Nat) (s : State) : (setEmpty a s).frames = s.frames := rfl
@[simp] theorem setEmpty_thieves (a : Nat) (s : State) : (setEmpty a s).thieves = s.thieves := rfl
@[simp] theorem setEmpty_ops (a : Nat) (s : State) : (setEmpty a s).ops = s.ops := rfl
@[simp] theorem setEmpty_pieces (a : Nat) (s : State) : (setEmpty a s).pieces = s.pieces := rfl
@[simp] theorem setEmpty_rmsgs (a : Nat) (s : State) : (setEmpty a s).rmsgs = s.rmsgs := rfl
@[simp] theorem setEmpty_grids (a : Nat) (s : State) : (setEmpty a s).grids = s.grids := rfl
@[simp] theorem setEmpty_blocks (a : Nat) (s : State) : (setEmpty a s).blocks = s.blocks := rfl
@[simp] theorem setEmpty_episodes (a : Nat) (s : State) : (setEmpty a s).episodes = s.episodes := rfl
@[simp] theorem setEmpty_tlbis (a : Nat) (s : State) : (setEmpty a s).tlbis = s.tlbis := rfl
@[simp] theorem setEmpty_images (a : Nat) (s : State) : (setEmpty a s).images = s.images := rfl
@[simp] theorem setEmpty_arrivals (a : Nat) (s : State) : (setEmpty a s).arrivals = s.arrivals := rfl
@[simp] theorem setEmpty_hostOut (a : Nat) (s : State) : (setEmpty a s).hostOut = s.hostOut := rfl

@[simp] theorem setFull_now (a : Nat) (s : State) : (setFull a s).now = s.now := rfl
@[simp] theorem setFull_cur (a : Nat) (s : State) : (setFull a s).cur = s.cur := rfl
@[simp] theorem setFull_dec (a : Nat) (s : State) : (setFull a s).dec = s.dec := rfl
@[simp] theorem setFull_lag (a : Nat) (s : State) : (setFull a s).lag = s.lag := rfl
@[simp] theorem setFull_agenda (a : Nat) (s : State) : (setFull a s).agenda = s.agenda := rfl
@[simp] theorem setFull_fresh (a : Nat) (s : State) : (setFull a s).fresh = s.fresh := rfl
@[simp] theorem setFull_oracle (a : Nat) (s : State) : (setFull a s).oracle = s.oracle := rfl
@[simp] theorem setFull_mem (a : Nat) (s : State) : (setFull a s).mem = s.mem := rfl
@[simp] theorem setFull_poison (a : Nat) (s : State) : (setFull a s).poison = s.poison := rfl
@[simp] theorem setFull_absents (a : Nat) (s : State) : (setFull a s).absents = s.absents := rfl
@[simp] theorem setFull_rows (a : Nat) (s : State) : (setFull a s).rows = s.rows := rfl
@[simp] theorem setFull_cables (a : Nat) (s : State) : (setFull a s).cables = s.cables := rfl
@[simp] theorem setFull_strands (a : Nat) (s : State) : (setFull a s).strands = s.strands := rfl
@[simp] theorem setFull_store (a : Nat) (s : State) : (setFull a s).store = s.store := rfl
@[simp] theorem setFull_cores (a : Nat) (s : State) : (setFull a s).cores = s.cores := rfl
@[simp] theorem setFull_slices (a : Nat) (s : State) : (setFull a s).slices = s.slices := rfl
@[simp] theorem setFull_hubs (a : Nat) (s : State) : (setFull a s).hubs = s.hubs := rfl
@[simp] theorem setFull_stores (a : Nat) (s : State) : (setFull a s).stores = s.stores := rfl
@[simp] theorem setFull_packets (a : Nat) (s : State) : (setFull a s).packets = s.packets := rfl
@[simp] theorem setFull_frames (a : Nat) (s : State) : (setFull a s).frames = s.frames := rfl
@[simp] theorem setFull_thieves (a : Nat) (s : State) : (setFull a s).thieves = s.thieves := rfl
@[simp] theorem setFull_ops (a : Nat) (s : State) : (setFull a s).ops = s.ops := rfl
@[simp] theorem setFull_pieces (a : Nat) (s : State) : (setFull a s).pieces = s.pieces := rfl
@[simp] theorem setFull_rmsgs (a : Nat) (s : State) : (setFull a s).rmsgs = s.rmsgs := rfl
@[simp] theorem setFull_grids (a : Nat) (s : State) : (setFull a s).grids = s.grids := rfl
@[simp] theorem setFull_blocks (a : Nat) (s : State) : (setFull a s).blocks = s.blocks := rfl
@[simp] theorem setFull_episodes (a : Nat) (s : State) : (setFull a s).episodes = s.episodes := rfl
@[simp] theorem setFull_tlbis (a : Nat) (s : State) : (setFull a s).tlbis = s.tlbis := rfl
@[simp] theorem setFull_images (a : Nat) (s : State) : (setFull a s).images = s.images := rfl
@[simp] theorem setFull_arrivals (a : Nat) (s : State) : (setFull a s).arrivals = s.arrivals := rfl
@[simp] theorem setFull_hostOut (a : Nat) (s : State) : (setFull a s).hostOut = s.hostOut := rfl

@[simp] theorem wr_now (r : Nat) (v : Word) (s : State) : (wr r v s).now = s.now := rfl
@[simp] theorem wr_cur (r : Nat) (v : Word) (s : State) : (wr r v s).cur = s.cur := rfl
@[simp] theorem wr_dec (r : Nat) (v : Word) (s : State) : (wr r v s).dec = s.dec := rfl
@[simp] theorem wr_lag (r : Nat) (v : Word) (s : State) : (wr r v s).lag = s.lag := rfl
@[simp] theorem wr_agenda (r : Nat) (v : Word) (s : State) : (wr r v s).agenda = s.agenda := rfl
@[simp] theorem wr_fresh (r : Nat) (v : Word) (s : State) : (wr r v s).fresh = s.fresh := rfl
@[simp] theorem wr_oracle (r : Nat) (v : Word) (s : State) : (wr r v s).oracle = s.oracle := rfl
@[simp] theorem wr_mem (r : Nat) (v : Word) (s : State) : (wr r v s).mem = s.mem := rfl
@[simp] theorem wr_poison (r : Nat) (v : Word) (s : State) : (wr r v s).poison = s.poison := rfl
@[simp] theorem wr_empties (r : Nat) (v : Word) (s : State) : (wr r v s).empties = s.empties := rfl
@[simp] theorem wr_absents (r : Nat) (v : Word) (s : State) : (wr r v s).absents = s.absents := rfl
@[simp] theorem wr_rows (r : Nat) (v : Word) (s : State) : (wr r v s).rows = s.rows := rfl
@[simp] theorem wr_cables (r : Nat) (v : Word) (s : State) : (wr r v s).cables = s.cables := rfl
@[simp] theorem wr_store (r : Nat) (v : Word) (s : State) : (wr r v s).store = s.store := rfl
@[simp] theorem wr_cores (r : Nat) (v : Word) (s : State) : (wr r v s).cores = s.cores := rfl
@[simp] theorem wr_slices (r : Nat) (v : Word) (s : State) : (wr r v s).slices = s.slices := rfl
@[simp] theorem wr_hubs (r : Nat) (v : Word) (s : State) : (wr r v s).hubs = s.hubs := rfl
@[simp] theorem wr_stores (r : Nat) (v : Word) (s : State) : (wr r v s).stores = s.stores := rfl
@[simp] theorem wr_packets (r : Nat) (v : Word) (s : State) : (wr r v s).packets = s.packets := rfl
@[simp] theorem wr_frames (r : Nat) (v : Word) (s : State) : (wr r v s).frames = s.frames := rfl
@[simp] theorem wr_thieves (r : Nat) (v : Word) (s : State) : (wr r v s).thieves = s.thieves := rfl
@[simp] theorem wr_ops (r : Nat) (v : Word) (s : State) : (wr r v s).ops = s.ops := rfl
@[simp] theorem wr_pieces (r : Nat) (v : Word) (s : State) : (wr r v s).pieces = s.pieces := rfl
@[simp] theorem wr_rmsgs (r : Nat) (v : Word) (s : State) : (wr r v s).rmsgs = s.rmsgs := rfl
@[simp] theorem wr_grids (r : Nat) (v : Word) (s : State) : (wr r v s).grids = s.grids := rfl
@[simp] theorem wr_blocks (r : Nat) (v : Word) (s : State) : (wr r v s).blocks = s.blocks := rfl
@[simp] theorem wr_episodes (r : Nat) (v : Word) (s : State) : (wr r v s).episodes = s.episodes := rfl
@[simp] theorem wr_tlbis (r : Nat) (v : Word) (s : State) : (wr r v s).tlbis = s.tlbis := rfl
@[simp] theorem wr_images (r : Nat) (v : Word) (s : State) : (wr r v s).images = s.images := rfl
@[simp] theorem wr_arrivals (r : Nat) (v : Word) (s : State) : (wr r v s).arrivals = s.arrivals := rfl
@[simp] theorem wr_hostOut (r : Nat) (v : Word) (s : State) : (wr r v s).hostOut = s.hostOut := rfl

@[simp] theorem park_now (p : Park) (s : State) : (park p s).now = s.now := rfl
@[simp] theorem park_cur (p : Park) (s : State) : (park p s).cur = s.cur := rfl
@[simp] theorem park_dec (p : Park) (s : State) : (park p s).dec = s.dec := rfl
@[simp] theorem park_lag (p : Park) (s : State) : (park p s).lag = s.lag := rfl
@[simp] theorem park_agenda (p : Park) (s : State) : (park p s).agenda = s.agenda := rfl
@[simp] theorem park_fresh (p : Park) (s : State) : (park p s).fresh = s.fresh := rfl
@[simp] theorem park_oracle (p : Park) (s : State) : (park p s).oracle = s.oracle := rfl
@[simp] theorem park_mem (p : Park) (s : State) : (park p s).mem = s.mem := rfl
@[simp] theorem park_poison (p : Park) (s : State) : (park p s).poison = s.poison := rfl
@[simp] theorem park_empties (p : Park) (s : State) : (park p s).empties = s.empties := rfl
@[simp] theorem park_absents (p : Park) (s : State) : (park p s).absents = s.absents := rfl
@[simp] theorem park_rows (p : Park) (s : State) : (park p s).rows = s.rows := rfl
@[simp] theorem park_cables (p : Park) (s : State) : (park p s).cables = s.cables := rfl
@[simp] theorem park_store (p : Park) (s : State) : (park p s).store = s.store := rfl
@[simp] theorem park_cores (p : Park) (s : State) : (park p s).cores = s.cores := rfl
@[simp] theorem park_slices (p : Park) (s : State) : (park p s).slices = s.slices := rfl
@[simp] theorem park_hubs (p : Park) (s : State) : (park p s).hubs = s.hubs := rfl
@[simp] theorem park_stores (p : Park) (s : State) : (park p s).stores = s.stores := rfl
@[simp] theorem park_packets (p : Park) (s : State) : (park p s).packets = s.packets := rfl
@[simp] theorem park_frames (p : Park) (s : State) : (park p s).frames = s.frames := rfl
@[simp] theorem park_thieves (p : Park) (s : State) : (park p s).thieves = s.thieves := rfl
@[simp] theorem park_ops (p : Park) (s : State) : (park p s).ops = s.ops := rfl
@[simp] theorem park_pieces (p : Park) (s : State) : (park p s).pieces = s.pieces := rfl
@[simp] theorem park_rmsgs (p : Park) (s : State) : (park p s).rmsgs = s.rmsgs := rfl
@[simp] theorem park_grids (p : Park) (s : State) : (park p s).grids = s.grids := rfl
@[simp] theorem park_blocks (p : Park) (s : State) : (park p s).blocks = s.blocks := rfl
@[simp] theorem park_episodes (p : Park) (s : State) : (park p s).episodes = s.episodes := rfl
@[simp] theorem park_tlbis (p : Park) (s : State) : (park p s).tlbis = s.tlbis := rfl
@[simp] theorem park_images (p : Park) (s : State) : (park p s).images = s.images := rfl
@[simp] theorem park_arrivals (p : Park) (s : State) : (park p s).arrivals = s.arrivals := rfl
@[simp] theorem park_hostOut (p : Park) (s : State) : (park p s).hostOut = s.hostOut := rfl

@[simp] theorem accrueTo_now (id : Nat) (g : FFlags) (s : State) : (accrueTo id g s).now = s.now := rfl
@[simp] theorem accrueTo_cur (id : Nat) (g : FFlags) (s : State) : (accrueTo id g s).cur = s.cur := rfl
@[simp] theorem accrueTo_dec (id : Nat) (g : FFlags) (s : State) : (accrueTo id g s).dec = s.dec := rfl
@[simp] theorem accrueTo_lag (id : Nat) (g : FFlags) (s : State) : (accrueTo id g s).lag = s.lag := rfl
@[simp] theorem accrueTo_agenda (id : Nat) (g : FFlags) (s : State) : (accrueTo id g s).agenda = s.agenda := rfl
@[simp] theorem accrueTo_fresh (id : Nat) (g : FFlags) (s : State) : (accrueTo id g s).fresh = s.fresh := rfl
@[simp] theorem accrueTo_oracle (id : Nat) (g : FFlags) (s : State) : (accrueTo id g s).oracle = s.oracle := rfl
@[simp] theorem accrueTo_mem (id : Nat) (g : FFlags) (s : State) : (accrueTo id g s).mem = s.mem := rfl
@[simp] theorem accrueTo_poison (id : Nat) (g : FFlags) (s : State) : (accrueTo id g s).poison = s.poison := rfl
@[simp] theorem accrueTo_empties (id : Nat) (g : FFlags) (s : State) : (accrueTo id g s).empties = s.empties := rfl
@[simp] theorem accrueTo_absents (id : Nat) (g : FFlags) (s : State) : (accrueTo id g s).absents = s.absents := rfl
@[simp] theorem accrueTo_rows (id : Nat) (g : FFlags) (s : State) : (accrueTo id g s).rows = s.rows := rfl
@[simp] theorem accrueTo_cables (id : Nat) (g : FFlags) (s : State) : (accrueTo id g s).cables = s.cables := rfl
@[simp] theorem accrueTo_store (id : Nat) (g : FFlags) (s : State) : (accrueTo id g s).store = s.store := rfl
@[simp] theorem accrueTo_cores (id : Nat) (g : FFlags) (s : State) : (accrueTo id g s).cores = s.cores := rfl
@[simp] theorem accrueTo_slices (id : Nat) (g : FFlags) (s : State) : (accrueTo id g s).slices = s.slices := rfl
@[simp] theorem accrueTo_hubs (id : Nat) (g : FFlags) (s : State) : (accrueTo id g s).hubs = s.hubs := rfl
@[simp] theorem accrueTo_stores (id : Nat) (g : FFlags) (s : State) : (accrueTo id g s).stores = s.stores := rfl
@[simp] theorem accrueTo_packets (id : Nat) (g : FFlags) (s : State) : (accrueTo id g s).packets = s.packets := rfl
@[simp] theorem accrueTo_frames (id : Nat) (g : FFlags) (s : State) : (accrueTo id g s).frames = s.frames := rfl
@[simp] theorem accrueTo_thieves (id : Nat) (g : FFlags) (s : State) : (accrueTo id g s).thieves = s.thieves := rfl
@[simp] theorem accrueTo_ops (id : Nat) (g : FFlags) (s : State) : (accrueTo id g s).ops = s.ops := rfl
@[simp] theorem accrueTo_pieces (id : Nat) (g : FFlags) (s : State) : (accrueTo id g s).pieces = s.pieces := rfl
@[simp] theorem accrueTo_rmsgs (id : Nat) (g : FFlags) (s : State) : (accrueTo id g s).rmsgs = s.rmsgs := rfl
@[simp] theorem accrueTo_grids (id : Nat) (g : FFlags) (s : State) : (accrueTo id g s).grids = s.grids := rfl
@[simp] theorem accrueTo_blocks (id : Nat) (g : FFlags) (s : State) : (accrueTo id g s).blocks = s.blocks := rfl
@[simp] theorem accrueTo_episodes (id : Nat) (g : FFlags) (s : State) : (accrueTo id g s).episodes = s.episodes := rfl
@[simp] theorem accrueTo_tlbis (id : Nat) (g : FFlags) (s : State) : (accrueTo id g s).tlbis = s.tlbis := rfl
@[simp] theorem accrueTo_images (id : Nat) (g : FFlags) (s : State) : (accrueTo id g s).images = s.images := rfl
@[simp] theorem accrueTo_arrivals (id : Nat) (g : FFlags) (s : State) : (accrueTo id g s).arrivals = s.arrivals := rfl
@[simp] theorem accrueTo_hostOut (id : Nat) (g : FFlags) (s : State) : (accrueTo id g s).hostOut = s.hostOut := rfl

@[simp] theorem accrue_now (g : FFlags) (s : State) : (accrue g s).now = s.now := rfl
@[simp] theorem accrue_cur (g : FFlags) (s : State) : (accrue g s).cur = s.cur := rfl
@[simp] theorem accrue_dec (g : FFlags) (s : State) : (accrue g s).dec = s.dec := rfl
@[simp] theorem accrue_lag (g : FFlags) (s : State) : (accrue g s).lag = s.lag := rfl
@[simp] theorem accrue_agenda (g : FFlags) (s : State) : (accrue g s).agenda = s.agenda := rfl
@[simp] theorem accrue_fresh (g : FFlags) (s : State) : (accrue g s).fresh = s.fresh := rfl
@[simp] theorem accrue_oracle (g : FFlags) (s : State) : (accrue g s).oracle = s.oracle := rfl
@[simp] theorem accrue_mem (g : FFlags) (s : State) : (accrue g s).mem = s.mem := rfl
@[simp] theorem accrue_poison (g : FFlags) (s : State) : (accrue g s).poison = s.poison := rfl
@[simp] theorem accrue_empties (g : FFlags) (s : State) : (accrue g s).empties = s.empties := rfl
@[simp] theorem accrue_absents (g : FFlags) (s : State) : (accrue g s).absents = s.absents := rfl
@[simp] theorem accrue_rows (g : FFlags) (s : State) : (accrue g s).rows = s.rows := rfl
@[simp] theorem accrue_cables (g : FFlags) (s : State) : (accrue g s).cables = s.cables := rfl
@[simp] theorem accrue_store (g : FFlags) (s : State) : (accrue g s).store = s.store := rfl
@[simp] theorem accrue_cores (g : FFlags) (s : State) : (accrue g s).cores = s.cores := rfl
@[simp] theorem accrue_slices (g : FFlags) (s : State) : (accrue g s).slices = s.slices := rfl
@[simp] theorem accrue_hubs (g : FFlags) (s : State) : (accrue g s).hubs = s.hubs := rfl
@[simp] theorem accrue_stores (g : FFlags) (s : State) : (accrue g s).stores = s.stores := rfl
@[simp] theorem accrue_packets (g : FFlags) (s : State) : (accrue g s).packets = s.packets := rfl
@[simp] theorem accrue_frames (g : FFlags) (s : State) : (accrue g s).frames = s.frames := rfl
@[simp] theorem accrue_thieves (g : FFlags) (s : State) : (accrue g s).thieves = s.thieves := rfl
@[simp] theorem accrue_ops (g : FFlags) (s : State) : (accrue g s).ops = s.ops := rfl
@[simp] theorem accrue_pieces (g : FFlags) (s : State) : (accrue g s).pieces = s.pieces := rfl
@[simp] theorem accrue_rmsgs (g : FFlags) (s : State) : (accrue g s).rmsgs = s.rmsgs := rfl
@[simp] theorem accrue_grids (g : FFlags) (s : State) : (accrue g s).grids = s.grids := rfl
@[simp] theorem accrue_blocks (g : FFlags) (s : State) : (accrue g s).blocks = s.blocks := rfl
@[simp] theorem accrue_episodes (g : FFlags) (s : State) : (accrue g s).episodes = s.episodes := rfl
@[simp] theorem accrue_tlbis (g : FFlags) (s : State) : (accrue g s).tlbis = s.tlbis := rfl
@[simp] theorem accrue_images (g : FFlags) (s : State) : (accrue g s).images = s.images := rfl
@[simp] theorem accrue_arrivals (g : FFlags) (s : State) : (accrue g s).arrivals = s.arrivals := rfl
@[simp] theorem accrue_hostOut (g : FFlags) (s : State) : (accrue g s).hostOut = s.hostOut := rfl

@[simp] theorem ctlPut_now (m o v : Nat) (s : State) : (ctlPut m o v s).now = s.now := rfl
@[simp] theorem ctlPut_cur (m o v : Nat) (s : State) : (ctlPut m o v s).cur = s.cur := rfl
@[simp] theorem ctlPut_dec (m o v : Nat) (s : State) : (ctlPut m o v s).dec = s.dec := rfl
@[simp] theorem ctlPut_lag (m o v : Nat) (s : State) : (ctlPut m o v s).lag = s.lag := rfl
@[simp] theorem ctlPut_agenda (m o v : Nat) (s : State) : (ctlPut m o v s).agenda = s.agenda := rfl
@[simp] theorem ctlPut_fresh (m o v : Nat) (s : State) : (ctlPut m o v s).fresh = s.fresh := rfl
@[simp] theorem ctlPut_oracle (m o v : Nat) (s : State) : (ctlPut m o v s).oracle = s.oracle := rfl
@[simp] theorem ctlPut_mem (m o v : Nat) (s : State) : (ctlPut m o v s).mem = s.mem := rfl
@[simp] theorem ctlPut_poison (m o v : Nat) (s : State) : (ctlPut m o v s).poison = s.poison := rfl
@[simp] theorem ctlPut_empties (m o v : Nat) (s : State) : (ctlPut m o v s).empties = s.empties := rfl
@[simp] theorem ctlPut_absents (m o v : Nat) (s : State) : (ctlPut m o v s).absents = s.absents := rfl
@[simp] theorem ctlPut_rows (m o v : Nat) (s : State) : (ctlPut m o v s).rows = s.rows := rfl
@[simp] theorem ctlPut_cables (m o v : Nat) (s : State) : (ctlPut m o v s).cables = s.cables := rfl
@[simp] theorem ctlPut_strands (m o v : Nat) (s : State) : (ctlPut m o v s).strands = s.strands := rfl
@[simp] theorem ctlPut_store (m o v : Nat) (s : State) : (ctlPut m o v s).store = s.store := rfl
@[simp] theorem ctlPut_cores (m o v : Nat) (s : State) : (ctlPut m o v s).cores = s.cores := rfl
@[simp] theorem ctlPut_slices (m o v : Nat) (s : State) : (ctlPut m o v s).slices = s.slices := rfl
@[simp] theorem ctlPut_stores (m o v : Nat) (s : State) : (ctlPut m o v s).stores = s.stores := rfl
@[simp] theorem ctlPut_packets (m o v : Nat) (s : State) : (ctlPut m o v s).packets = s.packets := rfl
@[simp] theorem ctlPut_frames (m o v : Nat) (s : State) : (ctlPut m o v s).frames = s.frames := rfl
@[simp] theorem ctlPut_thieves (m o v : Nat) (s : State) : (ctlPut m o v s).thieves = s.thieves := rfl
@[simp] theorem ctlPut_ops (m o v : Nat) (s : State) : (ctlPut m o v s).ops = s.ops := rfl
@[simp] theorem ctlPut_pieces (m o v : Nat) (s : State) : (ctlPut m o v s).pieces = s.pieces := rfl
@[simp] theorem ctlPut_rmsgs (m o v : Nat) (s : State) : (ctlPut m o v s).rmsgs = s.rmsgs := rfl
@[simp] theorem ctlPut_grids (m o v : Nat) (s : State) : (ctlPut m o v s).grids = s.grids := rfl
@[simp] theorem ctlPut_blocks (m o v : Nat) (s : State) : (ctlPut m o v s).blocks = s.blocks := rfl
@[simp] theorem ctlPut_episodes (m o v : Nat) (s : State) : (ctlPut m o v s).episodes = s.episodes := rfl
@[simp] theorem ctlPut_tlbis (m o v : Nat) (s : State) : (ctlPut m o v s).tlbis = s.tlbis := rfl
@[simp] theorem ctlPut_images (m o v : Nat) (s : State) : (ctlPut m o v s).images = s.images := rfl
@[simp] theorem ctlPut_arrivals (m o v : Nat) (s : State) : (ctlPut m o v s).arrivals = s.arrivals := rfl
@[simp] theorem ctlPut_hostOut (m o v : Nat) (s : State) : (ctlPut m o v s).hostOut = s.hostOut := rfl

theorem modStrand_strands (id : Nat) (f : Strand → Strand) (s : State) :
    (modStrand id f s).strands = tmod s.strands id Strand.reset f := rfl
theorem sched_agenda (d : Nat) (i : Instr) (s : State) : (sched d i s).agenda = insertDue (s.now + d, i) s.agenda := rfl
@[simp] theorem pokeBytes_mem (a : Nat) (b : List Byte) (s : State) : (pokeBytes a b s).mem = memWrite s.mem a b := rfl

/-! ### The components that an update changes or leaves -/

@[simp] theorem strandAt_modStrand_same (id : Nat) (f : Strand → Strand) (s : State) :
    strandAt (modStrand id f s) id = f (strandAt s id) := by
  simp [strandAt, modStrand, tmod]

theorem strandAt_modStrand_ne {id j : Nat} (f : Strand → Strand) (s : State) (h : j ≠ id) :
    strandAt (modStrand id f s) j = strandAt s j := by
  simp [strandAt, modStrand, tmod, tget_tput_ne _ _ h]

@[simp] theorem me_modMe (f : Strand → Strand) (s : State) : (modMe f s).me = f s.me := by
  simp [State.me, modMe]

@[simp] theorem me_modCore (c : Nat) (f : Core → Core) (s : State) : (modCore c f s).me = s.me := rfl
@[simp] theorem strandAt_modCore (c : Nat) (f : Core → Core) (s : State) (j : Nat) : strandAt (modCore c f s) j = strandAt s j := rfl
@[simp] theorem me_modSc (c i : Nat) (f : SCore → SCore) (s : State) : (modSc c i f s).me = s.me := rfl
@[simp] theorem strandAt_modSc (c i : Nat) (f : SCore → SCore) (s : State) (j : Nat) : strandAt (modSc c i f s) j = strandAt s j := rfl
@[simp] theorem me_modMySc (f : SCore → SCore) (s : State) : (modMySc f s).me = s.me := rfl
@[simp] theorem strandAt_modMySc (f : SCore → SCore) (s : State) (j : Nat) : strandAt (modMySc f s) j = strandAt s j := rfl
@[simp] theorem me_modSlice (c : Nat) (f : Slice → Slice) (s : State) : (modSlice c f s).me = s.me := rfl
@[simp] theorem strandAt_modSlice (c : Nat) (f : Slice → Slice) (s : State) (j : Nat) : strandAt (modSlice c f s) j = strandAt s j := rfl
@[simp] theorem me_modHub (m : Nat) (f : Hub → Hub) (s : State) : (modHub m f s).me = s.me := rfl
@[simp] theorem strandAt_modHub (m : Nat) (f : Hub → Hub) (s : State) (j : Nat) : strandAt (modHub m f s) j = strandAt s j := rfl
@[simp] theorem me_bump (s : State) : (bump s).me = s.me := rfl
@[simp] theorem strandAt_bump (s : State) (j : Nat) : strandAt (bump s) j = strandAt s j := rfl
@[simp] theorem me_sched (d : Nat) (i : Instr) (s : State) : (sched d i s).me = s.me := rfl
@[simp] theorem strandAt_sched (d : Nat) (i : Instr) (s : State) (j : Nat) : strandAt (sched d i s) j = strandAt s j := rfl
@[simp] theorem me_schedFree (i : Instr) (s : State) : (schedFree i s).me = s.me := rfl
@[simp] theorem strandAt_schedFree (i : Instr) (s : State) (j : Nat) : strandAt (schedFree i s) j = strandAt s j := rfl
@[simp] theorem me_pokeBytes (a : Nat) (b : List Byte) (s : State) : (pokeBytes a b s).me = s.me := rfl
@[simp] theorem strandAt_pokeBytes (a : Nat) (b : List Byte) (s : State) (j : Nat) : strandAt (pokeBytes a b s) j = strandAt s j := rfl
@[simp] theorem me_setPoison (g : Nat) (s : State) : (setPoison g s).me = s.me := rfl
@[simp] theorem strandAt_setPoison (g : Nat) (s : State) (j : Nat) : strandAt (setPoison g s) j = strandAt s j := rfl
@[simp] theorem me_clearPoison (g : Nat) (s : State) : (clearPoison g s).me = s.me := rfl
@[simp] theorem strandAt_clearPoison (g : Nat) (s : State) (j : Nat) : strandAt (clearPoison g s) j = strandAt s j := rfl
@[simp] theorem me_setEmpty (a : Nat) (s : State) : (setEmpty a s).me = s.me := rfl
@[simp] theorem strandAt_setEmpty (a : Nat) (s : State) (j : Nat) : strandAt (setEmpty a s) j = strandAt s j := rfl
@[simp] theorem me_setFull (a : Nat) (s : State) : (setFull a s).me = s.me := rfl
@[simp] theorem strandAt_setFull (a : Nat) (s : State) (j : Nat) : strandAt (setFull a s) j = strandAt s j := rfl
@[simp] theorem me_ctlPut (m o v : Nat) (s : State) : (ctlPut m o v s).me = s.me := rfl
@[simp] theorem strandAt_ctlPut (m o v : Nat) (s : State) (j : Nat) : strandAt (ctlPut m o v s) j = strandAt s j := rfl
@[simp] theorem coreAt_modStrand (id : Nat) (f : Strand → Strand) (s : State) (c' : Nat) : coreAt (modStrand id f s) c' = coreAt s c' := rfl
@[simp] theorem scAt_modStrand (id : Nat) (f : Strand → Strand) (s : State) (c' i' : Nat) : scAt (modStrand id f s) c' i' = scAt s c' i' := rfl
@[simp] theorem coreAt_modMe (f : Strand → Strand) (s : State) (c' : Nat) : coreAt (modMe f s) c' = coreAt s c' := rfl
@[simp] theorem scAt_modMe (f : Strand → Strand) (s : State) (c' i' : Nat) : scAt (modMe f s) c' i' = scAt s c' i' := rfl
@[simp] theorem coreAt_modSlice (c : Nat) (f : Slice → Slice) (s : State) (c' : Nat) : coreAt (modSlice c f s) c' = coreAt s c' := rfl
@[simp] theorem scAt_modSlice (c : Nat) (f : Slice → Slice) (s : State) (c' i' : Nat) : scAt (modSlice c f s) c' i' = scAt s c' i' := rfl
@[simp] theorem coreAt_modHub (m : Nat) (f : Hub → Hub) (s : State) (c' : Nat) : coreAt (modHub m f s) c' = coreAt s c' := rfl
@[simp] theorem scAt_modHub (m : Nat) (f : Hub → Hub) (s : State) (c' i' : Nat) : scAt (modHub m f s) c' i' = scAt s c' i' := rfl
@[simp] theorem coreAt_bump (s : State) (c' : Nat) : coreAt (bump s) c' = coreAt s c' := rfl
@[simp] theorem scAt_bump (s : State) (c' i' : Nat) : scAt (bump s) c' i' = scAt s c' i' := rfl
@[simp] theorem coreAt_sched (d : Nat) (i : Instr) (s : State) (c' : Nat) : coreAt (sched d i s) c' = coreAt s c' := rfl
@[simp] theorem scAt_sched (d : Nat) (i : Instr) (s : State) (c' i' : Nat) : scAt (sched d i s) c' i' = scAt s c' i' := rfl
@[simp] theorem coreAt_schedFree (i : Instr) (s : State) (c' : Nat) : coreAt (schedFree i s) c' = coreAt s c' := rfl
@[simp] theorem scAt_schedFree (i : Instr) (s : State) (c' i' : Nat) : scAt (schedFree i s) c' i' = scAt s c' i' := rfl
@[simp] theorem coreAt_pokeBytes (a : Nat) (b : List Byte) (s : State) (c' : Nat) : coreAt (pokeBytes a b s) c' = coreAt s c' := rfl
@[simp] theorem scAt_pokeBytes (a : Nat) (b : List Byte) (s : State) (c' i' : Nat) : scAt (pokeBytes a b s) c' i' = scAt s c' i' := rfl
@[simp] theorem coreAt_setPoison (g : Nat) (s : State) (c' : Nat) : coreAt (setPoison g s) c' = coreAt s c' := rfl
@[simp] theorem scAt_setPoison (g : Nat) (s : State) (c' i' : Nat) : scAt (setPoison g s) c' i' = scAt s c' i' := rfl
@[simp] theorem coreAt_clearPoison (g : Nat) (s : State) (c' : Nat) : coreAt (clearPoison g s) c' = coreAt s c' := rfl
@[simp] theorem scAt_clearPoison (g : Nat) (s : State) (c' i' : Nat) : scAt (clearPoison g s) c' i' = scAt s c' i' := rfl
@[simp] theorem coreAt_setEmpty (a : Nat) (s : State) (c' : Nat) : coreAt (setEmpty a s) c' = coreAt s c' := rfl
@[simp] theorem scAt_setEmpty (a : Nat) (s : State) (c' i' : Nat) : scAt (setEmpty a s) c' i' = scAt s c' i' := rfl
@[simp] theorem coreAt_setFull (a : Nat) (s : State) (c' : Nat) : coreAt (setFull a s) c' = coreAt s c' := rfl
@[simp] theorem scAt_setFull (a : Nat) (s : State) (c' i' : Nat) : scAt (setFull a s) c' i' = scAt s c' i' := rfl
@[simp] theorem coreAt_wr (r : Nat) (v : Word) (s : State) (c' : Nat) : coreAt (wr r v s) c' = coreAt s c' := rfl
@[simp] theorem scAt_wr (r : Nat) (v : Word) (s : State) (c' i' : Nat) : scAt (wr r v s) c' i' = scAt s c' i' := rfl
@[simp] theorem coreAt_park (p : Park) (s : State) (c' : Nat) : coreAt (park p s) c' = coreAt s c' := rfl
@[simp] theorem scAt_park (p : Park) (s : State) (c' i' : Nat) : scAt (park p s) c' i' = scAt s c' i' := rfl
@[simp] theorem coreAt_accrueTo (id : Nat) (g : FFlags) (s : State) (c' : Nat) : coreAt (accrueTo id g s) c' = coreAt s c' := rfl
@[simp] theorem scAt_accrueTo (id : Nat) (g : FFlags) (s : State) (c' i' : Nat) : scAt (accrueTo id g s) c' i' = scAt s c' i' := rfl
@[simp] theorem coreAt_accrue (g : FFlags) (s : State) (c' : Nat) : coreAt (accrue g s) c' = coreAt s c' := rfl
@[simp] theorem scAt_accrue (g : FFlags) (s : State) (c' i' : Nat) : scAt (accrue g s) c' i' = scAt s c' i' := rfl
@[simp] theorem coreAt_ctlPut (m o v : Nat) (s : State) (c' : Nat) : coreAt (ctlPut m o v s) c' = coreAt s c' := rfl
@[simp] theorem scAt_ctlPut (m o v : Nat) (s : State) (c' i' : Nat) : scAt (ctlPut m o v s) c' i' = scAt s c' i' := rfl
@[simp] theorem hubAt_modStrand (id : Nat) (f : Strand → Strand) (s : State) (m' : Nat) : hubAt (modStrand id f s) m' = hubAt s m' := rfl
@[simp] theorem hubAt_modMe (f : Strand → Strand) (s : State) (m' : Nat) : hubAt (modMe f s) m' = hubAt s m' := rfl
@[simp] theorem hubAt_modCore (c : Nat) (f : Core → Core) (s : State) (m' : Nat) : hubAt (modCore c f s) m' = hubAt s m' := rfl
@[simp] theorem hubAt_modSc (c i : Nat) (f : SCore → SCore) (s : State) (m' : Nat) : hubAt (modSc c i f s) m' = hubAt s m' := rfl
@[simp] theorem hubAt_modMySc (f : SCore → SCore) (s : State) (m' : Nat) : hubAt (modMySc f s) m' = hubAt s m' := rfl
@[simp] theorem hubAt_modSlice (c : Nat) (f : Slice → Slice) (s : State) (m' : Nat) : hubAt (modSlice c f s) m' = hubAt s m' := rfl
@[simp] theorem hubAt_bump (s : State) (m' : Nat) : hubAt (bump s) m' = hubAt s m' := rfl
@[simp] theorem hubAt_sched (d : Nat) (i : Instr) (s : State) (m' : Nat) : hubAt (sched d i s) m' = hubAt s m' := rfl
@[simp] theorem hubAt_schedFree (i : Instr) (s : State) (m' : Nat) : hubAt (schedFree i s) m' = hubAt s m' := rfl
@[simp] theorem hubAt_pokeBytes (a : Nat) (b : List Byte) (s : State) (m' : Nat) : hubAt (pokeBytes a b s) m' = hubAt s m' := rfl
@[simp] theorem hubAt_setPoison (g : Nat) (s : State) (m' : Nat) : hubAt (setPoison g s) m' = hubAt s m' := rfl
@[simp] theorem hubAt_clearPoison (g : Nat) (s : State) (m' : Nat) : hubAt (clearPoison g s) m' = hubAt s m' := rfl
@[simp] theorem hubAt_setEmpty (a : Nat) (s : State) (m' : Nat) : hubAt (setEmpty a s) m' = hubAt s m' := rfl
@[simp] theorem hubAt_setFull (a : Nat) (s : State) (m' : Nat) : hubAt (setFull a s) m' = hubAt s m' := rfl
@[simp] theorem hubAt_wr (r : Nat) (v : Word) (s : State) (m' : Nat) : hubAt (wr r v s) m' = hubAt s m' := rfl
@[simp] theorem hubAt_park (p : Park) (s : State) (m' : Nat) : hubAt (park p s) m' = hubAt s m' := rfl
@[simp] theorem hubAt_accrueTo (id : Nat) (g : FFlags) (s : State) (m' : Nat) : hubAt (accrueTo id g s) m' = hubAt s m' := rfl
@[simp] theorem hubAt_accrue (g : FFlags) (s : State) (m' : Nat) : hubAt (accrue g s) m' = hubAt s m' := rfl
@[simp] theorem sliceAt_modStrand (id : Nat) (f : Strand → Strand) (s : State) (c' : Nat) : sliceAt (modStrand id f s) c' = sliceAt s c' := rfl
@[simp] theorem sliceAt_modMe (f : Strand → Strand) (s : State) (c' : Nat) : sliceAt (modMe f s) c' = sliceAt s c' := rfl
@[simp] theorem sliceAt_modCore (c : Nat) (f : Core → Core) (s : State) (c' : Nat) : sliceAt (modCore c f s) c' = sliceAt s c' := rfl
@[simp] theorem sliceAt_modSc (c i : Nat) (f : SCore → SCore) (s : State) (c' : Nat) : sliceAt (modSc c i f s) c' = sliceAt s c' := rfl
@[simp] theorem sliceAt_modMySc (f : SCore → SCore) (s : State) (c' : Nat) : sliceAt (modMySc f s) c' = sliceAt s c' := rfl
@[simp] theorem sliceAt_modHub (m : Nat) (f : Hub → Hub) (s : State) (c' : Nat) : sliceAt (modHub m f s) c' = sliceAt s c' := rfl
@[simp] theorem sliceAt_bump (s : State) (c' : Nat) : sliceAt (bump s) c' = sliceAt s c' := rfl
@[simp] theorem sliceAt_sched (d : Nat) (i : Instr) (s : State) (c' : Nat) : sliceAt (sched d i s) c' = sliceAt s c' := rfl
@[simp] theorem sliceAt_schedFree (i : Instr) (s : State) (c' : Nat) : sliceAt (schedFree i s) c' = sliceAt s c' := rfl
@[simp] theorem sliceAt_pokeBytes (a : Nat) (b : List Byte) (s : State) (c' : Nat) : sliceAt (pokeBytes a b s) c' = sliceAt s c' := rfl
@[simp] theorem sliceAt_setPoison (g : Nat) (s : State) (c' : Nat) : sliceAt (setPoison g s) c' = sliceAt s c' := rfl
@[simp] theorem sliceAt_clearPoison (g : Nat) (s : State) (c' : Nat) : sliceAt (clearPoison g s) c' = sliceAt s c' := rfl
@[simp] theorem sliceAt_setEmpty (a : Nat) (s : State) (c' : Nat) : sliceAt (setEmpty a s) c' = sliceAt s c' := rfl
@[simp] theorem sliceAt_setFull (a : Nat) (s : State) (c' : Nat) : sliceAt (setFull a s) c' = sliceAt s c' := rfl
@[simp] theorem sliceAt_wr (r : Nat) (v : Word) (s : State) (c' : Nat) : sliceAt (wr r v s) c' = sliceAt s c' := rfl
@[simp] theorem sliceAt_park (p : Park) (s : State) (c' : Nat) : sliceAt (park p s) c' = sliceAt s c' := rfl
@[simp] theorem sliceAt_accrueTo (id : Nat) (g : FFlags) (s : State) (c' : Nat) : sliceAt (accrueTo id g s) c' = sliceAt s c' := rfl
@[simp] theorem sliceAt_accrue (g : FFlags) (s : State) (c' : Nat) : sliceAt (accrue g s) c' = sliceAt s c' := rfl
@[simp] theorem sliceAt_ctlPut (m o v : Nat) (s : State) (c' : Nat) : sliceAt (ctlPut m o v s) c' = sliceAt s c' := rfl

@[simp] theorem coreAt_modCore_same (c : Nat) (f : Core → Core) (s : State) : coreAt (modCore c f s) c = f (coreAt s c) := by
  simp [coreAt, modCore, tmod]

theorem coreAt_modCore_ne {c d : Nat} (f : Core → Core) (s : State) (h : d ≠ c) : coreAt (modCore c f s) d = coreAt s d := by
  simp [coreAt, modCore, tmod, tget_tput_ne _ _ h]

@[simp] theorem scAt_modSc_same (c : Nat) {i : Nat} (hi : i < 4) (f : SCore → SCore) (s : State) :
    scAt (modSc c i f s) c i = f (scAt s c i) := by
  simp [scAt, modSc, hi]

theorem scAt_modSc_ne (c : Nat) {i j : Nat} (h : j ≠ i) (f : SCore → SCore) (s : State) :
    scAt (modSc c i f s) c j = scAt s c j := by
  simp [scAt, modSc, vget_vset_ne _ h]

@[simp] theorem sliceAt_modSlice_same (c : Nat) (f : Slice → Slice) (s : State) :
    sliceAt (modSlice c f s) c = f (sliceAt s c) := by
  simp [sliceAt, modSlice, tmod]

@[simp] theorem hubAt_modHub_same (m : Nat) (f : Hub → Hub) (s : State) : hubAt (modHub m f s) m = f (hubAt s m) := by
  simp [hubAt, modHub, tmod]

theorem hubAt_modHub_ne {m n : Nat} (f : Hub → Hub) (s : State) (h : n ≠ m) : hubAt (modHub m f s) n = hubAt s n := by
  simp [hubAt, modHub, tmod, tget_tput_ne _ _ h]

/-! ### A strand's fields under register writes -/

@[simp] theorem setReg_kind (r : Nat) (v : Word) (x : Strand) : (setReg r v x).kind = x.kind := by unfold setReg; split <;> rfl
@[simp] theorem setReg_native (r : Nat) (v : Word) (x : Strand) : (setReg r v x).native = x.native := by unfold setReg; split <;> rfl
@[simp] theorem setReg_nslot (r : Nat) (v : Word) (x : Strand) : (setReg r v x).nslot = x.nslot := by unfold setReg; split <;> rfl
@[simp] theorem setReg_place (r : Nat) (v : Word) (x : Strand) : (setReg r v x).place = x.place := by unfold setReg; split <;> rfl
@[simp] theorem setReg_slot (r : Nat) (v : Word) (x : Strand) : (setReg r v x).slot = x.slot := by unfold setReg; split <;> rfl
@[simp] theorem setReg_away (r : Nat) (v : Word) (x : Strand) : (setReg r v x).away = x.away := by unfold setReg; split <;> rfl
@[simp] theorem setReg_run (r : Nat) (v : Word) (x : Strand) : (setReg r v x).run = x.run := by unfold setReg; split <;> rfl
@[simp] theorem setReg_pc (r : Nat) (v : Word) (x : Strand) : (setReg r v x).pc = x.pc := by unfold setReg; split <;> rfl
@[simp] theorem setReg_status (r : Nat) (v : Word) (x : Strand) : (setReg r v x).status = x.status := by unfold setReg; split <;> rfl
@[simp] theorem setReg_fcsr (r : Nat) (v : Word) (x : Strand) : (setReg r v x).fcsr = x.fcsr := by unfold setReg; split <;> rfl
@[simp] theorem setReg_cause (r : Nat) (v : Word) (x : Strand) : (setReg r v x).cause = x.cause := by unfold setReg; split <;> rfl
@[simp] theorem setReg_epc (r : Nat) (v : Word) (x : Strand) : (setReg r v x).epc = x.epc := by unfold setReg; split <;> rfl
@[simp] theorem setReg_tval (r : Nat) (v : Word) (x : Strand) : (setReg r v x).tval = x.tval := by unfold setReg; split <;> rfl
@[simp] theorem setReg_wtimeout (r : Nat) (v : Word) (x : Strand) : (setReg r v x).wtimeout = x.wtimeout := by unfold setReg; split <;> rfl
@[simp] theorem setReg_bidx (r : Nat) (v : Word) (x : Strand) : (setReg r v x).bidx = x.bidx := by unfold setReg; split <;> rfl
@[simp] theorem setReg_sidx (r : Nat) (v : Word) (x : Strand) : (setReg r v x).sidx = x.sidx := by unfold setReg; split <;> rfl
@[simp] theorem setReg_owner (r : Nat) (v : Word) (x : Strand) : (setReg r v x).owner = x.owner := by unfold setReg; split <;> rfl
@[simp] theorem setReg_grid (r : Nat) (v : Word) (x : Strand) : (setReg r v x).grid = x.grid := by unfold setReg; split <;> rfl
@[simp] theorem setReg_block (r : Nat) (v : Word) (x : Strand) : (setReg r v x).block = x.block := by unfold setReg; split <;> rfl
@[simp] theorem setReg_asn (r : Nat) (v : Word) (x : Strand) : (setReg r v x).asn = x.asn := by unfold setReg; split <;> rfl
@[simp] theorem setReg_root (r : Nat) (v : Word) (x : Strand) : (setReg r v x).root = x.root := by unfold setReg; split <;> rfl
@[simp] theorem setReg_lug (r : Nat) (v : Word) (x : Strand) : (setReg r v x).lug = x.lug := by unfold setReg; split <;> rfl
@[simp] theorem setReg_brought (r : Nat) (v : Word) (x : Strand) : (setReg r v x).brought = x.brought := by unfold setReg; split <;> rfl
@[simp] theorem setReg_link (r : Nat) (v : Word) (x : Strand) : (setReg r v x).link = x.link := by unfold setReg; split <;> rfl
@[simp] theorem setReg_carried (r : Nat) (v : Word) (x : Strand) : (setReg r v x).carried = x.carried := by unfold setReg; split <;> rfl
@[simp] theorem setReg_park (r : Nat) (v : Word) (x : Strand) : (setReg r v x).park = x.park := by unfold setReg; split <;> rfl
@[simp] theorem setReg_readyAt (r : Nat) (v : Word) (x : Strand) : (setReg r v x).readyAt = x.readyAt := by unfold setReg; split <;> rfl
@[simp] theorem setReg_lastIssue (r : Nat) (v : Word) (x : Strand) : (setReg r v x).lastIssue = x.lastIssue := by unfold setReg; split <;> rfl
@[simp] theorem setReg_flight (r : Nat) (v : Word) (x : Strand) : (setReg r v x).flight = x.flight := by unfold setReg; split <;> rfl
@[simp] theorem setReg_letInBy (r : Nat) (v : Word) (x : Strand) : (setReg r v x).letInBy = x.letInBy := by unfold setReg; split <;> rfl
@[simp] theorem setReg_promoted (r : Nat) (v : Word) (x : Strand) : (setReg r v x).promoted = x.promoted := by unfold setReg; split <;> rfl
@[simp] theorem setReg_arrived (r : Nat) (v : Word) (x : Strand) : (setReg r v x).arrived = x.arrived := by unfold setReg; split <;> rfl
@[simp] theorem setReg_late (r : Nat) (v : Word) (x : Strand) : (setReg r v x).late = x.late := by unfold setReg; split <;> rfl
@[simp] theorem setReg_posted (r : Nat) (v : Word) (x : Strand) : (setReg r v x).posted = x.posted := by unfold setReg; split <;> rfl
@[simp] theorem setReg_gives (r : Nat) (v : Word) (x : Strand) : (setReg r v x).gives = x.gives := by unfold setReg; split <;> rfl
@[simp] theorem setReg_eng (r : Nat) (v : Word) (x : Strand) : (setReg r v x).eng = x.eng := by unfold setReg; split <;> rfl
@[simp] theorem setReg_vents (r : Nat) (v : Word) (x : Strand) : (setReg r v x).vents = x.vents := by unfold setReg; split <;> rfl
@[simp] theorem setReg_vmems (r : Nat) (v : Word) (x : Strand) : (setReg r v x).vmems = x.vmems := by unfold setReg; split <;> rfl
@[simp] theorem setReg_meetOp (r : Nat) (v : Word) (x : Strand) : (setReg r v x).meetOp = x.meetOp := by unfold setReg; split <;> rfl
@[simp] theorem setReg_last (r : Nat) (v : Word) (x : Strand) : (setReg r v x).last = x.last := by unfold setReg; split <;> rfl
@[simp] theorem setReg_walkFault (r : Nat) (v : Word) (x : Strand) : (setReg r v x).walkFault = x.walkFault := by unfold setReg; split <;> rfl
@[simp] theorem setReg_partner (r : Nat) (v : Word) (x : Strand) : (setReg r v x).partner = x.partner := by unfold setReg; split <;> rfl
@[simp] theorem setReg_lvq (r : Nat) (v : Word) (x : Strand) : (setReg r v x).lvq = x.lvq := by unfold setReg; split <;> rfl
@[simp] theorem setReg_cmp (r : Nat) (v : Word) (x : Strand) : (setReg r v x).cmp = x.cmp := by unfold setReg; split <;> rfl
@[simp] theorem setReg_inHandler (r : Nat) (v : Word) (x : Strand) : (setReg r v x).inHandler = x.inHandler := by unfold setReg; split <;> rfl
@[simp] theorem setReg_released (r : Nat) (v : Word) (x : Strand) : (setReg r v x).released = x.released := by unfold setReg; split <;> rfl
@[simp] theorem setRst_kind (r : Nat) (g : RegState) (x : Strand) : (setRst r g x).kind = x.kind := by unfold setRst; split <;> rfl
@[simp] theorem setRst_native (r : Nat) (g : RegState) (x : Strand) : (setRst r g x).native = x.native := by unfold setRst; split <;> rfl
@[simp] theorem setRst_nslot (r : Nat) (g : RegState) (x : Strand) : (setRst r g x).nslot = x.nslot := by unfold setRst; split <;> rfl
@[simp] theorem setRst_place (r : Nat) (g : RegState) (x : Strand) : (setRst r g x).place = x.place := by unfold setRst; split <;> rfl
@[simp] theorem setRst_slot (r : Nat) (g : RegState) (x : Strand) : (setRst r g x).slot = x.slot := by unfold setRst; split <;> rfl
@[simp] theorem setRst_away (r : Nat) (g : RegState) (x : Strand) : (setRst r g x).away = x.away := by unfold setRst; split <;> rfl
@[simp] theorem setRst_run (r : Nat) (g : RegState) (x : Strand) : (setRst r g x).run = x.run := by unfold setRst; split <;> rfl
@[simp] theorem setRst_regs (r : Nat) (g : RegState) (x : Strand) : (setRst r g x).regs = x.regs := by unfold setRst; split <;> rfl
@[simp] theorem setRst_pc (r : Nat) (g : RegState) (x : Strand) : (setRst r g x).pc = x.pc := by unfold setRst; split <;> rfl
@[simp] theorem setRst_status (r : Nat) (g : RegState) (x : Strand) : (setRst r g x).status = x.status := by unfold setRst; split <;> rfl
@[simp] theorem setRst_fcsr (r : Nat) (g : RegState) (x : Strand) : (setRst r g x).fcsr = x.fcsr := by unfold setRst; split <;> rfl
@[simp] theorem setRst_cause (r : Nat) (g : RegState) (x : Strand) : (setRst r g x).cause = x.cause := by unfold setRst; split <;> rfl
@[simp] theorem setRst_epc (r : Nat) (g : RegState) (x : Strand) : (setRst r g x).epc = x.epc := by unfold setRst; split <;> rfl
@[simp] theorem setRst_tval (r : Nat) (g : RegState) (x : Strand) : (setRst r g x).tval = x.tval := by unfold setRst; split <;> rfl
@[simp] theorem setRst_wtimeout (r : Nat) (g : RegState) (x : Strand) : (setRst r g x).wtimeout = x.wtimeout := by unfold setRst; split <;> rfl
@[simp] theorem setRst_bidx (r : Nat) (g : RegState) (x : Strand) : (setRst r g x).bidx = x.bidx := by unfold setRst; split <;> rfl
@[simp] theorem setRst_sidx (r : Nat) (g : RegState) (x : Strand) : (setRst r g x).sidx = x.sidx := by unfold setRst; split <;> rfl
@[simp] theorem setRst_owner (r : Nat) (g : RegState) (x : Strand) : (setRst r g x).owner = x.owner := by unfold setRst; split <;> rfl
@[simp] theorem setRst_grid (r : Nat) (g : RegState) (x : Strand) : (setRst r g x).grid = x.grid := by unfold setRst; split <;> rfl
@[simp] theorem setRst_block (r : Nat) (g : RegState) (x : Strand) : (setRst r g x).block = x.block := by unfold setRst; split <;> rfl
@[simp] theorem setRst_asn (r : Nat) (g : RegState) (x : Strand) : (setRst r g x).asn = x.asn := by unfold setRst; split <;> rfl
@[simp] theorem setRst_root (r : Nat) (g : RegState) (x : Strand) : (setRst r g x).root = x.root := by unfold setRst; split <;> rfl
@[simp] theorem setRst_lug (r : Nat) (g : RegState) (x : Strand) : (setRst r g x).lug = x.lug := by unfold setRst; split <;> rfl
@[simp] theorem setRst_brought (r : Nat) (g : RegState) (x : Strand) : (setRst r g x).brought = x.brought := by unfold setRst; split <;> rfl
@[simp] theorem setRst_link (r : Nat) (g : RegState) (x : Strand) : (setRst r g x).link = x.link := by unfold setRst; split <;> rfl
@[simp] theorem setRst_carried (r : Nat) (g : RegState) (x : Strand) : (setRst r g x).carried = x.carried := by unfold setRst; split <;> rfl
@[simp] theorem setRst_park (r : Nat) (g : RegState) (x : Strand) : (setRst r g x).park = x.park := by unfold setRst; split <;> rfl
@[simp] theorem setRst_readyAt (r : Nat) (g : RegState) (x : Strand) : (setRst r g x).readyAt = x.readyAt := by unfold setRst; split <;> rfl
@[simp] theorem setRst_lastIssue (r : Nat) (g : RegState) (x : Strand) : (setRst r g x).lastIssue = x.lastIssue := by unfold setRst; split <;> rfl
@[simp] theorem setRst_flight (r : Nat) (g : RegState) (x : Strand) : (setRst r g x).flight = x.flight := by unfold setRst; split <;> rfl
@[simp] theorem setRst_letInBy (r : Nat) (g : RegState) (x : Strand) : (setRst r g x).letInBy = x.letInBy := by unfold setRst; split <;> rfl
@[simp] theorem setRst_promoted (r : Nat) (g : RegState) (x : Strand) : (setRst r g x).promoted = x.promoted := by unfold setRst; split <;> rfl
@[simp] theorem setRst_arrived (r : Nat) (g : RegState) (x : Strand) : (setRst r g x).arrived = x.arrived := by unfold setRst; split <;> rfl
@[simp] theorem setRst_late (r : Nat) (g : RegState) (x : Strand) : (setRst r g x).late = x.late := by unfold setRst; split <;> rfl
@[simp] theorem setRst_posted (r : Nat) (g : RegState) (x : Strand) : (setRst r g x).posted = x.posted := by unfold setRst; split <;> rfl
@[simp] theorem setRst_gives (r : Nat) (g : RegState) (x : Strand) : (setRst r g x).gives = x.gives := by unfold setRst; split <;> rfl
@[simp] theorem setRst_eng (r : Nat) (g : RegState) (x : Strand) : (setRst r g x).eng = x.eng := by unfold setRst; split <;> rfl
@[simp] theorem setRst_vents (r : Nat) (g : RegState) (x : Strand) : (setRst r g x).vents = x.vents := by unfold setRst; split <;> rfl
@[simp] theorem setRst_vmems (r : Nat) (g : RegState) (x : Strand) : (setRst r g x).vmems = x.vmems := by unfold setRst; split <;> rfl
@[simp] theorem setRst_meetOp (r : Nat) (g : RegState) (x : Strand) : (setRst r g x).meetOp = x.meetOp := by unfold setRst; split <;> rfl
@[simp] theorem setRst_last (r : Nat) (g : RegState) (x : Strand) : (setRst r g x).last = x.last := by unfold setRst; split <;> rfl
@[simp] theorem setRst_walkFault (r : Nat) (g : RegState) (x : Strand) : (setRst r g x).walkFault = x.walkFault := by unfold setRst; split <;> rfl
@[simp] theorem setRst_partner (r : Nat) (g : RegState) (x : Strand) : (setRst r g x).partner = x.partner := by unfold setRst; split <;> rfl
@[simp] theorem setRst_lvq (r : Nat) (g : RegState) (x : Strand) : (setRst r g x).lvq = x.lvq := by unfold setRst; split <;> rfl
@[simp] theorem setRst_cmp (r : Nat) (g : RegState) (x : Strand) : (setRst r g x).cmp = x.cmp := by unfold setRst; split <;> rfl
@[simp] theorem setRst_inHandler (r : Nat) (g : RegState) (x : Strand) : (setRst r g x).inHandler = x.inHandler := by unfold setRst; split <;> rfl
@[simp] theorem setRst_released (r : Nat) (g : RegState) (x : Strand) : (setRst r g x).released = x.released := by unfold setRst; split <;> rfl

@[simp] theorem regVal_zero (x : Strand) : regVal x 0 = 0 := rfl
@[simp] theorem regSt_zero (x : Strand) : regSt x 0 = .full := rfl
@[simp] theorem setReg_zero (v : Word) (x : Strand) : setReg 0 v x = x := rfl
@[simp] theorem setRst_zero (g : RegState) (x : Strand) : setRst 0 g x = x := rfl

theorem regVal_setReg_same {r : Nat} (h0 : r ≠ 0) (h : r < 16) (v : Word) (x : Strand) : regVal (setReg r v x) r = v := by
  simp [regVal, setReg, h0, h]

theorem regVal_setReg_ne {r j : Nat} (h : j ≠ r) (v : Word) (x : Strand) : regVal (setReg r v x) j = regVal x j := by
  unfold regVal setReg
  split
  · rfl
  · split
    · rfl
    · exact vget_vset_ne _ h _ _

theorem regSt_setReg_same {r : Nat} (h : r < 16) (v : Word) (x : Strand) : regSt (setReg r v x) r = .full := by
  unfold regSt setReg
  split
  · rfl
  · simp [h]

theorem regSt_setReg_ne {r j : Nat} (h : j ≠ r) (v : Word) (x : Strand) : regSt (setReg r v x) j = regSt x j := by
  unfold regSt setReg
  split
  · rfl
  · split
    · rfl
    · exact vget_vset_ne _ h _ _

theorem regSt_setRst_same {r : Nat} (h0 : r ≠ 0) (h : r < 16) (g : RegState) (x : Strand) : regSt (setRst r g x) r = g := by
  simp [regSt, setRst, h0, h]

theorem regSt_setRst_ne {r j : Nat} (h : j ≠ r) (g : RegState) (x : Strand) : regSt (setRst r g x) j = regSt x j := by
  unfold regSt setRst
  split
  · rfl
  · split
    · rfl
    · exact vget_vset_ne _ h _ _

@[simp] theorem regVal_setRst (r j : Nat) (g : RegState) (x : Strand) : regVal (setRst r g x) j = regVal x j := by
  unfold regVal setRst
  split
  · rfl
  · split <;> rfl

@[simp] theorem me_wr (r : Nat) (v : Word) (s : State) : (wr r v s).me = setReg r v s.me := by simp [wr]
@[simp] theorem me_park (p : Park) (s : State) : (park p s).me = { s.me with park := some p, readyAt := s.now + 1 } := by
  simp [park]
@[simp] theorem me_accrue (g : FFlags) (s : State) : (accrue g s).me = { s.me with fcsr := s.me.fcsr ||| g.setWidth 8 } := by
  simp [accrue, accrueTo, State.me]

end Sys2Proof.Machine
end

