-- ==== Sys2Proof/Laws/Memory.lean ====
section
/-! SUPPORT. The laws of memory: a read after a write, and that every write keeps the canonical form. -/

namespace Sys2Proof.Machine

open Sys2Proof

theorem memFrom_mono {lo hi : Nat} (h : lo ≤ hi) : ∀ {m : List Host.Cell}, memFrom hi m = true → memFrom lo m = true
  | [], _ => rfl
  | (j, b) :: t, hm => by
    simp only [memFrom, Bool.and_eq_true, decide_eq_true_eq] at hm ⊢
    exact ⟨⟨le_trans h hm.1.1, hm.1.2⟩, hm.2⟩

/-- Below the first listed address memory reads zero. -/
theorem memGet_below {lo a : Nat} (h : a < lo) : ∀ {m : List Host.Cell}, memFrom lo m = true → memGet m a = 0
  | [], _ => rfl
  | (j, b) :: t, hm => by
    simp only [memFrom, Bool.and_eq_true, decide_eq_true_eq] at hm
    have hj : a < j := lt_of_lt_of_le h hm.1.1
    simp [memGet, hj, Nat.ne_of_gt hj]

theorem memFrom_memPut {lo a : Nat} (b : Byte) (h : lo ≤ a) :
    ∀ {m : List Host.Cell}, memFrom lo m = true → memFrom lo (memPut m a b) = true
  | [], _ => by unfold memPut; split <;> simp_all [memFrom]
  | (j, c) :: t, hm => by
    have hm' := hm
    simp only [memFrom, Bool.and_eq_true, decide_eq_true_eq] at hm'
    obtain ⟨⟨h1, h2⟩, h3⟩ := hm'
    unfold memPut
    split
    · split
      · exact hm
      · simp only [memFrom, Bool.and_eq_true, decide_eq_true_eq]
        exact ⟨⟨h, ‹_›⟩, ⟨by omega, h2⟩, h3⟩
    · split
      · split
        · exact memFrom_mono (by omega) h3
        · subst_vars
          simp only [memFrom, Bool.and_eq_true, decide_eq_true_eq]
          exact ⟨⟨h, ‹_›⟩, h3⟩
      · simp only [memFrom, Bool.and_eq_true, decide_eq_true_eq]
        exact ⟨⟨h1, h2⟩, memFrom_memPut b (by omega) h3⟩

/-- Writing a byte keeps the canonical form. -/
theorem wf_memPut {m : List Host.Cell} (a : Nat) (b : Byte) (h : Memory.wf m = true) : Memory.wf (memPut m a b) = true :=
  memFrom_memPut b (Nat.zero_le a) h

/-- Writing bytes keeps the canonical form. -/
theorem wf_memWrite {m : List Host.Cell} (a : Nat) (bs : List Byte) (h : Memory.wf m = true) :
    Memory.wf (memWrite m a bs) = true := by
  induction bs generalizing m a with
  | nil => exact h
  | cons b t ih => exact ih (a + 1) (wf_memPut a b h)

theorem memFrom_filter (p : Host.Cell → Bool) : ∀ {lo : Nat} {m : List Host.Cell}, memFrom lo m = true → memFrom lo (m.filter p) = true
  | _, [], _ => rfl
  | lo, (j, b) :: t, hm => by
    simp only [memFrom, Bool.and_eq_true, decide_eq_true_eq] at hm
    rw [List.filter_cons]
    split
    · simp only [memFrom, Bool.and_eq_true, decide_eq_true_eq]
      exact ⟨hm.1, memFrom_filter p hm.2⟩
    · exact memFrom_mono (by omega) (memFrom_filter p hm.2)

/-- Dropping bytes keeps the canonical form. -/
theorem wf_filter {m : List Host.Cell} (p : Host.Cell → Bool) (h : Memory.wf m = true) : Memory.wf (m.filter p) = true :=
  memFrom_filter p h

theorem memGet_memPut_from {lo : Nat} (a j : Nat) (b : Byte) :
    ∀ {m : List Host.Cell}, memFrom lo m = true → memGet (memPut m a b) j = if j = a then b else memGet m j
  | [], _ => by
    unfold memPut
    split <;> split <;> simp_all [memGet] <;> omega
  | (i, c) :: t, hm => by
    simp only [memFrom, Bool.and_eq_true, decide_eq_true_eq] at hm
    obtain ⟨-, h3⟩ := hm
    unfold memPut
    split
    · rename_i hai
      split
      · rename_i hb
        split
        · rename_i hja
          subst hja hb
          simp [memGet, hai, Nat.ne_of_gt hai]
        · rfl
      · by_cases hja : j = a
        · simp [memGet, hja]
        · simp only [hja, if_false]
          by_cases hlt : j < a
          · have h1 : j < i := by omega
            simp [memGet, Ne.symm hja, hlt, h1, Nat.ne_of_gt h1]
          · simp [memGet, Ne.symm hja, hlt]
    · split
      · rename_i hne hai
        subst hai
        split
        · rename_i hb
          by_cases hja : j = a
          · subst hja hb
            simpa using memGet_below (Nat.lt_succ_self j) h3
          · by_cases hlt : j < a
            · rw [memGet_below (lo := a + 1) (by omega) h3]
              simp [memGet, Ne.symm hja, hja, hlt]
            · simp [memGet, Ne.symm hja, hja, hlt]
        · by_cases hja : j = a
          · simp [memGet, hja]
          · simp [memGet, Ne.symm hja, hja]
      · rename_i hne hai
        by_cases hji : j = i
        · have : j ≠ a := by omega
          simp [memGet, hji, this]
          intro h; omega
        · by_cases hlt : j < i
          · have : j ≠ a := by omega
            simp [memGet, Ne.symm hji, hlt, this]
          · simp only [memGet, Ne.symm hji, if_false, hlt]
            exact memGet_memPut_from a j b h3

/-- A read after the write of one byte. -/
theorem memGet_memPut {m : List Host.Cell} (h : Memory.wf m = true) (a j : Nat) (b : Byte) :
    memGet (memPut m a b) j = if j = a then b else memGet m j := memGet_memPut_from a j b h

/-- A read after the write of a row of bytes. -/
theorem memGet_memWrite {m : List Host.Cell} (h : Memory.wf m = true) (a j : Nat) (bs : List Byte) :
    memGet (memWrite m a bs) j = if a ≤ j then (bs[j - a]?).getD (memGet m j) else memGet m j := by
  induction bs generalizing m a with
  | nil => simp [memWrite]
  | cons b t ih =>
    rw [memWrite, ih (wf_memPut a b h), memGet_memPut h]
    by_cases hja : j = a
    · subst hja
      simp
    · by_cases hlt : a ≤ j
      · have h1 : a + 1 ≤ j := by omega
        obtain ⟨n, hn⟩ : ∃ n, j - a = n + 1 := ⟨j - a - 1, by omega⟩
        have h2 : j - (a + 1) = n := by omega
        simp [hja, hlt, h1, hn, h2]
      · have h1 : ¬ a + 1 ≤ j := by omega
        simp [hja, hlt, h1]

/-- Outside the bytes written memory reads as before. -/
theorem memGet_memWrite_outside {m : List Host.Cell} (h : Memory.wf m = true) {a j : Nat} {bs : List Byte}
    (hj : j < a ∨ a + bs.length ≤ j) : memGet (memWrite m a bs) j = memGet m j := by
  rw [memGet_memWrite h]
  split
  · rw [List.getElem?_eq_none (by omega)]
    rfl
  · rfl

/-- Inside the bytes written memory reads what was written. -/
theorem memGet_memWrite_inside {m : List Host.Cell} (h : Memory.wf m = true) {a i : Nat} {bs : List Byte}
    (hi : i < bs.length) : memGet (memWrite m a bs) (a + i) = bs[i] := by
  rw [memGet_memWrite h]
  simp [hi]

@[simp] theorem leBytes_length (n v : Nat) : (leBytes n v).length = n := by
  induction n generalizing v with
  | zero => rfl
  | succ n ih => simp [leBytes, ih]

theorem leBytes_get (n v i : Nat) (h : i < (leBytes n v).length) : (leBytes n v)[i] = BitVec.ofNat 8 (v / 256 ^ i) := by
  induction n generalizing v i with
  | zero => simp at h
  | succ n ih =>
    cases i with
    | zero => simp [leBytes]
    | succ i =>
      simp only [leBytes, List.getElem_cons_succ]
      rw [ih]
      congr 1
      rw [Nat.div_div_eq_div_mul, pow_succ, mul_comm]

/-- The memory after reset is in canonical form. -/
theorem reset_wf : Memory.wf State.reset.mem = true := rfl

end Sys2Proof.Machine
end

