-- ==== Sys2Proof/Laws/Access.lean ====
section
/-! SUPPORT. What the shared operations of an instruction do: the checks at decode, retirement, a translation's use, an
access at its home, a write to SRAM. -/

namespace Sys2Proof.Machine

open Sys2Proof Sys2Proof.Claims

/-! ### Decode (R51) -/

/-- Past the checks of its operands an instruction is what its meaning says. -/
theorem decodeOk_of {p l srcs dsts} {f : State → State} {s : State} (h : Decodes p srcs dsts l s) :
    decodeOk p (srcs.map BitVec.toNat) (dsts.map BitVec.toNat) l f s = f s := by
  simp [decodeOk, decodeNow, h.1, h.2.1, h.2.2]

/-- A source that passes decode is full. -/
theorem full_of_decodes {p l srcs dsts} {s : State} (h : Decodes p srcs dsts l s) {r : BitVec 5} (hr : r ∈ srcs)
    (h16 : r.toNat < 16) : regSt s.me r.toNat = .full := by
  have := h.2.1
  unfold decodePark at this
  simp only at this
  split at this
  · simp at this
  · rename_i hne
    simp at hne
    have := hne r hr h16
    simpa [isFull] using this

/-- Where ports are not allowed, every source that passes decode is an s register. -/
theorem source_of_decodes {l srcs dsts} {s : State} (h : Decodes false srcs dsts l s) {r : BitVec 5} (hr : r ∈ srcs) :
    r.toNat < 16 := by
  have := h.1
  unfold misuse at this
  split at this
  · simp at this
  · rename_i hn
    simp at hn
    exact hn r hr

/-- Where ports are not allowed, every destination that passes decode is an s register. -/
theorem dest_of_decodes {l srcs dsts} {s : State} (h : Decodes false srcs dsts l s) {r : BitVec 5} (hr : r ∈ dsts) :
    r.toNat < 16 := by
  have := h.1
  unfold misuse at this
  split at this
  · simp at this
  · simp at this
    exact this r hr

/-- Two strands with the same registers, states, late results, place and block pass the same checks of s registers. -/
theorem rdOp_low {a : BitVec 5} (h : a.toNat < 16) (s : State) : rdOp a s = (regVal s.me a.toNat, s) := by
  simp [rdOp, h]

theorem wrOp_low {d : BitVec 5} (h : d.toNat < 16) (v : Word) (s : State) : wrOp d v s = wr d.toNat v s := by
  simp [wrOp, h]

/-! ### Retirement (R28, R31) -/

theorem me_retireAt (pc : Word) (k : BitVec 1) (s : State) :
    (retireAt pc k s).me = { s.me with pc := pc, readyAt := s.now + interval s.me, carried := none, released := false, park := (retireAt pc k s).me.park } := by
  unfold retireAt
  simp only
  split <;> simp

@[simp] theorem me_retireAt_pc (pc : Word) (k : BitVec 1) (s : State) : (retireAt pc k s).me.pc = pc := by rw [me_retireAt]
@[simp] theorem me_retire_pc (k : BitVec 1) (s : State) : (retire k s).me.pc = s.me.pc + 4 := by simp [retire]

theorem strands_retireAt_ne (pc : Word) (k : BitVec 1) (s : State) {j : Nat} (h : j ≠ s.cur) :
    tget (retireAt pc k s).strands j = tget s.strands j := by
  unfold retireAt
  simp only
  split <;> simp [modMe, modStrand, tmod, tget_tput_ne _ _ h]

@[simp] theorem retireAt_now (pc : Word) (k : BitVec 1) (s : State) : (retireAt pc k s).now = s.now := by unfold retireAt; simp only; split <;> rfl
@[simp] theorem retireAt_cur (pc : Word) (k : BitVec 1) (s : State) : (retireAt pc k s).cur = s.cur := by unfold retireAt; simp only; split <;> rfl
@[simp] theorem retireAt_dec (pc : Word) (k : BitVec 1) (s : State) : (retireAt pc k s).dec = s.dec := by unfold retireAt; simp only; split <;> rfl
@[simp] theorem retireAt_lag (pc : Word) (k : BitVec 1) (s : State) : (retireAt pc k s).lag = s.lag := by unfold retireAt; simp only; split <;> rfl
@[simp] theorem retireAt_agenda (pc : Word) (k : BitVec 1) (s : State) : (retireAt pc k s).agenda = s.agenda := by unfold retireAt; simp only; split <;> rfl
@[simp] theorem retireAt_fresh (pc : Word) (k : BitVec 1) (s : State) : (retireAt pc k s).fresh = s.fresh := by unfold retireAt; simp only; split <;> rfl
@[simp] theorem retireAt_oracle (pc : Word) (k : BitVec 1) (s : State) : (retireAt pc k s).oracle = s.oracle := by unfold retireAt; simp only; split <;> rfl
@[simp] theorem retireAt_mem (pc : Word) (k : BitVec 1) (s : State) : (retireAt pc k s).mem = s.mem := by unfold retireAt; simp only; split <;> rfl
@[simp] theorem retireAt_poison (pc : Word) (k : BitVec 1) (s : State) : (retireAt pc k s).poison = s.poison := by unfold retireAt; simp only; split <;> rfl
@[simp] theorem retireAt_empties (pc : Word) (k : BitVec 1) (s : State) : (retireAt pc k s).empties = s.empties := by unfold retireAt; simp only; split <;> rfl
@[simp] theorem retireAt_absents (pc : Word) (k : BitVec 1) (s : State) : (retireAt pc k s).absents = s.absents := by unfold retireAt; simp only; split <;> rfl
@[simp] theorem retireAt_rows (pc : Word) (k : BitVec 1) (s : State) : (retireAt pc k s).rows = s.rows := by unfold retireAt; simp only; split <;> rfl
@[simp] theorem retireAt_cables (pc : Word) (k : BitVec 1) (s : State) : (retireAt pc k s).cables = s.cables := by unfold retireAt; simp only; split <;> rfl
@[simp] theorem retireAt_store (pc : Word) (k : BitVec 1) (s : State) : (retireAt pc k s).store = s.store := by unfold retireAt; simp only; split <;> rfl
@[simp] theorem retireAt_cores (pc : Word) (k : BitVec 1) (s : State) : (retireAt pc k s).cores = s.cores := by unfold retireAt; simp only; split <;> rfl
@[simp] theorem retireAt_slices (pc : Word) (k : BitVec 1) (s : State) : (retireAt pc k s).slices = s.slices := by unfold retireAt; simp only; split <;> rfl
@[simp] theorem retireAt_hubs (pc : Word) (k : BitVec 1) (s : State) : (retireAt pc k s).hubs = s.hubs := by unfold retireAt; simp only; split <;> rfl
@[simp] theorem retireAt_stores (pc : Word) (k : BitVec 1) (s : State) : (retireAt pc k s).stores = s.stores := by unfold retireAt; simp only; split <;> rfl
@[simp] theorem retireAt_packets (pc : Word) (k : BitVec 1) (s : State) : (retireAt pc k s).packets = s.packets := by unfold retireAt; simp only; split <;> rfl
@[simp] theorem retireAt_frames (pc : Word) (k : BitVec 1) (s : State) : (retireAt pc k s).frames = s.frames := by unfold retireAt; simp only; split <;> rfl
@[simp] theorem retireAt_thieves (pc : Word) (k : BitVec 1) (s : State) : (retireAt pc k s).thieves = s.thieves := by unfold retireAt; simp only; split <;> rfl
@[simp] theorem retireAt_ops (pc : Word) (k : BitVec 1) (s : State) : (retireAt pc k s).ops = s.ops := by unfold retireAt; simp only; split <;> rfl
@[simp] theorem retireAt_pieces (pc : Word) (k : BitVec 1) (s : State) : (retireAt pc k s).pieces = s.pieces := by unfold retireAt; simp only; split <;> rfl
@[simp] theorem retireAt_rmsgs (pc : Word) (k : BitVec 1) (s : State) : (retireAt pc k s).rmsgs = s.rmsgs := by unfold retireAt; simp only; split <;> rfl
@[simp] theorem retireAt_grids (pc : Word) (k : BitVec 1) (s : State) : (retireAt pc k s).grids = s.grids := by unfold retireAt; simp only; split <;> rfl
@[simp] theorem retireAt_blocks (pc : Word) (k : BitVec 1) (s : State) : (retireAt pc k s).blocks = s.blocks := by unfold retireAt; simp only; split <;> rfl
@[simp] theorem retireAt_episodes (pc : Word) (k : BitVec 1) (s : State) : (retireAt pc k s).episodes = s.episodes := by unfold retireAt; simp only; split <;> rfl
@[simp] theorem retireAt_tlbis (pc : Word) (k : BitVec 1) (s : State) : (retireAt pc k s).tlbis = s.tlbis := by unfold retireAt; simp only; split <;> rfl
@[simp] theorem retireAt_images (pc : Word) (k : BitVec 1) (s : State) : (retireAt pc k s).images = s.images := by unfold retireAt; simp only; split <;> rfl
@[simp] theorem retireAt_arrivals (pc : Word) (k : BitVec 1) (s : State) : (retireAt pc k s).arrivals = s.arrivals := by unfold retireAt; simp only; split <;> rfl
@[simp] theorem retireAt_hostOut (pc : Word) (k : BitVec 1) (s : State) : (retireAt pc k s).hostOut = s.hostOut := by unfold retireAt; simp only; split <;> rfl
@[simp] theorem retire_now (k : BitVec 1) (s : State) : (retire k s).now = s.now := by simp [retire]
@[simp] theorem retire_cur (k : BitVec 1) (s : State) : (retire k s).cur = s.cur := by simp [retire]
@[simp] theorem retire_dec (k : BitVec 1) (s : State) : (retire k s).dec = s.dec := by simp [retire]
@[simp] theorem retire_lag (k : BitVec 1) (s : State) : (retire k s).lag = s.lag := by simp [retire]
@[simp] theorem retire_agenda (k : BitVec 1) (s : State) : (retire k s).agenda = s.agenda := by simp [retire]
@[simp] theorem retire_fresh (k : BitVec 1) (s : State) : (retire k s).fresh = s.fresh := by simp [retire]
@[simp] theorem retire_oracle (k : BitVec 1) (s : State) : (retire k s).oracle = s.oracle := by simp [retire]
@[simp] theorem retire_mem (k : BitVec 1) (s : State) : (retire k s).mem = s.mem := by simp [retire]
@[simp] theorem retire_poison (k : BitVec 1) (s : State) : (retire k s).poison = s.poison := by simp [retire]
@[simp] theorem retire_empties (k : BitVec 1) (s : State) : (retire k s).empties = s.empties := by simp [retire]
@[simp] theorem retire_absents (k : BitVec 1) (s : State) : (retire k s).absents = s.absents := by simp [retire]
@[simp] theorem retire_rows (k : BitVec 1) (s : State) : (retire k s).rows = s.rows := by simp [retire]
@[simp] theorem retire_cables (k : BitVec 1) (s : State) : (retire k s).cables = s.cables := by simp [retire]
@[simp] theorem retire_store (k : BitVec 1) (s : State) : (retire k s).store = s.store := by simp [retire]
@[simp] theorem retire_cores (k : BitVec 1) (s : State) : (retire k s).cores = s.cores := by simp [retire]
@[simp] theorem retire_slices (k : BitVec 1) (s : State) : (retire k s).slices = s.slices := by simp [retire]
@[simp] theorem retire_hubs (k : BitVec 1) (s : State) : (retire k s).hubs = s.hubs := by simp [retire]
@[simp] theorem retire_stores (k : BitVec 1) (s : State) : (retire k s).stores = s.stores := by simp [retire]
@[simp] theorem retire_packets (k : BitVec 1) (s : State) : (retire k s).packets = s.packets := by simp [retire]
@[simp] theorem retire_frames (k : BitVec 1) (s : State) : (retire k s).frames = s.frames := by simp [retire]
@[simp] theorem retire_thieves (k : BitVec 1) (s : State) : (retire k s).thieves = s.thieves := by simp [retire]
@[simp] theorem retire_ops (k : BitVec 1) (s : State) : (retire k s).ops = s.ops := by simp [retire]
@[simp] theorem retire_pieces (k : BitVec 1) (s : State) : (retire k s).pieces = s.pieces := by simp [retire]
@[simp] theorem retire_rmsgs (k : BitVec 1) (s : State) : (retire k s).rmsgs = s.rmsgs := by simp [retire]
@[simp] theorem retire_grids (k : BitVec 1) (s : State) : (retire k s).grids = s.grids := by simp [retire]
@[simp] theorem retire_blocks (k : BitVec 1) (s : State) : (retire k s).blocks = s.blocks := by simp [retire]
@[simp] theorem retire_episodes (k : BitVec 1) (s : State) : (retire k s).episodes = s.episodes := by simp [retire]
@[simp] theorem retire_tlbis (k : BitVec 1) (s : State) : (retire k s).tlbis = s.tlbis := by simp [retire]
@[simp] theorem retire_images (k : BitVec 1) (s : State) : (retire k s).images = s.images := by simp [retire]
@[simp] theorem retire_arrivals (k : BitVec 1) (s : State) : (retire k s).arrivals = s.arrivals := by simp [retire]
@[simp] theorem retire_hostOut (k : BitVec 1) (s : State) : (retire k s).hostOut = s.hostOut := by simp [retire]
@[simp] theorem me_retire_kind (k : BitVec 1) (s : State) : (retire k s).me.kind = s.me.kind := by rw [retire, me_retireAt]
@[simp] theorem me_retireAt_kind (pc : Word) (k : BitVec 1) (s : State) : (retireAt pc k s).me.kind = s.me.kind := by rw [me_retireAt]
@[simp] theorem me_retire_native (k : BitVec 1) (s : State) : (retire k s).me.native = s.me.native := by rw [retire, me_retireAt]
@[simp] theorem me_retireAt_native (pc : Word) (k : BitVec 1) (s : State) : (retireAt pc k s).me.native = s.me.native := by rw [me_retireAt]
@[simp] theorem me_retire_nslot (k : BitVec 1) (s : State) : (retire k s).me.nslot = s.me.nslot := by rw [retire, me_retireAt]
@[simp] theorem me_retireAt_nslot (pc : Word) (k : BitVec 1) (s : State) : (retireAt pc k s).me.nslot = s.me.nslot := by rw [me_retireAt]
@[simp] theorem me_retire_place (k : BitVec 1) (s : State) : (retire k s).me.place = s.me.place := by rw [retire, me_retireAt]
@[simp] theorem me_retireAt_place (pc : Word) (k : BitVec 1) (s : State) : (retireAt pc k s).me.place = s.me.place := by rw [me_retireAt]
@[simp] theorem me_retire_slot (k : BitVec 1) (s : State) : (retire k s).me.slot = s.me.slot := by rw [retire, me_retireAt]
@[simp] theorem me_retireAt_slot (pc : Word) (k : BitVec 1) (s : State) : (retireAt pc k s).me.slot = s.me.slot := by rw [me_retireAt]
@[simp] theorem me_retire_away (k : BitVec 1) (s : State) : (retire k s).me.away = s.me.away := by rw [retire, me_retireAt]
@[simp] theorem me_retireAt_away (pc : Word) (k : BitVec 1) (s : State) : (retireAt pc k s).me.away = s.me.away := by rw [me_retireAt]
@[simp] theorem me_retire_run (k : BitVec 1) (s : State) : (retire k s).me.run = s.me.run := by rw [retire, me_retireAt]
@[simp] theorem me_retireAt_run (pc : Word) (k : BitVec 1) (s : State) : (retireAt pc k s).me.run = s.me.run := by rw [me_retireAt]
@[simp] theorem me_retire_regs (k : BitVec 1) (s : State) : (retire k s).me.regs = s.me.regs := by rw [retire, me_retireAt]
@[simp] theorem me_retireAt_regs (pc : Word) (k : BitVec 1) (s : State) : (retireAt pc k s).me.regs = s.me.regs := by rw [me_retireAt]
@[simp] theorem me_retire_rst (k : BitVec 1) (s : State) : (retire k s).me.rst = s.me.rst := by rw [retire, me_retireAt]
@[simp] theorem me_retireAt_rst (pc : Word) (k : BitVec 1) (s : State) : (retireAt pc k s).me.rst = s.me.rst := by rw [me_retireAt]
@[simp] theorem me_retire_status (k : BitVec 1) (s : State) : (retire k s).me.status = s.me.status := by rw [retire, me_retireAt]
@[simp] theorem me_retireAt_status (pc : Word) (k : BitVec 1) (s : State) : (retireAt pc k s).me.status = s.me.status := by rw [me_retireAt]
@[simp] theorem me_retire_fcsr (k : BitVec 1) (s : State) : (retire k s).me.fcsr = s.me.fcsr := by rw [retire, me_retireAt]
@[simp] theorem me_retireAt_fcsr (pc : Word) (k : BitVec 1) (s : State) : (retireAt pc k s).me.fcsr = s.me.fcsr := by rw [me_retireAt]
@[simp] theorem me_retire_cause (k : BitVec 1) (s : State) : (retire k s).me.cause = s.me.cause := by rw [retire, me_retireAt]
@[simp] theorem me_retireAt_cause (pc : Word) (k : BitVec 1) (s : State) : (retireAt pc k s).me.cause = s.me.cause := by rw [me_retireAt]
@[simp] theorem me_retire_epc (k : BitVec 1) (s : State) : (retire k s).me.epc = s.me.epc := by rw [retire, me_retireAt]
@[simp] theorem me_retireAt_epc (pc : Word) (k : BitVec 1) (s : State) : (retireAt pc k s).me.epc = s.me.epc := by rw [me_retireAt]
@[simp] theorem me_retire_tval (k : BitVec 1) (s : State) : (retire k s).me.tval = s.me.tval := by rw [retire, me_retireAt]
@[simp] theorem me_retireAt_tval (pc : Word) (k : BitVec 1) (s : State) : (retireAt pc k s).me.tval = s.me.tval := by rw [me_retireAt]
@[simp] theorem me_retire_wtimeout (k : BitVec 1) (s : State) : (retire k s).me.wtimeout = s.me.wtimeout := by rw [retire, me_retireAt]
@[simp] theorem me_retireAt_wtimeout (pc : Word) (k : BitVec 1) (s : State) : (retireAt pc k s).me.wtimeout = s.me.wtimeout := by rw [me_retireAt]
@[simp] theorem me_retire_bidx (k : BitVec 1) (s : State) : (retire k s).me.bidx = s.me.bidx := by rw [retire, me_retireAt]
@[simp] theorem me_retireAt_bidx (pc : Word) (k : BitVec 1) (s : State) : (retireAt pc k s).me.bidx = s.me.bidx := by rw [me_retireAt]
@[simp] theorem me_retire_sidx (k : BitVec 1) (s : State) : (retire k s).me.sidx = s.me.sidx := by rw [retire, me_retireAt]
@[simp] theorem me_retireAt_sidx (pc : Word) (k : BitVec 1) (s : State) : (retireAt pc k s).me.sidx = s.me.sidx := by rw [me_retireAt]
@[simp] theorem me_retire_owner (k : BitVec 1) (s : State) : (retire k s).me.owner = s.me.owner := by rw [retire, me_retireAt]
@[simp] theorem me_retireAt_owner (pc : Word) (k : BitVec 1) (s : State) : (retireAt pc k s).me.owner = s.me.owner := by rw [me_retireAt]
@[simp] theorem me_retire_grid (k : BitVec 1) (s : State) : (retire k s).me.grid = s.me.grid := by rw [retire, me_retireAt]
@[simp] theorem me_retireAt_grid (pc : Word) (k : BitVec 1) (s : State) : (retireAt pc k s).me.grid = s.me.grid := by rw [me_retireAt]
@[simp] theorem me_retire_block (k : BitVec 1) (s : State) : (retire k s).me.block = s.me.block := by rw [retire, me_retireAt]
@[simp] theorem me_retireAt_block (pc : Word) (k : BitVec 1) (s : State) : (retireAt pc k s).me.block = s.me.block := by rw [me_retireAt]
@[simp] theorem me_retire_asn (k : BitVec 1) (s : State) : (retire k s).me.asn = s.me.asn := by rw [retire, me_retireAt]
@[simp] theorem me_retireAt_asn (pc : Word) (k : BitVec 1) (s : State) : (retireAt pc k s).me.asn = s.me.asn := by rw [me_retireAt]
@[simp] theorem me_retire_root (k : BitVec 1) (s : State) : (retire k s).me.root = s.me.root := by rw [retire, me_retireAt]
@[simp] theorem me_retireAt_root (pc : Word) (k : BitVec 1) (s : State) : (retireAt pc k s).me.root = s.me.root := by rw [me_retireAt]
@[simp] theorem me_retire_lug (k : BitVec 1) (s : State) : (retire k s).me.lug = s.me.lug := by rw [retire, me_retireAt]
@[simp] theorem me_retireAt_lug (pc : Word) (k : BitVec 1) (s : State) : (retireAt pc k s).me.lug = s.me.lug := by rw [me_retireAt]
@[simp] theorem me_retire_brought (k : BitVec 1) (s : State) : (retire k s).me.brought = s.me.brought := by rw [retire, me_retireAt]
@[simp] theorem me_retireAt_brought (pc : Word) (k : BitVec 1) (s : State) : (retireAt pc k s).me.brought = s.me.brought := by rw [me_retireAt]
@[simp] theorem me_retire_link (k : BitVec 1) (s : State) : (retire k s).me.link = s.me.link := by rw [retire, me_retireAt]
@[simp] theorem me_retireAt_link (pc : Word) (k : BitVec 1) (s : State) : (retireAt pc k s).me.link = s.me.link := by rw [me_retireAt]
@[simp] theorem me_retire_lastIssue (k : BitVec 1) (s : State) : (retire k s).me.lastIssue = s.me.lastIssue := by rw [retire, me_retireAt]
@[simp] theorem me_retireAt_lastIssue (pc : Word) (k : BitVec 1) (s : State) : (retireAt pc k s).me.lastIssue = s.me.lastIssue := by rw [me_retireAt]
@[simp] theorem me_retire_flight (k : BitVec 1) (s : State) : (retire k s).me.flight = s.me.flight := by rw [retire, me_retireAt]
@[simp] theorem me_retireAt_flight (pc : Word) (k : BitVec 1) (s : State) : (retireAt pc k s).me.flight = s.me.flight := by rw [me_retireAt]
@[simp] theorem me_retire_letInBy (k : BitVec 1) (s : State) : (retire k s).me.letInBy = s.me.letInBy := by rw [retire, me_retireAt]
@[simp] theorem me_retireAt_letInBy (pc : Word) (k : BitVec 1) (s : State) : (retireAt pc k s).me.letInBy = s.me.letInBy := by rw [me_retireAt]
@[simp] theorem me_retire_promoted (k : BitVec 1) (s : State) : (retire k s).me.promoted = s.me.promoted := by rw [retire, me_retireAt]
@[simp] theorem me_retireAt_promoted (pc : Word) (k : BitVec 1) (s : State) : (retireAt pc k s).me.promoted = s.me.promoted := by rw [me_retireAt]
@[simp] theorem me_retire_arrived (k : BitVec 1) (s : State) : (retire k s).me.arrived = s.me.arrived := by rw [retire, me_retireAt]
@[simp] theorem me_retireAt_arrived (pc : Word) (k : BitVec 1) (s : State) : (retireAt pc k s).me.arrived = s.me.arrived := by rw [me_retireAt]
@[simp] theorem me_retire_late (k : BitVec 1) (s : State) : (retire k s).me.late = s.me.late := by rw [retire, me_retireAt]
@[simp] theorem me_retireAt_late (pc : Word) (k : BitVec 1) (s : State) : (retireAt pc k s).me.late = s.me.late := by rw [me_retireAt]
@[simp] theorem me_retire_posted (k : BitVec 1) (s : State) : (retire k s).me.posted = s.me.posted := by rw [retire, me_retireAt]
@[simp] theorem me_retireAt_posted (pc : Word) (k : BitVec 1) (s : State) : (retireAt pc k s).me.posted = s.me.posted := by rw [me_retireAt]
@[simp] theorem me_retire_gives (k : BitVec 1) (s : State) : (retire k s).me.gives = s.me.gives := by rw [retire, me_retireAt]
@[simp] theorem me_retireAt_gives (pc : Word) (k : BitVec 1) (s : State) : (retireAt pc k s).me.gives = s.me.gives := by rw [me_retireAt]
@[simp] theorem me_retire_eng (k : BitVec 1) (s : State) : (retire k s).me.eng = s.me.eng := by rw [retire, me_retireAt]
@[simp] theorem me_retireAt_eng (pc : Word) (k : BitVec 1) (s : State) : (retireAt pc k s).me.eng = s.me.eng := by rw [me_retireAt]
@[simp] theorem me_retire_vents (k : BitVec 1) (s : State) : (retire k s).me.vents = s.me.vents := by rw [retire, me_retireAt]
@[simp] theorem me_retireAt_vents (pc : Word) (k : BitVec 1) (s : State) : (retireAt pc k s).me.vents = s.me.vents := by rw [me_retireAt]
@[simp] theorem me_retire_vmems (k : BitVec 1) (s : State) : (retire k s).me.vmems = s.me.vmems := by rw [retire, me_retireAt]
@[simp] theorem me_retireAt_vmems (pc : Word) (k : BitVec 1) (s : State) : (retireAt pc k s).me.vmems = s.me.vmems := by rw [me_retireAt]
@[simp] theorem me_retire_meetOp (k : BitVec 1) (s : State) : (retire k s).me.meetOp = s.me.meetOp := by rw [retire, me_retireAt]
@[simp] theorem me_retireAt_meetOp (pc : Word) (k : BitVec 1) (s : State) : (retireAt pc k s).me.meetOp = s.me.meetOp := by rw [me_retireAt]
@[simp] theorem me_retire_last (k : BitVec 1) (s : State) : (retire k s).me.last = s.me.last := by rw [retire, me_retireAt]
@[simp] theorem me_retireAt_last (pc : Word) (k : BitVec 1) (s : State) : (retireAt pc k s).me.last = s.me.last := by rw [me_retireAt]
@[simp] theorem me_retire_walkFault (k : BitVec 1) (s : State) : (retire k s).me.walkFault = s.me.walkFault := by rw [retire, me_retireAt]
@[simp] theorem me_retireAt_walkFault (pc : Word) (k : BitVec 1) (s : State) : (retireAt pc k s).me.walkFault = s.me.walkFault := by rw [me_retireAt]
@[simp] theorem me_retire_partner (k : BitVec 1) (s : State) : (retire k s).me.partner = s.me.partner := by rw [retire, me_retireAt]
@[simp] theorem me_retireAt_partner (pc : Word) (k : BitVec 1) (s : State) : (retireAt pc k s).me.partner = s.me.partner := by rw [me_retireAt]
@[simp] theorem me_retire_lvq (k : BitVec 1) (s : State) : (retire k s).me.lvq = s.me.lvq := by rw [retire, me_retireAt]
@[simp] theorem me_retireAt_lvq (pc : Word) (k : BitVec 1) (s : State) : (retireAt pc k s).me.lvq = s.me.lvq := by rw [me_retireAt]
@[simp] theorem me_retire_cmp (k : BitVec 1) (s : State) : (retire k s).me.cmp = s.me.cmp := by rw [retire, me_retireAt]
@[simp] theorem me_retireAt_cmp (pc : Word) (k : BitVec 1) (s : State) : (retireAt pc k s).me.cmp = s.me.cmp := by rw [me_retireAt]
@[simp] theorem me_retire_inHandler (k : BitVec 1) (s : State) : (retire k s).me.inHandler = s.me.inHandler := by rw [retire, me_retireAt]
@[simp] theorem me_retireAt_inHandler (pc : Word) (k : BitVec 1) (s : State) : (retireAt pc k s).me.inHandler = s.me.inHandler := by rw [me_retireAt]

theorem strands_retire_ne (k : BitVec 1) (s : State) {j : Nat} (h : j ≠ s.cur) :
    tget (retire k s).strands j = tget s.strands j := strands_retireAt_ne _ k s h

/-- Retiring an access, with or without acquire: what it leaves. -/
theorem me_acquireEnd (st : Bool) (k : BitVec 1) (s : State) :
    (acquireEnd st k s).me = { s.me with park := (acquireEnd st k s).me.park } := by
  unfold acquireEnd
  simp only
  split <;> simp [invalL1]

@[simp] theorem acquireEnd_now (st : Bool) (k : BitVec 1) (s : State) : (acquireEnd st k s).now = s.now := by unfold acquireEnd; simp only; split <;> rfl
@[simp] theorem acquireEnd_cur (st : Bool) (k : BitVec 1) (s : State) : (acquireEnd st k s).cur = s.cur := by unfold acquireEnd; simp only; split <;> rfl
@[simp] theorem acquireEnd_dec (st : Bool) (k : BitVec 1) (s : State) : (acquireEnd st k s).dec = s.dec := by unfold acquireEnd; simp only; split <;> rfl
@[simp] theorem acquireEnd_lag (st : Bool) (k : BitVec 1) (s : State) : (acquireEnd st k s).lag = s.lag := by unfold acquireEnd; simp only; split <;> rfl
@[simp] theorem acquireEnd_agenda (st : Bool) (k : BitVec 1) (s : State) : (acquireEnd st k s).agenda = s.agenda := by unfold acquireEnd; simp only; split <;> rfl
@[simp] theorem acquireEnd_fresh (st : Bool) (k : BitVec 1) (s : State) : (acquireEnd st k s).fresh = s.fresh := by unfold acquireEnd; simp only; split <;> rfl
@[simp] theorem acquireEnd_oracle (st : Bool) (k : BitVec 1) (s : State) : (acquireEnd st k s).oracle = s.oracle := by unfold acquireEnd; simp only; split <;> rfl
@[simp] theorem acquireEnd_mem (st : Bool) (k : BitVec 1) (s : State) : (acquireEnd st k s).mem = s.mem := by unfold acquireEnd; simp only; split <;> rfl
@[simp] theorem acquireEnd_poison (st : Bool) (k : BitVec 1) (s : State) : (acquireEnd st k s).poison = s.poison := by unfold acquireEnd; simp only; split <;> rfl
@[simp] theorem acquireEnd_empties (st : Bool) (k : BitVec 1) (s : State) : (acquireEnd st k s).empties = s.empties := by unfold acquireEnd; simp only; split <;> rfl
@[simp] theorem acquireEnd_absents (st : Bool) (k : BitVec 1) (s : State) : (acquireEnd st k s).absents = s.absents := by unfold acquireEnd; simp only; split <;> rfl
@[simp] theorem acquireEnd_rows (st : Bool) (k : BitVec 1) (s : State) : (acquireEnd st k s).rows = s.rows := by unfold acquireEnd; simp only; split <;> rfl
@[simp] theorem acquireEnd_cables (st : Bool) (k : BitVec 1) (s : State) : (acquireEnd st k s).cables = s.cables := by unfold acquireEnd; simp only; split <;> rfl
@[simp] theorem acquireEnd_store (st : Bool) (k : BitVec 1) (s : State) : (acquireEnd st k s).store = s.store := by unfold acquireEnd; simp only; split <;> rfl
@[simp] theorem acquireEnd_slices (st : Bool) (k : BitVec 1) (s : State) : (acquireEnd st k s).slices = s.slices := by unfold acquireEnd; simp only; split <;> rfl
@[simp] theorem acquireEnd_hubs (st : Bool) (k : BitVec 1) (s : State) : (acquireEnd st k s).hubs = s.hubs := by unfold acquireEnd; simp only; split <;> rfl
@[simp] theorem acquireEnd_stores (st : Bool) (k : BitVec 1) (s : State) : (acquireEnd st k s).stores = s.stores := by unfold acquireEnd; simp only; split <;> rfl
@[simp] theorem acquireEnd_packets (st : Bool) (k : BitVec 1) (s : State) : (acquireEnd st k s).packets = s.packets := by unfold acquireEnd; simp only; split <;> rfl
@[simp] theorem acquireEnd_frames (st : Bool) (k : BitVec 1) (s : State) : (acquireEnd st k s).frames = s.frames := by unfold acquireEnd; simp only; split <;> rfl
@[simp] theorem acquireEnd_thieves (st : Bool) (k : BitVec 1) (s : State) : (acquireEnd st k s).thieves = s.thieves := by unfold acquireEnd; simp only; split <;> rfl
@[simp] theorem acquireEnd_ops (st : Bool) (k : BitVec 1) (s : State) : (acquireEnd st k s).ops = s.ops := by unfold acquireEnd; simp only; split <;> rfl
@[simp] theorem acquireEnd_pieces (st : Bool) (k : BitVec 1) (s : State) : (acquireEnd st k s).pieces = s.pieces := by unfold acquireEnd; simp only; split <;> rfl
@[simp] theorem acquireEnd_rmsgs (st : Bool) (k : BitVec 1) (s : State) : (acquireEnd st k s).rmsgs = s.rmsgs := by unfold acquireEnd; simp only; split <;> rfl
@[simp] theorem acquireEnd_grids (st : Bool) (k : BitVec 1) (s : State) : (acquireEnd st k s).grids = s.grids := by unfold acquireEnd; simp only; split <;> rfl
@[simp] theorem acquireEnd_blocks (st : Bool) (k : BitVec 1) (s : State) : (acquireEnd st k s).blocks = s.blocks := by unfold acquireEnd; simp only; split <;> rfl
@[simp] theorem acquireEnd_episodes (st : Bool) (k : BitVec 1) (s : State) : (acquireEnd st k s).episodes = s.episodes := by unfold acquireEnd; simp only; split <;> rfl
@[simp] theorem acquireEnd_tlbis (st : Bool) (k : BitVec 1) (s : State) : (acquireEnd st k s).tlbis = s.tlbis := by unfold acquireEnd; simp only; split <;> rfl
@[simp] theorem acquireEnd_images (st : Bool) (k : BitVec 1) (s : State) : (acquireEnd st k s).images = s.images := by unfold acquireEnd; simp only; split <;> rfl
@[simp] theorem acquireEnd_arrivals (st : Bool) (k : BitVec 1) (s : State) : (acquireEnd st k s).arrivals = s.arrivals := by unfold acquireEnd; simp only; split <;> rfl
@[simp] theorem acquireEnd_hostOut (st : Bool) (k : BitVec 1) (s : State) : (acquireEnd st k s).hostOut = s.hostOut := by unfold acquireEnd; simp only; split <;> rfl
@[simp] theorem retireAcc_now (o : Nat) (st : Bool) (k : BitVec 1) (s : State) : (retireAcc o st k s).now = s.now := by unfold retireAcc; split <;> simp
@[simp] theorem retireAcc_cur (o : Nat) (st : Bool) (k : BitVec 1) (s : State) : (retireAcc o st k s).cur = s.cur := by unfold retireAcc; split <;> simp
@[simp] theorem retireAcc_dec (o : Nat) (st : Bool) (k : BitVec 1) (s : State) : (retireAcc o st k s).dec = s.dec := by unfold retireAcc; split <;> simp
@[simp] theorem retireAcc_lag (o : Nat) (st : Bool) (k : BitVec 1) (s : State) : (retireAcc o st k s).lag = s.lag := by unfold retireAcc; split <;> simp
@[simp] theorem retireAcc_agenda (o : Nat) (st : Bool) (k : BitVec 1) (s : State) : (retireAcc o st k s).agenda = s.agenda := by unfold retireAcc; split <;> simp
@[simp] theorem retireAcc_fresh (o : Nat) (st : Bool) (k : BitVec 1) (s : State) : (retireAcc o st k s).fresh = s.fresh := by unfold retireAcc; split <;> simp
@[simp] theorem retireAcc_oracle (o : Nat) (st : Bool) (k : BitVec 1) (s : State) : (retireAcc o st k s).oracle = s.oracle := by unfold retireAcc; split <;> simp
@[simp] theorem retireAcc_mem (o : Nat) (st : Bool) (k : BitVec 1) (s : State) : (retireAcc o st k s).mem = s.mem := by unfold retireAcc; split <;> simp
@[simp] theorem retireAcc_poison (o : Nat) (st : Bool) (k : BitVec 1) (s : State) : (retireAcc o st k s).poison = s.poison := by unfold retireAcc; split <;> simp
@[simp] theorem retireAcc_empties (o : Nat) (st : Bool) (k : BitVec 1) (s : State) : (retireAcc o st k s).empties = s.empties := by unfold retireAcc; split <;> simp
@[simp] theorem retireAcc_absents (o : Nat) (st : Bool) (k : BitVec 1) (s : State) : (retireAcc o st k s).absents = s.absents := by unfold retireAcc; split <;> simp
@[simp] theorem retireAcc_rows (o : Nat) (st : Bool) (k : BitVec 1) (s : State) : (retireAcc o st k s).rows = s.rows := by unfold retireAcc; split <;> simp
@[simp] theorem retireAcc_cables (o : Nat) (st : Bool) (k : BitVec 1) (s : State) : (retireAcc o st k s).cables = s.cables := by unfold retireAcc; split <;> simp
@[simp] theorem retireAcc_store (o : Nat) (st : Bool) (k : BitVec 1) (s : State) : (retireAcc o st k s).store = s.store := by unfold retireAcc; split <;> simp
@[simp] theorem retireAcc_slices (o : Nat) (st : Bool) (k : BitVec 1) (s : State) : (retireAcc o st k s).slices = s.slices := by unfold retireAcc; split <;> simp
@[simp] theorem retireAcc_hubs (o : Nat) (st : Bool) (k : BitVec 1) (s : State) : (retireAcc o st k s).hubs = s.hubs := by unfold retireAcc; split <;> simp
@[simp] theorem retireAcc_stores (o : Nat) (st : Bool) (k : BitVec 1) (s : State) : (retireAcc o st k s).stores = s.stores := by unfold retireAcc; split <;> simp
@[simp] theorem retireAcc_packets (o : Nat) (st : Bool) (k : BitVec 1) (s : State) : (retireAcc o st k s).packets = s.packets := by unfold retireAcc; split <;> simp
@[simp] theorem retireAcc_frames (o : Nat) (st : Bool) (k : BitVec 1) (s : State) : (retireAcc o st k s).frames = s.frames := by unfold retireAcc; split <;> simp
@[simp] theorem retireAcc_thieves (o : Nat) (st : Bool) (k : BitVec 1) (s : State) : (retireAcc o st k s).thieves = s.thieves := by unfold retireAcc; split <;> simp
@[simp] theorem retireAcc_ops (o : Nat) (st : Bool) (k : BitVec 1) (s : State) : (retireAcc o st k s).ops = s.ops := by unfold retireAcc; split <;> simp
@[simp] theorem retireAcc_pieces (o : Nat) (st : Bool) (k : BitVec 1) (s : State) : (retireAcc o st k s).pieces = s.pieces := by unfold retireAcc; split <;> simp
@[simp] theorem retireAcc_rmsgs (o : Nat) (st : Bool) (k : BitVec 1) (s : State) : (retireAcc o st k s).rmsgs = s.rmsgs := by unfold retireAcc; split <;> simp
@[simp] theorem retireAcc_grids (o : Nat) (st : Bool) (k : BitVec 1) (s : State) : (retireAcc o st k s).grids = s.grids := by unfold retireAcc; split <;> simp
@[simp] theorem retireAcc_blocks (o : Nat) (st : Bool) (k : BitVec 1) (s : State) : (retireAcc o st k s).blocks = s.blocks := by unfold retireAcc; split <;> simp
@[simp] theorem retireAcc_episodes (o : Nat) (st : Bool) (k : BitVec 1) (s : State) : (retireAcc o st k s).episodes = s.episodes := by unfold retireAcc; split <;> simp
@[simp] theorem retireAcc_tlbis (o : Nat) (st : Bool) (k : BitVec 1) (s : State) : (retireAcc o st k s).tlbis = s.tlbis := by unfold retireAcc; split <;> simp
@[simp] theorem retireAcc_images (o : Nat) (st : Bool) (k : BitVec 1) (s : State) : (retireAcc o st k s).images = s.images := by unfold retireAcc; split <;> simp
@[simp] theorem retireAcc_arrivals (o : Nat) (st : Bool) (k : BitVec 1) (s : State) : (retireAcc o st k s).arrivals = s.arrivals := by unfold retireAcc; split <;> simp
@[simp] theorem retireAcc_hostOut (o : Nat) (st : Bool) (k : BitVec 1) (s : State) : (retireAcc o st k s).hostOut = s.hostOut := by unfold retireAcc; split <;> simp
@[simp] theorem me_retireAcc_kind (o : Nat) (st : Bool) (k : BitVec 1) (s : State) : (retireAcc o st k s).me.kind = s.me.kind := by
  unfold retireAcc
  split
  · rw [me_acquireEnd]; simp
  · simp
@[simp] theorem me_retireAcc_native (o : Nat) (st : Bool) (k : BitVec 1) (s : State) : (retireAcc o st k s).me.native = s.me.native := by
  unfold retireAcc
  split
  · rw [me_acquireEnd]; simp
  · simp
@[simp] theorem me_retireAcc_nslot (o : Nat) (st : Bool) (k : BitVec 1) (s : State) : (retireAcc o st k s).me.nslot = s.me.nslot := by
  unfold retireAcc
  split
  · rw [me_acquireEnd]; simp
  · simp
@[simp] theorem me_retireAcc_place (o : Nat) (st : Bool) (k : BitVec 1) (s : State) : (retireAcc o st k s).me.place = s.me.place := by
  unfold retireAcc
  split
  · rw [me_acquireEnd]; simp
  · simp
@[simp] theorem me_retireAcc_slot (o : Nat) (st : Bool) (k : BitVec 1) (s : State) : (retireAcc o st k s).me.slot = s.me.slot := by
  unfold retireAcc
  split
  · rw [me_acquireEnd]; simp
  · simp
@[simp] theorem me_retireAcc_away (o : Nat) (st : Bool) (k : BitVec 1) (s : State) : (retireAcc o st k s).me.away = s.me.away := by
  unfold retireAcc
  split
  · rw [me_acquireEnd]; simp
  · simp
@[simp] theorem me_retireAcc_run (o : Nat) (st : Bool) (k : BitVec 1) (s : State) : (retireAcc o st k s).me.run = s.me.run := by
  unfold retireAcc
  split
  · rw [me_acquireEnd]; simp
  · simp
@[simp] theorem me_retireAcc_regs (o : Nat) (st : Bool) (k : BitVec 1) (s : State) : (retireAcc o st k s).me.regs = s.me.regs := by
  unfold retireAcc
  split
  · rw [me_acquireEnd]; simp
  · simp
@[simp] theorem me_retireAcc_rst (o : Nat) (st : Bool) (k : BitVec 1) (s : State) : (retireAcc o st k s).me.rst = s.me.rst := by
  unfold retireAcc
  split
  · rw [me_acquireEnd]; simp
  · simp
@[simp] theorem me_retireAcc_status (o : Nat) (st : Bool) (k : BitVec 1) (s : State) : (retireAcc o st k s).me.status = s.me.status := by
  unfold retireAcc
  split
  · rw [me_acquireEnd]; simp
  · simp
@[simp] theorem me_retireAcc_fcsr (o : Nat) (st : Bool) (k : BitVec 1) (s : State) : (retireAcc o st k s).me.fcsr = s.me.fcsr := by
  unfold retireAcc
  split
  · rw [me_acquireEnd]; simp
  · simp
@[simp] theorem me_retireAcc_cause (o : Nat) (st : Bool) (k : BitVec 1) (s : State) : (retireAcc o st k s).me.cause = s.me.cause := by
  unfold retireAcc
  split
  · rw [me_acquireEnd]; simp
  · simp
@[simp] theorem me_retireAcc_epc (o : Nat) (st : Bool) (k : BitVec 1) (s : State) : (retireAcc o st k s).me.epc = s.me.epc := by
  unfold retireAcc
  split
  · rw [me_acquireEnd]; simp
  · simp
@[simp] theorem me_retireAcc_tval (o : Nat) (st : Bool) (k : BitVec 1) (s : State) : (retireAcc o st k s).me.tval = s.me.tval := by
  unfold retireAcc
  split
  · rw [me_acquireEnd]; simp
  · simp
@[simp] theorem me_retireAcc_wtimeout (o : Nat) (st : Bool) (k : BitVec 1) (s : State) : (retireAcc o st k s).me.wtimeout = s.me.wtimeout := by
  unfold retireAcc
  split
  · rw [me_acquireEnd]; simp
  · simp
@[simp] theorem me_retireAcc_bidx (o : Nat) (st : Bool) (k : BitVec 1) (s : State) : (retireAcc o st k s).me.bidx = s.me.bidx := by
  unfold retireAcc
  split
  · rw [me_acquireEnd]; simp
  · simp
@[simp] theorem me_retireAcc_sidx (o : Nat) (st : Bool) (k : BitVec 1) (s : State) : (retireAcc o st k s).me.sidx = s.me.sidx := by
  unfold retireAcc
  split
  · rw [me_acquireEnd]; simp
  · simp
@[simp] theorem me_retireAcc_owner (o : Nat) (st : Bool) (k : BitVec 1) (s : State) : (retireAcc o st k s).me.owner = s.me.owner := by
  unfold retireAcc
  split
  · rw [me_acquireEnd]; simp
  · simp
@[simp] theorem me_retireAcc_grid (o : Nat) (st : Bool) (k : BitVec 1) (s : State) : (retireAcc o st k s).me.grid = s.me.grid := by
  unfold retireAcc
  split
  · rw [me_acquireEnd]; simp
  · simp
@[simp] theorem me_retireAcc_block (o : Nat) (st : Bool) (k : BitVec 1) (s : State) : (retireAcc o st k s).me.block = s.me.block := by
  unfold retireAcc
  split
  · rw [me_acquireEnd]; simp
  · simp
@[simp] theorem me_retireAcc_asn (o : Nat) (st : Bool) (k : BitVec 1) (s : State) : (retireAcc o st k s).me.asn = s.me.asn := by
  unfold retireAcc
  split
  · rw [me_acquireEnd]; simp
  · simp
@[simp] theorem me_retireAcc_root (o : Nat) (st : Bool) (k : BitVec 1) (s : State) : (retireAcc o st k s).me.root = s.me.root := by
  unfold retireAcc
  split
  · rw [me_acquireEnd]; simp
  · simp
@[simp] theorem me_retireAcc_lug (o : Nat) (st : Bool) (k : BitVec 1) (s : State) : (retireAcc o st k s).me.lug = s.me.lug := by
  unfold retireAcc
  split
  · rw [me_acquireEnd]; simp
  · simp
@[simp] theorem me_retireAcc_brought (o : Nat) (st : Bool) (k : BitVec 1) (s : State) : (retireAcc o st k s).me.brought = s.me.brought := by
  unfold retireAcc
  split
  · rw [me_acquireEnd]; simp
  · simp
@[simp] theorem me_retireAcc_link (o : Nat) (st : Bool) (k : BitVec 1) (s : State) : (retireAcc o st k s).me.link = s.me.link := by
  unfold retireAcc
  split
  · rw [me_acquireEnd]; simp
  · simp
@[simp] theorem me_retireAcc_lastIssue (o : Nat) (st : Bool) (k : BitVec 1) (s : State) : (retireAcc o st k s).me.lastIssue = s.me.lastIssue := by
  unfold retireAcc
  split
  · rw [me_acquireEnd]; simp
  · simp
@[simp] theorem me_retireAcc_flight (o : Nat) (st : Bool) (k : BitVec 1) (s : State) : (retireAcc o st k s).me.flight = s.me.flight := by
  unfold retireAcc
  split
  · rw [me_acquireEnd]; simp
  · simp
@[simp] theorem me_retireAcc_letInBy (o : Nat) (st : Bool) (k : BitVec 1) (s : State) : (retireAcc o st k s).me.letInBy = s.me.letInBy := by
  unfold retireAcc
  split
  · rw [me_acquireEnd]; simp
  · simp
@[simp] theorem me_retireAcc_promoted (o : Nat) (st : Bool) (k : BitVec 1) (s : State) : (retireAcc o st k s).me.promoted = s.me.promoted := by
  unfold retireAcc
  split
  · rw [me_acquireEnd]; simp
  · simp
@[simp] theorem me_retireAcc_arrived (o : Nat) (st : Bool) (k : BitVec 1) (s : State) : (retireAcc o st k s).me.arrived = s.me.arrived := by
  unfold retireAcc
  split
  · rw [me_acquireEnd]; simp
  · simp
@[simp] theorem me_retireAcc_late (o : Nat) (st : Bool) (k : BitVec 1) (s : State) : (retireAcc o st k s).me.late = s.me.late := by
  unfold retireAcc
  split
  · rw [me_acquireEnd]; simp
  · simp
@[simp] theorem me_retireAcc_posted (o : Nat) (st : Bool) (k : BitVec 1) (s : State) : (retireAcc o st k s).me.posted = s.me.posted := by
  unfold retireAcc
  split
  · rw [me_acquireEnd]; simp
  · simp
@[simp] theorem me_retireAcc_gives (o : Nat) (st : Bool) (k : BitVec 1) (s : State) : (retireAcc o st k s).me.gives = s.me.gives := by
  unfold retireAcc
  split
  · rw [me_acquireEnd]; simp
  · simp
@[simp] theorem me_retireAcc_eng (o : Nat) (st : Bool) (k : BitVec 1) (s : State) : (retireAcc o st k s).me.eng = s.me.eng := by
  unfold retireAcc
  split
  · rw [me_acquireEnd]; simp
  · simp
@[simp] theorem me_retireAcc_vents (o : Nat) (st : Bool) (k : BitVec 1) (s : State) : (retireAcc o st k s).me.vents = s.me.vents := by
  unfold retireAcc
  split
  · rw [me_acquireEnd]; simp
  · simp
@[simp] theorem me_retireAcc_vmems (o : Nat) (st : Bool) (k : BitVec 1) (s : State) : (retireAcc o st k s).me.vmems = s.me.vmems := by
  unfold retireAcc
  split
  · rw [me_acquireEnd]; simp
  · simp
@[simp] theorem me_retireAcc_meetOp (o : Nat) (st : Bool) (k : BitVec 1) (s : State) : (retireAcc o st k s).me.meetOp = s.me.meetOp := by
  unfold retireAcc
  split
  · rw [me_acquireEnd]; simp
  · simp
@[simp] theorem me_retireAcc_last (o : Nat) (st : Bool) (k : BitVec 1) (s : State) : (retireAcc o st k s).me.last = s.me.last := by
  unfold retireAcc
  split
  · rw [me_acquireEnd]; simp
  · simp
@[simp] theorem me_retireAcc_walkFault (o : Nat) (st : Bool) (k : BitVec 1) (s : State) : (retireAcc o st k s).me.walkFault = s.me.walkFault := by
  unfold retireAcc
  split
  · rw [me_acquireEnd]; simp
  · simp
@[simp] theorem me_retireAcc_partner (o : Nat) (st : Bool) (k : BitVec 1) (s : State) : (retireAcc o st k s).me.partner = s.me.partner := by
  unfold retireAcc
  split
  · rw [me_acquireEnd]; simp
  · simp
@[simp] theorem me_retireAcc_lvq (o : Nat) (st : Bool) (k : BitVec 1) (s : State) : (retireAcc o st k s).me.lvq = s.me.lvq := by
  unfold retireAcc
  split
  · rw [me_acquireEnd]; simp
  · simp
@[simp] theorem me_retireAcc_cmp (o : Nat) (st : Bool) (k : BitVec 1) (s : State) : (retireAcc o st k s).me.cmp = s.me.cmp := by
  unfold retireAcc
  split
  · rw [me_acquireEnd]; simp
  · simp
@[simp] theorem me_retireAcc_inHandler (o : Nat) (st : Bool) (k : BitVec 1) (s : State) : (retireAcc o st k s).me.inHandler = s.me.inHandler := by
  unfold retireAcc
  split
  · rw [me_acquireEnd]; simp
  · simp
@[simp] theorem me_retireAcc_pc (o : Nat) (st : Bool) (k : BitVec 1) (s : State) : (retireAcc o st k s).me.pc = s.me.pc + 4 := by
  unfold retireAcc
  split
  · rw [me_acquireEnd]; simp
  · simp

theorem strands_retireAcc_ne (o : Nat) (st : Bool) (k : BitVec 1) (s : State) {j : Nat} (h : j ≠ s.cur) :
    tget (retireAcc o st k s).strands j = tget s.strands j := by
  unfold retireAcc acquireEnd
  split
  · simp only
    split
    · simpa [invalL1] using strands_retire_ne k s h
    · simp [modMe, modStrand, tmod, tget_tput_ne _ _ h, strands_retire_ne k s h]
  · exact strands_retire_ne k s h

/-- An access without order retires as any instruction. -/
@[simp] theorem retireAcc_plain (st : Bool) (k : BitVec 1) (s : State) : retireAcc 0 st k s = retire k s := rfl

theorem regVal_congr {x y : Strand} (h : x.regs = y.regs) (r : Nat) : regVal x r = regVal y r := by simp [regVal, h]
theorem regSt_congr {x y : Strand} (h : x.rst = y.rst) (r : Nat) : regSt x r = regSt y r := by simp [regSt, h]

/-! ### A translation's use (R135) -/

@[simp] theorem touch_now (p a v : Nat) (s : State) : (touch p a v s).now = s.now := by unfold touch; split <;> rfl
@[simp] theorem touch_cur (p a v : Nat) (s : State) : (touch p a v s).cur = s.cur := by unfold touch; split <;> rfl
@[simp] theorem touch_dec (p a v : Nat) (s : State) : (touch p a v s).dec = s.dec := by unfold touch; split <;> rfl
@[simp] theorem touch_lag (p a v : Nat) (s : State) : (touch p a v s).lag = s.lag := by unfold touch; split <;> rfl
@[simp] theorem touch_agenda (p a v : Nat) (s : State) : (touch p a v s).agenda = s.agenda := by unfold touch; split <;> rfl
@[simp] theorem touch_fresh (p a v : Nat) (s : State) : (touch p a v s).fresh = s.fresh := by unfold touch; split <;> rfl
@[simp] theorem touch_oracle (p a v : Nat) (s : State) : (touch p a v s).oracle = s.oracle := by unfold touch; split <;> rfl
@[simp] theorem touch_mem (p a v : Nat) (s : State) : (touch p a v s).mem = s.mem := by unfold touch; split <;> rfl
@[simp] theorem touch_poison (p a v : Nat) (s : State) : (touch p a v s).poison = s.poison := by unfold touch; split <;> rfl
@[simp] theorem touch_empties (p a v : Nat) (s : State) : (touch p a v s).empties = s.empties := by unfold touch; split <;> rfl
@[simp] theorem touch_absents (p a v : Nat) (s : State) : (touch p a v s).absents = s.absents := by unfold touch; split <;> rfl
@[simp] theorem touch_rows (p a v : Nat) (s : State) : (touch p a v s).rows = s.rows := by unfold touch; split <;> rfl
@[simp] theorem touch_cables (p a v : Nat) (s : State) : (touch p a v s).cables = s.cables := by unfold touch; split <;> rfl
@[simp] theorem touch_strands (p a v : Nat) (s : State) : (touch p a v s).strands = s.strands := by unfold touch; split <;> rfl
@[simp] theorem touch_store (p a v : Nat) (s : State) : (touch p a v s).store = s.store := by unfold touch; split <;> rfl
@[simp] theorem touch_slices (p a v : Nat) (s : State) : (touch p a v s).slices = s.slices := by unfold touch; split <;> rfl
@[simp] theorem touch_hubs (p a v : Nat) (s : State) : (touch p a v s).hubs = s.hubs := by unfold touch; split <;> rfl
@[simp] theorem touch_stores (p a v : Nat) (s : State) : (touch p a v s).stores = s.stores := by unfold touch; split <;> rfl
@[simp] theorem touch_packets (p a v : Nat) (s : State) : (touch p a v s).packets = s.packets := by unfold touch; split <;> rfl
@[simp] theorem touch_frames (p a v : Nat) (s : State) : (touch p a v s).frames = s.frames := by unfold touch; split <;> rfl
@[simp] theorem touch_thieves (p a v : Nat) (s : State) : (touch p a v s).thieves = s.thieves := by unfold touch; split <;> rfl
@[simp] theorem touch_ops (p a v : Nat) (s : State) : (touch p a v s).ops = s.ops := by unfold touch; split <;> rfl
@[simp] theorem touch_pieces (p a v : Nat) (s : State) : (touch p a v s).pieces = s.pieces := by unfold touch; split <;> rfl
@[simp] theorem touch_rmsgs (p a v : Nat) (s : State) : (touch p a v s).rmsgs = s.rmsgs := by unfold touch; split <;> rfl
@[simp] theorem touch_grids (p a v : Nat) (s : State) : (touch p a v s).grids = s.grids := by unfold touch; split <;> rfl
@[simp] theorem touch_blocks (p a v : Nat) (s : State) : (touch p a v s).blocks = s.blocks := by unfold touch; split <;> rfl
@[simp] theorem touch_episodes (p a v : Nat) (s : State) : (touch p a v s).episodes = s.episodes := by unfold touch; split <;> rfl
@[simp] theorem touch_tlbis (p a v : Nat) (s : State) : (touch p a v s).tlbis = s.tlbis := by unfold touch; split <;> rfl
@[simp] theorem touch_images (p a v : Nat) (s : State) : (touch p a v s).images = s.images := by unfold touch; split <;> rfl
@[simp] theorem touch_arrivals (p a v : Nat) (s : State) : (touch p a v s).arrivals = s.arrivals := by unfold touch; split <;> rfl
@[simp] theorem touch_hostOut (p a v : Nat) (s : State) : (touch p a v s).hostOut = s.hostOut := by unfold touch; split <;> rfl
@[simp] theorem me_touch (p a v : Nat) (s : State) : (touch p a v s).me = s.me := by unfold touch; split <;> rfl

theorem coreAt_touch (p a v c : Nat) (s : State) :
    coreAt (touch p a v s) c = { coreAt s c with tlb := (coreAt (touch p a v s) c).tlb } := by
  unfold touch
  split
  · rfl
  · by_cases h : c = p
    · subst h; simp
    · rw [coreAt_modCore_ne _ _ h]

@[simp] theorem coreAt_touch_sc (p a v c : Nat) (s : State) : (coreAt (touch p a v s) c).sc = (coreAt s c).sc := by rw [coreAt_touch]
@[simp] theorem coreAt_touch_l1 (p a v c : Nat) (s : State) : (coreAt (touch p a v s) c).l1 = (coreAt s c).l1 := by rw [coreAt_touch]
@[simp] theorem coreAt_touch_refills (p a v c : Nat) (s : State) : (coreAt (touch p a v s) c).refills = (coreAt s c).refills := by rw [coreAt_touch]
@[simp] theorem coreAt_touch_epoch (p a v c : Nat) (s : State) : (coreAt (touch p a v s) c).epoch = (coreAt s c).epoch := by rw [coreAt_touch]
@[simp] theorem coreAt_touch_ctx (p a v c : Nat) (s : State) : (coreAt (touch p a v s) c).ctx = (coreAt s c).ctx := by rw [coreAt_touch]
@[simp] theorem coreAt_touch_tiles (p a v c : Nat) (s : State) : (coreAt (touch p a v s) c).tiles = (coreAt s c).tiles := by rw [coreAt_touch]
@[simp] theorem coreAt_touch_locks (p a v c : Nat) (s : State) : (coreAt (touch p a v s) c).locks = (coreAt s c).locks := by rw [coreAt_touch]
@[simp] theorem coreAt_touch_launchAt (p a v c : Nat) (s : State) : (coreAt (touch p a v s) c).launchAt = (coreAt s c).launchAt := by rw [coreAt_touch]
@[simp] theorem coreAt_touch_fe (p a v c : Nat) (s : State) : (coreAt (touch p a v s) c).fe = (coreAt s c).fe := by rw [coreAt_touch]
@[simp] theorem coreAt_touch_meets (p a v c : Nat) (s : State) : (coreAt (touch p a v s) c).meets = (coreAt s c).meets := by rw [coreAt_touch]
@[simp] theorem coreAt_touch_reads (p a v c : Nat) (s : State) : (coreAt (touch p a v s) c).reads = (coreAt s c).reads := by rw [coreAt_touch]
@[simp] theorem coreAt_touch_joins (p a v c : Nat) (s : State) : (coreAt (touch p a v s) c).joins = (coreAt s c).joins := by rw [coreAt_touch]
@[simp] theorem coreAt_touch_bars (p a v c : Nat) (s : State) : (coreAt (touch p a v s) c).bars = (coreAt s c).bars := by rw [coreAt_touch]
@[simp] theorem coreAt_touch_deque (p a v c : Nat) (s : State) : (coreAt (touch p a v s) c).deque = (coreAt s c).deque := by rw [coreAt_touch]
@[simp] theorem coreAt_touch_dqCtr (p a v c : Nat) (s : State) : (coreAt (touch p a v s) c).dqCtr = (coreAt s c).dqCtr := by rw [coreAt_touch]
@[simp] theorem coreAt_touch_ringWait (p a v c : Nat) (s : State) : (coreAt (touch p a v s) c).ringWait = (coreAt s c).ringWait := by rw [coreAt_touch]
@[simp] theorem coreAt_touch_ports (p a v c : Nat) (s : State) : (coreAt (touch p a v s) c).ports = (coreAt s c).ports := by rw [coreAt_touch]
@[simp] theorem coreAt_touch_q9 (p a v c : Nat) (s : State) : (coreAt (touch p a v s) c).q9 = (coreAt s c).q9 := by rw [coreAt_touch]
@[simp] theorem coreAt_touch_copyq (p a v c : Nat) (s : State) : (coreAt (touch p a v s) c).copyq = (coreAt s c).copyq := by rw [coreAt_touch]
@[simp] theorem coreAt_touch_mserved (p a v c : Nat) (s : State) : (coreAt (touch p a v s) c).mserved = (coreAt s c).mserved := by rw [coreAt_touch]
@[simp] theorem coreAt_touch_mrun (p a v c : Nat) (s : State) : (coreAt (touch p a v s) c).mrun = (coreAt s c).mrun := by rw [coreAt_touch]
@[simp] theorem coreAt_touch_vserved (p a v c : Nat) (s : State) : (coreAt (touch p a v s) c).vserved = (coreAt s c).vserved := by rw [coreAt_touch]
@[simp] theorem coreAt_touch_vbusy (p a v c : Nat) (s : State) : (coreAt (touch p a v s) c).vbusy = (coreAt s c).vbusy := by rw [coreAt_touch]
@[simp] theorem coreAt_touch_vruns (p a v c : Nat) (s : State) : (coreAt (touch p a v s) c).vruns = (coreAt s c).vruns := by rw [coreAt_touch]
@[simp] theorem coreAt_touch_filters (p a v c : Nat) (s : State) : (coreAt (touch p a v s) c).filters = (coreAt s c).filters := by rw [coreAt_touch]
@[simp] theorem coreAt_touch_inFree (p a v c : Nat) (s : State) : (coreAt (touch p a v s) c).inFree = (coreAt s c).inFree := by rw [coreAt_touch]
@[simp] theorem coreAt_touch_fw (p a v c : Nat) (s : State) : (coreAt (touch p a v s) c).fw = (coreAt s c).fw := by rw [coreAt_touch]
@[simp] theorem coreAt_touch_played (p a v c : Nat) (s : State) : (coreAt (touch p a v s) c).played = (coreAt s c).played := by rw [coreAt_touch]
@[simp] theorem hubAt_touch (p a v m : Nat) (s : State) : hubAt (touch p a v s) m = hubAt s m := by simp [hubAt]
@[simp] theorem sliceAt_touch (p a v c : Nat) (s : State) : sliceAt (touch p a v s) c = sliceAt s c := by simp [sliceAt]
@[simp] theorem strandAt_touch (p a v j : Nat) (s : State) : strandAt (touch p a v s) j = strandAt s j := by simp [strandAt]
@[simp] theorem here_touch (p a v : Nat) (s : State) : (touch p a v s).here = s.here := by simp [State.here]
@[simp] theorem ctxOf_touch (p a v : Nat) (s : State) : ctxOf (touch p a v s) = ctxOf s := by simp [ctxOf, myCore]
@[simp] theorem recAt_touch (p a v n : Nat) (s : State) : recAt (touch p a v s) n = recAt s n := by simp [recAt]
@[simp] theorem ctlGet_touch (p a v m o : Nat) (s : State) : ctlGet (touch p a v s) m o = ctlGet s m o := by simp [ctlGet]
@[simp] theorem vaultState_touch (p a v c : Nat) (s : State) : vaultState (touch p a v s) c = vaultState s c := by
  simp [vaultState]
@[simp] theorem vaultCap_touch (p a v : Nat) (s : State) : vaultCap (touch p a v s) = vaultCap s := by
  funext c; simp [vaultCap]
@[simp] theorem scaleAt_touch (p a v at_ w i : Nat) (s : State) : scaleAt (touch p a v s) at_ w i = scaleAt s at_ w i := by simp [scaleAt]
@[simp] theorem space_touch (p a v x : Nat) (s : State) : space (touch p a v s) x = space s x := by
  simp [space, vaultCap, vaultState]
@[simp] theorem checkSpace_touch (p a v x n : Nat) (k : Acc) (s : State) : checkSpace (touch p a v s) x n k = checkSpace s x n k := by
  simp [checkSpace]
@[simp] theorem locked_touch (p a v x n : Nat) (s : State) : locked (touch p a v s) x n = locked s x n := by
  simp [locked, lockedFrom, lockedAt]
@[simp] theorem poisoned_touch (p a v x n : Nat) (s : State) : poisoned (touch p a v s) x n = poisoned s x n := by
  simp [poisoned]
@[simp] theorem feEmpty_touch (p a v x : Nat) (s : State) : feEmpty (touch p a v s) x = feEmpty s x := by simp [feEmpty]
@[simp] theorem partitionOf_touch (p a v x q : Nat) (s : State) : partitionOf (touch p a v s) x q = partitionOf s x q := by
  simp [partitionOf, rtCfg]
@[simp] theorem hubBarred_touch (p a v n : Nat) (x : Strand) (s : State) : hubBarred (touch p a v s) x n = hubBarred s x n := by
  simp [hubBarred]
@[simp] theorem myEpoch_touch (p a v : Nat) (s : State) : myEpoch (touch p a v s) = myEpoch s := by simp [myEpoch, myCore]
@[simp] theorem policyOf_touch (p a v x y n : Nat) (s : State) : policyOf (touch p a v s) x y n = policyOf s x y n := by
  simp [policyOf]

/-! ### The access at its home (R147) -/

/-- Past its record, its fence, its translation and its home, an access is its operation, on the state in which the
translation is the most recently used. -/
theorem access_of {s : State} {n size pol suffix pa : Nat} {off va : Word} {r w win : Bool} {ord : State → Nat} {k : BitVec 1}
    {onNone : State → State} {op : Carry → State → State} (h : Reaches s n off size r w va pa pol win) (ho : Released s (ord s)) :
    access n off size r w suffix ord k onNone op s = op ⟨pa, va, policyOf s pol suffix n, ord s, win, r, w, myEpoch s⟩ (used s va) := by
  obtain ⟨h1, h2, h3, h4, h5, h6, h7⟩ := h
  have hf : ¬ (2 ≤ ord s ∧ fenceHolds s s.cur 1 0 = false) := by
    rintro ⟨a, b⟩
    rcases ho with c | c
    · omega
    · simp [c.1] at b
  have hr : ¬ (2 ≤ ord s ∧ isNative s.me = false ∧ s.me.released = false) := by
    rintro ⟨a, b, d⟩
    rcases ho with c | c
    · omega
    · rcases c.2 with e | e
      · simp [e] at b
      · simp [e] at d
  simp only [access, h1, h2, ne_eq, not_true, if_false, withEa, h3, h4, hf, hr, withTr, h5, used, atHome, me_touch, hubBarred_touch, myEpoch_touch,
    policyOf_touch, Bool.false_eq_true, h6, h7, if_true, if_false]

/-! ### Writes to SRAM -/

/-- Scheduling one event for each of a list leaves what scheduling leaves. -/
theorem foldl_sched {β : Type} (g : State → β) (h : ∀ d i s, g (sched d i s) = g s) (f : Nat → Instr) (l : List Nat) (s : State) :
    g (l.foldl (fun s w => schedNext (f w) s) s) = g s := by
  induction l generalizing s with
  | nil => rfl
  | cons a t ih => rw [List.foldl_cons, ih, schedNext, h]

theorem foldl_keeps {α β : Type} (g : State → β) (f : State → α → State) (h : ∀ s a, g (f s a) = g s) (l : List α) (s : State) :
    g (l.foldl f s) = g s := by
  induction l generalizing s with
  | nil => rfl
  | cons a t ih => rw [List.foldl_cons, ih, h]

@[simp] theorem noteWrite_now (c a n : Nat) (s : State) : (noteWrite c a n s).now = s.now := by
  unfold noteWrite; simp only; split
  · rw [foldl_sched (·.now) (fun _ _ _ => rfl), foldl_sched (·.now) (fun _ _ _ => rfl)]; rfl
  · rfl
@[simp] theorem noteWrite_cur (c a n : Nat) (s : State) : (noteWrite c a n s).cur = s.cur := by
  unfold noteWrite; simp only; split
  · rw [foldl_sched (·.cur) (fun _ _ _ => rfl), foldl_sched (·.cur) (fun _ _ _ => rfl)]; rfl
  · rfl
@[simp] theorem noteWrite_dec (c a n : Nat) (s : State) : (noteWrite c a n s).dec = s.dec := by
  unfold noteWrite; simp only; split
  · rw [foldl_sched (·.dec) (fun _ _ _ => rfl), foldl_sched (·.dec) (fun _ _ _ => rfl)]; rfl
  · rfl
@[simp] theorem noteWrite_lag (c a n : Nat) (s : State) : (noteWrite c a n s).lag = s.lag := by
  unfold noteWrite; simp only; split
  · rw [foldl_sched (·.lag) (fun _ _ _ => rfl), foldl_sched (·.lag) (fun _ _ _ => rfl)]; rfl
  · rfl
@[simp] theorem noteWrite_fresh (c a n : Nat) (s : State) : (noteWrite c a n s).fresh = s.fresh := by
  unfold noteWrite; simp only; split
  · rw [foldl_sched (·.fresh) (fun _ _ _ => rfl), foldl_sched (·.fresh) (fun _ _ _ => rfl)]; rfl
  · rfl
@[simp] theorem noteWrite_oracle (c a n : Nat) (s : State) : (noteWrite c a n s).oracle = s.oracle := by
  unfold noteWrite; simp only; split
  · rw [foldl_sched (·.oracle) (fun _ _ _ => rfl), foldl_sched (·.oracle) (fun _ _ _ => rfl)]; rfl
  · rfl
@[simp] theorem noteWrite_mem (c a n : Nat) (s : State) : (noteWrite c a n s).mem = s.mem := by
  unfold noteWrite; simp only; split
  · rw [foldl_sched (·.mem) (fun _ _ _ => rfl), foldl_sched (·.mem) (fun _ _ _ => rfl)]; rfl
  · rfl
@[simp] theorem noteWrite_poison (c a n : Nat) (s : State) : (noteWrite c a n s).poison = s.poison := by
  unfold noteWrite; simp only; split
  · rw [foldl_sched (·.poison) (fun _ _ _ => rfl), foldl_sched (·.poison) (fun _ _ _ => rfl)]; rfl
  · rfl
@[simp] theorem noteWrite_empties (c a n : Nat) (s : State) : (noteWrite c a n s).empties = s.empties := by
  unfold noteWrite; simp only; split
  · rw [foldl_sched (·.empties) (fun _ _ _ => rfl), foldl_sched (·.empties) (fun _ _ _ => rfl)]; rfl
  · rfl
@[simp] theorem noteWrite_absents (c a n : Nat) (s : State) : (noteWrite c a n s).absents = s.absents := by
  unfold noteWrite; simp only; split
  · rw [foldl_sched (·.absents) (fun _ _ _ => rfl), foldl_sched (·.absents) (fun _ _ _ => rfl)]; rfl
  · rfl
@[simp] theorem noteWrite_rows (c a n : Nat) (s : State) : (noteWrite c a n s).rows = s.rows := by
  unfold noteWrite; simp only; split
  · rw [foldl_sched (·.rows) (fun _ _ _ => rfl), foldl_sched (·.rows) (fun _ _ _ => rfl)]; rfl
  · rfl
@[simp] theorem noteWrite_cables (c a n : Nat) (s : State) : (noteWrite c a n s).cables = s.cables := by
  unfold noteWrite; simp only; split
  · rw [foldl_sched (·.cables) (fun _ _ _ => rfl), foldl_sched (·.cables) (fun _ _ _ => rfl)]; rfl
  · rfl
@[simp] theorem noteWrite_strands (c a n : Nat) (s : State) : (noteWrite c a n s).strands = s.strands := by
  unfold noteWrite; simp only; split
  · rw [foldl_sched (·.strands) (fun _ _ _ => rfl), foldl_sched (·.strands) (fun _ _ _ => rfl)]; rfl
  · rfl
@[simp] theorem noteWrite_store (c a n : Nat) (s : State) : (noteWrite c a n s).store = s.store := by
  unfold noteWrite; simp only; split
  · rw [foldl_sched (·.store) (fun _ _ _ => rfl), foldl_sched (·.store) (fun _ _ _ => rfl)]; rfl
  · rfl
@[simp] theorem noteWrite_slices (c a n : Nat) (s : State) : (noteWrite c a n s).slices = s.slices := by
  unfold noteWrite; simp only; split
  · rw [foldl_sched (·.slices) (fun _ _ _ => rfl), foldl_sched (·.slices) (fun _ _ _ => rfl)]; rfl
  · rfl
@[simp] theorem noteWrite_hubs (c a n : Nat) (s : State) : (noteWrite c a n s).hubs = s.hubs := by
  unfold noteWrite; simp only; split
  · rw [foldl_sched (·.hubs) (fun _ _ _ => rfl), foldl_sched (·.hubs) (fun _ _ _ => rfl)]; rfl
  · rfl
@[simp] theorem noteWrite_stores (c a n : Nat) (s : State) : (noteWrite c a n s).stores = s.stores := by
  unfold noteWrite; simp only; split
  · rw [foldl_sched (·.stores) (fun _ _ _ => rfl), foldl_sched (·.stores) (fun _ _ _ => rfl)]; rfl
  · rfl
@[simp] theorem noteWrite_packets (c a n : Nat) (s : State) : (noteWrite c a n s).packets = s.packets := by
  unfold noteWrite; simp only; split
  · rw [foldl_sched (·.packets) (fun _ _ _ => rfl), foldl_sched (·.packets) (fun _ _ _ => rfl)]; rfl
  · rfl
@[simp] theorem noteWrite_frames (c a n : Nat) (s : State) : (noteWrite c a n s).frames = s.frames := by
  unfold noteWrite; simp only; split
  · rw [foldl_sched (·.frames) (fun _ _ _ => rfl), foldl_sched (·.frames) (fun _ _ _ => rfl)]; rfl
  · rfl
@[simp] theorem noteWrite_thieves (c a n : Nat) (s : State) : (noteWrite c a n s).thieves = s.thieves := by
  unfold noteWrite; simp only; split
  · rw [foldl_sched (·.thieves) (fun _ _ _ => rfl), foldl_sched (·.thieves) (fun _ _ _ => rfl)]; rfl
  · rfl
@[simp] theorem noteWrite_ops (c a n : Nat) (s : State) : (noteWrite c a n s).ops = s.ops := by
  unfold noteWrite; simp only; split
  · rw [foldl_sched (·.ops) (fun _ _ _ => rfl), foldl_sched (·.ops) (fun _ _ _ => rfl)]; rfl
  · rfl
@[simp] theorem noteWrite_pieces (c a n : Nat) (s : State) : (noteWrite c a n s).pieces = s.pieces := by
  unfold noteWrite; simp only; split
  · rw [foldl_sched (·.pieces) (fun _ _ _ => rfl), foldl_sched (·.pieces) (fun _ _ _ => rfl)]; rfl
  · rfl
@[simp] theorem noteWrite_rmsgs (c a n : Nat) (s : State) : (noteWrite c a n s).rmsgs = s.rmsgs := by
  unfold noteWrite; simp only; split
  · rw [foldl_sched (·.rmsgs) (fun _ _ _ => rfl), foldl_sched (·.rmsgs) (fun _ _ _ => rfl)]; rfl
  · rfl
@[simp] theorem noteWrite_grids (c a n : Nat) (s : State) : (noteWrite c a n s).grids = s.grids := by
  unfold noteWrite; simp only; split
  · rw [foldl_sched (·.grids) (fun _ _ _ => rfl), foldl_sched (·.grids) (fun _ _ _ => rfl)]; rfl
  · rfl
@[simp] theorem noteWrite_blocks (c a n : Nat) (s : State) : (noteWrite c a n s).blocks = s.blocks := by
  unfold noteWrite; simp only; split
  · rw [foldl_sched (·.blocks) (fun _ _ _ => rfl), foldl_sched (·.blocks) (fun _ _ _ => rfl)]; rfl
  · rfl
@[simp] theorem noteWrite_episodes (c a n : Nat) (s : State) : (noteWrite c a n s).episodes = s.episodes := by
  unfold noteWrite; simp only; split
  · rw [foldl_sched (·.episodes) (fun _ _ _ => rfl), foldl_sched (·.episodes) (fun _ _ _ => rfl)]; rfl
  · rfl
@[simp] theorem noteWrite_tlbis (c a n : Nat) (s : State) : (noteWrite c a n s).tlbis = s.tlbis := by
  unfold noteWrite; simp only; split
  · rw [foldl_sched (·.tlbis) (fun _ _ _ => rfl), foldl_sched (·.tlbis) (fun _ _ _ => rfl)]; rfl
  · rfl
@[simp] theorem noteWrite_images (c a n : Nat) (s : State) : (noteWrite c a n s).images = s.images := by
  unfold noteWrite; simp only; split
  · rw [foldl_sched (·.images) (fun _ _ _ => rfl), foldl_sched (·.images) (fun _ _ _ => rfl)]; rfl
  · rfl
@[simp] theorem noteWrite_arrivals (c a n : Nat) (s : State) : (noteWrite c a n s).arrivals = s.arrivals := by
  unfold noteWrite; simp only; split
  · rw [foldl_sched (·.arrivals) (fun _ _ _ => rfl), foldl_sched (·.arrivals) (fun _ _ _ => rfl)]; rfl
  · rfl
@[simp] theorem noteWrite_hostOut (c a n : Nat) (s : State) : (noteWrite c a n s).hostOut = s.hostOut := by
  unfold noteWrite; simp only; split
  · rw [foldl_sched (·.hostOut) (fun _ _ _ => rfl), foldl_sched (·.hostOut) (fun _ _ _ => rfl)]; rfl
  · rfl
@[simp] theorem sramWrite_now (a : Nat) (b : List Byte) (s : State) : (sramWrite a b s).now = s.now := by simp [sramWrite]
@[simp] theorem sramWrite_cur (a : Nat) (b : List Byte) (s : State) : (sramWrite a b s).cur = s.cur := by simp [sramWrite]
@[simp] theorem sramWrite_dec (a : Nat) (b : List Byte) (s : State) : (sramWrite a b s).dec = s.dec := by simp [sramWrite]
@[simp] theorem sramWrite_lag (a : Nat) (b : List Byte) (s : State) : (sramWrite a b s).lag = s.lag := by simp [sramWrite]
@[simp] theorem sramWrite_fresh (a : Nat) (b : List Byte) (s : State) : (sramWrite a b s).fresh = s.fresh := by simp [sramWrite]
@[simp] theorem sramWrite_oracle (a : Nat) (b : List Byte) (s : State) : (sramWrite a b s).oracle = s.oracle := by simp [sramWrite]
@[simp] theorem sramWrite_poison (a : Nat) (b : List Byte) (s : State) : (sramWrite a b s).poison = s.poison := by simp [sramWrite]
@[simp] theorem sramWrite_empties (a : Nat) (b : List Byte) (s : State) : (sramWrite a b s).empties = s.empties := by simp [sramWrite]
@[simp] theorem sramWrite_absents (a : Nat) (b : List Byte) (s : State) : (sramWrite a b s).absents = s.absents := by simp [sramWrite]
@[simp] theorem sramWrite_rows (a : Nat) (b : List Byte) (s : State) : (sramWrite a b s).rows = s.rows := by simp [sramWrite]
@[simp] theorem sramWrite_cables (a : Nat) (b : List Byte) (s : State) : (sramWrite a b s).cables = s.cables := by simp [sramWrite]
@[simp] theorem sramWrite_strands (a : Nat) (b : List Byte) (s : State) : (sramWrite a b s).strands = s.strands := by simp [sramWrite]
@[simp] theorem sramWrite_store (a : Nat) (b : List Byte) (s : State) : (sramWrite a b s).store = s.store := by simp [sramWrite]
@[simp] theorem sramWrite_slices (a : Nat) (b : List Byte) (s : State) : (sramWrite a b s).slices = s.slices := by simp [sramWrite]
@[simp] theorem sramWrite_hubs (a : Nat) (b : List Byte) (s : State) : (sramWrite a b s).hubs = s.hubs := by simp [sramWrite]
@[simp] theorem sramWrite_stores (a : Nat) (b : List Byte) (s : State) : (sramWrite a b s).stores = s.stores := by simp [sramWrite]
@[simp] theorem sramWrite_packets (a : Nat) (b : List Byte) (s : State) : (sramWrite a b s).packets = s.packets := by simp [sramWrite]
@[simp] theorem sramWrite_frames (a : Nat) (b : List Byte) (s : State) : (sramWrite a b s).frames = s.frames := by simp [sramWrite]
@[simp] theorem sramWrite_thieves (a : Nat) (b : List Byte) (s : State) : (sramWrite a b s).thieves = s.thieves := by simp [sramWrite]
@[simp] theorem sramWrite_ops (a : Nat) (b : List Byte) (s : State) : (sramWrite a b s).ops = s.ops := by simp [sramWrite]
@[simp] theorem sramWrite_pieces (a : Nat) (b : List Byte) (s : State) : (sramWrite a b s).pieces = s.pieces := by simp [sramWrite]
@[simp] theorem sramWrite_rmsgs (a : Nat) (b : List Byte) (s : State) : (sramWrite a b s).rmsgs = s.rmsgs := by simp [sramWrite]
@[simp] theorem sramWrite_grids (a : Nat) (b : List Byte) (s : State) : (sramWrite a b s).grids = s.grids := by simp [sramWrite]
@[simp] theorem sramWrite_blocks (a : Nat) (b : List Byte) (s : State) : (sramWrite a b s).blocks = s.blocks := by simp [sramWrite]
@[simp] theorem sramWrite_episodes (a : Nat) (b : List Byte) (s : State) : (sramWrite a b s).episodes = s.episodes := by simp [sramWrite]
@[simp] theorem sramWrite_tlbis (a : Nat) (b : List Byte) (s : State) : (sramWrite a b s).tlbis = s.tlbis := by simp [sramWrite]
@[simp] theorem sramWrite_images (a : Nat) (b : List Byte) (s : State) : (sramWrite a b s).images = s.images := by simp [sramWrite]
@[simp] theorem sramWrite_arrivals (a : Nat) (b : List Byte) (s : State) : (sramWrite a b s).arrivals = s.arrivals := by simp [sramWrite]
@[simp] theorem sramWrite_hostOut (a : Nat) (b : List Byte) (s : State) : (sramWrite a b s).hostOut = s.hostOut := by simp [sramWrite]
@[simp] theorem sramWrite_mem (a : Nat) (b : List Byte) (s : State) : (sramWrite a b s).mem = memWrite s.mem a b := by
  simp [sramWrite]
@[simp] theorem me_sramWrite (a : Nat) (b : List Byte) (s : State) : (sramWrite a b s).me = s.me := by
  simp [State.me, strandAt]

/-- The full/empty wait list does not change with a write. -/
@[simp] theorem coreAt_noteWrite_fe (c a n d : Nat) (s : State) : (coreAt (noteWrite c a n s) d).fe = (coreAt s d).fe := by
  unfold noteWrite
  simp only
  split
  · rw [foldl_sched (fun s => (coreAt s d).fe) (fun _ _ _ => rfl), foldl_sched (fun s => (coreAt s d).fe) (fun _ _ _ => rfl)]
    by_cases h : d = c
    · subst h; simp
    · rw [coreAt_modCore_ne _ _ h]
  · rfl
@[simp] theorem coreAt_sramWrite_fe (a d : Nat) (b : List Byte) (s : State) : (coreAt (sramWrite a b s) d).fe = (coreAt s d).fe := by
  simp [sramWrite]

theorem leNat_memRead (s : State) (a n : Nat) : leNat (memRead s.mem a n) = le s a n := by
  induction n generalizing a with
  | zero => rfl
  | succ n ih =>
    rw [le, ← ih]
    simp only [memRead, List.range_succ_eq_map, List.map_cons, List.map_map, leNat, Nat.add_zero]
    congr 3
    apply List.map_congr_left
    intro i _
    simp only [Function.comp]
    congr 1
    omega

theorem le_lt (s : State) (a n : Nat) : le s a n < 256 ^ n := by
  induction n generalizing a with
  | zero => simp [le]
  | succ n ih =>
    have h1 := (memGet s.mem a).isLt
    have h2 := ih (a + 1)
    rw [le, pow_succ]
    omega

end Sys2Proof.Machine
end

