-- ==== Sys2Proof/Laws/PerInstr.lean ====
section
/-! SUPPORT. Per-instruction families: decoding the word that the encoder gives a well-formed instruction gives the
instruction back. -/

namespace Sys2Proof.Laws

open Sys2Proof

set_option linter.unusedSimpArgs false

/-- The round trip of one instruction: whatever word the encoder gives it decodes to it. -/
def RoundTrip.Statement (i : Instr) : Prop :=
  i.wf = true → ∀ w, encode i = some w → decode w = .ok i

/-- A step without an encoding has nothing to decode. -/
theorem noWord {i : Instr} (h : encode i = none) : RoundTrip.Statement i := by
  intro _ w hw
  rw [h] at hw
  cases hw

theorem hit {w m f : IWord} (h : w &&& m = f) : rowMatches w m f = true := by simp [h]

/-- A word with the fixed bits of one row does not have those of a row that differs on a common fixed bit. -/
theorem miss {w m f n g : IWord} (h : w &&& m = f) (hne : f &&& n ≠ g &&& m) : rowMatches w n g = false := by
  simp only [beq_eq_false_iff_ne]
  intro hg
  exact hne (by rw [← h, ← hg, BitVec.and_assoc, BitVec.and_assoc, BitVec.and_comm m n])

/-- The two parts of a branch offset (R42). -/
theorem offset_join (o : BitVec 12) : o.extractLsb' 5 7 ++ o.extractLsb' 0 5 = o := by
  rw [BitVec.extractLsb'_append_extractLsb'_eq_extractLsb' (by decide)]
  exact BitVec.extractLsb'_eq_self

/-- The rows of a major. -/
noncomputable def rowOf (m : Nat) (w : IWord) : Option Instr :=
  match m with
  | 1 => decodeLd w
  | 2 => decodeLdx w
  | 3 => decodeSt w
  | 4 => decodeStx w
  | 5 => decodeOpi w
  | 6 => decodeOp w
  | 7 => decodeLui w
  | 8 => decodeAuipc w
  | 9 => decodeBranch w
  | 10 => decodeJal w
  | 11 => decodeJalr w
  | 12 => decodeFop w
  | 13 => decodeAmo w
  | 14 => decodeFe w
  | 15 => decodeFence w
  | 16 => decodeTile w
  | 17 => decodeTravel w
  | 18 => decodeSym w
  | 19 => decodeTask w
  | 20 => decodeRing w
  | 21 => decodeBar w
  | 22 => decodeVop w
  | 23 => decodeViop w
  | 24 => decodeVmem w
  | 25 => decodeVred w
  | 26 => decodeVcvt w
  | 27 => decodeMma w
  | 28 => decodeMacc w
  | 29 => decodeCopy w
  | 30 => decodeCaller w
  | 31 => decodeSystem w
  | _ => none

theorem decodeRow_rowOf {w : IWord} {i : Instr} (h : rowOf (w.extractLsb' 1 6).toNat w = some i) : decodeRow w = .ok i := by
  unfold decodeRow
  unfold rowOf at h
  split at h <;> simp_all

theorem major_of {w m f : IWord} (h : w &&& m = f) (hm : m &&& 0x7E = 0x7E) : w.extractLsb' 1 6 = f.extractLsb' 1 6 := by
  have h2 : w &&& 0x7E = f &&& 0x7E := by rw [← hm, ← BitVec.and_assoc, h, ← BitVec.and_assoc, ← h, BitVec.and_assoc w m m, BitVec.and_self]
  have h3 := congrArg (fun x => x.extractLsb' 1 6) h2
  simp only [BitVec.extractLsb'_and] at h3
  have h4 : (0x7E : IWord).extractLsb' 1 6 = BitVec.allOnes 6 := by decide
  rwa [h4, BitVec.and_allOnes, BitVec.and_allOnes] at h3

/-- From the fixed bits of the word and the row that its major finds. -/
theorem reads {i : Instr} {w m f : IWord} (h : w &&& m = f) (hm : m &&& 0x7E = 0x7E) (he : encode i = some w)
    (hr : rowOf (f.extractLsb' 1 6).toNat w = some i) : RoundTrip.Statement i := by
  intro hwf w' hw
  obtain rfl : w = w' := Option.some.inj (he.symm.trans hw)
  rw [← major_of h hm] at hr
  simp [decode, decodeRow_rowOf hr, hwf]

theorem RoundTrip.ldB (i : BitVec 6) (n : BitVec 6) (x : BitVec 5) (d : BitVec 5) (k : BitVec 1) : RoundTrip.Statement (.ldB i n x d k) := by
  have h : (i ++ n ++ x ++ 0#3 ++ d ++ 1#6 ++ k : IWord) &&& 0x0000707E = 0x00000002 := by
    rw [show (0x0000707E : IWord) = 0#6 ++ 0#6 ++ 0#5 ++ 7#3 ++ 0#5 ++ 63#6 ++ 0#1 from rfl]
    simp only [BitVec.and_append, BitVec.and_zero, BitVec.reduceAnd]; decide
  refine reads h (by decide) rfl ?_
  refine (if_pos (hit h)).trans ?_
  simp (disch := decide) only [BitVec.extractLsb'_append_eq_of_le, BitVec.extractLsb'_append_eq_of_add_le, BitVec.extractLsb'_eq_self, Nat.reduceSub]

theorem RoundTrip.ldH (i : BitVec 6) (n : BitVec 6) (x : BitVec 5) (d : BitVec 5) (k : BitVec 1) : RoundTrip.Statement (.ldH i n x d k) := by
  have h : (i ++ n ++ x ++ 1#3 ++ d ++ 1#6 ++ k : IWord) &&& 0x0000707E = 0x00001002 := by
    rw [show (0x0000707E : IWord) = 0#6 ++ 0#6 ++ 0#5 ++ 7#3 ++ 0#5 ++ 63#6 ++ 0#1 from rfl]
    simp only [BitVec.and_append, BitVec.and_zero, BitVec.reduceAnd]; decide
  refine reads h (by decide) rfl ?_
  refine (if_neg (ne_true_of_eq_false (miss h (by decide)))).trans <| (if_pos (hit h)).trans ?_
  simp (disch := decide) only [BitVec.extractLsb'_append_eq_of_le, BitVec.extractLsb'_append_eq_of_add_le, BitVec.extractLsb'_eq_self, Nat.reduceSub]

theorem RoundTrip.ldW (i : BitVec 6) (n : BitVec 6) (x : BitVec 5) (d : BitVec 5) (k : BitVec 1) : RoundTrip.Statement (.ldW i n x d k) := by
  have h : (i ++ n ++ x ++ 2#3 ++ d ++ 1#6 ++ k : IWord) &&& 0x0000707E = 0x00002002 := by
    rw [show (0x0000707E : IWord) = 0#6 ++ 0#6 ++ 0#5 ++ 7#3 ++ 0#5 ++ 63#6 ++ 0#1 from rfl]
    simp only [BitVec.and_append, BitVec.and_zero, BitVec.reduceAnd]; decide
  refine reads h (by decide) rfl ?_
  refine (if_neg (ne_true_of_eq_false (miss h (by decide)))).trans <| (if_neg (ne_true_of_eq_false (miss h (by decide)))).trans <| (if_pos (hit h)).trans ?_
  simp (disch := decide) only [BitVec.extractLsb'_append_eq_of_le, BitVec.extractLsb'_append_eq_of_add_le, BitVec.extractLsb'_eq_self, Nat.reduceSub]

theorem RoundTrip.ldD (i : BitVec 6) (n : BitVec 6) (x : BitVec 5) (d : BitVec 5) (k : BitVec 1) : RoundTrip.Statement (.ldD i n x d k) := by
  have h : (i ++ n ++ x ++ 3#3 ++ d ++ 1#6 ++ k : IWord) &&& 0x0000707E = 0x00003002 := by
    rw [show (0x0000707E : IWord) = 0#6 ++ 0#6 ++ 0#5 ++ 7#3 ++ 0#5 ++ 63#6 ++ 0#1 from rfl]
    simp only [BitVec.and_append, BitVec.and_zero, BitVec.reduceAnd]; decide
  refine reads h (by decide) rfl ?_
  refine (if_neg (ne_true_of_eq_false (miss h (by decide)))).trans <| (if_neg (ne_true_of_eq_false (miss h (by decide)))).trans <| (if_neg (ne_true_of_eq_false (miss h (by decide)))).trans <| (if_pos (hit h)).trans ?_
  simp (disch := decide) only [BitVec.extractLsb'_append_eq_of_le, BitVec.extractLsb'_append_eq_of_add_le, BitVec.extractLsb'_eq_self, Nat.reduceSub]

theorem RoundTrip.ldBu (i : BitVec 6) (n : BitVec 6) (x : BitVec 5) (d : BitVec 5) (k : BitVec 1) : RoundTrip.Statement (.ldBu i n x d k) := by
  have h : (i ++ n ++ x ++ 4#3 ++ d ++ 1#6 ++ k : IWord) &&& 0x0000707E = 0x00004002 := by
    rw [show (0x0000707E : IWord) = 0#6 ++ 0#6 ++ 0#5 ++ 7#3 ++ 0#5 ++ 63#6 ++ 0#1 from rfl]
    simp only [BitVec.and_append, BitVec.and_zero, BitVec.reduceAnd]; decide
  refine reads h (by decide) rfl ?_
  refine (if_neg (ne_true_of_eq_false (miss h (by decide)))).trans <| (if_neg (ne_true_of_eq_false (miss h (by decide)))).trans <| (if_neg (ne_true_of_eq_false (miss h (by decide)))).trans <| (if_neg (ne_true_of_eq_false (miss h (by decide)))).trans <| (if_pos (hit h)).trans ?_
  simp (disch := decide) only [BitVec.extractLsb'_append_eq_of_le, BitVec.extractLsb'_append_eq_of_add_le, BitVec.extractLsb'_eq_self, Nat.reduceSub]

theorem RoundTrip.ldHu (i : BitVec 6) (n : BitVec 6) (x : BitVec 5) (d : BitVec 5) (k : BitVec 1) : RoundTrip.Statement (.ldHu i n x d k) := by
  have h : (i ++ n ++ x ++ 5#3 ++ d ++ 1#6 ++ k : IWord) &&& 0x0000707E = 0x00005002 := by
    rw [show (0x0000707E : IWord) = 0#6 ++ 0#6 ++ 0#5 ++ 7#3 ++ 0#5 ++ 63#6 ++ 0#1 from rfl]
    simp only [BitVec.and_append, BitVec.and_zero, BitVec.reduceAnd]; decide
  refine reads h (by decide) rfl ?_
  refine (if_neg (ne_true_of_eq_false (miss h (by decide)))).trans <| (if_neg (ne_true_of_eq_false (miss h (by decide)))).trans <| (if_neg (ne_true_of_eq_false (miss h (by decide)))).trans <| (if_neg (ne_true_of_eq_false (miss h (by decide)))).trans <| (if_neg (ne_true_of_eq_false (miss h (by decide)))).trans <| (if_pos (hit h)).trans ?_
  simp (disch := decide) only [BitVec.extractLsb'_append_eq_of_le, BitVec.extractLsb'_append_eq_of_add_le, BitVec.extractLsb'_eq_self, Nat.reduceSub]

theorem RoundTrip.ldWu (i : BitVec 6) (n : BitVec 6) (x : BitVec 5) (d : BitVec 5) (k : BitVec 1) : RoundTrip.Statement (.ldWu i n x d k) := by
  have h : (i ++ n ++ x ++ 6#3 ++ d ++ 1#6 ++ k : IWord) &&& 0x0000707E = 0x00006002 := by
    rw [show (0x0000707E : IWord) = 0#6 ++ 0#6 ++ 0#5 ++ 7#3 ++ 0#5 ++ 63#6 ++ 0#1 from rfl]
    simp only [BitVec.and_append, BitVec.and_zero, BitVec.reduceAnd]; decide
  refine reads h (by decide) rfl ?_
  refine (if_neg (ne_true_of_eq_false (miss h (by decide)))).trans <| (if_neg (ne_true_of_eq_false (miss h (by decide)))).trans <| (if_neg (ne_true_of_eq_false (miss h (by decide)))).trans <| (if_neg (ne_true_of_eq_false (miss h (by decide)))).trans <| (if_neg (ne_true_of_eq_false (miss h (by decide)))).trans <| (if_neg (ne_true_of_eq_false (miss h (by decide)))).trans <| (if_pos (hit h)).trans ?_
  simp (disch := decide) only [BitVec.extractLsb'_append_eq_of_le, BitVec.extractLsb'_append_eq_of_add_le, BitVec.extractLsb'_eq_self, Nat.reduceSub]

theorem RoundTrip.ldBMx (o : BitVec 2) (p : BitVec 2) (n : BitVec 6) (x : BitVec 5) (d : BitVec 5) (k : BitVec 1) : RoundTrip.Statement (.ldBMx o p n x d k) := by
  have h : (o ++ p ++ 0#2 ++ n ++ x ++ 0#3 ++ d ++ 2#6 ++ k : IWord) &&& 0x0C00707E = 0x00000004 := by
    rw [show (0x0C00707E : IWord) = 0#2 ++ 0#2 ++ 3#2 ++ 0#6 ++ 0#5 ++ 7#3 ++ 0#5 ++ 63#6 ++ 0#1 from rfl]
    simp only [BitVec.and_append, BitVec.and_zero, BitVec.reduceAnd]; decide
  refine reads h (by decide) rfl ?_
  refine (if_pos (hit h)).trans ?_
  simp (disch := decide) only [BitVec.extractLsb'_append_eq_of_le, BitVec.extractLsb'_append_eq_of_add_le, BitVec.extractLsb'_eq_self, Nat.reduceSub]

theorem RoundTrip.ldHMx (o : BitVec 2) (p : BitVec 2) (n : BitVec 6) (x : BitVec 5) (d : BitVec 5) (k : BitVec 1) : RoundTrip.Statement (.ldHMx o p n x d k) := by
  have h : (o ++ p ++ 0#2 ++ n ++ x ++ 1#3 ++ d ++ 2#6 ++ k : IWord) &&& 0x0C00707E = 0x00001004 := by
    rw [show (0x0C00707E : IWord) = 0#2 ++ 0#2 ++ 3#2 ++ 0#6 ++ 0#5 ++ 7#3 ++ 0#5 ++ 63#6 ++ 0#1 from rfl]
    simp only [BitVec.and_append, BitVec.and_zero, BitVec.reduceAnd]; decide
  refine reads h (by decide) rfl ?_
  refine (if_neg (ne_true_of_eq_false (miss h (by decide)))).trans <| (if_pos (hit h)).trans ?_
  simp (disch := decide) only [BitVec.extractLsb'_append_eq_of_le, BitVec.extractLsb'_append_eq_of_add_le, BitVec.extractLsb'_eq_self, Nat.reduceSub]

theorem RoundTrip.ldWMx (o : BitVec 2) (p : BitVec 2) (n : BitVec 6) (x : BitVec 5) (d : BitVec 5) (k : BitVec 1) : RoundTrip.Statement (.ldWMx o p n x d k) := by
  have h : (o ++ p ++ 0#2 ++ n ++ x ++ 2#3 ++ d ++ 2#6 ++ k : IWord) &&& 0x0C00707E = 0x00002004 := by
    rw [show (0x0C00707E : IWord) = 0#2 ++ 0#2 ++ 3#2 ++ 0#6 ++ 0#5 ++ 7#3 ++ 0#5 ++ 63#6 ++ 0#1 from rfl]
    simp only [BitVec.and_append, BitVec.and_zero, BitVec.reduceAnd]; decide
  refine reads h (by decide) rfl ?_
  refine (if_neg (ne_true_of_eq_false (miss h (by decide)))).trans <| (if_neg (ne_true_of_eq_false (miss h (by decide)))).trans <| (if_pos (hit h)).trans ?_
  simp (disch := decide) only [BitVec.extractLsb'_append_eq_of_le, BitVec.extractLsb'_append_eq_of_add_le, BitVec.extractLsb'_eq_self, Nat.reduceSub]

theorem RoundTrip.ldDMx (o : BitVec 2) (p : BitVec 2) (n : BitVec 6) (x : BitVec 5) (d : BitVec 5) (k : BitVec 1) : RoundTrip.Statement (.ldDMx o p n x d k) := by
  have h : (o ++ p ++ 0#2 ++ n ++ x ++ 3#3 ++ d ++ 2#6 ++ k : IWord) &&& 0x0C00707E = 0x00003004 := by
    rw [show (0x0C00707E : IWord) = 0#2 ++ 0#2 ++ 3#2 ++ 0#6 ++ 0#5 ++ 7#3 ++ 0#5 ++ 63#6 ++ 0#1 from rfl]
    simp only [BitVec.and_append, BitVec.and_zero, BitVec.reduceAnd]; decide
  refine reads h (by decide) rfl ?_
  refine (if_neg (ne_true_of_eq_false (miss h (by decide)))).trans <| (if_neg (ne_true_of_eq_false (miss h (by decide)))).trans <| (if_neg (ne_true_of_eq_false (miss h (by decide)))).trans <| (if_pos (hit h)).trans ?_
  simp (disch := decide) only [BitVec.extractLsb'_append_eq_of_le, BitVec.extractLsb'_append_eq_of_add_le, BitVec.extractLsb'_eq_self, Nat.reduceSub]

theorem RoundTrip.ldBuMx (o : BitVec 2) (p : BitVec 2) (n : BitVec 6) (x : BitVec 5) (d : BitVec 5) (k : BitVec 1) : RoundTrip.Statement (.ldBuMx o p n x d k) := by
  have h : (o ++ p ++ 0#2 ++ n ++ x ++ 4#3 ++ d ++ 2#6 ++ k : IWord) &&& 0x0C00707E = 0x00004004 := by
    rw [show (0x0C00707E : IWord) = 0#2 ++ 0#2 ++ 3#2 ++ 0#6 ++ 0#5 ++ 7#3 ++ 0#5 ++ 63#6 ++ 0#1 from rfl]
    simp only [BitVec.and_append, BitVec.and_zero, BitVec.reduceAnd]; decide
  refine reads h (by decide) rfl ?_
  refine (if_neg (ne_true_of_eq_false (miss h (by decide)))).trans <| (if_neg (ne_true_of_eq_false (miss h (by decide)))).trans <| (if_neg (ne_true_of_eq_false (miss h (by decide)))).trans <| (if_neg (ne_true_of_eq_false (miss h (by decide)))).trans <| (if_pos (hit h)).trans ?_
  simp (disch := decide) only [BitVec.extractLsb'_append_eq_of_le, BitVec.extractLsb'_append_eq_of_add_le, BitVec.extractLsb'_eq_self, Nat.reduceSub]

theorem RoundTrip.ldHuMx (o : BitVec 2) (p : BitVec 2) (n : BitVec 6) (x : BitVec 5) (d : BitVec 5) (k : BitVec 1) : RoundTrip.Statement (.ldHuMx o p n x d k) := by
  have h : (o ++ p ++ 0#2 ++ n ++ x ++ 5#3 ++ d ++ 2#6 ++ k : IWord) &&& 0x0C00707E = 0x00005004 := by
    rw [show (0x0C00707E : IWord) = 0#2 ++ 0#2 ++ 3#2 ++ 0#6 ++ 0#5 ++ 7#3 ++ 0#5 ++ 63#6 ++ 0#1 from rfl]
    simp only [BitVec.and_append, BitVec.and_zero, BitVec.reduceAnd]; decide
  refine reads h (by decide) rfl ?_
  refine (if_neg (ne_true_of_eq_false (miss h (by decide)))).trans <| (if_neg (ne_true_of_eq_false (miss h (by decide)))).trans <| (if_neg (ne_true_of_eq_false (miss h (by decide)))).trans <| (if_neg (ne_true_of_eq_false (miss h (by decide)))).trans <| (if_neg (ne_true_of_eq_false (miss h (by decide)))).trans <| (if_pos (hit h)).trans ?_
  simp (disch := decide) only [BitVec.extractLsb'_append_eq_of_le, BitVec.extractLsb'_append_eq_of_add_le, BitVec.extractLsb'_eq_self, Nat.reduceSub]

theorem RoundTrip.ldWuMx (o : BitVec 2) (p : BitVec 2) (n : BitVec 6) (x : BitVec 5) (d : BitVec 5) (k : BitVec 1) : RoundTrip.Statement (.ldWuMx o p n x d k) := by
  have h : (o ++ p ++ 0#2 ++ n ++ x ++ 6#3 ++ d ++ 2#6 ++ k : IWord) &&& 0x0C00707E = 0x00006004 := by
    rw [show (0x0C00707E : IWord) = 0#2 ++ 0#2 ++ 3#2 ++ 0#6 ++ 0#5 ++ 7#3 ++ 0#5 ++ 63#6 ++ 0#1 from rfl]
    simp only [BitVec.and_append, BitVec.and_zero, BitVec.reduceAnd]; decide
  refine reads h (by decide) rfl ?_
  refine (if_neg (ne_true_of_eq_false (miss h (by decide)))).trans <| (if_neg (ne_true_of_eq_false (miss h (by decide)))).trans <| (if_neg (ne_true_of_eq_false (miss h (by decide)))).trans <| (if_neg (ne_true_of_eq_false (miss h (by decide)))).trans <| (if_neg (ne_true_of_eq_false (miss h (by decide)))).trans <| (if_neg (ne_true_of_eq_false (miss h (by decide)))).trans <| (if_pos (hit h)).trans ?_
  simp (disch := decide) only [BitVec.extractLsb'_append_eq_of_le, BitVec.extractLsb'_append_eq_of_add_le, BitVec.extractLsb'_eq_self, Nat.reduceSub]

theorem RoundTrip.stB (i : BitVec 6) (n : BitVec 6) (x : BitVec 5) (s : BitVec 5) (k : BitVec 1) : RoundTrip.Statement (.stB i n x s k) := by
  have h : (i ++ n ++ x ++ 0#3 ++ s ++ 3#6 ++ k : IWord) &&& 0x0000707E = 0x00000006 := by
    rw [show (0x0000707E : IWord) = 0#6 ++ 0#6 ++ 0#5 ++ 7#3 ++ 0#5 ++ 63#6 ++ 0#1 from rfl]
    simp only [BitVec.and_append, BitVec.and_zero, BitVec.reduceAnd]; decide
  refine reads h (by decide) rfl ?_
  refine (if_pos (hit h)).trans ?_
  simp (disch := decide) only [BitVec.extractLsb'_append_eq_of_le, BitVec.extractLsb'_append_eq_of_add_le, BitVec.extractLsb'_eq_self, Nat.reduceSub]

theorem RoundTrip.stH (i : BitVec 6) (n : BitVec 6) (x : BitVec 5) (s : BitVec 5) (k : BitVec 1) : RoundTrip.Statement (.stH i n x s k) := by
  have h : (i ++ n ++ x ++ 1#3 ++ s ++ 3#6 ++ k : IWord) &&& 0x0000707E = 0x00001006 := by
    rw [show (0x0000707E : IWord) = 0#6 ++ 0#6 ++ 0#5 ++ 7#3 ++ 0#5 ++ 63#6 ++ 0#1 from rfl]
    simp only [BitVec.and_append, BitVec.and_zero, BitVec.reduceAnd]; decide
  refine reads h (by decide) rfl ?_
  refine (if_neg (ne_true_of_eq_false (miss h (by decide)))).trans <| (if_pos (hit h)).trans ?_
  simp (disch := decide) only [BitVec.extractLsb'_append_eq_of_le, BitVec.extractLsb'_append_eq_of_add_le, BitVec.extractLsb'_eq_self, Nat.reduceSub]

theorem RoundTrip.stW (i : BitVec 6) (n : BitVec 6) (x : BitVec 5) (s : BitVec 5) (k : BitVec 1) : RoundTrip.Statement (.stW i n x s k) := by
  have h : (i ++ n ++ x ++ 2#3 ++ s ++ 3#6 ++ k : IWord) &&& 0x0000707E = 0x00002006 := by
    rw [show (0x0000707E : IWord) = 0#6 ++ 0#6 ++ 0#5 ++ 7#3 ++ 0#5 ++ 63#6 ++ 0#1 from rfl]
    simp only [BitVec.and_append, BitVec.and_zero, BitVec.reduceAnd]; decide
  refine reads h (by decide) rfl ?_
  refine (if_neg (ne_true_of_eq_false (miss h (by decide)))).trans <| (if_neg (ne_true_of_eq_false (miss h (by decide)))).trans <| (if_pos (hit h)).trans ?_
  simp (disch := decide) only [BitVec.extractLsb'_append_eq_of_le, BitVec.extractLsb'_append_eq_of_add_le, BitVec.extractLsb'_eq_self, Nat.reduceSub]

theorem RoundTrip.stD (i : BitVec 6) (n : BitVec 6) (x : BitVec 5) (s : BitVec 5) (k : BitVec 1) : RoundTrip.Statement (.stD i n x s k) := by
  have h : (i ++ n ++ x ++ 3#3 ++ s ++ 3#6 ++ k : IWord) &&& 0x0000707E = 0x00003006 := by
    rw [show (0x0000707E : IWord) = 0#6 ++ 0#6 ++ 0#5 ++ 7#3 ++ 0#5 ++ 63#6 ++ 0#1 from rfl]
    simp only [BitVec.and_append, BitVec.and_zero, BitVec.reduceAnd]; decide
  refine reads h (by decide) rfl ?_
  refine (if_neg (ne_true_of_eq_false (miss h (by decide)))).trans <| (if_neg (ne_true_of_eq_false (miss h (by decide)))).trans <| (if_neg (ne_true_of_eq_false (miss h (by decide)))).trans <| (if_pos (hit h)).trans ?_
  simp (disch := decide) only [BitVec.extractLsb'_append_eq_of_le, BitVec.extractLsb'_append_eq_of_add_le, BitVec.extractLsb'_eq_self, Nat.reduceSub]

theorem RoundTrip.stBMx (o : BitVec 2) (p : BitVec 2) (n : BitVec 6) (x : BitVec 5) (s : BitVec 5) (k : BitVec 1) : RoundTrip.Statement (.stBMx o p n x s k) := by
  have h : (o ++ p ++ 0#2 ++ n ++ x ++ 0#3 ++ s ++ 4#6 ++ k : IWord) &&& 0x0C00707E = 0x00000008 := by
    rw [show (0x0C00707E : IWord) = 0#2 ++ 0#2 ++ 3#2 ++ 0#6 ++ 0#5 ++ 7#3 ++ 0#5 ++ 63#6 ++ 0#1 from rfl]
    simp only [BitVec.and_append, BitVec.and_zero, BitVec.reduceAnd]; decide
  refine reads h (by decide) rfl ?_
  refine (if_pos (hit h)).trans ?_
  simp (disch := decide) only [BitVec.extractLsb'_append_eq_of_le, BitVec.extractLsb'_append_eq_of_add_le, BitVec.extractLsb'_eq_self, Nat.reduceSub]

theorem RoundTrip.stHMx (o : BitVec 2) (p : BitVec 2) (n : BitVec 6) (x : BitVec 5) (s : BitVec 5) (k : BitVec 1) : RoundTrip.Statement (.stHMx o p n x s k) := by
  have h : (o ++ p ++ 0#2 ++ n ++ x ++ 1#3 ++ s ++ 4#6 ++ k : IWord) &&& 0x0C00707E = 0x00001008 := by
    rw [show (0x0C00707E : IWord) = 0#2 ++ 0#2 ++ 3#2 ++ 0#6 ++ 0#5 ++ 7#3 ++ 0#5 ++ 63#6 ++ 0#1 from rfl]
    simp only [BitVec.and_append, BitVec.and_zero, BitVec.reduceAnd]; decide
  refine reads h (by decide) rfl ?_
  refine (if_neg (ne_true_of_eq_false (miss h (by decide)))).trans <| (if_pos (hit h)).trans ?_
  simp (disch := decide) only [BitVec.extractLsb'_append_eq_of_le, BitVec.extractLsb'_append_eq_of_add_le, BitVec.extractLsb'_eq_self, Nat.reduceSub]

theorem RoundTrip.stWMx (o : BitVec 2) (p : BitVec 2) (n : BitVec 6) (x : BitVec 5) (s : BitVec 5) (k : BitVec 1) : RoundTrip.Statement (.stWMx o p n x s k) := by
  have h : (o ++ p ++ 0#2 ++ n ++ x ++ 2#3 ++ s ++ 4#6 ++ k : IWord) &&& 0x0C00707E = 0x00002008 := by
    rw [show (0x0C00707E : IWord) = 0#2 ++ 0#2 ++ 3#2 ++ 0#6 ++ 0#5 ++ 7#3 ++ 0#5 ++ 63#6 ++ 0#1 from rfl]
    simp only [BitVec.and_append, BitVec.and_zero, BitVec.reduceAnd]; decide
  refine reads h (by decide) rfl ?_
  refine (if_neg (ne_true_of_eq_false (miss h (by decide)))).trans <| (if_neg (ne_true_of_eq_false (miss h (by decide)))).trans <| (if_pos (hit h)).trans ?_
  simp (disch := decide) only [BitVec.extractLsb'_append_eq_of_le, BitVec.extractLsb'_append_eq_of_add_le, BitVec.extractLsb'_eq_self, Nat.reduceSub]

theorem RoundTrip.stDMx (o : BitVec 2) (p : BitVec 2) (n : BitVec 6) (x : BitVec 5) (s : BitVec 5) (k : BitVec 1) : RoundTrip.Statement (.stDMx o p n x s k) := by
  have h : (o ++ p ++ 0#2 ++ n ++ x ++ 3#3 ++ s ++ 4#6 ++ k : IWord) &&& 0x0C00707E = 0x00003008 := by
    rw [show (0x0C00707E : IWord) = 0#2 ++ 0#2 ++ 3#2 ++ 0#6 ++ 0#5 ++ 7#3 ++ 0#5 ++ 63#6 ++ 0#1 from rfl]
    simp only [BitVec.and_append, BitVec.and_zero, BitVec.reduceAnd]; decide
  refine reads h (by decide) rfl ?_
  refine (if_neg (ne_true_of_eq_false (miss h (by decide)))).trans <| (if_neg (ne_true_of_eq_false (miss h (by decide)))).trans <| (if_neg (ne_true_of_eq_false (miss h (by decide)))).trans <| (if_pos (hit h)).trans ?_
  simp (disch := decide) only [BitVec.extractLsb'_append_eq_of_le, BitVec.extractLsb'_append_eq_of_add_le, BitVec.extractLsb'_eq_self, Nat.reduceSub]

theorem RoundTrip.amoAdd (o : BitVec 2) (n : BitVec 6) (x : BitVec 5) (z : BitVec 1) (d : BitVec 5) (k : BitVec 1) : RoundTrip.Statement (.amoAdd o n x z d k) := by
  have h : (o ++ 0#4 ++ n ++ x ++ 1#2 ++ z ++ d ++ 13#6 ++ k : IWord) &&& 0x3C00607E = 0x0000201A := by
    rw [show (0x3C00607E : IWord) = 0#2 ++ 15#4 ++ 0#6 ++ 0#5 ++ 3#2 ++ 0#1 ++ 0#5 ++ 63#6 ++ 0#1 from rfl]
    simp only [BitVec.and_append, BitVec.and_zero, BitVec.reduceAnd]; decide
  refine reads h (by decide) rfl ?_
  refine (if_pos (hit h)).trans ?_
  simp (disch := decide) only [BitVec.extractLsb'_append_eq_of_le, BitVec.extractLsb'_append_eq_of_add_le, BitVec.extractLsb'_eq_self, Nat.reduceSub]

theorem RoundTrip.amoSwap (o : BitVec 2) (n : BitVec 6) (x : BitVec 5) (z : BitVec 1) (d : BitVec 5) (k : BitVec 1) : RoundTrip.Statement (.amoSwap o n x z d k) := by
  have h : (o ++ 1#4 ++ n ++ x ++ 1#2 ++ z ++ d ++ 13#6 ++ k : IWord) &&& 0x3C00607E = 0x0400201A := by
    rw [show (0x3C00607E : IWord) = 0#2 ++ 15#4 ++ 0#6 ++ 0#5 ++ 3#2 ++ 0#1 ++ 0#5 ++ 63#6 ++ 0#1 from rfl]
    simp only [BitVec.and_append, BitVec.and_zero, BitVec.reduceAnd]; decide
  refine reads h (by decide) rfl ?_
  refine (if_neg (ne_true_of_eq_false (miss h (by decide)))).trans <| (if_pos (hit h)).trans ?_
  simp (disch := decide) only [BitVec.extractLsb'_append_eq_of_le, BitVec.extractLsb'_append_eq_of_add_le, BitVec.extractLsb'_eq_self, Nat.reduceSub]

theorem RoundTrip.amoAnd (o : BitVec 2) (n : BitVec 6) (x : BitVec 5) (z : BitVec 1) (d : BitVec 5) (k : BitVec 1) : RoundTrip.Statement (.amoAnd o n x z d k) := by
  have h : (o ++ 2#4 ++ n ++ x ++ 1#2 ++ z ++ d ++ 13#6 ++ k : IWord) &&& 0x3C00607E = 0x0800201A := by
    rw [show (0x3C00607E : IWord) = 0#2 ++ 15#4 ++ 0#6 ++ 0#5 ++ 3#2 ++ 0#1 ++ 0#5 ++ 63#6 ++ 0#1 from rfl]
    simp only [BitVec.and_append, BitVec.and_zero, BitVec.reduceAnd]; decide
  refine reads h (by decide) rfl ?_
  refine (if_neg (ne_true_of_eq_false (miss h (by decide)))).trans <| (if_neg (ne_true_of_eq_false (miss h (by decide)))).trans <| (if_pos (hit h)).trans ?_
  simp (disch := decide) only [BitVec.extractLsb'_append_eq_of_le, BitVec.extractLsb'_append_eq_of_add_le, BitVec.extractLsb'_eq_self, Nat.reduceSub]

theorem RoundTrip.amoOr (o : BitVec 2) (n : BitVec 6) (x : BitVec 5) (z : BitVec 1) (d : BitVec 5) (k : BitVec 1) : RoundTrip.Statement (.amoOr o n x z d k) := by
  have h : (o ++ 3#4 ++ n ++ x ++ 1#2 ++ z ++ d ++ 13#6 ++ k : IWord) &&& 0x3C00607E = 0x0C00201A := by
    rw [show (0x3C00607E : IWord) = 0#2 ++ 15#4 ++ 0#6 ++ 0#5 ++ 3#2 ++ 0#1 ++ 0#5 ++ 63#6 ++ 0#1 from rfl]
    simp only [BitVec.and_append, BitVec.and_zero, BitVec.reduceAnd]; decide
  refine reads h (by decide) rfl ?_
  refine (if_neg (ne_true_of_eq_false (miss h (by decide)))).trans <| (if_neg (ne_true_of_eq_false (miss h (by decide)))).trans <| (if_neg (ne_true_of_eq_false (miss h (by decide)))).trans <| (if_pos (hit h)).trans ?_
  simp (disch := decide) only [BitVec.extractLsb'_append_eq_of_le, BitVec.extractLsb'_append_eq_of_add_le, BitVec.extractLsb'_eq_self, Nat.reduceSub]

theorem RoundTrip.amoXor (o : BitVec 2) (n : BitVec 6) (x : BitVec 5) (z : BitVec 1) (d : BitVec 5) (k : BitVec 1) : RoundTrip.Statement (.amoXor o n x z d k) := by
  have h : (o ++ 4#4 ++ n ++ x ++ 1#2 ++ z ++ d ++ 13#6 ++ k : IWord) &&& 0x3C00607E = 0x1000201A := by
    rw [show (0x3C00607E : IWord) = 0#2 ++ 15#4 ++ 0#6 ++ 0#5 ++ 3#2 ++ 0#1 ++ 0#5 ++ 63#6 ++ 0#1 from rfl]
    simp only [BitVec.and_append, BitVec.and_zero, BitVec.reduceAnd]; decide
  refine reads h (by decide) rfl ?_
  refine (if_neg (ne_true_of_eq_false (miss h (by decide)))).trans <| (if_neg (ne_true_of_eq_false (miss h (by decide)))).trans <| (if_neg (ne_true_of_eq_false (miss h (by decide)))).trans <| (if_neg (ne_true_of_eq_false (miss h (by decide)))).trans <| (if_pos (hit h)).trans ?_
  simp (disch := decide) only [BitVec.extractLsb'_append_eq_of_le, BitVec.extractLsb'_append_eq_of_add_le, BitVec.extractLsb'_eq_self, Nat.reduceSub]

theorem RoundTrip.amoMin (o : BitVec 2) (n : BitVec 6) (x : BitVec 5) (z : BitVec 1) (d : BitVec 5) (k : BitVec 1) : RoundTrip.Statement (.amoMin o n x z d k) := by
  have h : (o ++ 5#4 ++ n ++ x ++ 1#2 ++ z ++ d ++ 13#6 ++ k : IWord) &&& 0x3C00607E = 0x1400201A := by
    rw [show (0x3C00607E : IWord) = 0#2 ++ 15#4 ++ 0#6 ++ 0#5 ++ 3#2 ++ 0#1 ++ 0#5 ++ 63#6 ++ 0#1 from rfl]
    simp only [BitVec.and_append, BitVec.and_zero, BitVec.reduceAnd]; decide
  refine reads h (by decide) rfl ?_
  refine (if_neg (ne_true_of_eq_false (miss h (by decide)))).trans <| (if_neg (ne_true_of_eq_false (miss h (by decide)))).trans <| (if_neg (ne_true_of_eq_false (miss h (by decide)))).trans <| (if_neg (ne_true_of_eq_false (miss h (by decide)))).trans <| (if_neg (ne_true_of_eq_false (miss h (by decide)))).trans <| (if_pos (hit h)).trans ?_
  simp (disch := decide) only [BitVec.extractLsb'_append_eq_of_le, BitVec.extractLsb'_append_eq_of_add_le, BitVec.extractLsb'_eq_self, Nat.reduceSub]

theorem RoundTrip.amoMax (o : BitVec 2) (n : BitVec 6) (x : BitVec 5) (z : BitVec 1) (d : BitVec 5) (k : BitVec 1) : RoundTrip.Statement (.amoMax o n x z d k) := by
  have h : (o ++ 6#4 ++ n ++ x ++ 1#2 ++ z ++ d ++ 13#6 ++ k : IWord) &&& 0x3C00607E = 0x1800201A := by
    rw [show (0x3C00607E : IWord) = 0#2 ++ 15#4 ++ 0#6 ++ 0#5 ++ 3#2 ++ 0#1 ++ 0#5 ++ 63#6 ++ 0#1 from rfl]
    simp only [BitVec.and_append, BitVec.and_zero, BitVec.reduceAnd]; decide
  refine reads h (by decide) rfl ?_
  refine (if_neg (ne_true_of_eq_false (miss h (by decide)))).trans <| (if_neg (ne_true_of_eq_false (miss h (by decide)))).trans <| (if_neg (ne_true_of_eq_false (miss h (by decide)))).trans <| (if_neg (ne_true_of_eq_false (miss h (by decide)))).trans <| (if_neg (ne_true_of_eq_false (miss h (by decide)))).trans <| (if_neg (ne_true_of_eq_false (miss h (by decide)))).trans <| (if_pos (hit h)).trans ?_
  simp (disch := decide) only [BitVec.extractLsb'_append_eq_of_le, BitVec.extractLsb'_append_eq_of_add_le, BitVec.extractLsb'_eq_self, Nat.reduceSub]

theorem RoundTrip.amoMinu (o : BitVec 2) (n : BitVec 6) (x : BitVec 5) (z : BitVec 1) (d : BitVec 5) (k : BitVec 1) : RoundTrip.Statement (.amoMinu o n x z d k) := by
  have h : (o ++ 7#4 ++ n ++ x ++ 1#2 ++ z ++ d ++ 13#6 ++ k : IWord) &&& 0x3C00607E = 0x1C00201A := by
    rw [show (0x3C00607E : IWord) = 0#2 ++ 15#4 ++ 0#6 ++ 0#5 ++ 3#2 ++ 0#1 ++ 0#5 ++ 63#6 ++ 0#1 from rfl]
    simp only [BitVec.and_append, BitVec.and_zero, BitVec.reduceAnd]; decide
  refine reads h (by decide) rfl ?_
  refine (if_neg (ne_true_of_eq_false (miss h (by decide)))).trans <| (if_neg (ne_true_of_eq_false (miss h (by decide)))).trans <| (if_neg (ne_true_of_eq_false (miss h (by decide)))).trans <| (if_neg (ne_true_of_eq_false (miss h (by decide)))).trans <| (if_neg (ne_true_of_eq_false (miss h (by decide)))).trans <| (if_neg (ne_true_of_eq_false (miss h (by decide)))).trans <| (if_neg (ne_true_of_eq_false (miss h (by decide)))).trans <| (if_pos (hit h)).trans ?_
  simp (disch := decide) only [BitVec.extractLsb'_append_eq_of_le, BitVec.extractLsb'_append_eq_of_add_le, BitVec.extractLsb'_eq_self, Nat.reduceSub]

theorem RoundTrip.amoMaxu (o : BitVec 2) (n : BitVec 6) (x : BitVec 5) (z : BitVec 1) (d : BitVec 5) (k : BitVec 1) : RoundTrip.Statement (.amoMaxu o n x z d k) := by
  have h : (o ++ 8#4 ++ n ++ x ++ 1#2 ++ z ++ d ++ 13#6 ++ k : IWord) &&& 0x3C00607E = 0x2000201A := by
    rw [show (0x3C00607E : IWord) = 0#2 ++ 15#4 ++ 0#6 ++ 0#5 ++ 3#2 ++ 0#1 ++ 0#5 ++ 63#6 ++ 0#1 from rfl]
    simp only [BitVec.and_append, BitVec.and_zero, BitVec.reduceAnd]; decide
  refine reads h (by decide) rfl ?_
  refine (if_neg (ne_true_of_eq_false (miss h (by decide)))).trans <| (if_neg (ne_true_of_eq_false (miss h (by decide)))).trans <| (if_neg (ne_true_of_eq_false (miss h (by decide)))).trans <| (if_neg (ne_true_of_eq_false (miss h (by decide)))).trans <| (if_neg (ne_true_of_eq_false (miss h (by decide)))).trans <| (if_neg (ne_true_of_eq_false (miss h (by decide)))).trans <| (if_neg (ne_true_of_eq_false (miss h (by decide)))).trans <| (if_neg (ne_true_of_eq_false (miss h (by decide)))).trans <| (if_pos (hit h)).trans ?_
  simp (disch := decide) only [BitVec.extractLsb'_append_eq_of_le, BitVec.extractLsb'_append_eq_of_add_le, BitVec.extractLsb'_eq_self, Nat.reduceSub]

theorem RoundTrip.amoFaddS (o : BitVec 2) (n : BitVec 6) (x : BitVec 5) (d : BitVec 5) (k : BitVec 1) : RoundTrip.Statement (.amoFaddS o n x d k) := by
  have h : (o ++ 9#4 ++ n ++ x ++ 2#3 ++ d ++ 13#6 ++ k : IWord) &&& 0x3C00707E = 0x2400201A := by
    rw [show (0x3C00707E : IWord) = 0#2 ++ 15#4 ++ 0#6 ++ 0#5 ++ 7#3 ++ 0#5 ++ 63#6 ++ 0#1 from rfl]
    simp only [BitVec.and_append, BitVec.and_zero, BitVec.reduceAnd]; decide
  refine reads h (by decide) rfl ?_
  refine (if_neg (ne_true_of_eq_false (miss h (by decide)))).trans <| (if_neg (ne_true_of_eq_false (miss h (by decide)))).trans <| (if_neg (ne_true_of_eq_false (miss h (by decide)))).trans <| (if_neg (ne_true_of_eq_false (miss h (by decide)))).trans <| (if_neg (ne_true_of_eq_false (miss h (by decide)))).trans <| (if_neg (ne_true_of_eq_false (miss h (by decide)))).trans <| (if_neg (ne_true_of_eq_false (miss h (by decide)))).trans <| (if_neg (ne_true_of_eq_false (miss h (by decide)))).trans <| (if_neg (ne_true_of_eq_false (miss h (by decide)))).trans <| (if_pos (hit h)).trans ?_
  simp (disch := decide) only [BitVec.extractLsb'_append_eq_of_le, BitVec.extractLsb'_append_eq_of_add_le, BitVec.extractLsb'_eq_self, Nat.reduceSub]

theorem RoundTrip.amoCas (o : BitVec 2) (n : BitVec 6) (x : BitVec 5) (z : BitVec 1) (d : BitVec 5) (k : BitVec 1) : RoundTrip.Statement (.amoCas o n x z d k) := by
  have h : (o ++ 10#4 ++ n ++ x ++ 1#2 ++ z ++ d ++ 13#6 ++ k : IWord) &&& 0x3C00607E = 0x2800201A := by
    rw [show (0x3C00607E : IWord) = 0#2 ++ 15#4 ++ 0#6 ++ 0#5 ++ 3#2 ++ 0#1 ++ 0#5 ++ 63#6 ++ 0#1 from rfl]
    simp only [BitVec.and_append, BitVec.and_zero, BitVec.reduceAnd]; decide
  refine reads h (by decide) rfl ?_
  refine (if_neg (ne_true_of_eq_false (miss h (by decide)))).trans <| (if_neg (ne_true_of_eq_false (miss h (by decide)))).trans <| (if_neg (ne_true_of_eq_false (miss h (by decide)))).trans <| (if_neg (ne_true_of_eq_false (miss h (by decide)))).trans <| (if_neg (ne_true_of_eq_false (miss h (by decide)))).trans <| (if_neg (ne_true_of_eq_false (miss h (by decide)))).trans <| (if_neg (ne_true_of_eq_false (miss h (by decide)))).trans <| (if_neg (ne_true_of_eq_false (miss h (by decide)))).trans <| (if_neg (ne_true_of_eq_false (miss h (by decide)))).trans <| (if_neg (ne_true_of_eq_false (miss h (by decide)))).trans <| (if_pos (hit h)).trans ?_
  simp (disch := decide) only [BitVec.extractLsb'_append_eq_of_le, BitVec.extractLsb'_append_eq_of_add_le, BitVec.extractLsb'_eq_self, Nat.reduceSub]

theorem RoundTrip.take (o : BitVec 2) (n : BitVec 6) (x : BitVec 5) (d : BitVec 5) (k : BitVec 1) : RoundTrip.Statement (.take o n x d k) := by
  have h : (o ++ 0#4 ++ n ++ x ++ 3#3 ++ d ++ 14#6 ++ k : IWord) &&& 0x3C00707E = 0x0000301C := by
    rw [show (0x3C00707E : IWord) = 0#2 ++ 15#4 ++ 0#6 ++ 0#5 ++ 7#3 ++ 0#5 ++ 63#6 ++ 0#1 from rfl]
    simp only [BitVec.and_append, BitVec.and_zero, BitVec.reduceAnd]; decide
  refine reads h (by decide) rfl ?_
  refine (if_pos (hit h)).trans ?_
  simp (disch := decide) only [BitVec.extractLsb'_append_eq_of_le, BitVec.extractLsb'_append_eq_of_add_le, BitVec.extractLsb'_eq_self, Nat.reduceSub]

theorem RoundTrip.peek (o : BitVec 2) (n : BitVec 6) (x : BitVec 5) (d : BitVec 5) (k : BitVec 1) : RoundTrip.Statement (.peek o n x d k) := by
  have h : (o ++ 1#4 ++ n ++ x ++ 3#3 ++ d ++ 14#6 ++ k : IWord) &&& 0x3C00707E = 0x0400301C := by
    rw [show (0x3C00707E : IWord) = 0#2 ++ 15#4 ++ 0#6 ++ 0#5 ++ 7#3 ++ 0#5 ++ 63#6 ++ 0#1 from rfl]
    simp only [BitVec.and_append, BitVec.and_zero, BitVec.reduceAnd]; decide
  refine reads h (by decide) rfl ?_
  refine (if_neg (ne_true_of_eq_false (miss h (by decide)))).trans <| (if_pos (hit h)).trans ?_
  simp (disch := decide) only [BitVec.extractLsb'_append_eq_of_le, BitVec.extractLsb'_append_eq_of_add_le, BitVec.extractLsb'_eq_self, Nat.reduceSub]

theorem RoundTrip.give (o : BitVec 2) (n : BitVec 6) (x : BitVec 5) (s : BitVec 5) (k : BitVec 1) : RoundTrip.Statement (.give o n x s k) := by
  have h : (o ++ 2#4 ++ n ++ x ++ 3#3 ++ s ++ 14#6 ++ k : IWord) &&& 0x3C00707E = 0x0800301C := by
    rw [show (0x3C00707E : IWord) = 0#2 ++ 15#4 ++ 0#6 ++ 0#5 ++ 7#3 ++ 0#5 ++ 63#6 ++ 0#1 from rfl]
    simp only [BitVec.and_append, BitVec.and_zero, BitVec.reduceAnd]; decide
  refine reads h (by decide) rfl ?_
  refine (if_neg (ne_true_of_eq_false (miss h (by decide)))).trans <| (if_neg (ne_true_of_eq_false (miss h (by decide)))).trans <| (if_pos (hit h)).trans ?_
  simp (disch := decide) only [BitVec.extractLsb'_append_eq_of_le, BitVec.extractLsb'_append_eq_of_add_le, BitVec.extractLsb'_eq_self, Nat.reduceSub]

theorem RoundTrip.fill (o : BitVec 2) (n : BitVec 6) (x : BitVec 5) (s : BitVec 5) (k : BitVec 1) : RoundTrip.Statement (.fill o n x s k) := by
  have h : (o ++ 3#4 ++ n ++ x ++ 3#3 ++ s ++ 14#6 ++ k : IWord) &&& 0x3C00707E = 0x0C00301C := by
    rw [show (0x3C00707E : IWord) = 0#2 ++ 15#4 ++ 0#6 ++ 0#5 ++ 7#3 ++ 0#5 ++ 63#6 ++ 0#1 from rfl]
    simp only [BitVec.and_append, BitVec.and_zero, BitVec.reduceAnd]; decide
  refine reads h (by decide) rfl ?_
  refine (if_neg (ne_true_of_eq_false (miss h (by decide)))).trans <| (if_neg (ne_true_of_eq_false (miss h (by decide)))).trans <| (if_neg (ne_true_of_eq_false (miss h (by decide)))).trans <| (if_pos (hit h)).trans ?_
  simp (disch := decide) only [BitVec.extractLsb'_append_eq_of_le, BitVec.extractLsb'_append_eq_of_add_le, BitVec.extractLsb'_eq_self, Nat.reduceSub]

theorem RoundTrip.femark (o : BitVec 2) (n : BitVec 6) (x : BitVec 5) (k : BitVec 1) : RoundTrip.Statement (.femark o n x k) := by
  have h : (o ++ 4#4 ++ n ++ x ++ 6158#14 ++ k : IWord) &&& 0x3C007FFE = 0x1000301C := by
    rw [show (0x3C007FFE : IWord) = 0#2 ++ 15#4 ++ 0#6 ++ 0#5 ++ 16383#14 ++ 0#1 from rfl]
    simp only [BitVec.and_append, BitVec.and_zero, BitVec.reduceAnd]; decide
  refine reads h (by decide) rfl ?_
  refine (if_neg (ne_true_of_eq_false (miss h (by decide)))).trans <| (if_neg (ne_true_of_eq_false (miss h (by decide)))).trans <| (if_neg (ne_true_of_eq_false (miss h (by decide)))).trans <| (if_neg (ne_true_of_eq_false (miss h (by decide)))).trans <| (if_pos (hit h)).trans ?_
  simp (disch := decide) only [BitVec.extractLsb'_append_eq_of_le, BitVec.extractLsb'_append_eq_of_add_le, BitVec.extractLsb'_eq_self, Nat.reduceSub]

theorem RoundTrip.feclear (o : BitVec 2) (n : BitVec 6) (x : BitVec 5) (k : BitVec 1) : RoundTrip.Statement (.feclear o n x k) := by
  have h : (o ++ 5#4 ++ n ++ x ++ 6158#14 ++ k : IWord) &&& 0x3C007FFE = 0x1400301C := by
    rw [show (0x3C007FFE : IWord) = 0#2 ++ 15#4 ++ 0#6 ++ 0#5 ++ 16383#14 ++ 0#1 from rfl]
    simp only [BitVec.and_append, BitVec.and_zero, BitVec.reduceAnd]; decide
  refine reads h (by decide) rfl ?_
  refine (if_neg (ne_true_of_eq_false (miss h (by decide)))).trans <| (if_neg (ne_true_of_eq_false (miss h (by decide)))).trans <| (if_neg (ne_true_of_eq_false (miss h (by decide)))).trans <| (if_neg (ne_true_of_eq_false (miss h (by decide)))).trans <| (if_neg (ne_true_of_eq_false (miss h (by decide)))).trans <| (if_pos (hit h)).trans ?_
  simp (disch := decide) only [BitVec.extractLsb'_append_eq_of_le, BitVec.extractLsb'_append_eq_of_add_le, BitVec.extractLsb'_eq_self, Nat.reduceSub]

theorem RoundTrip.fequery (o : BitVec 2) (n : BitVec 6) (x : BitVec 5) (d : BitVec 5) (k : BitVec 1) : RoundTrip.Statement (.fequery o n x d k) := by
  have h : (o ++ 6#4 ++ n ++ x ++ 3#3 ++ d ++ 14#6 ++ k : IWord) &&& 0x3C00707E = 0x1800301C := by
    rw [show (0x3C00707E : IWord) = 0#2 ++ 15#4 ++ 0#6 ++ 0#5 ++ 7#3 ++ 0#5 ++ 63#6 ++ 0#1 from rfl]
    simp only [BitVec.and_append, BitVec.and_zero, BitVec.reduceAnd]; decide
  refine reads h (by decide) rfl ?_
  refine (if_neg (ne_true_of_eq_false (miss h (by decide)))).trans <| (if_neg (ne_true_of_eq_false (miss h (by decide)))).trans <| (if_neg (ne_true_of_eq_false (miss h (by decide)))).trans <| (if_neg (ne_true_of_eq_false (miss h (by decide)))).trans <| (if_neg (ne_true_of_eq_false (miss h (by decide)))).trans <| (if_neg (ne_true_of_eq_false (miss h (by decide)))).trans <| (if_pos (hit h)).trans ?_
  simp (disch := decide) only [BitVec.extractLsb'_append_eq_of_le, BitVec.extractLsb'_append_eq_of_add_le, BitVec.extractLsb'_eq_self, Nat.reduceSub]

theorem RoundTrip.watchEq (o : BitVec 2) (n : BitVec 6) (x : BitVec 5) (v : BitVec 5) (k : BitVec 1) : RoundTrip.Statement (.watchEq o n x v k) := by
  have h : (o ++ 8#4 ++ n ++ x ++ 3#3 ++ v ++ 14#6 ++ k : IWord) &&& 0x3C00707E = 0x2000301C := by
    rw [show (0x3C00707E : IWord) = 0#2 ++ 15#4 ++ 0#6 ++ 0#5 ++ 7#3 ++ 0#5 ++ 63#6 ++ 0#1 from rfl]
    simp only [BitVec.and_append, BitVec.and_zero, BitVec.reduceAnd]; decide
  refine reads h (by decide) rfl ?_
  refine (if_neg (ne_true_of_eq_false (miss h (by decide)))).trans <| (if_neg (ne_true_of_eq_false (miss h (by decide)))).trans <| (if_neg (ne_true_of_eq_false (miss h (by decide)))).trans <| (if_neg (ne_true_of_eq_false (miss h (by decide)))).trans <| (if_neg (ne_true_of_eq_false (miss h (by decide)))).trans <| (if_neg (ne_true_of_eq_false (miss h (by decide)))).trans <| (if_neg (ne_true_of_eq_false (miss h (by decide)))).trans <| (if_pos (hit h)).trans ?_
  simp (disch := decide) only [BitVec.extractLsb'_append_eq_of_le, BitVec.extractLsb'_append_eq_of_add_le, BitVec.extractLsb'_eq_self, Nat.reduceSub]

theorem RoundTrip.watchNe (o : BitVec 2) (n : BitVec 6) (x : BitVec 5) (v : BitVec 5) (k : BitVec 1) : RoundTrip.Statement (.watchNe o n x v k) := by
  have h : (o ++ 9#4 ++ n ++ x ++ 3#3 ++ v ++ 14#6 ++ k : IWord) &&& 0x3C00707E = 0x2400301C := by
    rw [show (0x3C00707E : IWord) = 0#2 ++ 15#4 ++ 0#6 ++ 0#5 ++ 7#3 ++ 0#5 ++ 63#6 ++ 0#1 from rfl]
    simp only [BitVec.and_append, BitVec.and_zero, BitVec.reduceAnd]; decide
  refine reads h (by decide) rfl ?_
  refine (if_neg (ne_true_of_eq_false (miss h (by decide)))).trans <| (if_neg (ne_true_of_eq_false (miss h (by decide)))).trans <| (if_neg (ne_true_of_eq_false (miss h (by decide)))).trans <| (if_neg (ne_true_of_eq_false (miss h (by decide)))).trans <| (if_neg (ne_true_of_eq_false (miss h (by decide)))).trans <| (if_neg (ne_true_of_eq_false (miss h (by decide)))).trans <| (if_neg (ne_true_of_eq_false (miss h (by decide)))).trans <| (if_neg (ne_true_of_eq_false (miss h (by decide)))).trans <| (if_pos (hit h)).trans ?_
  simp (disch := decide) only [BitVec.extractLsb'_append_eq_of_le, BitVec.extractLsb'_append_eq_of_add_le, BitVec.extractLsb'_eq_self, Nat.reduceSub]

theorem RoundTrip.watchLt (o : BitVec 2) (n : BitVec 6) (x : BitVec 5) (v : BitVec 5) (k : BitVec 1) : RoundTrip.Statement (.watchLt o n x v k) := by
  have h : (o ++ 10#4 ++ n ++ x ++ 3#3 ++ v ++ 14#6 ++ k : IWord) &&& 0x3C00707E = 0x2800301C := by
    rw [show (0x3C00707E : IWord) = 0#2 ++ 15#4 ++ 0#6 ++ 0#5 ++ 7#3 ++ 0#5 ++ 63#6 ++ 0#1 from rfl]
    simp only [BitVec.and_append, BitVec.and_zero, BitVec.reduceAnd]; decide
  refine reads h (by decide) rfl ?_
  refine (if_neg (ne_true_of_eq_false (miss h (by decide)))).trans <| (if_neg (ne_true_of_eq_false (miss h (by decide)))).trans <| (if_neg (ne_true_of_eq_false (miss h (by decide)))).trans <| (if_neg (ne_true_of_eq_false (miss h (by decide)))).trans <| (if_neg (ne_true_of_eq_false (miss h (by decide)))).trans <| (if_neg (ne_true_of_eq_false (miss h (by decide)))).trans <| (if_neg (ne_true_of_eq_false (miss h (by decide)))).trans <| (if_neg (ne_true_of_eq_false (miss h (by decide)))).trans <| (if_neg (ne_true_of_eq_false (miss h (by decide)))).trans <| (if_pos (hit h)).trans ?_
  simp (disch := decide) only [BitVec.extractLsb'_append_eq_of_le, BitVec.extractLsb'_append_eq_of_add_le, BitVec.extractLsb'_eq_self, Nat.reduceSub]

theorem RoundTrip.watchGe (o : BitVec 2) (n : BitVec 6) (x : BitVec 5) (v : BitVec 5) (k : BitVec 1) : RoundTrip.Statement (.watchGe o n x v k) := by
  have h : (o ++ 11#4 ++ n ++ x ++ 3#3 ++ v ++ 14#6 ++ k : IWord) &&& 0x3C00707E = 0x2C00301C := by
    rw [show (0x3C00707E : IWord) = 0#2 ++ 15#4 ++ 0#6 ++ 0#5 ++ 7#3 ++ 0#5 ++ 63#6 ++ 0#1 from rfl]
    simp only [BitVec.and_append, BitVec.and_zero, BitVec.reduceAnd]; decide
  refine reads h (by decide) rfl ?_
  refine (if_neg (ne_true_of_eq_false (miss h (by decide)))).trans <| (if_neg (ne_true_of_eq_false (miss h (by decide)))).trans <| (if_neg (ne_true_of_eq_false (miss h (by decide)))).trans <| (if_neg (ne_true_of_eq_false (miss h (by decide)))).trans <| (if_neg (ne_true_of_eq_false (miss h (by decide)))).trans <| (if_neg (ne_true_of_eq_false (miss h (by decide)))).trans <| (if_neg (ne_true_of_eq_false (miss h (by decide)))).trans <| (if_neg (ne_true_of_eq_false (miss h (by decide)))).trans <| (if_neg (ne_true_of_eq_false (miss h (by decide)))).trans <| (if_neg (ne_true_of_eq_false (miss h (by decide)))).trans <| (if_pos (hit h)).trans ?_
  simp (disch := decide) only [BitVec.extractLsb'_append_eq_of_le, BitVec.extractLsb'_append_eq_of_add_le, BitVec.extractLsb'_eq_self, Nat.reduceSub]

theorem RoundTrip.watchLtu (o : BitVec 2) (n : BitVec 6) (x : BitVec 5) (v : BitVec 5) (k : BitVec 1) : RoundTrip.Statement (.watchLtu o n x v k) := by
  have h : (o ++ 12#4 ++ n ++ x ++ 3#3 ++ v ++ 14#6 ++ k : IWord) &&& 0x3C00707E = 0x3000301C := by
    rw [show (0x3C00707E : IWord) = 0#2 ++ 15#4 ++ 0#6 ++ 0#5 ++ 7#3 ++ 0#5 ++ 63#6 ++ 0#1 from rfl]
    simp only [BitVec.and_append, BitVec.and_zero, BitVec.reduceAnd]; decide
  refine reads h (by decide) rfl ?_
  refine (if_neg (ne_true_of_eq_false (miss h (by decide)))).trans <| (if_neg (ne_true_of_eq_false (miss h (by decide)))).trans <| (if_neg (ne_true_of_eq_false (miss h (by decide)))).trans <| (if_neg (ne_true_of_eq_false (miss h (by decide)))).trans <| (if_neg (ne_true_of_eq_false (miss h (by decide)))).trans <| (if_neg (ne_true_of_eq_false (miss h (by decide)))).trans <| (if_neg (ne_true_of_eq_false (miss h (by decide)))).trans <| (if_neg (ne_true_of_eq_false (miss h (by decide)))).trans <| (if_neg (ne_true_of_eq_false (miss h (by decide)))).trans <| (if_neg (ne_true_of_eq_false (miss h (by decide)))).trans <| (if_neg (ne_true_of_eq_false (miss h (by decide)))).trans <| (if_pos (hit h)).trans ?_
  simp (disch := decide) only [BitVec.extractLsb'_append_eq_of_le, BitVec.extractLsb'_append_eq_of_add_le, BitVec.extractLsb'_eq_self, Nat.reduceSub]

theorem RoundTrip.watchGeu (o : BitVec 2) (n : BitVec 6) (x : BitVec 5) (v : BitVec 5) (k : BitVec 1) : RoundTrip.Statement (.watchGeu o n x v k) := by
  have h : (o ++ 13#4 ++ n ++ x ++ 3#3 ++ v ++ 14#6 ++ k : IWord) &&& 0x3C00707E = 0x3400301C := by
    rw [show (0x3C00707E : IWord) = 0#2 ++ 15#4 ++ 0#6 ++ 0#5 ++ 7#3 ++ 0#5 ++ 63#6 ++ 0#1 from rfl]
    simp only [BitVec.and_append, BitVec.and_zero, BitVec.reduceAnd]; decide
  refine reads h (by decide) rfl ?_
  refine (if_neg (ne_true_of_eq_false (miss h (by decide)))).trans <| (if_neg (ne_true_of_eq_false (miss h (by decide)))).trans <| (if_neg (ne_true_of_eq_false (miss h (by decide)))).trans <| (if_neg (ne_true_of_eq_false (miss h (by decide)))).trans <| (if_neg (ne_true_of_eq_false (miss h (by decide)))).trans <| (if_neg (ne_true_of_eq_false (miss h (by decide)))).trans <| (if_neg (ne_true_of_eq_false (miss h (by decide)))).trans <| (if_neg (ne_true_of_eq_false (miss h (by decide)))).trans <| (if_neg (ne_true_of_eq_false (miss h (by decide)))).trans <| (if_neg (ne_true_of_eq_false (miss h (by decide)))).trans <| (if_neg (ne_true_of_eq_false (miss h (by decide)))).trans <| (if_neg (ne_true_of_eq_false (miss h (by decide)))).trans <| (if_pos (hit h)).trans ?_
  simp (disch := decide) only [BitVec.extractLsb'_append_eq_of_le, BitVec.extractLsb'_append_eq_of_add_le, BitVec.extractLsb'_eq_self, Nat.reduceSub]

theorem RoundTrip.fenceAcq (s : BitVec 5) (k : BitVec 1) : RoundTrip.Statement (.fenceAcq s k) := by
  have h : (0#7 ++ s ++ 15#19 ++ k : IWord) &&& 0xFE0FFFFE = 0x0000001E := by
    rw [show (0xFE0FFFFE : IWord) = 127#7 ++ 0#5 ++ 524287#19 ++ 0#1 from rfl]
    simp only [BitVec.and_append, BitVec.and_zero, BitVec.reduceAnd]; decide
  refine reads h (by decide) rfl ?_
  refine (if_pos (hit h)).trans ?_
  simp (disch := decide) only [BitVec.extractLsb'_append_eq_of_le, BitVec.extractLsb'_append_eq_of_add_le, BitVec.extractLsb'_eq_self, Nat.reduceSub]

theorem RoundTrip.fenceRel (s : BitVec 5) (k : BitVec 1) : RoundTrip.Statement (.fenceRel s k) := by
  have h : (0#7 ++ s ++ 2063#19 ++ k : IWord) &&& 0xFE0FFFFE = 0x0000101E := by
    rw [show (0xFE0FFFFE : IWord) = 127#7 ++ 0#5 ++ 524287#19 ++ 0#1 from rfl]
    simp only [BitVec.and_append, BitVec.and_zero, BitVec.reduceAnd]; decide
  refine reads h (by decide) rfl ?_
  refine (if_neg (ne_true_of_eq_false (miss h (by decide)))).trans <| (if_pos (hit h)).trans ?_
  simp (disch := decide) only [BitVec.extractLsb'_append_eq_of_le, BitVec.extractLsb'_append_eq_of_add_le, BitVec.extractLsb'_eq_self, Nat.reduceSub]

theorem RoundTrip.fenceFull (s : BitVec 5) (k : BitVec 1) : RoundTrip.Statement (.fenceFull s k) := by
  have h : (0#7 ++ s ++ 4111#19 ++ k : IWord) &&& 0xFE0FFFFE = 0x0000201E := by
    rw [show (0xFE0FFFFE : IWord) = 127#7 ++ 0#5 ++ 524287#19 ++ 0#1 from rfl]
    simp only [BitVec.and_append, BitVec.and_zero, BitVec.reduceAnd]; decide
  refine reads h (by decide) rfl ?_
  refine (if_neg (ne_true_of_eq_false (miss h (by decide)))).trans <| (if_neg (ne_true_of_eq_false (miss h (by decide)))).trans <| (if_pos (hit h)).trans ?_
  simp (disch := decide) only [BitVec.extractLsb'_append_eq_of_le, BitVec.extractLsb'_append_eq_of_add_le, BitVec.extractLsb'_eq_self, Nat.reduceSub]

theorem RoundTrip.fenceEng (s : BitVec 5) (k : BitVec 1) : RoundTrip.Statement (.fenceEng s k) := by
  have h : (0#7 ++ s ++ 6159#19 ++ k : IWord) &&& 0xFE0FFFFE = 0x0000301E := by
    rw [show (0xFE0FFFFE : IWord) = 127#7 ++ 0#5 ++ 524287#19 ++ 0#1 from rfl]
    simp only [BitVec.and_append, BitVec.and_zero, BitVec.reduceAnd]; decide
  refine reads h (by decide) rfl ?_
  refine (if_neg (ne_true_of_eq_false (miss h (by decide)))).trans <| (if_neg (ne_true_of_eq_false (miss h (by decide)))).trans <| (if_neg (ne_true_of_eq_false (miss h (by decide)))).trans <| (if_pos (hit h)).trans ?_
  simp (disch := decide) only [BitVec.extractLsb'_append_eq_of_le, BitVec.extractLsb'_append_eq_of_add_le, BitVec.extractLsb'_eq_self, Nat.reduceSub]

theorem RoundTrip.discard (n : BitVec 5) (a : BitVec 5) (b : BitVec 5) (k : BitVec 1) : RoundTrip.Statement (.discard n a b k) := by
  have h : (0#7 ++ n ++ a ++ 4#3 ++ b ++ 15#6 ++ k : IWord) &&& 0xFE00707E = 0x0000401E := by
    rw [show (0xFE00707E : IWord) = 127#7 ++ 0#5 ++ 0#5 ++ 7#3 ++ 0#5 ++ 63#6 ++ 0#1 from rfl]
    simp only [BitVec.and_append, BitVec.and_zero, BitVec.reduceAnd]; decide
  refine reads h (by decide) rfl ?_
  refine (if_neg (ne_true_of_eq_false (miss h (by decide)))).trans <| (if_neg (ne_true_of_eq_false (miss h (by decide)))).trans <| (if_neg (ne_true_of_eq_false (miss h (by decide)))).trans <| (if_neg (ne_true_of_eq_false (miss h (by decide)))).trans <| (if_pos (hit h)).trans ?_
  simp (disch := decide) only [BitVec.extractLsb'_append_eq_of_le, BitVec.extractLsb'_append_eq_of_add_le, BitVec.extractLsb'_eq_self, Nat.reduceSub]

theorem RoundTrip.prefetch (n : BitVec 5) (a : BitVec 5) (b : BitVec 5) (k : BitVec 1) : RoundTrip.Statement (.prefetch n a b k) := by
  have h : (0#7 ++ n ++ a ++ 5#3 ++ b ++ 15#6 ++ k : IWord) &&& 0xFE00707E = 0x0000501E := by
    rw [show (0xFE00707E : IWord) = 127#7 ++ 0#5 ++ 0#5 ++ 7#3 ++ 0#5 ++ 63#6 ++ 0#1 from rfl]
    simp only [BitVec.and_append, BitVec.and_zero, BitVec.reduceAnd]; decide
  refine reads h (by decide) rfl ?_
  refine (if_neg (ne_true_of_eq_false (miss h (by decide)))).trans <| (if_neg (ne_true_of_eq_false (miss h (by decide)))).trans <| (if_neg (ne_true_of_eq_false (miss h (by decide)))).trans <| (if_neg (ne_true_of_eq_false (miss h (by decide)))).trans <| (if_neg (ne_true_of_eq_false (miss h (by decide)))).trans <| (if_pos (hit h)).trans ?_
  simp (disch := decide) only [BitVec.extractLsb'_append_eq_of_le, BitVec.extractLsb'_append_eq_of_add_le, BitVec.extractLsb'_eq_self, Nat.reduceSub]

theorem RoundTrip.flush (n : BitVec 5) (a : BitVec 5) (b : BitVec 5) (k : BitVec 1) : RoundTrip.Statement (.flush n a b k) := by
  have h : (0#7 ++ n ++ a ++ 6#3 ++ b ++ 15#6 ++ k : IWord) &&& 0xFE00707E = 0x0000601E := by
    rw [show (0xFE00707E : IWord) = 127#7 ++ 0#5 ++ 0#5 ++ 7#3 ++ 0#5 ++ 63#6 ++ 0#1 from rfl]
    simp only [BitVec.and_append, BitVec.and_zero, BitVec.reduceAnd]; decide
  refine reads h (by decide) rfl ?_
  refine (if_neg (ne_true_of_eq_false (miss h (by decide)))).trans <| (if_neg (ne_true_of_eq_false (miss h (by decide)))).trans <| (if_neg (ne_true_of_eq_false (miss h (by decide)))).trans <| (if_neg (ne_true_of_eq_false (miss h (by decide)))).trans <| (if_neg (ne_true_of_eq_false (miss h (by decide)))).trans <| (if_neg (ne_true_of_eq_false (miss h (by decide)))).trans <| (if_pos (hit h)).trans ?_
  simp (disch := decide) only [BitVec.extractLsb'_append_eq_of_le, BitVec.extractLsb'_append_eq_of_add_le, BitVec.extractLsb'_eq_self, Nat.reduceSub]

theorem RoundTrip.invl1 (k : BitVec 1) : RoundTrip.Statement (.invl1 k) := by
  have h : (14351#31 ++ k : IWord) &&& 0xFFFFFFFE = 0x0000701E := by
    rw [show (0xFFFFFFFE : IWord) = 2147483647#31 ++ 0#1 from rfl]
    simp only [BitVec.and_append, BitVec.and_zero, BitVec.reduceAnd]; decide
  refine reads h (by decide) rfl ?_
  refine (if_neg (ne_true_of_eq_false (miss h (by decide)))).trans <| (if_neg (ne_true_of_eq_false (miss h (by decide)))).trans <| (if_neg (ne_true_of_eq_false (miss h (by decide)))).trans <| (if_neg (ne_true_of_eq_false (miss h (by decide)))).trans <| (if_neg (ne_true_of_eq_false (miss h (by decide)))).trans <| (if_neg (ne_true_of_eq_false (miss h (by decide)))).trans <| (if_neg (ne_true_of_eq_false (miss h (by decide)))).trans <| (if_pos (hit h)).trans ?_
  simp (disch := decide) only [BitVec.extractLsb'_append_eq_of_le, BitVec.extractLsb'_append_eq_of_add_le, BitVec.extractLsb'_eq_self, Nat.reduceSub]

theorem RoundTrip.tdef (l : BitVec 1) (m : BitVec 1) (t : BitVec 6) (a : BitVec 5) (b : BitVec 5) (k : BitVec 1) : RoundTrip.Statement (.tdef l m t a b k) := by
  have h : (l ++ m ++ 0#4 ++ t ++ a ++ 0#3 ++ b ++ 16#6 ++ k : IWord) &&& 0x3C00707E = 0x00000020 := by
    rw [show (0x3C00707E : IWord) = 0#1 ++ 0#1 ++ 15#4 ++ 0#6 ++ 0#5 ++ 7#3 ++ 0#5 ++ 63#6 ++ 0#1 from rfl]
    simp only [BitVec.and_append, BitVec.and_zero, BitVec.reduceAnd]; decide
  refine reads h (by decide) rfl ?_
  refine (if_pos (hit h)).trans ?_
  simp (disch := decide) only [BitVec.extractLsb'_append_eq_of_le, BitVec.extractLsb'_append_eq_of_add_le, BitVec.extractLsb'_eq_self, Nat.reduceSub]

theorem RoundTrip.texp (l : BitVec 1) (t : BitVec 6) (a : BitVec 5) (k : BitVec 1) : RoundTrip.Statement (.texp l t a k) := by
  have h : (l ++ 1#5 ++ t ++ a ++ 16#14 ++ k : IWord) &&& 0x7C007FFE = 0x04000020 := by
    rw [show (0x7C007FFE : IWord) = 0#1 ++ 31#5 ++ 0#6 ++ 0#5 ++ 16383#14 ++ 0#1 from rfl]
    simp only [BitVec.and_append, BitVec.and_zero, BitVec.reduceAnd]; decide
  refine reads h (by decide) rfl ?_
  refine (if_neg (ne_true_of_eq_false (miss h (by decide)))).trans <| (if_pos (hit h)).trans ?_
  simp (disch := decide) only [BitVec.extractLsb'_append_eq_of_le, BitVec.extractLsb'_append_eq_of_add_le, BitVec.extractLsb'_eq_self, Nat.reduceSub]

theorem RoundTrip.tstate (t : BitVec 6) (d : BitVec 5) (k : BitVec 1) : RoundTrip.Statement (.tstate t d k) := by
  have h : (2#6 ++ t ++ 0#8 ++ d ++ 16#6 ++ k : IWord) &&& 0xFC0FF07E = 0x08000020 := by
    rw [show (0xFC0FF07E : IWord) = 63#6 ++ 0#6 ++ 255#8 ++ 0#5 ++ 63#6 ++ 0#1 from rfl]
    simp only [BitVec.and_append, BitVec.and_zero, BitVec.reduceAnd]; decide
  refine reads h (by decide) rfl ?_
  refine (if_neg (ne_true_of_eq_false (miss h (by decide)))).trans <| (if_neg (ne_true_of_eq_false (miss h (by decide)))).trans <| (if_pos (hit h)).trans ?_
  simp (disch := decide) only [BitVec.extractLsb'_append_eq_of_le, BitVec.extractLsb'_append_eq_of_add_le, BitVec.extractLsb'_eq_self, Nat.reduceSub]

theorem RoundTrip.twait (t : BitVec 6) (k : BitVec 1) : RoundTrip.Statement (.twait t k) := by
  have h : (3#6 ++ t ++ 16#19 ++ k : IWord) &&& 0xFC0FFFFE = 0x0C000020 := by
    rw [show (0xFC0FFFFE : IWord) = 63#6 ++ 0#6 ++ 524287#19 ++ 0#1 from rfl]
    simp only [BitVec.and_append, BitVec.and_zero, BitVec.reduceAnd]; decide
  refine reads h (by decide) rfl ?_
  refine (if_neg (ne_true_of_eq_false (miss h (by decide)))).trans <| (if_neg (ne_true_of_eq_false (miss h (by decide)))).trans <| (if_neg (ne_true_of_eq_false (miss h (by decide)))).trans <| (if_pos (hit h)).trans ?_
  simp (disch := decide) only [BitVec.extractLsb'_append_eq_of_le, BitVec.extractLsb'_append_eq_of_add_le, BitVec.extractLsb'_eq_self, Nat.reduceSub]

theorem RoundTrip.tready (t : BitVec 6) (k : BitVec 1) : RoundTrip.Statement (.tready t k) := by
  have h : (4#6 ++ t ++ 16#19 ++ k : IWord) &&& 0xFC0FFFFE = 0x10000020 := by
    rw [show (0xFC0FFFFE : IWord) = 63#6 ++ 0#6 ++ 524287#19 ++ 0#1 from rfl]
    simp only [BitVec.and_append, BitVec.and_zero, BitVec.reduceAnd]; decide
  refine reads h (by decide) rfl ?_
  refine (if_neg (ne_true_of_eq_false (miss h (by decide)))).trans <| (if_neg (ne_true_of_eq_false (miss h (by decide)))).trans <| (if_neg (ne_true_of_eq_false (miss h (by decide)))).trans <| (if_neg (ne_true_of_eq_false (miss h (by decide)))).trans <| (if_pos (hit h)).trans ?_
  simp (disch := decide) only [BitVec.extractLsb'_append_eq_of_le, BitVec.extractLsb'_append_eq_of_add_le, BitVec.extractLsb'_eq_self, Nat.reduceSub]

theorem RoundTrip.tdrain (t : BitVec 6) (k : BitVec 1) : RoundTrip.Statement (.tdrain t k) := by
  have h : (5#6 ++ t ++ 16#19 ++ k : IWord) &&& 0xFC0FFFFE = 0x14000020 := by
    rw [show (0xFC0FFFFE : IWord) = 63#6 ++ 0#6 ++ 524287#19 ++ 0#1 from rfl]
    simp only [BitVec.and_append, BitVec.and_zero, BitVec.reduceAnd]; decide
  refine reads h (by decide) rfl ?_
  refine (if_neg (ne_true_of_eq_false (miss h (by decide)))).trans <| (if_neg (ne_true_of_eq_false (miss h (by decide)))).trans <| (if_neg (ne_true_of_eq_false (miss h (by decide)))).trans <| (if_neg (ne_true_of_eq_false (miss h (by decide)))).trans <| (if_neg (ne_true_of_eq_false (miss h (by decide)))).trans <| (if_pos (hit h)).trans ?_
  simp (disch := decide) only [BitVec.extractLsb'_append_eq_of_le, BitVec.extractLsb'_append_eq_of_add_le, BitVec.extractLsb'_eq_self, Nat.reduceSub]

theorem RoundTrip.treset (t : BitVec 6) (k : BitVec 1) : RoundTrip.Statement (.treset t k) := by
  have h : (6#6 ++ t ++ 16#19 ++ k : IWord) &&& 0xFC0FFFFE = 0x18000020 := by
    rw [show (0xFC0FFFFE : IWord) = 63#6 ++ 0#6 ++ 524287#19 ++ 0#1 from rfl]
    simp only [BitVec.and_append, BitVec.and_zero, BitVec.reduceAnd]; decide
  refine reads h (by decide) rfl ?_
  refine (if_neg (ne_true_of_eq_false (miss h (by decide)))).trans <| (if_neg (ne_true_of_eq_false (miss h (by decide)))).trans <| (if_neg (ne_true_of_eq_false (miss h (by decide)))).trans <| (if_neg (ne_true_of_eq_false (miss h (by decide)))).trans <| (if_neg (ne_true_of_eq_false (miss h (by decide)))).trans <| (if_neg (ne_true_of_eq_false (miss h (by decide)))).trans <| (if_pos (hit h)).trans ?_
  simp (disch := decide) only [BitVec.extractLsb'_append_eq_of_le, BitVec.extractLsb'_append_eq_of_add_le, BitVec.extractLsb'_eq_self, Nat.reduceSub]

theorem RoundTrip.recLd (l : BitVec 1) (n : BitVec 6) (a : BitVec 5) (m : BitVec 5) (k : BitVec 1) : RoundTrip.Statement (.recLd l n a m k) := by
  have h : (l ++ 8#5 ++ n ++ a ++ 0#3 ++ m ++ 16#6 ++ k : IWord) &&& 0x7C00707E = 0x20000020 := by
    rw [show (0x7C00707E : IWord) = 0#1 ++ 31#5 ++ 0#6 ++ 0#5 ++ 7#3 ++ 0#5 ++ 63#6 ++ 0#1 from rfl]
    simp only [BitVec.and_append, BitVec.and_zero, BitVec.reduceAnd]; decide
  refine reads h (by decide) rfl ?_
  refine (if_neg (ne_true_of_eq_false (miss h (by decide)))).trans <| (if_neg (ne_true_of_eq_false (miss h (by decide)))).trans <| (if_neg (ne_true_of_eq_false (miss h (by decide)))).trans <| (if_neg (ne_true_of_eq_false (miss h (by decide)))).trans <| (if_neg (ne_true_of_eq_false (miss h (by decide)))).trans <| (if_neg (ne_true_of_eq_false (miss h (by decide)))).trans <| (if_neg (ne_true_of_eq_false (miss h (by decide)))).trans <| (if_pos (hit h)).trans ?_
  simp (disch := decide) only [BitVec.extractLsb'_append_eq_of_le, BitVec.extractLsb'_append_eq_of_add_le, BitVec.extractLsb'_eq_self, Nat.reduceSub]

theorem RoundTrip.recSt (l : BitVec 1) (n : BitVec 6) (a : BitVec 5) (m : BitVec 5) (k : BitVec 1) : RoundTrip.Statement (.recSt l n a m k) := by
  have h : (l ++ 9#5 ++ n ++ a ++ 0#3 ++ m ++ 16#6 ++ k : IWord) &&& 0x7C00707E = 0x24000020 := by
    rw [show (0x7C00707E : IWord) = 0#1 ++ 31#5 ++ 0#6 ++ 0#5 ++ 7#3 ++ 0#5 ++ 63#6 ++ 0#1 from rfl]
    simp only [BitVec.and_append, BitVec.and_zero, BitVec.reduceAnd]; decide
  refine reads h (by decide) rfl ?_
  refine (if_neg (ne_true_of_eq_false (miss h (by decide)))).trans <| (if_neg (ne_true_of_eq_false (miss h (by decide)))).trans <| (if_neg (ne_true_of_eq_false (miss h (by decide)))).trans <| (if_neg (ne_true_of_eq_false (miss h (by decide)))).trans <| (if_neg (ne_true_of_eq_false (miss h (by decide)))).trans <| (if_neg (ne_true_of_eq_false (miss h (by decide)))).trans <| (if_neg (ne_true_of_eq_false (miss h (by decide)))).trans <| (if_neg (ne_true_of_eq_false (miss h (by decide)))).trans <| (if_pos (hit h)).trans ?_
  simp (disch := decide) only [BitVec.extractLsb'_append_eq_of_le, BitVec.extractLsb'_append_eq_of_add_le, BitVec.extractLsb'_eq_self, Nat.reduceSub]

theorem RoundTrip.go (l : BitVec 1) (a : BitVec 5) (k : BitVec 1) : RoundTrip.Statement (.go l a k) := by
  have h : (l ++ 0#11 ++ a ++ 17#14 ++ k : IWord) &&& 0x7FF07FFE = 0x00000022 := by
    rw [show (0x7FF07FFE : IWord) = 0#1 ++ 2047#11 ++ 0#5 ++ 16383#14 ++ 0#1 from rfl]
    simp only [BitVec.and_append, BitVec.and_zero, BitVec.reduceAnd]; decide
  refine reads h (by decide) rfl ?_
  refine (if_pos (hit h)).trans ?_
  simp (disch := decide) only [BitVec.extractLsb'_append_eq_of_le, BitVec.extractLsb'_append_eq_of_add_le, BitVec.extractLsb'_eq_self, Nat.reduceSub]

theorem RoundTrip.gohome (k : BitVec 1) : RoundTrip.Statement (.gohome k) := by
  have h : (16777233#31 ++ k : IWord) &&& 0xFFFFFFFE = 0x02000022 := by
    rw [show (0xFFFFFFFE : IWord) = 2147483647#31 ++ 0#1 from rfl]
    simp only [BitVec.and_append, BitVec.and_zero, BitVec.reduceAnd]; decide
  refine reads h (by decide) rfl ?_
  refine (if_neg (ne_true_of_eq_false (miss h (by decide)))).trans <| (if_pos (hit h)).trans ?_
  simp (disch := decide) only [BitVec.extractLsb'_append_eq_of_le, BitVec.extractLsb'_append_eq_of_add_le, BitVec.extractLsb'_eq_self, Nat.reduceSub]

theorem RoundTrip.goa (l : BitVec 1) (n : BitVec 5) (a : BitVec 5) (k : BitVec 1) : RoundTrip.Statement (.goa l n a k) := by
  have h : (l ++ 2#6 ++ n ++ a ++ 17#14 ++ k : IWord) &&& 0x7E007FFE = 0x04000022 := by
    rw [show (0x7E007FFE : IWord) = 0#1 ++ 63#6 ++ 0#5 ++ 0#5 ++ 16383#14 ++ 0#1 from rfl]
    simp only [BitVec.and_append, BitVec.and_zero, BitVec.reduceAnd]; decide
  refine reads h (by decide) rfl ?_
  refine (if_neg (ne_true_of_eq_false (miss h (by decide)))).trans <| (if_neg (ne_true_of_eq_false (miss h (by decide)))).trans <| (if_pos (hit h)).trans ?_
  simp (disch := decide) only [BitVec.extractLsb'_append_eq_of_le, BitVec.extractLsb'_append_eq_of_add_le, BitVec.extractLsb'_eq_self, Nat.reduceSub]

theorem RoundTrip.lug (l : BitVec 1) (m : BitVec 1) (b : BitVec 5) (a : BitVec 5) (k : BitVec 1) : RoundTrip.Statement (.lug l m b a k) := by
  have h : (l ++ m ++ 3#5 ++ b ++ a ++ 17#14 ++ k : IWord) &&& 0x3E007FFE = 0x06000022 := by
    rw [show (0x3E007FFE : IWord) = 0#1 ++ 0#1 ++ 31#5 ++ 0#5 ++ 0#5 ++ 16383#14 ++ 0#1 from rfl]
    simp only [BitVec.and_append, BitVec.and_zero, BitVec.reduceAnd]; decide
  refine reads h (by decide) rfl ?_
  refine (if_neg (ne_true_of_eq_false (miss h (by decide)))).trans <| (if_neg (ne_true_of_eq_false (miss h (by decide)))).trans <| (if_neg (ne_true_of_eq_false (miss h (by decide)))).trans <| (if_pos (hit h)).trans ?_
  simp (disch := decide) only [BitVec.extractLsb'_append_eq_of_le, BitVec.extractLsb'_append_eq_of_add_le, BitVec.extractLsb'_eq_self, Nat.reduceSub]

theorem RoundTrip.meet (l : BitVec 1) (m : BitVec 1) (b : BitVec 5) (a : BitVec 5) (d : BitVec 5) (k : BitVec 1) : RoundTrip.Statement (.meet l m b a d k) := by
  have h : (l ++ m ++ 4#5 ++ b ++ a ++ 0#3 ++ d ++ 17#6 ++ k : IWord) &&& 0x3E00707E = 0x08000022 := by
    rw [show (0x3E00707E : IWord) = 0#1 ++ 0#1 ++ 31#5 ++ 0#5 ++ 0#5 ++ 7#3 ++ 0#5 ++ 63#6 ++ 0#1 from rfl]
    simp only [BitVec.and_append, BitVec.and_zero, BitVec.reduceAnd]; decide
  refine reads h (by decide) rfl ?_
  refine (if_neg (ne_true_of_eq_false (miss h (by decide)))).trans <| (if_neg (ne_true_of_eq_false (miss h (by decide)))).trans <| (if_neg (ne_true_of_eq_false (miss h (by decide)))).trans <| (if_neg (ne_true_of_eq_false (miss h (by decide)))).trans <| (if_pos (hit h)).trans ?_
  simp (disch := decide) only [BitVec.extractLsb'_append_eq_of_le, BitVec.extractLsb'_append_eq_of_add_le, BitVec.extractLsb'_eq_self, Nat.reduceSub]

theorem RoundTrip.part_ (k : BitVec 1) : RoundTrip.Statement (.part_ k) := by
  have h : (83886097#31 ++ k : IWord) &&& 0xFFFFFFFE = 0x0A000022 := by
    rw [show (0xFFFFFFFE : IWord) = 2147483647#31 ++ 0#1 from rfl]
    simp only [BitVec.and_append, BitVec.and_zero, BitVec.reduceAnd]; decide
  refine reads h (by decide) rfl ?_
  refine (if_neg (ne_true_of_eq_false (miss h (by decide)))).trans <| (if_neg (ne_true_of_eq_false (miss h (by decide)))).trans <| (if_neg (ne_true_of_eq_false (miss h (by decide)))).trans <| (if_neg (ne_true_of_eq_false (miss h (by decide)))).trans <| (if_neg (ne_true_of_eq_false (miss h (by decide)))).trans <| (if_pos (hit h)).trans ?_
  simp (disch := decide) only [BitVec.extractLsb'_append_eq_of_le, BitVec.extractLsb'_append_eq_of_add_le, BitVec.extractLsb'_eq_self, Nat.reduceSub]

theorem RoundTrip.pget (p : BitVec 5) (d : BitVec 5) (k : BitVec 1) : RoundTrip.Statement (.pget p d k) := by
  have h : (192#12 ++ p ++ 0#3 ++ d ++ 17#6 ++ k : IWord) &&& 0xFFF0707E = 0x0C000022 := by
    rw [show (0xFFF0707E : IWord) = 4095#12 ++ 0#5 ++ 7#3 ++ 0#5 ++ 63#6 ++ 0#1 from rfl]
    simp only [BitVec.and_append, BitVec.and_zero, BitVec.reduceAnd]; decide
  refine reads h (by decide) rfl ?_
  refine (if_neg (ne_true_of_eq_false (miss h (by decide)))).trans <| (if_neg (ne_true_of_eq_false (miss h (by decide)))).trans <| (if_neg (ne_true_of_eq_false (miss h (by decide)))).trans <| (if_neg (ne_true_of_eq_false (miss h (by decide)))).trans <| (if_neg (ne_true_of_eq_false (miss h (by decide)))).trans <| (if_neg (ne_true_of_eq_false (miss h (by decide)))).trans <| (if_pos (hit h)).trans ?_
  simp (disch := decide) only [BitVec.extractLsb'_append_eq_of_le, BitVec.extractLsb'_append_eq_of_add_le, BitVec.extractLsb'_eq_self, Nat.reduceSub]

theorem RoundTrip.pput (l : BitVec 1) (a : BitVec 5) (p : BitVec 5) (k : BitVec 1) : RoundTrip.Statement (.pput l a p k) := by
  have h : (l ++ 224#11 ++ a ++ 0#3 ++ p ++ 17#6 ++ k : IWord) &&& 0x7FF0707E = 0x0E000022 := by
    rw [show (0x7FF0707E : IWord) = 0#1 ++ 2047#11 ++ 0#5 ++ 7#3 ++ 0#5 ++ 63#6 ++ 0#1 from rfl]
    simp only [BitVec.and_append, BitVec.and_zero, BitVec.reduceAnd]; decide
  refine reads h (by decide) rfl ?_
  refine (if_neg (ne_true_of_eq_false (miss h (by decide)))).trans <| (if_neg (ne_true_of_eq_false (miss h (by decide)))).trans <| (if_neg (ne_true_of_eq_false (miss h (by decide)))).trans <| (if_neg (ne_true_of_eq_false (miss h (by decide)))).trans <| (if_neg (ne_true_of_eq_false (miss h (by decide)))).trans <| (if_neg (ne_true_of_eq_false (miss h (by decide)))).trans <| (if_neg (ne_true_of_eq_false (miss h (by decide)))).trans <| (if_pos (hit h)).trans ?_
  simp (disch := decide) only [BitVec.extractLsb'_append_eq_of_le, BitVec.extractLsb'_append_eq_of_add_le, BitVec.extractLsb'_eq_self, Nat.reduceSub]

theorem RoundTrip.pxch (p : BitVec 5) (d : BitVec 5) (k : BitVec 1) : RoundTrip.Statement (.pxch p d k) := by
  have h : (256#12 ++ p ++ 0#3 ++ d ++ 17#6 ++ k : IWord) &&& 0xFFF0707E = 0x10000022 := by
    rw [show (0xFFF0707E : IWord) = 4095#12 ++ 0#5 ++ 7#3 ++ 0#5 ++ 63#6 ++ 0#1 from rfl]
    simp only [BitVec.and_append, BitVec.and_zero, BitVec.reduceAnd]; decide
  refine reads h (by decide) rfl ?_
  refine (if_neg (ne_true_of_eq_false (miss h (by decide)))).trans <| (if_neg (ne_true_of_eq_false (miss h (by decide)))).trans <| (if_neg (ne_true_of_eq_false (miss h (by decide)))).trans <| (if_neg (ne_true_of_eq_false (miss h (by decide)))).trans <| (if_neg (ne_true_of_eq_false (miss h (by decide)))).trans <| (if_neg (ne_true_of_eq_false (miss h (by decide)))).trans <| (if_neg (ne_true_of_eq_false (miss h (by decide)))).trans <| (if_neg (ne_true_of_eq_false (miss h (by decide)))).trans <| (if_pos (hit h)).trans ?_
  simp (disch := decide) only [BitVec.extractLsb'_append_eq_of_le, BitVec.extractLsb'_append_eq_of_add_le, BitVec.extractLsb'_eq_self, Nat.reduceSub]

theorem RoundTrip.plug (d : BitVec 5) (k : BitVec 1) : RoundTrip.Statement (.plug d k) := by
  have h : (73728#20 ++ d ++ 17#6 ++ k : IWord) &&& 0xFFFFF07E = 0x12000022 := by
    rw [show (0xFFFFF07E : IWord) = 1048575#20 ++ 0#5 ++ 63#6 ++ 0#1 from rfl]
    simp only [BitVec.and_append, BitVec.and_zero, BitVec.reduceAnd]; decide
  refine reads h (by decide) rfl ?_
  refine (if_neg (ne_true_of_eq_false (miss h (by decide)))).trans <| (if_neg (ne_true_of_eq_false (miss h (by decide)))).trans <| (if_neg (ne_true_of_eq_false (miss h (by decide)))).trans <| (if_neg (ne_true_of_eq_false (miss h (by decide)))).trans <| (if_neg (ne_true_of_eq_false (miss h (by decide)))).trans <| (if_neg (ne_true_of_eq_false (miss h (by decide)))).trans <| (if_neg (ne_true_of_eq_false (miss h (by decide)))).trans <| (if_neg (ne_true_of_eq_false (miss h (by decide)))).trans <| (if_neg (ne_true_of_eq_false (miss h (by decide)))).trans <| (if_pos (hit h)).trans ?_
  simp (disch := decide) only [BitVec.extractLsb'_append_eq_of_le, BitVec.extractLsb'_append_eq_of_add_le, BitVec.extractLsb'_eq_self, Nat.reduceSub]

theorem RoundTrip.whereIs (d : BitVec 5) (k : BitVec 1) : RoundTrip.Statement (.whereIs d k) := by
  have h : (81920#20 ++ d ++ 17#6 ++ k : IWord) &&& 0xFFFFF07E = 0x14000022 := by
    rw [show (0xFFFFF07E : IWord) = 1048575#20 ++ 0#5 ++ 63#6 ++ 0#1 from rfl]
    simp only [BitVec.and_append, BitVec.and_zero, BitVec.reduceAnd]; decide
  refine reads h (by decide) rfl ?_
  refine (if_neg (ne_true_of_eq_false (miss h (by decide)))).trans <| (if_neg (ne_true_of_eq_false (miss h (by decide)))).trans <| (if_neg (ne_true_of_eq_false (miss h (by decide)))).trans <| (if_neg (ne_true_of_eq_false (miss h (by decide)))).trans <| (if_neg (ne_true_of_eq_false (miss h (by decide)))).trans <| (if_neg (ne_true_of_eq_false (miss h (by decide)))).trans <| (if_neg (ne_true_of_eq_false (miss h (by decide)))).trans <| (if_neg (ne_true_of_eq_false (miss h (by decide)))).trans <| (if_neg (ne_true_of_eq_false (miss h (by decide)))).trans <| (if_neg (ne_true_of_eq_false (miss h (by decide)))).trans <| (if_pos (hit h)).trans ?_
  simp (disch := decide) only [BitVec.extractLsb'_append_eq_of_le, BitVec.extractLsb'_append_eq_of_add_le, BitVec.extractLsb'_eq_self, Nat.reduceSub]

theorem RoundTrip.symq (x : BitVec 5) (d : BitVec 5) (k : BitVec 1) : RoundTrip.Statement (.symq x d k) := by
  have h : (0#12 ++ x ++ 0#3 ++ d ++ 18#6 ++ k : IWord) &&& 0xFFF0707E = 0x00000024 := by
    rw [show (0xFFF0707E : IWord) = 4095#12 ++ 0#5 ++ 7#3 ++ 0#5 ++ 63#6 ++ 0#1 from rfl]
    simp only [BitVec.and_append, BitVec.and_zero, BitVec.reduceAnd]; decide
  refine reads h (by decide) rfl ?_
  refine (if_pos (hit h)).trans ?_
  simp (disch := decide) only [BitVec.extractLsb'_append_eq_of_le, BitVec.extractLsb'_append_eq_of_add_le, BitVec.extractLsb'_eq_self, Nat.reduceSub]

theorem RoundTrip.symw (x : BitVec 5) (k : BitVec 1) : RoundTrip.Statement (.symw x k) := by
  have h : (32#12 ++ x ++ 18#14 ++ k : IWord) &&& 0xFFF07FFE = 0x02000024 := by
    rw [show (0xFFF07FFE : IWord) = 4095#12 ++ 0#5 ++ 16383#14 ++ 0#1 from rfl]
    simp only [BitVec.and_append, BitVec.and_zero, BitVec.reduceAnd]; decide
  refine reads h (by decide) rfl ?_
  refine (if_neg (ne_true_of_eq_false (miss h (by decide)))).trans <| (if_pos (hit h)).trans ?_
  simp (disch := decide) only [BitVec.extractLsb'_append_eq_of_le, BitVec.extractLsb'_append_eq_of_add_le, BitVec.extractLsb'_eq_self, Nat.reduceSub]

theorem RoundTrip.symtag (x : BitVec 5) (d : BitVec 5) (k : BitVec 1) : RoundTrip.Statement (.symtag x d k) := by
  have h : (64#12 ++ x ++ 0#3 ++ d ++ 18#6 ++ k : IWord) &&& 0xFFF0707E = 0x04000024 := by
    rw [show (0xFFF0707E : IWord) = 4095#12 ++ 0#5 ++ 7#3 ++ 0#5 ++ 63#6 ++ 0#1 from rfl]
    simp only [BitVec.and_append, BitVec.and_zero, BitVec.reduceAnd]; decide
  refine reads h (by decide) rfl ?_
  refine (if_neg (ne_true_of_eq_false (miss h (by decide)))).trans <| (if_neg (ne_true_of_eq_false (miss h (by decide)))).trans <| (if_pos (hit h)).trans ?_
  simp (disch := decide) only [BitVec.extractLsb'_append_eq_of_le, BitVec.extractLsb'_append_eq_of_add_le, BitVec.extractLsb'_eq_self, Nat.reduceSub]

theorem RoundTrip.spawn (o : BitVec 12) (n : BitVec 5) (a : BitVec 5) (k : BitVec 1) : RoundTrip.Statement (.spawn o n a k) := by
  have h : (o.extractLsb' 5 7 ++ n ++ a ++ 0#3 ++ o.extractLsb' 0 5 ++ 19#6 ++ k : IWord) &&& 0x0000707E = 0x00000026 := by
    rw [show (0x0000707E : IWord) = 0#7 ++ 0#5 ++ 0#5 ++ 7#3 ++ 0#5 ++ 63#6 ++ 0#1 from rfl]
    simp only [BitVec.and_append, BitVec.and_zero, BitVec.reduceAnd]; decide
  refine reads h (by decide) rfl ?_
  refine (if_pos (hit h)).trans ?_
  simp (disch := decide) only [BitVec.extractLsb'_append_eq_of_le, BitVec.extractLsb'_append_eq_of_add_le, BitVec.extractLsb'_eq_self, Nat.reduceSub, branchOffset, offset_join]

theorem RoundTrip.jend (l : BitVec 1) (n : BitVec 5) (a : BitVec 5) (k : BitVec 1) : RoundTrip.Statement (.jend l n a k) := by
  have h : (l ++ 0#6 ++ n ++ a ++ 2067#14 ++ k : IWord) &&& 0x7E007FFE = 0x00001026 := by
    rw [show (0x7E007FFE : IWord) = 0#1 ++ 63#6 ++ 0#5 ++ 0#5 ++ 16383#14 ++ 0#1 from rfl]
    simp only [BitVec.and_append, BitVec.and_zero, BitVec.reduceAnd]; decide
  refine reads h (by decide) rfl ?_
  refine (if_neg (ne_true_of_eq_false (miss h (by decide)))).trans <| (if_pos (hit h)).trans ?_
  simp (disch := decide) only [BitVec.extractLsb'_append_eq_of_le, BitVec.extractLsb'_append_eq_of_add_le, BitVec.extractLsb'_eq_self, Nat.reduceSub]

theorem RoundTrip.join (l : BitVec 1) (n : BitVec 5) (a : BitVec 5) (d : BitVec 5) (k : BitVec 1) : RoundTrip.Statement (.join l n a d k) := by
  have h : (l ++ 0#6 ++ n ++ a ++ 2#3 ++ d ++ 19#6 ++ k : IWord) &&& 0x7E00707E = 0x00002026 := by
    rw [show (0x7E00707E : IWord) = 0#1 ++ 63#6 ++ 0#5 ++ 0#5 ++ 7#3 ++ 0#5 ++ 63#6 ++ 0#1 from rfl]
    simp only [BitVec.and_append, BitVec.and_zero, BitVec.reduceAnd]; decide
  refine reads h (by decide) rfl ?_
  refine (if_neg (ne_true_of_eq_false (miss h (by decide)))).trans <| (if_neg (ne_true_of_eq_false (miss h (by decide)))).trans <| (if_pos (hit h)).trans ?_
  simp (disch := decide) only [BitVec.extractLsb'_append_eq_of_le, BitVec.extractLsb'_append_eq_of_add_le, BitVec.extractLsb'_eq_self, Nat.reduceSub]

theorem RoundTrip.yield (k : BitVec 1) : RoundTrip.Statement (.yield k) := by
  have h : (6163#31 ++ k : IWord) &&& 0xFFFFFFFE = 0x00003026 := by
    rw [show (0xFFFFFFFE : IWord) = 2147483647#31 ++ 0#1 from rfl]
    simp only [BitVec.and_append, BitVec.and_zero, BitVec.reduceAnd]; decide
  refine reads h (by decide) rfl ?_
  refine (if_neg (ne_true_of_eq_false (miss h (by decide)))).trans <| (if_neg (ne_true_of_eq_false (miss h (by decide)))).trans <| (if_neg (ne_true_of_eq_false (miss h (by decide)))).trans <| (if_pos (hit h)).trans ?_
  simp (disch := decide) only [BitVec.extractLsb'_append_eq_of_le, BitVec.extractLsb'_append_eq_of_add_le, BitVec.extractLsb'_eq_self, Nat.reduceSub]

theorem RoundTrip.exit (k : BitVec 1) : RoundTrip.Statement (.exit k) := by
  have h : (8211#31 ++ k : IWord) &&& 0xFFFFFFFE = 0x00004026 := by
    rw [show (0xFFFFFFFE : IWord) = 2147483647#31 ++ 0#1 from rfl]
    simp only [BitVec.and_append, BitVec.and_zero, BitVec.reduceAnd]; decide
  refine reads h (by decide) rfl ?_
  refine (if_neg (ne_true_of_eq_false (miss h (by decide)))).trans <| (if_neg (ne_true_of_eq_false (miss h (by decide)))).trans <| (if_neg (ne_true_of_eq_false (miss h (by decide)))).trans <| (if_neg (ne_true_of_eq_false (miss h (by decide)))).trans <| (if_pos (hit h)).trans ?_
  simp (disch := decide) only [BitVec.extractLsb'_append_eq_of_le, BitVec.extractLsb'_append_eq_of_add_le, BitVec.extractLsb'_eq_self, Nat.reduceSub]

theorem RoundTrip.dqn (d : BitVec 5) (k : BitVec 1) : RoundTrip.Statement (.dqn d k) := by
  have h : (5#20 ++ d ++ 19#6 ++ k : IWord) &&& 0xFFFFF07E = 0x00005026 := by
    rw [show (0xFFFFF07E : IWord) = 1048575#20 ++ 0#5 ++ 63#6 ++ 0#1 from rfl]
    simp only [BitVec.and_append, BitVec.and_zero, BitVec.reduceAnd]; decide
  refine reads h (by decide) rfl ?_
  refine (if_neg (ne_true_of_eq_false (miss h (by decide)))).trans <| (if_neg (ne_true_of_eq_false (miss h (by decide)))).trans <| (if_neg (ne_true_of_eq_false (miss h (by decide)))).trans <| (if_neg (ne_true_of_eq_false (miss h (by decide)))).trans <| (if_neg (ne_true_of_eq_false (miss h (by decide)))).trans <| (if_pos (hit h)).trans ?_
  simp (disch := decide) only [BitVec.extractLsb'_append_eq_of_le, BitVec.extractLsb'_append_eq_of_add_le, BitVec.extractLsb'_eq_self, Nat.reduceSub]

theorem RoundTrip.ringInit (l : BitVec 1) (n : BitVec 5) (a : BitVec 5) (b : BitVec 5) (k : BitVec 1) : RoundTrip.Statement (.ringInit l n a b k) := by
  have h : (l ++ 0#6 ++ n ++ a ++ 0#3 ++ b ++ 20#6 ++ k : IWord) &&& 0x7E00707E = 0x00000028 := by
    rw [show (0x7E00707E : IWord) = 0#1 ++ 63#6 ++ 0#5 ++ 0#5 ++ 7#3 ++ 0#5 ++ 63#6 ++ 0#1 from rfl]
    simp only [BitVec.and_append, BitVec.and_zero, BitVec.reduceAnd]; decide
  refine reads h (by decide) rfl ?_
  refine (if_pos (hit h)).trans ?_
  simp (disch := decide) only [BitVec.extractLsb'_append_eq_of_le, BitVec.extractLsb'_append_eq_of_add_le, BitVec.extractLsb'_eq_self, Nat.reduceSub]

theorem RoundTrip.ringTkt (l : BitVec 1) (n : BitVec 5) (a : BitVec 5) (d : BitVec 5) (k : BitVec 1) : RoundTrip.Statement (.ringTkt l n a d k) := by
  have h : (l ++ 1#6 ++ n ++ a ++ 0#3 ++ d ++ 20#6 ++ k : IWord) &&& 0x7E00707E = 0x02000028 := by
    rw [show (0x7E00707E : IWord) = 0#1 ++ 63#6 ++ 0#5 ++ 0#5 ++ 7#3 ++ 0#5 ++ 63#6 ++ 0#1 from rfl]
    simp only [BitVec.and_append, BitVec.and_zero, BitVec.reduceAnd]; decide
  refine reads h (by decide) rfl ?_
  refine (if_neg (ne_true_of_eq_false (miss h (by decide)))).trans <| (if_pos (hit h)).trans ?_
  simp (disch := decide) only [BitVec.extractLsb'_append_eq_of_le, BitVec.extractLsb'_append_eq_of_add_le, BitVec.extractLsb'_eq_self, Nat.reduceSub]

theorem RoundTrip.ringPut (l : BitVec 1) (n : BitVec 5) (a : BitVec 5) (b : BitVec 5) (k : BitVec 1) : RoundTrip.Statement (.ringPut l n a b k) := by
  have h : (l ++ 2#6 ++ n ++ a ++ 0#3 ++ b ++ 20#6 ++ k : IWord) &&& 0x7E00707E = 0x04000028 := by
    rw [show (0x7E00707E : IWord) = 0#1 ++ 63#6 ++ 0#5 ++ 0#5 ++ 7#3 ++ 0#5 ++ 63#6 ++ 0#1 from rfl]
    simp only [BitVec.and_append, BitVec.and_zero, BitVec.reduceAnd]; decide
  refine reads h (by decide) rfl ?_
  refine (if_neg (ne_true_of_eq_false (miss h (by decide)))).trans <| (if_neg (ne_true_of_eq_false (miss h (by decide)))).trans <| (if_pos (hit h)).trans ?_
  simp (disch := decide) only [BitVec.extractLsb'_append_eq_of_le, BitVec.extractLsb'_append_eq_of_add_le, BitVec.extractLsb'_eq_self, Nat.reduceSub]

theorem RoundTrip.ringTake (l : BitVec 1) (n : BitVec 5) (a : BitVec 5) (d : BitVec 5) (k : BitVec 1) : RoundTrip.Statement (.ringTake l n a d k) := by
  have h : (l ++ 3#6 ++ n ++ a ++ 0#3 ++ d ++ 20#6 ++ k : IWord) &&& 0x7E00707E = 0x06000028 := by
    rw [show (0x7E00707E : IWord) = 0#1 ++ 63#6 ++ 0#5 ++ 0#5 ++ 7#3 ++ 0#5 ++ 63#6 ++ 0#1 from rfl]
    simp only [BitVec.and_append, BitVec.and_zero, BitVec.reduceAnd]; decide
  refine reads h (by decide) rfl ?_
  refine (if_neg (ne_true_of_eq_false (miss h (by decide)))).trans <| (if_neg (ne_true_of_eq_false (miss h (by decide)))).trans <| (if_neg (ne_true_of_eq_false (miss h (by decide)))).trans <| (if_pos (hit h)).trans ?_
  simp (disch := decide) only [BitVec.extractLsb'_append_eq_of_le, BitVec.extractLsb'_append_eq_of_add_le, BitVec.extractLsb'_eq_self, Nat.reduceSub]

theorem RoundTrip.ringFree (l : BitVec 1) (n : BitVec 5) (a : BitVec 5) (b : BitVec 5) (k : BitVec 1) : RoundTrip.Statement (.ringFree l n a b k) := by
  have h : (l ++ 4#6 ++ n ++ a ++ 0#3 ++ b ++ 20#6 ++ k : IWord) &&& 0x7E00707E = 0x08000028 := by
    rw [show (0x7E00707E : IWord) = 0#1 ++ 63#6 ++ 0#5 ++ 0#5 ++ 7#3 ++ 0#5 ++ 63#6 ++ 0#1 from rfl]
    simp only [BitVec.and_append, BitVec.and_zero, BitVec.reduceAnd]; decide
  refine reads h (by decide) rfl ?_
  refine (if_neg (ne_true_of_eq_false (miss h (by decide)))).trans <| (if_neg (ne_true_of_eq_false (miss h (by decide)))).trans <| (if_neg (ne_true_of_eq_false (miss h (by decide)))).trans <| (if_neg (ne_true_of_eq_false (miss h (by decide)))).trans <| (if_pos (hit h)).trans ?_
  simp (disch := decide) only [BitVec.extractLsb'_append_eq_of_le, BitVec.extractLsb'_append_eq_of_add_le, BitVec.extractLsb'_eq_self, Nat.reduceSub]

theorem RoundTrip.pipePut (p : BitVec 5) (a : BitVec 5) (k : BitVec 1) : RoundTrip.Statement (.pipePut p a k) := by
  have h : (8#7 ++ p ++ a ++ 20#14 ++ k : IWord) &&& 0xFE007FFE = 0x10000028 := by
    rw [show (0xFE007FFE : IWord) = 127#7 ++ 0#5 ++ 0#5 ++ 16383#14 ++ 0#1 from rfl]
    simp only [BitVec.and_append, BitVec.and_zero, BitVec.reduceAnd]; decide
  refine reads h (by decide) rfl ?_
  refine (if_neg (ne_true_of_eq_false (miss h (by decide)))).trans <| (if_neg (ne_true_of_eq_false (miss h (by decide)))).trans <| (if_neg (ne_true_of_eq_false (miss h (by decide)))).trans <| (if_neg (ne_true_of_eq_false (miss h (by decide)))).trans <| (if_neg (ne_true_of_eq_false (miss h (by decide)))).trans <| (if_pos (hit h)).trans ?_
  simp (disch := decide) only [BitVec.extractLsb'_append_eq_of_le, BitVec.extractLsb'_append_eq_of_add_le, BitVec.extractLsb'_eq_self, Nat.reduceSub]

theorem RoundTrip.pipeTake (p : BitVec 5) (d : BitVec 5) (k : BitVec 1) : RoundTrip.Statement (.pipeTake p d k) := by
  have h : (9#7 ++ p ++ 0#8 ++ d ++ 20#6 ++ k : IWord) &&& 0xFE0FF07E = 0x12000028 := by
    rw [show (0xFE0FF07E : IWord) = 127#7 ++ 0#5 ++ 255#8 ++ 0#5 ++ 63#6 ++ 0#1 from rfl]
    simp only [BitVec.and_append, BitVec.and_zero, BitVec.reduceAnd]; decide
  refine reads h (by decide) rfl ?_
  refine (if_neg (ne_true_of_eq_false (miss h (by decide)))).trans <| (if_neg (ne_true_of_eq_false (miss h (by decide)))).trans <| (if_neg (ne_true_of_eq_false (miss h (by decide)))).trans <| (if_neg (ne_true_of_eq_false (miss h (by decide)))).trans <| (if_neg (ne_true_of_eq_false (miss h (by decide)))).trans <| (if_neg (ne_true_of_eq_false (miss h (by decide)))).trans <| (if_pos (hit h)).trans ?_
  simp (disch := decide) only [BitVec.extractLsb'_append_eq_of_le, BitVec.extractLsb'_append_eq_of_add_le, BitVec.extractLsb'_eq_self, Nat.reduceSub]

theorem RoundTrip.pipeFree (l : BitVec 1) (p : BitVec 5) (a : BitVec 5) (k : BitVec 1) : RoundTrip.Statement (.pipeFree l p a k) := by
  have h : (l ++ 10#6 ++ p ++ a ++ 20#14 ++ k : IWord) &&& 0x7E007FFE = 0x14000028 := by
    rw [show (0x7E007FFE : IWord) = 0#1 ++ 63#6 ++ 0#5 ++ 0#5 ++ 16383#14 ++ 0#1 from rfl]
    simp only [BitVec.and_append, BitVec.and_zero, BitVec.reduceAnd]; decide
  refine reads h (by decide) rfl ?_
  refine (if_neg (ne_true_of_eq_false (miss h (by decide)))).trans <| (if_neg (ne_true_of_eq_false (miss h (by decide)))).trans <| (if_neg (ne_true_of_eq_false (miss h (by decide)))).trans <| (if_neg (ne_true_of_eq_false (miss h (by decide)))).trans <| (if_neg (ne_true_of_eq_false (miss h (by decide)))).trans <| (if_neg (ne_true_of_eq_false (miss h (by decide)))).trans <| (if_neg (ne_true_of_eq_false (miss h (by decide)))).trans <| (if_pos (hit h)).trans ?_
  simp (disch := decide) only [BitVec.extractLsb'_append_eq_of_le, BitVec.extractLsb'_append_eq_of_add_le, BitVec.extractLsb'_eq_self, Nat.reduceSub]

theorem RoundTrip.barInit (l : BitVec 1) (n : BitVec 5) (a : BitVec 5) (b : BitVec 5) (k : BitVec 1) : RoundTrip.Statement (.barInit l n a b k) := by
  have h : (l ++ 0#6 ++ n ++ a ++ 0#3 ++ b ++ 21#6 ++ k : IWord) &&& 0x7E00707E = 0x0000002A := by
    rw [show (0x7E00707E : IWord) = 0#1 ++ 63#6 ++ 0#5 ++ 0#5 ++ 7#3 ++ 0#5 ++ 63#6 ++ 0#1 from rfl]
    simp only [BitVec.and_append, BitVec.and_zero, BitVec.reduceAnd]; decide
  refine reads h (by decide) rfl ?_
  refine (if_pos (hit h)).trans ?_
  simp (disch := decide) only [BitVec.extractLsb'_append_eq_of_le, BitVec.extractLsb'_append_eq_of_add_le, BitVec.extractLsb'_eq_self, Nat.reduceSub]

theorem RoundTrip.barArr (l : BitVec 1) (n : BitVec 5) (a : BitVec 5) (d : BitVec 5) (k : BitVec 1) : RoundTrip.Statement (.barArr l n a d k) := by
  have h : (l ++ 1#6 ++ n ++ a ++ 0#3 ++ d ++ 21#6 ++ k : IWord) &&& 0x7E00707E = 0x0200002A := by
    rw [show (0x7E00707E : IWord) = 0#1 ++ 63#6 ++ 0#5 ++ 0#5 ++ 7#3 ++ 0#5 ++ 63#6 ++ 0#1 from rfl]
    simp only [BitVec.and_append, BitVec.and_zero, BitVec.reduceAnd]; decide
  refine reads h (by decide) rfl ?_
  refine (if_neg (ne_true_of_eq_false (miss h (by decide)))).trans <| (if_pos (hit h)).trans ?_
  simp (disch := decide) only [BitVec.extractLsb'_append_eq_of_le, BitVec.extractLsb'_append_eq_of_add_le, BitVec.extractLsb'_eq_self, Nat.reduceSub]

theorem RoundTrip.barWait (l : BitVec 1) (n : BitVec 5) (a : BitVec 5) (b : BitVec 5) (k : BitVec 1) : RoundTrip.Statement (.barWait l n a b k) := by
  have h : (l ++ 2#6 ++ n ++ a ++ 0#3 ++ b ++ 21#6 ++ k : IWord) &&& 0x7E00707E = 0x0400002A := by
    rw [show (0x7E00707E : IWord) = 0#1 ++ 63#6 ++ 0#5 ++ 0#5 ++ 7#3 ++ 0#5 ++ 63#6 ++ 0#1 from rfl]
    simp only [BitVec.and_append, BitVec.and_zero, BitVec.reduceAnd]; decide
  refine reads h (by decide) rfl ?_
  refine (if_neg (ne_true_of_eq_false (miss h (by decide)))).trans <| (if_neg (ne_true_of_eq_false (miss h (by decide)))).trans <| (if_pos (hit h)).trans ?_
  simp (disch := decide) only [BitVec.extractLsb'_append_eq_of_le, BitVec.extractLsb'_append_eq_of_add_le, BitVec.extractLsb'_eq_self, Nat.reduceSub]

theorem RoundTrip.barCore (k : BitVec 1) : RoundTrip.Statement (.barCore k) := by
  have h : (67108885#31 ++ k : IWord) &&& 0xFFFFFFFE = 0x0800002A := by
    rw [show (0xFFFFFFFE : IWord) = 2147483647#31 ++ 0#1 from rfl]
    simp only [BitVec.and_append, BitVec.and_zero, BitVec.reduceAnd]; decide
  refine reads h (by decide) rfl ?_
  refine (if_neg (ne_true_of_eq_false (miss h (by decide)))).trans <| (if_neg (ne_true_of_eq_false (miss h (by decide)))).trans <| (if_neg (ne_true_of_eq_false (miss h (by decide)))).trans <| (if_pos (hit h)).trans ?_
  simp (disch := decide) only [BitVec.extractLsb'_append_eq_of_le, BitVec.extractLsb'_append_eq_of_add_le, BitVec.extractLsb'_eq_self, Nat.reduceSub]

theorem RoundTrip.barCluster (k : BitVec 1) : RoundTrip.Statement (.barCluster k) := by
  have h : (67110933#31 ++ k : IWord) &&& 0xFFFFFFFE = 0x0800102A := by
    rw [show (0xFFFFFFFE : IWord) = 2147483647#31 ++ 0#1 from rfl]
    simp only [BitVec.and_append, BitVec.and_zero, BitVec.reduceAnd]; decide
  refine reads h (by decide) rfl ?_
  refine (if_neg (ne_true_of_eq_false (miss h (by decide)))).trans <| (if_neg (ne_true_of_eq_false (miss h (by decide)))).trans <| (if_neg (ne_true_of_eq_false (miss h (by decide)))).trans <| (if_neg (ne_true_of_eq_false (miss h (by decide)))).trans <| (if_pos (hit h)).trans ?_
  simp (disch := decide) only [BitVec.extractLsb'_append_eq_of_le, BitVec.extractLsb'_append_eq_of_add_le, BitVec.extractLsb'_eq_self, Nat.reduceSub]

theorem RoundTrip.barTower (k : BitVec 1) : RoundTrip.Statement (.barTower k) := by
  have h : (67112981#31 ++ k : IWord) &&& 0xFFFFFFFE = 0x0800202A := by
    rw [show (0xFFFFFFFE : IWord) = 2147483647#31 ++ 0#1 from rfl]
    simp only [BitVec.and_append, BitVec.and_zero, BitVec.reduceAnd]; decide
  refine reads h (by decide) rfl ?_
  refine (if_neg (ne_true_of_eq_false (miss h (by decide)))).trans <| (if_neg (ne_true_of_eq_false (miss h (by decide)))).trans <| (if_neg (ne_true_of_eq_false (miss h (by decide)))).trans <| (if_neg (ne_true_of_eq_false (miss h (by decide)))).trans <| (if_neg (ne_true_of_eq_false (miss h (by decide)))).trans <| (if_pos (hit h)).trans ?_
  simp (disch := decide) only [BitVec.extractLsb'_append_eq_of_le, BitVec.extractLsb'_append_eq_of_add_le, BitVec.extractLsb'_eq_self, Nat.reduceSub]

theorem RoundTrip.barModule (k : BitVec 1) : RoundTrip.Statement (.barModule k) := by
  have h : (67115029#31 ++ k : IWord) &&& 0xFFFFFFFE = 0x0800302A := by
    rw [show (0xFFFFFFFE : IWord) = 2147483647#31 ++ 0#1 from rfl]
    simp only [BitVec.and_append, BitVec.and_zero, BitVec.reduceAnd]; decide
  refine reads h (by decide) rfl ?_
  refine (if_neg (ne_true_of_eq_false (miss h (by decide)))).trans <| (if_neg (ne_true_of_eq_false (miss h (by decide)))).trans <| (if_neg (ne_true_of_eq_false (miss h (by decide)))).trans <| (if_neg (ne_true_of_eq_false (miss h (by decide)))).trans <| (if_neg (ne_true_of_eq_false (miss h (by decide)))).trans <| (if_neg (ne_true_of_eq_false (miss h (by decide)))).trans <| (if_pos (hit h)).trans ?_
  simp (disch := decide) only [BitVec.extractLsb'_append_eq_of_le, BitVec.extractLsb'_append_eq_of_add_le, BitVec.extractLsb'_eq_self, Nat.reduceSub]

theorem RoundTrip.barPod (k : BitVec 1) : RoundTrip.Statement (.barPod k) := by
  have h : (67117077#31 ++ k : IWord) &&& 0xFFFFFFFE = 0x0800402A := by
    rw [show (0xFFFFFFFE : IWord) = 2147483647#31 ++ 0#1 from rfl]
    simp only [BitVec.and_append, BitVec.and_zero, BitVec.reduceAnd]; decide
  refine reads h (by decide) rfl ?_
  refine (if_neg (ne_true_of_eq_false (miss h (by decide)))).trans <| (if_neg (ne_true_of_eq_false (miss h (by decide)))).trans <| (if_neg (ne_true_of_eq_false (miss h (by decide)))).trans <| (if_neg (ne_true_of_eq_false (miss h (by decide)))).trans <| (if_neg (ne_true_of_eq_false (miss h (by decide)))).trans <| (if_neg (ne_true_of_eq_false (miss h (by decide)))).trans <| (if_neg (ne_true_of_eq_false (miss h (by decide)))).trans <| (if_pos (hit h)).trans ?_
  simp (disch := decide) only [BitVec.extractLsb'_append_eq_of_le, BitVec.extractLsb'_append_eq_of_add_le, BitVec.extractLsb'_eq_self, Nat.reduceSub]

theorem RoundTrip.vadd (v : BitVec 1) (y : BitVec 2) (b : BitVec 5) (a : BitVec 5) (m : BitVec 3) (d : BitVec 5) (k : BitVec 1) : RoundTrip.Statement (.vadd v y b a m d k) := by
  have h : (0#4 ++ v ++ y ++ b ++ a ++ m ++ d ++ 22#6 ++ k : IWord) &&& 0xF000007E = 0x0000002C := by
    rw [show (0xF000007E : IWord) = 15#4 ++ 0#1 ++ 0#2 ++ 0#5 ++ 0#5 ++ 0#3 ++ 0#5 ++ 63#6 ++ 0#1 from rfl]
    simp only [BitVec.and_append, BitVec.and_zero, BitVec.reduceAnd]; decide
  refine reads h (by decide) rfl ?_
  refine (if_pos (hit h)).trans ?_
  simp (disch := decide) only [BitVec.extractLsb'_append_eq_of_le, BitVec.extractLsb'_append_eq_of_add_le, BitVec.extractLsb'_eq_self, Nat.reduceSub]

theorem RoundTrip.vsub (v : BitVec 1) (y : BitVec 2) (b : BitVec 5) (a : BitVec 5) (m : BitVec 3) (d : BitVec 5) (k : BitVec 1) : RoundTrip.Statement (.vsub v y b a m d k) := by
  have h : (1#4 ++ v ++ y ++ b ++ a ++ m ++ d ++ 22#6 ++ k : IWord) &&& 0xF000007E = 0x1000002C := by
    rw [show (0xF000007E : IWord) = 15#4 ++ 0#1 ++ 0#2 ++ 0#5 ++ 0#5 ++ 0#3 ++ 0#5 ++ 63#6 ++ 0#1 from rfl]
    simp only [BitVec.and_append, BitVec.and_zero, BitVec.reduceAnd]; decide
  refine reads h (by decide) rfl ?_
  refine (if_neg (ne_true_of_eq_false (miss h (by decide)))).trans <| (if_pos (hit h)).trans ?_
  simp (disch := decide) only [BitVec.extractLsb'_append_eq_of_le, BitVec.extractLsb'_append_eq_of_add_le, BitVec.extractLsb'_eq_self, Nat.reduceSub]

theorem RoundTrip.vmul (v : BitVec 1) (y : BitVec 2) (b : BitVec 5) (a : BitVec 5) (m : BitVec 3) (d : BitVec 5) (k : BitVec 1) : RoundTrip.Statement (.vmul v y b a m d k) := by
  have h : (2#4 ++ v ++ y ++ b ++ a ++ m ++ d ++ 22#6 ++ k : IWord) &&& 0xF000007E = 0x2000002C := by
    rw [show (0xF000007E : IWord) = 15#4 ++ 0#1 ++ 0#2 ++ 0#5 ++ 0#5 ++ 0#3 ++ 0#5 ++ 63#6 ++ 0#1 from rfl]
    simp only [BitVec.and_append, BitVec.and_zero, BitVec.reduceAnd]; decide
  refine reads h (by decide) rfl ?_
  refine (if_neg (ne_true_of_eq_false (miss h (by decide)))).trans <| (if_neg (ne_true_of_eq_false (miss h (by decide)))).trans <| (if_pos (hit h)).trans ?_
  simp (disch := decide) only [BitVec.extractLsb'_append_eq_of_le, BitVec.extractLsb'_append_eq_of_add_le, BitVec.extractLsb'_eq_self, Nat.reduceSub]

theorem RoundTrip.vfma (v : BitVec 1) (y : BitVec 2) (b : BitVec 5) (a : BitVec 5) (m : BitVec 3) (d : BitVec 5) (k : BitVec 1) : RoundTrip.Statement (.vfma v y b a m d k) := by
  have h : (3#4 ++ v ++ y ++ b ++ a ++ m ++ d ++ 22#6 ++ k : IWord) &&& 0xF000007E = 0x3000002C := by
    rw [show (0xF000007E : IWord) = 15#4 ++ 0#1 ++ 0#2 ++ 0#5 ++ 0#5 ++ 0#3 ++ 0#5 ++ 63#6 ++ 0#1 from rfl]
    simp only [BitVec.and_append, BitVec.and_zero, BitVec.reduceAnd]; decide
  refine reads h (by decide) rfl ?_
  refine (if_neg (ne_true_of_eq_false (miss h (by decide)))).trans <| (if_neg (ne_true_of_eq_false (miss h (by decide)))).trans <| (if_neg (ne_true_of_eq_false (miss h (by decide)))).trans <| (if_pos (hit h)).trans ?_
  simp (disch := decide) only [BitVec.extractLsb'_append_eq_of_le, BitVec.extractLsb'_append_eq_of_add_le, BitVec.extractLsb'_eq_self, Nat.reduceSub]

theorem RoundTrip.vfms (v : BitVec 1) (y : BitVec 2) (b : BitVec 5) (a : BitVec 5) (m : BitVec 3) (d : BitVec 5) (k : BitVec 1) : RoundTrip.Statement (.vfms v y b a m d k) := by
  have h : (4#4 ++ v ++ y ++ b ++ a ++ m ++ d ++ 22#6 ++ k : IWord) &&& 0xF000007E = 0x4000002C := by
    rw [show (0xF000007E : IWord) = 15#4 ++ 0#1 ++ 0#2 ++ 0#5 ++ 0#5 ++ 0#3 ++ 0#5 ++ 63#6 ++ 0#1 from rfl]
    simp only [BitVec.and_append, BitVec.and_zero, BitVec.reduceAnd]; decide
  refine reads h (by decide) rfl ?_
  refine (if_neg (ne_true_of_eq_false (miss h (by decide)))).trans <| (if_neg (ne_true_of_eq_false (miss h (by decide)))).trans <| (if_neg (ne_true_of_eq_false (miss h (by decide)))).trans <| (if_neg (ne_true_of_eq_false (miss h (by decide)))).trans <| (if_pos (hit h)).trans ?_
  simp (disch := decide) only [BitVec.extractLsb'_append_eq_of_le, BitVec.extractLsb'_append_eq_of_add_le, BitVec.extractLsb'_eq_self, Nat.reduceSub]

theorem RoundTrip.vfnma (v : BitVec 1) (y : BitVec 2) (b : BitVec 5) (a : BitVec 5) (m : BitVec 3) (d : BitVec 5) (k : BitVec 1) : RoundTrip.Statement (.vfnma v y b a m d k) := by
  have h : (5#4 ++ v ++ y ++ b ++ a ++ m ++ d ++ 22#6 ++ k : IWord) &&& 0xF000007E = 0x5000002C := by
    rw [show (0xF000007E : IWord) = 15#4 ++ 0#1 ++ 0#2 ++ 0#5 ++ 0#5 ++ 0#3 ++ 0#5 ++ 63#6 ++ 0#1 from rfl]
    simp only [BitVec.and_append, BitVec.and_zero, BitVec.reduceAnd]; decide
  refine reads h (by decide) rfl ?_
  refine (if_neg (ne_true_of_eq_false (miss h (by decide)))).trans <| (if_neg (ne_true_of_eq_false (miss h (by decide)))).trans <| (if_neg (ne_true_of_eq_false (miss h (by decide)))).trans <| (if_neg (ne_true_of_eq_false (miss h (by decide)))).trans <| (if_neg (ne_true_of_eq_false (miss h (by decide)))).trans <| (if_pos (hit h)).trans ?_
  simp (disch := decide) only [BitVec.extractLsb'_append_eq_of_le, BitVec.extractLsb'_append_eq_of_add_le, BitVec.extractLsb'_eq_self, Nat.reduceSub]

theorem RoundTrip.vmin (v : BitVec 1) (y : BitVec 2) (b : BitVec 5) (a : BitVec 5) (m : BitVec 3) (d : BitVec 5) (k : BitVec 1) : RoundTrip.Statement (.vmin v y b a m d k) := by
  have h : (6#4 ++ v ++ y ++ b ++ a ++ m ++ d ++ 22#6 ++ k : IWord) &&& 0xF000007E = 0x6000002C := by
    rw [show (0xF000007E : IWord) = 15#4 ++ 0#1 ++ 0#2 ++ 0#5 ++ 0#5 ++ 0#3 ++ 0#5 ++ 63#6 ++ 0#1 from rfl]
    simp only [BitVec.and_append, BitVec.and_zero, BitVec.reduceAnd]; decide
  refine reads h (by decide) rfl ?_
  refine (if_neg (ne_true_of_eq_false (miss h (by decide)))).trans <| (if_neg (ne_true_of_eq_false (miss h (by decide)))).trans <| (if_neg (ne_true_of_eq_false (miss h (by decide)))).trans <| (if_neg (ne_true_of_eq_false (miss h (by decide)))).trans <| (if_neg (ne_true_of_eq_false (miss h (by decide)))).trans <| (if_neg (ne_true_of_eq_false (miss h (by decide)))).trans <| (if_pos (hit h)).trans ?_
  simp (disch := decide) only [BitVec.extractLsb'_append_eq_of_le, BitVec.extractLsb'_append_eq_of_add_le, BitVec.extractLsb'_eq_self, Nat.reduceSub]

theorem RoundTrip.vmax (v : BitVec 1) (y : BitVec 2) (b : BitVec 5) (a : BitVec 5) (m : BitVec 3) (d : BitVec 5) (k : BitVec 1) : RoundTrip.Statement (.vmax v y b a m d k) := by
  have h : (7#4 ++ v ++ y ++ b ++ a ++ m ++ d ++ 22#6 ++ k : IWord) &&& 0xF000007E = 0x7000002C := by
    rw [show (0xF000007E : IWord) = 15#4 ++ 0#1 ++ 0#2 ++ 0#5 ++ 0#5 ++ 0#3 ++ 0#5 ++ 63#6 ++ 0#1 from rfl]
    simp only [BitVec.and_append, BitVec.and_zero, BitVec.reduceAnd]; decide
  refine reads h (by decide) rfl ?_
  refine (if_neg (ne_true_of_eq_false (miss h (by decide)))).trans <| (if_neg (ne_true_of_eq_false (miss h (by decide)))).trans <| (if_neg (ne_true_of_eq_false (miss h (by decide)))).trans <| (if_neg (ne_true_of_eq_false (miss h (by decide)))).trans <| (if_neg (ne_true_of_eq_false (miss h (by decide)))).trans <| (if_neg (ne_true_of_eq_false (miss h (by decide)))).trans <| (if_neg (ne_true_of_eq_false (miss h (by decide)))).trans <| (if_pos (hit h)).trans ?_
  simp (disch := decide) only [BitVec.extractLsb'_append_eq_of_le, BitVec.extractLsb'_append_eq_of_add_le, BitVec.extractLsb'_eq_self, Nat.reduceSub]

theorem RoundTrip.vcmpEq (v : BitVec 1) (y : BitVec 2) (b : BitVec 5) (a : BitVec 5) (m : BitVec 3) (d : BitVec 5) (k : BitVec 1) : RoundTrip.Statement (.vcmpEq v y b a m d k) := by
  have h : (8#4 ++ v ++ y ++ b ++ a ++ m ++ d ++ 22#6 ++ k : IWord) &&& 0xF000007E = 0x8000002C := by
    rw [show (0xF000007E : IWord) = 15#4 ++ 0#1 ++ 0#2 ++ 0#5 ++ 0#5 ++ 0#3 ++ 0#5 ++ 63#6 ++ 0#1 from rfl]
    simp only [BitVec.and_append, BitVec.and_zero, BitVec.reduceAnd]; decide
  refine reads h (by decide) rfl ?_
  refine (if_neg (ne_true_of_eq_false (miss h (by decide)))).trans <| (if_neg (ne_true_of_eq_false (miss h (by decide)))).trans <| (if_neg (ne_true_of_eq_false (miss h (by decide)))).trans <| (if_neg (ne_true_of_eq_false (miss h (by decide)))).trans <| (if_neg (ne_true_of_eq_false (miss h (by decide)))).trans <| (if_neg (ne_true_of_eq_false (miss h (by decide)))).trans <| (if_neg (ne_true_of_eq_false (miss h (by decide)))).trans <| (if_neg (ne_true_of_eq_false (miss h (by decide)))).trans <| (if_pos (hit h)).trans ?_
  simp (disch := decide) only [BitVec.extractLsb'_append_eq_of_le, BitVec.extractLsb'_append_eq_of_add_le, BitVec.extractLsb'_eq_self, Nat.reduceSub]

theorem RoundTrip.vcmpLt (v : BitVec 1) (y : BitVec 2) (b : BitVec 5) (a : BitVec 5) (m : BitVec 3) (d : BitVec 5) (k : BitVec 1) : RoundTrip.Statement (.vcmpLt v y b a m d k) := by
  have h : (9#4 ++ v ++ y ++ b ++ a ++ m ++ d ++ 22#6 ++ k : IWord) &&& 0xF000007E = 0x9000002C := by
    rw [show (0xF000007E : IWord) = 15#4 ++ 0#1 ++ 0#2 ++ 0#5 ++ 0#5 ++ 0#3 ++ 0#5 ++ 63#6 ++ 0#1 from rfl]
    simp only [BitVec.and_append, BitVec.and_zero, BitVec.reduceAnd]; decide
  refine reads h (by decide) rfl ?_
  refine (if_neg (ne_true_of_eq_false (miss h (by decide)))).trans <| (if_neg (ne_true_of_eq_false (miss h (by decide)))).trans <| (if_neg (ne_true_of_eq_false (miss h (by decide)))).trans <| (if_neg (ne_true_of_eq_false (miss h (by decide)))).trans <| (if_neg (ne_true_of_eq_false (miss h (by decide)))).trans <| (if_neg (ne_true_of_eq_false (miss h (by decide)))).trans <| (if_neg (ne_true_of_eq_false (miss h (by decide)))).trans <| (if_neg (ne_true_of_eq_false (miss h (by decide)))).trans <| (if_neg (ne_true_of_eq_false (miss h (by decide)))).trans <| (if_pos (hit h)).trans ?_
  simp (disch := decide) only [BitVec.extractLsb'_append_eq_of_le, BitVec.extractLsb'_append_eq_of_add_le, BitVec.extractLsb'_eq_self, Nat.reduceSub]

theorem RoundTrip.vcmpLe (v : BitVec 1) (y : BitVec 2) (b : BitVec 5) (a : BitVec 5) (m : BitVec 3) (d : BitVec 5) (k : BitVec 1) : RoundTrip.Statement (.vcmpLe v y b a m d k) := by
  have h : (10#4 ++ v ++ y ++ b ++ a ++ m ++ d ++ 22#6 ++ k : IWord) &&& 0xF000007E = 0xA000002C := by
    rw [show (0xF000007E : IWord) = 15#4 ++ 0#1 ++ 0#2 ++ 0#5 ++ 0#5 ++ 0#3 ++ 0#5 ++ 63#6 ++ 0#1 from rfl]
    simp only [BitVec.and_append, BitVec.and_zero, BitVec.reduceAnd]; decide
  refine reads h (by decide) rfl ?_
  refine (if_neg (ne_true_of_eq_false (miss h (by decide)))).trans <| (if_neg (ne_true_of_eq_false (miss h (by decide)))).trans <| (if_neg (ne_true_of_eq_false (miss h (by decide)))).trans <| (if_neg (ne_true_of_eq_false (miss h (by decide)))).trans <| (if_neg (ne_true_of_eq_false (miss h (by decide)))).trans <| (if_neg (ne_true_of_eq_false (miss h (by decide)))).trans <| (if_neg (ne_true_of_eq_false (miss h (by decide)))).trans <| (if_neg (ne_true_of_eq_false (miss h (by decide)))).trans <| (if_neg (ne_true_of_eq_false (miss h (by decide)))).trans <| (if_neg (ne_true_of_eq_false (miss h (by decide)))).trans <| (if_pos (hit h)).trans ?_
  simp (disch := decide) only [BitVec.extractLsb'_append_eq_of_le, BitVec.extractLsb'_append_eq_of_add_le, BitVec.extractLsb'_eq_self, Nat.reduceSub]

theorem RoundTrip.vsel (v : BitVec 1) (y : BitVec 2) (b : BitVec 5) (a : BitVec 5) (m : BitVec 3) (d : BitVec 5) (k : BitVec 1) : RoundTrip.Statement (.vsel v y b a m d k) := by
  have h : (11#4 ++ v ++ y ++ b ++ a ++ m ++ d ++ 22#6 ++ k : IWord) &&& 0xF000007E = 0xB000002C := by
    rw [show (0xF000007E : IWord) = 15#4 ++ 0#1 ++ 0#2 ++ 0#5 ++ 0#5 ++ 0#3 ++ 0#5 ++ 63#6 ++ 0#1 from rfl]
    simp only [BitVec.and_append, BitVec.and_zero, BitVec.reduceAnd]; decide
  refine reads h (by decide) rfl ?_
  refine (if_neg (ne_true_of_eq_false (miss h (by decide)))).trans <| (if_neg (ne_true_of_eq_false (miss h (by decide)))).trans <| (if_neg (ne_true_of_eq_false (miss h (by decide)))).trans <| (if_neg (ne_true_of_eq_false (miss h (by decide)))).trans <| (if_neg (ne_true_of_eq_false (miss h (by decide)))).trans <| (if_neg (ne_true_of_eq_false (miss h (by decide)))).trans <| (if_neg (ne_true_of_eq_false (miss h (by decide)))).trans <| (if_neg (ne_true_of_eq_false (miss h (by decide)))).trans <| (if_neg (ne_true_of_eq_false (miss h (by decide)))).trans <| (if_neg (ne_true_of_eq_false (miss h (by decide)))).trans <| (if_neg (ne_true_of_eq_false (miss h (by decide)))).trans <| (if_pos (hit h)).trans ?_
  simp (disch := decide) only [BitVec.extractLsb'_append_eq_of_le, BitVec.extractLsb'_append_eq_of_add_le, BitVec.extractLsb'_eq_self, Nat.reduceSub]

theorem RoundTrip.vabs (y : BitVec 2) (a : BitVec 5) (m : BitVec 3) (d : BitVec 5) (k : BitVec 1) : RoundTrip.Statement (.vabs y a m d k) := by
  have h : (24#5 ++ y ++ 0#5 ++ a ++ m ++ d ++ 22#6 ++ k : IWord) &&& 0xF9F0007E = 0xC000002C := by
    rw [show (0xF9F0007E : IWord) = 31#5 ++ 0#2 ++ 31#5 ++ 0#5 ++ 0#3 ++ 0#5 ++ 63#6 ++ 0#1 from rfl]
    simp only [BitVec.and_append, BitVec.and_zero, BitVec.reduceAnd]; decide
  refine reads h (by decide) rfl ?_
  refine (if_neg (ne_true_of_eq_false (miss h (by decide)))).trans <| (if_neg (ne_true_of_eq_false (miss h (by decide)))).trans <| (if_neg (ne_true_of_eq_false (miss h (by decide)))).trans <| (if_neg (ne_true_of_eq_false (miss h (by decide)))).trans <| (if_neg (ne_true_of_eq_false (miss h (by decide)))).trans <| (if_neg (ne_true_of_eq_false (miss h (by decide)))).trans <| (if_neg (ne_true_of_eq_false (miss h (by decide)))).trans <| (if_neg (ne_true_of_eq_false (miss h (by decide)))).trans <| (if_neg (ne_true_of_eq_false (miss h (by decide)))).trans <| (if_neg (ne_true_of_eq_false (miss h (by decide)))).trans <| (if_neg (ne_true_of_eq_false (miss h (by decide)))).trans <| (if_neg (ne_true_of_eq_false (miss h (by decide)))).trans <| (if_pos (hit h)).trans ?_
  simp (disch := decide) only [BitVec.extractLsb'_append_eq_of_le, BitVec.extractLsb'_append_eq_of_add_le, BitVec.extractLsb'_eq_self, Nat.reduceSub]

theorem RoundTrip.vneg (y : BitVec 2) (a : BitVec 5) (m : BitVec 3) (d : BitVec 5) (k : BitVec 1) : RoundTrip.Statement (.vneg y a m d k) := by
  have h : (24#5 ++ y ++ 1#5 ++ a ++ m ++ d ++ 22#6 ++ k : IWord) &&& 0xF9F0007E = 0xC010002C := by
    rw [show (0xF9F0007E : IWord) = 31#5 ++ 0#2 ++ 31#5 ++ 0#5 ++ 0#3 ++ 0#5 ++ 63#6 ++ 0#1 from rfl]
    simp only [BitVec.and_append, BitVec.and_zero, BitVec.reduceAnd]; decide
  refine reads h (by decide) rfl ?_
  refine (if_neg (ne_true_of_eq_false (miss h (by decide)))).trans <| (if_neg (ne_true_of_eq_false (miss h (by decide)))).trans <| (if_neg (ne_true_of_eq_false (miss h (by decide)))).trans <| (if_neg (ne_true_of_eq_false (miss h (by decide)))).trans <| (if_neg (ne_true_of_eq_false (miss h (by decide)))).trans <| (if_neg (ne_true_of_eq_false (miss h (by decide)))).trans <| (if_neg (ne_true_of_eq_false (miss h (by decide)))).trans <| (if_neg (ne_true_of_eq_false (miss h (by decide)))).trans <| (if_neg (ne_true_of_eq_false (miss h (by decide)))).trans <| (if_neg (ne_true_of_eq_false (miss h (by decide)))).trans <| (if_neg (ne_true_of_eq_false (miss h (by decide)))).trans <| (if_neg (ne_true_of_eq_false (miss h (by decide)))).trans <| (if_neg (ne_true_of_eq_false (miss h (by decide)))).trans <| (if_pos (hit h)).trans ?_
  simp (disch := decide) only [BitVec.extractLsb'_append_eq_of_le, BitVec.extractLsb'_append_eq_of_add_le, BitVec.extractLsb'_eq_self, Nat.reduceSub]

theorem RoundTrip.vrcp (y : BitVec 2) (a : BitVec 5) (m : BitVec 3) (d : BitVec 5) (k : BitVec 1) : RoundTrip.Statement (.vrcp y a m d k) := by
  have h : (24#5 ++ y ++ 2#5 ++ a ++ m ++ d ++ 22#6 ++ k : IWord) &&& 0xF9F0007E = 0xC020002C := by
    rw [show (0xF9F0007E : IWord) = 31#5 ++ 0#2 ++ 31#5 ++ 0#5 ++ 0#3 ++ 0#5 ++ 63#6 ++ 0#1 from rfl]
    simp only [BitVec.and_append, BitVec.and_zero, BitVec.reduceAnd]; decide
  refine reads h (by decide) rfl ?_
  refine (if_neg (ne_true_of_eq_false (miss h (by decide)))).trans <| (if_neg (ne_true_of_eq_false (miss h (by decide)))).trans <| (if_neg (ne_true_of_eq_false (miss h (by decide)))).trans <| (if_neg (ne_true_of_eq_false (miss h (by decide)))).trans <| (if_neg (ne_true_of_eq_false (miss h (by decide)))).trans <| (if_neg (ne_true_of_eq_false (miss h (by decide)))).trans <| (if_neg (ne_true_of_eq_false (miss h (by decide)))).trans <| (if_neg (ne_true_of_eq_false (miss h (by decide)))).trans <| (if_neg (ne_true_of_eq_false (miss h (by decide)))).trans <| (if_neg (ne_true_of_eq_false (miss h (by decide)))).trans <| (if_neg (ne_true_of_eq_false (miss h (by decide)))).trans <| (if_neg (ne_true_of_eq_false (miss h (by decide)))).trans <| (if_neg (ne_true_of_eq_false (miss h (by decide)))).trans <| (if_neg (ne_true_of_eq_false (miss h (by decide)))).trans <| (if_pos (hit h)).trans ?_
  simp (disch := decide) only [BitVec.extractLsb'_append_eq_of_le, BitVec.extractLsb'_append_eq_of_add_le, BitVec.extractLsb'_eq_self, Nat.reduceSub]

theorem RoundTrip.vrsq (y : BitVec 2) (a : BitVec 5) (m : BitVec 3) (d : BitVec 5) (k : BitVec 1) : RoundTrip.Statement (.vrsq y a m d k) := by
  have h : (24#5 ++ y ++ 3#5 ++ a ++ m ++ d ++ 22#6 ++ k : IWord) &&& 0xF9F0007E = 0xC030002C := by
    rw [show (0xF9F0007E : IWord) = 31#5 ++ 0#2 ++ 31#5 ++ 0#5 ++ 0#3 ++ 0#5 ++ 63#6 ++ 0#1 from rfl]
    simp only [BitVec.and_append, BitVec.and_zero, BitVec.reduceAnd]; decide
  refine reads h (by decide) rfl ?_
  refine (if_neg (ne_true_of_eq_false (miss h (by decide)))).trans <| (if_neg (ne_true_of_eq_false (miss h (by decide)))).trans <| (if_neg (ne_true_of_eq_false (miss h (by decide)))).trans <| (if_neg (ne_true_of_eq_false (miss h (by decide)))).trans <| (if_neg (ne_true_of_eq_false (miss h (by decide)))).trans <| (if_neg (ne_true_of_eq_false (miss h (by decide)))).trans <| (if_neg (ne_true_of_eq_false (miss h (by decide)))).trans <| (if_neg (ne_true_of_eq_false (miss h (by decide)))).trans <| (if_neg (ne_true_of_eq_false (miss h (by decide)))).trans <| (if_neg (ne_true_of_eq_false (miss h (by decide)))).trans <| (if_neg (ne_true_of_eq_false (miss h (by decide)))).trans <| (if_neg (ne_true_of_eq_false (miss h (by decide)))).trans <| (if_neg (ne_true_of_eq_false (miss h (by decide)))).trans <| (if_neg (ne_true_of_eq_false (miss h (by decide)))).trans <| (if_neg (ne_true_of_eq_false (miss h (by decide)))).trans <| (if_pos (hit h)).trans ?_
  simp (disch := decide) only [BitVec.extractLsb'_append_eq_of_le, BitVec.extractLsb'_append_eq_of_add_le, BitVec.extractLsb'_eq_self, Nat.reduceSub]

theorem RoundTrip.vsqrt (y : BitVec 2) (a : BitVec 5) (m : BitVec 3) (d : BitVec 5) (k : BitVec 1) : RoundTrip.Statement (.vsqrt y a m d k) := by
  have h : (24#5 ++ y ++ 4#5 ++ a ++ m ++ d ++ 22#6 ++ k : IWord) &&& 0xF9F0007E = 0xC040002C := by
    rw [show (0xF9F0007E : IWord) = 31#5 ++ 0#2 ++ 31#5 ++ 0#5 ++ 0#3 ++ 0#5 ++ 63#6 ++ 0#1 from rfl]
    simp only [BitVec.and_append, BitVec.and_zero, BitVec.reduceAnd]; decide
  refine reads h (by decide) rfl ?_
  refine (if_neg (ne_true_of_eq_false (miss h (by decide)))).trans <| (if_neg (ne_true_of_eq_false (miss h (by decide)))).trans <| (if_neg (ne_true_of_eq_false (miss h (by decide)))).trans <| (if_neg (ne_true_of_eq_false (miss h (by decide)))).trans <| (if_neg (ne_true_of_eq_false (miss h (by decide)))).trans <| (if_neg (ne_true_of_eq_false (miss h (by decide)))).trans <| (if_neg (ne_true_of_eq_false (miss h (by decide)))).trans <| (if_neg (ne_true_of_eq_false (miss h (by decide)))).trans <| (if_neg (ne_true_of_eq_false (miss h (by decide)))).trans <| (if_neg (ne_true_of_eq_false (miss h (by decide)))).trans <| (if_neg (ne_true_of_eq_false (miss h (by decide)))).trans <| (if_neg (ne_true_of_eq_false (miss h (by decide)))).trans <| (if_neg (ne_true_of_eq_false (miss h (by decide)))).trans <| (if_neg (ne_true_of_eq_false (miss h (by decide)))).trans <| (if_neg (ne_true_of_eq_false (miss h (by decide)))).trans <| (if_neg (ne_true_of_eq_false (miss h (by decide)))).trans <| (if_pos (hit h)).trans ?_
  simp (disch := decide) only [BitVec.extractLsb'_append_eq_of_le, BitVec.extractLsb'_append_eq_of_add_le, BitVec.extractLsb'_eq_self, Nat.reduceSub]

theorem RoundTrip.vexp2 (y : BitVec 2) (a : BitVec 5) (m : BitVec 3) (d : BitVec 5) (k : BitVec 1) : RoundTrip.Statement (.vexp2 y a m d k) := by
  have h : (24#5 ++ y ++ 5#5 ++ a ++ m ++ d ++ 22#6 ++ k : IWord) &&& 0xF9F0007E = 0xC050002C := by
    rw [show (0xF9F0007E : IWord) = 31#5 ++ 0#2 ++ 31#5 ++ 0#5 ++ 0#3 ++ 0#5 ++ 63#6 ++ 0#1 from rfl]
    simp only [BitVec.and_append, BitVec.and_zero, BitVec.reduceAnd]; decide
  refine reads h (by decide) rfl ?_
  refine (if_neg (ne_true_of_eq_false (miss h (by decide)))).trans <| (if_neg (ne_true_of_eq_false (miss h (by decide)))).trans <| (if_neg (ne_true_of_eq_false (miss h (by decide)))).trans <| (if_neg (ne_true_of_eq_false (miss h (by decide)))).trans <| (if_neg (ne_true_of_eq_false (miss h (by decide)))).trans <| (if_neg (ne_true_of_eq_false (miss h (by decide)))).trans <| (if_neg (ne_true_of_eq_false (miss h (by decide)))).trans <| (if_neg (ne_true_of_eq_false (miss h (by decide)))).trans <| (if_neg (ne_true_of_eq_false (miss h (by decide)))).trans <| (if_neg (ne_true_of_eq_false (miss h (by decide)))).trans <| (if_neg (ne_true_of_eq_false (miss h (by decide)))).trans <| (if_neg (ne_true_of_eq_false (miss h (by decide)))).trans <| (if_neg (ne_true_of_eq_false (miss h (by decide)))).trans <| (if_neg (ne_true_of_eq_false (miss h (by decide)))).trans <| (if_neg (ne_true_of_eq_false (miss h (by decide)))).trans <| (if_neg (ne_true_of_eq_false (miss h (by decide)))).trans <| (if_neg (ne_true_of_eq_false (miss h (by decide)))).trans <| (if_pos (hit h)).trans ?_
  simp (disch := decide) only [BitVec.extractLsb'_append_eq_of_le, BitVec.extractLsb'_append_eq_of_add_le, BitVec.extractLsb'_eq_self, Nat.reduceSub]

theorem RoundTrip.vlog2 (y : BitVec 2) (a : BitVec 5) (m : BitVec 3) (d : BitVec 5) (k : BitVec 1) : RoundTrip.Statement (.vlog2 y a m d k) := by
  have h : (24#5 ++ y ++ 6#5 ++ a ++ m ++ d ++ 22#6 ++ k : IWord) &&& 0xF9F0007E = 0xC060002C := by
    rw [show (0xF9F0007E : IWord) = 31#5 ++ 0#2 ++ 31#5 ++ 0#5 ++ 0#3 ++ 0#5 ++ 63#6 ++ 0#1 from rfl]
    simp only [BitVec.and_append, BitVec.and_zero, BitVec.reduceAnd]; decide
  refine reads h (by decide) rfl ?_
  refine (if_neg (ne_true_of_eq_false (miss h (by decide)))).trans <| (if_neg (ne_true_of_eq_false (miss h (by decide)))).trans <| (if_neg (ne_true_of_eq_false (miss h (by decide)))).trans <| (if_neg (ne_true_of_eq_false (miss h (by decide)))).trans <| (if_neg (ne_true_of_eq_false (miss h (by decide)))).trans <| (if_neg (ne_true_of_eq_false (miss h (by decide)))).trans <| (if_neg (ne_true_of_eq_false (miss h (by decide)))).trans <| (if_neg (ne_true_of_eq_false (miss h (by decide)))).trans <| (if_neg (ne_true_of_eq_false (miss h (by decide)))).trans <| (if_neg (ne_true_of_eq_false (miss h (by decide)))).trans <| (if_neg (ne_true_of_eq_false (miss h (by decide)))).trans <| (if_neg (ne_true_of_eq_false (miss h (by decide)))).trans <| (if_neg (ne_true_of_eq_false (miss h (by decide)))).trans <| (if_neg (ne_true_of_eq_false (miss h (by decide)))).trans <| (if_neg (ne_true_of_eq_false (miss h (by decide)))).trans <| (if_neg (ne_true_of_eq_false (miss h (by decide)))).trans <| (if_neg (ne_true_of_eq_false (miss h (by decide)))).trans <| (if_neg (ne_true_of_eq_false (miss h (by decide)))).trans <| (if_pos (hit h)).trans ?_
  simp (disch := decide) only [BitVec.extractLsb'_append_eq_of_le, BitVec.extractLsb'_append_eq_of_add_le, BitVec.extractLsb'_eq_self, Nat.reduceSub]

theorem RoundTrip.viadd (v : BitVec 1) (y : BitVec 2) (b : BitVec 5) (a : BitVec 5) (m : BitVec 3) (d : BitVec 5) (k : BitVec 1) : RoundTrip.Statement (.viadd v y b a m d k) := by
  have h : (0#4 ++ v ++ y ++ b ++ a ++ m ++ d ++ 23#6 ++ k : IWord) &&& 0xF000007E = 0x0000002E := by
    rw [show (0xF000007E : IWord) = 15#4 ++ 0#1 ++ 0#2 ++ 0#5 ++ 0#5 ++ 0#3 ++ 0#5 ++ 63#6 ++ 0#1 from rfl]
    simp only [BitVec.and_append, BitVec.and_zero, BitVec.reduceAnd]; decide
  refine reads h (by decide) rfl ?_
  refine (if_pos (hit h)).trans ?_
  simp (disch := decide) only [BitVec.extractLsb'_append_eq_of_le, BitVec.extractLsb'_append_eq_of_add_le, BitVec.extractLsb'_eq_self, Nat.reduceSub]

theorem RoundTrip.visub (v : BitVec 1) (y : BitVec 2) (b : BitVec 5) (a : BitVec 5) (m : BitVec 3) (d : BitVec 5) (k : BitVec 1) : RoundTrip.Statement (.visub v y b a m d k) := by
  have h : (1#4 ++ v ++ y ++ b ++ a ++ m ++ d ++ 23#6 ++ k : IWord) &&& 0xF000007E = 0x1000002E := by
    rw [show (0xF000007E : IWord) = 15#4 ++ 0#1 ++ 0#2 ++ 0#5 ++ 0#5 ++ 0#3 ++ 0#5 ++ 63#6 ++ 0#1 from rfl]
    simp only [BitVec.and_append, BitVec.and_zero, BitVec.reduceAnd]; decide
  refine reads h (by decide) rfl ?_
  refine (if_neg (ne_true_of_eq_false (miss h (by decide)))).trans <| (if_pos (hit h)).trans ?_
  simp (disch := decide) only [BitVec.extractLsb'_append_eq_of_le, BitVec.extractLsb'_append_eq_of_add_le, BitVec.extractLsb'_eq_self, Nat.reduceSub]

theorem RoundTrip.vimul (v : BitVec 1) (y : BitVec 2) (b : BitVec 5) (a : BitVec 5) (m : BitVec 3) (d : BitVec 5) (k : BitVec 1) : RoundTrip.Statement (.vimul v y b a m d k) := by
  have h : (2#4 ++ v ++ y ++ b ++ a ++ m ++ d ++ 23#6 ++ k : IWord) &&& 0xF000007E = 0x2000002E := by
    rw [show (0xF000007E : IWord) = 15#4 ++ 0#1 ++ 0#2 ++ 0#5 ++ 0#5 ++ 0#3 ++ 0#5 ++ 63#6 ++ 0#1 from rfl]
    simp only [BitVec.and_append, BitVec.and_zero, BitVec.reduceAnd]; decide
  refine reads h (by decide) rfl ?_
  refine (if_neg (ne_true_of_eq_false (miss h (by decide)))).trans <| (if_neg (ne_true_of_eq_false (miss h (by decide)))).trans <| (if_pos (hit h)).trans ?_
  simp (disch := decide) only [BitVec.extractLsb'_append_eq_of_le, BitVec.extractLsb'_append_eq_of_add_le, BitVec.extractLsb'_eq_self, Nat.reduceSub]

theorem RoundTrip.vimad (v : BitVec 1) (y : BitVec 2) (b : BitVec 5) (a : BitVec 5) (m : BitVec 3) (d : BitVec 5) (k : BitVec 1) : RoundTrip.Statement (.vimad v y b a m d k) := by
  have h : (3#4 ++ v ++ y ++ b ++ a ++ m ++ d ++ 23#6 ++ k : IWord) &&& 0xF000007E = 0x3000002E := by
    rw [show (0xF000007E : IWord) = 15#4 ++ 0#1 ++ 0#2 ++ 0#5 ++ 0#5 ++ 0#3 ++ 0#5 ++ 63#6 ++ 0#1 from rfl]
    simp only [BitVec.and_append, BitVec.and_zero, BitVec.reduceAnd]; decide
  refine reads h (by decide) rfl ?_
  refine (if_neg (ne_true_of_eq_false (miss h (by decide)))).trans <| (if_neg (ne_true_of_eq_false (miss h (by decide)))).trans <| (if_neg (ne_true_of_eq_false (miss h (by decide)))).trans <| (if_pos (hit h)).trans ?_
  simp (disch := decide) only [BitVec.extractLsb'_append_eq_of_le, BitVec.extractLsb'_append_eq_of_add_le, BitVec.extractLsb'_eq_self, Nat.reduceSub]

theorem RoundTrip.vand (v : BitVec 1) (y : BitVec 2) (b : BitVec 5) (a : BitVec 5) (m : BitVec 3) (d : BitVec 5) (k : BitVec 1) : RoundTrip.Statement (.vand v y b a m d k) := by
  have h : (4#4 ++ v ++ y ++ b ++ a ++ m ++ d ++ 23#6 ++ k : IWord) &&& 0xF000007E = 0x4000002E := by
    rw [show (0xF000007E : IWord) = 15#4 ++ 0#1 ++ 0#2 ++ 0#5 ++ 0#5 ++ 0#3 ++ 0#5 ++ 63#6 ++ 0#1 from rfl]
    simp only [BitVec.and_append, BitVec.and_zero, BitVec.reduceAnd]; decide
  refine reads h (by decide) rfl ?_
  refine (if_neg (ne_true_of_eq_false (miss h (by decide)))).trans <| (if_neg (ne_true_of_eq_false (miss h (by decide)))).trans <| (if_neg (ne_true_of_eq_false (miss h (by decide)))).trans <| (if_neg (ne_true_of_eq_false (miss h (by decide)))).trans <| (if_pos (hit h)).trans ?_
  simp (disch := decide) only [BitVec.extractLsb'_append_eq_of_le, BitVec.extractLsb'_append_eq_of_add_le, BitVec.extractLsb'_eq_self, Nat.reduceSub]

theorem RoundTrip.vor (v : BitVec 1) (y : BitVec 2) (b : BitVec 5) (a : BitVec 5) (m : BitVec 3) (d : BitVec 5) (k : BitVec 1) : RoundTrip.Statement (.vor v y b a m d k) := by
  have h : (5#4 ++ v ++ y ++ b ++ a ++ m ++ d ++ 23#6 ++ k : IWord) &&& 0xF000007E = 0x5000002E := by
    rw [show (0xF000007E : IWord) = 15#4 ++ 0#1 ++ 0#2 ++ 0#5 ++ 0#5 ++ 0#3 ++ 0#5 ++ 63#6 ++ 0#1 from rfl]
    simp only [BitVec.and_append, BitVec.and_zero, BitVec.reduceAnd]; decide
  refine reads h (by decide) rfl ?_
  refine (if_neg (ne_true_of_eq_false (miss h (by decide)))).trans <| (if_neg (ne_true_of_eq_false (miss h (by decide)))).trans <| (if_neg (ne_true_of_eq_false (miss h (by decide)))).trans <| (if_neg (ne_true_of_eq_false (miss h (by decide)))).trans <| (if_neg (ne_true_of_eq_false (miss h (by decide)))).trans <| (if_pos (hit h)).trans ?_
  simp (disch := decide) only [BitVec.extractLsb'_append_eq_of_le, BitVec.extractLsb'_append_eq_of_add_le, BitVec.extractLsb'_eq_self, Nat.reduceSub]

theorem RoundTrip.vxor (v : BitVec 1) (y : BitVec 2) (b : BitVec 5) (a : BitVec 5) (m : BitVec 3) (d : BitVec 5) (k : BitVec 1) : RoundTrip.Statement (.vxor v y b a m d k) := by
  have h : (6#4 ++ v ++ y ++ b ++ a ++ m ++ d ++ 23#6 ++ k : IWord) &&& 0xF000007E = 0x6000002E := by
    rw [show (0xF000007E : IWord) = 15#4 ++ 0#1 ++ 0#2 ++ 0#5 ++ 0#5 ++ 0#3 ++ 0#5 ++ 63#6 ++ 0#1 from rfl]
    simp only [BitVec.and_append, BitVec.and_zero, BitVec.reduceAnd]; decide
  refine reads h (by decide) rfl ?_
  refine (if_neg (ne_true_of_eq_false (miss h (by decide)))).trans <| (if_neg (ne_true_of_eq_false (miss h (by decide)))).trans <| (if_neg (ne_true_of_eq_false (miss h (by decide)))).trans <| (if_neg (ne_true_of_eq_false (miss h (by decide)))).trans <| (if_neg (ne_true_of_eq_false (miss h (by decide)))).trans <| (if_neg (ne_true_of_eq_false (miss h (by decide)))).trans <| (if_pos (hit h)).trans ?_
  simp (disch := decide) only [BitVec.extractLsb'_append_eq_of_le, BitVec.extractLsb'_append_eq_of_add_le, BitVec.extractLsb'_eq_self, Nat.reduceSub]

theorem RoundTrip.vshl (v : BitVec 1) (y : BitVec 2) (b : BitVec 5) (a : BitVec 5) (m : BitVec 3) (d : BitVec 5) (k : BitVec 1) : RoundTrip.Statement (.vshl v y b a m d k) := by
  have h : (7#4 ++ v ++ y ++ b ++ a ++ m ++ d ++ 23#6 ++ k : IWord) &&& 0xF000007E = 0x7000002E := by
    rw [show (0xF000007E : IWord) = 15#4 ++ 0#1 ++ 0#2 ++ 0#5 ++ 0#5 ++ 0#3 ++ 0#5 ++ 63#6 ++ 0#1 from rfl]
    simp only [BitVec.and_append, BitVec.and_zero, BitVec.reduceAnd]; decide
  refine reads h (by decide) rfl ?_
  refine (if_neg (ne_true_of_eq_false (miss h (by decide)))).trans <| (if_neg (ne_true_of_eq_false (miss h (by decide)))).trans <| (if_neg (ne_true_of_eq_false (miss h (by decide)))).trans <| (if_neg (ne_true_of_eq_false (miss h (by decide)))).trans <| (if_neg (ne_true_of_eq_false (miss h (by decide)))).trans <| (if_neg (ne_true_of_eq_false (miss h (by decide)))).trans <| (if_neg (ne_true_of_eq_false (miss h (by decide)))).trans <| (if_pos (hit h)).trans ?_
  simp (disch := decide) only [BitVec.extractLsb'_append_eq_of_le, BitVec.extractLsb'_append_eq_of_add_le, BitVec.extractLsb'_eq_self, Nat.reduceSub]

theorem RoundTrip.vshr (v : BitVec 1) (y : BitVec 2) (b : BitVec 5) (a : BitVec 5) (m : BitVec 3) (d : BitVec 5) (k : BitVec 1) : RoundTrip.Statement (.vshr v y b a m d k) := by
  have h : (8#4 ++ v ++ y ++ b ++ a ++ m ++ d ++ 23#6 ++ k : IWord) &&& 0xF000007E = 0x8000002E := by
    rw [show (0xF000007E : IWord) = 15#4 ++ 0#1 ++ 0#2 ++ 0#5 ++ 0#5 ++ 0#3 ++ 0#5 ++ 63#6 ++ 0#1 from rfl]
    simp only [BitVec.and_append, BitVec.and_zero, BitVec.reduceAnd]; decide
  refine reads h (by decide) rfl ?_
  refine (if_neg (ne_true_of_eq_false (miss h (by decide)))).trans <| (if_neg (ne_true_of_eq_false (miss h (by decide)))).trans <| (if_neg (ne_true_of_eq_false (miss h (by decide)))).trans <| (if_neg (ne_true_of_eq_false (miss h (by decide)))).trans <| (if_neg (ne_true_of_eq_false (miss h (by decide)))).trans <| (if_neg (ne_true_of_eq_false (miss h (by decide)))).trans <| (if_neg (ne_true_of_eq_false (miss h (by decide)))).trans <| (if_neg (ne_true_of_eq_false (miss h (by decide)))).trans <| (if_pos (hit h)).trans ?_
  simp (disch := decide) only [BitVec.extractLsb'_append_eq_of_le, BitVec.extractLsb'_append_eq_of_add_le, BitVec.extractLsb'_eq_self, Nat.reduceSub]

theorem RoundTrip.vsra (v : BitVec 1) (y : BitVec 2) (b : BitVec 5) (a : BitVec 5) (m : BitVec 3) (d : BitVec 5) (k : BitVec 1) : RoundTrip.Statement (.vsra v y b a m d k) := by
  have h : (9#4 ++ v ++ y ++ b ++ a ++ m ++ d ++ 23#6 ++ k : IWord) &&& 0xF000007E = 0x9000002E := by
    rw [show (0xF000007E : IWord) = 15#4 ++ 0#1 ++ 0#2 ++ 0#5 ++ 0#5 ++ 0#3 ++ 0#5 ++ 63#6 ++ 0#1 from rfl]
    simp only [BitVec.and_append, BitVec.and_zero, BitVec.reduceAnd]; decide
  refine reads h (by decide) rfl ?_
  refine (if_neg (ne_true_of_eq_false (miss h (by decide)))).trans <| (if_neg (ne_true_of_eq_false (miss h (by decide)))).trans <| (if_neg (ne_true_of_eq_false (miss h (by decide)))).trans <| (if_neg (ne_true_of_eq_false (miss h (by decide)))).trans <| (if_neg (ne_true_of_eq_false (miss h (by decide)))).trans <| (if_neg (ne_true_of_eq_false (miss h (by decide)))).trans <| (if_neg (ne_true_of_eq_false (miss h (by decide)))).trans <| (if_neg (ne_true_of_eq_false (miss h (by decide)))).trans <| (if_neg (ne_true_of_eq_false (miss h (by decide)))).trans <| (if_pos (hit h)).trans ?_
  simp (disch := decide) only [BitVec.extractLsb'_append_eq_of_le, BitVec.extractLsb'_append_eq_of_add_le, BitVec.extractLsb'_eq_self, Nat.reduceSub]

theorem RoundTrip.vimin (v : BitVec 1) (y : BitVec 2) (b : BitVec 5) (a : BitVec 5) (m : BitVec 3) (d : BitVec 5) (k : BitVec 1) : RoundTrip.Statement (.vimin v y b a m d k) := by
  have h : (10#4 ++ v ++ y ++ b ++ a ++ m ++ d ++ 23#6 ++ k : IWord) &&& 0xF000007E = 0xA000002E := by
    rw [show (0xF000007E : IWord) = 15#4 ++ 0#1 ++ 0#2 ++ 0#5 ++ 0#5 ++ 0#3 ++ 0#5 ++ 63#6 ++ 0#1 from rfl]
    simp only [BitVec.and_append, BitVec.and_zero, BitVec.reduceAnd]; decide
  refine reads h (by decide) rfl ?_
  refine (if_neg (ne_true_of_eq_false (miss h (by decide)))).trans <| (if_neg (ne_true_of_eq_false (miss h (by decide)))).trans <| (if_neg (ne_true_of_eq_false (miss h (by decide)))).trans <| (if_neg (ne_true_of_eq_false (miss h (by decide)))).trans <| (if_neg (ne_true_of_eq_false (miss h (by decide)))).trans <| (if_neg (ne_true_of_eq_false (miss h (by decide)))).trans <| (if_neg (ne_true_of_eq_false (miss h (by decide)))).trans <| (if_neg (ne_true_of_eq_false (miss h (by decide)))).trans <| (if_neg (ne_true_of_eq_false (miss h (by decide)))).trans <| (if_neg (ne_true_of_eq_false (miss h (by decide)))).trans <| (if_pos (hit h)).trans ?_
  simp (disch := decide) only [BitVec.extractLsb'_append_eq_of_le, BitVec.extractLsb'_append_eq_of_add_le, BitVec.extractLsb'_eq_self, Nat.reduceSub]

theorem RoundTrip.vimax (v : BitVec 1) (y : BitVec 2) (b : BitVec 5) (a : BitVec 5) (m : BitVec 3) (d : BitVec 5) (k : BitVec 1) : RoundTrip.Statement (.vimax v y b a m d k) := by
  have h : (11#4 ++ v ++ y ++ b ++ a ++ m ++ d ++ 23#6 ++ k : IWord) &&& 0xF000007E = 0xB000002E := by
    rw [show (0xF000007E : IWord) = 15#4 ++ 0#1 ++ 0#2 ++ 0#5 ++ 0#5 ++ 0#3 ++ 0#5 ++ 63#6 ++ 0#1 from rfl]
    simp only [BitVec.and_append, BitVec.and_zero, BitVec.reduceAnd]; decide
  refine reads h (by decide) rfl ?_
  refine (if_neg (ne_true_of_eq_false (miss h (by decide)))).trans <| (if_neg (ne_true_of_eq_false (miss h (by decide)))).trans <| (if_neg (ne_true_of_eq_false (miss h (by decide)))).trans <| (if_neg (ne_true_of_eq_false (miss h (by decide)))).trans <| (if_neg (ne_true_of_eq_false (miss h (by decide)))).trans <| (if_neg (ne_true_of_eq_false (miss h (by decide)))).trans <| (if_neg (ne_true_of_eq_false (miss h (by decide)))).trans <| (if_neg (ne_true_of_eq_false (miss h (by decide)))).trans <| (if_neg (ne_true_of_eq_false (miss h (by decide)))).trans <| (if_neg (ne_true_of_eq_false (miss h (by decide)))).trans <| (if_neg (ne_true_of_eq_false (miss h (by decide)))).trans <| (if_pos (hit h)).trans ?_
  simp (disch := decide) only [BitVec.extractLsb'_append_eq_of_le, BitVec.extractLsb'_append_eq_of_add_le, BitVec.extractLsb'_eq_self, Nat.reduceSub]

theorem RoundTrip.vicmpEq (v : BitVec 1) (y : BitVec 2) (b : BitVec 5) (a : BitVec 5) (m : BitVec 3) (d : BitVec 5) (k : BitVec 1) : RoundTrip.Statement (.vicmpEq v y b a m d k) := by
  have h : (12#4 ++ v ++ y ++ b ++ a ++ m ++ d ++ 23#6 ++ k : IWord) &&& 0xF000007E = 0xC000002E := by
    rw [show (0xF000007E : IWord) = 15#4 ++ 0#1 ++ 0#2 ++ 0#5 ++ 0#5 ++ 0#3 ++ 0#5 ++ 63#6 ++ 0#1 from rfl]
    simp only [BitVec.and_append, BitVec.and_zero, BitVec.reduceAnd]; decide
  refine reads h (by decide) rfl ?_
  refine (if_neg (ne_true_of_eq_false (miss h (by decide)))).trans <| (if_neg (ne_true_of_eq_false (miss h (by decide)))).trans <| (if_neg (ne_true_of_eq_false (miss h (by decide)))).trans <| (if_neg (ne_true_of_eq_false (miss h (by decide)))).trans <| (if_neg (ne_true_of_eq_false (miss h (by decide)))).trans <| (if_neg (ne_true_of_eq_false (miss h (by decide)))).trans <| (if_neg (ne_true_of_eq_false (miss h (by decide)))).trans <| (if_neg (ne_true_of_eq_false (miss h (by decide)))).trans <| (if_neg (ne_true_of_eq_false (miss h (by decide)))).trans <| (if_neg (ne_true_of_eq_false (miss h (by decide)))).trans <| (if_neg (ne_true_of_eq_false (miss h (by decide)))).trans <| (if_neg (ne_true_of_eq_false (miss h (by decide)))).trans <| (if_pos (hit h)).trans ?_
  simp (disch := decide) only [BitVec.extractLsb'_append_eq_of_le, BitVec.extractLsb'_append_eq_of_add_le, BitVec.extractLsb'_eq_self, Nat.reduceSub]

theorem RoundTrip.vicmpLt (v : BitVec 1) (y : BitVec 2) (b : BitVec 5) (a : BitVec 5) (m : BitVec 3) (d : BitVec 5) (k : BitVec 1) : RoundTrip.Statement (.vicmpLt v y b a m d k) := by
  have h : (13#4 ++ v ++ y ++ b ++ a ++ m ++ d ++ 23#6 ++ k : IWord) &&& 0xF000007E = 0xD000002E := by
    rw [show (0xF000007E : IWord) = 15#4 ++ 0#1 ++ 0#2 ++ 0#5 ++ 0#5 ++ 0#3 ++ 0#5 ++ 63#6 ++ 0#1 from rfl]
    simp only [BitVec.and_append, BitVec.and_zero, BitVec.reduceAnd]; decide
  refine reads h (by decide) rfl ?_
  refine (if_neg (ne_true_of_eq_false (miss h (by decide)))).trans <| (if_neg (ne_true_of_eq_false (miss h (by decide)))).trans <| (if_neg (ne_true_of_eq_false (miss h (by decide)))).trans <| (if_neg (ne_true_of_eq_false (miss h (by decide)))).trans <| (if_neg (ne_true_of_eq_false (miss h (by decide)))).trans <| (if_neg (ne_true_of_eq_false (miss h (by decide)))).trans <| (if_neg (ne_true_of_eq_false (miss h (by decide)))).trans <| (if_neg (ne_true_of_eq_false (miss h (by decide)))).trans <| (if_neg (ne_true_of_eq_false (miss h (by decide)))).trans <| (if_neg (ne_true_of_eq_false (miss h (by decide)))).trans <| (if_neg (ne_true_of_eq_false (miss h (by decide)))).trans <| (if_neg (ne_true_of_eq_false (miss h (by decide)))).trans <| (if_neg (ne_true_of_eq_false (miss h (by decide)))).trans <| (if_pos (hit h)).trans ?_
  simp (disch := decide) only [BitVec.extractLsb'_append_eq_of_le, BitVec.extractLsb'_append_eq_of_add_le, BitVec.extractLsb'_eq_self, Nat.reduceSub]

theorem RoundTrip.vicmpLe (v : BitVec 1) (y : BitVec 2) (b : BitVec 5) (a : BitVec 5) (m : BitVec 3) (d : BitVec 5) (k : BitVec 1) : RoundTrip.Statement (.vicmpLe v y b a m d k) := by
  have h : (14#4 ++ v ++ y ++ b ++ a ++ m ++ d ++ 23#6 ++ k : IWord) &&& 0xF000007E = 0xE000002E := by
    rw [show (0xF000007E : IWord) = 15#4 ++ 0#1 ++ 0#2 ++ 0#5 ++ 0#5 ++ 0#3 ++ 0#5 ++ 63#6 ++ 0#1 from rfl]
    simp only [BitVec.and_append, BitVec.and_zero, BitVec.reduceAnd]; decide
  refine reads h (by decide) rfl ?_
  refine (if_neg (ne_true_of_eq_false (miss h (by decide)))).trans <| (if_neg (ne_true_of_eq_false (miss h (by decide)))).trans <| (if_neg (ne_true_of_eq_false (miss h (by decide)))).trans <| (if_neg (ne_true_of_eq_false (miss h (by decide)))).trans <| (if_neg (ne_true_of_eq_false (miss h (by decide)))).trans <| (if_neg (ne_true_of_eq_false (miss h (by decide)))).trans <| (if_neg (ne_true_of_eq_false (miss h (by decide)))).trans <| (if_neg (ne_true_of_eq_false (miss h (by decide)))).trans <| (if_neg (ne_true_of_eq_false (miss h (by decide)))).trans <| (if_neg (ne_true_of_eq_false (miss h (by decide)))).trans <| (if_neg (ne_true_of_eq_false (miss h (by decide)))).trans <| (if_neg (ne_true_of_eq_false (miss h (by decide)))).trans <| (if_neg (ne_true_of_eq_false (miss h (by decide)))).trans <| (if_neg (ne_true_of_eq_false (miss h (by decide)))).trans <| (if_pos (hit h)).trans ?_
  simp (disch := decide) only [BitVec.extractLsb'_append_eq_of_le, BitVec.extractLsb'_append_eq_of_add_le, BitVec.extractLsb'_eq_self, Nat.reduceSub]

theorem RoundTrip.vld (n : BitVec 5) (a : BitVec 5) (m : BitVec 3) (d : BitVec 5) (k : BitVec 1) : RoundTrip.Statement (.vld n a m d k) := by
  have h : (0#7 ++ n ++ a ++ m ++ d ++ 24#6 ++ k : IWord) &&& 0xFE00007E = 0x00000030 := by
    rw [show (0xFE00007E : IWord) = 127#7 ++ 0#5 ++ 0#5 ++ 0#3 ++ 0#5 ++ 63#6 ++ 0#1 from rfl]
    simp only [BitVec.and_append, BitVec.and_zero, BitVec.reduceAnd]; decide
  refine reads h (by decide) rfl ?_
  refine (if_pos (hit h)).trans ?_
  simp (disch := decide) only [BitVec.extractLsb'_append_eq_of_le, BitVec.extractLsb'_append_eq_of_add_le, BitVec.extractLsb'_eq_self, Nat.reduceSub]

theorem RoundTrip.vlds (n : BitVec 5) (a : BitVec 5) (m : BitVec 3) (d : BitVec 5) (k : BitVec 1) : RoundTrip.Statement (.vlds n a m d k) := by
  have h : (16#7 ++ n ++ a ++ m ++ d ++ 24#6 ++ k : IWord) &&& 0xFE00007E = 0x20000030 := by
    rw [show (0xFE00007E : IWord) = 127#7 ++ 0#5 ++ 0#5 ++ 0#3 ++ 0#5 ++ 63#6 ++ 0#1 from rfl]
    simp only [BitVec.and_append, BitVec.and_zero, BitVec.reduceAnd]; decide
  refine reads h (by decide) rfl ?_
  refine (if_neg (ne_true_of_eq_false (miss h (by decide)))).trans <| (if_pos (hit h)).trans ?_
  simp (disch := decide) only [BitVec.extractLsb'_append_eq_of_le, BitVec.extractLsb'_append_eq_of_add_le, BitVec.extractLsb'_eq_self, Nat.reduceSub]

theorem RoundTrip.vldg (i : BitVec 4) (n : BitVec 5) (a : BitVec 5) (m : BitVec 3) (d : BitVec 5) (k : BitVec 1) : RoundTrip.Statement (.vldg i n a m d k) := by
  have h : (2#3 ++ i ++ n ++ a ++ m ++ d ++ 24#6 ++ k : IWord) &&& 0xE000007E = 0x40000030 := by
    rw [show (0xE000007E : IWord) = 7#3 ++ 0#4 ++ 0#5 ++ 0#5 ++ 0#3 ++ 0#5 ++ 63#6 ++ 0#1 from rfl]
    simp only [BitVec.and_append, BitVec.and_zero, BitVec.reduceAnd]; decide
  refine reads h (by decide) rfl ?_
  refine (if_neg (ne_true_of_eq_false (miss h (by decide)))).trans <| (if_neg (ne_true_of_eq_false (miss h (by decide)))).trans <| (if_pos (hit h)).trans ?_
  simp (disch := decide) only [BitVec.extractLsb'_append_eq_of_le, BitVec.extractLsb'_append_eq_of_add_le, BitVec.extractLsb'_eq_self, Nat.reduceSub]

theorem RoundTrip.vldt (t : BitVec 6) (a : BitVec 5) (d : BitVec 5) (k : BitVec 1) : RoundTrip.Statement (.vldt t a d k) := by
  have h : (24#6 ++ t ++ a ++ 0#3 ++ d ++ 24#6 ++ k : IWord) &&& 0xFC00707E = 0x60000030 := by
    rw [show (0xFC00707E : IWord) = 63#6 ++ 0#6 ++ 0#5 ++ 7#3 ++ 0#5 ++ 63#6 ++ 0#1 from rfl]
    simp only [BitVec.and_append, BitVec.and_zero, BitVec.reduceAnd]; decide
  refine reads h (by decide) rfl ?_
  refine (if_neg (ne_true_of_eq_false (miss h (by decide)))).trans <| (if_neg (ne_true_of_eq_false (miss h (by decide)))).trans <| (if_neg (ne_true_of_eq_false (miss h (by decide)))).trans <| (if_pos (hit h)).trans ?_
  simp (disch := decide) only [BitVec.extractLsb'_append_eq_of_le, BitVec.extractLsb'_append_eq_of_add_le, BitVec.extractLsb'_eq_self, Nat.reduceSub]

theorem RoundTrip.vst (n : BitVec 5) (a : BitVec 5) (m : BitVec 3) (d : BitVec 5) (k : BitVec 1) : RoundTrip.Statement (.vst n a m d k) := by
  have h : (64#7 ++ n ++ a ++ m ++ d ++ 24#6 ++ k : IWord) &&& 0xFE00007E = 0x80000030 := by
    rw [show (0xFE00007E : IWord) = 127#7 ++ 0#5 ++ 0#5 ++ 0#3 ++ 0#5 ++ 63#6 ++ 0#1 from rfl]
    simp only [BitVec.and_append, BitVec.and_zero, BitVec.reduceAnd]; decide
  refine reads h (by decide) rfl ?_
  refine (if_neg (ne_true_of_eq_false (miss h (by decide)))).trans <| (if_neg (ne_true_of_eq_false (miss h (by decide)))).trans <| (if_neg (ne_true_of_eq_false (miss h (by decide)))).trans <| (if_neg (ne_true_of_eq_false (miss h (by decide)))).trans <| (if_pos (hit h)).trans ?_
  simp (disch := decide) only [BitVec.extractLsb'_append_eq_of_le, BitVec.extractLsb'_append_eq_of_add_le, BitVec.extractLsb'_eq_self, Nat.reduceSub]

theorem RoundTrip.vsts (n : BitVec 5) (a : BitVec 5) (m : BitVec 3) (d : BitVec 5) (k : BitVec 1) : RoundTrip.Statement (.vsts n a m d k) := by
  have h : (80#7 ++ n ++ a ++ m ++ d ++ 24#6 ++ k : IWord) &&& 0xFE00007E = 0xA0000030 := by
    rw [show (0xFE00007E : IWord) = 127#7 ++ 0#5 ++ 0#5 ++ 0#3 ++ 0#5 ++ 63#6 ++ 0#1 from rfl]
    simp only [BitVec.and_append, BitVec.and_zero, BitVec.reduceAnd]; decide
  refine reads h (by decide) rfl ?_
  refine (if_neg (ne_true_of_eq_false (miss h (by decide)))).trans <| (if_neg (ne_true_of_eq_false (miss h (by decide)))).trans <| (if_neg (ne_true_of_eq_false (miss h (by decide)))).trans <| (if_neg (ne_true_of_eq_false (miss h (by decide)))).trans <| (if_neg (ne_true_of_eq_false (miss h (by decide)))).trans <| (if_pos (hit h)).trans ?_
  simp (disch := decide) only [BitVec.extractLsb'_append_eq_of_le, BitVec.extractLsb'_append_eq_of_add_le, BitVec.extractLsb'_eq_self, Nat.reduceSub]

theorem RoundTrip.vstg (i : BitVec 4) (n : BitVec 5) (a : BitVec 5) (m : BitVec 3) (d : BitVec 5) (k : BitVec 1) : RoundTrip.Statement (.vstg i n a m d k) := by
  have h : (6#3 ++ i ++ n ++ a ++ m ++ d ++ 24#6 ++ k : IWord) &&& 0xE000007E = 0xC0000030 := by
    rw [show (0xE000007E : IWord) = 7#3 ++ 0#4 ++ 0#5 ++ 0#5 ++ 0#3 ++ 0#5 ++ 63#6 ++ 0#1 from rfl]
    simp only [BitVec.and_append, BitVec.and_zero, BitVec.reduceAnd]; decide
  refine reads h (by decide) rfl ?_
  refine (if_neg (ne_true_of_eq_false (miss h (by decide)))).trans <| (if_neg (ne_true_of_eq_false (miss h (by decide)))).trans <| (if_neg (ne_true_of_eq_false (miss h (by decide)))).trans <| (if_neg (ne_true_of_eq_false (miss h (by decide)))).trans <| (if_neg (ne_true_of_eq_false (miss h (by decide)))).trans <| (if_neg (ne_true_of_eq_false (miss h (by decide)))).trans <| (if_pos (hit h)).trans ?_
  simp (disch := decide) only [BitVec.extractLsb'_append_eq_of_le, BitVec.extractLsb'_append_eq_of_add_le, BitVec.extractLsb'_eq_self, Nat.reduceSub]

theorem RoundTrip.vstt (t : BitVec 6) (a : BitVec 5) (d : BitVec 5) (k : BitVec 1) : RoundTrip.Statement (.vstt t a d k) := by
  have h : (56#6 ++ t ++ a ++ 0#3 ++ d ++ 24#6 ++ k : IWord) &&& 0xFC00707E = 0xE0000030 := by
    rw [show (0xFC00707E : IWord) = 63#6 ++ 0#6 ++ 0#5 ++ 7#3 ++ 0#5 ++ 63#6 ++ 0#1 from rfl]
    simp only [BitVec.and_append, BitVec.and_zero, BitVec.reduceAnd]; decide
  refine reads h (by decide) rfl ?_
  refine (if_neg (ne_true_of_eq_false (miss h (by decide)))).trans <| (if_neg (ne_true_of_eq_false (miss h (by decide)))).trans <| (if_neg (ne_true_of_eq_false (miss h (by decide)))).trans <| (if_neg (ne_true_of_eq_false (miss h (by decide)))).trans <| (if_neg (ne_true_of_eq_false (miss h (by decide)))).trans <| (if_neg (ne_true_of_eq_false (miss h (by decide)))).trans <| (if_neg (ne_true_of_eq_false (miss h (by decide)))).trans <| (if_pos (hit h)).trans ?_
  simp (disch := decide) only [BitVec.extractLsb'_append_eq_of_le, BitVec.extractLsb'_append_eq_of_add_le, BitVec.extractLsb'_eq_self, Nat.reduceSub]

theorem RoundTrip.vredsum (y : BitVec 2) (a : BitVec 5) (m : BitVec 3) (d : BitVec 5) (k : BitVec 1) : RoundTrip.Statement (.vredsum y a m d k) := by
  have h : (0#5 ++ y ++ 0#5 ++ a ++ m ++ d ++ 25#6 ++ k : IWord) &&& 0xF9F0007E = 0x00000032 := by
    rw [show (0xF9F0007E : IWord) = 31#5 ++ 0#2 ++ 31#5 ++ 0#5 ++ 0#3 ++ 0#5 ++ 63#6 ++ 0#1 from rfl]
    simp only [BitVec.and_append, BitVec.and_zero, BitVec.reduceAnd]; decide
  refine reads h (by decide) rfl ?_
  refine (if_pos (hit h)).trans ?_
  simp (disch := decide) only [BitVec.extractLsb'_append_eq_of_le, BitVec.extractLsb'_append_eq_of_add_le, BitVec.extractLsb'_eq_self, Nat.reduceSub]

theorem RoundTrip.vredmax (y : BitVec 2) (a : BitVec 5) (m : BitVec 3) (d : BitVec 5) (k : BitVec 1) : RoundTrip.Statement (.vredmax y a m d k) := by
  have h : (1#5 ++ y ++ 0#5 ++ a ++ m ++ d ++ 25#6 ++ k : IWord) &&& 0xF9F0007E = 0x08000032 := by
    rw [show (0xF9F0007E : IWord) = 31#5 ++ 0#2 ++ 31#5 ++ 0#5 ++ 0#3 ++ 0#5 ++ 63#6 ++ 0#1 from rfl]
    simp only [BitVec.and_append, BitVec.and_zero, BitVec.reduceAnd]; decide
  refine reads h (by decide) rfl ?_
  refine (if_neg (ne_true_of_eq_false (miss h (by decide)))).trans <| (if_pos (hit h)).trans ?_
  simp (disch := decide) only [BitVec.extractLsb'_append_eq_of_le, BitVec.extractLsb'_append_eq_of_add_le, BitVec.extractLsb'_eq_self, Nat.reduceSub]

theorem RoundTrip.vredmin (y : BitVec 2) (a : BitVec 5) (m : BitVec 3) (d : BitVec 5) (k : BitVec 1) : RoundTrip.Statement (.vredmin y a m d k) := by
  have h : (2#5 ++ y ++ 0#5 ++ a ++ m ++ d ++ 25#6 ++ k : IWord) &&& 0xF9F0007E = 0x10000032 := by
    rw [show (0xF9F0007E : IWord) = 31#5 ++ 0#2 ++ 31#5 ++ 0#5 ++ 0#3 ++ 0#5 ++ 63#6 ++ 0#1 from rfl]
    simp only [BitVec.and_append, BitVec.and_zero, BitVec.reduceAnd]; decide
  refine reads h (by decide) rfl ?_
  refine (if_neg (ne_true_of_eq_false (miss h (by decide)))).trans <| (if_neg (ne_true_of_eq_false (miss h (by decide)))).trans <| (if_pos (hit h)).trans ?_
  simp (disch := decide) only [BitVec.extractLsb'_append_eq_of_le, BitVec.extractLsb'_append_eq_of_add_le, BitVec.extractLsb'_eq_self, Nat.reduceSub]

theorem RoundTrip.vperm (y : BitVec 2) (b : BitVec 5) (a : BitVec 5) (m : BitVec 3) (d : BitVec 5) (k : BitVec 1) : RoundTrip.Statement (.vperm y b a m d k) := by
  have h : (4#5 ++ y ++ b ++ a ++ m ++ d ++ 25#6 ++ k : IWord) &&& 0xF800007E = 0x20000032 := by
    rw [show (0xF800007E : IWord) = 31#5 ++ 0#2 ++ 0#5 ++ 0#5 ++ 0#3 ++ 0#5 ++ 63#6 ++ 0#1 from rfl]
    simp only [BitVec.and_append, BitVec.and_zero, BitVec.reduceAnd]; decide
  refine reads h (by decide) rfl ?_
  refine (if_neg (ne_true_of_eq_false (miss h (by decide)))).trans <| (if_neg (ne_true_of_eq_false (miss h (by decide)))).trans <| (if_neg (ne_true_of_eq_false (miss h (by decide)))).trans <| (if_pos (hit h)).trans ?_
  simp (disch := decide) only [BitVec.extractLsb'_append_eq_of_le, BitVec.extractLsb'_append_eq_of_add_le, BitVec.extractLsb'_eq_self, Nat.reduceSub]

theorem RoundTrip.vrot (y : BitVec 2) (b : BitVec 5) (a : BitVec 5) (m : BitVec 3) (d : BitVec 5) (k : BitVec 1) : RoundTrip.Statement (.vrot y b a m d k) := by
  have h : (5#5 ++ y ++ b ++ a ++ m ++ d ++ 25#6 ++ k : IWord) &&& 0xF800007E = 0x28000032 := by
    rw [show (0xF800007E : IWord) = 31#5 ++ 0#2 ++ 0#5 ++ 0#5 ++ 0#3 ++ 0#5 ++ 63#6 ++ 0#1 from rfl]
    simp only [BitVec.and_append, BitVec.and_zero, BitVec.reduceAnd]; decide
  refine reads h (by decide) rfl ?_
  refine (if_neg (ne_true_of_eq_false (miss h (by decide)))).trans <| (if_neg (ne_true_of_eq_false (miss h (by decide)))).trans <| (if_neg (ne_true_of_eq_false (miss h (by decide)))).trans <| (if_neg (ne_true_of_eq_false (miss h (by decide)))).trans <| (if_pos (hit h)).trans ?_
  simp (disch := decide) only [BitVec.extractLsb'_append_eq_of_le, BitVec.extractLsb'_append_eq_of_add_le, BitVec.extractLsb'_eq_self, Nat.reduceSub]

theorem RoundTrip.vbcast (y : BitVec 2) (a : BitVec 5) (m : BitVec 3) (d : BitVec 5) (k : BitVec 1) : RoundTrip.Statement (.vbcast y a m d k) := by
  have h : (6#5 ++ y ++ 0#5 ++ a ++ m ++ d ++ 25#6 ++ k : IWord) &&& 0xF9F0007E = 0x30000032 := by
    rw [show (0xF9F0007E : IWord) = 31#5 ++ 0#2 ++ 31#5 ++ 0#5 ++ 0#3 ++ 0#5 ++ 63#6 ++ 0#1 from rfl]
    simp only [BitVec.and_append, BitVec.and_zero, BitVec.reduceAnd]; decide
  refine reads h (by decide) rfl ?_
  refine (if_neg (ne_true_of_eq_false (miss h (by decide)))).trans <| (if_neg (ne_true_of_eq_false (miss h (by decide)))).trans <| (if_neg (ne_true_of_eq_false (miss h (by decide)))).trans <| (if_neg (ne_true_of_eq_false (miss h (by decide)))).trans <| (if_neg (ne_true_of_eq_false (miss h (by decide)))).trans <| (if_pos (hit h)).trans ?_
  simp (disch := decide) only [BitVec.extractLsb'_append_eq_of_le, BitVec.extractLsb'_append_eq_of_add_le, BitVec.extractLsb'_eq_self, Nat.reduceSub]

theorem RoundTrip.vext (y : BitVec 2) (b : BitVec 5) (a : BitVec 5) (d : BitVec 5) (k : BitVec 1) : RoundTrip.Statement (.vext y b a d k) := by
  have h : (7#5 ++ y ++ b ++ a ++ 0#3 ++ d ++ 25#6 ++ k : IWord) &&& 0xF800707E = 0x38000032 := by
    rw [show (0xF800707E : IWord) = 31#5 ++ 0#2 ++ 0#5 ++ 0#5 ++ 7#3 ++ 0#5 ++ 63#6 ++ 0#1 from rfl]
    simp only [BitVec.and_append, BitVec.and_zero, BitVec.reduceAnd]; decide
  refine reads h (by decide) rfl ?_
  refine (if_neg (ne_true_of_eq_false (miss h (by decide)))).trans <| (if_neg (ne_true_of_eq_false (miss h (by decide)))).trans <| (if_neg (ne_true_of_eq_false (miss h (by decide)))).trans <| (if_neg (ne_true_of_eq_false (miss h (by decide)))).trans <| (if_neg (ne_true_of_eq_false (miss h (by decide)))).trans <| (if_neg (ne_true_of_eq_false (miss h (by decide)))).trans <| (if_pos (hit h)).trans ?_
  simp (disch := decide) only [BitVec.extractLsb'_append_eq_of_le, BitVec.extractLsb'_append_eq_of_add_le, BitVec.extractLsb'_eq_self, Nat.reduceSub]

theorem RoundTrip.vins (y : BitVec 2) (b : BitVec 5) (a : BitVec 5) (d : BitVec 5) (k : BitVec 1) : RoundTrip.Statement (.vins y b a d k) := by
  have h : (8#5 ++ y ++ b ++ a ++ 0#3 ++ d ++ 25#6 ++ k : IWord) &&& 0xF800707E = 0x40000032 := by
    rw [show (0xF800707E : IWord) = 31#5 ++ 0#2 ++ 0#5 ++ 0#5 ++ 7#3 ++ 0#5 ++ 63#6 ++ 0#1 from rfl]
    simp only [BitVec.and_append, BitVec.and_zero, BitVec.reduceAnd]; decide
  refine reads h (by decide) rfl ?_
  refine (if_neg (ne_true_of_eq_false (miss h (by decide)))).trans <| (if_neg (ne_true_of_eq_false (miss h (by decide)))).trans <| (if_neg (ne_true_of_eq_false (miss h (by decide)))).trans <| (if_neg (ne_true_of_eq_false (miss h (by decide)))).trans <| (if_neg (ne_true_of_eq_false (miss h (by decide)))).trans <| (if_neg (ne_true_of_eq_false (miss h (by decide)))).trans <| (if_neg (ne_true_of_eq_false (miss h (by decide)))).trans <| (if_pos (hit h)).trans ?_
  simp (disch := decide) only [BitVec.extractLsb'_append_eq_of_le, BitVec.extractLsb'_append_eq_of_add_le, BitVec.extractLsb'_eq_self, Nat.reduceSub]

theorem RoundTrip.vmov (y : BitVec 2) (a : BitVec 5) (m : BitVec 3) (d : BitVec 5) (k : BitVec 1) : RoundTrip.Statement (.vmov y a m d k) := by
  have h : (9#5 ++ y ++ 0#5 ++ a ++ m ++ d ++ 25#6 ++ k : IWord) &&& 0xF9F0007E = 0x48000032 := by
    rw [show (0xF9F0007E : IWord) = 31#5 ++ 0#2 ++ 31#5 ++ 0#5 ++ 0#3 ++ 0#5 ++ 63#6 ++ 0#1 from rfl]
    simp only [BitVec.and_append, BitVec.and_zero, BitVec.reduceAnd]; decide
  refine reads h (by decide) rfl ?_
  refine (if_neg (ne_true_of_eq_false (miss h (by decide)))).trans <| (if_neg (ne_true_of_eq_false (miss h (by decide)))).trans <| (if_neg (ne_true_of_eq_false (miss h (by decide)))).trans <| (if_neg (ne_true_of_eq_false (miss h (by decide)))).trans <| (if_neg (ne_true_of_eq_false (miss h (by decide)))).trans <| (if_neg (ne_true_of_eq_false (miss h (by decide)))).trans <| (if_neg (ne_true_of_eq_false (miss h (by decide)))).trans <| (if_neg (ne_true_of_eq_false (miss h (by decide)))).trans <| (if_pos (hit h)).trans ?_
  simp (disch := decide) only [BitVec.extractLsb'_append_eq_of_le, BitVec.extractLsb'_append_eq_of_add_le, BitVec.extractLsb'_eq_self, Nat.reduceSub]

theorem RoundTrip.mand (b : BitVec 5) (a : BitVec 5) (d : BitVec 5) (k : BitVec 1) : RoundTrip.Statement (.mand b a d k) := by
  have h : (48#7 ++ b ++ a ++ 0#3 ++ d ++ 25#6 ++ k : IWord) &&& 0xFE00707E = 0x60000032 := by
    rw [show (0xFE00707E : IWord) = 127#7 ++ 0#5 ++ 0#5 ++ 7#3 ++ 0#5 ++ 63#6 ++ 0#1 from rfl]
    simp only [BitVec.and_append, BitVec.and_zero, BitVec.reduceAnd]; decide
  refine reads h (by decide) rfl ?_
  refine (if_neg (ne_true_of_eq_false (miss h (by decide)))).trans <| (if_neg (ne_true_of_eq_false (miss h (by decide)))).trans <| (if_neg (ne_true_of_eq_false (miss h (by decide)))).trans <| (if_neg (ne_true_of_eq_false (miss h (by decide)))).trans <| (if_neg (ne_true_of_eq_false (miss h (by decide)))).trans <| (if_neg (ne_true_of_eq_false (miss h (by decide)))).trans <| (if_neg (ne_true_of_eq_false (miss h (by decide)))).trans <| (if_neg (ne_true_of_eq_false (miss h (by decide)))).trans <| (if_neg (ne_true_of_eq_false (miss h (by decide)))).trans <| (if_pos (hit h)).trans ?_
  simp (disch := decide) only [BitVec.extractLsb'_append_eq_of_le, BitVec.extractLsb'_append_eq_of_add_le, BitVec.extractLsb'_eq_self, Nat.reduceSub]

theorem RoundTrip.mor (b : BitVec 5) (a : BitVec 5) (d : BitVec 5) (k : BitVec 1) : RoundTrip.Statement (.mor b a d k) := by
  have h : (52#7 ++ b ++ a ++ 0#3 ++ d ++ 25#6 ++ k : IWord) &&& 0xFE00707E = 0x68000032 := by
    rw [show (0xFE00707E : IWord) = 127#7 ++ 0#5 ++ 0#5 ++ 7#3 ++ 0#5 ++ 63#6 ++ 0#1 from rfl]
    simp only [BitVec.and_append, BitVec.and_zero, BitVec.reduceAnd]; decide
  refine reads h (by decide) rfl ?_
  refine (if_neg (ne_true_of_eq_false (miss h (by decide)))).trans <| (if_neg (ne_true_of_eq_false (miss h (by decide)))).trans <| (if_neg (ne_true_of_eq_false (miss h (by decide)))).trans <| (if_neg (ne_true_of_eq_false (miss h (by decide)))).trans <| (if_neg (ne_true_of_eq_false (miss h (by decide)))).trans <| (if_neg (ne_true_of_eq_false (miss h (by decide)))).trans <| (if_neg (ne_true_of_eq_false (miss h (by decide)))).trans <| (if_neg (ne_true_of_eq_false (miss h (by decide)))).trans <| (if_neg (ne_true_of_eq_false (miss h (by decide)))).trans <| (if_neg (ne_true_of_eq_false (miss h (by decide)))).trans <| (if_pos (hit h)).trans ?_
  simp (disch := decide) only [BitVec.extractLsb'_append_eq_of_le, BitVec.extractLsb'_append_eq_of_add_le, BitVec.extractLsb'_eq_self, Nat.reduceSub]

theorem RoundTrip.mnot (a : BitVec 5) (d : BitVec 5) (k : BitVec 1) : RoundTrip.Statement (.mnot a d k) := by
  have h : (1792#12 ++ a ++ 0#3 ++ d ++ 25#6 ++ k : IWord) &&& 0xFFF0707E = 0x70000032 := by
    rw [show (0xFFF0707E : IWord) = 4095#12 ++ 0#5 ++ 7#3 ++ 0#5 ++ 63#6 ++ 0#1 from rfl]
    simp only [BitVec.and_append, BitVec.and_zero, BitVec.reduceAnd]; decide
  refine reads h (by decide) rfl ?_
  refine (if_neg (ne_true_of_eq_false (miss h (by decide)))).trans <| (if_neg (ne_true_of_eq_false (miss h (by decide)))).trans <| (if_neg (ne_true_of_eq_false (miss h (by decide)))).trans <| (if_neg (ne_true_of_eq_false (miss h (by decide)))).trans <| (if_neg (ne_true_of_eq_false (miss h (by decide)))).trans <| (if_neg (ne_true_of_eq_false (miss h (by decide)))).trans <| (if_neg (ne_true_of_eq_false (miss h (by decide)))).trans <| (if_neg (ne_true_of_eq_false (miss h (by decide)))).trans <| (if_neg (ne_true_of_eq_false (miss h (by decide)))).trans <| (if_neg (ne_true_of_eq_false (miss h (by decide)))).trans <| (if_neg (ne_true_of_eq_false (miss h (by decide)))).trans <| (if_pos (hit h)).trans ?_
  simp (disch := decide) only [BitVec.extractLsb'_append_eq_of_le, BitVec.extractLsb'_append_eq_of_add_le, BitVec.extractLsb'_eq_self, Nat.reduceSub]

theorem RoundTrip.mpop (a : BitVec 5) (d : BitVec 5) (k : BitVec 1) : RoundTrip.Statement (.mpop a d k) := by
  have h : (1920#12 ++ a ++ 0#3 ++ d ++ 25#6 ++ k : IWord) &&& 0xFFF0707E = 0x78000032 := by
    rw [show (0xFFF0707E : IWord) = 4095#12 ++ 0#5 ++ 7#3 ++ 0#5 ++ 63#6 ++ 0#1 from rfl]
    simp only [BitVec.and_append, BitVec.and_zero, BitVec.reduceAnd]; decide
  refine reads h (by decide) rfl ?_
  refine (if_neg (ne_true_of_eq_false (miss h (by decide)))).trans <| (if_neg (ne_true_of_eq_false (miss h (by decide)))).trans <| (if_neg (ne_true_of_eq_false (miss h (by decide)))).trans <| (if_neg (ne_true_of_eq_false (miss h (by decide)))).trans <| (if_neg (ne_true_of_eq_false (miss h (by decide)))).trans <| (if_neg (ne_true_of_eq_false (miss h (by decide)))).trans <| (if_neg (ne_true_of_eq_false (miss h (by decide)))).trans <| (if_neg (ne_true_of_eq_false (miss h (by decide)))).trans <| (if_neg (ne_true_of_eq_false (miss h (by decide)))).trans <| (if_neg (ne_true_of_eq_false (miss h (by decide)))).trans <| (if_neg (ne_true_of_eq_false (miss h (by decide)))).trans <| (if_neg (ne_true_of_eq_false (miss h (by decide)))).trans <| (if_pos (hit h)).trans ?_
  simp (disch := decide) only [BitVec.extractLsb'_append_eq_of_le, BitVec.extractLsb'_append_eq_of_add_le, BitVec.extractLsb'_eq_self, Nat.reduceSub]

theorem RoundTrip.vcvt (t : BitVec 4) (s : BitVec 1) (f : BitVec 4) (a : BitVec 5) (m : BitVec 3) (d : BitVec 5) (k : BitVec 1) : RoundTrip.Statement (.vcvt t s f a m d k) := by
  have h : (0#3 ++ t ++ s ++ f ++ a ++ m ++ d ++ 26#6 ++ k : IWord) &&& 0xE000007E = 0x00000034 := by
    rw [show (0xE000007E : IWord) = 7#3 ++ 0#4 ++ 0#1 ++ 0#4 ++ 0#5 ++ 0#3 ++ 0#5 ++ 63#6 ++ 0#1 from rfl]
    simp only [BitVec.and_append, BitVec.and_zero, BitVec.reduceAnd]; decide
  refine reads h (by decide) rfl ?_
  refine (if_pos (hit h)).trans ?_
  simp (disch := decide) only [BitVec.extractLsb'_append_eq_of_le, BitVec.extractLsb'_append_eq_of_add_le, BitVec.extractLsb'_eq_self, Nat.reduceSub]

theorem RoundTrip.vpack (f : BitVec 4) (a : BitVec 5) (d : BitVec 5) (k : BitVec 1) : RoundTrip.Statement (.vpack f a d k) := by
  have h : (1#3 ++ f ++ 0#5 ++ a ++ 0#3 ++ d ++ 26#6 ++ k : IWord) &&& 0xE1F0707E = 0x20000034 := by
    rw [show (0xE1F0707E : IWord) = 7#3 ++ 0#4 ++ 31#5 ++ 0#5 ++ 7#3 ++ 0#5 ++ 63#6 ++ 0#1 from rfl]
    simp only [BitVec.and_append, BitVec.and_zero, BitVec.reduceAnd]; decide
  refine reads h (by decide) rfl ?_
  refine (if_neg (ne_true_of_eq_false (miss h (by decide)))).trans <| (if_pos (hit h)).trans ?_
  simp (disch := decide) only [BitVec.extractLsb'_append_eq_of_le, BitVec.extractLsb'_append_eq_of_add_le, BitVec.extractLsb'_eq_self, Nat.reduceSub]

theorem RoundTrip.vunpack (f : BitVec 4) (a : BitVec 5) (d : BitVec 5) (k : BitVec 1) : RoundTrip.Statement (.vunpack f a d k) := by
  have h : (2#3 ++ f ++ 0#5 ++ a ++ 0#3 ++ d ++ 26#6 ++ k : IWord) &&& 0xE1F0707E = 0x40000034 := by
    rw [show (0xE1F0707E : IWord) = 7#3 ++ 0#4 ++ 31#5 ++ 0#5 ++ 7#3 ++ 0#5 ++ 63#6 ++ 0#1 from rfl]
    simp only [BitVec.and_append, BitVec.and_zero, BitVec.reduceAnd]; decide
  refine reads h (by decide) rfl ?_
  refine (if_neg (ne_true_of_eq_false (miss h (by decide)))).trans <| (if_neg (ne_true_of_eq_false (miss h (by decide)))).trans <| (if_pos (hit h)).trans ?_
  simp (disch := decide) only [BitVec.extractLsb'_append_eq_of_le, BitVec.extractLsb'_append_eq_of_add_le, BitVec.extractLsb'_eq_self, Nat.reduceSub]

theorem RoundTrip.vqblk (f : BitVec 1) (b : BitVec 5) (a : BitVec 5) (m : BitVec 3) (d : BitVec 5) (k : BitVec 1) : RoundTrip.Statement (.vqblk f b a m d k) := by
  have h : (14#5 ++ f ++ 0#1 ++ b ++ a ++ m ++ d ++ 26#6 ++ k : IWord) &&& 0xFA00007E = 0x70000034 := by
    rw [show (0xFA00007E : IWord) = 31#5 ++ 0#1 ++ 1#1 ++ 0#5 ++ 0#5 ++ 0#3 ++ 0#5 ++ 63#6 ++ 0#1 from rfl]
    simp only [BitVec.and_append, BitVec.and_zero, BitVec.reduceAnd]; decide
  refine reads h (by decide) rfl ?_
  refine (if_neg (ne_true_of_eq_false (miss h (by decide)))).trans <| (if_neg (ne_true_of_eq_false (miss h (by decide)))).trans <| (if_neg (ne_true_of_eq_false (miss h (by decide)))).trans <| (if_pos (hit h)).trans ?_
  simp (disch := decide) only [BitVec.extractLsb'_append_eq_of_le, BitVec.extractLsb'_append_eq_of_add_le, BitVec.extractLsb'_eq_self, Nat.reduceSub]

theorem RoundTrip.vscl (f : BitVec 1) (b : BitVec 5) (a : BitVec 5) (m : BitVec 3) (d : BitVec 5) (k : BitVec 1) : RoundTrip.Statement (.vscl f b a m d k) := by
  have h : (18#5 ++ f ++ 0#1 ++ b ++ a ++ m ++ d ++ 26#6 ++ k : IWord) &&& 0xFA00007E = 0x90000034 := by
    rw [show (0xFA00007E : IWord) = 31#5 ++ 0#1 ++ 1#1 ++ 0#5 ++ 0#5 ++ 0#3 ++ 0#5 ++ 63#6 ++ 0#1 from rfl]
    simp only [BitVec.and_append, BitVec.and_zero, BitVec.reduceAnd]; decide
  refine reads h (by decide) rfl ?_
  refine (if_neg (ne_true_of_eq_false (miss h (by decide)))).trans <| (if_neg (ne_true_of_eq_false (miss h (by decide)))).trans <| (if_neg (ne_true_of_eq_false (miss h (by decide)))).trans <| (if_neg (ne_true_of_eq_false (miss h (by decide)))).trans <| (if_pos (hit h)).trans ?_
  simp (disch := decide) only [BitVec.extractLsb'_append_eq_of_le, BitVec.extractLsb'_append_eq_of_add_le, BitVec.extractLsb'_eq_self, Nat.reduceSub]

theorem RoundTrip.mma (l : BitVec 1) (m : BitVec 1) (t : BitVec 6) (a : BitVec 5) (f : BitVec 3) (b : BitVec 5) (k : BitVec 1) : RoundTrip.Statement (.mma l m t a f b k) := by
  have h : (l ++ m ++ 0#4 ++ t ++ a ++ f ++ b ++ 27#6 ++ k : IWord) &&& 0x3C00007E = 0x00000036 := by
    rw [show (0x3C00007E : IWord) = 0#1 ++ 0#1 ++ 15#4 ++ 0#6 ++ 0#5 ++ 0#3 ++ 0#5 ++ 63#6 ++ 0#1 from rfl]
    simp only [BitVec.and_append, BitVec.and_zero, BitVec.reduceAnd]; decide
  refine reads h (by decide) rfl ?_
  refine (if_pos (hit h)).trans ?_
  simp (disch := decide) only [BitVec.extractLsb'_append_eq_of_le, BitVec.extractLsb'_append_eq_of_add_le, BitVec.extractLsb'_eq_self, Nat.reduceSub]

theorem RoundTrip.mmaT (l : BitVec 1) (m : BitVec 1) (t : BitVec 6) (a : BitVec 5) (f : BitVec 3) (b : BitVec 5) (k : BitVec 1) : RoundTrip.Statement (.mmaT l m t a f b k) := by
  have h : (l ++ m ++ 1#4 ++ t ++ a ++ f ++ b ++ 27#6 ++ k : IWord) &&& 0x3C00007E = 0x04000036 := by
    rw [show (0x3C00007E : IWord) = 0#1 ++ 0#1 ++ 15#4 ++ 0#6 ++ 0#5 ++ 0#3 ++ 0#5 ++ 63#6 ++ 0#1 from rfl]
    simp only [BitVec.and_append, BitVec.and_zero, BitVec.reduceAnd]; decide
  refine reads h (by decide) rfl ?_
  refine (if_neg (ne_true_of_eq_false (miss h (by decide)))).trans <| (if_pos (hit h)).trans ?_
  simp (disch := decide) only [BitVec.extractLsb'_append_eq_of_le, BitVec.extractLsb'_append_eq_of_add_le, BitVec.extractLsb'_eq_self, Nat.reduceSub]

theorem RoundTrip.mmas (l : BitVec 1) (m : BitVec 1) (t : BitVec 6) (a : BitVec 5) (f : BitVec 2) (b : BitVec 5) (k : BitVec 1) : RoundTrip.Statement (.mmas l m t a f b k) := by
  have h : (l ++ m ++ 2#4 ++ t ++ a ++ 0#1 ++ f ++ b ++ 27#6 ++ k : IWord) &&& 0x3C00407E = 0x08000036 := by
    rw [show (0x3C00407E : IWord) = 0#1 ++ 0#1 ++ 15#4 ++ 0#6 ++ 0#5 ++ 1#1 ++ 0#2 ++ 0#5 ++ 63#6 ++ 0#1 from rfl]
    simp only [BitVec.and_append, BitVec.and_zero, BitVec.reduceAnd]; decide
  refine reads h (by decide) rfl ?_
  refine (if_neg (ne_true_of_eq_false (miss h (by decide)))).trans <| (if_neg (ne_true_of_eq_false (miss h (by decide)))).trans <| (if_pos (hit h)).trans ?_
  simp (disch := decide) only [BitVec.extractLsb'_append_eq_of_le, BitVec.extractLsb'_append_eq_of_add_le, BitVec.extractLsb'_eq_self, Nat.reduceSub]

theorem RoundTrip.accZero (l : BitVec 1) (m : BitVec 1) (a : BitVec 5) (b : BitVec 5) (k : BitVec 1) : RoundTrip.Statement (.accZero l m a b k) := by
  have h : (l ++ m ++ 0#10 ++ a ++ 0#3 ++ b ++ 28#6 ++ k : IWord) &&& 0x3FF0707E = 0x00000038 := by
    rw [show (0x3FF0707E : IWord) = 0#1 ++ 0#1 ++ 1023#10 ++ 0#5 ++ 7#3 ++ 0#5 ++ 63#6 ++ 0#1 from rfl]
    simp only [BitVec.and_append, BitVec.and_zero, BitVec.reduceAnd]; decide
  refine reads h (by decide) rfl ?_
  refine (if_pos (hit h)).trans ?_
  simp (disch := decide) only [BitVec.extractLsb'_append_eq_of_le, BitVec.extractLsb'_append_eq_of_add_le, BitVec.extractLsb'_eq_self, Nat.reduceSub]

theorem RoundTrip.accRd (l : BitVec 1) (t : BitVec 6) (a : BitVec 5) (f : BitVec 3) (k : BitVec 1) : RoundTrip.Statement (.accRd l t a f k) := by
  have h : (l ++ 1#5 ++ t ++ a ++ f ++ 28#11 ++ k : IWord) &&& 0x7C000FFE = 0x04000038 := by
    rw [show (0x7C000FFE : IWord) = 0#1 ++ 31#5 ++ 0#6 ++ 0#5 ++ 0#3 ++ 2047#11 ++ 0#1 from rfl]
    simp only [BitVec.and_append, BitVec.and_zero, BitVec.reduceAnd]; decide
  refine reads h (by decide) rfl ?_
  refine (if_neg (ne_true_of_eq_false (miss h (by decide)))).trans <| (if_pos (hit h)).trans ?_
  simp (disch := decide) only [BitVec.extractLsb'_append_eq_of_le, BitVec.extractLsb'_append_eq_of_add_le, BitVec.extractLsb'_eq_self, Nat.reduceSub]

theorem RoundTrip.accWr (l : BitVec 1) (t : BitVec 6) (a : BitVec 5) (f : BitVec 3) (k : BitVec 1) : RoundTrip.Statement (.accWr l t a f k) := by
  have h : (l ++ 2#5 ++ t ++ a ++ f ++ 28#11 ++ k : IWord) &&& 0x7C000FFE = 0x08000038 := by
    rw [show (0x7C000FFE : IWord) = 0#1 ++ 31#5 ++ 0#6 ++ 0#5 ++ 0#3 ++ 2047#11 ++ 0#1 from rfl]
    simp only [BitVec.and_append, BitVec.and_zero, BitVec.reduceAnd]; decide
  refine reads h (by decide) rfl ?_
  refine (if_neg (ne_true_of_eq_false (miss h (by decide)))).trans <| (if_neg (ne_true_of_eq_false (miss h (by decide)))).trans <| (if_pos (hit h)).trans ?_
  simp (disch := decide) only [BitVec.extractLsb'_append_eq_of_le, BitVec.extractLsb'_append_eq_of_add_le, BitVec.extractLsb'_eq_self, Nat.reduceSub]

theorem RoundTrip.loftLd (l : BitVec 1) (t : BitVec 6) (a : BitVec 5) (k : BitVec 1) : RoundTrip.Statement (.loftLd l t a k) := by
  have h : (l ++ 3#5 ++ t ++ a ++ 28#14 ++ k : IWord) &&& 0x7C007FFE = 0x0C000038 := by
    rw [show (0x7C007FFE : IWord) = 0#1 ++ 31#5 ++ 0#6 ++ 0#5 ++ 16383#14 ++ 0#1 from rfl]
    simp only [BitVec.and_append, BitVec.and_zero, BitVec.reduceAnd]; decide
  refine reads h (by decide) rfl ?_
  refine (if_neg (ne_true_of_eq_false (miss h (by decide)))).trans <| (if_neg (ne_true_of_eq_false (miss h (by decide)))).trans <| (if_neg (ne_true_of_eq_false (miss h (by decide)))).trans <| (if_pos (hit h)).trans ?_
  simp (disch := decide) only [BitVec.extractLsb'_append_eq_of_le, BitVec.extractLsb'_append_eq_of_add_le, BitVec.extractLsb'_eq_self, Nat.reduceSub]

theorem RoundTrip.copy (c : BitVec 4) (b : BitVec 4) (s : BitVec 5) (a : BitVec 4) (d : BitVec 5) (k : BitVec 1) : RoundTrip.Statement (.copy c b s a d k) := by
  have h : (c ++ b ++ s ++ a ++ d ++ 29#9 ++ k : IWord) &&& 0x000003FE = 0x0000003A := by
    rw [show (0x000003FE : IWord) = 0#4 ++ 0#4 ++ 0#5 ++ 0#4 ++ 0#5 ++ 511#9 ++ 0#1 from rfl]
    simp only [BitVec.and_append, BitVec.and_zero, BitVec.reduceAnd]; decide
  refine reads h (by decide) rfl ?_
  refine (if_pos (hit h)).trans ?_
  simp (disch := decide) only [BitVec.extractLsb'_append_eq_of_le, BitVec.extractLsb'_append_eq_of_add_le, BitVec.extractLsb'_eq_self, Nat.reduceSub]

theorem RoundTrip.copyMc (c : BitVec 4) (b : BitVec 4) (s : BitVec 5) (a : BitVec 4) (d : BitVec 5) (k : BitVec 1) : RoundTrip.Statement (.copyMc c b s a d k) := by
  have h : (c ++ b ++ s ++ a ++ d ++ 93#9 ++ k : IWord) &&& 0x000003FE = 0x000000BA := by
    rw [show (0x000003FE : IWord) = 0#4 ++ 0#4 ++ 0#5 ++ 0#4 ++ 0#5 ++ 511#9 ++ 0#1 from rfl]
    simp only [BitVec.and_append, BitVec.and_zero, BitVec.reduceAnd]; decide
  refine reads h (by decide) rfl ?_
  refine (if_neg (ne_true_of_eq_false (miss h (by decide)))).trans <| (if_pos (hit h)).trans ?_
  simp (disch := decide) only [BitVec.extractLsb'_append_eq_of_le, BitVec.extractLsb'_append_eq_of_add_le, BitVec.extractLsb'_eq_self, Nat.reduceSub]

theorem RoundTrip.copyT (c : BitVec 4) (b : BitVec 4) (s : BitVec 5) (t : BitVec 6) (k : BitVec 1) : RoundTrip.Statement (.copyT c b s t k) := by
  have h : (c ++ b ++ s ++ 0#3 ++ t ++ 157#9 ++ k : IWord) &&& 0x000703FE = 0x0000013A := by
    rw [show (0x000703FE : IWord) = 0#4 ++ 0#4 ++ 0#5 ++ 7#3 ++ 0#6 ++ 511#9 ++ 0#1 from rfl]
    simp only [BitVec.and_append, BitVec.and_zero, BitVec.reduceAnd]; decide
  refine reads h (by decide) rfl ?_
  refine (if_neg (ne_true_of_eq_false (miss h (by decide)))).trans <| (if_neg (ne_true_of_eq_false (miss h (by decide)))).trans <| (if_pos (hit h)).trans ?_
  simp (disch := decide) only [BitVec.extractLsb'_append_eq_of_le, BitVec.extractLsb'_append_eq_of_add_le, BitVec.extractLsb'_eq_self, Nat.reduceSub]

theorem RoundTrip.reduce (c : BitVec 4) (b : BitVec 4) (o : BitVec 2) (f : BitVec 2) (a : BitVec 4) (n : BitVec 5) (k : BitVec 1) : RoundTrip.Statement (.reduce c b o f a n k) := by
  have h : (c ++ b ++ o ++ f ++ 0#1 ++ a ++ n ++ 285#9 ++ k : IWord) &&& 0x000803FE = 0x0000023A := by
    rw [show (0x000803FE : IWord) = 0#4 ++ 0#4 ++ 0#2 ++ 0#2 ++ 1#1 ++ 0#4 ++ 0#5 ++ 511#9 ++ 0#1 from rfl]
    simp only [BitVec.and_append, BitVec.and_zero, BitVec.reduceAnd]; decide
  refine reads h (by decide) rfl ?_
  refine (if_neg (ne_true_of_eq_false (miss h (by decide)))).trans <| (if_neg (ne_true_of_eq_false (miss h (by decide)))).trans <| (if_neg (ne_true_of_eq_false (miss h (by decide)))).trans <| (if_pos (hit h)).trans ?_
  simp (disch := decide) only [BitVec.extractLsb'_append_eq_of_le, BitVec.extractLsb'_append_eq_of_add_le, BitVec.extractLsb'_eq_self, Nat.reduceSub]

theorem RoundTrip.launch (l : BitVec 1) (a : BitVec 5) (k : BitVec 1) : RoundTrip.Statement (.launch l a k) := by
  have h : (l ++ 0#11 ++ a ++ 30#14 ++ k : IWord) &&& 0x7FF07FFE = 0x0000003C := by
    rw [show (0x7FF07FFE : IWord) = 0#1 ++ 2047#11 ++ 0#5 ++ 16383#14 ++ 0#1 from rfl]
    simp only [BitVec.and_append, BitVec.and_zero, BitVec.reduceAnd]; decide
  refine reads h (by decide) rfl ?_
  refine (if_pos (hit h)).trans ?_
  simp (disch := decide) only [BitVec.extractLsb'_append_eq_of_le, BitVec.extractLsb'_append_eq_of_add_le, BitVec.extractLsb'_eq_self, Nat.reduceSub]

theorem RoundTrip.lwait (l : BitVec 1) (a : BitVec 5) (d : BitVec 5) (k : BitVec 1) : RoundTrip.Statement (.lwait l a d k) := by
  have h : (l ++ 32#11 ++ a ++ 0#3 ++ d ++ 30#6 ++ k : IWord) &&& 0x7FF0707E = 0x0200003C := by
    rw [show (0x7FF0707E : IWord) = 0#1 ++ 2047#11 ++ 0#5 ++ 7#3 ++ 0#5 ++ 63#6 ++ 0#1 from rfl]
    simp only [BitVec.and_append, BitVec.and_zero, BitVec.reduceAnd]; decide
  refine reads h (by decide) rfl ?_
  refine (if_neg (ne_true_of_eq_false (miss h (by decide)))).trans <| (if_pos (hit h)).trans ?_
  simp (disch := decide) only [BitVec.extractLsb'_append_eq_of_le, BitVec.extractLsb'_append_eq_of_add_le, BitVec.extractLsb'_eq_self, Nat.reduceSub]

theorem RoundTrip.cancel (l : BitVec 1) (b : BitVec 5) (a : BitVec 5) (k : BitVec 1) : RoundTrip.Statement (.cancel l b a k) := by
  have h : (l ++ 2#6 ++ b ++ a ++ 30#14 ++ k : IWord) &&& 0x7E007FFE = 0x0400003C := by
    rw [show (0x7E007FFE : IWord) = 0#1 ++ 63#6 ++ 0#5 ++ 0#5 ++ 16383#14 ++ 0#1 from rfl]
    simp only [BitVec.and_append, BitVec.and_zero, BitVec.reduceAnd]; decide
  refine reads h (by decide) rfl ?_
  refine (if_neg (ne_true_of_eq_false (miss h (by decide)))).trans <| (if_neg (ne_true_of_eq_false (miss h (by decide)))).trans <| (if_pos (hit h)).trans ?_
  simp (disch := decide) only [BitVec.extractLsb'_append_eq_of_le, BitVec.extractLsb'_append_eq_of_add_le, BitVec.extractLsb'_eq_self, Nat.reduceSub]

theorem RoundTrip.cpref (l : BitVec 1) (n : BitVec 5) (a : BitVec 5) (b : BitVec 5) (k : BitVec 1) : RoundTrip.Statement (.cpref l n a b k) := by
  have h : (l ++ 3#6 ++ n ++ a ++ 0#3 ++ b ++ 30#6 ++ k : IWord) &&& 0x7E00707E = 0x0600003C := by
    rw [show (0x7E00707E : IWord) = 0#1 ++ 63#6 ++ 0#5 ++ 0#5 ++ 7#3 ++ 0#5 ++ 63#6 ++ 0#1 from rfl]
    simp only [BitVec.and_append, BitVec.and_zero, BitVec.reduceAnd]; decide
  refine reads h (by decide) rfl ?_
  refine (if_neg (ne_true_of_eq_false (miss h (by decide)))).trans <| (if_neg (ne_true_of_eq_false (miss h (by decide)))).trans <| (if_neg (ne_true_of_eq_false (miss h (by decide)))).trans <| (if_pos (hit h)).trans ?_
  simp (disch := decide) only [BitVec.extractLsb'_append_eq_of_le, BitVec.extractLsb'_append_eq_of_add_le, BitVec.extractLsb'_eq_self, Nat.reduceSub]

theorem RoundTrip.cdisc (l : BitVec 1) (n : BitVec 5) (a : BitVec 5) (b : BitVec 5) (k : BitVec 1) : RoundTrip.Statement (.cdisc l n a b k) := by
  have h : (l ++ 4#6 ++ n ++ a ++ 0#3 ++ b ++ 30#6 ++ k : IWord) &&& 0x7E00707E = 0x0800003C := by
    rw [show (0x7E00707E : IWord) = 0#1 ++ 63#6 ++ 0#5 ++ 0#5 ++ 7#3 ++ 0#5 ++ 63#6 ++ 0#1 from rfl]
    simp only [BitVec.and_append, BitVec.and_zero, BitVec.reduceAnd]; decide
  refine reads h (by decide) rfl ?_
  refine (if_neg (ne_true_of_eq_false (miss h (by decide)))).trans <| (if_neg (ne_true_of_eq_false (miss h (by decide)))).trans <| (if_neg (ne_true_of_eq_false (miss h (by decide)))).trans <| (if_neg (ne_true_of_eq_false (miss h (by decide)))).trans <| (if_pos (hit h)).trans ?_
  simp (disch := decide) only [BitVec.extractLsb'_append_eq_of_le, BitVec.extractLsb'_append_eq_of_add_le, BitVec.extractLsb'_eq_self, Nat.reduceSub]

theorem RoundTrip.evsig (l : BitVec 1) (a : BitVec 5) (k : BitVec 1) : RoundTrip.Statement (.evsig l a k) := by
  have h : (l ++ 160#11 ++ a ++ 30#14 ++ k : IWord) &&& 0x7FF07FFE = 0x0A00003C := by
    rw [show (0x7FF07FFE : IWord) = 0#1 ++ 2047#11 ++ 0#5 ++ 16383#14 ++ 0#1 from rfl]
    simp only [BitVec.and_append, BitVec.and_zero, BitVec.reduceAnd]; decide
  refine reads h (by decide) rfl ?_
  refine (if_neg (ne_true_of_eq_false (miss h (by decide)))).trans <| (if_neg (ne_true_of_eq_false (miss h (by decide)))).trans <| (if_neg (ne_true_of_eq_false (miss h (by decide)))).trans <| (if_neg (ne_true_of_eq_false (miss h (by decide)))).trans <| (if_neg (ne_true_of_eq_false (miss h (by decide)))).trans <| (if_pos (hit h)).trans ?_
  simp (disch := decide) only [BitVec.extractLsb'_append_eq_of_le, BitVec.extractLsb'_append_eq_of_add_le, BitVec.extractLsb'_eq_self, Nat.reduceSub]

theorem RoundTrip.evwait (l : BitVec 1) (a : BitVec 5) (d : BitVec 5) (k : BitVec 1) : RoundTrip.Statement (.evwait l a d k) := by
  have h : (l ++ 192#11 ++ a ++ 0#3 ++ d ++ 30#6 ++ k : IWord) &&& 0x7FF0707E = 0x0C00003C := by
    rw [show (0x7FF0707E : IWord) = 0#1 ++ 2047#11 ++ 0#5 ++ 7#3 ++ 0#5 ++ 63#6 ++ 0#1 from rfl]
    simp only [BitVec.and_append, BitVec.and_zero, BitVec.reduceAnd]; decide
  refine reads h (by decide) rfl ?_
  refine (if_neg (ne_true_of_eq_false (miss h (by decide)))).trans <| (if_neg (ne_true_of_eq_false (miss h (by decide)))).trans <| (if_neg (ne_true_of_eq_false (miss h (by decide)))).trans <| (if_neg (ne_true_of_eq_false (miss h (by decide)))).trans <| (if_neg (ne_true_of_eq_false (miss h (by decide)))).trans <| (if_neg (ne_true_of_eq_false (miss h (by decide)))).trans <| (if_pos (hit h)).trans ?_
  simp (disch := decide) only [BitVec.extractLsb'_append_eq_of_le, BitVec.extractLsb'_append_eq_of_add_le, BitVec.extractLsb'_eq_self, Nat.reduceSub]

theorem RoundTrip.vfq (l : BitVec 1) (a : BitVec 5) (d : BitVec 5) (k : BitVec 1) : RoundTrip.Statement (.vfq l a d k) := by
  have h : (l ++ 224#11 ++ a ++ 0#3 ++ d ++ 30#6 ++ k : IWord) &&& 0x7FF0707E = 0x0E00003C := by
    rw [show (0x7FF0707E : IWord) = 0#1 ++ 2047#11 ++ 0#5 ++ 7#3 ++ 0#5 ++ 63#6 ++ 0#1 from rfl]
    simp only [BitVec.and_append, BitVec.and_zero, BitVec.reduceAnd]; decide
  refine reads h (by decide) rfl ?_
  refine (if_neg (ne_true_of_eq_false (miss h (by decide)))).trans <| (if_neg (ne_true_of_eq_false (miss h (by decide)))).trans <| (if_neg (ne_true_of_eq_false (miss h (by decide)))).trans <| (if_neg (ne_true_of_eq_false (miss h (by decide)))).trans <| (if_neg (ne_true_of_eq_false (miss h (by decide)))).trans <| (if_neg (ne_true_of_eq_false (miss h (by decide)))).trans <| (if_neg (ne_true_of_eq_false (miss h (by decide)))).trans <| (if_pos (hit h)).trans ?_
  simp (disch := decide) only [BitVec.extractLsb'_append_eq_of_le, BitVec.extractLsb'_append_eq_of_add_le, BitVec.extractLsb'_eq_self, Nat.reduceSub]

theorem RoundTrip.vfdone (l : BitVec 1) (a : BitVec 5) (k : BitVec 1) : RoundTrip.Statement (.vfdone l a k) := by
  have h : (l ++ 256#11 ++ a ++ 30#14 ++ k : IWord) &&& 0x7FF07FFE = 0x1000003C := by
    rw [show (0x7FF07FFE : IWord) = 0#1 ++ 2047#11 ++ 0#5 ++ 16383#14 ++ 0#1 from rfl]
    simp only [BitVec.and_append, BitVec.and_zero, BitVec.reduceAnd]; decide
  refine reads h (by decide) rfl ?_
  refine (if_neg (ne_true_of_eq_false (miss h (by decide)))).trans <| (if_neg (ne_true_of_eq_false (miss h (by decide)))).trans <| (if_neg (ne_true_of_eq_false (miss h (by decide)))).trans <| (if_neg (ne_true_of_eq_false (miss h (by decide)))).trans <| (if_neg (ne_true_of_eq_false (miss h (by decide)))).trans <| (if_neg (ne_true_of_eq_false (miss h (by decide)))).trans <| (if_neg (ne_true_of_eq_false (miss h (by decide)))).trans <| (if_neg (ne_true_of_eq_false (miss h (by decide)))).trans <| (if_pos (hit h)).trans ?_
  simp (disch := decide) only [BitVec.extractLsb'_append_eq_of_le, BitVec.extractLsb'_append_eq_of_add_le, BitVec.extractLsb'_eq_self, Nat.reduceSub]

theorem RoundTrip.add_ (b : BitVec 5) (a : BitVec 5) (d : BitVec 5) (k : BitVec 1) : RoundTrip.Statement (.add_ b a d k) := by
  have h : (0#7 ++ b ++ a ++ 0#3 ++ d ++ 6#6 ++ k : IWord) &&& 0xFE00707E = 0x0000000C := by
    rw [show (0xFE00707E : IWord) = 127#7 ++ 0#5 ++ 0#5 ++ 7#3 ++ 0#5 ++ 63#6 ++ 0#1 from rfl]
    simp only [BitVec.and_append, BitVec.and_zero, BitVec.reduceAnd]; decide
  refine reads h (by decide) rfl ?_
  refine (if_pos (hit h)).trans ?_
  simp (disch := decide) only [BitVec.extractLsb'_append_eq_of_le, BitVec.extractLsb'_append_eq_of_add_le, BitVec.extractLsb'_eq_self, Nat.reduceSub]

theorem RoundTrip.sll (b : BitVec 5) (a : BitVec 5) (d : BitVec 5) (k : BitVec 1) : RoundTrip.Statement (.sll b a d k) := by
  have h : (0#7 ++ b ++ a ++ 1#3 ++ d ++ 6#6 ++ k : IWord) &&& 0xFE00707E = 0x0000100C := by
    rw [show (0xFE00707E : IWord) = 127#7 ++ 0#5 ++ 0#5 ++ 7#3 ++ 0#5 ++ 63#6 ++ 0#1 from rfl]
    simp only [BitVec.and_append, BitVec.and_zero, BitVec.reduceAnd]; decide
  refine reads h (by decide) rfl ?_
  refine (if_neg (ne_true_of_eq_false (miss h (by decide)))).trans <| (if_pos (hit h)).trans ?_
  simp (disch := decide) only [BitVec.extractLsb'_append_eq_of_le, BitVec.extractLsb'_append_eq_of_add_le, BitVec.extractLsb'_eq_self, Nat.reduceSub]

theorem RoundTrip.slt (b : BitVec 5) (a : BitVec 5) (d : BitVec 5) (k : BitVec 1) : RoundTrip.Statement (.slt b a d k) := by
  have h : (0#7 ++ b ++ a ++ 2#3 ++ d ++ 6#6 ++ k : IWord) &&& 0xFE00707E = 0x0000200C := by
    rw [show (0xFE00707E : IWord) = 127#7 ++ 0#5 ++ 0#5 ++ 7#3 ++ 0#5 ++ 63#6 ++ 0#1 from rfl]
    simp only [BitVec.and_append, BitVec.and_zero, BitVec.reduceAnd]; decide
  refine reads h (by decide) rfl ?_
  refine (if_neg (ne_true_of_eq_false (miss h (by decide)))).trans <| (if_neg (ne_true_of_eq_false (miss h (by decide)))).trans <| (if_pos (hit h)).trans ?_
  simp (disch := decide) only [BitVec.extractLsb'_append_eq_of_le, BitVec.extractLsb'_append_eq_of_add_le, BitVec.extractLsb'_eq_self, Nat.reduceSub]

theorem RoundTrip.sltu (b : BitVec 5) (a : BitVec 5) (d : BitVec 5) (k : BitVec 1) : RoundTrip.Statement (.sltu b a d k) := by
  have h : (0#7 ++ b ++ a ++ 3#3 ++ d ++ 6#6 ++ k : IWord) &&& 0xFE00707E = 0x0000300C := by
    rw [show (0xFE00707E : IWord) = 127#7 ++ 0#5 ++ 0#5 ++ 7#3 ++ 0#5 ++ 63#6 ++ 0#1 from rfl]
    simp only [BitVec.and_append, BitVec.and_zero, BitVec.reduceAnd]; decide
  refine reads h (by decide) rfl ?_
  refine (if_neg (ne_true_of_eq_false (miss h (by decide)))).trans <| (if_neg (ne_true_of_eq_false (miss h (by decide)))).trans <| (if_neg (ne_true_of_eq_false (miss h (by decide)))).trans <| (if_pos (hit h)).trans ?_
  simp (disch := decide) only [BitVec.extractLsb'_append_eq_of_le, BitVec.extractLsb'_append_eq_of_add_le, BitVec.extractLsb'_eq_self, Nat.reduceSub]

theorem RoundTrip.xor_ (b : BitVec 5) (a : BitVec 5) (d : BitVec 5) (k : BitVec 1) : RoundTrip.Statement (.xor_ b a d k) := by
  have h : (0#7 ++ b ++ a ++ 4#3 ++ d ++ 6#6 ++ k : IWord) &&& 0xFE00707E = 0x0000400C := by
    rw [show (0xFE00707E : IWord) = 127#7 ++ 0#5 ++ 0#5 ++ 7#3 ++ 0#5 ++ 63#6 ++ 0#1 from rfl]
    simp only [BitVec.and_append, BitVec.and_zero, BitVec.reduceAnd]; decide
  refine reads h (by decide) rfl ?_
  refine (if_neg (ne_true_of_eq_false (miss h (by decide)))).trans <| (if_neg (ne_true_of_eq_false (miss h (by decide)))).trans <| (if_neg (ne_true_of_eq_false (miss h (by decide)))).trans <| (if_neg (ne_true_of_eq_false (miss h (by decide)))).trans <| (if_pos (hit h)).trans ?_
  simp (disch := decide) only [BitVec.extractLsb'_append_eq_of_le, BitVec.extractLsb'_append_eq_of_add_le, BitVec.extractLsb'_eq_self, Nat.reduceSub]

theorem RoundTrip.srl (b : BitVec 5) (a : BitVec 5) (d : BitVec 5) (k : BitVec 1) : RoundTrip.Statement (.srl b a d k) := by
  have h : (0#7 ++ b ++ a ++ 5#3 ++ d ++ 6#6 ++ k : IWord) &&& 0xFE00707E = 0x0000500C := by
    rw [show (0xFE00707E : IWord) = 127#7 ++ 0#5 ++ 0#5 ++ 7#3 ++ 0#5 ++ 63#6 ++ 0#1 from rfl]
    simp only [BitVec.and_append, BitVec.and_zero, BitVec.reduceAnd]; decide
  refine reads h (by decide) rfl ?_
  refine (if_neg (ne_true_of_eq_false (miss h (by decide)))).trans <| (if_neg (ne_true_of_eq_false (miss h (by decide)))).trans <| (if_neg (ne_true_of_eq_false (miss h (by decide)))).trans <| (if_neg (ne_true_of_eq_false (miss h (by decide)))).trans <| (if_neg (ne_true_of_eq_false (miss h (by decide)))).trans <| (if_pos (hit h)).trans ?_
  simp (disch := decide) only [BitVec.extractLsb'_append_eq_of_le, BitVec.extractLsb'_append_eq_of_add_le, BitVec.extractLsb'_eq_self, Nat.reduceSub]

theorem RoundTrip.or_ (b : BitVec 5) (a : BitVec 5) (d : BitVec 5) (k : BitVec 1) : RoundTrip.Statement (.or_ b a d k) := by
  have h : (0#7 ++ b ++ a ++ 6#3 ++ d ++ 6#6 ++ k : IWord) &&& 0xFE00707E = 0x0000600C := by
    rw [show (0xFE00707E : IWord) = 127#7 ++ 0#5 ++ 0#5 ++ 7#3 ++ 0#5 ++ 63#6 ++ 0#1 from rfl]
    simp only [BitVec.and_append, BitVec.and_zero, BitVec.reduceAnd]; decide
  refine reads h (by decide) rfl ?_
  refine (if_neg (ne_true_of_eq_false (miss h (by decide)))).trans <| (if_neg (ne_true_of_eq_false (miss h (by decide)))).trans <| (if_neg (ne_true_of_eq_false (miss h (by decide)))).trans <| (if_neg (ne_true_of_eq_false (miss h (by decide)))).trans <| (if_neg (ne_true_of_eq_false (miss h (by decide)))).trans <| (if_neg (ne_true_of_eq_false (miss h (by decide)))).trans <| (if_pos (hit h)).trans ?_
  simp (disch := decide) only [BitVec.extractLsb'_append_eq_of_le, BitVec.extractLsb'_append_eq_of_add_le, BitVec.extractLsb'_eq_self, Nat.reduceSub]

theorem RoundTrip.and_ (b : BitVec 5) (a : BitVec 5) (d : BitVec 5) (k : BitVec 1) : RoundTrip.Statement (.and_ b a d k) := by
  have h : (0#7 ++ b ++ a ++ 7#3 ++ d ++ 6#6 ++ k : IWord) &&& 0xFE00707E = 0x0000700C := by
    rw [show (0xFE00707E : IWord) = 127#7 ++ 0#5 ++ 0#5 ++ 7#3 ++ 0#5 ++ 63#6 ++ 0#1 from rfl]
    simp only [BitVec.and_append, BitVec.and_zero, BitVec.reduceAnd]; decide
  refine reads h (by decide) rfl ?_
  refine (if_neg (ne_true_of_eq_false (miss h (by decide)))).trans <| (if_neg (ne_true_of_eq_false (miss h (by decide)))).trans <| (if_neg (ne_true_of_eq_false (miss h (by decide)))).trans <| (if_neg (ne_true_of_eq_false (miss h (by decide)))).trans <| (if_neg (ne_true_of_eq_false (miss h (by decide)))).trans <| (if_neg (ne_true_of_eq_false (miss h (by decide)))).trans <| (if_neg (ne_true_of_eq_false (miss h (by decide)))).trans <| (if_pos (hit h)).trans ?_
  simp (disch := decide) only [BitVec.extractLsb'_append_eq_of_le, BitVec.extractLsb'_append_eq_of_add_le, BitVec.extractLsb'_eq_self, Nat.reduceSub]

theorem RoundTrip.sub_ (b : BitVec 5) (a : BitVec 5) (d : BitVec 5) (k : BitVec 1) : RoundTrip.Statement (.sub_ b a d k) := by
  have h : (32#7 ++ b ++ a ++ 0#3 ++ d ++ 6#6 ++ k : IWord) &&& 0xFE00707E = 0x4000000C := by
    rw [show (0xFE00707E : IWord) = 127#7 ++ 0#5 ++ 0#5 ++ 7#3 ++ 0#5 ++ 63#6 ++ 0#1 from rfl]
    simp only [BitVec.and_append, BitVec.and_zero, BitVec.reduceAnd]; decide
  refine reads h (by decide) rfl ?_
  refine (if_neg (ne_true_of_eq_false (miss h (by decide)))).trans <| (if_neg (ne_true_of_eq_false (miss h (by decide)))).trans <| (if_neg (ne_true_of_eq_false (miss h (by decide)))).trans <| (if_neg (ne_true_of_eq_false (miss h (by decide)))).trans <| (if_neg (ne_true_of_eq_false (miss h (by decide)))).trans <| (if_neg (ne_true_of_eq_false (miss h (by decide)))).trans <| (if_neg (ne_true_of_eq_false (miss h (by decide)))).trans <| (if_neg (ne_true_of_eq_false (miss h (by decide)))).trans <| (if_pos (hit h)).trans ?_
  simp (disch := decide) only [BitVec.extractLsb'_append_eq_of_le, BitVec.extractLsb'_append_eq_of_add_le, BitVec.extractLsb'_eq_self, Nat.reduceSub]

theorem RoundTrip.sra (b : BitVec 5) (a : BitVec 5) (d : BitVec 5) (k : BitVec 1) : RoundTrip.Statement (.sra b a d k) := by
  have h : (32#7 ++ b ++ a ++ 5#3 ++ d ++ 6#6 ++ k : IWord) &&& 0xFE00707E = 0x4000500C := by
    rw [show (0xFE00707E : IWord) = 127#7 ++ 0#5 ++ 0#5 ++ 7#3 ++ 0#5 ++ 63#6 ++ 0#1 from rfl]
    simp only [BitVec.and_append, BitVec.and_zero, BitVec.reduceAnd]; decide
  refine reads h (by decide) rfl ?_
  refine (if_neg (ne_true_of_eq_false (miss h (by decide)))).trans <| (if_neg (ne_true_of_eq_false (miss h (by decide)))).trans <| (if_neg (ne_true_of_eq_false (miss h (by decide)))).trans <| (if_neg (ne_true_of_eq_false (miss h (by decide)))).trans <| (if_neg (ne_true_of_eq_false (miss h (by decide)))).trans <| (if_neg (ne_true_of_eq_false (miss h (by decide)))).trans <| (if_neg (ne_true_of_eq_false (miss h (by decide)))).trans <| (if_neg (ne_true_of_eq_false (miss h (by decide)))).trans <| (if_neg (ne_true_of_eq_false (miss h (by decide)))).trans <| (if_pos (hit h)).trans ?_
  simp (disch := decide) only [BitVec.extractLsb'_append_eq_of_le, BitVec.extractLsb'_append_eq_of_add_le, BitVec.extractLsb'_eq_self, Nat.reduceSub]

theorem RoundTrip.mul_ (b : BitVec 5) (a : BitVec 5) (d : BitVec 5) (k : BitVec 1) : RoundTrip.Statement (.mul_ b a d k) := by
  have h : (1#7 ++ b ++ a ++ 0#3 ++ d ++ 6#6 ++ k : IWord) &&& 0xFE00707E = 0x0200000C := by
    rw [show (0xFE00707E : IWord) = 127#7 ++ 0#5 ++ 0#5 ++ 7#3 ++ 0#5 ++ 63#6 ++ 0#1 from rfl]
    simp only [BitVec.and_append, BitVec.and_zero, BitVec.reduceAnd]; decide
  refine reads h (by decide) rfl ?_
  refine (if_neg (ne_true_of_eq_false (miss h (by decide)))).trans <| (if_neg (ne_true_of_eq_false (miss h (by decide)))).trans <| (if_neg (ne_true_of_eq_false (miss h (by decide)))).trans <| (if_neg (ne_true_of_eq_false (miss h (by decide)))).trans <| (if_neg (ne_true_of_eq_false (miss h (by decide)))).trans <| (if_neg (ne_true_of_eq_false (miss h (by decide)))).trans <| (if_neg (ne_true_of_eq_false (miss h (by decide)))).trans <| (if_neg (ne_true_of_eq_false (miss h (by decide)))).trans <| (if_neg (ne_true_of_eq_false (miss h (by decide)))).trans <| (if_neg (ne_true_of_eq_false (miss h (by decide)))).trans <| (if_pos (hit h)).trans ?_
  simp (disch := decide) only [BitVec.extractLsb'_append_eq_of_le, BitVec.extractLsb'_append_eq_of_add_le, BitVec.extractLsb'_eq_self, Nat.reduceSub]

theorem RoundTrip.mulh (b : BitVec 5) (a : BitVec 5) (d : BitVec 5) (k : BitVec 1) : RoundTrip.Statement (.mulh b a d k) := by
  have h : (1#7 ++ b ++ a ++ 1#3 ++ d ++ 6#6 ++ k : IWord) &&& 0xFE00707E = 0x0200100C := by
    rw [show (0xFE00707E : IWord) = 127#7 ++ 0#5 ++ 0#5 ++ 7#3 ++ 0#5 ++ 63#6 ++ 0#1 from rfl]
    simp only [BitVec.and_append, BitVec.and_zero, BitVec.reduceAnd]; decide
  refine reads h (by decide) rfl ?_
  refine (if_neg (ne_true_of_eq_false (miss h (by decide)))).trans <| (if_neg (ne_true_of_eq_false (miss h (by decide)))).trans <| (if_neg (ne_true_of_eq_false (miss h (by decide)))).trans <| (if_neg (ne_true_of_eq_false (miss h (by decide)))).trans <| (if_neg (ne_true_of_eq_false (miss h (by decide)))).trans <| (if_neg (ne_true_of_eq_false (miss h (by decide)))).trans <| (if_neg (ne_true_of_eq_false (miss h (by decide)))).trans <| (if_neg (ne_true_of_eq_false (miss h (by decide)))).trans <| (if_neg (ne_true_of_eq_false (miss h (by decide)))).trans <| (if_neg (ne_true_of_eq_false (miss h (by decide)))).trans <| (if_neg (ne_true_of_eq_false (miss h (by decide)))).trans <| (if_pos (hit h)).trans ?_
  simp (disch := decide) only [BitVec.extractLsb'_append_eq_of_le, BitVec.extractLsb'_append_eq_of_add_le, BitVec.extractLsb'_eq_self, Nat.reduceSub]

theorem RoundTrip.mulhu (b : BitVec 5) (a : BitVec 5) (d : BitVec 5) (k : BitVec 1) : RoundTrip.Statement (.mulhu b a d k) := by
  have h : (1#7 ++ b ++ a ++ 3#3 ++ d ++ 6#6 ++ k : IWord) &&& 0xFE00707E = 0x0200300C := by
    rw [show (0xFE00707E : IWord) = 127#7 ++ 0#5 ++ 0#5 ++ 7#3 ++ 0#5 ++ 63#6 ++ 0#1 from rfl]
    simp only [BitVec.and_append, BitVec.and_zero, BitVec.reduceAnd]; decide
  refine reads h (by decide) rfl ?_
  refine (if_neg (ne_true_of_eq_false (miss h (by decide)))).trans <| (if_neg (ne_true_of_eq_false (miss h (by decide)))).trans <| (if_neg (ne_true_of_eq_false (miss h (by decide)))).trans <| (if_neg (ne_true_of_eq_false (miss h (by decide)))).trans <| (if_neg (ne_true_of_eq_false (miss h (by decide)))).trans <| (if_neg (ne_true_of_eq_false (miss h (by decide)))).trans <| (if_neg (ne_true_of_eq_false (miss h (by decide)))).trans <| (if_neg (ne_true_of_eq_false (miss h (by decide)))).trans <| (if_neg (ne_true_of_eq_false (miss h (by decide)))).trans <| (if_neg (ne_true_of_eq_false (miss h (by decide)))).trans <| (if_neg (ne_true_of_eq_false (miss h (by decide)))).trans <| (if_neg (ne_true_of_eq_false (miss h (by decide)))).trans <| (if_pos (hit h)).trans ?_
  simp (disch := decide) only [BitVec.extractLsb'_append_eq_of_le, BitVec.extractLsb'_append_eq_of_add_le, BitVec.extractLsb'_eq_self, Nat.reduceSub]

theorem RoundTrip.div_ (b : BitVec 5) (a : BitVec 5) (d : BitVec 5) (k : BitVec 1) : RoundTrip.Statement (.div_ b a d k) := by
  have h : (1#7 ++ b ++ a ++ 4#3 ++ d ++ 6#6 ++ k : IWord) &&& 0xFE00707E = 0x0200400C := by
    rw [show (0xFE00707E : IWord) = 127#7 ++ 0#5 ++ 0#5 ++ 7#3 ++ 0#5 ++ 63#6 ++ 0#1 from rfl]
    simp only [BitVec.and_append, BitVec.and_zero, BitVec.reduceAnd]; decide
  refine reads h (by decide) rfl ?_
  refine (if_neg (ne_true_of_eq_false (miss h (by decide)))).trans <| (if_neg (ne_true_of_eq_false (miss h (by decide)))).trans <| (if_neg (ne_true_of_eq_false (miss h (by decide)))).trans <| (if_neg (ne_true_of_eq_false (miss h (by decide)))).trans <| (if_neg (ne_true_of_eq_false (miss h (by decide)))).trans <| (if_neg (ne_true_of_eq_false (miss h (by decide)))).trans <| (if_neg (ne_true_of_eq_false (miss h (by decide)))).trans <| (if_neg (ne_true_of_eq_false (miss h (by decide)))).trans <| (if_neg (ne_true_of_eq_false (miss h (by decide)))).trans <| (if_neg (ne_true_of_eq_false (miss h (by decide)))).trans <| (if_neg (ne_true_of_eq_false (miss h (by decide)))).trans <| (if_neg (ne_true_of_eq_false (miss h (by decide)))).trans <| (if_neg (ne_true_of_eq_false (miss h (by decide)))).trans <| (if_pos (hit h)).trans ?_
  simp (disch := decide) only [BitVec.extractLsb'_append_eq_of_le, BitVec.extractLsb'_append_eq_of_add_le, BitVec.extractLsb'_eq_self, Nat.reduceSub]

theorem RoundTrip.divu (b : BitVec 5) (a : BitVec 5) (d : BitVec 5) (k : BitVec 1) : RoundTrip.Statement (.divu b a d k) := by
  have h : (1#7 ++ b ++ a ++ 5#3 ++ d ++ 6#6 ++ k : IWord) &&& 0xFE00707E = 0x0200500C := by
    rw [show (0xFE00707E : IWord) = 127#7 ++ 0#5 ++ 0#5 ++ 7#3 ++ 0#5 ++ 63#6 ++ 0#1 from rfl]
    simp only [BitVec.and_append, BitVec.and_zero, BitVec.reduceAnd]; decide
  refine reads h (by decide) rfl ?_
  refine (if_neg (ne_true_of_eq_false (miss h (by decide)))).trans <| (if_neg (ne_true_of_eq_false (miss h (by decide)))).trans <| (if_neg (ne_true_of_eq_false (miss h (by decide)))).trans <| (if_neg (ne_true_of_eq_false (miss h (by decide)))).trans <| (if_neg (ne_true_of_eq_false (miss h (by decide)))).trans <| (if_neg (ne_true_of_eq_false (miss h (by decide)))).trans <| (if_neg (ne_true_of_eq_false (miss h (by decide)))).trans <| (if_neg (ne_true_of_eq_false (miss h (by decide)))).trans <| (if_neg (ne_true_of_eq_false (miss h (by decide)))).trans <| (if_neg (ne_true_of_eq_false (miss h (by decide)))).trans <| (if_neg (ne_true_of_eq_false (miss h (by decide)))).trans <| (if_neg (ne_true_of_eq_false (miss h (by decide)))).trans <| (if_neg (ne_true_of_eq_false (miss h (by decide)))).trans <| (if_neg (ne_true_of_eq_false (miss h (by decide)))).trans <| (if_pos (hit h)).trans ?_
  simp (disch := decide) only [BitVec.extractLsb'_append_eq_of_le, BitVec.extractLsb'_append_eq_of_add_le, BitVec.extractLsb'_eq_self, Nat.reduceSub]

theorem RoundTrip.rem_ (b : BitVec 5) (a : BitVec 5) (d : BitVec 5) (k : BitVec 1) : RoundTrip.Statement (.rem_ b a d k) := by
  have h : (1#7 ++ b ++ a ++ 6#3 ++ d ++ 6#6 ++ k : IWord) &&& 0xFE00707E = 0x0200600C := by
    rw [show (0xFE00707E : IWord) = 127#7 ++ 0#5 ++ 0#5 ++ 7#3 ++ 0#5 ++ 63#6 ++ 0#1 from rfl]
    simp only [BitVec.and_append, BitVec.and_zero, BitVec.reduceAnd]; decide
  refine reads h (by decide) rfl ?_
  refine (if_neg (ne_true_of_eq_false (miss h (by decide)))).trans <| (if_neg (ne_true_of_eq_false (miss h (by decide)))).trans <| (if_neg (ne_true_of_eq_false (miss h (by decide)))).trans <| (if_neg (ne_true_of_eq_false (miss h (by decide)))).trans <| (if_neg (ne_true_of_eq_false (miss h (by decide)))).trans <| (if_neg (ne_true_of_eq_false (miss h (by decide)))).trans <| (if_neg (ne_true_of_eq_false (miss h (by decide)))).trans <| (if_neg (ne_true_of_eq_false (miss h (by decide)))).trans <| (if_neg (ne_true_of_eq_false (miss h (by decide)))).trans <| (if_neg (ne_true_of_eq_false (miss h (by decide)))).trans <| (if_neg (ne_true_of_eq_false (miss h (by decide)))).trans <| (if_neg (ne_true_of_eq_false (miss h (by decide)))).trans <| (if_neg (ne_true_of_eq_false (miss h (by decide)))).trans <| (if_neg (ne_true_of_eq_false (miss h (by decide)))).trans <| (if_neg (ne_true_of_eq_false (miss h (by decide)))).trans <| (if_pos (hit h)).trans ?_
  simp (disch := decide) only [BitVec.extractLsb'_append_eq_of_le, BitVec.extractLsb'_append_eq_of_add_le, BitVec.extractLsb'_eq_self, Nat.reduceSub]

theorem RoundTrip.remu (b : BitVec 5) (a : BitVec 5) (d : BitVec 5) (k : BitVec 1) : RoundTrip.Statement (.remu b a d k) := by
  have h : (1#7 ++ b ++ a ++ 7#3 ++ d ++ 6#6 ++ k : IWord) &&& 0xFE00707E = 0x0200700C := by
    rw [show (0xFE00707E : IWord) = 127#7 ++ 0#5 ++ 0#5 ++ 7#3 ++ 0#5 ++ 63#6 ++ 0#1 from rfl]
    simp only [BitVec.and_append, BitVec.and_zero, BitVec.reduceAnd]; decide
  refine reads h (by decide) rfl ?_
  refine (if_neg (ne_true_of_eq_false (miss h (by decide)))).trans <| (if_neg (ne_true_of_eq_false (miss h (by decide)))).trans <| (if_neg (ne_true_of_eq_false (miss h (by decide)))).trans <| (if_neg (ne_true_of_eq_false (miss h (by decide)))).trans <| (if_neg (ne_true_of_eq_false (miss h (by decide)))).trans <| (if_neg (ne_true_of_eq_false (miss h (by decide)))).trans <| (if_neg (ne_true_of_eq_false (miss h (by decide)))).trans <| (if_neg (ne_true_of_eq_false (miss h (by decide)))).trans <| (if_neg (ne_true_of_eq_false (miss h (by decide)))).trans <| (if_neg (ne_true_of_eq_false (miss h (by decide)))).trans <| (if_neg (ne_true_of_eq_false (miss h (by decide)))).trans <| (if_neg (ne_true_of_eq_false (miss h (by decide)))).trans <| (if_neg (ne_true_of_eq_false (miss h (by decide)))).trans <| (if_neg (ne_true_of_eq_false (miss h (by decide)))).trans <| (if_neg (ne_true_of_eq_false (miss h (by decide)))).trans <| (if_neg (ne_true_of_eq_false (miss h (by decide)))).trans <| (if_pos (hit h)).trans ?_
  simp (disch := decide) only [BitVec.extractLsb'_append_eq_of_le, BitVec.extractLsb'_append_eq_of_add_le, BitVec.extractLsb'_eq_self, Nat.reduceSub]

theorem RoundTrip.min_ (b : BitVec 5) (a : BitVec 5) (d : BitVec 5) (k : BitVec 1) : RoundTrip.Statement (.min_ b a d k) := by
  have h : (5#7 ++ b ++ a ++ 4#3 ++ d ++ 6#6 ++ k : IWord) &&& 0xFE00707E = 0x0A00400C := by
    rw [show (0xFE00707E : IWord) = 127#7 ++ 0#5 ++ 0#5 ++ 7#3 ++ 0#5 ++ 63#6 ++ 0#1 from rfl]
    simp only [BitVec.and_append, BitVec.and_zero, BitVec.reduceAnd]; decide
  refine reads h (by decide) rfl ?_
  refine (if_neg (ne_true_of_eq_false (miss h (by decide)))).trans <| (if_neg (ne_true_of_eq_false (miss h (by decide)))).trans <| (if_neg (ne_true_of_eq_false (miss h (by decide)))).trans <| (if_neg (ne_true_of_eq_false (miss h (by decide)))).trans <| (if_neg (ne_true_of_eq_false (miss h (by decide)))).trans <| (if_neg (ne_true_of_eq_false (miss h (by decide)))).trans <| (if_neg (ne_true_of_eq_false (miss h (by decide)))).trans <| (if_neg (ne_true_of_eq_false (miss h (by decide)))).trans <| (if_neg (ne_true_of_eq_false (miss h (by decide)))).trans <| (if_neg (ne_true_of_eq_false (miss h (by decide)))).trans <| (if_neg (ne_true_of_eq_false (miss h (by decide)))).trans <| (if_neg (ne_true_of_eq_false (miss h (by decide)))).trans <| (if_neg (ne_true_of_eq_false (miss h (by decide)))).trans <| (if_neg (ne_true_of_eq_false (miss h (by decide)))).trans <| (if_neg (ne_true_of_eq_false (miss h (by decide)))).trans <| (if_neg (ne_true_of_eq_false (miss h (by decide)))).trans <| (if_neg (ne_true_of_eq_false (miss h (by decide)))).trans <| (if_pos (hit h)).trans ?_
  simp (disch := decide) only [BitVec.extractLsb'_append_eq_of_le, BitVec.extractLsb'_append_eq_of_add_le, BitVec.extractLsb'_eq_self, Nat.reduceSub]

theorem RoundTrip.max_ (b : BitVec 5) (a : BitVec 5) (d : BitVec 5) (k : BitVec 1) : RoundTrip.Statement (.max_ b a d k) := by
  have h : (5#7 ++ b ++ a ++ 5#3 ++ d ++ 6#6 ++ k : IWord) &&& 0xFE00707E = 0x0A00500C := by
    rw [show (0xFE00707E : IWord) = 127#7 ++ 0#5 ++ 0#5 ++ 7#3 ++ 0#5 ++ 63#6 ++ 0#1 from rfl]
    simp only [BitVec.and_append, BitVec.and_zero, BitVec.reduceAnd]; decide
  refine reads h (by decide) rfl ?_
  refine (if_neg (ne_true_of_eq_false (miss h (by decide)))).trans <| (if_neg (ne_true_of_eq_false (miss h (by decide)))).trans <| (if_neg (ne_true_of_eq_false (miss h (by decide)))).trans <| (if_neg (ne_true_of_eq_false (miss h (by decide)))).trans <| (if_neg (ne_true_of_eq_false (miss h (by decide)))).trans <| (if_neg (ne_true_of_eq_false (miss h (by decide)))).trans <| (if_neg (ne_true_of_eq_false (miss h (by decide)))).trans <| (if_neg (ne_true_of_eq_false (miss h (by decide)))).trans <| (if_neg (ne_true_of_eq_false (miss h (by decide)))).trans <| (if_neg (ne_true_of_eq_false (miss h (by decide)))).trans <| (if_neg (ne_true_of_eq_false (miss h (by decide)))).trans <| (if_neg (ne_true_of_eq_false (miss h (by decide)))).trans <| (if_neg (ne_true_of_eq_false (miss h (by decide)))).trans <| (if_neg (ne_true_of_eq_false (miss h (by decide)))).trans <| (if_neg (ne_true_of_eq_false (miss h (by decide)))).trans <| (if_neg (ne_true_of_eq_false (miss h (by decide)))).trans <| (if_neg (ne_true_of_eq_false (miss h (by decide)))).trans <| (if_neg (ne_true_of_eq_false (miss h (by decide)))).trans <| (if_pos (hit h)).trans ?_
  simp (disch := decide) only [BitVec.extractLsb'_append_eq_of_le, BitVec.extractLsb'_append_eq_of_add_le, BitVec.extractLsb'_eq_self, Nat.reduceSub]

theorem RoundTrip.minu (b : BitVec 5) (a : BitVec 5) (d : BitVec 5) (k : BitVec 1) : RoundTrip.Statement (.minu b a d k) := by
  have h : (5#7 ++ b ++ a ++ 6#3 ++ d ++ 6#6 ++ k : IWord) &&& 0xFE00707E = 0x0A00600C := by
    rw [show (0xFE00707E : IWord) = 127#7 ++ 0#5 ++ 0#5 ++ 7#3 ++ 0#5 ++ 63#6 ++ 0#1 from rfl]
    simp only [BitVec.and_append, BitVec.and_zero, BitVec.reduceAnd]; decide
  refine reads h (by decide) rfl ?_
  refine (if_neg (ne_true_of_eq_false (miss h (by decide)))).trans <| (if_neg (ne_true_of_eq_false (miss h (by decide)))).trans <| (if_neg (ne_true_of_eq_false (miss h (by decide)))).trans <| (if_neg (ne_true_of_eq_false (miss h (by decide)))).trans <| (if_neg (ne_true_of_eq_false (miss h (by decide)))).trans <| (if_neg (ne_true_of_eq_false (miss h (by decide)))).trans <| (if_neg (ne_true_of_eq_false (miss h (by decide)))).trans <| (if_neg (ne_true_of_eq_false (miss h (by decide)))).trans <| (if_neg (ne_true_of_eq_false (miss h (by decide)))).trans <| (if_neg (ne_true_of_eq_false (miss h (by decide)))).trans <| (if_neg (ne_true_of_eq_false (miss h (by decide)))).trans <| (if_neg (ne_true_of_eq_false (miss h (by decide)))).trans <| (if_neg (ne_true_of_eq_false (miss h (by decide)))).trans <| (if_neg (ne_true_of_eq_false (miss h (by decide)))).trans <| (if_neg (ne_true_of_eq_false (miss h (by decide)))).trans <| (if_neg (ne_true_of_eq_false (miss h (by decide)))).trans <| (if_neg (ne_true_of_eq_false (miss h (by decide)))).trans <| (if_neg (ne_true_of_eq_false (miss h (by decide)))).trans <| (if_neg (ne_true_of_eq_false (miss h (by decide)))).trans <| (if_pos (hit h)).trans ?_
  simp (disch := decide) only [BitVec.extractLsb'_append_eq_of_le, BitVec.extractLsb'_append_eq_of_add_le, BitVec.extractLsb'_eq_self, Nat.reduceSub]

theorem RoundTrip.maxu (b : BitVec 5) (a : BitVec 5) (d : BitVec 5) (k : BitVec 1) : RoundTrip.Statement (.maxu b a d k) := by
  have h : (5#7 ++ b ++ a ++ 7#3 ++ d ++ 6#6 ++ k : IWord) &&& 0xFE00707E = 0x0A00700C := by
    rw [show (0xFE00707E : IWord) = 127#7 ++ 0#5 ++ 0#5 ++ 7#3 ++ 0#5 ++ 63#6 ++ 0#1 from rfl]
    simp only [BitVec.and_append, BitVec.and_zero, BitVec.reduceAnd]; decide
  refine reads h (by decide) rfl ?_
  refine (if_neg (ne_true_of_eq_false (miss h (by decide)))).trans <| (if_neg (ne_true_of_eq_false (miss h (by decide)))).trans <| (if_neg (ne_true_of_eq_false (miss h (by decide)))).trans <| (if_neg (ne_true_of_eq_false (miss h (by decide)))).trans <| (if_neg (ne_true_of_eq_false (miss h (by decide)))).trans <| (if_neg (ne_true_of_eq_false (miss h (by decide)))).trans <| (if_neg (ne_true_of_eq_false (miss h (by decide)))).trans <| (if_neg (ne_true_of_eq_false (miss h (by decide)))).trans <| (if_neg (ne_true_of_eq_false (miss h (by decide)))).trans <| (if_neg (ne_true_of_eq_false (miss h (by decide)))).trans <| (if_neg (ne_true_of_eq_false (miss h (by decide)))).trans <| (if_neg (ne_true_of_eq_false (miss h (by decide)))).trans <| (if_neg (ne_true_of_eq_false (miss h (by decide)))).trans <| (if_neg (ne_true_of_eq_false (miss h (by decide)))).trans <| (if_neg (ne_true_of_eq_false (miss h (by decide)))).trans <| (if_neg (ne_true_of_eq_false (miss h (by decide)))).trans <| (if_neg (ne_true_of_eq_false (miss h (by decide)))).trans <| (if_neg (ne_true_of_eq_false (miss h (by decide)))).trans <| (if_neg (ne_true_of_eq_false (miss h (by decide)))).trans <| (if_neg (ne_true_of_eq_false (miss h (by decide)))).trans <| (if_pos (hit h)).trans ?_
  simp (disch := decide) only [BitVec.extractLsb'_append_eq_of_le, BitVec.extractLsb'_append_eq_of_add_le, BitVec.extractLsb'_eq_self, Nat.reduceSub]

theorem RoundTrip.clz (a : BitVec 5) (d : BitVec 5) (k : BitVec 1) : RoundTrip.Statement (.clz a d k) := by
  have h : (1536#12 ++ a ++ 1#3 ++ d ++ 6#6 ++ k : IWord) &&& 0xFFF0707E = 0x6000100C := by
    rw [show (0xFFF0707E : IWord) = 4095#12 ++ 0#5 ++ 7#3 ++ 0#5 ++ 63#6 ++ 0#1 from rfl]
    simp only [BitVec.and_append, BitVec.and_zero, BitVec.reduceAnd]; decide
  refine reads h (by decide) rfl ?_
  refine (if_neg (ne_true_of_eq_false (miss h (by decide)))).trans <| (if_neg (ne_true_of_eq_false (miss h (by decide)))).trans <| (if_neg (ne_true_of_eq_false (miss h (by decide)))).trans <| (if_neg (ne_true_of_eq_false (miss h (by decide)))).trans <| (if_neg (ne_true_of_eq_false (miss h (by decide)))).trans <| (if_neg (ne_true_of_eq_false (miss h (by decide)))).trans <| (if_neg (ne_true_of_eq_false (miss h (by decide)))).trans <| (if_neg (ne_true_of_eq_false (miss h (by decide)))).trans <| (if_neg (ne_true_of_eq_false (miss h (by decide)))).trans <| (if_neg (ne_true_of_eq_false (miss h (by decide)))).trans <| (if_neg (ne_true_of_eq_false (miss h (by decide)))).trans <| (if_neg (ne_true_of_eq_false (miss h (by decide)))).trans <| (if_neg (ne_true_of_eq_false (miss h (by decide)))).trans <| (if_neg (ne_true_of_eq_false (miss h (by decide)))).trans <| (if_neg (ne_true_of_eq_false (miss h (by decide)))).trans <| (if_neg (ne_true_of_eq_false (miss h (by decide)))).trans <| (if_neg (ne_true_of_eq_false (miss h (by decide)))).trans <| (if_neg (ne_true_of_eq_false (miss h (by decide)))).trans <| (if_neg (ne_true_of_eq_false (miss h (by decide)))).trans <| (if_neg (ne_true_of_eq_false (miss h (by decide)))).trans <| (if_neg (ne_true_of_eq_false (miss h (by decide)))).trans <| (if_pos (hit h)).trans ?_
  simp (disch := decide) only [BitVec.extractLsb'_append_eq_of_le, BitVec.extractLsb'_append_eq_of_add_le, BitVec.extractLsb'_eq_self, Nat.reduceSub]

theorem RoundTrip.ctz (a : BitVec 5) (d : BitVec 5) (k : BitVec 1) : RoundTrip.Statement (.ctz a d k) := by
  have h : (1537#12 ++ a ++ 1#3 ++ d ++ 6#6 ++ k : IWord) &&& 0xFFF0707E = 0x6010100C := by
    rw [show (0xFFF0707E : IWord) = 4095#12 ++ 0#5 ++ 7#3 ++ 0#5 ++ 63#6 ++ 0#1 from rfl]
    simp only [BitVec.and_append, BitVec.and_zero, BitVec.reduceAnd]; decide
  refine reads h (by decide) rfl ?_
  refine (if_neg (ne_true_of_eq_false (miss h (by decide)))).trans <| (if_neg (ne_true_of_eq_false (miss h (by decide)))).trans <| (if_neg (ne_true_of_eq_false (miss h (by decide)))).trans <| (if_neg (ne_true_of_eq_false (miss h (by decide)))).trans <| (if_neg (ne_true_of_eq_false (miss h (by decide)))).trans <| (if_neg (ne_true_of_eq_false (miss h (by decide)))).trans <| (if_neg (ne_true_of_eq_false (miss h (by decide)))).trans <| (if_neg (ne_true_of_eq_false (miss h (by decide)))).trans <| (if_neg (ne_true_of_eq_false (miss h (by decide)))).trans <| (if_neg (ne_true_of_eq_false (miss h (by decide)))).trans <| (if_neg (ne_true_of_eq_false (miss h (by decide)))).trans <| (if_neg (ne_true_of_eq_false (miss h (by decide)))).trans <| (if_neg (ne_true_of_eq_false (miss h (by decide)))).trans <| (if_neg (ne_true_of_eq_false (miss h (by decide)))).trans <| (if_neg (ne_true_of_eq_false (miss h (by decide)))).trans <| (if_neg (ne_true_of_eq_false (miss h (by decide)))).trans <| (if_neg (ne_true_of_eq_false (miss h (by decide)))).trans <| (if_neg (ne_true_of_eq_false (miss h (by decide)))).trans <| (if_neg (ne_true_of_eq_false (miss h (by decide)))).trans <| (if_neg (ne_true_of_eq_false (miss h (by decide)))).trans <| (if_neg (ne_true_of_eq_false (miss h (by decide)))).trans <| (if_neg (ne_true_of_eq_false (miss h (by decide)))).trans <| (if_pos (hit h)).trans ?_
  simp (disch := decide) only [BitVec.extractLsb'_append_eq_of_le, BitVec.extractLsb'_append_eq_of_add_le, BitVec.extractLsb'_eq_self, Nat.reduceSub]

theorem RoundTrip.popc (a : BitVec 5) (d : BitVec 5) (k : BitVec 1) : RoundTrip.Statement (.popc a d k) := by
  have h : (1538#12 ++ a ++ 1#3 ++ d ++ 6#6 ++ k : IWord) &&& 0xFFF0707E = 0x6020100C := by
    rw [show (0xFFF0707E : IWord) = 4095#12 ++ 0#5 ++ 7#3 ++ 0#5 ++ 63#6 ++ 0#1 from rfl]
    simp only [BitVec.and_append, BitVec.and_zero, BitVec.reduceAnd]; decide
  refine reads h (by decide) rfl ?_
  refine (if_neg (ne_true_of_eq_false (miss h (by decide)))).trans <| (if_neg (ne_true_of_eq_false (miss h (by decide)))).trans <| (if_neg (ne_true_of_eq_false (miss h (by decide)))).trans <| (if_neg (ne_true_of_eq_false (miss h (by decide)))).trans <| (if_neg (ne_true_of_eq_false (miss h (by decide)))).trans <| (if_neg (ne_true_of_eq_false (miss h (by decide)))).trans <| (if_neg (ne_true_of_eq_false (miss h (by decide)))).trans <| (if_neg (ne_true_of_eq_false (miss h (by decide)))).trans <| (if_neg (ne_true_of_eq_false (miss h (by decide)))).trans <| (if_neg (ne_true_of_eq_false (miss h (by decide)))).trans <| (if_neg (ne_true_of_eq_false (miss h (by decide)))).trans <| (if_neg (ne_true_of_eq_false (miss h (by decide)))).trans <| (if_neg (ne_true_of_eq_false (miss h (by decide)))).trans <| (if_neg (ne_true_of_eq_false (miss h (by decide)))).trans <| (if_neg (ne_true_of_eq_false (miss h (by decide)))).trans <| (if_neg (ne_true_of_eq_false (miss h (by decide)))).trans <| (if_neg (ne_true_of_eq_false (miss h (by decide)))).trans <| (if_neg (ne_true_of_eq_false (miss h (by decide)))).trans <| (if_neg (ne_true_of_eq_false (miss h (by decide)))).trans <| (if_neg (ne_true_of_eq_false (miss h (by decide)))).trans <| (if_neg (ne_true_of_eq_false (miss h (by decide)))).trans <| (if_neg (ne_true_of_eq_false (miss h (by decide)))).trans <| (if_neg (ne_true_of_eq_false (miss h (by decide)))).trans <| (if_pos (hit h)).trans ?_
  simp (disch := decide) only [BitVec.extractLsb'_append_eq_of_le, BitVec.extractLsb'_append_eq_of_add_le, BitVec.extractLsb'_eq_self, Nat.reduceSub]

theorem RoundTrip.sextB (a : BitVec 5) (d : BitVec 5) (k : BitVec 1) : RoundTrip.Statement (.sextB a d k) := by
  have h : (1540#12 ++ a ++ 1#3 ++ d ++ 6#6 ++ k : IWord) &&& 0xFFF0707E = 0x6040100C := by
    rw [show (0xFFF0707E : IWord) = 4095#12 ++ 0#5 ++ 7#3 ++ 0#5 ++ 63#6 ++ 0#1 from rfl]
    simp only [BitVec.and_append, BitVec.and_zero, BitVec.reduceAnd]; decide
  refine reads h (by decide) rfl ?_
  refine (if_neg (ne_true_of_eq_false (miss h (by decide)))).trans <| (if_neg (ne_true_of_eq_false (miss h (by decide)))).trans <| (if_neg (ne_true_of_eq_false (miss h (by decide)))).trans <| (if_neg (ne_true_of_eq_false (miss h (by decide)))).trans <| (if_neg (ne_true_of_eq_false (miss h (by decide)))).trans <| (if_neg (ne_true_of_eq_false (miss h (by decide)))).trans <| (if_neg (ne_true_of_eq_false (miss h (by decide)))).trans <| (if_neg (ne_true_of_eq_false (miss h (by decide)))).trans <| (if_neg (ne_true_of_eq_false (miss h (by decide)))).trans <| (if_neg (ne_true_of_eq_false (miss h (by decide)))).trans <| (if_neg (ne_true_of_eq_false (miss h (by decide)))).trans <| (if_neg (ne_true_of_eq_false (miss h (by decide)))).trans <| (if_neg (ne_true_of_eq_false (miss h (by decide)))).trans <| (if_neg (ne_true_of_eq_false (miss h (by decide)))).trans <| (if_neg (ne_true_of_eq_false (miss h (by decide)))).trans <| (if_neg (ne_true_of_eq_false (miss h (by decide)))).trans <| (if_neg (ne_true_of_eq_false (miss h (by decide)))).trans <| (if_neg (ne_true_of_eq_false (miss h (by decide)))).trans <| (if_neg (ne_true_of_eq_false (miss h (by decide)))).trans <| (if_neg (ne_true_of_eq_false (miss h (by decide)))).trans <| (if_neg (ne_true_of_eq_false (miss h (by decide)))).trans <| (if_neg (ne_true_of_eq_false (miss h (by decide)))).trans <| (if_neg (ne_true_of_eq_false (miss h (by decide)))).trans <| (if_neg (ne_true_of_eq_false (miss h (by decide)))).trans <| (if_pos (hit h)).trans ?_
  simp (disch := decide) only [BitVec.extractLsb'_append_eq_of_le, BitVec.extractLsb'_append_eq_of_add_le, BitVec.extractLsb'_eq_self, Nat.reduceSub]

theorem RoundTrip.sextH (a : BitVec 5) (d : BitVec 5) (k : BitVec 1) : RoundTrip.Statement (.sextH a d k) := by
  have h : (1541#12 ++ a ++ 1#3 ++ d ++ 6#6 ++ k : IWord) &&& 0xFFF0707E = 0x6050100C := by
    rw [show (0xFFF0707E : IWord) = 4095#12 ++ 0#5 ++ 7#3 ++ 0#5 ++ 63#6 ++ 0#1 from rfl]
    simp only [BitVec.and_append, BitVec.and_zero, BitVec.reduceAnd]; decide
  refine reads h (by decide) rfl ?_
  refine (if_neg (ne_true_of_eq_false (miss h (by decide)))).trans <| (if_neg (ne_true_of_eq_false (miss h (by decide)))).trans <| (if_neg (ne_true_of_eq_false (miss h (by decide)))).trans <| (if_neg (ne_true_of_eq_false (miss h (by decide)))).trans <| (if_neg (ne_true_of_eq_false (miss h (by decide)))).trans <| (if_neg (ne_true_of_eq_false (miss h (by decide)))).trans <| (if_neg (ne_true_of_eq_false (miss h (by decide)))).trans <| (if_neg (ne_true_of_eq_false (miss h (by decide)))).trans <| (if_neg (ne_true_of_eq_false (miss h (by decide)))).trans <| (if_neg (ne_true_of_eq_false (miss h (by decide)))).trans <| (if_neg (ne_true_of_eq_false (miss h (by decide)))).trans <| (if_neg (ne_true_of_eq_false (miss h (by decide)))).trans <| (if_neg (ne_true_of_eq_false (miss h (by decide)))).trans <| (if_neg (ne_true_of_eq_false (miss h (by decide)))).trans <| (if_neg (ne_true_of_eq_false (miss h (by decide)))).trans <| (if_neg (ne_true_of_eq_false (miss h (by decide)))).trans <| (if_neg (ne_true_of_eq_false (miss h (by decide)))).trans <| (if_neg (ne_true_of_eq_false (miss h (by decide)))).trans <| (if_neg (ne_true_of_eq_false (miss h (by decide)))).trans <| (if_neg (ne_true_of_eq_false (miss h (by decide)))).trans <| (if_neg (ne_true_of_eq_false (miss h (by decide)))).trans <| (if_neg (ne_true_of_eq_false (miss h (by decide)))).trans <| (if_neg (ne_true_of_eq_false (miss h (by decide)))).trans <| (if_neg (ne_true_of_eq_false (miss h (by decide)))).trans <| (if_neg (ne_true_of_eq_false (miss h (by decide)))).trans <| (if_pos (hit h)).trans ?_
  simp (disch := decide) only [BitVec.extractLsb'_append_eq_of_le, BitVec.extractLsb'_append_eq_of_add_le, BitVec.extractLsb'_eq_self, Nat.reduceSub]

theorem RoundTrip.sextW (a : BitVec 5) (d : BitVec 5) (k : BitVec 1) : RoundTrip.Statement (.sextW a d k) := by
  have h : (1542#12 ++ a ++ 1#3 ++ d ++ 6#6 ++ k : IWord) &&& 0xFFF0707E = 0x6060100C := by
    rw [show (0xFFF0707E : IWord) = 4095#12 ++ 0#5 ++ 7#3 ++ 0#5 ++ 63#6 ++ 0#1 from rfl]
    simp only [BitVec.and_append, BitVec.and_zero, BitVec.reduceAnd]; decide
  refine reads h (by decide) rfl ?_
  refine (if_neg (ne_true_of_eq_false (miss h (by decide)))).trans <| (if_neg (ne_true_of_eq_false (miss h (by decide)))).trans <| (if_neg (ne_true_of_eq_false (miss h (by decide)))).trans <| (if_neg (ne_true_of_eq_false (miss h (by decide)))).trans <| (if_neg (ne_true_of_eq_false (miss h (by decide)))).trans <| (if_neg (ne_true_of_eq_false (miss h (by decide)))).trans <| (if_neg (ne_true_of_eq_false (miss h (by decide)))).trans <| (if_neg (ne_true_of_eq_false (miss h (by decide)))).trans <| (if_neg (ne_true_of_eq_false (miss h (by decide)))).trans <| (if_neg (ne_true_of_eq_false (miss h (by decide)))).trans <| (if_neg (ne_true_of_eq_false (miss h (by decide)))).trans <| (if_neg (ne_true_of_eq_false (miss h (by decide)))).trans <| (if_neg (ne_true_of_eq_false (miss h (by decide)))).trans <| (if_neg (ne_true_of_eq_false (miss h (by decide)))).trans <| (if_neg (ne_true_of_eq_false (miss h (by decide)))).trans <| (if_neg (ne_true_of_eq_false (miss h (by decide)))).trans <| (if_neg (ne_true_of_eq_false (miss h (by decide)))).trans <| (if_neg (ne_true_of_eq_false (miss h (by decide)))).trans <| (if_neg (ne_true_of_eq_false (miss h (by decide)))).trans <| (if_neg (ne_true_of_eq_false (miss h (by decide)))).trans <| (if_neg (ne_true_of_eq_false (miss h (by decide)))).trans <| (if_neg (ne_true_of_eq_false (miss h (by decide)))).trans <| (if_neg (ne_true_of_eq_false (miss h (by decide)))).trans <| (if_neg (ne_true_of_eq_false (miss h (by decide)))).trans <| (if_neg (ne_true_of_eq_false (miss h (by decide)))).trans <| (if_neg (ne_true_of_eq_false (miss h (by decide)))).trans <| (if_pos (hit h)).trans ?_
  simp (disch := decide) only [BitVec.extractLsb'_append_eq_of_le, BitVec.extractLsb'_append_eq_of_add_le, BitVec.extractLsb'_eq_self, Nat.reduceSub]

theorem RoundTrip.zextB (a : BitVec 5) (d : BitVec 5) (k : BitVec 1) : RoundTrip.Statement (.zextB a d k) := by
  have h : (1544#12 ++ a ++ 1#3 ++ d ++ 6#6 ++ k : IWord) &&& 0xFFF0707E = 0x6080100C := by
    rw [show (0xFFF0707E : IWord) = 4095#12 ++ 0#5 ++ 7#3 ++ 0#5 ++ 63#6 ++ 0#1 from rfl]
    simp only [BitVec.and_append, BitVec.and_zero, BitVec.reduceAnd]; decide
  refine reads h (by decide) rfl ?_
  refine (if_neg (ne_true_of_eq_false (miss h (by decide)))).trans <| (if_neg (ne_true_of_eq_false (miss h (by decide)))).trans <| (if_neg (ne_true_of_eq_false (miss h (by decide)))).trans <| (if_neg (ne_true_of_eq_false (miss h (by decide)))).trans <| (if_neg (ne_true_of_eq_false (miss h (by decide)))).trans <| (if_neg (ne_true_of_eq_false (miss h (by decide)))).trans <| (if_neg (ne_true_of_eq_false (miss h (by decide)))).trans <| (if_neg (ne_true_of_eq_false (miss h (by decide)))).trans <| (if_neg (ne_true_of_eq_false (miss h (by decide)))).trans <| (if_neg (ne_true_of_eq_false (miss h (by decide)))).trans <| (if_neg (ne_true_of_eq_false (miss h (by decide)))).trans <| (if_neg (ne_true_of_eq_false (miss h (by decide)))).trans <| (if_neg (ne_true_of_eq_false (miss h (by decide)))).trans <| (if_neg (ne_true_of_eq_false (miss h (by decide)))).trans <| (if_neg (ne_true_of_eq_false (miss h (by decide)))).trans <| (if_neg (ne_true_of_eq_false (miss h (by decide)))).trans <| (if_neg (ne_true_of_eq_false (miss h (by decide)))).trans <| (if_neg (ne_true_of_eq_false (miss h (by decide)))).trans <| (if_neg (ne_true_of_eq_false (miss h (by decide)))).trans <| (if_neg (ne_true_of_eq_false (miss h (by decide)))).trans <| (if_neg (ne_true_of_eq_false (miss h (by decide)))).trans <| (if_neg (ne_true_of_eq_false (miss h (by decide)))).trans <| (if_neg (ne_true_of_eq_false (miss h (by decide)))).trans <| (if_neg (ne_true_of_eq_false (miss h (by decide)))).trans <| (if_neg (ne_true_of_eq_false (miss h (by decide)))).trans <| (if_neg (ne_true_of_eq_false (miss h (by decide)))).trans <| (if_neg (ne_true_of_eq_false (miss h (by decide)))).trans <| (if_pos (hit h)).trans ?_
  simp (disch := decide) only [BitVec.extractLsb'_append_eq_of_le, BitVec.extractLsb'_append_eq_of_add_le, BitVec.extractLsb'_eq_self, Nat.reduceSub]

theorem RoundTrip.zextH (a : BitVec 5) (d : BitVec 5) (k : BitVec 1) : RoundTrip.Statement (.zextH a d k) := by
  have h : (1545#12 ++ a ++ 1#3 ++ d ++ 6#6 ++ k : IWord) &&& 0xFFF0707E = 0x6090100C := by
    rw [show (0xFFF0707E : IWord) = 4095#12 ++ 0#5 ++ 7#3 ++ 0#5 ++ 63#6 ++ 0#1 from rfl]
    simp only [BitVec.and_append, BitVec.and_zero, BitVec.reduceAnd]; decide
  refine reads h (by decide) rfl ?_
  refine (if_neg (ne_true_of_eq_false (miss h (by decide)))).trans <| (if_neg (ne_true_of_eq_false (miss h (by decide)))).trans <| (if_neg (ne_true_of_eq_false (miss h (by decide)))).trans <| (if_neg (ne_true_of_eq_false (miss h (by decide)))).trans <| (if_neg (ne_true_of_eq_false (miss h (by decide)))).trans <| (if_neg (ne_true_of_eq_false (miss h (by decide)))).trans <| (if_neg (ne_true_of_eq_false (miss h (by decide)))).trans <| (if_neg (ne_true_of_eq_false (miss h (by decide)))).trans <| (if_neg (ne_true_of_eq_false (miss h (by decide)))).trans <| (if_neg (ne_true_of_eq_false (miss h (by decide)))).trans <| (if_neg (ne_true_of_eq_false (miss h (by decide)))).trans <| (if_neg (ne_true_of_eq_false (miss h (by decide)))).trans <| (if_neg (ne_true_of_eq_false (miss h (by decide)))).trans <| (if_neg (ne_true_of_eq_false (miss h (by decide)))).trans <| (if_neg (ne_true_of_eq_false (miss h (by decide)))).trans <| (if_neg (ne_true_of_eq_false (miss h (by decide)))).trans <| (if_neg (ne_true_of_eq_false (miss h (by decide)))).trans <| (if_neg (ne_true_of_eq_false (miss h (by decide)))).trans <| (if_neg (ne_true_of_eq_false (miss h (by decide)))).trans <| (if_neg (ne_true_of_eq_false (miss h (by decide)))).trans <| (if_neg (ne_true_of_eq_false (miss h (by decide)))).trans <| (if_neg (ne_true_of_eq_false (miss h (by decide)))).trans <| (if_neg (ne_true_of_eq_false (miss h (by decide)))).trans <| (if_neg (ne_true_of_eq_false (miss h (by decide)))).trans <| (if_neg (ne_true_of_eq_false (miss h (by decide)))).trans <| (if_neg (ne_true_of_eq_false (miss h (by decide)))).trans <| (if_neg (ne_true_of_eq_false (miss h (by decide)))).trans <| (if_neg (ne_true_of_eq_false (miss h (by decide)))).trans <| (if_pos (hit h)).trans ?_
  simp (disch := decide) only [BitVec.extractLsb'_append_eq_of_le, BitVec.extractLsb'_append_eq_of_add_le, BitVec.extractLsb'_eq_self, Nat.reduceSub]

theorem RoundTrip.zextW (a : BitVec 5) (d : BitVec 5) (k : BitVec 1) : RoundTrip.Statement (.zextW a d k) := by
  have h : (1546#12 ++ a ++ 1#3 ++ d ++ 6#6 ++ k : IWord) &&& 0xFFF0707E = 0x60A0100C := by
    rw [show (0xFFF0707E : IWord) = 4095#12 ++ 0#5 ++ 7#3 ++ 0#5 ++ 63#6 ++ 0#1 from rfl]
    simp only [BitVec.and_append, BitVec.and_zero, BitVec.reduceAnd]; decide
  refine reads h (by decide) rfl ?_
  refine (if_neg (ne_true_of_eq_false (miss h (by decide)))).trans <| (if_neg (ne_true_of_eq_false (miss h (by decide)))).trans <| (if_neg (ne_true_of_eq_false (miss h (by decide)))).trans <| (if_neg (ne_true_of_eq_false (miss h (by decide)))).trans <| (if_neg (ne_true_of_eq_false (miss h (by decide)))).trans <| (if_neg (ne_true_of_eq_false (miss h (by decide)))).trans <| (if_neg (ne_true_of_eq_false (miss h (by decide)))).trans <| (if_neg (ne_true_of_eq_false (miss h (by decide)))).trans <| (if_neg (ne_true_of_eq_false (miss h (by decide)))).trans <| (if_neg (ne_true_of_eq_false (miss h (by decide)))).trans <| (if_neg (ne_true_of_eq_false (miss h (by decide)))).trans <| (if_neg (ne_true_of_eq_false (miss h (by decide)))).trans <| (if_neg (ne_true_of_eq_false (miss h (by decide)))).trans <| (if_neg (ne_true_of_eq_false (miss h (by decide)))).trans <| (if_neg (ne_true_of_eq_false (miss h (by decide)))).trans <| (if_neg (ne_true_of_eq_false (miss h (by decide)))).trans <| (if_neg (ne_true_of_eq_false (miss h (by decide)))).trans <| (if_neg (ne_true_of_eq_false (miss h (by decide)))).trans <| (if_neg (ne_true_of_eq_false (miss h (by decide)))).trans <| (if_neg (ne_true_of_eq_false (miss h (by decide)))).trans <| (if_neg (ne_true_of_eq_false (miss h (by decide)))).trans <| (if_neg (ne_true_of_eq_false (miss h (by decide)))).trans <| (if_neg (ne_true_of_eq_false (miss h (by decide)))).trans <| (if_neg (ne_true_of_eq_false (miss h (by decide)))).trans <| (if_neg (ne_true_of_eq_false (miss h (by decide)))).trans <| (if_neg (ne_true_of_eq_false (miss h (by decide)))).trans <| (if_neg (ne_true_of_eq_false (miss h (by decide)))).trans <| (if_neg (ne_true_of_eq_false (miss h (by decide)))).trans <| (if_neg (ne_true_of_eq_false (miss h (by decide)))).trans <| (if_pos (hit h)).trans ?_
  simp (disch := decide) only [BitVec.extractLsb'_append_eq_of_le, BitVec.extractLsb'_append_eq_of_add_le, BitVec.extractLsb'_eq_self, Nat.reduceSub]

theorem RoundTrip.addi (i : BitVec 12) (a : BitVec 5) (d : BitVec 5) (k : BitVec 1) : RoundTrip.Statement (.addi i a d k) := by
  have h : (i ++ a ++ 0#3 ++ d ++ 5#6 ++ k : IWord) &&& 0x0000707E = 0x0000000A := by
    rw [show (0x0000707E : IWord) = 0#12 ++ 0#5 ++ 7#3 ++ 0#5 ++ 63#6 ++ 0#1 from rfl]
    simp only [BitVec.and_append, BitVec.and_zero, BitVec.reduceAnd]; decide
  refine reads h (by decide) rfl ?_
  refine (if_pos (hit h)).trans ?_
  simp (disch := decide) only [BitVec.extractLsb'_append_eq_of_le, BitVec.extractLsb'_append_eq_of_add_le, BitVec.extractLsb'_eq_self, Nat.reduceSub]

theorem RoundTrip.slti (i : BitVec 12) (a : BitVec 5) (d : BitVec 5) (k : BitVec 1) : RoundTrip.Statement (.slti i a d k) := by
  have h : (i ++ a ++ 2#3 ++ d ++ 5#6 ++ k : IWord) &&& 0x0000707E = 0x0000200A := by
    rw [show (0x0000707E : IWord) = 0#12 ++ 0#5 ++ 7#3 ++ 0#5 ++ 63#6 ++ 0#1 from rfl]
    simp only [BitVec.and_append, BitVec.and_zero, BitVec.reduceAnd]; decide
  refine reads h (by decide) rfl ?_
  refine (if_neg (ne_true_of_eq_false (miss h (by decide)))).trans <| (if_pos (hit h)).trans ?_
  simp (disch := decide) only [BitVec.extractLsb'_append_eq_of_le, BitVec.extractLsb'_append_eq_of_add_le, BitVec.extractLsb'_eq_self, Nat.reduceSub]

theorem RoundTrip.sltiu (i : BitVec 12) (a : BitVec 5) (d : BitVec 5) (k : BitVec 1) : RoundTrip.Statement (.sltiu i a d k) := by
  have h : (i ++ a ++ 3#3 ++ d ++ 5#6 ++ k : IWord) &&& 0x0000707E = 0x0000300A := by
    rw [show (0x0000707E : IWord) = 0#12 ++ 0#5 ++ 7#3 ++ 0#5 ++ 63#6 ++ 0#1 from rfl]
    simp only [BitVec.and_append, BitVec.and_zero, BitVec.reduceAnd]; decide
  refine reads h (by decide) rfl ?_
  refine (if_neg (ne_true_of_eq_false (miss h (by decide)))).trans <| (if_neg (ne_true_of_eq_false (miss h (by decide)))).trans <| (if_pos (hit h)).trans ?_
  simp (disch := decide) only [BitVec.extractLsb'_append_eq_of_le, BitVec.extractLsb'_append_eq_of_add_le, BitVec.extractLsb'_eq_self, Nat.reduceSub]

theorem RoundTrip.xori (i : BitVec 12) (a : BitVec 5) (d : BitVec 5) (k : BitVec 1) : RoundTrip.Statement (.xori i a d k) := by
  have h : (i ++ a ++ 4#3 ++ d ++ 5#6 ++ k : IWord) &&& 0x0000707E = 0x0000400A := by
    rw [show (0x0000707E : IWord) = 0#12 ++ 0#5 ++ 7#3 ++ 0#5 ++ 63#6 ++ 0#1 from rfl]
    simp only [BitVec.and_append, BitVec.and_zero, BitVec.reduceAnd]; decide
  refine reads h (by decide) rfl ?_
  refine (if_neg (ne_true_of_eq_false (miss h (by decide)))).trans <| (if_neg (ne_true_of_eq_false (miss h (by decide)))).trans <| (if_neg (ne_true_of_eq_false (miss h (by decide)))).trans <| (if_pos (hit h)).trans ?_
  simp (disch := decide) only [BitVec.extractLsb'_append_eq_of_le, BitVec.extractLsb'_append_eq_of_add_le, BitVec.extractLsb'_eq_self, Nat.reduceSub]

theorem RoundTrip.ori (i : BitVec 12) (a : BitVec 5) (d : BitVec 5) (k : BitVec 1) : RoundTrip.Statement (.ori i a d k) := by
  have h : (i ++ a ++ 6#3 ++ d ++ 5#6 ++ k : IWord) &&& 0x0000707E = 0x0000600A := by
    rw [show (0x0000707E : IWord) = 0#12 ++ 0#5 ++ 7#3 ++ 0#5 ++ 63#6 ++ 0#1 from rfl]
    simp only [BitVec.and_append, BitVec.and_zero, BitVec.reduceAnd]; decide
  refine reads h (by decide) rfl ?_
  refine (if_neg (ne_true_of_eq_false (miss h (by decide)))).trans <| (if_neg (ne_true_of_eq_false (miss h (by decide)))).trans <| (if_neg (ne_true_of_eq_false (miss h (by decide)))).trans <| (if_neg (ne_true_of_eq_false (miss h (by decide)))).trans <| (if_pos (hit h)).trans ?_
  simp (disch := decide) only [BitVec.extractLsb'_append_eq_of_le, BitVec.extractLsb'_append_eq_of_add_le, BitVec.extractLsb'_eq_self, Nat.reduceSub]

theorem RoundTrip.andi (i : BitVec 12) (a : BitVec 5) (d : BitVec 5) (k : BitVec 1) : RoundTrip.Statement (.andi i a d k) := by
  have h : (i ++ a ++ 7#3 ++ d ++ 5#6 ++ k : IWord) &&& 0x0000707E = 0x0000700A := by
    rw [show (0x0000707E : IWord) = 0#12 ++ 0#5 ++ 7#3 ++ 0#5 ++ 63#6 ++ 0#1 from rfl]
    simp only [BitVec.and_append, BitVec.and_zero, BitVec.reduceAnd]; decide
  refine reads h (by decide) rfl ?_
  refine (if_neg (ne_true_of_eq_false (miss h (by decide)))).trans <| (if_neg (ne_true_of_eq_false (miss h (by decide)))).trans <| (if_neg (ne_true_of_eq_false (miss h (by decide)))).trans <| (if_neg (ne_true_of_eq_false (miss h (by decide)))).trans <| (if_neg (ne_true_of_eq_false (miss h (by decide)))).trans <| (if_pos (hit h)).trans ?_
  simp (disch := decide) only [BitVec.extractLsb'_append_eq_of_le, BitVec.extractLsb'_append_eq_of_add_le, BitVec.extractLsb'_eq_self, Nat.reduceSub]

theorem RoundTrip.slli (h : BitVec 6) (a : BitVec 5) (d : BitVec 5) (k : BitVec 1) : RoundTrip.Statement (.slli h a d k) := by
  have h : (0#6 ++ h ++ a ++ 1#3 ++ d ++ 5#6 ++ k : IWord) &&& 0xFC00707E = 0x0000100A := by
    rw [show (0xFC00707E : IWord) = 63#6 ++ 0#6 ++ 0#5 ++ 7#3 ++ 0#5 ++ 63#6 ++ 0#1 from rfl]
    simp only [BitVec.and_append, BitVec.and_zero, BitVec.reduceAnd]; decide
  refine reads h (by decide) rfl ?_
  refine (if_neg (ne_true_of_eq_false (miss h (by decide)))).trans <| (if_neg (ne_true_of_eq_false (miss h (by decide)))).trans <| (if_neg (ne_true_of_eq_false (miss h (by decide)))).trans <| (if_neg (ne_true_of_eq_false (miss h (by decide)))).trans <| (if_neg (ne_true_of_eq_false (miss h (by decide)))).trans <| (if_neg (ne_true_of_eq_false (miss h (by decide)))).trans <| (if_pos (hit h)).trans ?_
  simp (disch := decide) only [BitVec.extractLsb'_append_eq_of_le, BitVec.extractLsb'_append_eq_of_add_le, BitVec.extractLsb'_eq_self, Nat.reduceSub]

theorem RoundTrip.srli (h : BitVec 6) (a : BitVec 5) (d : BitVec 5) (k : BitVec 1) : RoundTrip.Statement (.srli h a d k) := by
  have h : (0#6 ++ h ++ a ++ 5#3 ++ d ++ 5#6 ++ k : IWord) &&& 0xFC00707E = 0x0000500A := by
    rw [show (0xFC00707E : IWord) = 63#6 ++ 0#6 ++ 0#5 ++ 7#3 ++ 0#5 ++ 63#6 ++ 0#1 from rfl]
    simp only [BitVec.and_append, BitVec.and_zero, BitVec.reduceAnd]; decide
  refine reads h (by decide) rfl ?_
  refine (if_neg (ne_true_of_eq_false (miss h (by decide)))).trans <| (if_neg (ne_true_of_eq_false (miss h (by decide)))).trans <| (if_neg (ne_true_of_eq_false (miss h (by decide)))).trans <| (if_neg (ne_true_of_eq_false (miss h (by decide)))).trans <| (if_neg (ne_true_of_eq_false (miss h (by decide)))).trans <| (if_neg (ne_true_of_eq_false (miss h (by decide)))).trans <| (if_neg (ne_true_of_eq_false (miss h (by decide)))).trans <| (if_pos (hit h)).trans ?_
  simp (disch := decide) only [BitVec.extractLsb'_append_eq_of_le, BitVec.extractLsb'_append_eq_of_add_le, BitVec.extractLsb'_eq_self, Nat.reduceSub]

theorem RoundTrip.srai (h : BitVec 6) (a : BitVec 5) (d : BitVec 5) (k : BitVec 1) : RoundTrip.Statement (.srai h a d k) := by
  have h : (16#6 ++ h ++ a ++ 5#3 ++ d ++ 5#6 ++ k : IWord) &&& 0xFC00707E = 0x4000500A := by
    rw [show (0xFC00707E : IWord) = 63#6 ++ 0#6 ++ 0#5 ++ 7#3 ++ 0#5 ++ 63#6 ++ 0#1 from rfl]
    simp only [BitVec.and_append, BitVec.and_zero, BitVec.reduceAnd]; decide
  refine reads h (by decide) rfl ?_
  refine (if_neg (ne_true_of_eq_false (miss h (by decide)))).trans <| (if_neg (ne_true_of_eq_false (miss h (by decide)))).trans <| (if_neg (ne_true_of_eq_false (miss h (by decide)))).trans <| (if_neg (ne_true_of_eq_false (miss h (by decide)))).trans <| (if_neg (ne_true_of_eq_false (miss h (by decide)))).trans <| (if_neg (ne_true_of_eq_false (miss h (by decide)))).trans <| (if_neg (ne_true_of_eq_false (miss h (by decide)))).trans <| (if_neg (ne_true_of_eq_false (miss h (by decide)))).trans <| (if_pos (hit h)).trans ?_
  simp (disch := decide) only [BitVec.extractLsb'_append_eq_of_le, BitVec.extractLsb'_append_eq_of_add_le, BitVec.extractLsb'_eq_self, Nat.reduceSub]

theorem RoundTrip.lui (i : BitVec 20) (d : BitVec 5) (k : BitVec 1) : RoundTrip.Statement (.lui i d k) := by
  have h : (i ++ d ++ 7#6 ++ k : IWord) &&& 0x0000007E = 0x0000000E := by
    rw [show (0x0000007E : IWord) = 0#20 ++ 0#5 ++ 63#6 ++ 0#1 from rfl]
    simp only [BitVec.and_append, BitVec.and_zero, BitVec.reduceAnd]; decide
  refine reads h (by decide) rfl ?_
  refine (if_pos (hit h)).trans ?_
  simp (disch := decide) only [BitVec.extractLsb'_append_eq_of_le, BitVec.extractLsb'_append_eq_of_add_le, BitVec.extractLsb'_eq_self, Nat.reduceSub]

theorem RoundTrip.auipc (i : BitVec 20) (d : BitVec 5) (k : BitVec 1) : RoundTrip.Statement (.auipc i d k) := by
  have h : (i ++ d ++ 8#6 ++ k : IWord) &&& 0x0000007E = 0x00000010 := by
    rw [show (0x0000007E : IWord) = 0#20 ++ 0#5 ++ 63#6 ++ 0#1 from rfl]
    simp only [BitVec.and_append, BitVec.and_zero, BitVec.reduceAnd]; decide
  refine reads h (by decide) rfl ?_
  refine (if_pos (hit h)).trans ?_
  simp (disch := decide) only [BitVec.extractLsb'_append_eq_of_le, BitVec.extractLsb'_append_eq_of_add_le, BitVec.extractLsb'_eq_self, Nat.reduceSub]

theorem RoundTrip.beq (o : BitVec 12) (b : BitVec 5) (a : BitVec 5) (k : BitVec 1) : RoundTrip.Statement (.beq o b a k) := by
  have h : (o.extractLsb' 5 7 ++ b ++ a ++ 0#3 ++ o.extractLsb' 0 5 ++ 9#6 ++ k : IWord) &&& 0x0000707E = 0x00000012 := by
    rw [show (0x0000707E : IWord) = 0#7 ++ 0#5 ++ 0#5 ++ 7#3 ++ 0#5 ++ 63#6 ++ 0#1 from rfl]
    simp only [BitVec.and_append, BitVec.and_zero, BitVec.reduceAnd]; decide
  refine reads h (by decide) rfl ?_
  refine (if_pos (hit h)).trans ?_
  simp (disch := decide) only [BitVec.extractLsb'_append_eq_of_le, BitVec.extractLsb'_append_eq_of_add_le, BitVec.extractLsb'_eq_self, Nat.reduceSub, branchOffset, offset_join]

theorem RoundTrip.bne (o : BitVec 12) (b : BitVec 5) (a : BitVec 5) (k : BitVec 1) : RoundTrip.Statement (.bne o b a k) := by
  have h : (o.extractLsb' 5 7 ++ b ++ a ++ 1#3 ++ o.extractLsb' 0 5 ++ 9#6 ++ k : IWord) &&& 0x0000707E = 0x00001012 := by
    rw [show (0x0000707E : IWord) = 0#7 ++ 0#5 ++ 0#5 ++ 7#3 ++ 0#5 ++ 63#6 ++ 0#1 from rfl]
    simp only [BitVec.and_append, BitVec.and_zero, BitVec.reduceAnd]; decide
  refine reads h (by decide) rfl ?_
  refine (if_neg (ne_true_of_eq_false (miss h (by decide)))).trans <| (if_pos (hit h)).trans ?_
  simp (disch := decide) only [BitVec.extractLsb'_append_eq_of_le, BitVec.extractLsb'_append_eq_of_add_le, BitVec.extractLsb'_eq_self, Nat.reduceSub, branchOffset, offset_join]

theorem RoundTrip.bfull (o : BitVec 12) (a : BitVec 5) (k : BitVec 1) : RoundTrip.Statement (.bfull o a k) := by
  have h : (o.extractLsb' 5 7 ++ 0#5 ++ a ++ 2#3 ++ o.extractLsb' 0 5 ++ 9#6 ++ k : IWord) &&& 0x01F0707E = 0x00002012 := by
    rw [show (0x01F0707E : IWord) = 0#7 ++ 31#5 ++ 0#5 ++ 7#3 ++ 0#5 ++ 63#6 ++ 0#1 from rfl]
    simp only [BitVec.and_append, BitVec.and_zero, BitVec.reduceAnd]; decide
  refine reads h (by decide) rfl ?_
  refine (if_neg (ne_true_of_eq_false (miss h (by decide)))).trans <| (if_neg (ne_true_of_eq_false (miss h (by decide)))).trans <| (if_pos (hit h)).trans ?_
  simp (disch := decide) only [BitVec.extractLsb'_append_eq_of_le, BitVec.extractLsb'_append_eq_of_add_le, BitVec.extractLsb'_eq_self, Nat.reduceSub, branchOffset, offset_join]

theorem RoundTrip.bempty (o : BitVec 12) (a : BitVec 5) (k : BitVec 1) : RoundTrip.Statement (.bempty o a k) := by
  have h : (o.extractLsb' 5 7 ++ 0#5 ++ a ++ 3#3 ++ o.extractLsb' 0 5 ++ 9#6 ++ k : IWord) &&& 0x01F0707E = 0x00003012 := by
    rw [show (0x01F0707E : IWord) = 0#7 ++ 31#5 ++ 0#5 ++ 7#3 ++ 0#5 ++ 63#6 ++ 0#1 from rfl]
    simp only [BitVec.and_append, BitVec.and_zero, BitVec.reduceAnd]; decide
  refine reads h (by decide) rfl ?_
  refine (if_neg (ne_true_of_eq_false (miss h (by decide)))).trans <| (if_neg (ne_true_of_eq_false (miss h (by decide)))).trans <| (if_neg (ne_true_of_eq_false (miss h (by decide)))).trans <| (if_pos (hit h)).trans ?_
  simp (disch := decide) only [BitVec.extractLsb'_append_eq_of_le, BitVec.extractLsb'_append_eq_of_add_le, BitVec.extractLsb'_eq_self, Nat.reduceSub, branchOffset, offset_join]

theorem RoundTrip.blt (o : BitVec 12) (b : BitVec 5) (a : BitVec 5) (k : BitVec 1) : RoundTrip.Statement (.blt o b a k) := by
  have h : (o.extractLsb' 5 7 ++ b ++ a ++ 4#3 ++ o.extractLsb' 0 5 ++ 9#6 ++ k : IWord) &&& 0x0000707E = 0x00004012 := by
    rw [show (0x0000707E : IWord) = 0#7 ++ 0#5 ++ 0#5 ++ 7#3 ++ 0#5 ++ 63#6 ++ 0#1 from rfl]
    simp only [BitVec.and_append, BitVec.and_zero, BitVec.reduceAnd]; decide
  refine reads h (by decide) rfl ?_
  refine (if_neg (ne_true_of_eq_false (miss h (by decide)))).trans <| (if_neg (ne_true_of_eq_false (miss h (by decide)))).trans <| (if_neg (ne_true_of_eq_false (miss h (by decide)))).trans <| (if_neg (ne_true_of_eq_false (miss h (by decide)))).trans <| (if_pos (hit h)).trans ?_
  simp (disch := decide) only [BitVec.extractLsb'_append_eq_of_le, BitVec.extractLsb'_append_eq_of_add_le, BitVec.extractLsb'_eq_self, Nat.reduceSub, branchOffset, offset_join]

theorem RoundTrip.bge (o : BitVec 12) (b : BitVec 5) (a : BitVec 5) (k : BitVec 1) : RoundTrip.Statement (.bge o b a k) := by
  have h : (o.extractLsb' 5 7 ++ b ++ a ++ 5#3 ++ o.extractLsb' 0 5 ++ 9#6 ++ k : IWord) &&& 0x0000707E = 0x00005012 := by
    rw [show (0x0000707E : IWord) = 0#7 ++ 0#5 ++ 0#5 ++ 7#3 ++ 0#5 ++ 63#6 ++ 0#1 from rfl]
    simp only [BitVec.and_append, BitVec.and_zero, BitVec.reduceAnd]; decide
  refine reads h (by decide) rfl ?_
  refine (if_neg (ne_true_of_eq_false (miss h (by decide)))).trans <| (if_neg (ne_true_of_eq_false (miss h (by decide)))).trans <| (if_neg (ne_true_of_eq_false (miss h (by decide)))).trans <| (if_neg (ne_true_of_eq_false (miss h (by decide)))).trans <| (if_neg (ne_true_of_eq_false (miss h (by decide)))).trans <| (if_pos (hit h)).trans ?_
  simp (disch := decide) only [BitVec.extractLsb'_append_eq_of_le, BitVec.extractLsb'_append_eq_of_add_le, BitVec.extractLsb'_eq_self, Nat.reduceSub, branchOffset, offset_join]

theorem RoundTrip.bltu (o : BitVec 12) (b : BitVec 5) (a : BitVec 5) (k : BitVec 1) : RoundTrip.Statement (.bltu o b a k) := by
  have h : (o.extractLsb' 5 7 ++ b ++ a ++ 6#3 ++ o.extractLsb' 0 5 ++ 9#6 ++ k : IWord) &&& 0x0000707E = 0x00006012 := by
    rw [show (0x0000707E : IWord) = 0#7 ++ 0#5 ++ 0#5 ++ 7#3 ++ 0#5 ++ 63#6 ++ 0#1 from rfl]
    simp only [BitVec.and_append, BitVec.and_zero, BitVec.reduceAnd]; decide
  refine reads h (by decide) rfl ?_
  refine (if_neg (ne_true_of_eq_false (miss h (by decide)))).trans <| (if_neg (ne_true_of_eq_false (miss h (by decide)))).trans <| (if_neg (ne_true_of_eq_false (miss h (by decide)))).trans <| (if_neg (ne_true_of_eq_false (miss h (by decide)))).trans <| (if_neg (ne_true_of_eq_false (miss h (by decide)))).trans <| (if_neg (ne_true_of_eq_false (miss h (by decide)))).trans <| (if_pos (hit h)).trans ?_
  simp (disch := decide) only [BitVec.extractLsb'_append_eq_of_le, BitVec.extractLsb'_append_eq_of_add_le, BitVec.extractLsb'_eq_self, Nat.reduceSub, branchOffset, offset_join]

theorem RoundTrip.bgeu (o : BitVec 12) (b : BitVec 5) (a : BitVec 5) (k : BitVec 1) : RoundTrip.Statement (.bgeu o b a k) := by
  have h : (o.extractLsb' 5 7 ++ b ++ a ++ 7#3 ++ o.extractLsb' 0 5 ++ 9#6 ++ k : IWord) &&& 0x0000707E = 0x00007012 := by
    rw [show (0x0000707E : IWord) = 0#7 ++ 0#5 ++ 0#5 ++ 7#3 ++ 0#5 ++ 63#6 ++ 0#1 from rfl]
    simp only [BitVec.and_append, BitVec.and_zero, BitVec.reduceAnd]; decide
  refine reads h (by decide) rfl ?_
  refine (if_neg (ne_true_of_eq_false (miss h (by decide)))).trans <| (if_neg (ne_true_of_eq_false (miss h (by decide)))).trans <| (if_neg (ne_true_of_eq_false (miss h (by decide)))).trans <| (if_neg (ne_true_of_eq_false (miss h (by decide)))).trans <| (if_neg (ne_true_of_eq_false (miss h (by decide)))).trans <| (if_neg (ne_true_of_eq_false (miss h (by decide)))).trans <| (if_neg (ne_true_of_eq_false (miss h (by decide)))).trans <| (if_pos (hit h)).trans ?_
  simp (disch := decide) only [BitVec.extractLsb'_append_eq_of_le, BitVec.extractLsb'_append_eq_of_add_le, BitVec.extractLsb'_eq_self, Nat.reduceSub, branchOffset, offset_join]

theorem RoundTrip.jal (i : BitVec 20) (d : BitVec 5) (k : BitVec 1) : RoundTrip.Statement (.jal i d k) := by
  have h : (i ++ d ++ 10#6 ++ k : IWord) &&& 0x0000007E = 0x00000014 := by
    rw [show (0x0000007E : IWord) = 0#20 ++ 0#5 ++ 63#6 ++ 0#1 from rfl]
    simp only [BitVec.and_append, BitVec.and_zero, BitVec.reduceAnd]; decide
  refine reads h (by decide) rfl ?_
  refine (if_pos (hit h)).trans ?_
  simp (disch := decide) only [BitVec.extractLsb'_append_eq_of_le, BitVec.extractLsb'_append_eq_of_add_le, BitVec.extractLsb'_eq_self, Nat.reduceSub]

theorem RoundTrip.jalr (i : BitVec 12) (a : BitVec 5) (d : BitVec 5) (k : BitVec 1) : RoundTrip.Statement (.jalr i a d k) := by
  have h : (i ++ a ++ 0#3 ++ d ++ 11#6 ++ k : IWord) &&& 0x0000707E = 0x00000016 := by
    rw [show (0x0000707E : IWord) = 0#12 ++ 0#5 ++ 7#3 ++ 0#5 ++ 63#6 ++ 0#1 from rfl]
    simp only [BitVec.and_append, BitVec.and_zero, BitVec.reduceAnd]; decide
  refine reads h (by decide) rfl ?_
  refine (if_pos (hit h)).trans ?_
  simp (disch := decide) only [BitVec.extractLsb'_append_eq_of_le, BitVec.extractLsb'_append_eq_of_add_le, BitVec.extractLsb'_eq_self, Nat.reduceSub]

theorem RoundTrip.fadd (f : BitVec 1) (b : BitVec 5) (a : BitVec 5) (r : BitVec 3) (d : BitVec 5) (k : BitVec 1) : RoundTrip.Statement (.fadd f b a r d k) := by
  have h : (0#6 ++ f ++ b ++ a ++ r ++ d ++ 12#6 ++ k : IWord) &&& 0xFC00007E = 0x00000018 := by
    rw [show (0xFC00007E : IWord) = 63#6 ++ 0#1 ++ 0#5 ++ 0#5 ++ 0#3 ++ 0#5 ++ 63#6 ++ 0#1 from rfl]
    simp only [BitVec.and_append, BitVec.and_zero, BitVec.reduceAnd]; decide
  refine reads h (by decide) rfl ?_
  refine (if_pos (hit h)).trans ?_
  simp (disch := decide) only [BitVec.extractLsb'_append_eq_of_le, BitVec.extractLsb'_append_eq_of_add_le, BitVec.extractLsb'_eq_self, Nat.reduceSub]

theorem RoundTrip.fsub (f : BitVec 1) (b : BitVec 5) (a : BitVec 5) (r : BitVec 3) (d : BitVec 5) (k : BitVec 1) : RoundTrip.Statement (.fsub f b a r d k) := by
  have h : (2#6 ++ f ++ b ++ a ++ r ++ d ++ 12#6 ++ k : IWord) &&& 0xFC00007E = 0x08000018 := by
    rw [show (0xFC00007E : IWord) = 63#6 ++ 0#1 ++ 0#5 ++ 0#5 ++ 0#3 ++ 0#5 ++ 63#6 ++ 0#1 from rfl]
    simp only [BitVec.and_append, BitVec.and_zero, BitVec.reduceAnd]; decide
  refine reads h (by decide) rfl ?_
  refine (if_neg (ne_true_of_eq_false (miss h (by decide)))).trans <| (if_pos (hit h)).trans ?_
  simp (disch := decide) only [BitVec.extractLsb'_append_eq_of_le, BitVec.extractLsb'_append_eq_of_add_le, BitVec.extractLsb'_eq_self, Nat.reduceSub]

theorem RoundTrip.fmul (f : BitVec 1) (b : BitVec 5) (a : BitVec 5) (r : BitVec 3) (d : BitVec 5) (k : BitVec 1) : RoundTrip.Statement (.fmul f b a r d k) := by
  have h : (4#6 ++ f ++ b ++ a ++ r ++ d ++ 12#6 ++ k : IWord) &&& 0xFC00007E = 0x10000018 := by
    rw [show (0xFC00007E : IWord) = 63#6 ++ 0#1 ++ 0#5 ++ 0#5 ++ 0#3 ++ 0#5 ++ 63#6 ++ 0#1 from rfl]
    simp only [BitVec.and_append, BitVec.and_zero, BitVec.reduceAnd]; decide
  refine reads h (by decide) rfl ?_
  refine (if_neg (ne_true_of_eq_false (miss h (by decide)))).trans <| (if_neg (ne_true_of_eq_false (miss h (by decide)))).trans <| (if_pos (hit h)).trans ?_
  simp (disch := decide) only [BitVec.extractLsb'_append_eq_of_le, BitVec.extractLsb'_append_eq_of_add_le, BitVec.extractLsb'_eq_self, Nat.reduceSub]

theorem RoundTrip.fdiv (f : BitVec 1) (b : BitVec 5) (a : BitVec 5) (r : BitVec 3) (d : BitVec 5) (k : BitVec 1) : RoundTrip.Statement (.fdiv f b a r d k) := by
  have h : (6#6 ++ f ++ b ++ a ++ r ++ d ++ 12#6 ++ k : IWord) &&& 0xFC00007E = 0x18000018 := by
    rw [show (0xFC00007E : IWord) = 63#6 ++ 0#1 ++ 0#5 ++ 0#5 ++ 0#3 ++ 0#5 ++ 63#6 ++ 0#1 from rfl]
    simp only [BitVec.and_append, BitVec.and_zero, BitVec.reduceAnd]; decide
  refine reads h (by decide) rfl ?_
  refine (if_neg (ne_true_of_eq_false (miss h (by decide)))).trans <| (if_neg (ne_true_of_eq_false (miss h (by decide)))).trans <| (if_neg (ne_true_of_eq_false (miss h (by decide)))).trans <| (if_pos (hit h)).trans ?_
  simp (disch := decide) only [BitVec.extractLsb'_append_eq_of_le, BitVec.extractLsb'_append_eq_of_add_le, BitVec.extractLsb'_eq_self, Nat.reduceSub]

theorem RoundTrip.fsqrt (f : BitVec 1) (a : BitVec 5) (r : BitVec 3) (d : BitVec 5) (k : BitVec 1) : RoundTrip.Statement (.fsqrt f a r d k) := by
  have h : (8#6 ++ f ++ 0#5 ++ a ++ r ++ d ++ 12#6 ++ k : IWord) &&& 0xFDF0007E = 0x20000018 := by
    rw [show (0xFDF0007E : IWord) = 63#6 ++ 0#1 ++ 31#5 ++ 0#5 ++ 0#3 ++ 0#5 ++ 63#6 ++ 0#1 from rfl]
    simp only [BitVec.and_append, BitVec.and_zero, BitVec.reduceAnd]; decide
  refine reads h (by decide) rfl ?_
  refine (if_neg (ne_true_of_eq_false (miss h (by decide)))).trans <| (if_neg (ne_true_of_eq_false (miss h (by decide)))).trans <| (if_neg (ne_true_of_eq_false (miss h (by decide)))).trans <| (if_neg (ne_true_of_eq_false (miss h (by decide)))).trans <| (if_pos (hit h)).trans ?_
  simp (disch := decide) only [BitVec.extractLsb'_append_eq_of_le, BitVec.extractLsb'_append_eq_of_add_le, BitVec.extractLsb'_eq_self, Nat.reduceSub]

theorem RoundTrip.ffma (f : BitVec 1) (b : BitVec 5) (a : BitVec 5) (r : BitVec 3) (d : BitVec 5) (k : BitVec 1) : RoundTrip.Statement (.ffma f b a r d k) := by
  have h : (10#6 ++ f ++ b ++ a ++ r ++ d ++ 12#6 ++ k : IWord) &&& 0xFC00007E = 0x28000018 := by
    rw [show (0xFC00007E : IWord) = 63#6 ++ 0#1 ++ 0#5 ++ 0#5 ++ 0#3 ++ 0#5 ++ 63#6 ++ 0#1 from rfl]
    simp only [BitVec.and_append, BitVec.and_zero, BitVec.reduceAnd]; decide
  refine reads h (by decide) rfl ?_
  refine (if_neg (ne_true_of_eq_false (miss h (by decide)))).trans <| (if_neg (ne_true_of_eq_false (miss h (by decide)))).trans <| (if_neg (ne_true_of_eq_false (miss h (by decide)))).trans <| (if_neg (ne_true_of_eq_false (miss h (by decide)))).trans <| (if_neg (ne_true_of_eq_false (miss h (by decide)))).trans <| (if_pos (hit h)).trans ?_
  simp (disch := decide) only [BitVec.extractLsb'_append_eq_of_le, BitVec.extractLsb'_append_eq_of_add_le, BitVec.extractLsb'_eq_self, Nat.reduceSub]

theorem RoundTrip.fmin (f : BitVec 1) (b : BitVec 5) (a : BitVec 5) (d : BitVec 5) (k : BitVec 1) : RoundTrip.Statement (.fmin f b a d k) := by
  have h : (12#6 ++ f ++ b ++ a ++ 0#3 ++ d ++ 12#6 ++ k : IWord) &&& 0xFC00707E = 0x30000018 := by
    rw [show (0xFC00707E : IWord) = 63#6 ++ 0#1 ++ 0#5 ++ 0#5 ++ 7#3 ++ 0#5 ++ 63#6 ++ 0#1 from rfl]
    simp only [BitVec.and_append, BitVec.and_zero, BitVec.reduceAnd]; decide
  refine reads h (by decide) rfl ?_
  refine (if_neg (ne_true_of_eq_false (miss h (by decide)))).trans <| (if_neg (ne_true_of_eq_false (miss h (by decide)))).trans <| (if_neg (ne_true_of_eq_false (miss h (by decide)))).trans <| (if_neg (ne_true_of_eq_false (miss h (by decide)))).trans <| (if_neg (ne_true_of_eq_false (miss h (by decide)))).trans <| (if_neg (ne_true_of_eq_false (miss h (by decide)))).trans <| (if_pos (hit h)).trans ?_
  simp (disch := decide) only [BitVec.extractLsb'_append_eq_of_le, BitVec.extractLsb'_append_eq_of_add_le, BitVec.extractLsb'_eq_self, Nat.reduceSub]

theorem RoundTrip.fmax (f : BitVec 1) (b : BitVec 5) (a : BitVec 5) (d : BitVec 5) (k : BitVec 1) : RoundTrip.Statement (.fmax f b a d k) := by
  have h : (14#6 ++ f ++ b ++ a ++ 0#3 ++ d ++ 12#6 ++ k : IWord) &&& 0xFC00707E = 0x38000018 := by
    rw [show (0xFC00707E : IWord) = 63#6 ++ 0#1 ++ 0#5 ++ 0#5 ++ 7#3 ++ 0#5 ++ 63#6 ++ 0#1 from rfl]
    simp only [BitVec.and_append, BitVec.and_zero, BitVec.reduceAnd]; decide
  refine reads h (by decide) rfl ?_
  refine (if_neg (ne_true_of_eq_false (miss h (by decide)))).trans <| (if_neg (ne_true_of_eq_false (miss h (by decide)))).trans <| (if_neg (ne_true_of_eq_false (miss h (by decide)))).trans <| (if_neg (ne_true_of_eq_false (miss h (by decide)))).trans <| (if_neg (ne_true_of_eq_false (miss h (by decide)))).trans <| (if_neg (ne_true_of_eq_false (miss h (by decide)))).trans <| (if_neg (ne_true_of_eq_false (miss h (by decide)))).trans <| (if_pos (hit h)).trans ?_
  simp (disch := decide) only [BitVec.extractLsb'_append_eq_of_le, BitVec.extractLsb'_append_eq_of_add_le, BitVec.extractLsb'_eq_self, Nat.reduceSub]

theorem RoundTrip.feq (f : BitVec 1) (b : BitVec 5) (a : BitVec 5) (d : BitVec 5) (k : BitVec 1) : RoundTrip.Statement (.feq f b a d k) := by
  have h : (16#6 ++ f ++ b ++ a ++ 0#3 ++ d ++ 12#6 ++ k : IWord) &&& 0xFC00707E = 0x40000018 := by
    rw [show (0xFC00707E : IWord) = 63#6 ++ 0#1 ++ 0#5 ++ 0#5 ++ 7#3 ++ 0#5 ++ 63#6 ++ 0#1 from rfl]
    simp only [BitVec.and_append, BitVec.and_zero, BitVec.reduceAnd]; decide
  refine reads h (by decide) rfl ?_
  refine (if_neg (ne_true_of_eq_false (miss h (by decide)))).trans <| (if_neg (ne_true_of_eq_false (miss h (by decide)))).trans <| (if_neg (ne_true_of_eq_false (miss h (by decide)))).trans <| (if_neg (ne_true_of_eq_false (miss h (by decide)))).trans <| (if_neg (ne_true_of_eq_false (miss h (by decide)))).trans <| (if_neg (ne_true_of_eq_false (miss h (by decide)))).trans <| (if_neg (ne_true_of_eq_false (miss h (by decide)))).trans <| (if_neg (ne_true_of_eq_false (miss h (by decide)))).trans <| (if_pos (hit h)).trans ?_
  simp (disch := decide) only [BitVec.extractLsb'_append_eq_of_le, BitVec.extractLsb'_append_eq_of_add_le, BitVec.extractLsb'_eq_self, Nat.reduceSub]

theorem RoundTrip.flt (f : BitVec 1) (b : BitVec 5) (a : BitVec 5) (d : BitVec 5) (k : BitVec 1) : RoundTrip.Statement (.flt f b a d k) := by
  have h : (18#6 ++ f ++ b ++ a ++ 0#3 ++ d ++ 12#6 ++ k : IWord) &&& 0xFC00707E = 0x48000018 := by
    rw [show (0xFC00707E : IWord) = 63#6 ++ 0#1 ++ 0#5 ++ 0#5 ++ 7#3 ++ 0#5 ++ 63#6 ++ 0#1 from rfl]
    simp only [BitVec.and_append, BitVec.and_zero, BitVec.reduceAnd]; decide
  refine reads h (by decide) rfl ?_
  refine (if_neg (ne_true_of_eq_false (miss h (by decide)))).trans <| (if_neg (ne_true_of_eq_false (miss h (by decide)))).trans <| (if_neg (ne_true_of_eq_false (miss h (by decide)))).trans <| (if_neg (ne_true_of_eq_false (miss h (by decide)))).trans <| (if_neg (ne_true_of_eq_false (miss h (by decide)))).trans <| (if_neg (ne_true_of_eq_false (miss h (by decide)))).trans <| (if_neg (ne_true_of_eq_false (miss h (by decide)))).trans <| (if_neg (ne_true_of_eq_false (miss h (by decide)))).trans <| (if_neg (ne_true_of_eq_false (miss h (by decide)))).trans <| (if_pos (hit h)).trans ?_
  simp (disch := decide) only [BitVec.extractLsb'_append_eq_of_le, BitVec.extractLsb'_append_eq_of_add_le, BitVec.extractLsb'_eq_self, Nat.reduceSub]

theorem RoundTrip.fle (f : BitVec 1) (b : BitVec 5) (a : BitVec 5) (d : BitVec 5) (k : BitVec 1) : RoundTrip.Statement (.fle f b a d k) := by
  have h : (20#6 ++ f ++ b ++ a ++ 0#3 ++ d ++ 12#6 ++ k : IWord) &&& 0xFC00707E = 0x50000018 := by
    rw [show (0xFC00707E : IWord) = 63#6 ++ 0#1 ++ 0#5 ++ 0#5 ++ 7#3 ++ 0#5 ++ 63#6 ++ 0#1 from rfl]
    simp only [BitVec.and_append, BitVec.and_zero, BitVec.reduceAnd]; decide
  refine reads h (by decide) rfl ?_
  refine (if_neg (ne_true_of_eq_false (miss h (by decide)))).trans <| (if_neg (ne_true_of_eq_false (miss h (by decide)))).trans <| (if_neg (ne_true_of_eq_false (miss h (by decide)))).trans <| (if_neg (ne_true_of_eq_false (miss h (by decide)))).trans <| (if_neg (ne_true_of_eq_false (miss h (by decide)))).trans <| (if_neg (ne_true_of_eq_false (miss h (by decide)))).trans <| (if_neg (ne_true_of_eq_false (miss h (by decide)))).trans <| (if_neg (ne_true_of_eq_false (miss h (by decide)))).trans <| (if_neg (ne_true_of_eq_false (miss h (by decide)))).trans <| (if_neg (ne_true_of_eq_false (miss h (by decide)))).trans <| (if_pos (hit h)).trans ?_
  simp (disch := decide) only [BitVec.extractLsb'_append_eq_of_le, BitVec.extractLsb'_append_eq_of_add_le, BitVec.extractLsb'_eq_self, Nat.reduceSub]

theorem RoundTrip.fclass (f : BitVec 1) (a : BitVec 5) (d : BitVec 5) (k : BitVec 1) : RoundTrip.Statement (.fclass f a d k) := by
  have h : (22#6 ++ f ++ 0#5 ++ a ++ 0#3 ++ d ++ 12#6 ++ k : IWord) &&& 0xFDF0707E = 0x58000018 := by
    rw [show (0xFDF0707E : IWord) = 63#6 ++ 0#1 ++ 31#5 ++ 0#5 ++ 7#3 ++ 0#5 ++ 63#6 ++ 0#1 from rfl]
    simp only [BitVec.and_append, BitVec.and_zero, BitVec.reduceAnd]; decide
  refine reads h (by decide) rfl ?_
  refine (if_neg (ne_true_of_eq_false (miss h (by decide)))).trans <| (if_neg (ne_true_of_eq_false (miss h (by decide)))).trans <| (if_neg (ne_true_of_eq_false (miss h (by decide)))).trans <| (if_neg (ne_true_of_eq_false (miss h (by decide)))).trans <| (if_neg (ne_true_of_eq_false (miss h (by decide)))).trans <| (if_neg (ne_true_of_eq_false (miss h (by decide)))).trans <| (if_neg (ne_true_of_eq_false (miss h (by decide)))).trans <| (if_neg (ne_true_of_eq_false (miss h (by decide)))).trans <| (if_neg (ne_true_of_eq_false (miss h (by decide)))).trans <| (if_neg (ne_true_of_eq_false (miss h (by decide)))).trans <| (if_neg (ne_true_of_eq_false (miss h (by decide)))).trans <| (if_pos (hit h)).trans ?_
  simp (disch := decide) only [BitVec.extractLsb'_append_eq_of_le, BitVec.extractLsb'_append_eq_of_add_le, BitVec.extractLsb'_eq_self, Nat.reduceSub]

theorem RoundTrip.fcvtToFloat (f : BitVec 1) (s : BitVec 3) (a : BitVec 5) (r : BitVec 3) (d : BitVec 5) (k : BitVec 1) : RoundTrip.Statement (.fcvtToFloat f s a r d k) := by
  have h : (24#6 ++ f ++ 0#2 ++ s ++ a ++ r ++ d ++ 12#6 ++ k : IWord) &&& 0xFD80007E = 0x60000018 := by
    rw [show (0xFD80007E : IWord) = 63#6 ++ 0#1 ++ 3#2 ++ 0#3 ++ 0#5 ++ 0#3 ++ 0#5 ++ 63#6 ++ 0#1 from rfl]
    simp only [BitVec.and_append, BitVec.and_zero, BitVec.reduceAnd]; decide
  refine reads h (by decide) rfl ?_
  refine (if_neg (ne_true_of_eq_false (miss h (by decide)))).trans <| (if_neg (ne_true_of_eq_false (miss h (by decide)))).trans <| (if_neg (ne_true_of_eq_false (miss h (by decide)))).trans <| (if_neg (ne_true_of_eq_false (miss h (by decide)))).trans <| (if_neg (ne_true_of_eq_false (miss h (by decide)))).trans <| (if_neg (ne_true_of_eq_false (miss h (by decide)))).trans <| (if_neg (ne_true_of_eq_false (miss h (by decide)))).trans <| (if_neg (ne_true_of_eq_false (miss h (by decide)))).trans <| (if_neg (ne_true_of_eq_false (miss h (by decide)))).trans <| (if_neg (ne_true_of_eq_false (miss h (by decide)))).trans <| (if_neg (ne_true_of_eq_false (miss h (by decide)))).trans <| (if_neg (ne_true_of_eq_false (miss h (by decide)))).trans <| (if_pos (hit h)).trans ?_
  simp (disch := decide) only [BitVec.extractLsb'_append_eq_of_le, BitVec.extractLsb'_append_eq_of_add_le, BitVec.extractLsb'_eq_self, Nat.reduceSub]

theorem RoundTrip.fcvtToInt (f : BitVec 1) (s : BitVec 3) (a : BitVec 5) (r : BitVec 3) (d : BitVec 5) (k : BitVec 1) : RoundTrip.Statement (.fcvtToInt f s a r d k) := by
  have h : (26#6 ++ f ++ 0#2 ++ s ++ a ++ r ++ d ++ 12#6 ++ k : IWord) &&& 0xFD80007E = 0x68000018 := by
    rw [show (0xFD80007E : IWord) = 63#6 ++ 0#1 ++ 3#2 ++ 0#3 ++ 0#5 ++ 0#3 ++ 0#5 ++ 63#6 ++ 0#1 from rfl]
    simp only [BitVec.and_append, BitVec.and_zero, BitVec.reduceAnd]; decide
  refine reads h (by decide) rfl ?_
  refine (if_neg (ne_true_of_eq_false (miss h (by decide)))).trans <| (if_neg (ne_true_of_eq_false (miss h (by decide)))).trans <| (if_neg (ne_true_of_eq_false (miss h (by decide)))).trans <| (if_neg (ne_true_of_eq_false (miss h (by decide)))).trans <| (if_neg (ne_true_of_eq_false (miss h (by decide)))).trans <| (if_neg (ne_true_of_eq_false (miss h (by decide)))).trans <| (if_neg (ne_true_of_eq_false (miss h (by decide)))).trans <| (if_neg (ne_true_of_eq_false (miss h (by decide)))).trans <| (if_neg (ne_true_of_eq_false (miss h (by decide)))).trans <| (if_neg (ne_true_of_eq_false (miss h (by decide)))).trans <| (if_neg (ne_true_of_eq_false (miss h (by decide)))).trans <| (if_neg (ne_true_of_eq_false (miss h (by decide)))).trans <| (if_neg (ne_true_of_eq_false (miss h (by decide)))).trans <| (if_pos (hit h)).trans ?_
  simp (disch := decide) only [BitVec.extractLsb'_append_eq_of_le, BitVec.extractLsb'_append_eq_of_add_le, BitVec.extractLsb'_eq_self, Nat.reduceSub]

theorem RoundTrip.get_ (i : BitVec 12) (d : BitVec 5) (k : BitVec 1) : RoundTrip.Statement (.get_ i d k) := by
  have h : (i ++ 0#8 ++ d ++ 31#6 ++ k : IWord) &&& 0x000FF07E = 0x0000003E := by
    rw [show (0x000FF07E : IWord) = 0#12 ++ 255#8 ++ 0#5 ++ 63#6 ++ 0#1 from rfl]
    simp only [BitVec.and_append, BitVec.and_zero, BitVec.reduceAnd]; decide
  refine reads h (by decide) rfl ?_
  refine (if_pos (hit h)).trans ?_
  simp (disch := decide) only [BitVec.extractLsb'_append_eq_of_le, BitVec.extractLsb'_append_eq_of_add_le, BitVec.extractLsb'_eq_self, Nat.reduceSub]

theorem RoundTrip.set_ (i : BitVec 12) (a : BitVec 5) (k : BitVec 1) : RoundTrip.Statement (.set_ i a k) := by
  have h : (i ++ a ++ 2079#14 ++ k : IWord) &&& 0x00007FFE = 0x0000103E := by
    rw [show (0x00007FFE : IWord) = 0#12 ++ 0#5 ++ 16383#14 ++ 0#1 from rfl]
    simp only [BitVec.and_append, BitVec.and_zero, BitVec.reduceAnd]; decide
  refine reads h (by decide) rfl ?_
  refine (if_neg (ne_true_of_eq_false (miss h (by decide)))).trans <| (if_pos (hit h)).trans ?_
  simp (disch := decide) only [BitVec.extractLsb'_append_eq_of_le, BitVec.extractLsb'_append_eq_of_add_le, BitVec.extractLsb'_eq_self, Nat.reduceSub]

theorem RoundTrip.cget (c : BitVec 3) (d : BitVec 5) (k : BitVec 1) : RoundTrip.Statement (.cget c d k) := by
  have h : (0#9 ++ c ++ 2#8 ++ d ++ 31#6 ++ k : IWord) &&& 0xFF8FF07E = 0x0000203E := by
    rw [show (0xFF8FF07E : IWord) = 511#9 ++ 0#3 ++ 255#8 ++ 0#5 ++ 63#6 ++ 0#1 from rfl]
    simp only [BitVec.and_append, BitVec.and_zero, BitVec.reduceAnd]; decide
  refine reads h (by decide) rfl ?_
  refine (if_neg (ne_true_of_eq_false (miss h (by decide)))).trans <| (if_neg (ne_true_of_eq_false (miss h (by decide)))).trans <| (if_pos (hit h)).trans ?_
  simp (disch := decide) only [BitVec.extractLsb'_append_eq_of_le, BitVec.extractLsb'_append_eq_of_add_le, BitVec.extractLsb'_eq_self, Nat.reduceSub]

theorem RoundTrip.cset (c : BitVec 3) (a : BitVec 5) (k : BitVec 1) : RoundTrip.Statement (.cset c a k) := by
  have h : (0#9 ++ c ++ a ++ 6175#14 ++ k : IWord) &&& 0xFF807FFE = 0x0000303E := by
    rw [show (0xFF807FFE : IWord) = 511#9 ++ 0#3 ++ 0#5 ++ 16383#14 ++ 0#1 from rfl]
    simp only [BitVec.and_append, BitVec.and_zero, BitVec.reduceAnd]; decide
  refine reads h (by decide) rfl ?_
  refine (if_neg (ne_true_of_eq_false (miss h (by decide)))).trans <| (if_neg (ne_true_of_eq_false (miss h (by decide)))).trans <| (if_neg (ne_true_of_eq_false (miss h (by decide)))).trans <| (if_pos (hit h)).trans ?_
  simp (disch := decide) only [BitVec.extractLsb'_append_eq_of_le, BitVec.extractLsb'_append_eq_of_add_le, BitVec.extractLsb'_eq_self, Nat.reduceSub]

theorem RoundTrip.ecall (k : BitVec 1) : RoundTrip.Statement (.ecall k) := by
  have h : (8223#31 ++ k : IWord) &&& 0xFFFFFFFE = 0x0000403E := by
    rw [show (0xFFFFFFFE : IWord) = 2147483647#31 ++ 0#1 from rfl]
    simp only [BitVec.and_append, BitVec.and_zero, BitVec.reduceAnd]; decide
  refine reads h (by decide) rfl ?_
  refine (if_neg (ne_true_of_eq_false (miss h (by decide)))).trans <| (if_neg (ne_true_of_eq_false (miss h (by decide)))).trans <| (if_neg (ne_true_of_eq_false (miss h (by decide)))).trans <| (if_neg (ne_true_of_eq_false (miss h (by decide)))).trans <| (if_pos (hit h)).trans ?_
  simp (disch := decide) only [BitVec.extractLsb'_append_eq_of_le, BitVec.extractLsb'_append_eq_of_add_le, BitVec.extractLsb'_eq_self, Nat.reduceSub]

theorem RoundTrip.ebreak (k : BitVec 1) : RoundTrip.Statement (.ebreak k) := by
  have h : (532511#31 ++ k : IWord) &&& 0xFFFFFFFE = 0x0010403E := by
    rw [show (0xFFFFFFFE : IWord) = 2147483647#31 ++ 0#1 from rfl]
    simp only [BitVec.and_append, BitVec.and_zero, BitVec.reduceAnd]; decide
  refine reads h (by decide) rfl ?_
  refine (if_neg (ne_true_of_eq_false (miss h (by decide)))).trans <| (if_neg (ne_true_of_eq_false (miss h (by decide)))).trans <| (if_neg (ne_true_of_eq_false (miss h (by decide)))).trans <| (if_neg (ne_true_of_eq_false (miss h (by decide)))).trans <| (if_neg (ne_true_of_eq_false (miss h (by decide)))).trans <| (if_pos (hit h)).trans ?_
  simp (disch := decide) only [BitVec.extractLsb'_append_eq_of_le, BitVec.extractLsb'_append_eq_of_add_le, BitVec.extractLsb'_eq_self, Nat.reduceSub]

theorem RoundTrip.eret (k : BitVec 1) : RoundTrip.Statement (.eret k) := by
  have h : (1056799#31 ++ k : IWord) &&& 0xFFFFFFFE = 0x0020403E := by
    rw [show (0xFFFFFFFE : IWord) = 2147483647#31 ++ 0#1 from rfl]
    simp only [BitVec.and_append, BitVec.and_zero, BitVec.reduceAnd]; decide
  refine reads h (by decide) rfl ?_
  refine (if_neg (ne_true_of_eq_false (miss h (by decide)))).trans <| (if_neg (ne_true_of_eq_false (miss h (by decide)))).trans <| (if_neg (ne_true_of_eq_false (miss h (by decide)))).trans <| (if_neg (ne_true_of_eq_false (miss h (by decide)))).trans <| (if_neg (ne_true_of_eq_false (miss h (by decide)))).trans <| (if_neg (ne_true_of_eq_false (miss h (by decide)))).trans <| (if_pos (hit h)).trans ?_
  simp (disch := decide) only [BitVec.extractLsb'_append_eq_of_le, BitVec.extractLsb'_append_eq_of_add_le, BitVec.extractLsb'_eq_self, Nat.reduceSub]

theorem RoundTrip.halt (k : BitVec 1) : RoundTrip.Statement (.halt k) := by
  have h : (1581087#31 ++ k : IWord) &&& 0xFFFFFFFE = 0x0030403E := by
    rw [show (0xFFFFFFFE : IWord) = 2147483647#31 ++ 0#1 from rfl]
    simp only [BitVec.and_append, BitVec.and_zero, BitVec.reduceAnd]; decide
  refine reads h (by decide) rfl ?_
  refine (if_neg (ne_true_of_eq_false (miss h (by decide)))).trans <| (if_neg (ne_true_of_eq_false (miss h (by decide)))).trans <| (if_neg (ne_true_of_eq_false (miss h (by decide)))).trans <| (if_neg (ne_true_of_eq_false (miss h (by decide)))).trans <| (if_neg (ne_true_of_eq_false (miss h (by decide)))).trans <| (if_neg (ne_true_of_eq_false (miss h (by decide)))).trans <| (if_neg (ne_true_of_eq_false (miss h (by decide)))).trans <| (if_pos (hit h)).trans ?_
  simp (disch := decide) only [BitVec.extractLsb'_append_eq_of_le, BitVec.extractLsb'_append_eq_of_add_le, BitVec.extractLsb'_eq_self, Nat.reduceSub]

theorem RoundTrip.tlbi (b : BitVec 5) (a : BitVec 5) (k : BitVec 1) : RoundTrip.Statement (.tlbi b a k) := by
  have h : (0#7 ++ b ++ a ++ 10271#14 ++ k : IWord) &&& 0xFE007FFE = 0x0000503E := by
    rw [show (0xFE007FFE : IWord) = 127#7 ++ 0#5 ++ 0#5 ++ 16383#14 ++ 0#1 from rfl]
    simp only [BitVec.and_append, BitVec.and_zero, BitVec.reduceAnd]; decide
  refine reads h (by decide) rfl ?_
  refine (if_neg (ne_true_of_eq_false (miss h (by decide)))).trans <| (if_neg (ne_true_of_eq_false (miss h (by decide)))).trans <| (if_neg (ne_true_of_eq_false (miss h (by decide)))).trans <| (if_neg (ne_true_of_eq_false (miss h (by decide)))).trans <| (if_neg (ne_true_of_eq_false (miss h (by decide)))).trans <| (if_neg (ne_true_of_eq_false (miss h (by decide)))).trans <| (if_neg (ne_true_of_eq_false (miss h (by decide)))).trans <| (if_neg (ne_true_of_eq_false (miss h (by decide)))).trans <| (if_pos (hit h)).trans ?_
  simp (disch := decide) only [BitVec.extractLsb'_append_eq_of_le, BitVec.extractLsb'_append_eq_of_add_le, BitVec.extractLsb'_eq_self, Nat.reduceSub]

theorem RoundTrip.kill (a : BitVec 5) (k : BitVec 1) : RoundTrip.Statement (.kill a k) := by
  have h : (32#12 ++ a ++ 10271#14 ++ k : IWord) &&& 0xFFF07FFE = 0x0200503E := by
    rw [show (0xFFF07FFE : IWord) = 4095#12 ++ 0#5 ++ 16383#14 ++ 0#1 from rfl]
    simp only [BitVec.and_append, BitVec.and_zero, BitVec.reduceAnd]; decide
  refine reads h (by decide) rfl ?_
  refine (if_neg (ne_true_of_eq_false (miss h (by decide)))).trans <| (if_neg (ne_true_of_eq_false (miss h (by decide)))).trans <| (if_neg (ne_true_of_eq_false (miss h (by decide)))).trans <| (if_neg (ne_true_of_eq_false (miss h (by decide)))).trans <| (if_neg (ne_true_of_eq_false (miss h (by decide)))).trans <| (if_neg (ne_true_of_eq_false (miss h (by decide)))).trans <| (if_neg (ne_true_of_eq_false (miss h (by decide)))).trans <| (if_neg (ne_true_of_eq_false (miss h (by decide)))).trans <| (if_neg (ne_true_of_eq_false (miss h (by decide)))).trans <| (if_pos (hit h)).trans ?_
  simp (disch := decide) only [BitVec.extractLsb'_append_eq_of_le, BitVec.extractLsb'_append_eq_of_add_le, BitVec.extractLsb'_eq_self, Nat.reduceSub]

theorem RoundTrip.sget (a : BitVec 5) (d : BitVec 5) (k : BitVec 1) : RoundTrip.Statement (.sget a d k) := by
  have h : (0#12 ++ a ++ 6#3 ++ d ++ 31#6 ++ k : IWord) &&& 0xFFF0707E = 0x0000603E := by
    rw [show (0xFFF0707E : IWord) = 4095#12 ++ 0#5 ++ 7#3 ++ 0#5 ++ 63#6 ++ 0#1 from rfl]
    simp only [BitVec.and_append, BitVec.and_zero, BitVec.reduceAnd]; decide
  refine reads h (by decide) rfl ?_
  refine (if_neg (ne_true_of_eq_false (miss h (by decide)))).trans <| (if_neg (ne_true_of_eq_false (miss h (by decide)))).trans <| (if_neg (ne_true_of_eq_false (miss h (by decide)))).trans <| (if_neg (ne_true_of_eq_false (miss h (by decide)))).trans <| (if_neg (ne_true_of_eq_false (miss h (by decide)))).trans <| (if_neg (ne_true_of_eq_false (miss h (by decide)))).trans <| (if_neg (ne_true_of_eq_false (miss h (by decide)))).trans <| (if_neg (ne_true_of_eq_false (miss h (by decide)))).trans <| (if_neg (ne_true_of_eq_false (miss h (by decide)))).trans <| (if_neg (ne_true_of_eq_false (miss h (by decide)))).trans <| (if_pos (hit h)).trans ?_
  simp (disch := decide) only [BitVec.extractLsb'_append_eq_of_le, BitVec.extractLsb'_append_eq_of_add_le, BitVec.extractLsb'_eq_self, Nat.reduceSub]

theorem RoundTrip.sset (b : BitVec 5) (a : BitVec 5) (k : BitVec 1) : RoundTrip.Statement (.sset b a k) := by
  have h : (1#7 ++ b ++ a ++ 12319#14 ++ k : IWord) &&& 0xFE007FFE = 0x0200603E := by
    rw [show (0xFE007FFE : IWord) = 127#7 ++ 0#5 ++ 0#5 ++ 16383#14 ++ 0#1 from rfl]
    simp only [BitVec.and_append, BitVec.and_zero, BitVec.reduceAnd]; decide
  refine reads h (by decide) rfl ?_
  refine (if_neg (ne_true_of_eq_false (miss h (by decide)))).trans <| (if_neg (ne_true_of_eq_false (miss h (by decide)))).trans <| (if_neg (ne_true_of_eq_false (miss h (by decide)))).trans <| (if_neg (ne_true_of_eq_false (miss h (by decide)))).trans <| (if_neg (ne_true_of_eq_false (miss h (by decide)))).trans <| (if_neg (ne_true_of_eq_false (miss h (by decide)))).trans <| (if_neg (ne_true_of_eq_false (miss h (by decide)))).trans <| (if_neg (ne_true_of_eq_false (miss h (by decide)))).trans <| (if_neg (ne_true_of_eq_false (miss h (by decide)))).trans <| (if_neg (ne_true_of_eq_false (miss h (by decide)))).trans <| (if_neg (ne_true_of_eq_false (miss h (by decide)))).trans <| (if_pos (hit h)).trans ?_
  simp (disch := decide) only [BitVec.extractLsb'_append_eq_of_le, BitVec.extractLsb'_append_eq_of_add_le, BitVec.extractLsb'_eq_self, Nat.reduceSub]

theorem RoundTrip.doubleFault (sid : Nat) : RoundTrip.Statement (.doubleFault sid) := noWord rfl
theorem RoundTrip.strandArrival (pk : Nat) : RoundTrip.Statement (.strandArrival pk) := noWord rfl
theorem RoundTrip.guestEviction (sid : Nat) : RoundTrip.Statement (.guestEviction sid) := noWord rfl
theorem RoundTrip.evictionReturn (pk : Nat) : RoundTrip.Statement (.evictionReturn pk) := noWord rfl
theorem RoundTrip.forwardedResult (sid : Nat) (f : Forwarded) : RoundTrip.Statement (.forwardedResult sid f) := noWord rfl
theorem RoundTrip.lateResultReturn (place : Nat) (sid : Nat) (v : LateValue) : RoundTrip.Statement (.lateResultReturn place sid v) := noWord rfl
theorem RoundTrip.symbolResolution (place : Nat) (sc : Nat) (e : Nat) : RoundTrip.Statement (.symbolResolution place sc e) := noWord rfl
theorem RoundTrip.parkWake (sid : Nat) : RoundTrip.Statement (.parkWake sid) := noWord rfl
theorem RoundTrip.strandPromotion (sid : Nat) : RoundTrip.Statement (.strandPromotion sid) := noWord rfl
theorem RoundTrip.meetingExpiry (place : Nat) (entry : Nat) : RoundTrip.Statement (.meetingExpiry place entry) := noWord rfl
theorem RoundTrip.meetingPaired (place : Nat) (entry : Nat) : RoundTrip.Statement (.meetingPaired place entry) := noWord rfl
theorem RoundTrip.linkFailure (pk : Nat) : RoundTrip.Statement (.linkFailure pk) := noWord rfl
theorem RoundTrip.killNotice (sid : Nat) : RoundTrip.Statement (.killNotice sid) := noWord rfl
theorem RoundTrip.boundaryStop (pk : Nat) : RoundTrip.Statement (.boundaryStop pk) := noWord rfl
theorem RoundTrip.stoppedReturn (pk : Nat) : RoundTrip.Statement (.stoppedReturn pk) := noWord rfl
theorem RoundTrip.storeAccepted (id : Nat) : RoundTrip.Statement (.storeAccepted id) := noWord rfl
theorem RoundTrip.storeAck (place : Nat) (sid : Nat) : RoundTrip.Statement (.storeAck place sid) := noWord rfl
theorem RoundTrip.vaultFillReturn (cl : Nat) (line : Nat) : RoundTrip.Statement (.vaultFillReturn cl line) := noWord rfl
theorem RoundTrip.writeBackDrain (cl : Nat) : RoundTrip.Statement (.writeBackDrain cl) := noWord rfl
theorem RoundTrip.feWaiterService (place : Nat) (word : Nat) : RoundTrip.Statement (.feWaiterService place word) := noWord rfl
theorem RoundTrip.watchTimeout (cl : Nat) (id : Nat) : RoundTrip.Statement (.watchTimeout cl id) := noWord rfl
theorem RoundTrip.joinListService (place : Nat) (word : Nat) : RoundTrip.Statement (.joinListService place word) := noWord rfl
theorem RoundTrip.barWaitService (place : Nat) (word : Nat) : RoundTrip.Statement (.barWaitService place word) := noWord rfl
theorem RoundTrip.translationFill (place : Nat) (asn : Nat) (va : Nat) : RoundTrip.Statement (.translationFill place asn va) := noWord rfl
theorem RoundTrip.tableWalkComplete (cl : Nat) (id : Nat) : RoundTrip.Statement (.tableWalkComplete cl id) := noWord rfl
theorem RoundTrip.tileSetDown (place : Nat) (t : Nat) (b : Nat) (poisoned : Bool) : RoundTrip.Statement (.tileSetDown place t b poisoned) := noWord rfl
theorem RoundTrip.tileDeliveryFault (place : Nat) (t : Nat) (off : Nat) (pc : Nat) : RoundTrip.Statement (.tileDeliveryFault place t off pc) := noWord rfl
theorem RoundTrip.rangeLockRelease (place : Nat) (id : Nat) : RoundTrip.Statement (.rangeLockRelease place id) := noWord rfl
theorem RoundTrip.vectorEntryAccept (place : Nat) (sc : Nat) : RoundTrip.Statement (.vectorEntryAccept place sc) := noWord rfl
theorem RoundTrip.vectorEntryComplete (place : Nat) (id : Nat) : RoundTrip.Statement (.vectorEntryComplete place id) := noWord rfl
theorem RoundTrip.matrixCommandStart (place : Nat) : RoundTrip.Statement (.matrixCommandStart place) := noWord rfl
theorem RoundTrip.matrixCommandComplete (place : Nat) : RoundTrip.Statement (.matrixCommandComplete place) := noWord rfl
theorem RoundTrip.courierPieceLaunch (op : Nat) : RoundTrip.Statement (.courierPieceLaunch op) := noWord rfl
theorem RoundTrip.courierPickUp (pc : Nat) : RoundTrip.Statement (.courierPickUp pc) := noWord rfl
theorem RoundTrip.courierSetDown (pc : Nat) : RoundTrip.Statement (.courierSetDown pc) := noWord rfl
theorem RoundTrip.engineCompletionReport (pc : Nat) : RoundTrip.Statement (.engineCompletionReport pc) := noWord rfl
theorem RoundTrip.combineWindowClose (cl : Nat) (id : Nat) : RoundTrip.Statement (.combineWindowClose cl id) := noWord rfl
theorem RoundTrip.reductionNodeArrival (msg : Nat) : RoundTrip.Statement (.reductionNodeArrival msg) := noWord rfl
theorem RoundTrip.reductionRelaunch (msg : Nat) : RoundTrip.Statement (.reductionRelaunch msg) := noWord rfl
theorem RoundTrip.ringPieceArrival (pc : Nat) : RoundTrip.Statement (.ringPieceArrival pc) := noWord rfl
theorem RoundTrip.ringPieceRelaunch (pc : Nat) : RoundTrip.Statement (.ringPieceRelaunch pc) := noWord rfl
theorem RoundTrip.dequeTakeRequest (place : Nat) (sid : Nat) (thief : Nat) : RoundTrip.Statement (.dequeTakeRequest place sid thief) := noWord rfl
theorem RoundTrip.dequeIncrementAccepted (place : Nat) (j : Nat) : RoundTrip.Statement (.dequeIncrementAccepted place j) := noWord rfl
theorem RoundTrip.dequeAdjustmentAccepted (place : Nat) (j : Nat) (sid : Nat) : RoundTrip.Statement (.dequeAdjustmentAccepted place j sid) := noWord rfl
theorem RoundTrip.thiefVictimArrival (th : Nat) : RoundTrip.Statement (.thiefVictimArrival th) := noWord rfl
theorem RoundTrip.thiefFrameArrival (th : Nat) : RoundTrip.Statement (.thiefFrameArrival th) := noWord rfl
theorem RoundTrip.thiefRetry (sid : Nat) : RoundTrip.Statement (.thiefRetry sid) := noWord rfl
theorem RoundTrip.barrierRelease (id : Nat) : RoundTrip.Statement (.barrierRelease id) := noWord rfl
theorem RoundTrip.blockCompletion (b : Nat) : RoundTrip.Statement (.blockCompletion b) := noWord rfl
theorem RoundTrip.blockEndReport (b : Nat) (level : Nat) : RoundTrip.Statement (.blockEndReport b level) := noWord rfl
theorem RoundTrip.gridDone (g : Nat) : RoundTrip.Statement (.gridDone g) := noWord rfl
theorem RoundTrip.dealingRequest (g : Nat) (node : Nat) : RoundTrip.Statement (.dealingRequest g node) := noWord rfl
theorem RoundTrip.dealingGrant (g : Nat) (node : Nat) : RoundTrip.Statement (.dealingGrant g node) := noWord rfl
theorem RoundTrip.blockStart (g : Nat) (cl : Nat) : RoundTrip.Statement (.blockStart g cl) := noWord rfl
theorem RoundTrip.cancelStop (g : Nat) (node : Nat) : RoundTrip.Statement (.cancelStop g node) := noWord rfl
theorem RoundTrip.moduleAnswerTimeout (g : Nat) (m : Nat) : RoundTrip.Statement (.moduleAnswerTimeout g m) := noWord rfl
theorem RoundTrip.preemptSuspend (b : Nat) : RoundTrip.Statement (.preemptSuspend b) := noWord rfl
theorem RoundTrip.preemptRestore (b : Nat) : RoundTrip.Statement (.preemptRestore b) := noWord rfl
theorem RoundTrip.strandKill (sid : Nat) (cause : Nat) : RoundTrip.Statement (.strandKill sid cause) := noWord rfl
theorem RoundTrip.blockRerun (b : Nat) : RoundTrip.Statement (.blockRerun b) := noWord rfl
theorem RoundTrip.noticeArrival (n : Notice) : RoundTrip.Statement (.noticeArrival n) := noWord rfl
theorem RoundTrip.noticeReoffer (id : Nat) : RoundTrip.Statement (.noticeReoffer id) := noWord rfl
theorem RoundTrip.tlbiAck (id : Nat) : RoundTrip.Statement (.tlbiAck id) := noWord rfl
theorem RoundTrip.contextRemoval (g : Nat) : RoundTrip.Statement (.contextRemoval g) := noWord rfl
theorem RoundTrip.contextRemovalStepEnd (g : Nat) : RoundTrip.Statement (.contextRemovalStepEnd g) := noWord rfl
theorem RoundTrip.pmQuiesce (m : Nat) (mask : Nat) : RoundTrip.Statement (.pmQuiesce m mask) := noWord rfl
theorem RoundTrip.pmOpen (m : Nat) (mask : Nat) : RoundTrip.Statement (.pmOpen m mask) := noWord rfl
theorem RoundTrip.pmRelease (m : Nat) (mask : Nat) : RoundTrip.Statement (.pmRelease m mask) := noWord rfl
theorem RoundTrip.pmResume (m : Nat) (mask : Nat) : RoundTrip.Statement (.pmResume m mask) := noWord rfl
theorem RoundTrip.quarterQuiesced (m : Nat) (q : Nat) : RoundTrip.Statement (.quarterQuiesced m q) := noWord rfl
theorem RoundTrip.scRetry (place : Nat) (slot : Nat) : RoundTrip.Statement (.scRetry place slot) := noWord rfl
theorem RoundTrip.scSkip (place : Nat) (slot : Nat) : RoundTrip.Statement (.scSkip place slot) := noWord rfl
theorem RoundTrip.scKill (place : Nat) (slot : Nat) : RoundTrip.Statement (.scKill place slot) := noWord rfl
theorem RoundTrip.mgMigrate (m : Nat) (src : Nat) (dst : Nat) : RoundTrip.Statement (.mgMigrate m src dst) := noWord rfl
theorem RoundTrip.mgCheckpoint (m : Nat) (src : Nat) : RoundTrip.Statement (.mgCheckpoint m src) := noWord rfl
theorem RoundTrip.mgCheckpointRemove (m : Nat) (src : Nat) : RoundTrip.Statement (.mgCheckpointRemove m src) := noWord rfl
theorem RoundTrip.mgRestore (m : Nat) (src : Nat) : RoundTrip.Statement (.mgRestore m src) := noWord rfl
theorem RoundTrip.migrationStreamDone (m : Nat) : RoundTrip.Statement (.migrationStreamDone m) := noWord rfl
theorem RoundTrip.vaultDropGo (core : Nat) (pch : Nat) : RoundTrip.Statement (.vaultDropGo core pch) := noWord rfl
theorem RoundTrip.vaultGranuleMove (core : Nat) : RoundTrip.Statement (.vaultGranuleMove core) := noWord rfl
theorem RoundTrip.windowOpen (cl : Nat) (i : Nat) (d0 : Word) (d1 : Word) : RoundTrip.Statement (.windowOpen cl i d0 d1) := noWord rfl
theorem RoundTrip.windowRevoke (cl : Nat) (i : Nat) : RoundTrip.Statement (.windowRevoke cl i) := noWord rfl
theorem RoundTrip.windowClose (cl : Nat) (i : Nat) : RoundTrip.Statement (.windowClose cl i) := noWord rfl
theorem RoundTrip.windowRevokedAck (cl : Nat) (i : Nat) : RoundTrip.Statement (.windowRevokedAck cl i) := noWord rfl
theorem RoundTrip.keyWrite (m : Nat) (o : Nat) (key : BitVec 256) : RoundTrip.Statement (.keyWrite m o key) := noWord rfl
theorem RoundTrip.oldKeyExpiry (m : Nat) (o : Nat) : RoundTrip.Statement (.oldKeyExpiry m o) := noWord rfl
theorem RoundTrip.podFrameReceive (m : Nat) (port : Nat) (pk : Nat) (fecOk : Bool) : RoundTrip.Statement (.podFrameReceive m port pk fecOk) := noWord rfl
theorem RoundTrip.podPortTraining (m : Nat) (port : Nat) (lanes : Nat) : RoundTrip.Statement (.podPortTraining m port lanes) := noWord rfl
theorem RoundTrip.hostWrite (m : Nat) (f : Nat) (bar : Nat) (off : Nat) (bytes : List Byte) : RoundTrip.Statement (.hostWrite m f bar off bytes) := noWord rfl
theorem RoundTrip.hostWriteAck (m : Nat) : RoundTrip.Statement (.hostWriteAck m) := noWord rfl
theorem RoundTrip.hostRead (m : Nat) (f : Nat) (bar : Nat) (off : Nat) (n : Nat) : RoundTrip.Statement (.hostRead m f bar off n) := noWord rfl
theorem RoundTrip.mailboxCommit (m : Nat) (f : Nat) : RoundTrip.Statement (.mailboxCommit m f) := noWord rfl
theorem RoundTrip.moduleResetRequest (m : Nat) (f : Nat) : RoundTrip.Statement (.moduleResetRequest m f) := noWord rfl
theorem RoundTrip.cqHeadWrite (m : Nat) (f : Nat) (v : Word) : RoundTrip.Statement (.cqHeadWrite m f v) := noWord rfl
theorem RoundTrip.completionRecordWrite (m : Nat) (f : Nat) : RoundTrip.Statement (.completionRecordWrite m f) := noWord rfl
theorem RoundTrip.functionLevelReset (m : Nat) (f : Nat) : RoundTrip.Statement (.functionLevelReset m f) := noWord rfl
theorem RoundTrip.configRequest (m : Nat) (f : Nat) : RoundTrip.Statement (.configRequest m f) := noWord rfl
theorem RoundTrip.coldReset : RoundTrip.Statement (.coldReset) := noWord rfl
theorem RoundTrip.moduleReset (m : Nat) : RoundTrip.Statement (.moduleReset m) := noWord rfl
theorem RoundTrip.pllLockLoss (m : Nat) : RoundTrip.Statement (.pllLockLoss m) := noWord rfl
theorem RoundTrip.sensorSample (m : Nat) : RoundTrip.Statement (.sensorSample m) := noWord rfl
theorem RoundTrip.fwUpdateStart (m : Nat) : RoundTrip.Statement (.fwUpdateStart m) := noWord rfl
theorem RoundTrip.fwBankMark (m : Nat) : RoundTrip.Statement (.fwBankMark m) := noWord rfl
theorem RoundTrip.bootFallback (m : Nat) : RoundTrip.Statement (.bootFallback m) := noWord rfl
theorem RoundTrip.logEntrySelect (m : Nat) (i : Word) : RoundTrip.Statement (.logEntrySelect m i) := noWord rfl
theorem RoundTrip.attestationRequest (m : Nat) (owner : Nat) (pa : Word) : RoundTrip.Statement (.attestationRequest m owner pa) := noWord rfl
theorem RoundTrip.eventWaitTimeout (m : Nat) (id : Nat) : RoundTrip.Statement (.eventWaitTimeout m id) := noWord rfl
theorem RoundTrip.remoteEvsigArrival (m : Nat) (e : Nat) (owner : Nat) : RoundTrip.Statement (.remoteEvsigArrival m e owner) := noWord rfl
theorem RoundTrip.replayDelivery (core : Nat) : RoundTrip.Statement (.replayDelivery core) := noWord rfl
theorem RoundTrip.loadLaunch (ls : List LaunchSpec) : RoundTrip.Statement (.loadLaunch ls) := noWord rfl
theorem RoundTrip.registerWrite (m : Nat) (off : Nat) (owner : Nat) (isMc : Bool) (v : Word) : RoundTrip.Statement (.registerWrite m off owner isMc v) := noWord rfl
theorem RoundTrip.illegalInstruction (w : IWord) : RoundTrip.Statement (.illegalInstruction w) := noWord rfl
theorem RoundTrip.instructionFetchFault (va : Word) : RoundTrip.Statement (.instructionFetchFault va) := noWord rfl
theorem RoundTrip.tokenAccrual (cl : Nat) : RoundTrip.Statement (.tokenAccrual cl) := noWord rfl
theorem RoundTrip.sliceCacheRequest (pc : Nat) : RoundTrip.Statement (.sliceCacheRequest pc) := noWord rfl

end Sys2Proof.Laws
end

