-- ==== Sys2Proof/Tests/Slice0.lean ====
section
/-! SUPPORT. Tests: words of the spec decode to their instructions, ill-formed terms are refused, single steps give what the
spec's examples say, and the hypotheses of each statement are met by a concrete state. Expected values come from the spec. -/

namespace Sys2Proof.Tests

set_option Elab.async false

open Sys2Proof Sys2Proof.Machine Sys2Proof.Claims

/-! ### Words of the spec, by chapter -/

noncomputable def wordsMemory : List (IWord × Instr) :=
  [(0x03842202, .ldW 0 56 8 4 0), (0x2204A204, .ldWMx 0 2 32 9 4 0), (0x4282B184, .ldDMx 1 0 40 5 3 0), (0x07843206, .stD 1 56 8 4 0),
   (0xA2112308, .stWMx 2 2 33 2 6 0), (0x0281B29A, .amoAdd 0 40 3 1 5 0), (0x2A81B11A, .amoCas 0 40 3 1 2 0),
   (0x0F86B61C, .fill 0 56 13 12 0), (0x0386B61D, .take 0 56 13 12 1), (0x2281B29C, .watchEq 0 40 3 5 0), (0x0000001E, .fenceAcq 0 0),
   (0x0081E21E, .flush 8 3 4 0), (0x005101A0, .tdef 0 0 5 2 3 0), (0x04520020, .texp 0 5 4 0), (0x0C500020, .twait 5 0),
   (0x23A10420, .recLd 0 58 2 8 0)]

/-- R43 to R49, R146, R149, R151, R154, R158, R160, R162, R168: the words of the memory chapter. -/
theorem test_words_memory : ∀ e ∈ wordsMemory, decode e.1 = .ok e.2 := by decide

noncomputable def wordsScalar : List (IWord × Instr) :=
  [(0x0280018A, .addi 40 0 3 0), (0x4031510A, .srai 3 2 2 0), (0x0062060C, .add_ 6 4 12 0), (0x0292020C, .mul_ 9 4 4 0),
   (0x0262C18C, .div_ 6 5 3 0), (0x6001138C, .clz 2 7 0), (0x0400028E, .lui 0x4000 5 0), (0x00001290, .auipc 1 5 0),
   (0x00022212, .bfull 4 4 0), (0x00010794, .jal 16 15 0), (0x00078016, .jalr 0 15 0 0), (0x00527318, .fadd 0 5 4 7 6 0),
   (0x2A208198, .ffma 1 2 1 0 3 0), (0x68209118, .fcvtToInt 0 2 1 1 2 0), (0x0020043E, .get_ 2 8 0), (0x0022B03E, .cset 2 5 0),
   (0x0020223E, .cget 2 4 0)]

/-- R83 to R105: the words of the scalar chapter. -/
theorem test_words_scalar : ∀ e ∈ wordsScalar, decode e.1 = .ok e.2 := by decide

noncomputable def wordsTravel : List (IWord × Instr) :=
  [(0x00020022, .go 0 4 0), (0x06600022, .lug 0 0 6 0 0), (0x0C0204A2, .pget 4 9 0), (0x0E0600A2, .pput 0 12 1 0), (0x140001A2, .whereIs 3 0),
   (0x00030624, .symq 6 12 0), (0x02030024, .symw 6 0), (0x040206A4, .symtag 4 13 0), (0x000052A6, .dqn 5 0), (0x028182A8, .ringTkt 0 8 3 5 0),
   (0x04818228, .ringPut 0 8 3 4 0), (0x028182AA, .barArr 0 8 3 5 0)]

/-- R54, R117, R278, R289, R303: the words of the travel, symbol, task, ring and barrier chapters. -/
theorem test_words_travel : ∀ e ∈ wordsTravel, decode e.1 = .ok e.2 := by decide

noncomputable def wordsVector : List (IWord × Instr) :=
  [(0x1420022C, .vsub 0 2 2 0 0 4 0), (0x3020842C, .vfma 0 0 2 1 0 8 0), (0x2A5211AC, .vmul 1 1 5 4 1 3 0), (0xC033832C, .vrsq 0 7 0 6 0),
   (0x9410012C, .vcmpLt 0 2 1 0 0 2 0), (0x322084AE, .vimad 0 1 2 1 0 9 0), (0x9841822E, .vsra 1 0 4 3 0 4 0), (0xC43101AE, .vicmpEq 0 2 3 2 0 3 0),
   (0x01810030, .vld 24 2 0 0 0), (0x81818230, .vst 24 3 0 4 0), (0x208280B0, .vlds 8 5 0 1 0), (0x4E901130, .vldg 7 9 0 1 2 0),
   (0xE28302B0, .vstt 40 6 5 0), (0x00020332, .vredsum 0 4 0 6 0), (0x202081B2, .vperm 0 2 1 0 3 0), (0x3A7102B2, .vext 1 7 2 5 0),
   (0x78010232, .mpop 2 4 0), (0x10500334, .vcvt 8 0 5 0 0 6 0), (0x13708134, .vcvt 9 1 7 1 0 2 0), (0x749083B4, .vqblk 1 9 1 0 7 0)]

/-- R222, R225, R228, R232, R239: the words of the vector chapter. -/
theorem test_words_vector : ∀ e ∈ wordsVector, decode e.1 = .ok e.2 := by decide

noncomputable def wordsMatrix : List (IWord × Instr) :=
  [(0x000555B6, .mma 0 0 0 10 5 11 0), (0xC03202B6, .mma 1 1 3 4 0 5 0), (0x048141B6, .mmaT 0 0 8 2 4 3 0), (0x0A8333B6, .mmas 0 0 40 6 3 7 0),
   (0x00000538, .accZero 0 0 0 10 0), (0x04205038, .accRd 0 2 0 5 0), (0x0891C038, .accWr 0 9 3 4 0), (0x0C100038, .loftLd 0 1 0 0),
   (0x4341603A, .copy 4 3 8 2 24 0), (0x434164BA, .copyMc 4 3 8 2 25 0), (0x7648153A, .copyT 7 6 9 5 0), (0x4301623A, .reduce 4 3 0 0 2 24 0),
   (0x4371623A, .reduce 4 3 1 3 2 24 0)]

/-- R244, R248, R253: the words of the matrix chapter. -/
theorem test_words_matrix : ∀ e ∈ wordsMatrix, decode e.1 = .ok e.2 := by decide

noncomputable def wordsSystem : List (IWord × Instr) :=
  [(0x0425003C, .cancel 0 2 10 0), (0x0A02803C, .evsig 0 5 0), (0x0C02833C, .evwait 0 5 6 0), (0x0E0283BC, .vfq 0 5 7 0), (0x1003803C, .vfdone 0 7 0),
   (0x0000403E, .ecall 0), (0x0010403E, .ebreak 0), (0x0020403E, .eret 0), (0x0030403E, .halt 0), (0x0005503E, .tlbi 0 10 0), (0x0202D03E, .kill 5 0),
   (0x0002E33E, .sget 5 6 0), (0x0221E03E, .sset 2 3 0)]

/-- R311, R362: the words of the Caller and trap chapters. -/
theorem test_words_system : ∀ e ∈ wordsSystem, decode e.1 = .ok e.2 := by decide

/-- R49: the words of all zeros and all ones are illegal through their majors. -/
theorem test_words_illegal : decode 0 = .error .illegalMajor ∧ decode 0xFFFFFFFF = .error .illegalMajor := by decide

/-- R49: `lb` set where rs2 is no register source, a field that must be zero, and size 111 are not instructions. -/
theorem test_words_no_row : decode 0x40020022 = .error .noSuchMinor ∧ decode 0x03847202 = .error .noSuchMinor := by decide

/-! ### Ill-formed terms: each check of WellFormed refuses one -/

/-- Terms with a field value that their row does not list (R45, R48, R117, R220, R239, R245, R287). -/
noncomputable def illFormed : List Instr :=
  [.ldB 0 0 28 1 0, .ldB 0 0 1 31 0, .ldBMx 0 3 0 1 1 0, .amoCas 0 0 1 1 3 0, .amoCas 0 0 1 1 0 0, .pget 16 1 0, .pput 0 1 16 0, .symq 16 1 0,
   .pipeTake 24 1 0, .pipePut 16 3 0, .fadd 0 0 0 4 1 0, .fcvtToFloat 0 0 1 0 1 0, .fcvtToInt 0 1 1 0 1 0, .get_ 17 1 0, .fenceAcq 6 0, .vsub 0 3 0 0 0 0 0,
   .vmul 1 0 0 16 0 0 0, .vcmpLt 0 0 0 0 0 0 0, .vcmpLt 0 0 0 0 0 8 0, .mpop 8 1 0, .vext 0 16 0 1 0, .vcvt 5 0 5 0 0 0 0, .vcvt 8 1 5 0 0 0 0,
   .vpack 4 0 0 0, .mma 0 0 0 1 7 1 0, .mmas 0 0 0 1 1 1 0, .accRd 0 0 1 0 0, .reduce 0 0 3 0 0 0 0, .copy 0 0 0 0 0 0]

/-- All but the last, which is well formed, are refused, and so are their words. -/
theorem test_ill_formed : ∀ i ∈ illFormed.dropLast, i.wf = false ∧
    (match encode i with | some w => decode w | none => .ok i) = .error .illegalField := by
  decide

theorem test_well_formed : (Instr.copy 0 0 0 0 0 0).wf = true := by decide

/-! ### Small states -/

/-- A strand at slot 0 of core 0, and a register set. -/
noncomputable def strand0 : Strand := { Strand.reset with run := .live, pc := 0x10000, asn := 1 }
noncomputable def with_ (l : List (Nat × Word)) (x : Strand) : Strand := l.foldl (fun x e => setReg e.1 e.2 x) x

/-- Records of core 0 for a key: b40 and b56 over scratchpad at VA 0x20000, b41 and b57 over the vault at VA 0x30000, each of
64 KiB. -/
noncomputable def record (base : Nat) : BitVec 256 := BitVec.ofNat 256 (base + 0x10000 * 2 ^ 64)
noncomputable def ctx0 : GridCtx := ⟨[(40, record 0x20000), (41, record 0x30000), (56, record 0x20000), (57, record 0x30000)], [], 0, 0, []⟩
noncomputable def tlb0 : List TlbEntry := [⟨1, 1, 16, 0x10039⟩, ⟨1, 2, 16, 0x800000000039⟩, ⟨1, 3, 16, 0x100039⟩]
noncomputable def core0 (key : Nat) : Core := { Core.reset with tlb := tlb0, ctx := [(key, ctx0)] }
noncomputable def one (x : Strand) : State := { State.reset with strands := [(0, x)], cores := [(0, core0 (ctxKey x))] }

/-- The value that a step leaves in a register of the strand that issued, and another field of it. -/
noncomputable def gives (o : Out) (r : Nat) : Option Word := match o with | .next t => some (regVal t.me r) | _ => none
noncomputable def leaves {α : Type} (o : Out) (f : State → α) : Option α := match o with | .next t => some (f t) | _ => none

/-! ### Single steps, from the spec's examples -/

/-- R83: with s5 = 7 and s6 = −2, `div s3, s5, s6` writes −3; with s6 = 0 it writes all ones. -/
theorem test_div : gives (exec (.div_ 6 5 3 0) (one (with_ [(5, 7), (6, -2)] strand0))) 3 = some (-3) ∧
    gives (exec (.div_ 6 5 3 0) (one (with_ [(5, 7)] strand0))) 3 = some 0xFFFFFFFFFFFFFFFF := ⟨rfl, rfl⟩

/-- R83: `rem` of 7 by −2 is 1, and of 7 by 0 is 7. -/
theorem test_rem : gives (exec (.rem_ 6 5 3 0) (one (with_ [(5, 7), (6, -2)] strand0))) 3 = some 1 ∧
    gives (exec (.rem_ 6 5 3 0) (one (with_ [(5, 7)] strand0))) 3 = some 7 := ⟨rfl, rfl⟩

/-- R84: `sltiu sd, sa, -1` writes 1 unless a is all ones. -/
theorem test_sltiu : gives (exec (.sltiu 0xFFF 5 3 0) (one (with_ [(5, 7)] strand0))) 3 = some 1 ∧
    gives (exec (.sltiu 0xFFF 5 3 0) (one (with_ [(5, -1)] strand0))) 3 = some 0 := ⟨rfl, rfl⟩

/-- R85: `lui s5, 0x4000` writes 0x0000_0000_0400_0000. -/
theorem test_lui : gives (exec (.lui 0x4000 5 0) (one strand0)) 5 = some 0x04000000 := rfl

/-- R93: ffma.s on 0x3F80_0800 twice and 0xBF80_0000 writes 0x3A00_0400 and raises no flag. -/
theorem test_ffma : gives (exec (.ffma 0 2 1 7 3 0) (one (with_ [(1, 0x3F800800), (2, 0x3F800800), (3, 0xBF800000)] strand0))) 3
    = some 0x3A000400 ∧ leaves (exec (.ffma 0 2 1 7 3 0) (one (with_ [(1, 0x3F800800), (2, 0x3F800800), (3, 0xBF800000)] strand0)))
      (fun t => t.me.fcsr) = some 0 := ⟨rfl, rfl⟩

/-- R96: `fcvt.w.s.rtz` of −5.5 writes −5; of +inf it writes 0x7FFF_FFFF. -/
theorem test_fcvt : gives (exec (.fcvtToInt 0 2 1 1 2 0) (one (with_ [(1, 0xC0B00000)] strand0))) 2 = some (-5) ∧
    gives (exec (.fcvtToInt 0 2 1 1 2 0) (one (with_ [(1, 0x7F800000)] strand0))) 2 = some 0x7FFFFFFF := ⟨rfl, rfl⟩

/-- R2, R147: st.w of 0x11223344 to the scratchpad leaves its lowest byte lowest. -/
theorem test_store : leaves (exec (.stW 0 56 0 2 0) (one (with_ [(2, 0x11223344)] strand0))) (fun t => memRead t.mem (2 ^ 47) 5)
    = some [0x44, 0x33, 0x22, 0x11, 0] := by decide +kernel

/-- R147: ld.b extends the sign of the byte. -/
theorem test_load : gives (exec (.ldB 1 56 0 2 0) { one strand0 with mem := [(2 ^ 47 + 1, 0x80)] }) 2 = some 0xFFFFFFFFFFFFFF80 := rfl

/-- R48, R84: the machine after reset with `addi s3, s0, 40` placed runs it. -/
theorem test_first_step : gives (step (State.reset.withFetchWord 32 0x0280018A)) 3 = some 40 ∧
    leaves (step (State.reset.withFetchWord 32 0x0280018A)) (fun t => t.me.pc) = some 0x10004 := ⟨rfl, rfl⟩

/-- R49, R355: an illegal word traps with cause 0x01 and the word in sr.tval. -/
theorem test_illegal : leaves (step (State.reset.withFetchWord 32 0xFFFFFFFF)) (fun t => (t.me.cause, t.me.tval, t.me.epc))
    = some (1, 0xFFFFFFFF, 0x10000) := rfl

/-! ### The hypotheses of the statements are met -/

/-- R51: sources full, the destination awaits nothing. -/
theorem witness_decodes : Decodes true [5, 6] [3] false (one strand0) ∧ Decodes true [5] [3] false (one strand0) ∧
    Decodes true [] [31 - 16] false (one strand0) ∧ Decodes true [5, 6] [] false (one strand0) ∧ Decodes true [5, 6, 3] [3] false (one strand0) :=
  ⟨⟨rfl, rfl, rfl⟩, ⟨rfl, rfl, rfl⟩, ⟨rfl, rfl, rfl⟩, ⟨rfl, rfl, rfl⟩, ⟨rfl, rfl, rfl⟩⟩

/-- R110: s1 over entry 3 as 2·σ + 5, s2 full, s3 free. -/
noncomputable def folding : State :=
  let x := { with_ [(2, 7)] strand0 with rst := vset strand0.rst 1 (.sym 3 (.affine 2 5)) }
  modSc 0 0 (fun k => { k with syms := [(3, ⟨0, 9, 1, 0x10000, 1, 6, [], none, 0, 0⟩)] }) (one x)

theorem witness_folding : regSt folding.me 1 = .sym 3 (.affine 2 5) ∧
    (∃ e, tget (scAt folding folding.here folding.mySc).syms 3 = some e ∧ e.value = none) ∧ regSt folding.me 2 = .full ∧
    awaits folding.me 3 = false := ⟨rfl, ⟨_, rfl, rfl⟩, rfl, rfl⟩

/-- R97 to R105: sr.fcsr is settled, the strand's grid has its context, c3 is untagged; under another tag cget traps. -/
theorem witness_special : fcsrSettled (one strand0) 0 = true ∧ ctxOf (one strand0) = some ctx0 ∧ (one strand0).me.kind = .core ∧ (one strand0).me.slot < 32 ∧
    (∀ n, (vget (commit 8 n (scAt (one strand0) 0 0)).c 3 ⟨0, none⟩).tag = none) := ⟨rfl, rfl, rfl, by decide, fun _ => rfl⟩

/-- R147: an access through b56 at offset 0 reaches the scratchpad of core 0. -/
theorem witness_pad : (one strand0).Inv ∧ Decodes false [0] [5] true (one strand0) ∧ Decodes false [0, 5] [] false (one strand0) ∧
    (∀ r w, Reaches (one strand0) 56 0 8 r w 0x20000 (2 ^ 47) 0 false) ∧ Released (one strand0) (orderOf (one strand0) 0 56) ∧
    (∀ a ∈ [Acc.load, .store, .amo, .fe], Permitted (one strand0) (2 ^ 47) 8 a) ∧ InSram (one strand0) (2 ^ 47) ∧
    space (one strand0) (2 ^ 47) = .pad 0 0 ∧ OffHub (one strand0) (2 ^ 47) ∧ poisoned (one strand0) (2 ^ 47) 8 = false ∧ isCore (one strand0).me.place = true ∧
    NoWaiters (one strand0) (2 ^ 47) ∧ feEmpty (one strand0) (2 ^ 47) = false := by
  refine ⟨rfl, ⟨rfl, rfl, rfl⟩, ⟨rfl, rfl, rfl⟩, fun r w => ⟨rfl, rfl, rfl, rfl, ?_, by decide +kernel, by decide⟩, .inl (by decide +kernel), ?_, trivial, rfl, (fun m o h => by cases (show Space.pad 0 0 = Space.hub m o from h)), rfl, rfl, ?_, rfl⟩
  · cases r <;> cases w <;> decide +kernel
  · intro a h; simp only [List.mem_cons, List.not_mem_nil, or_false] at h; rcases h with rfl | rfl | rfl | rfl <;> exact ⟨rfl, rfl⟩
  · intro w h; cases h

/-- R26, R150: an access of a Caller strand through b56 reaches the SRAM of its hub. -/
noncomputable def onHub : State :=
  let x := { strand0 with kind := .caller, place := 0x40000, native := 0x40000 }
  { State.reset with
    strands := [(0, x)], cores := [(0x40000, { core0 (ctxKey x) with tlb := [⟨1, 2, 16, 0x800040000039⟩] })] }

theorem witness_hub : Decodes false [0] [5] true onHub ∧ Reaches onHub 56 0 8 true false 0x20000 0x800040000000 0 false ∧
    Released onHub (orderOf onHub 0 56) ∧ Permitted onHub 0x800040000000 8 .load ∧ InSram onHub 0x800040000000 ∧
    ¬ OffHub onHub 0x800040000000 :=
  ⟨⟨rfl, rfl, rfl⟩, ⟨rfl, rfl, rfl, rfl, by decide +kernel, by decide +kernel, by decide +kernel⟩, .inl (by decide +kernel), ⟨rfl, rfl⟩, trivial,
    fun h => h 0 0 rfl⟩

/-- R144, R154: an access through b57 reaches the vault of core 0, whose lines the L1 does not hold. -/
theorem witness_vault : (∀ r w, Reaches (one strand0) 57 0 8 r w 0x30000 0x100000 0 false) ∧ Permitted (one strand0) 0x100000 8 .load ∧
    Permitted (one strand0) 0x100000 8 .store ∧ Permitted (one strand0) 0x100000 8 .watch ∧ orderOf (one strand0) 0 57 = 0 ∧
    space (one strand0) 0x100000 = .vault 0 0x100000 ∧ vaultState (one strand0) 0 ≠ 1 ∧ l1Find (one strand0) 0 0x100000 = none ∧
    (∀ p ∈ (one strand0).stores, p.place ≠ homeOf 0x100000) ∧ (sliceAt (one strand0) (clusterOf (homeOf 0x100000))).watches = [] ∧
    (tget (one strand0).strands (one strand0).cur).isSome = true := by
  refine ⟨fun r w => ⟨rfl, rfl, rfl, rfl, ?_, by decide +kernel, by decide⟩, ⟨rfl, rfl⟩, ⟨rfl, rfl⟩, ⟨rfl, rfl⟩, rfl, rfl, by decide, rfl, ?_, rfl, rfl⟩
  · cases r <;> cases w <;> decide +kernel
  · intro p h; cases h

/-- R144, R149, R154: an access to the same address that waits alone at its slice. -/
noncomputable def waitingAcc (k : VKind) (i : Instr) (v : Word) : VAcc := ⟨k, 0, 9, 0x100000, 8, 0, true, i, v, 0, 0, false⟩
noncomputable def served (a : VAcc) : State :=
  modSlice 0 (fun l => { l with waits := [⟨2, 0, 0, 0, 0, 0x100000, 8, 0, .tokenAccrual 0, some a⟩] }) (one strand0)

noncomputable def vaultAccs : List VAcc :=
  [waitingAcc .load (.ldD 0 57 0 5 0) 0, waitingAcc .amo (.amoAdd 0 57 0 1 5 0) 3, waitingAcc .watch (.watchEq 0 57 3 5 0) 0,
   waitingAcc .watch (.watchEq 0 57 3 5 0) 7]

theorem witness_slice_serves : (∀ a ∈ vaultAccs, SliceServes (served a) 0 a ∧ (served a).Inv ∧ poisoned (served a) a.pa 8 = false ∧
      (sliceAt (served a) 0).lines = [] ∧ (sliceAt (served a) 0).wb = [] ∧ (sliceAt (served a) 0).watches = [] ∧
      tget (served a).strands a.sid = some strand0) ∧
    BitVec.ofNat 64 (leNat (sliceRead (served (waitingAcc .watch (.watchEq 0 57 3 5 0) 0)) 0x100000 8)) = (0 : Word) ∧
    BitVec.ofNat 64 (leNat (sliceRead (served (waitingAcc .watch (.watchEq 0 57 3 5 0) 7)) 0x100000 8)) ≠ (7 : Word) := by
  refine ⟨fun a h => ?_, by decide +kernel, by decide +kernel⟩
  simp only [vaultAccs, List.mem_cons, List.not_mem_nil, or_false] at h
  rcases h with rfl | rfl | rfl | rfl <;>
  · refine ⟨⟨0, 0, .tokenAccrual 0, ⟨by decide, ?_, ?_, ?_, ?_, fun e h => by cases h⟩, ?_, ?_, ?_, ?_, ?_⟩, rfl, rfl, rfl, rfl, rfl, rfl⟩ <;> decide +kernel

/-- R151 to R153: the same word empty, at the take and for a give; a take and a give that wait. -/
noncomputable def padEmpty : State := { one strand0 with empties := [2 ^ 44] }

theorem witness_fe_empty : feEmpty padEmpty (2 ^ 47) = true ∧ (coreAt padEmpty padEmpty.me.place).fe.length < 64 ∧
    translate padEmpty 0x20000 true true false = .hit (2 ^ 47) 0 false ∧ Decodes false [0] [5] true padEmpty := by
  refine ⟨?_, ?_, ?_, rfl, rfl, rfl⟩ <;> decide +kernel

noncomputable def waits (k : FEKind) (l : List Nat) : State :=
  { modCore 0 (fun c => { c with fe := [⟨0, k, 2 ^ 47, 9, 77⟩] }) (one strand0) with empties := l }

theorem witness_fe_waits : (coreAt (waits .take []) 0).fe = [⟨0, .take, 2 ^ 47, 9, 77⟩] ∧ feEmpty (waits .take []) (2 ^ 47) = false ∧
    (coreAt (waits .give [2 ^ 44]) 0).fe = [⟨0, .give, 2 ^ 47, 9, 77⟩] ∧ feEmpty (waits .give [2 ^ 44]) (2 ^ 47) = true ∧
    (waits .give [2 ^ 44]).Inv := by refine ⟨?_, ?_, ?_, ?_, rfl⟩ <;> decide +kernel

/-- R154: a watch in the table of cluster 0. -/
theorem witness_watch : let w : Watch := ⟨4, 0, 0, 0x100000, 0, 7, 5, some 90, 0, false, 0, false⟩;
    (sliceAt (modSlice 0 (fun l => { l with watches := [w] }) (one strand0)) 0).watches = [w] ∧ w.queued = false ∧ w.acq = false ∧
      w.k = 0 ∧ w.sv < 16 := by decide +kernel

/-- R158: nothing outstanding; a late result, a posted store, an engine operation of the module outstanding. -/
theorem witness_fence : (one strand0).me.vmems = 0 ∧ (one strand0).me.late = [] ∧ StoresDone (one strand0) ∧ isNative (one strand0).me = true ∧
    isNative (one { strand0 with native := 7 }).me = false ∧ StoresDone (one { strand0 with native := 7 }) ∧
    EnginesDone (one strand0).me 0 ∧ (one { strand0 with late := [⟨9, 3, 1, 0, 0, false, none⟩] }).me.late ≠ [] ∧
    ¬ StoresDone (one { strand0 with posted := 1 }) ∧ ¬ EnginesDone (one { strand0 with eng := ⟨0, 0, 0, 1, 0⟩ }).me 1 ∧
    EnginesDone (one { strand0 with eng := ⟨0, 0, 0, 1, 0⟩ }).me 2 := by
  have h : StoresDone (one strand0) := ⟨rfl, rfl, rfl, fun k h => by cases h⟩
  have g : StoresDone (one { strand0 with native := 7 }) := ⟨rfl, rfl, rfl, fun k h => by cases h⟩
  refine ⟨rfl, rfl, h, ?_, ?_, g, ?_, ?_, fun h => absurd h.1 (by decide +kernel), ?_, ?_⟩ <;> (try unfold EnginesDone) <;> decide +kernel

/-- R160: 32 bytes and no bytes at VA 0x30000. -/
theorem witness_cache : let s := one (with_ [(2, 32)] strand0);
    Decodes false [1, 2] [] false s ∧ s.me.vmems = 0 ∧ (regVal s.me 2).toNat = 32 ∧ (regVal s.me 0).toNat = 0 ∧
    recLoading s 57 = false ∧ ea s 57 0 1 = .ok (some 0x30000) ∧ leavesPage s (0x30000 : Word).toNat 32 = false ∧
    (∀ w, translate s 0x30000 true w false = .hit 0x100000 0 false) ∧ translate s 0x30000 false true false = .hit 0x100000 0 false ∧
    space s 0x100000 = .vault 0 0x100000 ∧ policyOf s 0 0 57 ≠ 2 := by
  refine ⟨⟨rfl, rfl, rfl⟩, rfl, ?_, ?_, rfl, rfl, ?_, fun w => ?_, ?_, ?_, ?_⟩ <;> try decide +kernel
  cases w <;> decide +kernel

/-- R162, R163: a tile of the grid in each state, one of another grid, an undefined one. -/
noncomputable def tiled (g : Nat) (d : Bool) (st : TileState) (f : Bool) : State :=
  modTile 0 3 (fun _ => ⟨d, 0x1000, 0x100, g, st, f, 64, 0, none, 0⟩) (one (with_ [(1, 0x20), (2, 0x40), (3, 0x100)] strand0))

theorem witness_tiles : (∀ st f, TileMine (tiled (ctxKey strand0) true st f) 3 ∧
      (tileAt (tiled (ctxKey strand0) true st f) 0 3).defined = true ∧ (tileAt (tiled (ctxKey strand0) true st f) 0 3).st = st ∧
      (tileAt (tiled (ctxKey strand0) true st f) 0 3).faulted = f ∧ (tileAt (tiled (ctxKey strand0) true st f) 0 3).ring = none) ∧
    Decodes false [1, 2] [] false (tiled (ctxKey strand0) true .empty false) ∧
    (regVal (tiled (ctxKey strand0) true .empty false).me 3).toNat = 0x100 ∧
    Decodes false [] [5] false (tiled (ctxKey strand0) true .empty false) ∧
    (tileAt (tiled 99 true .ready false) 0 3).grid ≠ ctxKey (tiled 99 true .ready false).me ∧
    (tileAt (tiled (ctxKey strand0) false .empty false) 0 3).defined = false := by
  refine ⟨fun st f => ⟨⟨.inl rfl, fun _ => rfl⟩, rfl, rfl, rfl, rfl⟩, ⟨rfl, rfl, rfl⟩, ?_, ⟨rfl, rfl, rfl⟩, ?_, rfl⟩ <;> decide +kernel

/-- R168: a record through b56, 32 bytes of scratchpad; number 55 is below those that rec.ld sets. -/
theorem witness_records : (isCore (one strand0).me.place = true ∨ isHub (one strand0).me.place = true) ∧
    Decodes false [0] [] true (one strand0) ∧ Decodes false [0] [] false (one strand0) ∧
    (∀ r w, Reaches (one strand0) 56 0 32 r w 0x20000 (2 ^ 47) 0 false) ∧ Permitted (one strand0) (2 ^ 47) 32 .load ∧
    Permitted (one strand0) (2 ^ 47) 32 .store ∧ InSram (one strand0) (2 ^ 47) ∧ poisoned (one strand0) (2 ^ 47) 32 = false ∧
    ctxOf (one strand0) = some ctx0 ∧ recAt (one strand0) 40 = .ok (record 0x20000) ∧ (one strand0).Inv := by
  refine ⟨.inl rfl, ⟨rfl, rfl, rfl⟩, ⟨rfl, rfl, rfl⟩, fun r w => ⟨rfl, rfl, rfl, rfl, ?_, by decide +kernel, by decide⟩, ⟨rfl, rfl⟩, ⟨rfl, rfl⟩,
    trivial, rfl, rfl, rfl, rfl⟩
  cases r <;> cases w <;> decide +kernel

/-- R34, R55, R60: a strand that may depart, to core 5, from its native core 0 and from core 7; one that may not. -/
theorem witness_going : let s := one (with_ [(1, 5), (2, 2 ^ 21)] strand0);
    let h := one { strand0 with native := 7 };
    isMc s.me.place = false ∧ canDepart s s.cur = true ∧ Decodes false [1] [] false s ∧ (regVal s.me 1).toNat = 5 ∧ 5 ≠ s.me.place ∧
    (regVal s.me 0).toNat = s.me.place ∧ (regVal s.me 2).toNat = 2 ^ 21 ∧ LuggageFree s 5 ∧ Numbered s ∧ meetOf s s.cur = none ∧
    isNative s.me = true ∧ isNative h.me = false ∧ canDepart h h.cur = true ∧ LuggageFree h h.me.native ∧ Numbered h ∧
    canDepart (one { strand0 with posted := 1 }) 0 = false := by
  refine ⟨rfl, rfl, ⟨rfl, rfl, rfl⟩, ?_, ?_, ?_, ?_, rfl, rfl, rfl, rfl, rfl, rfl, rfl, rfl, rfl⟩ <;> decide +kernel

/-- R60, R65: b57's VA 0x30000 with its page on core 1, and on core 0. -/
noncomputable def remote (st : Word) (p : Nat) : State := { one { strand0 with status := st, posted := p } with
  cores := [(0, { core0 (ctxKey strand0) with tlb := [⟨1, 3, 16, 0x80100039⟩] })] }

theorem witness_remote : ∀ st p, Decodes false [0] [5] true (remote st p) ∧ (remote st p).me.vmems = 0 ∧ (remote st p).me.carried = none ∧
    (remote st p).me.kind = .core ∧ recLoading (remote st p) 57 = false ∧ ea (remote st p) 57 0 8 = .ok (some 0x30000) ∧
    ea (remote st p) 57 0 1 = .ok (some 0x30000) ∧ orderOf (remote st p) 0 57 = 0 ∧ LuggageFree (remote st p) 1 ∧ Numbered (remote st p) ∧
    meetOf (remote st p) (remote st p).cur = none := fun _ _ => ⟨⟨rfl, rfl, rfl⟩, rfl, rfl, rfl, rfl, rfl, rfl, rfl, rfl, rfl, rfl⟩

theorem witness_automatic : translate (remote 1 0) 0x30000 true false false = .hit 0x80100000 0 false ∧ homeOf 0x80100000 = 1 ∧
    (remote 1 0).me.status.getLsbD 0 = true ∧ (remote 0 0).me.status.getLsbD 0 = false ∧ canDepart (remote 1 0) 0 = true ∧
    canDepart (remote 1 1) 0 = false ∧ translate (one strand0) 0x30000 true false false = .hit 0x100000 0 false ∧
    homeOf 0x100000 = (one strand0).me.place := by decide +kernel

/-- R65, R147 to R154: one form of each kind of access, which finds the page elsewhere; the strand may and may not depart. -/
noncomputable def accessForms : List AccessForm :=
  [⟨.ldD 0 57 0 5 0, 57, 0, 0, 8, true, false, [0], [5], true, 0, 0, false⟩, ⟨.ldDMx 0 0 57 0 5 0, 57, 0, 0, 8, true, false, [0], [5], true, 0, 0, false⟩,
   ⟨.stD 0 57 0 5 0, 57, 0, 0, 8, false, true, [0, 5], [], false, 0, 0, false⟩, ⟨.stDMx 0 0 57 0 5 0, 57, 0, 0, 8, false, true, [0, 5], [], false, 0, 0, false⟩,
   ⟨.amoAdd 0 57 0 1 5 0, 57, 0, 0, 8, true, true, [0, 5], [5], true, 0, 0, false⟩, ⟨.amoFaddS 0 57 0 5 0, 57, 0, 0, 4, true, true, [0, 5], [5], true, 0, 0, false⟩,
   ⟨.amoCas 0 57 0 1 5 0, 57, 0, 0, 8, true, true, [0, 5, 6], [5], true, 0, 0, false⟩, ⟨.take 0 57 0 5 0, 57, 0, 0, 8, true, true, [0], [5], true, 0, 0, true⟩,
   ⟨.give 0 57 0 5 0, 57, 0, 0, 8, true, true, [0, 5], [], false, 0, 0, true⟩, ⟨.femark 0 57 0 0, 57, 0, 0, 8, true, true, [0], [], false, 0, 0, true⟩,
   ⟨.watchEq 0 57 0 5 0, 57, 0, 0, 8, true, false, [0, 5], [5], false, 0, 0, true⟩]

theorem witness_access_forms : ∀ f ∈ accessForms, IsAccess f := by
  intro f h
  simp only [accessForms, List.mem_cons, List.not_mem_nil, or_false] at h
  rcases h with rfl | rfl | rfl | rfl | rfl | rfl | rfl | rfl | rfl | rfl | rfl
  · exact .inl ⟨.ldD, 8, true, by simp [loads], 0, 57, 0, 5, 0, rfl⟩
  · exact .inr (.inl ⟨.ldDMx, 8, true, by simp [loadsMx], 0, 0, 57, 0, 5, 0, rfl⟩)
  · exact .inr (.inr (.inl ⟨.stD, 8, by simp [stores], 0, 57, 0, 5, 0, rfl⟩))
  · exact .inr (.inr (.inr (.inl ⟨.stDMx, 8, by simp [storesMx], 0, 0, 57, 0, 5, 0, rfl⟩)))
  · exact .inr (.inr (.inr (.inr (.inl ⟨.amoAdd, _, List.mem_cons_self .., 0, 57, 0, 1, 5, 0, rfl⟩))))
  · exact .inr (.inr (.inr (.inr (.inr (.inl ⟨0, 57, 0, 5, 0, rfl⟩)))))
  · exact .inr (.inr (.inr (.inr (.inr (.inr (.inl ⟨0, 57, 0, 1, 5, 6, 0, rfl, rfl⟩))))))
  · exact .inr (.inr (.inr (.inr (.inr (.inr (.inr (.inl ⟨.take, true, List.mem_cons_self .., 0, 57, 0, 5, 0, rfl⟩)))))))
  · exact .inr (.inr (.inr (.inr (.inr (.inr (.inr (.inr (.inl ⟨.give, List.mem_cons_self .., 0, 57, 0, 5, 0, rfl⟩))))))))
  · exact .inr (.inr (.inr (.inr (.inr (.inr (.inr (.inr (.inr (.inl ⟨.femark, List.mem_cons_self .., 0, 57, 0, 0, rfl⟩)))))))))
  · exact .inr (.inr (.inr (.inr (.inr (.inr (.inr (.inr (.inr (.inr ⟨.watchEq, _, List.mem_cons_self .., 0, 57, 0, 5, 0, rfl⟩)))))))))

theorem witness_access_remote : (∀ f ∈ accessForms, ∀ st p, isCore (remote st p).me.place = true ∧ Decodes false f.srcs f.dsts f.late (remote st p) ∧
      ea (remote st p) f.n (regVal (remote st p).me f.x.toNat + f.off) f.size = .ok (some 0x30000) ∧ orderOf (remote st p) f.o f.n = 0) ∧
    ∀ s ∈ [remote 1 0, remote 1 1, remote 0 0], ∀ e ∈ [(true, false), (false, true), (true, true)],
      translate s 0x30000 e.1 e.2 false = .hit 0x80100000 0 false := by
  refine ⟨fun f h st p => ?_, by decide +kernel⟩
  simp only [accessForms, List.mem_cons, List.not_mem_nil, or_false] at h
  rcases h with rfl | rfl | rfl | rfl | rfl | rfl | rfl | rfl | rfl | rfl | rfl <;>
  · refine ⟨rfl, ⟨rfl, rfl, rfl⟩, ?_, rfl⟩
    show ea (remote st p) 57 (regVal (remote st p).me 0 + 0) _ = _
    rw [show regVal (remote st p).me 0 + 0 = 0 from show (0 : Word) + 0 = 0 by decide]; rfl

/-- R57: luggage of 4,096 and of no bytes, an offset and a length past what lug takes. -/
theorem witness_luggage : let s := one (with_ [(1, 0x1000), (2, 4096), (3, 0x400000), (4, 4097)] strand0);
    isMc s.me.place = false ∧ isHub s.me.place = false ∧ Decodes false [1, 2] [] false s ∧ Decodes false [3, 2] [] false s ∧
    Decodes false [1, 4] [] false s ∧ (regVal s.me 1).toNat + (regVal s.me 2).toNat ≤ 0x400000 ∧ 0x400000 ≤ (regVal s.me 3).toNat ∧
    4096 < (regVal s.me 4).toNat := by
  refine ⟨rfl, rfl, ⟨rfl, rfl, rfl⟩, ⟨rfl, rfl, rfl⟩, ⟨rfl, rfl, rfl⟩, ?_, ?_, ?_⟩ <;> decide +kernel

/-- R62: a packet with four bytes of luggage, to a guest slot of core 5 and back to its native slot. -/
noncomputable def packet (src dest : Nat) (t : Trip) : Packet :=
  { sid := 0, src := src, dest := dest, pref := none, trip := t, cls := 0, luggage := [1, 2, 3, 4], bad := [], epoch := false, win := false,
    truncated := false, k := 0, taken := none }
noncomputable def flying (src dest : Nat) (t : Trip) : State :=
  { one { strand0 with away := true, place := src } with packets := [(7, packet src dest t)], now := 50, fresh := 8 }

theorem witness_arrival : ∀ d ∈ [0, 5], let s := flying 3 d .travel;
    s.Inv ∧ tget s.packets 7 = some (packet 3 d .travel) ∧ (strandAt s 0).partner = none ∧ (isCore d && migrating s d) = false ∧
    (coreAt s d).fw = none ∧ arrivalKill 0 { s with packets := tdel s.packets 7 } = none ∧
    (coreAt s d).inFree ≤ s.now ∧ (d ≠ 0 → freeGuest s d none = some 6) := by
  intro d h; simp only [List.mem_cons, List.not_mem_nil, or_false] at h
  rcases h with rfl | rfl <;> exact ⟨rfl, rfl, rfl, rfl, rfl, rfl, by decide +kernel, by decide +kernel⟩

/-- R70 to R72: a strand alone that may meet; two strands whose entry pairs, waits, is met. -/
noncomputable def pairOf (st : MeetState) (b : Option Nat) : State :=
  let m (d : Nat) : Option MeetOp := some ⟨d, 2 ^ 62, 0, [], 0, none⟩
  { one { strand0 with meetOp := m 3, park := some .meet } with
    strands := [(0, { strand0 with meetOp := m 3, park := some .meet }), (1, { strand0 with nslot := 1, slot := 1, meetOp := m 4, park := some .meet })]
    cores := [(0, { core0 0 with meets := [⟨2, 0, 2 ^ 62, st, some 0, b, none⟩] })] }

theorem witness_meeting : let a := one (with_ [(1, 0x4000000000000000)] strand0);
    let p := pairOf .pairing (some 1);
    let q := pairOf .met (some 1);
    (isMc a.me.place = false ∧ canDepart a a.cur = true ∧ Decodes false [1, 0] [3] false a ∧ meetOf a a.cur = none ∧ 0 = a.me.place ∧
      regVal a.me 1 = BitVec.ofNat 64 (2 ^ 62 + 0 * 2 ^ 40)) ∧
    ((coreAt p 0).meets = [⟨2, 0, 2 ^ 62, .pairing, some 0, some 1, none⟩] ∧ (strandAt p 0).meetOp = some ⟨3, 2 ^ 62, 0, [], 0, none⟩ ∧
      (strandAt p 1).meetOp = some ⟨4, 2 ^ 62, 0, [], 0, none⟩ ∧ (strandAt p 0).partner = none ∧ (strandAt p 1).partner = none) ∧
    ((coreAt (pairOf .waiting none) 0).meets = [⟨2, 0, 2 ^ 62, .waiting, some 0, none, none⟩] ∧ (pairOf .waiting none).agenda = []) ∧
    (isMc q.me.place = false ∧ meetOf q q.cur = some ⟨2, 0, 2 ^ 62, .met, some 0, some 1, none⟩ ∧ (coreAt q q.me.place).reads = [] ∧
      partnerOf q q.cur = some 1 ∧ isFull (strandAt q 1) 5 = true ∧ regSt (strandAt q 1) 5 = .full ∧ Decodes false [] [3] true q ∧
      Decodes false [3] [] false q ∧ Decodes false [3] [3] false q ∧ Decodes false [] [3] false q) ∧
    partnerOf a a.cur = none ∧ Decodes false [] [3] true a ∧ Decodes false [3] [] false a ∧ Decodes false [3] [3] false a ∧
    Decodes false [] [3] false a := by
  refine ⟨⟨rfl, rfl, ⟨rfl, rfl, rfl⟩, rfl, rfl, by decide +kernel⟩, ⟨?_, ?_, ?_, rfl, rfl⟩, ⟨?_, rfl⟩,
    ⟨rfl, ?_, rfl, rfl, rfl, rfl, ⟨rfl, rfl, rfl⟩, ⟨rfl, rfl, rfl⟩, ⟨rfl, rfl, rfl⟩, ⟨rfl, rfl, rfl⟩⟩, rfl, ⟨rfl, rfl, rfl⟩, ⟨rfl, rfl, rfl⟩, ⟨rfl, rfl, rfl⟩, ⟨rfl, rfl, rfl⟩⟩ <;> decide +kernel

/-- R70 to R72: a strand alone whose meeting core is another; one that arrives at a table, with what its status says then. -/
noncomputable def arriving (l : List MeetEntry) (v : Option Nat) : State :=
  { one { strand0 with grid := some 0 } with
    strands := [(1, { strand0 with grid := some 0, nslot := 1, slot := 1, meetOp := some ⟨4, 2 ^ 62, 5, [], 0, v⟩, park := some .meet })]
    cores := [(0, { core0 0 with meets := l })] }

theorem witness_meet_arrival : (let a := one (with_ [(1, 0x4000050000000000)] strand0);
      regVal a.me 1 = BitVec.ofNat 64 (2 ^ 62 + 5 * 2 ^ 40) ∧ 5 ≠ a.me.place ∧ LuggageFree a 5 ∧ Numbered a) ∧
    (∀ l v, (strandAt (arriving l v) 1).park = some .meet ∧ (strandAt (arriving l v) 1).away = false ∧
      (strandAt (arriving l v) 1).partner = none ∧ (strandAt (arriving l v) 1).meetOp = some ⟨4, 2 ^ 62, 5, [], 0, v⟩ ∧
      (coreAt (arriving l v) 0).meets = l) ∧
    (∀ l ∈ [[], [⟨2, 0, 2 ^ 62, .waiting, some 0, none, none⟩], [⟨2, 0, 2 ^ 62, .lost, some 0, none, none⟩],
        List.replicate 16 (⟨2, 9, 2 ^ 62, .waiting, some 0, none, none⟩ : MeetEntry)], meetOf (arriving l none) 1 = none) ∧
    (∀ e ∈ List.replicate 16 (⟨2, 9, 2 ^ 62, .waiting, some 0, none, none⟩ : MeetEntry), e.group ≠ 0 ∨ e.key ≠ 2 ^ 62) := by
  refine ⟨⟨?_, ?_, rfl, rfl⟩, fun _ _ => ⟨rfl, rfl, rfl, rfl, rfl⟩, ?_, ?_⟩ <;> decide +kernel

/-- R73: a partner whose register is full, empty, awaiting and symbolic. -/
noncomputable def partnered (st : RegState) : State := modStrand 1 (fun x => { x with rst := vset x.rst 5 st }) (pairOf .met (some 1))

theorem witness_partner : ∀ st ∈ [RegState.full, .empty, .await 9, .sym 3 .tagged], let s := partnered st;
    isMc s.me.place = false ∧ partnerOf s s.cur = some 1 ∧ 1 ≠ s.cur ∧ (strandAt s 1).partner = none ∧
    isFull (strandAt s 1) 5 = decide (st = .full) ∧ awaits (strandAt s 1) 5 = decide (st = .await 9 ∨ st = .sym 3 .tagged) ∧
    symbolic (strandAt s 1) 5 = decide (st = .sym 3 .tagged) := by decide +kernel

/-- R117 to R120: a full register, one over a symbol, one that awaits a result. -/
theorem witness_symbols : (regSt folding.me 2 = .full ∧ Decodes false [] [5] false folding ∧ regSt folding.me 1 = .sym 3 (.affine 2 5) ∧
      (∃ y, tget (scAt folding folding.me.place (folding.me.slot / 8)).syms 3 = some y ∧ y.steps.length ≤ 4) ∧ symbolic folding.me 1 = true ∧
      symbolic folding.me 2 = false ∧ awaits folding.me 2 = false) ∧
    (let s := one { strand0 with rst := vset strand0.rst 1 (.await 9), late := [⟨9, 1, 2, 0x10000, 0, false, none⟩] };
      regSt s.me 1 = .await 9 ∧ Decodes false [] [5] false s ∧
        s.me.late.find? (fun l => decide (l.tag = 9)) = some ⟨9, 1, 2, 0x10000, 0, false, none⟩) :=
  ⟨⟨rfl, ⟨rfl, rfl, rfl⟩, rfl, ⟨_, rfl, by decide⟩, rfl, rfl, rfl⟩, rfl, ⟨rfl, rfl, rfl⟩, rfl⟩

/-- R26, R30, R34: a strand that awaits one result, in its slot and away; a posted store. -/
theorem witness_late : ∀ aw, let x := { strand0 with away := aw, rst := vset strand0.rst 1 (.await 9), late := [⟨9, 1, 1, 0, 0, false, none⟩] };
    x.late = [⟨9, 1, 1, 0, 0, false, none⟩] ∧ regSt x 1 = .await 9 ∧ tget (one x).strands 0 = some x ∧ x.partner = none ∧ x.place = 0 :=
  fun _ => ⟨rfl, rfl, rfl, rfl, rfl⟩

theorem witness_posted : StandsAt (one strand0) 0 0 strand0 ∧ (let p : PStore := ⟨5, 0, 0, 0x100000, [1, 2], 2, []⟩;
    let s := { one strand0 with stores := [p] };
    s.Inv ∧ s.stores = [p] ∧ p.place = homeOf p.pa ∧ vaultState s p.place ≠ 1 ∧ p.policy = 2 ∧ 0 < p.bytes.length ∧ p.pa % 32 + p.bytes.length ≤ 32 ∧ sliceAt s (clusterOf (homeOf p.pa)) = Slice.reset) :=
  ⟨⟨rfl, rfl, rfl, rfl⟩, rfl, rfl, rfl, by decide +kernel, rfl, by decide, by decide, rfl⟩

/-- R113: an entry that resolves to 6, its register over it. -/
noncomputable def resolving : State := modSc 0 0 (fun k => { k with syms := [(3, ⟨0, 9, 1, 0x10000, 1, 6, [], some 6, 4, 4⟩)] })
      { one { strand0 with rst := vset strand0.rst 1 (.sym 3 (.affine 2 5)) } with now := 4 }

theorem witness_resolution : let s := resolving;
    (∃ y, tget (scAt s 0 0).syms 3 = some y ∧ y.value = some 6 ∧ y.steps = [] ∧ y.ends ≤ s.now ∧
      ∃ x, tget s.strands y.sid = some x ∧ regSt x 1 = .sym 3 (.affine 2 5)) := ⟨_, rfl, rfl, rfl, by decide, _, rfl, rfl⟩

/-- R29, R31: strands parked for registers, for the park bit, in a release fence. -/
theorem witness_waking : (∃ r ∈ [1, 2], regSt strand0 r = .full) ∧ (∀ r ∈ [1], regSt { strand0 with rst := vset strand0.rst 1 .empty } r ≠ .full) ∧
    settled (one { strand0 with park := some .kbit }) 0 = true ∧ settled (one { strand0 with park := some .kbit, posted := 1 }) 0 = false ∧
    fenceHolds (one strand0) 0 1 0 = true ∧ fenceHolds (one { strand0 with native := 7 }) 0 1 0 = true ∧
    isNative { strand0 with native := 7 } = false ∧ isNative strand0 = true := by decide +kernel

/-- R33, R67: a guest without partner, its packets home. -/
theorem witness_eviction : (let x := { strand0 with native := 7, slot := 6 };
      let s := one x;
      tget s.strands 0 = some x ∧ x.away = false ∧ x.park = none ∧ isNative x = false ∧ meetOf s 0 = none ∧ tget s.packets s.fresh = none ∧
      hopsOf s x.place x.native = []) ∧
    (let s := flying 3 0 .evicted;
      tget s.packets 7 = some (packet 3 0 .evicted) ∧ (strandAt s 0).partner = none ∧ (strandAt s 0).meetOp = none ∧
      (isCore 0 && migrating s 0) = false ∧ (coreAt s 0).fw = none ∧ arrivalKill 0 { s with packets := tdel s.packets 7 } = none ∧
      (coreAt s 0).inFree ≤ s.now) ∧
    (∃ h l, hopsOf (ctlPut 0 0x190008 0x80 (one strand0)) 0 1024 = h :: l) :=
  ⟨⟨rfl, rfl, rfl, rfl, rfl, rfl, rfl⟩, ⟨rfl, rfl, rfl, rfl, rfl, rfl, by decide +kernel⟩, _, _, rfl⟩

noncomputable def grid0 : Grid :=
  { owner := 0, asn := 1, root := 0, caller := 0, callerSc := 0, stream := 0, order := 0, recPa := 0x10000, entries := [0x10000], gdim := 1,
    strands := 1, paired := false, pclass := 0, fpol := 0, quarters := 1, modules := [0], tvec := 0x20000, tdeleg := 0, args := [],
    rbuf := 0, rbufSize := 0, cev := 0, gang := 0, blocks := 1, pipes := [], places := [], images := [], kinds := 0, lspad := 0,
    lvault := 0, state := 1, reason := 0, faults := 0, done := 0, ends := 0, started := 0, cancelled := false, killed := false,
    trunc := false, killMode := false, held := [], asking := [], stopped := [], accepted := [], removal := none, firstFault := [],
    causes := [], startedIv := [], doneBy := [], faultedBy := [], seen := [], redNotes := [], used := [] }

theorem witness_boundary : (let s := flying 0 5 .travel;
      tget s.packets 7 = some (packet 0 5 .travel) ∧ (strandAt s 0).partner = none ∧ (strandAt s 0).carried = none) ∧
    (let t := Trip.stopped 5 0x10000;
      let s := { flying 3 0 t with grids := [(1, grid0)], strands := [(0, { strand0 with grid := some 1, away := true, place := 3 })] };
      tget s.packets 7 = some (packet 3 0 t) ∧ (strandAt s 0).kind = .core ∧ (isCore 0 && migrating s 0) = false ∧ (coreAt s 0).fw = none ∧
      arrivalKill 0 { s with packets := tdel s.packets 7 } = none ∧ (coreAt s 0).inFree ≤ s.now ∧ (strandAt s 0).grid = some 1 ∧ tget s.grids 1 = some grid0 ∧
      grid0.tvec ≠ 0 ∧ grid0.tdeleg.getLsbD 10 = false) := ⟨⟨rfl, rfl, rfl⟩, rfl, rfl, rfl, rfl, rfl, by decide +kernel, rfl, rfl, by decide, by decide⟩

/-- R171 to R173: a slice with one miss, one with a line to write back, an idle one. -/
theorem witness_slice : (let s := modSlice 0 (fun l => { l with miss := [⟨8, 3, 1, 7, 0, false, 0, 0⟩] }) (one strand0);
      (sliceAt s 0).miss = [⟨8, 3, 1, 7, 0, false, 0, 0⟩] ∧ (sliceAt s 0).wb = [] ∧ (sliceAt s 0).lines = []) ∧
    (let s := modSlice 0 (fun l => { l with wb := [⟨8, 7, 1, 1, 0, false⟩] }) (one strand0);
      s.Inv ∧ (sliceAt s 0).wb = [⟨8, 7, 1, 1, 0, false⟩]) ∧ (sliceAt (one strand0) 0).waits = [] :=
  ⟨⟨rfl, rfl, rfl⟩, ⟨rfl, rfl⟩, rfl⟩

/-- R134, R135: a walk over a table that has no leaf for its VA, and over one with a leaf of 64 KiB; a cached entry. -/
noncomputable def walk0 (level table : Nat) : Walk := ⟨2, 1, 0x100000, 0x20000, [0], true, level, table, false⟩
noncomputable def walking (level table : Nat) (l : List Host.Cell) : State :=
  { modSlice 0 (fun c => { c with walks := [walk0 level table] })
      (one { strand0 with root := 0x100000, park := some (.translation 0x20000) }) with mem := l }

theorem witness_translation : (∀ v t l, (sliceAt (walking v t l) 0).walks = [walk0 v t] ∧ (walk0 v t).stale = false ∧ (walk0 v t).waiters = [0] ∧
      ∃ x, tget (walking v t l).strands 0 = some x ∧ x.away = false ∧ x.park = some (.translation 0x20000)) ∧
    walkEntry 4 (leNat (sliceRead (walking 4 0x100000 []) (entryAt 0x100000 0x20000 4) 8)) = .bad ∧
    walkEntry 4 (leNat (sliceRead (walking 4 0x100000 [(0x100000, 1), (0x100002, 0x20)]) (entryAt 0x100000 0x20000 4) 8)) = .table 0x200000 ∧
    walkEntry 1 (leNat (sliceRead (walking 1 0x400000 [(0x400010, 0xB9), (0x400012, 0x10)]) (entryAt 0x400000 0x20000 1) 8)) =
      .leaf 0x1000B9 16 ∧
    (∃ e, tlbFind (sliceAt (modSlice (tlbCluster 0) (fun c => { c with tlb := tlb0 }) (one strand0)) (tlbCluster 0)).tlb 1 0x20000 = some e) :=
  ⟨fun _ _ _ => ⟨rfl, rfl, rfl, _, rfl, rfl, rfl⟩, by decide +kernel, by decide +kernel, by decide +kernel, _, rfl⟩

/-! ### Notices, replay, traps, control, tasks, rings, barriers -/

noncomputable def block0 : Block := ⟨1, 0, 0, [0], .running, false, false, 0, 0⟩

theorem witness_notice : (let n : Notice := ⟨11, hubOf 0, 1, 0, 3, 0⟩;
      n.word.getLsbD 0 = true ∧ (scAt (one strand0) n.place n.sc).q11.length < 64 ∧
      64 ≤ (scAt (modSc n.place 1 (fun k => { k with q11 := List.replicate 64 0 }) (one strand0)) n.place n.sc).q11.length ∧
      heldAtHub (modHub 0 (fun h => { h with heldNotices := [(5, n)] }) (one strand0)) 5 = some (0, n)) ∧
    (let s := { one strand0 with blocks := [(3, block0)] };
      isHub 0 = false ∧ tget s.blocks 3 = some block0 ∧ block0.st ≠ .ended ∧ (coreAt s 0).fw = none ∧ (coreAt s 0).q9.length < 32) ∧
    isHub (hubOf 0) = true ∧ (coreAt (one strand0) (hubOf 0)).q9.length < 32 := by decide +kernel

/-- A strand of grid 1, whose handler and delegation are as given; a strand of a Caller of an owner. -/
noncomputable def trapping (v d : Word) : State :=
  { one { strand0 with grid := some 1 } with grids := [(1, { grid0 with tvec := v, tdeleg := d })] }
noncomputable def caller (owner : Nat) (l : List (Nat × Word)) : State :=
  one (with_ l { strand0 with kind := .caller, native := hubOf 0, place := hubOf 0, owner := owner })

theorem witness_trap : (∀ v d, (trapping v d).me.kind = .core ∧ (trapping v d).me.grid = some 1 ∧
      tget (trapping v d).grids 1 = some { grid0 with tvec := v, tdeleg := d }) ∧
    (0x20000 : Word) ≠ 0 ∧ (∀ c ∈ [1, 16, 17, 22], (0 : Word).getLsbD c = false ∧ (0x430002 : Word).getLsbD c = true) ∧
    (caller 0 []).me.kind ≠ .core ∧ (one strand0).me.epc.toNat % 4 = 0 ∧ (one { strand0 with epc := 6 }).me.epc.toNat % 4 ≠ 0 ∧
    tget (one strand0).strands 0 = some strand0 ∧ (caller 1 []).me.kind = .caller ∧ (caller 1 []).me.owner ≠ 0 :=
  ⟨fun _ _ => ⟨rfl, rfl, rfl⟩, by decide, by decide, by decide, by decide, by decide, rfl, rfl, by decide⟩

/-- R337: the pod table's entry 3 and the module's window 0 are control addresses of module 0; owner 5 may write neither. -/
theorem witness_control : (caller 0 [(1, 0x190018)]).me.kind ≠ .core ∧ Decodes false [1] [3] true (caller 0 [(1, 0x190018)]) ∧
    Decodes false [1, 2] [] false (caller 0 [(1, 0x190018), (2, 0x80)]) ∧
    Control (caller 0 [(1, 0x190018)]) 0x190018 0 0x190018 ∧ 0 = moduleOf (caller 0 []).me.place ∧
    mayWrite (caller 5 [(1, 0x190018)]) 0 0x190018 (caller 5 []).me.owner false = false ∧ writerOf 0x190018 ≠ some .nobody ∧
    (0x80 : Word) &&& 0xFFFFFFFFFFFFFF40 = 0 ∧ (0x40 : Word) &&& 0xFFFFFFFFFFFFFF40 ≠ 0 := by
  refine ⟨show Kind.caller ≠ .core by decide, ⟨rfl, rfl, rfl⟩, ⟨rfl, rfl, rfl⟩, ⟨?_, ?_, ?_, ?_, ?_, ?_⟩, ?_, ?_, ?_, ?_, ?_⟩ <;> decide +kernel

/-- R366: a strand of a core in its slot, on its way, idle, held, and a Caller's strand that names its number. -/
noncomputable def victim (o : Nat) (r : RunState) (aw : Bool) : State :=
  { caller o [(1, 32)] with
    cur := 32 * hubOf 0
    strands := [(32, { strand0 with native := 1, place := 1, run := r, away := aw, owner := 3 }), (32 * hubOf 0, (caller o [(1, 32)]).me)] }

theorem witness_kill : (∀ o r aw, (victim o r aw).me.kind = .caller ∧ Decodes false [1] [] false (victim o r aw) ∧
      (rv (victim o r aw) 1).toNat < 2 ^ 23 ∧ (rv (victim o r aw) 1).toNat ≠ (victim o r aw).cur ∧
      tget (victim o r aw).strands (rv (victim o r aw) 1).toNat =
        some { strand0 with native := 1, place := 1, run := r, away := aw, owner := 3 }) ∧
    (∀ r, AtHome (victim 0 r false) 32 { strand0 with native := 1, place := 1, run := r, owner := 3 } ∧
      holder (victim 0 r false) 1 0 = some 32) ∧
    tget (caller 0 [(1, 32)]).strands 32 = none ∧ tget (caller 0 [(1, 32)]).store 32 = none ∧
    (∃ p, tget (flying 0 5 .travel).packets 7 = some p) := by
  refine ⟨fun o r aw => ⟨rfl, ⟨rfl, rfl, rfl⟩, ?_, ?_, rfl⟩, fun r => ⟨⟨rfl, rfl, rfl, rfl, rfl, rfl, rfl, rfl⟩, by cases r <;> decide +kernel⟩, rfl, rfl, _, rfl⟩
  · change (32 : Word).toNat < 2 ^ 23; decide
  · change (32 : Word).toNat ≠ 32 * hubOf 0; decide

theorem witness_shot : (let s := caller 0 [(1, 0x20000), (2, 1)];
      (s.me.kind = .caller ∧ s.me.owner = 0) ∧ Decodes false [1, 2] [] false s ∧ (rv s 2).toNat < 2 ^ 21 ∧ (rv s 2).toNat % 4096 = 1 ∧
      (rv s 1).toNat = 0x20000 ∧ 0x20000 < 2 ^ 56 ∧ 0x20000 % 65536 = 0) ∧
    (let s := caller 0 [(1, 2 ^ 62), (2, 2 ^ 20)]; (rv s 1).toNat = 2 ^ 62 ∧ (rv s 2).toNat < 2 ^ 21) ∧
    3 ≤ (rv (caller 0 [(1, 3 * 2 ^ 62)]) 1).toNat / 2 ^ 62 ∧ 2 ^ 21 ≤ (rv (caller 0 [(1, 2 ^ 21)]) 1).toNat ∧
    (let x : Tlbi := ⟨0, [0], true, none, none⟩;
      let s := { one { strand0 with park := some (.tlbi 4 0) } with tlbis := [(4, x)] };
      tget s.tlbis 4 = some x ∧ oldClear s x.cores = true ∧ oldClear { one { strand0 with carried := some ⟨0, 0, 0, 0, false, true, false, true⟩ } with
        packets := [(7, { packet 0 5 .travel with epoch := true })] } x.cores = false) := by
  refine ⟨⟨⟨rfl, rfl⟩, ⟨rfl, rfl, rfl⟩, ?_, ?_, ?_, ?_, ?_⟩, ⟨?_, ?_⟩, ?_, ?_, rfl, ?_, ?_⟩ <;> decide +kernel

/-- R270: a counter in the scratchpad through b56, a count that has and one that has not gone down, deques with room and full. -/
noncomputable def tasked (l : TaskLink) (q : List DqPlace) (m : List Host.Cell) : State :=
  { modCore 0 (fun c => { c with deque := q }) (one { strand0 with link := l }) with mem := m }

theorem witness_counter : ∀ l q m, CounterHere (tasked l q m) 24 0 0x20000 (2 ^ 47) := fun l q m =>
  ⟨0, false, 0, ⟨rfl, rfl, rfl, rfl, (by decide +kernel : translate (one strand0) 0x20000 true true false = .hit (2 ^ 47) 0 false), by rfl,
    rfl⟩, rfl, by decide, rfl, rfl⟩

/-- R268 to R283: a first frame, inline frames 1 and 21 deep, a full deque, a linked strand; a count of zero and of one. -/
noncomputable def full : List DqPlace := (List.range 64).map (fun j => ⟨j, .held, 0, 0, j, 0, 0, 0⟩)
noncomputable def held (st : DqState) : DqPlace := ⟨0, st, 0, 0, 5, 0, 0, 0⟩

theorem witness_tasks : (tasked TaskLink.reset [] []).Inv ∧ Decodes false [0] [] false (tasked TaskLink.reset [] []) ∧
    Decodes false [0] [5] false (tasked TaskLink.reset [] []) ∧ canDepart (tasked TaskLink.reset [] []) 0 = true ∧
    InNativeSlot (tasked TaskLink.reset [] []) ∧ rv (tasked TaskLink.reset [] []) 0 = 0 ∧
    (∀ i, i < 64 → ∃ p ∈ (coreAt (tasked TaskLink.reset full []) 0).deque, p.j = i) ∧
    (tasked ⟨false, 0, 0, 0, 0, 21⟩ [] []).me.link.depth = 21 ∧ (tasked ⟨false, 0, 0, 0, 0, 20⟩ [] []).me.link.depth = 20 ∧
    linkPlace (tasked ⟨true, 0, 0, 5, 2 ^ 47, 0⟩ [held .held] []) (tasked ⟨true, 0, 0, 5, 2 ^ 47, 0⟩ [held .held] []).me = some (held .held) ∧
    linkPlace (tasked ⟨true, 0, 0, 5, 2 ^ 47, 0⟩ [] []) (tasked ⟨true, 0, 0, 5, 2 ^ 47, 0⟩ [] []).me = none ∧
    (tasked ⟨true, 0, 0, 5, 2 ^ 47, 0⟩ [] []).me.run = .live ∧ poisoned (tasked TaskLink.reset [] []) (2 ^ 47) 8 = false ∧
    le (tasked TaskLink.reset [] []) (2 ^ 47) 4 = 0 ∧ le (tasked TaskLink.reset [] [(2 ^ 47, 1)]) (2 ^ 47) 4 = 1 ∧
    (coreAt (tasked TaskLink.reset [] []) 0).joins.length < 16 := by
  refine ⟨rfl, ⟨rfl, rfl, rfl⟩, ⟨rfl, rfl, rfl⟩, rfl, ⟨rfl, rfl, rfl, rfl⟩, rfl, ?_, rfl, rfl, ?_, ?_, rfl, rfl, ?_, ?_, ?_⟩ <;> decide +kernel

/-- R273, R283: a frame to go on from, inline and in the deque, while a register awaits and while none does; a taken frame's counter. -/
theorem witness_jend : (∀ x ∈ [TaskLink.mk false 0 0 0 0 1, ⟨true, 0, 0, 5, 2 ^ 47, 0⟩],
      restoreWaits (tasked x [held .held] []) { strand0 with link := x, rst := vset strand0.rst 1 (.await 9) } = some 1 ∧
      (tasked x [held .held] []).me.run = .live ∧ ∀ r ∈ List.range 16, awaits (tasked x [held .held] []).me r = false) ∧
    (tasked ⟨true, 0, 0, 5, 2 ^ 47, 0⟩ [] []).me.link.valid = true ∧ homeOf (tasked ⟨true, 0, 0, 5, 2 ^ 47, 0⟩ [] []).me.link.ctr = 0 ∧
    (coreAt (tasked ⟨true, 0, 0, 5, 2 ^ 47, 0⟩ [] []) 0).deque = [] := by decide +kernel

/-- R276 to R278: alone in its scalar core, beside a ready strand, settled and not, linked. -/
theorem witness_yield_exit : readySlots (one strand0) = [] ∧
    readySlots { one strand0 with strands := [(0, strand0), (1, { strand0 with nslot := 1, slot := 1 })] } ≠ [] ∧
    (one strand0).me.link.valid = false ∧ (one strand0).me.link.depth = 0 ∧ settled (one strand0) 0 = true ∧
    settled (one { strand0 with posted := 1 }) 0 = false ∧ (tasked ⟨true, 0, 0, 5, 2 ^ 47, 0⟩ [] []).me.link.valid = true ∧
    isMc (one strand0).me.place = false := by decide +kernel

/-- R272 to R283: a joiner of a word, an idle slot, a frame that is held, released and being taken, a thief on its way. -/
noncomputable def idle (q : List DqPlace) (t : Thief) : State :=
  { modCore 0 (fun c => { c with deque := q }) (one { strand0 with run := .idle, grid := some 0 }) with thieves := [(9, t)] }

theorem witness_deque : (∀ q t, IdleSlot (idle q t) 0 0 { strand0 with run := .idle, grid := some 0 }) ∧
    takeBehind (idle [held .held] ⟨0, 0, [], none⟩) 0 (.dequeTakeRequest 0 0 0) = false ∧
    takeBehind (idle [] ⟨0, 0, [5, 6], none⟩) 5 (.thiefVictimArrival 9) = false ∧
    (∀ st ∈ [DqState.held, .released], takingFor (idle [held st] ⟨0, 0, [], none⟩) 0 0 0 = false ∧ blockDone (idle [held st] ⟨0, 0, [], none⟩) strand0.block = false ∧
      takeable (idle [held st] ⟨0, 0, [], none⟩) 0 0 = some (held st)) ∧
    (coreAt (idle [held .taking] ⟨0, 0, [], none⟩) 0).deque = [held .taking] ∧ (idle [held .taking] ⟨0, 0, [], none⟩).Inv ∧
    (frame (idle [held .taking] ⟨0, 0, [], none⟩) (sramBase 0 + 0x3E0000) 17 + 8 ≤ sramBase 0 + 0x3C0000) ∧
    tget (idle [] ⟨0, 0, [5, 6], none⟩).thieves 9 = some ⟨0, 0, [5, 6], none⟩ ∧ (coreAt (idle [] ⟨0, 0, [5], none⟩) 5).deque = [] ∧
    tget (idle [] ⟨0, 0, [], some [1]⟩).thieves 9 = some ⟨0, 0, [], some [1]⟩ ∧ takingFor (idle [] ⟨0, 0, [], some [1]⟩) 0 0 0 = false ∧
    (let w : WordWait := ⟨0, 2 ^ 47, 0, 5, [], 0, some 0⟩;
      (coreAt (modCore 0 (fun c => { c with joins := [w], bars := [{ w with sd := 0, want := 3 }] }) (one strand0)) 0).joins = [w] ∧
      (0 : Word).toNat / 2 ^ 48 ≠ 3) :=
  ⟨fun _ _ => ⟨rfl, rfl, rfl, rfl, rfl, rfl, rfl, rfl⟩, by decide +kernel, by decide +kernel, by decide +kernel, rfl, rfl, by decide +kernel, rfl, rfl,
    rfl, by decide +kernel, rfl, by decide⟩

/-- R285 to R299: b57 over the header at 0x3E4000; a tile to bind; a live ring of one slot that is filling, and ready. -/
noncomputable def ringed (live : Bool) (x : Tile) : State :=
  let c : GridCtx := ⟨[(56, record 0x20000), (57, record 0x40000)], [], 0, 0, []⟩
  let s := one (with_ [(1, 0x4000), (2, 0x100), (3, 1), (4, 64), (5, 0), (6, 64 * 2 ^ 16), (7, 64 * 2 ^ 16), (8, 0x20000), (9, 64 * 2 ^ 16)] { strand0 with grid := some 1 })
  let s := { s with cores := [(0, { core0 0 with ctx := [(1, c)], tlb := [⟨1, 4, 16, 0x8000003E0039⟩, ⟨1, 2, 16, 0x80080000039⟩] })] }
  modTile 0 0 (fun _ => x) (setHdr 0 0x3E4000 ⟨1, 0, 64, 1, 0, false, live, 0, 0⟩ s)
noncomputable def slot (st : TileState) (r : Option (Nat × Nat)) : Tile := ⟨true, 0x1000, 64, 1, st, false, 64, 0, r, 0⟩

theorem witness_ring : (∀ l st r, isCore (ringed l (slot st r)).me.place = true ∧ rv (ringed l (slot st r)) 1 = 0x4000) ∧
    translate (ringed true (slot .ready none)) 0x44000 true true false = .hit (sramBase 0 + 0x3E4000) 0 false ∧
    space (ringed true (slot .ready none)) (sramBase 0 + 0x3E4000) = .pad 0 0x3E4000 ∧
    Memory.wf (ringed true (slot .ready (some (0x3E4000, 0)))).mem = true ∧ Memory.wf (ringed false (slot .empty none)).mem = true ∧
    (hdrAt (ringed true (slot .ready none)) 0 0x3E4000).live = true ∧
    (hdrAt (ringed true (slot .ready none)) 0 0x3E4000).grid = ctxKey (ringed true (slot .ready none)).me ∧
    (hdrAt (ringed true (slot .ready none)) 0 0x3E4000).pipe = false ∧ (hdrAt (ringed true (slot .ready none)) 0 0x3E4000).n = 1 ∧
    (hdrAt (ringed false (slot .empty none)) 0 0x3E4000).live = false ∧ (rv (ringed true (slot .empty none)) 2).toNat = 1 * 256 + 0 ∧
    slotsOk (ringed false (slot .empty none)) 0 1 0 1 64 = true ∧
    (tileAt (ringed false (slot .empty none)) 0 0).len = 64 ∧ (rv (ringed true (slot .empty none)) 3).toNat = 1 ∧
    ringRun (ringed true (slot .ready (some (0x3E4000, 0)))) 0 (hdrAt (ringed true (slot .ready (some (0x3E4000, 0)))) 0 0x3E4000) = 1 ∧
    ringRun (ringed true (slot .filling (some (0x3E4000, 0)))) 0 (hdrAt (ringed true (slot .filling (some (0x3E4000, 0)))) 0 0x3E4000) = 0 ∧
    lockedAt (ringed true (slot .ready (some (0x3E4000, 0)))) 0 0x1000 64 = false := by
  refine ⟨fun _ _ _ => ⟨rfl, rfl⟩, ?_, ?_, ?_, ?_, ?_, ?_, ?_, ?_, ?_, ?_, ?_, ?_, ?_, ?_, ?_, ?_⟩ <;> decide +kernel

theorem witness_ring_reaches : RingHere (ringed true (slot .ready none)) 25 0x4000 0x3E4000 :=
  ⟨0x44000, sramBase 0 + 0x3E4000, 0, false, ⟨rfl, rfl, rfl, rfl, by decide +kernel, by decide +kernel, by decide +kernel⟩, by decide +kernel,
    by decide, rfl⟩

/-- R292: a put of 64 bytes whose source, through b56, lies in the scratchpad of core 1. -/
theorem witness_put : let s := ringed true (slot .ready none);
    CourierReady s [8, 5, 6] ∧ CourierReady s [8, 9] ∧ (rv s 6).toNat = 64 * 2 ^ 16 ∧ (rv s 5).toNat / 2 ^ 32 % 8 = 0 ∧
    EndOk s 24 0 64 false 0x20000 0x80080000000 ∧ homeOf 0x80080000000 ≠ s.me.place ∧
    translate s (rv s 8) true false false = .hit 0x80080000000 0 false ∧ endSpace s 0x80080000000 false = none ∧
    PutLocks s 0x20000 64 ∧ PutLocks s (rv s 8) 64 := by
  refine ⟨⟨rfl, ⟨rfl, rfl, rfl⟩, rfl, ?_, rfl⟩, ⟨rfl, ⟨rfl, rfl, rfl⟩, rfl, ?_, rfl⟩, ?_, ?_, ⟨record 0x20000, 0, false, rfl, rfl, ?_, ?_, ?_, ?_, ?_⟩, ?_, ?_, ?_, ?_, ?_⟩ <;> (try unfold PutLocks) <;> decide +kernel

/-- R296 to R299: a block's producer port, its consumer port over the ring; a piece at its ring. -/
noncomputable def piped (prod : Bool) (x : Tile) : State :=
  modCore 0 (fun c => { c with ports := [⟨0, 2, prod, 0, 0x3E4000, 4, []⟩] }) (ringed true x)

theorem witness_pipe : (∀ p x, portBind (piped p x) 2 = some ⟨0, 2, p, 0, 0x3E4000, 4, []⟩ ∧ (piped p x).me.place = (piped p x).me.native ∧
      isCore (piped p x).me.place = true ∧ (piped p x).me.vmems = 0 ∧ Decodes false [] [5] false (piped p x) ∧
      Decodes false [3] [] false (piped p x) ∧ (coreAt (piped p x) 0).ringWait = []) ∧
    ringRun (piped false (slot .filling none)) 0 (hdrAt (piped false (slot .filling none)) 0 0x3E4000) = 0 ∧
    ringRun (piped false (slot .ready none)) 0 (hdrAt (piped false (slot .ready none)) 0 0x3E4000) = 1 ∧
    (hdrAt (piped false (slot .ready none)) 0 0x3E4000).n = 1 := by
  refine ⟨fun _ _ => ⟨rfl, rfl, rfl, rfl, ⟨rfl, rfl, rfl⟩, ⟨rfl, rfl, rfl⟩, rfl⟩, ?_, ?_, ?_⟩ <;> decide +kernel

noncomputable def op0 (k : OpKind) : Op :=
  { kind := k, sid := 0, place := 0, sc := 0, block := 0, grid := some 1, owner := 0, asn := 1, root := 0, pc := 0x10000, tok := false, cls := 4,
    src := 0x20000, dst := 0x20000, len := 64, next := 64, stopped := false, flying := 0, status := 0, cause := 0, off := 0, flags := 0,
    tile := 0, toff := 0, hdr := 0x3E4000, home := 0, ticket := 0, rid := 3, parties := 2, part := 0, rop := 0, rfmt := 0, policy := 0,
    walkFault := none, fail := none, told := none, runs := [] }
noncomputable def piece0 (st src dst : Nat) : Piece :=
  { op := 5, off := 0, len := 64, src := src, dst := dst, bytes := List.replicate 64 7, bad := [], epoch := false, origin := 0, status := 0,
    cause := 0, failOff := 0, record := false, win := false, stage := st, mates := [], began := false, spol := 0, dpol := 0 }
noncomputable def under (k : OpKind) (p : Piece) (s : State) : State := { s with ops := [(5, op0 k)], pieces := [(6, p)], fresh := 7 }

theorem witness_ring_piece : let s := under .ringPut (piece0 4 0 0) (ringed true (slot .filling (some (0x3E4000, 0))));
    tget s.pieces 6 = some (piece0 4 0 0) ∧ tget s.ops 5 = some (op0 .ringPut) ∧ fwdCore s 0 = 0 ∧
    ringSays s 0 0x3E4000 (opGroup (op0 .ringPut)) 0 0 64 = .take 0 ∧ earlierDue s 6 (piece0 4 0 0) (op0 .ringPut) = false ∧
    (piece0 4 0 0).record = false ∧ moduleOf (op0 .ringPut).home = moduleOf ((op0 .ringPut).sid / 32) ∧
    ringSays (under .ringPut (piece0 4 0 0) (ringed true (slot .ready (some (0x3E4000, 0))))) 0 0x3E4000 1 0 0 64 = .reject ∧
    (let s := under .ringPut (piece0 3 0 0) (ringed true (slot .filling (some (0x3E4000, 0))));
      tget s.pieces 6 = some (piece0 3 0 0) ∧ (piece0 3 0 0).stage ≠ 4 ∧ ringSays s 0 0x3E4000 (opGroup (op0 .ringPut)) 0 0 64 = .take 0) := by
  refine ⟨rfl, rfl, rfl, ?_, ?_, rfl, rfl, ?_, rfl, ?_, ?_⟩ <;> decide +kernel

/-- R277, R294: a strand inside an exit, all it waits for done and a posted store outstanding; one inside a take from b4's header,
whose head slot is ready. -/
theorem witness_inside : (∀ p, let x := { strand0 with park := some .exits, posted := p };
      tget (one x).strands 0 = some x ∧ x.park = some .exits ∧ x.partner = none ∧ x.kind = .core) ∧
    settled (one { strand0 with park := some .exits }) 0 = true ∧ settled (one { strand0 with park := some .exits, posted := 1 }) 0 = false ∧
    (let s := modStrand 0 (fun x => { x with park := some (.ringTake 0x3E4000 5 none 0) }) (ringed true (slot .ready (some (0x3E4000, 0))));
      (∃ x, tget s.strands 0 = some x ∧ x.park = some (.ringTake 0x3E4000 5 none 0) ∧ x.partner = none) ∧
      0 < ringRun s 0 (hdrAt s 0 0x3E4000)) := by
  refine ⟨fun _ => ⟨rfl, rfl, rfl, rfl⟩, ?_, ?_, ⟨_, rfl, rfl, rfl⟩, ?_⟩ <;> decide +kernel

/-- R302 to R304: a barrier word of two, at its first and at its last arrival; a level episode of one and of two members. -/
noncomputable def barred (m : List Host.Cell) : State := { one (with_ [(2, 3), (3, 1)] { strand0 with grid := some 1 }) with mem := m }

theorem witness_barrier : (∀ m, CounterHere (barred m) 24 0 0x20000 (2 ^ 47) ∧ Decodes false [0, 2] [] false (barred m) ∧
      Decodes false [0] [5] false (barred m) ∧ (∀ w ∈ (coreAt (barred m) 0).bars, w.word ≠ 2 ^ 47) ∧ (coreAt (barred m) 0).bars.length < 16) ∧
    poisoned (barred []) (2 ^ 47) 8 = false ∧ (barred [(2 ^ 47, 1), (2 ^ 47 + 2, 2)]).Inv ∧
    0 < (rv (barred []) 2).toNat ∧ (rv (barred []) 2).toNat < 2 ^ 16 ∧
    le (barred [(2 ^ 47, 1), (2 ^ 47 + 2, 2)]) (2 ^ 47 + 2) 2 = 2 ∧ le (barred [(2 ^ 47, 1), (2 ^ 47 + 2, 2)]) (2 ^ 47 + 4) 2 = 0 ∧
    le (barred []) (2 ^ 47 + 6) 2 ≠ (rv (barred []) 2).toNat % 2 ^ 16 ∧ le (barred []) (2 ^ 47 + 6) 2 = (rv (barred []) 0).toNat % 2 ^ 16 := by
  refine ⟨fun m => ⟨⟨0, false, 0, ⟨rfl, rfl, rfl, rfl,
    (by decide +kernel : translate (one strand0) 0x20000 true true false = .hit (2 ^ 47) 0 false), by rfl,
    rfl⟩, rfl, by decide, rfl, rfl⟩, ⟨rfl, rfl, rfl⟩, ⟨rfl, rfl, rfl⟩, ?_, ?_⟩, ?_, ?_, ?_, ?_, ?_, ?_, ?_, ?_⟩
  · intro w h; cases h
  · exact (by decide : 0 < 16)
  all_goals first | rfl | decide +kernel

theorem witness_level : (let s := barred []; isCore s.me.place = true ∧ s.me.grid = some 1 ∧ s.episodes = [] ∧ s.me.run ≠ .idle ∧
      tget s.strands s.cur = some s.me) ∧
    (∀ l ∈ [[], [0]], let e : Episode := ⟨4, 1, 0, 0, [], [], [0, 1], l, false⟩; let s := { barred [] with episodes := [e] };
      s.episodes = [e] ∧ e.grid = 1 ∧ e.level = 0 ∧ e.group = groupOf 0 s.me.native ∧ e.complete = false ∧ e.behind = false ∧ s.cur ∈ e.members ∧
      (s.cur ∉ e.left ↔ l = [])) ∧
    (let e : Episode := ⟨4, 1, 0, 0, [0], [2 * 0], [0], [], false⟩; let s := { one { strand0 with park := some .barLevel, grid := some 1 } with episodes := [e] };
      s.episodes = [e] ∧ e.waiting = [2 * 0] ∧ ∃ x, tget s.strands 0 = some x ∧ x.park = some .barLevel ∧ x.grid = some e.grid) :=
  ⟨⟨rfl, rfl, rfl, by decide, rfl⟩, by decide +kernel, rfl, rfl, _, rfl, rfl, rfl⟩

/-! ### Vector, matrix, couriers -/

/-- A strand of a core that may issue vector, matrix and courier instructions: s2 = 0x40, s3 = 4. -/
noncomputable def worker : State := one (with_ [(2, 0x40), (3, 4)] { strand0 with grid := some 1 })

theorem witness_vector_issue : VectorReady worker [] [] false 0 none ∧ VectorReady worker [2] [] false 3 (some 4) ∧
    VectorReady worker [2, 3] [] false 0 none ∧ VectorReady worker [3] [5] true 0 none ∧ VectorReady worker [] [5] true 0 none :=
  ⟨⟨rfl, by decide, ⟨rfl, rfl, rfl⟩, by decide, .inl rfl, rfl⟩, ⟨rfl, by decide, ⟨rfl, rfl, rfl⟩, by decide, .inl rfl, rfl⟩,
    ⟨rfl, by decide, ⟨rfl, rfl, rfl⟩, by decide, .inl rfl, rfl⟩, ⟨rfl, by decide, ⟨rfl, rfl, rfl⟩, by decide, .inl rfl, rfl⟩,
    ⟨rfl, by decide, ⟨rfl, rfl, rfl⟩, by decide, .inl rfl, rfl⟩⟩

/-- R192: an entry at the head of queue 1 of core 0, seven cycles after it issued. -/
noncomputable def entry (i : Instr) (es : List VElem) (w : Nat) : VEntry := ⟨3, 0, 1, i, 0, 2, 0, false, es, w, 0⟩
noncomputable def queued (e : VEntry) : State := { modSc 0 1 (fun k => { k with dq := [e] }) worker with now := 8 }

theorem witness_lanes : ∀ i, (scAt (queued (entry i [] 0)) 0 1).dq = [entry i [] 0] ∧ (entry i [] 0).instr = i ∧
    vEligible (queued (entry i [] 0)) 0 1 = true := fun _ => ⟨rfl, rfl, rfl⟩

theorem witness_entry_ends : let r : VRun := ⟨1, entry (.mpop 0 0 0) [] 0, .vec 3 7 0, 0, 0, 0, [], 8⟩;
    let s := modCore 0 (fun c => { c with vruns := [r] }) worker;
    (coreAt s 0).vruns = [r] ∧ r.todo = 0 ∧ vmemOf r.e = none ∧ ∃ x, tget s.strands r.e.sid = some x := ⟨rfl, rfl, rfl, _, rfl⟩

noncomputable def checked : VChecked → Option (List VElem)
  | .ok es => some es
  | _ => none

/-- R227 to R234: an element at each of two places of the scratchpad, a load through b40 with one lane active, a tile. -/
theorem witness_vector_memory : (let e := entry (.vld 8 0 0 3 0) [⟨0, some (2 ^ 47), 0, 0⟩, ⟨1, some (2 ^ 47 + 64), 0, 0⟩] 1;
      OnPads (queued e) e ∧ (queued e).Inv ∧ (coreAt (queued e) 0).vruns = []) ∧
    (let s := modSc 0 0 (fun k => { k with vf := { k.vf with m := vset k.vf.m 2 1 } }) worker;
      recLoading s 40 = false ∧ recAt s 40 = .ok (record 0x20000) ∧ recFmt (record 0x20000) < 13 ∧ VectorReady s [2] [] false 2 none ∧
      checked (checkAll s 40 1 true [(0, vOffset .plain (rv s 2) (record 0x20000) (vget (scAt s 0 0).vf.v 0 0) 1 0)]) =
        some [⟨0, some (2 ^ 47 + 0x40), 0, 0⟩]) := by
  refine ⟨⟨⟨.inl rfl, by decide, ?_, ?_⟩, rfl, rfl⟩, rfl, rfl, by decide +kernel, ⟨rfl, by decide, ⟨rfl, rfl, rfl⟩, by decide, .inl rfl, rfl⟩, ?_⟩
  · intro x h; simp only [entry, List.mem_cons, List.not_mem_nil, or_false] at h
    rcases h with rfl | rfl
    · exact ⟨by decide, 2 ^ 47, 0, 0, rfl, by decide +kernel⟩
    · exact ⟨by decide, 2 ^ 47 + 64, 0, 64, rfl, by decide +kernel⟩
  · intro x h y g n p q hp hq; simp only [entry, List.mem_cons, List.not_mem_nil, or_false] at h g
    rcases h with rfl | rfl <;> rcases g with rfl | rfl <;> simp only [Option.some.injEq] at hp hq <;> subst hp <;> subst hq <;>
      first | exact absurd rfl n | exact .inl (by decide) | exact .inr (by decide)
  · decide +kernel

/-- R233, R234: a load and a store of register 3 whose elements have not entered, and one that is to be written. -/
theorem witness_vector_port : VectorAccess (entry (.vld 8 0 0 3 0) [] 1) 3 true ∧ VectorAccess (entry (.vst 8 0 0 3 0) [] 1) 3 false ∧
    (∀ i o n l, let r : VRun := ⟨1, entry i [⟨0, some (2 ^ 47), 0, 0⟩, ⟨1, some (2 ^ 47 + 64), 0, 0⟩] 1, o, 0, n, 0, l, 8⟩;
      (coreAt (modCore 0 (fun c => { c with vruns := [r] }) worker) 0).vruns = [r] ∧
      (modCore 0 (fun c => { c with vruns := [r] }) worker).Inv) ∧
    (([(0, 7, false)] : List (Nat × Nat × Bool)).map Prod.fst).Nodup :=
  ⟨⟨0, 8, 0, 3, 0, 0, 0, rfl, List.mem_cons_self ..⟩, ⟨0, 8, 0, 3, 0, 0, 0, rfl, List.mem_cons_self ..⟩, fun _ _ _ _ => ⟨rfl, rfl⟩, by decide⟩

/-- R164, R246: a ready tile of 512 bytes, a product of 4 by 4 by 4 in FP32's narrower formats, one block scaled. -/
noncomputable def matrixed (sa sb : Word) : State :=
  modTile 0 2 (fun _ => ⟨true, 0x1000, 0x4000, 1, .ready, false, 0, 0, none, 0⟩) (one (with_ [(2, sa), (3, sb)] { strand0 with grid := some 1 }))

theorem witness_matrix : (∀ a b, TileReady (matrixed a b) 2 ∧ isCore (matrixed a b).me.place = true ∧ (matrixed a b).me.slot < 32 ∧
      (matrixed a b).me.vmems = 0 ∧ 4 ≤ locksFree (matrixed a b) 0 ∧
      tget (coreAt (matrixed a b) 0).ctx (ctxKey (matrixed a b).me) = some ctx0) ∧
    Decodes false [2, 3] [] false (matrixed 0 0) ∧ Decodes false [2] [] false (matrixed 0 0) ∧
    (scAt (matrixed 0 0) 0 (matrixed 0 0).mySc).mq.length < 8 ∧
    (∀ f ∈ [0, 1, 2], ∀ t, matCheck ⟨f, t, false⟩ 0x4000 0 2 (BitVec.ofNat 64 (4 * 2 ^ 20 + 4 * 2 ^ 29)) (BitVec.ofNat 64 (4 * 2 ^ 23 + 2 ^ 33)) = none) ∧
    matCheck ⟨1, false, true⟩ 0x4000 0 2 (BitVec.ofNat 64 (32 * 2 ^ 20 + 32 * 2 ^ 29)) (BitVec.ofNat 64 (32 * 2 ^ 23 + 2 ^ 33)) = none ∧
    (0x1000 : Word).toNat % 512 = 0 ∧ (0x1000 : Word).toNat + 0x4000 ≤ 0x800000 ∧ 4 ≤ (0x40 : Word).toNat := by
  refine ⟨fun _ _ => ⟨⟨rfl, rfl, rfl⟩, rfl, (by decide : 0 < 32), rfl, (by decide : 4 ≤ 32), rfl⟩, ⟨rfl, rfl, rfl⟩, ⟨rfl, rfl, rfl⟩, ?_, ?_, ?_, ?_, ?_, ?_⟩ <;> decide +kernel

noncomputable def command (i : Instr) : MCmd := ⟨3, 0, 1, 1, i, 0, 0x40, 0x1000, 0x40, false, 0, 0x10000⟩

theorem witness_matrix_unit : (let i := Instr.accZero 0 0 2 3 0; let s := { modSc 0 2 (fun k => { k with mq := [command i] }) worker with now := 40 };
      (scAt s 0 2).mq = [command i] ∧ mNext s 0 = some 2) ∧
    (∀ i, let s := modCore 0 (fun c => { c with mrun := some (1, command i) }) worker; s.Inv ∧ (coreAt s 0).mrun = some (1, command i)) ∧
    (0 : Word).toNat + (0x40 : Word).toNat ≤ 0x100000 ∧ 0x40 % 32 = 0 :=
  ⟨⟨rfl, by decide +kernel⟩, fun _ => ⟨rfl, rfl⟩, by decide, rfl⟩

/-- R253 to R261: a copy of 64 bytes from the scratchpad through b56 to it through b40 and to core 1 through b41; a tile that fills; a
reduction of 64 bytes of two participants. -/
noncomputable def sender (far : Bool) : State :=
  let s := one (with_ [(2, 0), (3, 64), (4, 0), (5, 0x300020000)] { strand0 with grid := some 1 })
  modTile 0 2 (fun _ => ⟨true, 0x1000, 64, 1, .filling, false, 64, 0, none, 0⟩)
    { s with cores := [(0, { core0 1 with tlb := [⟨1, 2, 16, 0x800000000039⟩, ⟨1, 3, 16, if far then 0x80080000039 else 0x800000010039⟩] })] }

theorem witness_courier : (∀ b, CourierReady (sender b) [4, 2, 3] ∧ CourierReady (sender b) [2, 3] ∧ CourierReady (sender b) [4, 5, 3] ∧
      regVal (sender b).me 3 = BitVec.ofNat 64 64 ∧ regVal (sender b).me 3 = BitVec.ofNat 64 (0 * 2 ^ 24 + 64) ∧
      EndOk (sender b) 24 (regVal (sender b).me 2) 64 false 0x20000 (2 ^ 47) ∧ 2 ≤ locksFree (sender b) 0 ∧
      (tileAt (sender b) 0 2).defined = true ∧ (tileAt (sender b) 0 2).grid = ctxKey (sender b).me ∧ (tileAt (sender b) 0 2).st = .filling ∧
      regVal (sender b).me 5 = BitVec.ofNat 64 (3 * 2 ^ 32 + 2 * 2 ^ 16 + 0) ∧ recAt (sender b) 56 = .ok (record 0x20000) ∧
      space (sender b) (2 ^ 47) = .pad 0 0 ∧ homeOf (2 ^ 47) = (sender b).me.place) ∧
    EndOk (used (sender false) 0x20000) 25 0 64 true 0x30000 0x800000010000 ∧ homeOf 0x800000010000 = 0 ∧ 0x800000010000 / 2 ^ 46 % 4 ≠ 0 ∧
    EndOk (used (sender true) 0x20000) 25 0 64 true 0x30000 0x80080000000 ∧ homeOf 0x80080000000 ≠ 0 ∧
    translate (sender true) 0x20000 true true false = .hit (2 ^ 47) 0 false ∧
    (∀ b, (lockOf (sender b).me.place 0 (myRuns (used (used (sender b) 0x20000) 0x30000) 0x20000 64) ++ lockOf (sender b).me.place 1
      (myRuns (used (used (sender b) 0x20000) 0x30000) 0x30000 64)).length ≤ locksFree (sender b) (sender b).me.place) ∧
    myRuns (used (used (sender false) 0x20000) 0x30000) 0x30000 64 = [(0, 0x800000010000, 64)] ∧
    (lockOf (sender false).me.place 0 (myRuns (used (sender false) 0x20000) 0x20000 64)).length + 1 ≤ locksFree (sender false) 0 ∧
    (∀ g, tget (sender false).grids ((sender false).me.grid.getD 0) = some g → g.redNotes = []) := by
  refine ⟨fun b => ?_, ⟨record 0x30000, 0, false, rfl, rfl, ?_, ?_, ?_, ?_, ?_⟩, ?_, ?_, ⟨record 0x30000, 0, false, rfl, rfl, ?_, ?_, ?_, ?_, ?_⟩, ?_, ?_,
    by decide +kernel, ?_, ?_, fun g h => by cases h⟩
  · cases b <;> refine ⟨⟨rfl, ⟨rfl, rfl, rfl⟩, rfl, ?_, rfl⟩, ⟨rfl, ⟨rfl, rfl, rfl⟩, rfl, ?_, rfl⟩, ⟨rfl, ⟨rfl, rfl, rfl⟩, rfl, ?_, rfl⟩, ?_, ?_,
      ⟨record 0x20000, 0, false, rfl, rfl, ?_, ?_, ?_, ?_, ?_⟩, ?_, rfl, rfl, rfl, ?_, rfl, ?_, ?_⟩ <;> decide +kernel
  all_goals decide +kernel

/-- R254 to R265: an operation with one piece in each of its stages, chunks at their node, a combining window. -/
noncomputable def posted (k : OpKind) (st : Nat) : State := under k (piece0 st (2 ^ 47) (2 ^ 47 + 0x1000)) worker

theorem witness_pieces : (∀ st ∈ [0, 1, 2, 4], Flying (posted .copy st) 6 (piece0 st (2 ^ 47) (2 ^ 47 + 0x1000)) (op0 .copy)) ∧
    (piece0 2 0 0).began = false ∧ (let p := { piece0 2 (2 ^ 47) (2 ^ 47 + 0x1000) with began := true };
      Flying (under .copy p worker) 6 p (op0 .copy)) ∧ (op0 .copy).fail = none ∧
    moduleOf (homeOf (2 ^ 47)) = moduleOf (homeOf (2 ^ 47 + 0x1000)) ∧ moduleOf (homeOf (2 ^ 47 + 0x1000)) = moduleOf ((op0 .copy).sid / 32) ∧
    space (posted .copy 1) (2 ^ 47) = .pad 0 0 ∧ space (posted .copy 4) (2 ^ 47 + 0x1000) = .pad 0 0x1000 ∧
    crosses (posted .copy 1) 0 (homeOf (2 ^ 47)) = false ∧ pieceStops (posted .copy 2) (homeOf (2 ^ 47)) (homeOf (2 ^ 47 + 0x1000)) false = false ∧
    earlierDue (posted .copy 4) 6 (piece0 4 (2 ^ 47) (2 ^ 47 + 0x1000)) (op0 .copy) = false ∧ (posted .copy 4).Inv ∧
    (let o := { op0 .copy with flying := 6 };
      let s := modCore 0 (fun c => { c with copyq := [5] }) { posted .copy 0 with ops := [(5, o)] };
      tget s.ops 5 = some o ∧ migrating s 0 = false ∧ (coreAt s 0).copyq = [5] ∧ inFlight s 0 < 32 ∧ (coreAt s 0).launchAt ≤ s.now ∧ pieceStops s 0 (homeOf (2 ^ 47)) false = false) ∧
    (let s := modSlice 0 (fun l => { l with combine := [⟨8, 0, 2 ^ 47, 64, [6]⟩] }) (posted .copyMc 1);
      (sliceAt s 0).combine = [⟨8, 0, 2 ^ 47, 64, [6]⟩] ∧ pieceStops s 0 (homeOf (2 ^ 47)) false = false ∧ moduleOf 0 = moduleOf (homeOf (2 ^ 47))) := by
  refine ⟨fun st h => ?_, rfl, ⟨rfl, rfl, rfl, rfl, ?_, ?_⟩, rfl, ?_, ?_, ?_, ?_, ?_, ?_, ?_, rfl, ⟨?_, ?_, ?_, ?_, ?_, ?_⟩, ?_, ?_, ?_⟩
  · simp only [List.mem_cons, List.not_mem_nil, or_false] at h
    rcases h with rfl | rfl | rfl | rfl <;> exact ⟨rfl, rfl, rfl, rfl, by decide +kernel, by decide +kernel⟩
  all_goals decide +kernel

theorem witness_report : (posted .copy 6).pieces = [(6, piece0 6 (2 ^ 47) (2 ^ 47 + 0x1000))] ∧ (op0 .copy).len ≤ (op0 .copy).next ∧ (op0 .copy).fail = none ∧ (op0 .copy).tok = false ∧
    (∃ x, tget (posted .copy 6).strands 0 = some x ∧ x.grid = (op0 .copy).grid) ∧ tget (posted .copy 6).store 0 = none :=
  ⟨rfl, by decide, rfl, rfl, ⟨_, rfl, rfl⟩, rfl⟩

noncomputable def chunkOf (i : Nat) (bs : List Byte) : RMsg := ⟨4 + i, op0 .reduce, 0, 0, i, bs, [], 0, [4 + i], false, none, 0⟩

theorem witness_reduction : let m := chunkOf 1 [1, 2]; let q := chunkOf 0 [3, 4];
    let r := { op0 .reduce with runs := [(0x20000, 64)] };
    let o := { r with part := 1 };
    let core := nodeCore (gridCores { worker with grids := [(1, grid0)] } (some 1)) 3 1 0;
    let s (l : List RNode) := { modSlice (clusterOf core) (fun k => { k with nodes := l }) { worker with grids := [(1, grid0)] } with
      ops := [(4, r), (5, o)], rmsgs := [(8, q), (9, m)], fresh := 10 };
    let one_ : RNode := ⟨m.o.grid.getD 0, m.o.rid, m.level + 1, m.index / 2, m.chunk, 8⟩;
    let full_ : List RNode := List.replicate 64 ⟨1, 9, 1, 0, 0, 8⟩;
    (∀ l ∈ [[], [one_], full_], tget (s l).rmsgs 9 = some m ∧ tget (s l).ops 5 = some o ∧ tget (s l).rmsgs 8 = some q ∧ tget (s l).ops 4 = some r ∧
      core = nodeCore (gridCores (s l) m.o.grid) m.o.rid (m.level + 1) (m.index / 2) ∧ (sliceAt (s l) (clusterOf core)).nodes = l) ∧
    (let t := s [one_];
      pieceStops t core r.place false = false ∧ pieceStops t core o.place false = false ∧
      pieceStops t m.sender core false = false ∧ moduleOf core = moduleOf r.place ∧ moduleOf m.sender = moduleOf core ∧
      q.o.parties = 2 ∧ m.o.parties = 2 ∧ r.part = 0 ∧ o.part = 1 ∧ 9 < t.fresh) ∧
    (∀ e ∈ full_, e.rid ≠ m.o.rid) ∧ pieceStops (s full_) core m.sender false = false := by
  refine ⟨?_, ⟨?_, ?_, ?_, ?_, ?_, rfl, rfl, rfl, rfl, by decide⟩, ?_, ?_⟩ <;> decide +kernel

/-- R262: a result that comes to a participant. -/
theorem witness_result : let r := { op0 .reduce with runs := [(0x20000, 64)] };
    let m := { chunkOf 0 [1, 2] with down := true, to_ := some 4 };
    let s := { worker with ops := [(4, r)], rmsgs := [(8, m)] };
    tget s.rmsgs 8 = some m ∧ m.to_ = some 4 ∧ tget s.ops 4 = some r ∧ r.runs = [(0x20000, r.len)] ∧ 4096 * m.chunk < r.len :=
  ⟨rfl, rfl, rfl, rfl, by decide⟩

/-- R163, R166: a tile that fills; a lock over one that drains; a discard of a whole line. -/
theorem witness_deliveries : (tileAt (sender false) 0 2).st = .filling ∧ (tileAt (sender false) 0 2).arrived + 64 = (tileAt (sender false) 0 2).expected ∧
    (let s := modCore 0 (fun c => { c with locks := [⟨4, 5, 0, 0, 0x1000, 64⟩], tiles := [(2, ⟨true, 0x1000, 64, 1, .draining, false, 64, 64, none, 0⟩)] }) worker;
      (coreAt s 0).locks = [⟨4, 5, 0, 0, 0x1000, 64⟩] ∧ (coreAt s 0).tiles = [(2, ⟨true, 0x1000, 64, 1, .draining, false, 64, 64, none, 0⟩)]) ∧
    (let p := { piece0 2 (8 * 128) 0 with len := 128, began := true }; let s := under .discard p worker;
      tget s.pieces 6 = some p ∧ s.stores = [] ∧ (sliceAt s (clusterOf (homeOf p.src))).miss = [] ∧
      (sliceAt s (clusterOf (homeOf p.src))).watches = [] ∧ moduleOf (homeOf p.src) = moduleOf ((op0 .discard).sid / 32)) ∧
    (let s := under .copyT (piece0 6 0 0) (sender false);
      tget s.pieces 6 = some (piece0 6 0 0) ∧ (tileAt s 0 2).st = .filling ∧
      tget s.ops 5 = some (op0 .copyT) ∧ moduleOf 0 = moduleOf ((op0 .copyT).sid / 32)) := by
  refine ⟨?_, ?_, ⟨?_, ?_⟩, ⟨?_, ?_, ?_, ?_, ?_⟩, ?_, ?_, rfl, rfl⟩ <;> decide +kernel

/-- R381: a core that replays its log, whose next entry is a; one that has no entry left; one that does not replay. -/
noncomputable def arrival0 (e : Instr) : Arrival := ⟨4, e, 0, none, none, none, none, none, none, 0, []⟩
noncomputable def replays (a : Arrival) (s : State) : State :=
  ctlPut 0 0x270000 2 { s with arrivals := [(0, [a, { a with cycle := 9 }])] }

theorem witness_playing : (∀ a x, Playing (replays a (one x)) 0 a [{ a with cycle := 9 }]) ∧
    (∀ a, StandsAt (replays a (one strand0)) 0 0 strand0 ∧ (replays a (one strand0)).Inv ∧
      space (replays a (one strand0)) (2 ^ 47) = .pad 0 0) ∧ ackPlace 0 = 0 ∧ replaying (one strand0) 0 = false ∧
    ((tget (one strand0).arrivals 0).getD []).drop (coreAt (one strand0) 0).played = [] := by
  have h : replaying (ctlPut 0 0x270000 2 (one strand0)) 0 = true := by decide +kernel
  refine ⟨fun a x => ⟨h, rfl⟩, fun a => ⟨⟨rfl, rfl, rfl, rfl⟩, rfl, ?_⟩, by decide, by decide +kernel, rfl⟩
  show space (ctlPut 0 0x270000 2 (one strand0)) (2 ^ 47) = .pad 0 0
  decide +kernel

/-- What comes again: a result, a block start, a host's write, a release, a removal step, a packet, a piece, an engine's report. -/
theorem witness_replay : (let x := { strand0 with rst := vset strand0.rst 1 (.await 9), late := [⟨9, 1, 1, 0, 0, false, none⟩] };
      ∀ a, StandsAt (replays a (one x)) 0 0 x ∧ x.late = [⟨9, 1, 1, 0, 0, false, none⟩] ∧ regSt x 1 = .await 9) ∧
    (let o : Order := ⟨[(1, strand0)], [(3, block0)], [], [], []⟩;
      { arrival0 (.blockStart 1 0) with order := some o }.order = some o ∧ o.strands = [(1, strand0)] ∧ o.blocks = [(3, block0)]) ∧
    (let h : HWrite := ⟨0, 2 ^ 47, List.replicate 8 1, 0, true, 0, false, none, none⟩;
      { arrival0 (.hostWriteAck 0) with write := some h }.write = some h) ∧
    { arrival0 (.barrierRelease 4) with members := [2 * 0] }.members = [2 * 0] ∧
    (let s := replays { arrival0 (.contextRemovalStepEnd 1) with reg := 3 } { one strand0 with ops := [(5, op0 .copy)] };
      s.ops = [(5, op0 .copy)] ∧ s.pieces = [] ∧ (op0 .copy).grid = some 1 ∧ (op0 .copy).place = 0) ∧
    (let p := piece0 4 (2 ^ 47) (2 ^ 47 + 0x1000); let s := one strand0;
      fwdPa (withPiece 0 p (op0 .copy) s) p.src = p.src ∧ fwdPa (withPiece 0 p (op0 .copy) s) p.dst = p.dst ∧
      fwdCore (withPiece 0 p (op0 .ringPut) s) 0 = 0) ∧
    (let s := replays (arrival0 (.engineCompletionReport 9)) (posted .copy 4);
      s.ops = [(5, op0 .copy)] ∧ s.pieces = [(6, piece0 4 (2 ^ 47) (2 ^ 47 + 0x1000))]) := by
  refine ⟨fun a => ⟨⟨rfl, rfl, rfl, rfl⟩, rfl, rfl⟩, ⟨rfl, rfl, rfl⟩, rfl, rfl, ⟨rfl, rfl, rfl, rfl⟩, ⟨?_, ?_, ?_⟩, rfl, rfl⟩ <;> decide +kernel

/-! ### The Caller's instructions, dealing and ends -/

/-- A Caller's strand with s1 = 0x20000 in the hub SRAM, s2 = 1, s3 = 2, s4 = 3, s5 = 16, s6 past the events; a record of one block
of one strand there. -/
noncomputable def callerMem (owner : Nat) (m : List Host.Cell) : State :=
  let x := with_ [(1, 0x20000), (2, 1), (3, 2), (4, 3), (5, 16), (6, 2 ^ 17)] { strand0 with kind := .caller, native := hubOf 0, place := hubOf 0, owner := owner }
  { State.reset with
    cur := 32 * hubOf 0, strands := [(32 * hubOf 0, x)], mem := m
    cores := [(hubOf 0, { core0 (ctxKey x) with tlb := [⟨1, 2, 16, 0x0200800040000039⟩] })] }
noncomputable def recPa : Nat := hubSram 0
noncomputable def launchRecord : List Host.Cell :=
  [(recPa + 8, 1), (recPa + 10, 0x10), (recPa + 13, 1), (recPa + 16, 1), (recPa + 17, 0x40), (recPa + 0x80, 1)]
noncomputable def started (g : Grid) : State := { callerMem 0 launchRecord with grids := [(1, g)] }

theorem witness_record : RecordHere (callerMem 0 launchRecord) (rv (callerMem 0 launchRecord) 1) recPa :=
  ⟨rfl, by decide +kernel, 0, true, 0, by decide +kernel, by decide +kernel, by decide +kernel⟩

theorem witness_launch : Memory.wf launchRecord = true ∧ Decodes false [1] [] false (callerMem 0 launchRecord) ∧
    launchHeld (callerMem 0 launchRecord) (32 * hubOf 0) = false ∧ recordError (le (callerMem 0 launchRecord) recPa 256) = none ∧
    recField (le (callerMem 0 launchRecord) recPa 256) 0xA8 % 8 = 0 ∧ recordError (le (callerMem 0 []) recPa 256) = some 8 ∧
    2 ^ 60 ≤ recField (2 ^ 127) 8 ∧ recField (le (callerMem 0 (launchRecord ++ [(recPa + 0xA8, 2)])) recPa 256) 0xA8 % 8 = 2 := by
  refine ⟨?_, ⟨rfl, rfl, rfl⟩, ?_, ?_, ?_, ?_, ?_, ?_⟩ <;> decide +kernel

theorem witness_lwait_cancel : Decodes false [1] [5] false (callerMem 0 []) ∧ (∀ e ∈ (callerMem 0 []).grids, e.2.recPa ≠ recPa) ∧
    le (callerMem 0 [(recPa + 0xA8, 3)]) (recPa + 0xA8) 8 % 8 = 3 ∧ le (callerMem 0 [(recPa + 0xA8, 2)]) (recPa + 0xA8) 8 % 8 = 2 ∧
    Decodes false [1, 2] [] false (callerMem 0 []) ∧ (rv (callerMem 0 []) 2).toNat = 1 ∧ rv (callerMem 0 []) 0 = 0 ∧
    2 ≤ (rv (callerMem 0 []) 3).toNat ∧ OneGrid (started { grid0 with recPa := recPa }) 1 { grid0 with recPa := recPa } ∧
    ({ grid0 with recPa := recPa }).ends ≠ ({ grid0 with recPa := recPa }).blocks := by
  refine ⟨⟨rfl, rfl, rfl⟩, ?_, ?_, ?_, ⟨rfl, rfl, rfl⟩, ?_, rfl, ?_, ⟨rfl, .inl rfl, rfl, rfl, rfl⟩, ?_⟩
  · intro e h; cases h
  all_goals decide +kernel

theorem witness_cache_caller : let s := callerMem 0 [];
    isHub s.me.place = true ∧ Decodes false [0, 5] [] false s ∧ rv s 5 = BitVec.ofNat 64 16 ∧ rv s 0 = BitVec.ofNat 64 0 ∧
    recAt s 40 = .ok (record 0x20000) ∧ (rv s 0).toInt + 16 ≤ (recExtent (record 0x20000) : Int) ∧
    (recExtent (record 0x20000) : Int) < (rv s 1).toInt + 16 := by
  refine ⟨rfl, ⟨rfl, rfl, rfl⟩, ?_, rfl, rfl, ?_, ?_⟩ <;> decide +kernel

/-- R327 to R331: event 1 of owner 0 without and with a waiter, counted and not; an entry of VF 1, taken and not. -/
noncomputable def hubbed (f : Hub → Hub) : State := modHub 0 f (callerMem 0 [])
noncomputable def vfEntry (t : Bool) : VFEntry := ⟨1, 0, 0, 0x100, List.replicate 8 0, t⟩

theorem witness_events : (let s := callerMem 0 [];
      isHub s.me.place = true ∧ Decodes false [2] [] false s ∧ Decodes false [2] [5] false s ∧ (rv s 2).toNat = 1 ∧ (rv s 2).toNat = 0 * 2 ^ 32 + 1 ∧
      eventOwner s 0 1 = s.me.owner ∧ 2 ^ 17 ≤ (rv s 6).toNat ∧ eventCount s 0 1 = 0 ∧ (hubAt s 0).vfq = [] ∧ 16 ≤ (rv s 5).toNat ∧
      vfTag (vfCfg s 0 1) = s.me.owner ∧ keyValid s 0 0 = false) ∧
    NoWaiter (callerMem 0 []) 0 1 ∧ eventOwner (callerMem 2 []) 0 1 ≠ (callerMem 2 []).me.owner ∧
    vfTag (vfCfg (callerMem 2 []) 0 1) ≠ (callerMem 2 []).me.owner ∧
    (let w : EvWait := ⟨4, 0, 1, 5, [], 0⟩; let s := { hubbed (fun h => { h with evwaits := [w] }) with
        strands := (0, strand0) :: (callerMem 0 []).strands };
      (hubAt s 0).evwaits = [w] ∧ w.sid ≠ s.cur ∧ tget s.strands w.sid = some strand0) ∧
    0 < eventCount (hubbed (fun h => { h with events := [(1, 4)] })) 0 1 ∧
    (let s := ctlPut 0 0x140020 1 (ctlPut 0 0x190018 0x80 (modMe (setReg 7 (BitVec.ofNat 64 (2 ^ 16 + 3 * 2 ^ 8 + 1))) (callerMem 0 [])));
      (rv s 7).toNat = 2 ^ 16 + 3 * 2 ^ 8 + 1 ∧ NewFrames s ∧ (∃ h hs, hopsOf s s.me.place (hubOf 3) = h :: hs) ∧ inPod s 0 3 = true ∧
      keyValid s 0 0 = true) ∧
    (hubAt (hubbed (fun h => { h with vfq := [vfEntry false] })) 0).vfq = [vfEntry false] ∧
    (let s := modMe (setReg 7 (handleOf (vfEntry true))) (hubbed (fun h => { h with vfq := [vfEntry true] }));
      (hubAt s 0).vfq = [vfEntry true] ∧ rv s 7 = handleOf (vfEntry true) ∧ (vfEntry true).tag = s.me.owner) := by
  refine ⟨⟨rfl, ⟨rfl, rfl, rfl⟩, ⟨rfl, rfl, rfl⟩, ?_, ?_, ?_, ?_, ?_, ?_, ?_, ?_, ?_⟩, ?_, ?_, ?_, ⟨?_, ?_, ?_⟩, ?_,
    ⟨?_, fun _ _ => rfl, ⟨_, _, rfl⟩, ?_, ?_⟩, ?_, ?_, ?_, ?_⟩
  case refine_10 => intro w h; cases h
  all_goals decide +kernel

/-- R318 to R321: a grid that is refused, one whose module is not in the pod, one whose module is silent, one that is dealt. -/
theorem witness_dealing : (started grid0).Inv ∧ OneGrid (started grid0) 1 grid0 ∧ grid0.accepted = [] ∧ refusal (started grid0) grid0 = none ∧
    refusal (started { grid0 with owner := 3 }) { grid0 with owner := 3 } = some 2 ∧
    (∃ m ∈ [5], inPod (started { grid0 with modules := [5] }) (moduleOf grid0.caller) m = false) ∧
    (hubAt (modHub 0 (fun h => { h with halted := true }) (started grid0)) 0).halted = true ∧ (hubAt (started grid0) 0).halted = false ∧
    heldAt { grid0 with held := [(nodeM 0, [(0, 1)])] } (parentOf (nodeT 0)) ≠ [] ∧ parentOf (nodeT 0) ≠ 0 ∧ nodeT 0 ≠ parentOf (nodeT 0) ∧
    heldAt grid0 (parentOf (nodeT 0)) = [] ∧ (started grid0).agenda = [] ∧ (started grid0).frames = [] ∧
    (let q := { grid0 with modules := [1] }; let s := ctlPut 1 0x190000 0x80 (ctlPut 1 0x140020 1 (ctlPut 0 0x140020 1 (ctlPut 0 0x190008 0x80 (started q))));
      OneGrid s 1 q ∧ refusal s q = none ∧ silent s q = [] ∧ moduleOf q.caller ≠ 1 ∧ NewFrames s ∧ ∃ h hs, hopsOf s q.caller (hubOf 1) = h :: hs) := by
  refine ⟨?_, ⟨rfl, .inl rfl, rfl, rfl, rfl⟩, ?_, ?_, ?_, ⟨5, ?_, ?_⟩, ?_, ?_, ?_, ?_, ?_, ?_, ?_, rfl,
    ⟨rfl, .inl rfl, rfl, rfl, rfl⟩, ?_, ?_, ?_, fun _ _ => rfl, _, _, rfl⟩
  case refine_1 => rfl
  all_goals decide +kernel

theorem witness_block_start : let q := { grid0 with
      state := 2, held := [(nodeC 0, [(0, 1)])], args := [1, 2, 3, 4], strands := 24, quarters := 15
      gdim := BitVec.ofNat 64 (1 * 2 ^ 40 + 1 * 2 ^ 20 + 1) };
    ({ State.reset with grids := [(1, q)] }).grids = [(1, q)] ∧ q.state = 2 ∧ q.strands ≤ 24 ∧ 0 < q.blocks ∧
    (∀ c, c / 4 = 0 → inSet q c = true) := by
  refine ⟨rfl, rfl, by decide, by decide, fun c h => ?_⟩
  have : c = 0 ∨ c = 1 ∨ c = 2 ∨ c = 3 := by omega
  rcases this with rfl | rfl | rfl | rfl <;> decide +kernel

/-- R322 to R325: a block whose strand is idle, and live; a grid with every end counted; each step of a removal that has ended. -/
noncomputable def blocked (r : RunState) (st : BlockState) : State :=
  { one { strand0 with run := r, block := 3, grid := some 1 } with grids := [(1, grid0)], blocks := [(3, { block0 with st := st })] }
noncomputable def removing (k : Nat) : State := { State.reset with grids := [(1, { grid0 with removal := some k })] }

theorem witness_ends : tget (blocked .idle .running).blocks 3 = some block0 ∧ blockDone (blocked .idle .running) 3 = true ∧
    tget (blocked .live .running).strands 0 = some { strand0 with block := 3, grid := some 1 } ∧
    tget (blocked .idle .running).grids 1 = some grid0 ∧
    (let s := { State.reset with grids := [(1, { grid0 with ends := 1 })] };
      OneGrid s 1 { grid0 with ends := 1 } ∧ s.cores = [] ∧ ({ grid0 with ends := 1 }).ends = ({ grid0 with ends := 1 }).blocks) ∧
    grid0.ends ≠ grid0.blocks ∧ (∀ k ∈ [3, 6], stepDone (removing k) 1 k = true) ∧
    stepDone { removing 1 with strands := [(0, { strand0 with grid := some 1 })] } 1 1 = false ∧
    (let s := ctlPut 0 0x190008 0x80 (blocked .idle .running);
      moduleOf block0.core ≠ moduleOf (hubOf 1) ∧ NewFrames s ∧ hopsOf s (hubOf (moduleOf block0.core)) (hubOf 1) = [⟨0, 0, 1, 0⟩]) := by
  refine ⟨?_, ?_, ?_, ?_, ⟨⟨rfl, .inl rfl, rfl, rfl, rfl⟩, rfl, rfl⟩, ?_, ?_, ?_, ?_, fun _ _ => rfl, ?_⟩ <;> decide +kernel

/-- R368, R369, R377: a strand that can and one that cannot be suspended, a suspended one, a block that runs again. -/
theorem witness_preempt : canSuspend (blocked .live .running) 3 0 = true ∧
    canSuspend { blocked .live .running with strands := [(0, { strand0 with block := 3, grid := some 1, posted := 1 })] } 3 0 = false ∧
    floorAt 0 0 + 4096 ≤ storeFloor 0 ∧ (blocked .live .running).slices = [] ∧
    (let s := { blocked .live .suspended with strands := [], store := [(0, { strand0 with block := 3 })] };
      s.blocks = [(3, { block0 with st := .suspended })] ∧ tget s.store 0 = some { strand0 with block := 3 } ∧ tget s.strands 0 = none ∧ coreTakes s 0 = true) ∧
    [0].Nodup ∧ restorable { blocked .live .suspended with strands := [], store := [(0, { strand0 with block := 3 })] }
      (3, { block0 with st := .suspended }) = true ∧ restorable (blocked .live .suspended) (3, { block0 with st := .suspended }) = false ∧
    tget (blocked .idle .running).grids block0.grid = some grid0 ∧ 0 / 32 = block0.core ∧
    slotDone (blocked .idle .running) 3 (32 * 0 + 0) = true ∧ slotDone (blocked .live .running) 3 (32 * 0 + 0) = false := by decide +kernel

/-! ### Partitions, resets, moves, the host, links, the step -/

noncomputable def ctl0 (l : List (Nat × Nat)) : State := l.foldl (fun s e => ctlPut 0 e.1 e.2 s) (one strand0)

/-- R339 to R348: quarter 0 in each state; a window in each; a key. -/
theorem witness_partition : (∀ v ∈ [0, 1, 2, 3], qst (ctl0 [(0x100038, v)]) 0 0 = v) ∧
    consistent (modHub 0 (fun h => { h with shotDown := 1 }) (ctl0 [(0x100038, 3)])) 0 1 = true ∧ consistent (ctl0 [(0x100038, 3), (0x110000, 1)]) 0 1 = false ∧
    bit (hubAt (modHub 0 (fun h => { h with shotDown := 1 }) (ctl0 [(0x100038, 3)])) 0).shotDown 0 = true ∧
    quarterStill (ctl0 [(0x100038, 1)]) 0 0 = true ∧ bits (vfCfg (one strand0) 0 1) 1 0 = 0 ∧
    (∃ b ∈ [(3, block0)], b.2.st ≠ .out ∧ b.2.st ≠ .ended ∧ isCore b.2.core = true ∧ moduleOf b.2.core = 0 ∧ quarterOf b.2.core = 0) ∧
    (∀ v ∈ [0, 1, 2, 3], winD0 (ctl0 [(0x120000, v)]) 0 0 = v) ∧ winRangeOk 0 1 1 = true ∧ winRangeOk 0 1 0 = false ∧
    (1 : Word) &&& 0x0C0000000000FFFC = 0 ∧
    (let s := ctl0 [(0x120000, 2), (0x120008, 1)]; let u : State := { s with stores := [⟨5, 0, 0, 0x100, [1, 2], 2, []⟩] };
      leavers s 0 0 = [] ∧ windowIdle s 0 0 = true ∧ winD0 u 0 0 = 2 ∧ leavers u 0 0 = [] ∧ windowIdle u 0 0 = false) ∧
    tget (hubAt (modHub 0 (fun h => { h with keys := [(2, ⟨5, 4, 9⟩)] }) (one strand0)) 0).keys 2 = some ⟨5, 4, 9⟩ ∧ (one strand0).now < 9 ∧
    9 ≤ (flying 0 5 .travel).now := by decide +kernel

theorem witness_drop : dropBlocked { one strand0 with strands := [] } 0 = false ∧ (one strand0).slices = [] ∧
    (∃ e ∈ (one { strand0 with place := 5, away := true }).strands, e.2.run = .live ∧ e.2.native = 0) ∧
    (∃ e ∈ (one { strand0 with native := 5 }).strands, e.2.run = .live ∧ e.2.place = 0 ∧ e.2.away = false) ∧
    (∀ n ∈ [0, 9], ctlGet (ctl0 [(0x130008, n * 2 ^ 16 + 2 * 4 + 1)]) (moduleOf 0) (vcOff 0) = n * 2 ^ 16 + 2 * 4 + 1) ∧
    ctlGet (ctl0 [(0x1B0020, 7)]) 0 0x1B0020 = 7 ∧ ctlGet (one strand0) 0 0x1B0020 = 0 ∧ (0x200 : Word).toNat % 512 = 0 ∧
    space (one strand0) recPa = .hub 0 0 ∧ recPa % 512 = 0 := by decide +kernel

/-- R62, R399: a guest of the module, a strand native there that stands elsewhere, a packet that has left it; a cable. -/
theorem witness_reset : let s : State := { ctlPut 0 0x190008 0x80 (flying 0 1024 .travel) with
      strands := [(0, { strand0 with away := true }), (32768, { strand0 with native := 1024 }), (1, { strand0 with place := 1024 })] };
    s.Inv ∧ (s.strands.map Prod.fst).Nodup ∧ cablesOf s 0 = [⟨0, 0, 1, 0⟩] ∧ (∀ h ∈ cablesOf s 0, h.to_ ≠ 0) ∧
    (∃ e ∈ s.strands, e.2.away = false ∧ moduleOf e.2.place = 0 ∧ moduleOf e.2.native ≠ 0) ∧
    (∃ e ∈ s.strands, e.2.away = false ∧ moduleOf e.2.place ≠ 0) ∧ (∃ p ∈ s.packets, moduleOf p.2.dest ≠ 0) := by
  refine ⟨rfl, ?_, ?_, ?_, ?_, ?_, ?_⟩ <;> decide +kernel

/-- R396, R398, R400: a module in each part of its bring-up, and none; a record that does not verify, and one whose signature decides. -/
noncomputable def booting (n : Nat) (l : List FlashRecord) (k : Option (BitVec 768)) : State :=
  modHub 0 (fun h => { h with bootCount := 1, bringup := n, flash := ⟨[], l, k⟩ }) State.reset

theorem witness_bringup : let r : FlashRecord := ⟨.number 3, [1], [2]⟩;
    (∀ n l k, (hubAt (booting n l k) 0).bootCount = 1 ∧ (hubAt (booting n l k) 0).bringup = n ∧ (hubAt (booting n l k) 0).flash.records = l) ∧
    recordVerifies (hubAt (booting 2 [r] none) 0) r = false ∧
    (∀ l, recordVerifies (hubAt (booting 2 [r] (some l)) 0) r = Config.landlordVerifies l (Config.sha384 [1]) [2]) ∧
    (hubAt State.reset 0).bootCount ≠ 2 ∧ (hubAt State.reset 0).flash.records = [] :=
  ⟨fun _ _ _ => ⟨rfl, rfl, rfl⟩, rfl, fun _ => rfl, by decide +kernel, rfl⟩

/-- R401, R403: no grid and one on the module, whose quarters have an owner with a Caller. -/
theorem witness_trip : (one strand0).grids = [] ∧ callerOf (one strand0) 0 (qOwner (one strand0) 0 0) = some 0 ∧
    OneGrid (started grid0) 1 grid0 ∧ 0 ∈ grid0.modules := by
  refine ⟨rfl, ?_, ⟨rfl, .inl rfl, rfl, rfl, rfl⟩, ?_⟩ <;> decide +kernel

/-- R371: an operation on core 5 that is accepted, one that is refused, one that holds nothing up, one that streams; a removal at a
step that has ended and at one that has not. -/
theorem witness_moved : let mg (op st : Nat) (s : State) : State := modHub 0 (fun h => { h with mg := some ⟨op, 5, 6, st⟩ }) s;
    (hubAt State.reset 0).mg = none ∧ mgReason State.reset 0 1 5 6 = 0 ∧ mgReason (one strand0) 0 1 5 0 = 2 ∧
    (hubAt (mg 1 0 State.reset) 0).mg = some ⟨1, 0 * 1024 + 5, 0 * 1024 + 6, 0⟩ ∧ (mg 1 0 State.reset).strands = [] ∧
    (hubAt (mg 1 1 State.reset) 0).mg = some ⟨1, 0 * 1024 + 5, 0 * 1024 + 6, 1⟩ ∧ (mg 1 1 State.reset).mem = [] ∧
    (∀ k ∈ [1, 6], (hubAt (mg 3 (1 + k) State.reset) 0).mg = some ⟨3, 5, 6, 1 + k⟩ ∧ outDone (mg 3 (1 + k) State.reset) 5 k = true) ∧
    outDone (mg 3 2 { State.reset with
      strands := [(160, { strand0 with native := 5, place := 5, block := 3 })]
      blocks := [(3, { block0 with core := 5, sids := [160], st := .out })] }) 5 1 = false := by
  refine ⟨?_, ?_, ?_, ?_, ?_, ?_, ?_, ?_, ?_⟩ <;> decide +kernel

/-- R384 to R388: an aperture of function 0 over the vault of core 0, and none; a write that has been sent, an entry's wait, a ring
without room and with room. -/
theorem witness_host : aperturePa (one strand0) 0 0 64 8 true = none ∧
    (let s := ctl0 [(0x171000, 3 * 2 ^ 62 + 1), (0x171008, 1)];
      aperturePa s 0 0 64 8 true = some 64 ∧ (hubAt s 0).hwq = [] ∧ homeRuns s 64 = true) ∧
    (let h : HWrite := ⟨0, 2 ^ 47, List.replicate 8 1, 0, true, 0, false, none, none⟩; let s := modHub 0 (fun k => { k with hwq := [h] }) (one strand0);
      (hubAt s 0).hwq = [h] ∧ h.due ≤ s.now ∧ space s h.pa = .pad 0 0 ∧ (coreAt s (homeOf h.pa)).fw = none) ∧
    0 < bits (vfCfg (ctl0 [(0x170008, 2 ^ 34)]) 0 1) 43 32 ∧ entryWord (one strand0) 0 1 0 < 2 ^ 32 ∧
    (let w (l h : Nat) : State := modHub 0 (fun k => { k with fns := [(1, { FnRegs.reset with waiting := [(5, 6)], lsize := l, head := h })] }) (one strand0);
      (fnAt (w 0 0) 0 1).waiting = [(5, 6)] ∧ (fnAt (w 4 1) 0 1).lsize ≠ 0 ∧
      ((fnAt (w 4 1) 0 1).tail + 1) % 2 ^ 4 = (fnAt (w 4 1) 0 1).head % 2 ^ 4 ∧ ((fnAt (w 4 0) 0 1).tail + 1) % 2 ^ 4 ≠ (fnAt (w 4 0) 0 1).head % 2 ^ 4) ∧
    ownersQuarter State.reset 0 0 = some 0 ∧ tget State.reset.strands (32 * hubOf 0 + 8 * 0) = none := by
  refine ⟨?_, ⟨?_, ?_, ?_⟩, ⟨?_, ?_, ?_, ?_⟩, ?_, ?_, ⟨?_, ?_, ?_, ?_⟩, ?_, ?_⟩ <;> decide +kernel

/-- R68, R349, R389: a packet from module 1 to module 0 on the link between them, or before it; its key and its port are the owner's. One
from module 2 that passes module 1. -/
noncomputable def linkFrame (src dest : Nat) (h : Hop) (sent : Bool) (what : Instr) : Frame :=
  { plainFrame 0 src dest [] true what with hop := h, sent := if sent then some (5, false, 0) else none }
noncomputable def linked (f : Frame) (last : Option Nat) (fails : Nat) : State :=
  let s := ctlPut 1 0x190000 0x80 (ctlPut 1 0x140020 1 (ctlPut 0 0x140020 1 (ctlPut 0 0x100008 1 (flying 1024 0 .travel))))
  modHub 0 (fun h => { h with seqRx := match last with | some n => [(0, n)] | none => [], linkFails := [(0, fails)] }) { s with frames := [(7, f)] }
noncomputable def onLink0 (sent : Bool) : Frame := linkFrame 1024 0 ⟨1, 0, 0, 0⟩ sent (.strandArrival 7)
noncomputable def passing : State :=
  let s := ctlPut 1 0x190000 0x80 (ctlPut 1 0x140020 1 (ctlPut 1 0x100008 0x21 (flying 2048 0 .travel)))
  { s with frames := [(7, linkFrame 2048 0 ⟨2, 0, 1, 5⟩ true (.strandArrival 7))] }

/-- The tag of a packet that was sent under the key it is checked with is good. -/
theorem admits_of (s : State) (f : Frame) (seq : Nat) (e : Bool) (h : (tget (hubAt s f.hop.to_).seqRx f.hop.inPort).all (fun l => decide (l < seq)) = true)
    (k : keyValid s f.hop.to_ f.owner = true) (w : f.win = true) : linkAdmits s f seq e (checkKey s f.hop.to_ f.owner e) = true := by
  unfold linkAdmits
  cases r : tget (hubAt s f.hop.to_).seqRx f.hop.inPort <;> simp_all

theorem witness_link : (∀ b last n, tget (linked (onLink0 b) last n).frames 7 = some (onLink0 b) ∧
      tget (linked (onLink0 b) last n).packets 7 = some (packet 1024 0 .travel)) ∧
    (onLink0 false).sent = none ∧ (onLink0 false).hop.from_ = 1 ∧ linkOut (linked (onLink0 false) none 0) (onLink0 false) = true ∧
    linkOut (flying 1024 0 .travel) (onLink0 false) = false ∧
    (onLink0 true).sent = some (5, false, 0) ∧ (onLink0 true).hop.to_ = 0 ∧ (onLink0 true).hop.inPort = 0 ∧ 0 = moduleOf (onLink0 true).dest ∧
    linkAdmits (linked (onLink0 true) none 0) (onLink0 true) 5 false 0 = true ∧
    linkAdmits (linked (onLink0 true) (some 5) 0) (onLink0 true) 5 false 0 = false ∧ tget (hubAt (linked (onLink0 true) (some 5) 0) 0).seqRx 0 = some 5 ∧
    (∃ h l, podPath passing 0 256 1 = h :: l) ∧ linkAdmits passing (linkFrame 2048 0 ⟨2, 0, 1, 5⟩ true (.strandArrival 7)) 5 false 0 = true ∧
    (let f := linkFrame 1024 0 ⟨1, 0, 0, 0⟩ true (.courierSetDown 6);
      let s := { posted .copy 3 with frames := [(6, f)] };
      tget s.frames 6 = some f ∧ tget s.packets 6 = none ∧ tget s.pieces 6 = some (piece0 3 (2 ^ 47) (2 ^ 47 + 0x1000)) ∧
      tget s.ops 5 = some (op0 .copy) ∧ linkAdmits s f 5 false 0 = false) ∧
    (∀ n, (tget (hubAt (linked (onLink0 true) none n) 0).linkFails 0).getD 0 = n) ∧
    (let s := flying 1024 0 .travel; bits (ctlGet (ctlPut 0 0x191000 1 s) 0 0x191000) 2 0 = 1 ∧ bits (ctlGet s 0 0x191000) 2 0 ≠ 1) := by
  refine ⟨fun b last n => ⟨rfl, rfl⟩, rfl, rfl, ?_, ?_, rfl, rfl, rfl, ?_, ?_, ?_, ?_, ⟨_, _, rfl⟩, ?_, ⟨rfl, rfl, rfl, rfl, ?_⟩, fun n => rfl, ?_, ?_⟩
  case refine_4 => exact admits_of (linked (onLink0 true) none 0) (onLink0 true) 5 false (by decide +kernel) (by decide +kernel) rfl
  case refine_7 => exact admits_of passing (linkFrame 2048 0 ⟨2, 0, 1, 5⟩ true (.strandArrival 7)) 5 false (by decide +kernel) (by decide +kernel) rfl
  all_goals decide +kernel

/-- R27, R28, R51: a strand at a placed word issues it; in the next cycle the word comes to its decode, and at its stage the
instruction acts. -/
noncomputable def placed (w pc : Nat) (f : Option Flight) (now : Nat) : State :=
  { modMe (fun x => { x with flight := f, pc := BitVec.ofNat 64 pc }) (State.reset.withFetchWord 32 w) with now := now }

theorem quiet_of (s : State) (h : nextDecode s = none) (d : dueFirst s = none) (f : dueFlights s = []) (a : s.agenda = [])
    (n : dueNow s = none) (p : duePump s = none) : Quiet s :=
  ⟨⟨h, d, f⟩, (fun e rest k => by rw [a] at k; cases k), n, p⟩

theorem witness_issues : let s := placed 0x0280018A 0x10000 none 0; Issues s 0 s.me ∧ s.me.slot < 32 ∧ Fetches s s.me 0x10000 ∧
    (0x0280018A : IWord) = BitVec.ofNat 32 (fetchWord 0x10000 (fetching s 0 s.me)).1 ∧
    (∀ l ∈ (sliceAt s (fetchSlice s.me.place)).lines, l.line ≠ 0x10000 / 128) ∧
    (let u := placed 0x0280018A 0x10002 none 0; Issues u 0 u.me ∧ u.me.pc.toNat % 4 ≠ 0) := by
  refine ⟨⟨quiet_of _ ?_ ?_ ?_ rfl ?_ ?_, ?_, ?_, ?_, ?_⟩, ?_, ⟨?_, ⟨0, false, ?_⟩, ?_, (fun c o h => ?_)⟩, ?_, (fun l h => by cases h),
    ⟨quiet_of _ ?_ ?_ ?_ rfl ?_ ?_, ?_, ?_, ?_, ?_⟩, ?_⟩
  case refine_14 => cases (show Space.vault 0 0x10000 = .vault c o from h); decide +kernel
  all_goals decide +kernel

theorem witness_at_decode : let f : Flight := ⟨0, 1, [], [], some 0x0280018A, false, [], none⟩; let s := placed 0x0280018A 0x10000 (some f) 1;
    AtDecode s 0 s.me f ∧
      decode 0x0280018A = .ok (.addi 40 0 3 0) ∧ stageOf (.addi 40 0 3 0) = 7 ∧ noOperands (.addi 40 0 3 0) = false ∧
      (∃ t, exec (.addi 40 0 3 0) (decoding s 0 0) = .next t ∧ t.cur = 0) := by
  refine ⟨⟨?_, ?_, ?_, ?_, ?_, ?_, ?_, ?_⟩, ?_, ?_, ?_, ⟨_, rfl, ?_⟩⟩ <;> decide +kernel

/-- R27, R61, R87: what acts at its decode, what has no operand. -/
theorem witness_stages : decode 0x00022212 = .ok (.bfull 4 4 0) ∧ stageOf (.bfull 4 4 0) = 0 ∧ stageOf (.gohome 0) = 3 ∧
    noOperands (.gohome 0) = true := by decide +kernel

/-- R29, R36: an addi whose source is empty waits at its decode, a go whose luggage is locked is stopped there, an addi that finds
its operand is not. -/
theorem witness_stops : StopsThere (.addi 40 1 3 0) (one { strand0 with rst := vset strand0.rst 1 .empty }) ∧
    StopsThere (.go 0 3 0) (modCore 0 (fun c => { c with locks := [⟨4, 5, 0, 0, 0, 128⟩] })
      (one { strand0 with regs := vset strand0.regs 3 1, lug := some (0, 64) })) ∧ ¬ StopsThere (.addi 40 0 3 0) (one strand0) := by
  have e : (match exec (.addi 40 0 3 0) { one strand0 with dec := false } with | .next t => t.me.park | _ => none) = none := by
    decide +kernel
  have l : luggageStops (.addi 40 0 3 0) { one strand0 with dec := false } = false := by decide +kernel
  refine ⟨⟨_, rfl, .inl ⟨?_, .regs [1], ?_, rfl⟩⟩, ⟨_, rfl, .inr ?_⟩, fun ⟨t, h, hp⟩ => ?_⟩
  case refine_4 =>
    rw [h] at e
    rcases hp with ⟨-, p, hp, -⟩ | hp
    · exact absurd (e.symm.trans hp) (by simp)
    · exact absurd (l.symm.trans hp) (by simp)
  all_goals decide +kernel

/-- One that acts at its writeback, one that acts in the memory stage, one whose memory stage has left a register and the PC. -/
theorem witness_acts : let f (due : Nat) (b : Option WriteBack) : Flight := ⟨0, due, [], [], some 0x0280018A, true, [], b⟩;
    let s (due : Nat) (b : Option WriteBack) : State := placed 0x0280018A 0x10000 (some (f due b)) due;
    let b : WriteBack := ⟨[(3, .full, 40)], none, 0x10004, none⟩;
    Acts (s 7 none) 0 (s 7 none).me (f 7 none) ∧ Acts (s 6 none) 0 (s 6 none).me (f 6 none) ∧ Acts (s 7 (some b)) 0 (s 7 (some b)).me (f 7 (some b)) ∧
    inMemory (s 7 none).me (f 7 none) = false ∧ inMemory (s 6 none).me (f 6 none) = true ∧ NoDebug (s 7 none) := by
  refine ⟨⟨?_, ?_, ?_, ?_, ?_, ?_, ?_, ?_, ?_, ?_, ?_⟩, ⟨?_, ?_, ?_, ?_, ?_, ?_, ?_, ?_, ?_, ?_, ?_⟩, ⟨?_, ?_, ?_, ?_, ?_, ?_, ?_, ?_, ?_, ?_, ?_⟩,
    ?_, ?_, ?_, ?_⟩ <;> decide +kernel

/-- What retires, and what traps or parks at its PC. -/
theorem witness_deferred : retired strand0 { strand0 with pc := 0x10004 } = true ∧ retired strand0 strand0 = false ∧
    (regSt strand0 3 = .full ∧ regVal (setReg 3 40 strand0) 3 ≠ regVal strand0 3) := by decide +kernel

/-- R41, R136: an unaligned PC; an event that is due, at a core that logs nothing, that logs, that replays; nothing to do. -/
theorem witness_step : (let s := { State.reset with agenda := [(0, Instr.parkWake 0)] };
      NothingFlies s ∧ arrivalAt { s with agenda := [] } (.parkWake 0) = none ∧ bringsOrders (.parkWake 0) = false) ∧
    (∀ v ∈ [0, 1], let s := { ctlPut 0 0x270000 v (one strand0) with agenda := [(0, Instr.storeAck (ackFrom 1 0) 9)] };
      NothingFlies s ∧ arrivalAt { s with agenda := [] } (.storeAck (ackFrom 1 0) 9) = some (0, 1) ∧ replaying s 0 = false ∧
      ∃ u, exec (.storeAck (ackFrom 1 0) 9) { s with agenda := [] } = .next u ∧ u.agenda = []) ∧
    (let s := { ctlPut 0 0x270000 2 (one strand0) with agenda := [(0, Instr.storeAck (ackFrom 1 0) 9)] };
      NothingFlies s ∧ replaying s 0 = true) ∧
    State.reset.agenda = [] ∧ State.reset.strands = [] ∧ State.reset.hubs = [] ∧ State.reset.cores = [] ∧ State.reset.blocks = [] ∧
    State.reset.tlbis = [] ∧ State.reset.Inv ∧ (State.reset.now + 1) % 65536 ≠ 0 ∧ (({ State.reset with now := 65535 }).now + 1) % 65536 = 0 := by
  refine ⟨⟨⟨?_, ?_, ?_⟩, ?_, rfl⟩, fun v hv => ?_, ⟨⟨?_, ?_, ?_⟩, ?_⟩, rfl, rfl, rfl, rfl, rfl, rfl, rfl, ?_, ?_⟩
  case refine_5 =>
    simp only [List.mem_cons, List.not_mem_nil, or_false] at hv
    rcases hv with rfl | rfl
    all_goals refine ⟨⟨?_, ?_, ?_⟩, ?_, ?_, _, rfl, ?_⟩ <;> decide +kernel
  all_goals decide +kernel

/-- R29, R30: an empty source, a destination that awaits, eight results outstanding, a destination q8. -/
theorem witness_decode_checks : let x := { strand0 with
      rst := vset (vset strand0.rst 1 .empty) 2 (.await 9)
      late := List.replicate 8 ⟨9, 2, 1, 0, 0, false, none⟩ };
    regSt x 1 = .empty ∧ regSt x 3 = .full ∧ regSt x 2 = .await 9 ∧ 8 ≤ x.late.length ∧ 24 ≤ (24 : BitVec 5).toNat ∧
    (27 : BitVec 5).toNat < 28 := by decide +kernel

/-- R31: a strand that is settled retires with `.k`, one with a posted store parks. -/
theorem witness_retirement : settled (one strand0) 0 = true ∧ settled (one { strand0 with posted := 1 }) 0 = false := by decide +kernel

/-- R45, R49: a well-formed instruction and its encoding. -/
theorem witness_encoding : (Instr.addi 40 0 3 0).wf = true ∧ encode (.addi 40 0 3 0) = some 0x0280018A := by decide +kernel


end Sys2Proof.Tests
end

section
/-! SUPPORT. Operands and words of the scalar instructions. -/

namespace Sys2Proof.Machine

open Sys2Proof Sys2Proof.Claims

/-! ### Operands past decode (R51, R81) -/

/-- A pop changes queues of the core, never the strand that pops. -/
@[simp] theorem me_popPort (c : Nat) (s : State) : (popPort c s).2.me = s.me := by
  unfold popPort
  split_ifs <;> simp

/-- Reading a source leaves the strand as it is, a port or not. -/
@[simp] theorem me_rdOp (a : BitVec 5) (s : State) : (rdOp a s).2.me = s.me := by
  unfold rdOp
  split
  · rfl
  · exact me_popPort _ _

/-- A source that passes decode is full, so it holds no expression over a symbol. -/
theorem intExpr_of_decodes {p l srcs dsts} {s : State} (h : Decodes p srcs dsts l s) {r : BitVec 5} (hr : r ∈ srcs) :
    intExpr s.me r = none := by
  unfold intExpr
  split
  · rfl
  · rw [full_of_decodes h hr (by omega)]

/-- R83: a two-source instruction past decode. -/
theorem alu2_of_decodes {b a d : BitVec 5} {s : State} (h : Decodes true [a, b] [d] false s) (f : Word → Word → Word)
    (k : BitVec 1) :
    alu2 f b a d k s = retire k (wrOp d (f (rdOp a s).1 (rdOp b (rdOp a s).2).1) (rdOp b (rdOp a s).2).2) :=
  decodeOk_of h

/-- R83: a one-source instruction past decode. -/
theorem alu1_of_decodes {a d : BitVec 5} {s : State} (h : Decodes true [a] [d] false s) (f : Word → Word) (k : BitVec 1) :
    alu1 f a d k s = retire k (wrOp d (f (rdOp a s).1) (rdOp a s).2) :=
  decodeOk_of h

/-- R110: with full sources nothing folds. -/
theorem fold2_of_decodes {b a d : BitVec 5} {s : State} (h : Decodes true [a, b] [d] false s)
    (g : Word × Word → Word × Word → Option (Word × Word)) (f : Word → Word → Word) (k : BitVec 1) :
    fold2 g f b a d k s = alu2 f b a d k s := by
  simp [fold2, intExpr_of_decodes h]

theorem fold1_of_decodes {a d : BitVec 5} {s : State} (h : Decodes true [a] [d] false s)
    (g : Word × Word → Word × Word) (f : Word → Word) (k : BitVec 1) :
    fold1 g f a d k s = alu1 f a d k s := by
  simp [fold1, intExpr_of_decodes h]

/-- R87: a comparing branch past decode; its target counts from the PC at which it issued. -/
theorem branch_of_decodes {b a : BitVec 5} {s : State} (h : Decodes true [a, b] [] false s) (c : Word → Word → Bool)
    (o : BitVec 12) (k : BitVec 1) :
    branch c o b a k s = retireAt (if c (rdOp a s).1 (rdOp b (rdOp a s).2).1 then target s.me.pc o else s.me.pc + 4) k
      (rdOp b (rdOp a s).2).2 := by
  rw [branch, show decodeOk true [a.toNat, b.toNat] [] false _ s = _ from decodeOk_of h]
  simp

/-! ### Bits and sign extension (R52) -/

/-- The top bit of the low n + 1 bits says whether they reach 2^n. -/
theorem bit_iff_le_mod (x n : Nat) : bit x n = true ↔ 2 ^ n ≤ x % 2 ^ (n + 1) := by
  have hlow : x % 2 ^ n < 2 ^ n := Nat.mod_lt _ (by positivity)
  have hsplit : x % 2 ^ (n + 1) = x % 2 ^ n + 2 ^ n * (x / 2 ^ n % 2) := Nat.mod_pow_succ
  simp only [bit, decide_eq_true_eq]
  obtain h | h := Nat.mod_two_eq_zero_or_one (x / 2 ^ n) <;> rw [h] at hsplit ⊢ <;> simp <;> omega

/-- The value of a sign extension by cases on the value of the low bits. -/
theorem sextN_succ (x n : Nat) :
    sextN x (n + 1) = BitVec.ofInt 64 (if x % 2 ^ (n + 1) < 2 ^ n then (x % 2 ^ (n + 1) : Nat)
      else (x % 2 ^ (n + 1) : Nat) - (2 ^ (n + 1) : Nat)) := by
  unfold sextN
  simp only [Nat.add_sub_cancel, bit_iff_le_mod]
  by_cases h : x % 2 ^ (n + 1) < 2 ^ n
  · rw [if_neg (by omega), if_pos h, BitVec.ofInt_natCast]
  · rw [if_pos (by omega), if_neg h]

/-- Sign extension of a bit vector to a word, on its value. -/
theorem signExtend_eq_sextN {n : Nat} (v : BitVec (n + 1)) : v.signExtend 64 = sextN v.toNat (n + 1) := by
  have hv : v.toNat % 2 ^ (n + 1) = v.toNat := Nat.mod_eq_of_lt v.isLt
  rw [sextN_succ, hv, BitVec.signExtend, BitVec.toInt_eq_toNat_cond]
  have hpow : 2 ^ (n + 1) = 2 * 2 ^ n := by rw [Nat.pow_succ]; omega
  congr 1
  by_cases h : v.toNat < 2 ^ n
  · rw [if_pos h, if_pos (by omega)]
  · rw [if_neg h, if_neg (by omega)]

/-- Zero extension keeps the low bits, as a mask does. -/
theorem and_mask_eq_zextN (x : Word) {n : Nat} (h : n ≤ 64) : x &&& BitVec.ofNat 64 (2 ^ n - 1) = zextN x.toNat n := by
  have hp : 2 ^ n ≤ 2 ^ 64 := Nat.pow_le_pow_right (by omega) h
  have h0 : 0 < 2 ^ n := by positivity
  apply BitVec.eq_of_toNat_eq
  rw [zextN, BitVec.toNat_and, BitVec.toNat_ofNat, BitVec.toNat_ofNat, Nat.mod_eq_of_lt (a := 2 ^ n - 1) (by omega),
    Nat.and_two_pow_sub_one_eq_mod, Nat.mod_eq_of_lt ((Nat.mod_lt _ h0).trans_le hp)]

end Sys2Proof.Machine

namespace Sys2Proof.Claims

open Sys2Proof Sys2Proof.Machine

/-! ### The results of R83 and R84 -/

theorem sextN_eq_sx (x : Word) (n : Nat) : sextN x.toNat (n + 1) = sx x (n + 1) := by
  rw [sextN_succ, sx, Nat.add_sub_cancel]

theorem add_eq_ofNat (a b : Word) : a + b = BitVec.ofNat 64 (a.toNat + b.toNat) :=
  BitVec.eq_of_toNat_eq (by simp)

theorem sub_eq_ofInt (a b : Word) : a - b = BitVec.ofInt 64 (a.toInt - b.toInt) :=
  BitVec.eq_of_toInt_eq (by simp [BitVec.toInt_sub])

theorem mul_eq_ofNat (a b : Word) : a * b = BitVec.ofNat 64 (a.toNat * b.toNat) :=
  BitVec.eq_of_toNat_eq (by simp)

theorem shiftLeft_eq_ofNat (a : Word) (n : Nat) : a <<< n = BitVec.ofNat 64 (a.toNat * 2 ^ n) :=
  BitVec.eq_of_toNat_eq (by simp [Nat.shiftLeft_eq])

theorem ushiftRight_eq_ofNat (a : Word) (n : Nat) : a >>> n = BitVec.ofNat 64 (a.toNat / 2 ^ n) := by
  apply BitVec.eq_of_toNat_eq
  rw [BitVec.toNat_ushiftRight, BitVec.toNat_ofNat, Nat.shiftRight_eq_div_pow,
    Nat.mod_eq_of_lt ((Nat.div_le_self _ _).trans_lt a.isLt)]

theorem sshiftRight_eq_sar (a : Word) (n : Nat) : a.sshiftRight n = sar a n := by
  rw [sar, ← Int.shiftRight_eq_div_pow, ← BitVec.toInt_sshiftRight, BitVec.ofInt_toInt]

theorem boolW_decide (p : Prop) [Decidable p] : boolW (decide p) = if p then 1 else 0 := by simp [boolW]

/-- Where the keys are equal the operands are the same word, so a strict and a weak comparison choose alike. -/
theorem ite_lt_eq_ite_le {α : Type} [LinearOrder α] {key : Word → α} (hkey : Function.Injective key) {a b x y : Word}
    (hxy : a = b → x = y) : (if key a < key b then x else y) = if key a ≤ key b then x else y := by
  obtain h | h | h := lt_trichotomy (key a) (key b)
  · rw [if_pos h, if_pos h.le]
  · rw [hxy (hkey h)]; simp
  · rw [if_neg h.le.not_gt, if_neg h.not_ge]

theorem toInt_injective : Function.Injective (BitVec.toInt : Word → Int) := fun _ _ => BitVec.toInt_inj.1

theorem minW_eq (a b : Word) : minW a b = if a.toInt ≤ b.toInt then a else b :=
  ite_lt_eq_ite_le toInt_injective id

theorem maxW_eq (a b : Word) : maxW a b = if a.toInt ≤ b.toInt then b else a :=
  ite_lt_eq_ite_le toInt_injective Eq.symm

theorem minuW_eq (a b : Word) : minuW a b = if a.toNat ≤ b.toNat then a else b :=
  ite_lt_eq_ite_le BitVec.toNat_injective id

theorem maxuW_eq (a b : Word) : maxuW a b = if a.toNat ≤ b.toNat then b else a :=
  ite_lt_eq_ite_le BitVec.toNat_injective Eq.symm

theorem remW_eq (a b : Word) : remW a b = if b = 0 then a else BitVec.ofInt 64 (a.toInt - b.toInt * a.toInt.tdiv b.toInt) := by
  rw [remW, Int.tmod_def]

theorem remuW_eq (a b : Word) : remuW a b = if b = 0 then a else BitVec.ofNat 64 (a.toNat - b.toNat * (a.toNat / b.toNat)) := by
  rw [remuW, w64, Nat.mod_def]

/-! ### Counts of bits -/

/-- The first true index below n, or n. -/
theorem zeros_eq_find (f : Nat → Bool) (n : Nat) : zeros f n = ((List.range n).find? f).getD n := by
  induction n generalizing f with
  | zero => rfl
  | succ n ih =>
    rw [zeros, List.range_succ_eq_map, List.find?_cons, List.find?_map]
    cases h : f 0 with
    | true => simp
    | false =>
      have hcomp : (f ∘ Nat.succ) = fun i => f (i + 1) := rfl
      rw [ih, hcomp]
      cases (List.range n).find? (fun i => f (i + 1)) with
      | none => simp; omega
      | some j => simp; omega

theorem zeros_of_first {f : Nat → Bool} {n j : Nat} (hj : j < n) (hf : f j = true) (hlow : ∀ i < j, f i = false) :
    zeros f n = j := by
  have : (List.range n).find? f = some j := by
    rw [List.find?_range_eq_some]
    exact ⟨hf, by simpa using hj, fun i hi => by simp [hlow i hi]⟩
  rw [zeros_eq_find, this, Option.getD_some]

theorem clzW_eq_zeros (a : Word) : clzW a = BitVec.ofNat 64 (zeros (fun i => a.getLsbD (63 - i)) 64) := by
  unfold clzW
  by_cases h : a = 0
  · subst h; rfl
  · have h0 : a.toNat ≠ 0 := fun h' => h (BitVec.eq_of_toNat_eq (by simpa using h'))
    have hlog : Nat.log2 a.toNat < 64 := (Nat.log2_lt h0).2 a.isLt
    rw [if_neg h, w64, zeros_of_first (j := 63 - Nat.log2 a.toNat) (by omega)]
    · rw [show 63 - (63 - Nat.log2 a.toNat) = Nat.log2 a.toNat by omega]
      exact Nat.testBit_log2 h0
    · intro i hi
      exact Nat.testBit_lt_two_pow ((Nat.log2_lt h0).1 (by omega))

theorem ctzW_eq_zeros (a : Word) : ctzW a = BitVec.ofNat 64 (zeros (fun i => a.getLsbD i) 64) := by
  rw [ctzW, w64, zeros_eq_find]

theorem length_filter_eq_sum (p : Nat → Bool) (l : List Nat) : (l.filter p).length = (l.map (fun i => b2n (p i))).sum := by
  induction l with
  | nil => rfl
  | cons i l ih =>
    rw [List.map_cons, List.sum_cons, ← ih, List.filter_cons]
    cases p i with
    | false => simp [b2n]
    | true => simp [b2n]; omega

theorem popcW_eq_sum (a : Word) : popcW a = BitVec.ofNat 64 (((List.range 64).map (fun i => b2n (a.getLsbD i))).sum) := by
  rw [popcW, w64, length_filter_eq_sum]

/-- R85: the upper immediate. -/
theorem immU_eq_sx (i : BitVec 20) : immU i = sx (BitVec.ofNat 64 (i.toNat * 4096)) 32 := by
  have hv : (i ++ (0 : BitVec 12)).toNat = (BitVec.ofNat 64 (i.toNat * 4096)).toNat := by
    have := i.isLt
    rw [BitVec.toNat_append, BitVec.toNat_ofNat, Nat.shiftLeft_eq]
    simp
    omega
  rw [immU, signExtend_eq_sextN (n := 31), hv, sextN_eq_sx]

end Sys2Proof.Claims
end

section
/-! SUPPORT. Integer arithmetic, branches, jumps and register tests (R83 to R90). -/

namespace Sys2Proof.Claims

open Sys2Proof Sys2Proof.Machine

/-! ### The rows of the integer tables -/

/-- What a row of `twoSource` claims of its instruction. -/
def WritesTwo (op : BitVec 5 → BitVec 5 → BitVec 5 → BitVec 1 → Instr) (f : Word → Word → Word) : Prop :=
  ∀ (b a d : BitVec 5) (k : BitVec 1) (s : State), Decodes true [a, b] [d] false s →
    exec (op b a d k) s = .next (retire k (wrOp d (f (rdOp a s).1 (rdOp b (rdOp a s).2).1) (rdOp b (rdOp a s).2).2))

/-- What a row of `oneSource` claims, and for each immediate a row of `withImmediate` or `withShift`. -/
def WritesOne (op : BitVec 5 → BitVec 5 → BitVec 1 → Instr) (f : Word → Word) : Prop :=
  ∀ (a d : BitVec 5) (k : BitVec 1) (s : State), Decodes true [a] [d] false s →
    exec (op a d k) s = .next (retire k (wrOp d (f (rdOp a s).1) (rdOp a s).2))

/-- A row whose instruction is a two-source operation g that does not fold. -/
theorem writesTwo_of_alu2 {op f} (g : Word → Word → Word) (hg : ∀ x y, g x y = f x y)
    (hop : ∀ b a d k s, exec (op b a d k) s = .next (alu2 g b a d k s) := by intros; rfl) : WritesTwo op f := by
  intro b a d k s h
  rw [hop, alu2_of_decodes h, hg]

/-- A row whose instruction folds by e, where both sources are full. -/
theorem writesTwo_of_fold2 {op f} (e : Word × Word → Word × Word → Option (Word × Word)) (g : Word → Word → Word)
    (hg : ∀ x y, g x y = f x y)
    (hop : ∀ b a d k s, exec (op b a d k) s = .next (fold2 e g b a d k s) := by intros; rfl) : WritesTwo op f := by
  intro b a d k s h
  rw [hop, fold2_of_decodes h, alu2_of_decodes h, hg]

theorem writesOne_of_alu1 {op f} (g : Word → Word) (hg : ∀ x, g x = f x)
    (hop : ∀ a d k s, exec (op a d k) s = .next (alu1 g a d k s) := by intros; rfl) : WritesOne op f := by
  intro a d k s h
  rw [hop, alu1_of_decodes h, hg]

theorem writesOne_of_fold1 {op f} (e : Word × Word → Word × Word) (g : Word → Word) (hg : ∀ x, g x = f x)
    (hop : ∀ a d k s, exec (op a d k) s = .next (fold1 e g a d k s) := by intros; rfl) : WritesOne op f := by
  intro a d k s h
  rw [hop, fold1_of_decodes h, alu1_of_decodes h, hg]

theorem integerTwoSource : IntegerTwoSource := by
  suffices h : ∀ p ∈ twoSource, WritesTwo p.1 p.2 from fun op f hop => h (op, f) hop
  simp only [twoSource, List.forall_mem_cons]
  exact ⟨
    writesTwo_of_fold2 foldAdd (· + ·) add_eq_ofNat,
    writesTwo_of_fold2 foldSub (· - ·) sub_eq_ofInt,
    writesTwo_of_alu2 (· &&& ·) (fun _ _ => rfl),
    writesTwo_of_alu2 (· ||| ·) (fun _ _ => rfl),
    writesTwo_of_alu2 (· ^^^ ·) (fun _ _ => rfl),
    writesTwo_of_alu2 sllW (fun a b => shiftLeft_eq_ofNat a (sh6 b)),
    writesTwo_of_alu2 srlW (fun a b => ushiftRight_eq_ofNat a (sh6 b)),
    writesTwo_of_alu2 sraW (fun a b => sshiftRight_eq_sar a (sh6 b)),
    writesTwo_of_alu2 sltW (fun _ _ => boolW_decide _),
    writesTwo_of_alu2 sltuW (fun _ _ => boolW_decide _),
    writesTwo_of_alu2 minW minW_eq,
    writesTwo_of_alu2 maxW maxW_eq,
    writesTwo_of_alu2 minuW minuW_eq,
    writesTwo_of_alu2 maxuW maxuW_eq,
    writesTwo_of_fold2 foldMul (· * ·) mul_eq_ofNat,
    writesTwo_of_alu2 mulhW (fun _ _ => rfl),
    writesTwo_of_alu2 mulhuW (fun _ _ => rfl),
    writesTwo_of_alu2 divW (fun _ _ => rfl),
    writesTwo_of_alu2 divuW (fun _ _ => rfl),
    writesTwo_of_alu2 remW remW_eq,
    writesTwo_of_alu2 remuW remuW_eq,
    List.forall_mem_nil _⟩

theorem integerOneSource : IntegerOneSource := by
  suffices h : ∀ p ∈ oneSource, WritesOne p.1 p.2 from fun op f hop => h (op, f) hop
  simp only [oneSource, List.forall_mem_cons]
  exact ⟨
    writesOne_of_alu1 clzW clzW_eq_zeros,
    writesOne_of_alu1 ctzW ctzW_eq_zeros,
    writesOne_of_alu1 popcW popcW_eq_sum,
    writesOne_of_alu1 (fun x => sextN x.toNat 8) (fun a => sextN_eq_sx a 7),
    writesOne_of_alu1 (fun x => sextN x.toNat 16) (fun a => sextN_eq_sx a 15),
    writesOne_of_alu1 (fun x => sextN x.toNat 32) (fun a => sextN_eq_sx a 31),
    writesOne_of_alu1 (fun x => zextN x.toNat 8) (fun a => (and_mask_eq_zextN a (by decide)).symm),
    writesOne_of_alu1 (fun x => zextN x.toNat 16) (fun a => (and_mask_eq_zextN a (by decide)).symm),
    writesOne_of_alu1 (fun x => zextN x.toNat 32) (fun a => (and_mask_eq_zextN a (by decide)).symm),
    List.forall_mem_nil _⟩

theorem writesOne_withImmediate (i : BitVec 12) :
    ∀ p ∈ withImmediate, WritesOne (p.1 i) (fun a => p.2 a (i.signExtend 64)) := by
  simp only [withImmediate, List.forall_mem_cons]
  exact ⟨
    writesOne_of_fold1 (fun x => (x.1, x.2 + imm12 i)) (· + imm12 i) (fun _ => rfl),
    writesOne_of_alu1 (sltW · (imm12 i)) (fun _ => boolW_decide _),
    writesOne_of_alu1 (sltuW · (imm12 i)) (fun _ => boolW_decide _),
    writesOne_of_alu1 (· ^^^ imm12 i) (fun _ => rfl),
    writesOne_of_alu1 (· ||| imm12 i) (fun _ => rfl),
    writesOne_of_alu1 (· &&& imm12 i) (fun _ => rfl),
    List.forall_mem_nil _⟩

theorem writesOne_withShift (n : BitVec 6) : ∀ p ∈ withShift, WritesOne (p.1 n) (fun a => p.2 a n.toNat) := by
  simp only [withShift, List.forall_mem_cons]
  exact ⟨
    writesOne_of_fold1 (fun x => (x.1 <<< n.toNat, x.2 <<< n.toNat)) (· <<< n.toNat) (fun a => shiftLeft_eq_ofNat a n.toNat),
    writesOne_of_alu1 (· >>> n.toNat) (fun a => ushiftRight_eq_ofNat a n.toNat),
    writesOne_of_alu1 (fun x => x.sshiftRight n.toNat) (fun a => sshiftRight_eq_sar a n.toNat),
    List.forall_mem_nil _⟩

/-- R85: `lui` and `auipc` read no register and write the upper immediate, to the PC added or alone. -/
theorem exec_lui_of_decodes {d : BitVec 5} {s : State} (h : Decodes true [] [d] false s) (i : BitVec 20) (k : BitVec 1) :
    exec (.lui i d k) s = .next (retire k (wrOp d (immU i) s)) :=
  congrArg Host.Outcome.next (decodeOk_of h)

theorem exec_auipc_of_decodes {d : BitVec 5} {s : State} (h : Decodes true [] [d] false s) (i : BitVec 20) (k : BitVec 1) :
    exec (.auipc i d k) s = .next (retire k (wrOp d (s.me.pc + immU i) s)) :=
  congrArg Host.Outcome.next (decodeOk_of h)

theorem integerImmediate : IntegerImmediate := by
  refine ⟨fun op f hop i => writesOne_withImmediate i (op, f) hop, fun op f hop n => writesOne_withShift n (op, f) hop,
    fun i d k s h => ?_⟩
  rw [exec_lui_of_decodes h, exec_auipc_of_decodes h, immU_eq_sx]
  exact ⟨rfl, rfl⟩

/-- Settles O1: past decode each row's instruction is its model function on the two values read, and each model function is
the table's. -/
theorem integerArithmetic : Obligations.IntegerArithmetic :=
  ⟨integerTwoSource, integerOneSource, integerImmediate⟩

/-! ### Branches, jumps, tests -/

/-- What a row of `branches` claims of its instruction. -/
def BranchesOn (op : BitVec 12 → BitVec 5 → BitVec 5 → BitVec 1 → Instr) (c : Word → Word → Bool) : Prop :=
  ∀ (o : BitVec 12) (b a : BitVec 5) (k : BitVec 1) (s : State), Decodes true [a, b] [] false s →
    exec (op o b a k) s =
      .next (retireAt (if c (rdOp a s).1 (rdOp b (rdOp a s).2).1 then s.me.pc + o.signExtend 64 * 4 else s.me.pc + 4) k
        (rdOp b (rdOp a s).2).2)

theorem branchesOn_of_branch {op c} (g : Word → Word → Bool) (hg : ∀ x y, g x y = c x y)
    (hop : ∀ o b a k s, exec (op o b a k) s = .next (branch g o b a k s) := by intros; rfl) : BranchesOn op c := by
  intro o b a k s h
  rw [hop, branch_of_decodes h, hg, target]

theorem branchesOn_branches : ∀ p ∈ branches, BranchesOn p.1 p.2 := by
  simp only [branches, List.forall_mem_cons]
  exact ⟨
    branchesOn_of_branch (fun x y => decide (x = y)) (fun _ _ => decide_eq_decide.2 BitVec.toNat_inj.symm),
    branchesOn_of_branch (fun x y => decide (x ≠ y)) (fun _ _ => decide_eq_decide.2 BitVec.toNat_inj.symm.not),
    branchesOn_of_branch (fun x y => decide (x.toInt < y.toInt)) (fun _ _ => rfl),
    branchesOn_of_branch (fun x y => decide (y.toInt ≤ x.toInt)) (fun _ _ => rfl),
    branchesOn_of_branch (fun x y => decide (x.toNat < y.toNat)) (fun _ _ => rfl),
    branchesOn_of_branch (fun x y => decide (y.toNat ≤ x.toNat)) (fun _ _ => rfl),
    List.forall_mem_nil _⟩

/-- R89: `jal` past decode. -/
theorem exec_jal_of_decodes {d : BitVec 5} {s : State} (h : Decodes true [] [d] false s) (i : BitVec 20) (k : BitVec 1) :
    exec (.jal i d k) s = .next (retireAt (s.me.pc + i.signExtend 64 * 4) k (wrOp d (s.me.pc + 4) s)) :=
  congrArg Host.Outcome.next (decodeOk_of h)

/-- R90: `jalr` past decode; a target that is not a multiple of 4 traps before anything is popped or written. -/
theorem exec_jalr_of_decodes {a d : BitVec 5} {s : State} (h : Decodes true [a] [d] false s) (i : BitVec 12) (k : BitVec 1) :
    exec (.jalr i a d k) s = .next (if ((rdOp a s).1 + i.signExtend 64).toNat % 4 ≠ 0
      then raise 3 ((rdOp a s).1 + i.signExtend 64) s
      else retireAt ((rdOp a s).1 + i.signExtend 64) k (wrOp d (s.me.pc + 4) (rdOp a s).2)) :=
  congrArg Host.Outcome.next (decodeOk_of h)

theorem branchesAndJumps : BranchesAndJumps := by
  refine ⟨fun op c hop => branchesOn_branches (op, c) hop, fun i d k s h => exec_jal_of_decodes h i k, fun i a d k s h => ?_⟩
  rw [exec_jalr_of_decodes h, ite_not]

/-- R88: a test of an s register names no port, so it neither traps nor parks. -/
theorem branchFull_low {a : BitVec 5} (ha : a.toNat < 16) (want : Bool) (o : BitVec 12) (k : BitVec 1) (s : State) :
    branchFull want o a k s = retireAt (if isFull s.me a.toNat = want then target s.me.pc o else s.me.pc + 4) k s := by
  rw [branchFull, if_neg (by omega), testFull, if_pos ha]

theorem registerTests : RegisterTests := by
  intro o a k s ha
  have hfull : exec (.bfull o a k) s = .next (branchFull true o a k s) := rfl
  have hempty : exec (.bempty o a k) s = .next (branchFull false o a k s) := rfl
  rw [hfull, hempty, branchFull_low ha, branchFull_low ha, isFull, target]
  by_cases h : regSt s.me a.toNat = .full
  · simp [h]
  · simp [h]

/-- Settles O2: the comparing branches read both sources before they compare, and a test of an s register reads its state alone. -/
theorem branchesAndTests : Obligations.BranchesAndTests :=
  ⟨branchesAndJumps, registerTests⟩

end Sys2Proof.Claims
end

section
/-! SUPPORT. Floating-point minimum, maximum, comparisons, classes and conversions (R94 to R96). -/

namespace Sys2Proof.Machine

open Sys2Proof Sys2Proof.Claims

/-! ### FOP instructions past decode (R92) -/

/-- A mask of 32 ones gives the value of the low word. -/
theorem toNat_and_low_word (v : Word) : (v &&& 0xFFFFFFFF).toNat = v.toNat % 2 ^ 32 := by
  rw [BitVec.toNat_and]
  exact Nat.and_two_pow_sub_one_eq_mod v.toNat 32

/-- R92: an operand's pattern. -/
theorem fopPat_eq_fpOperand (f : BitVec 1) (v : Word) : fopPat f v = fpOperand f v := by
  rw [fopPat, fpOperand, toNat_and_low_word]

theorem modeOf_eq_fpMode (rm : BitVec 3) (s : State) : modeOf s.me rm = fpMode rm s := by
  unfold modeOf fpMode rmOf
  split
  · rfl
  · rfl

/-- A two-source FOP instruction past decode: g of the two patterns. -/
theorem fop3_of_decodes {b a d : BitVec 5} {s : State} (h : Decodes true [a, b] [d] false s) (f : BitVec 1) (k : BitVec 1)
    (g : Nat → Nat → Nat → Word × FFlags) :
    fop3 f false b a d k g s = fpDone k d (g (fpOperand f (rdOp a s).1) (fpOperand f (rdOp b (rdOp a s).2).1) (fpOperand f 0))
      (rdOp b (rdOp a s).2).2 := by
  simp only [← fopPat_eq_fpOperand]
  exact decodeOk_of h

/-- A one-source FOP instruction past decode. -/
theorem fop1_of_decodes {a d : BitVec 5} {s : State} (h : Decodes true [a] [d] false s) (f : BitVec 1) (k : BitVec 1)
    (g : Nat → Word × FFlags) :
    fop1 f a d k g s = fpDone k d (g (fpOperand f (rdOp a s).1)) (rdOp a s).2 := by
  simp only [← fopPat_eq_fpOperand]
  exact decodeOk_of h

/-! ### Conversions (R96) -/

theorem cvtSource_eq_cvtFrom (t : BitVec 3) (s : State) (v : Word) : cvtSource t (ftzOf s.me) v = cvtFrom t s v := by
  simp only [cvtFrom, toNat_and_low_word, ← sextN_eq_sx]
  fin_cases t <;> rfl

theorem intTarget_eq_cvtRange (t : BitVec 3) : intTarget t = cvtRange t := by
  fin_cases t <;> rfl

end Sys2Proof.Machine

namespace Sys2Proof.Claims

open Sys2Proof Sys2Proof.Machine

/-! ### Comparisons (R94) -/

/-- What a row of `fpRelations` claims of its instruction, the result as a test of the order. -/
def ComparesBy (op : BitVec 1 → BitVec 5 → BitVec 5 → BitVec 5 → BitVec 1 → Instr) (r : Ordering → Bool) (q : Bool) : Prop :=
  ∀ (f : BitVec 1) (b a d : BitVec 5) (k : BitVec 1) (s : State), Decodes true [a, b] [d] false s →
    let x := fpIn f s (rdOp a s).1
    let y := fpIn f s (rdOp b (rdOp a s).2).1
    exec (op f b a d k) s = .next (fpDone k d
      (boolW ((fcmp x y).any r), if x.isSnan ∨ y.isSnan ∨ (q = true ∧ (x.isNan ∨ y.isNan)) then fNV else 0)
      (rdOp b (rdOp a s).2).2)

/-- A comparison with a NaN does not hold. -/
theorem frel_holds {n : Nat} {r : Ordering → Bool} (hlt : r .lt = decide (n ≠ 0)) (heq : r .eq = decide (n ≠ 1))
    (hgt : r .gt = false) (x y : FVal) : (frel n x y).1 = (fcmp x y).any r := by
  unfold frel
  cases fcmp x y with
  | none => rfl
  | some o =>
    cases o with
    | lt => exact hlt.symm
    | eq => exact heq.symm
    | gt => exact hgt.symm

theorem isNan_of_isSnan {x : FVal} (h : x.isSnan = true) : x.isNan = true := by
  cases x with
  | nan _ => rfl
  | inf _ => cases h
  | num _ _ _ _ => cases h

/-- `feq` signals a signalling NaN only, `flt` and `fle` any NaN. -/
theorem frel_flags (n : Nat) (x y : FVal) :
    (frel n x y).2 = if x.isSnan ∨ y.isSnan ∨ (decide (n ≠ 0) = true ∧ (x.isNan ∨ y.isNan)) then fNV else 0 := by
  by_cases h : n = 0
  · simp [frel, h]
  · have hx := isNan_of_isSnan (x := x)
    have hy := isNan_of_isSnan (x := y)
    simp only [frel, h, if_false]
    refine if_congr ?_ rfl rfl
    simp
    tauto

theorem comparesBy_of_fcompare {op r} (n : Nat) (hlt : r .lt = decide (n ≠ 0)) (heq : r .eq = decide (n ≠ 1)) (hgt : r .gt = false)
    (hop : ∀ f b a d k s, exec (op f b a d k) s = .next (fcompare n f b a d k s) := by intros; rfl) :
    ComparesBy op r (decide (n ≠ 0)) := by
  intro f b a d k s h x y
  rw [hop, fcompare, fop3_of_decodes h, ← frel_holds hlt heq hgt, ← frel_flags]
  rfl

theorem comparesBy_fpRelations : ∀ p ∈ fpRelations, ComparesBy p.1 p.2.1 p.2.2 := by
  simp only [fpRelations, List.forall_mem_cons]
  exact ⟨
    comparesBy_of_fcompare 0 rfl rfl rfl,
    comparesBy_of_fcompare 1 rfl rfl rfl,
    comparesBy_of_fcompare 2 rfl rfl rfl,
    List.forall_mem_nil _⟩

/-! ### Classes (R95) -/

/-- The class of a pattern from its sign, its exponent field e of p bits and its fraction field m of q bits. -/
def classOf (neg : Bool) (p q e m : Nat) : Nat :=
  if e = 2 ^ p - 1 then (if m = 0 then (if neg then 0 else 7) else if 2 ^ (q - 1) ≤ m then 9 else 8)
  else if e = 0 then (if m = 0 then (if neg then 3 else 4) else if neg then 2 else 5)
  else if neg then 1 else 6

theorem classBit_eq_classOf (f : BitVec 1) (v : Nat) :
    classBit f v = classOf (bit v (ebits (fpFormat f) + fbits (fpFormat f))) (ebits (fpFormat f)) (fbits (fpFormat f))
      (v / 2 ^ fbits (fpFormat f) % 2 ^ ebits (fpFormat f)) (v % 2 ^ fbits (fpFormat f)) := by
  fin_cases f <;> rfl

/-- The quiet bit is the top bit of the fraction. -/
theorem bit_top_fraction {q m : Nat} (hq : 0 < q) (hm : m < 2 ^ q) : bit m (q - 1) = decide (2 ^ (q - 1) ≤ m) := by
  obtain ⟨n, rfl⟩ : ∃ n, q = n + 1 := ⟨q - 1, by omega⟩
  rw [Bool.eq_iff_iff, decide_eq_true_iff, Nat.add_sub_cancel, bit_iff_le_mod, Nat.mod_eq_of_lt hm]

/-- R95, by the fields as R202 reads them: the largest exponent, exponent 0, and those between. -/
theorem fclassOf_eq_classOf {fmt : Nat} (h8 : fmt ≠ 8) (h9 : fmt ≠ 9) (h11 : fmt ≠ 11) (hw : 0 < fbits fmt) (v : Nat) :
    fclassOf fmt v = 2 ^ classOf (bit v (ebits fmt + fbits fmt)) (ebits fmt) (fbits fmt)
      (v / 2 ^ fbits fmt % 2 ^ ebits fmt) (v % 2 ^ fbits fmt) := by
  have hm : v % 2 ^ fbits fmt < 2 ^ fbits fmt := Nat.mod_lt _ (by positivity)
  have hquiet := bit_top_fraction hw hm
  simp only [fclassOf, fdec, isSub, classOf, h8, hquiet]
  by_cases hmax : v / 2 ^ fbits fmt % 2 ^ ebits fmt = 2 ^ ebits fmt - 1
  · by_cases h0 : v % 2 ^ fbits fmt = 0
    · cases bit v (ebits fmt + fbits fmt) <;> simp [hmax, h0]
    · by_cases hle : 2 ^ (fbits fmt - 1) ≤ v % 2 ^ fbits fmt <;> simp [hmax, h0, hle, h9, h11]
  · by_cases he : v / 2 ^ fbits fmt % 2 ^ ebits fmt = 0
    · have hmax0 : 0 ≠ 2 ^ ebits fmt - 1 := he ▸ hmax
      by_cases h0 : v % 2 ^ fbits fmt = 0
      · cases bit v (ebits fmt + fbits fmt) <;> simp [he, hmax0, h0]
      · cases bit v (ebits fmt + fbits fmt) <;> simp [he, hmax0, h0]
    · cases bit v (ebits fmt + fbits fmt) <;> simp [he, hmax]

/-- Binary32 and binary64 are both read by the fields that `classBit` names. -/
theorem fclassOf_eq_classBit (f : BitVec 1) (v : Nat) : fclassOf (fpFormat f) v = 2 ^ classBit f v := by
  rw [classBit_eq_classOf]
  fin_cases f
  · exact fclassOf_eq_classOf (by decide) (by decide) (by decide) (by decide) v
  · exact fclassOf_eq_classOf (by decide) (by decide) (by decide) (by decide) v

/-- R94: the pattern that `fmin` or `fmax` chooses is written as it is. -/
theorem exec_fmin_of_decodes {b a d : BitVec 5} {s : State} (h : Decodes true [a, b] [d] false s) (f k : BitVec 1) :
    exec (.fmin f b a d k) s = .next (fpDone k d (fout (fminmax (fpFormat f) (ftzOf s.me) false
      (fpOperand f (rdOp a s).1) (fpOperand f (rdOp b (rdOp a s).2).1))) (rdOp b (rdOp a s).2).2) :=
  congrArg Host.Outcome.next (fop3_of_decodes h f k _)

theorem exec_fmax_of_decodes {b a d : BitVec 5} {s : State} (h : Decodes true [a, b] [d] false s) (f k : BitVec 1) :
    exec (.fmax f b a d k) s = .next (fpDone k d (fout (fminmax (fpFormat f) (ftzOf s.me) true
      (fpOperand f (rdOp a s).1) (fpOperand f (rdOp b (rdOp a s).2).1))) (rdOp b (rdOp a s).2).2) :=
  congrArg Host.Outcome.next (fop3_of_decodes h f k _)

theorem exec_fclass_of_decodes {a d : BitVec 5} {s : State} (h : Decodes true [a] [d] false s) (f k : BitVec 1) :
    exec (.fclass f a d k) s = .next (fpDone k d (w64 (fclassOf (fpFormat f) (fpOperand f (rdOp a s).1)), 0) (rdOp a s).2) :=
  congrArg Host.Outcome.next (fop1_of_decodes h f k _)

theorem floatCompare : FloatCompare := by
  refine ⟨fun f b a d k s h => ⟨exec_fmin_of_decodes h f k, exec_fmax_of_decodes h f k⟩, fun op r q hop f b a d k s h => ?_,
    fun f a d k s h => ?_⟩
  · rw [comparesBy_fpRelations (op, r, q) hop f b a d k s h]
    dsimp only
    cases fcmp (fpIn f s (rdOp a s).1) (fpIn f s (rdOp b (rdOp a s).2).1) with
    | none => rfl
    | some o => rfl
  · rw [exec_fclass_of_decodes h, fclassOf_eq_classBit, w64]

/-! ### Conversions (R96) -/

/-- R96: a conversion to floating point is one rounding of its source. -/
theorem exec_fcvtToFloat_of_decodes {a d : BitVec 5} {s : State} (h : Decodes true [a] [d] false s) (f : BitVec 1)
    (t rm : BitVec 3) (k : BitVec 1) :
    exec (.fcvtToFloat f t a rm d k) s = .next (fpDone k d (fpOut f (modeOf s.me rm) s
      (cvtSource t (ftzOf s.me) (rdOp a s).1, snanFlag (cvtSource t (ftzOf s.me) (rdOp a s).1))) (rdOp a s).2) :=
  congrArg Host.Outcome.next (decodeOk_of h)

/-- R96: a conversion to an integer clamps to the target's limits. -/
theorem exec_fcvtToInt_of_decodes {a d : BitVec 5} {s : State} (h : Decodes true [a] [d] false s) (f : BitVec 1)
    (t rm : BitVec 3) (k : BitVec 1) :
    exec (.fcvtToInt f t a rm d k) s = .next (fpDone k d
      (BitVec.ofInt 64 (toInt (modeOf s.me rm) (intTarget t).1 (intTarget t).2 (fpIn f s (rdOp a s).1)).1,
        (toInt (modeOf s.me rm) (intTarget t).1 (intTarget t).2 (fpIn f s (rdOp a s).1)).2) (rdOp a s).2) :=
  congrArg Host.Outcome.next (fop1_of_decodes h f k _)

/-- A NaN converts to the upper limit, an infinity to the limit of its sign, both with NV. -/
theorem toInt_of_roundInt_none {m : BitVec 2} {x : FVal} (h : roundInt m x = none) (lo hi : Int) :
    toInt m lo hi x = (if x = .inf true then lo else hi, fNV) := by
  cases x with
  | nan b => rfl
  | inf neg => cases neg <;> rfl
  | num n m e t => cases h

/-- A finite value is rounded, then clamped with NV; inside the limits NX says that rounding changed it. -/
theorem toInt_of_roundInt_some {m : BitVec 2} {x : FVal} {v : Int} {isExact : Bool} (h : roundInt m x = some (v, isExact))
    (lo hi : Int) :
    toInt m lo hi x = if v < lo then (lo, fNV) else if hi < v then (hi, fNV) else (v, if isExact then 0 else fNX) := by
  cases x with
  | nan b => cases h
  | inf neg => cases h
  | num n m e t => cases h; rfl

theorem floatConvert : FloatConvert := by
  refine ⟨fun f t a rm d k s h => ?_, fun f t a rm d k s h => ⟨_, _, exec_fcvtToInt_of_decodes h f t rm k, ?_⟩⟩
  · rw [exec_fcvtToFloat_of_decodes h, modeOf_eq_fpMode, cvtSource_eq_cvtFrom]
    rfl
  · rw [modeOf_eq_fpMode, intTarget_eq_cvtRange]
    cases hr : roundInt (fpMode rm s) (fpIn f s (rdOp a s).1) with
    | none =>
      rw [toInt_of_roundInt_none hr]
      exact ⟨rfl, rfl⟩
    | some p =>
      obtain ⟨v, isExact⟩ := p
      rw [toInt_of_roundInt_some hr]
      dsimp only
      split_ifs <;> exact ⟨rfl, rfl⟩

/-- Settles O3: the operations read the patterns of R92, `fclass` is decided by the fields of the pattern, and a conversion
to an integer is a rounding and a clamp. -/
theorem floatComparesAndConverts : Obligations.FloatComparesAndConverts :=
  ⟨floatCompare, floatConvert⟩

end Sys2Proof.Claims
end
